-- ==== Sys2Proof/Word.lean ====
section
/-! DEFINITION. The words of the OM-6400: register values, bytes, vector packets and the widths of the
register fields of an instruction (R2, R5, R36, R57). -/

namespace Sys2Proof

/-- A 64-bit register value: g, c and e registers, segment dwords, state registers (R36). -/
abbrev Word := BitVec 64

/-- One byte of memory. -/
abbrev Byte := BitVec 8

/-- A 512-bit vector register or packet of lanes (R36, R69). -/
abbrev Packet := BitVec 512

/-- A 5-bit register field: 0 to 15 name the private bank, 16 to 31 the core-shared bank (R5). -/
abbrev Reg := BitVec 5

/-- A 4-bit field that names the first e register of a run (R58). -/
abbrev EReg := BitVec 4

/-- A 3-bit field that names a segment register sg0 to sg7 (R58). -/
abbrev SReg := BitVec 3

end Sys2Proof
end

