-- ==== Sys2Proof/Config.lean ====
section
/-! DEFINITION. What an implementation fixes and the manual does not state. Each constant has no body, so that no
proof can depend on its value; each is named in the assumption log. -/

namespace Sys2Proof.Config

/-- Which of the two representable values that bracket the exact result VEXP2 (0), VLOG2 (1), VSIN (2) and VCOS (3)
deliver: true the upper one (R93, R369: a fixed function of the input on one part). The arguments are the operation,
the lane type's code and the lane's code. DESIGN CHOICE (log 1). -/
opaque faithfulUp : Nat → Nat → Nat → Bool

/-- The value of the n-th result that the manual leaves open (the model's own counter numbers them).
DESIGN CHOICE (log 2). -/
opaque freeWord : Nat → Word

/-- SHA-256 of the ROM (0) and of the Jasper firmware (1), in the attestation report (R265). DESIGN CHOICE (log 4). -/
opaque measurement : Nat → BitVec 256

/-- SHA-256 of a number of bytes, given as one number (R262, R265). DESIGN CHOICE (log 4). -/
opaque sha256 : Nat → Nat → BitVec 256

/-- The count of corrected errors at which an L2 slice or a commons bank moves to a spare (R267, R269). DESIGN CHOICE (log 8). -/
opaque eccThreshold : Nat

/-- The SLH-DSA signature over the first 256 bytes of the attestation report, given as that region's bits (R265). DESIGN CHOICE (log 4). -/
opaque signature : BitVec 2048 → BitVec 62848

/-- The sizes of the fabric in its four dimensions (R17, R222). DESIGN CHOICE (log 5). -/
opaque sizeA : Nat
opaque sizeB : Nat
opaque sizeX : Nat
opaque sizeY : Nat

/-- The members that a membership table names, by slot: the manual gives the table no layout (R235). The argument is the
number whose bytes are the 1,024 bytes at the table's address. DESIGN CHOICE (log 6). -/
opaque domainTable : Nat → List Nat

/-- The set, of 256 Ki, of a directory slice that a line falls in (R236). DESIGN CHOICE (log 7). -/
opaque directorySet : Nat → Nat → BitVec 18

/-- The HBM bank of a row of a frame, and the spare rows of a bank (R267). DESIGN CHOICE (log 8). -/
opaque rowBank : Nat → Nat → Nat
opaque bankSpares : Nat → Nat
/-- The spare HBM rows of the package (R266). DESIGN CHOICE (log 8). -/
opaque hbmSpares : Nat

/-- Whether the pages of a mapped file are OPEN (R254). DESIGN CHOICE (log 9). -/
opaque fileOpen : Bool

/-- The fused minimum security version of firmware images (R262). DESIGN CHOICE (log 10). -/
opaque fusedMinimum : BitVec 32

end Sys2Proof.Config
end

