-- ==== Sys2Proof/Syntax.lean ====
section
/-! DEFINITION. The instructions and the indivisible events of the OM-6400: one constructor of Instr for each row of
spec/opcode_table.json. The first group has encodings (R57 to R76); the second group are the table's events, which have
no encoding and whose arguments say what the manual leaves to the other agents (which thread, which line, which value a
link delivers). -/

namespace Sys2Proof

/-- The lane types of a packet, in the order of their ty codes (R69). -/
inductive LaneTy where
  | f32 | bf16 | f16 | s32 | s16 | s8 | z32 | z8
  deriving DecidableEq, Repr

/-- The typed memory formats, in the order of their fmt codes 0 to 14 (R23, R88). -/
inductive Fmt where
  | s8 | z8 | s16 | z16 | s32 | z32 | s64 | f16 | bf16 | f32 | f16w | bf16w | ni8 | ni16 | s8w
  deriving DecidableEq, Repr

/-- The scalar conditions of CMP and BR, in code order (R60, R62). -/
inductive Cond where
  | eq | ne | lt | ge | ltu | geu
  deriving DecidableEq, Repr

/-- The vector conditions of VCMP, in code order (R70). -/
inductive VCond where
  | eq | ne | lt | le | gt | ge | unord | ordd
  deriving DecidableEq, Repr

/-- The AMO operations, in code order (R65). -/
inductive AmoOp where
  | add | and | or | xor | min | max | minu | maxu | swap | cas | fadd | fmin | fmax
  deriving DecidableEq, Repr

/-- The AMOV operations, in code order (R66). -/
inductive AmovOp where
  | add | min | max | and | or | xor
  deriving DecidableEq, Repr

/-- The ordering scopes, narrowest first (R119, R125). AMO has DIE, PKG and SYS only. -/
inductive Scope where
  | core | die | pkg | sys
  deriving DecidableEq, Repr

/-- The kinds of FENCE, in code order (R67, R125). -/
inductive FenceKind where
  | full | acq | rel
  deriving DecidableEq, Repr

/-- The four fused forms of VFMA, in the order of k (R70, R371). -/
inductive FmaKind where
  | fma | fms | nfma | nfms
  deriving DecidableEq, Repr

/-- What the reply to an access beyond the scratchpad brings (R34, R226, R227, R228, R240). -/
inductive Reply where
  /-- A reply from a home of this package. -/
  | home
  /-- The load is bound at its home, its reply still in flight (R120). -/
  | bind
  /-- The load is combined with the bound read of another thread of the same die (R122). -/
  | combine (core slot : Nat)
  /-- The value a remote package returned. -/
  | data (bits : Nat)
  /-- The gate of the target refused the request: the cause and the target package (R227). -/
  | gate (cause pkg : Nat)
  /-- The fabric answered with FABRIC_ERROR: cause and answering package (R227). -/
  | fabricError (cause pkg : Nat)
  /-- Home marks the line lost: the lost package (R240). -/
  | lost (pkg : Nat)
  /-- The target met poisoned data (R228). -/
  | poisoned
  deriving DecidableEq, Repr

/-- How a message's target answers its sender (R229). -/
inductive Answer where
  | accepted | busy | refused | gate
  /-- The handler ended by AMRET with this value. -/
  | replied (value : Word)
  /-- The transport failed: cause, answering package (R227). -/
  | fabricError (cause pkg : Nat)
  deriving DecidableEq, Repr

/-- The 64 bytes of a COHERENT line with the poison bit that messages carry with them (R228). -/
structure LineData where
  data : Packet
  poison : Bool := false
  deriving DecidableEq, Repr

/-- What the home package replies to a steward (R238, R240). -/
inductive HomeAnswer where
  | written
  | line (value : LineData)
  /-- The line is marked lost, with the lost package. -/
  | lost (pkg : Nat)
  /-- The fabric answers for the home (R240). -/
  | fabricError (cause : Nat)
  deriving DecidableEq, Repr

/-- Directory states (R236). -/
inductive DirState where
  | i | s | em | o
  deriving DecidableEq, Repr

/-- The transactions a steward serves (R238, R239); owned says a PutO. With lose the mark of a line that its lost owner held is on its way
to home (R240). -/
inductive DirReq where
  | getS (q : Nat) | getM (q : Nat) | upgrade (q : Nat) | put (p : Nat) (data : Option LineData) (owned : Bool) | recallLine
  | lose (pkg : Nat)
  deriving DecidableEq, Repr

/-- A remote request as another package's gate sees it (R226). -/
inductive RemoteOp where
  | load (pa n : Nat)
  | store (pa n data mask : Nat)
  | amo (pa : Nat) (op : AmoOp) (operand expected : Word)
  /-- LAUNCHR: a 64-byte record for a launch queue (R253). -/
  | launch (queue record : Nat)
  /-- A steward's accesses to home, and its mark that a line is lost (R238, R240). -/
  | readHome (line : Nat)
  | writeHome (line : Nat) (value : LineData)
  | markLost (line pkg : Nat)
  /-- A steward's change of an entry, written to its shadow, with the transaction in progress (R236, R240). -/
  | mirror (home line : Nat) (state : DirState) (owner : Nat) (sharers : List Nat) (bcast : Bool) (busy : Option DirReq)
  deriving DecidableEq, Repr

/-- The states the host grants a line with GO (R259). -/
inductive Grant where
  | s | e | m
  deriving DecidableEq, Repr

/-- The traffic classes of the fabric (R223). -/
inductive PacketClass where
  | req | rsp | fwd
  deriving DecidableEq, Repr

/-- A packet in transit: the package that sent it, its number, its destination and its class (R223, R225). -/
structure Transit where
  src : Nat
  seq : Nat
  dst : Nat
  cls : PacketClass
  deriving DecidableEq, Repr

/-- The package that sends a request of the directory, and the number it sends it under (R225). -/
structure Sender where
  pkg : Nat
  seq : Nat
  deriving DecidableEq, Repr

/-- A flit as its receiver finds it: accepted or refused, with the lanes in which it corrected an error (R224, R234). -/
structure Flit where
  ok : Bool
  corrected : List Nat
  deriving DecidableEq, Repr

/-- The states of a TDI (R257). -/
inductive Tdi where
  | configUnlocked | configLocked | run | error
  deriving DecidableEq, Repr

/-- What a boot's step 6 comes to: the package ID, and the ports that fail training (R262). -/
structure BootLinks where
  pkgId : BitVec 14
  failed : List Nat := []
  deriving DecidableEq, Repr

/-- Where an SRAM error strikes (R269). -/
inductive SramTarget where
  /-- A single-bit error, corrected and counted: somewhere, or in a logical L2 slice or commons bank of a die. -/
  | single
  | corrected (commons : Bool) (die logical : Nat)
  /-- A double-bit error in the data of an HBM line's L2 copy, a commons granule or a scratchpad line. -/
  | hbmLine (pa : Nat)
  | commonsLine (addr : Nat)
  | scratchLine (core off : Nat)
  /-- A double-bit error in the data of an L1 line, or of a line of the remote line cache: none names a host line. -/
  | l1Line (core estate va task : Nat)
  | rlcData (pkg : Option Nat) (line : Nat)
  /-- A double-bit error in a register: g, c (wide false), v or w, by its register field. -/
  | register (core slot : Nat) (wide : Bool) (reg : Reg)
  /-- A double-bit error in a TLB entry of a port, given by estate and page. -/
  | tlb (port estate page : Nat)
  /-- A double-bit error in a remote-line-cache tag. -/
  | rlcTag (pkg : Option Nat) (line : Nat)
  /-- An unreadable copy of a Cadastre entry; true when both copies fail. -/
  | cadastre (both : Bool)
  deriving DecidableEq, Repr

/-- The rows of spec/opcode_table.json. -/
inductive Instr where
  -- scalar integer (R270, R301)
  | add (d a b : Reg) | addi (d a : Reg) (imm : BitVec 15) | addShort (d a : Reg) | addiShort (d : Reg) (imm : BitVec 6)
  | sub (d a b : Reg) | subShort (d a : Reg)
  | and (d a b : Reg) | andi (d a : Reg) (imm : BitVec 15) | andShort (d a : Reg)
  | or (d a b : Reg) | ori (d a : Reg) (imm : BitVec 15) | orShort (d a : Reg)
  | xor (d a b : Reg) | xori (d a : Reg) (imm : BitVec 15) | xorShort (d a : Reg)
  | movShort (d a : Reg) | moviShort (d : Reg) (imm : BitVec 6)
  | bfi (d a b : Reg) | bfx (d a b : Reg)
  | clz (d a : Reg) | ctz (d a : Reg) | popc (d a : Reg)
  | cmp (q : Cond) (d a b : Reg) | sel (d a b : Reg)
  | div (d a b : Reg) | divu (d a b : Reg) | rem (d a b : Reg) | remu (d a b : Reg)
  | mul (d a b : Reg) | mulh (d a b : Reg) | mulhu (d a b : Reg)
  | max (d a b : Reg) | maxu (d a b : Reg) | min (d a b : Reg) | minu (d a b : Reg)
  | shl (d a b : Reg) | shr (d a b : Reg) | sra (d a b : Reg)
  | shli (d a : Reg) (sh : BitVec 6) | shri (d a : Reg) (sh : BitVec 6) | srai (d a : Reg) (sh : BitVec 6)
  | shliShort (d : Reg) (sh : BitVec 6) | shriShort (d : Reg) (sh : BitVec 6)
  | lih (d : Reg) (imm : BitVec 20)
  | mvx (e : EReg) (a : Reg) | mxv (d : Reg) (e : EReg)
  -- control flow
  | br (cc : Cond) (a b : Reg) (off : BitVec 12) | beqzShort (d : Reg) (off : BitVec 6) | bnezShort (d : Reg) (off : BitVec 6)
  | jal (d : Reg) (off : BitVec 20) | jr (d a : Reg) | jrShort (a : Reg) | jalShort (d a : Reg)
  | loop (a : Reg) (level : BitVec 2) (ci : Bool) (endoff : BitVec 9) (cnt : BitVec 8)
  -- memory
  | lea (d : Reg) (sg : SReg) (a : Reg) (fmt : Fmt) (disp : BitVec 8)
  | ld (d : Reg) (sg : SReg) (a : Reg) (fmt : Fmt) (disp : BitVec 8) | ldAcq (d : Reg) (sg : SReg) (a : Reg) (fmt : Fmt) (disp : BitVec 8)
  | ldShort (d a : Reg)
  | ldv (d : Reg) (sg : SReg) (a : Reg) (fmt : Fmt) (disp : BitVec 8) | ldx (e : EReg) (cnt : BitVec 4) (sg : SReg) (a : Reg) (disp : BitVec 8)
  | st (d : Reg) (sg : SReg) (a : Reg) (fmt : Fmt) (disp : BitVec 8) | stRel (d : Reg) (sg : SReg) (a : Reg) (fmt : Fmt) (disp : BitVec 8)
  | stShort (d a : Reg)
  | stv (d : Reg) (sg : SReg) (a : Reg) (fmt : Fmt) (disp : BitVec 8)
  | amo (op : AmoOp) (ar : Bool) (scope : Scope) (d : Reg) (sg : SReg) (a b : Reg)
  | amov (op : AmovOp) (ty : LaneTy) (v : Reg) (sg : SReg) (a : Reg)
  | fence (kind : FenceKind) (scope : Scope)
  | pref (sg : SReg) (a : Reg) | pin (d : Reg) (sg : SReg) (a : Reg) | unpin (sg : SReg) (a : Reg)
  -- vector
  | vadd (rm : BitVec 2) (ty : LaneTy) (d a b : Reg) | vsub (rm : BitVec 2) (ty : LaneTy) (d a b : Reg) | vmul (rm : BitVec 2) (ty : LaneTy) (d a b : Reg)
  | vmin (ty : LaneTy) (d a b : Reg) | vmax (ty : LaneTy) (d a b : Reg)
  | vabs (rm : BitVec 2) (ty : LaneTy) (d a : Reg) | vneg (rm : BitVec 2) (ty : LaneTy) (d a : Reg)
  | vrcp (rm : BitVec 2) (ty : LaneTy) (d a : Reg) | vrsq (rm : BitVec 2) (ty : LaneTy) (d a : Reg)
  | vexp2 (rm : BitVec 2) (ty : LaneTy) (d a : Reg) | vlog2 (rm : BitVec 2) (ty : LaneTy) (d a : Reg)
  | vsin (rm : BitVec 2) (ty : LaneTy) (d a : Reg) | vcos (rm : BitVec 2) (ty : LaneTy) (d a : Reg)
  | vand (ty : LaneTy) (d a b : Reg) | vor (ty : LaneTy) (d a b : Reg) | vxor (ty : LaneTy) (d a b : Reg)
  | vshl (ty : LaneTy) (d a b : Reg) | vshr (ty : LaneTy) (d a b : Reg) | vsra (ty : LaneTy) (d a b : Reg)
  | vbcast (ty : LaneTy) (d a b : Reg) | vperm (ty : LaneTy) (d a b : Reg)
  | vredSum (rm : BitVec 2) (ty : LaneTy) (d a : Reg) | vredMax (ty : LaneTy) (d a : Reg) | vredMin (ty : LaneTy) (d a : Reg)
  | vfma (k : FmaKind) (ty : LaneTy) (d a b c : Reg) | vsel (ty : LaneTy) (d a b c : Reg) | vcmp (cond : VCond) (ty : LaneTy) (d a b : Reg)
  | vext (d a b : Reg) | vins (d a b : Reg)
  | vcvt (rm : BitVec 2) (zero scaled : Bool) (target source : LaneTy) (d a b : Reg)
  -- bindings
  | sbind (d : Reg) (e : EReg) | qbind (w : Bool) (d : Reg) | unbind (v : Bool) (d : Reg)
  -- matrix unit and tiles
  | mfmt (a : Reg) (e : EReg) | mloadb (a b : Reg) (e : EReg) | mma (a b : Reg) (e : EReg)
  | mdrain (a b : Reg) (e : EReg) | mdrainClr (a b : Reg) (e : EReg) | mzero (b : Reg)
  | copy (e : EReg) | tstat (d a : Reg) | tset (d a b : Reg) (e : EReg)
  -- tasks and crews
  | spawn (d : Reg) (e : EReg) | bar (n : BitVec 2) | barArrive (n : BitVec 2) | barWait (n : BitVec 2)
  -- Cadastre
  | give (d a b : Reg) | giveWipe (d a b : Reg) | accept (d a : Reg) | decline (d a : Reg) | withdraw (d a : Reg)
  | lend (d a b : Reg) (e : EReg) | cadReturn (d a : Reg) | reclaim (d a : Reg) | reclaimWait (d a : Reg)
  | charter (d a : Reg) (e : EReg) | muster (d a : Reg) (e : EReg) | answer (d : Reg) | escheat (d a : Reg)
  | survey (d a : Reg) (e : EReg) | ease (d a b : Reg) (e : EReg)
  -- page tables and segments
  | mapf (d a : Reg) (e : EReg) | unmap (d a : Reg) | wake (a : Reg) | wakeFail (a : Reg)
  | segw (k : SReg) (e : EReg) | segr (e : EReg) (k : SReg)
  -- system
  | rds (d : Reg) (idx : BitVec 8) | wrs (idx : BitVec 8) (a : Reg) | trap (code : BitVec 8)
  | kret (a : Reg) | kretSkip (a : Reg) | kretPc (a b : Reg) | kread (d a b : Reg) | kwrite (d a b : Reg)
  | sysc (d : Reg) (e : EReg) | uint (a b : Reg) | notify (a b : Reg)
  -- messages
  | amsg (d a b : Reg) (e : EReg) | amsgR (d a b : Reg) (e : EReg) | amret (a : Reg)
  -- events of threads and memory
  | accessReply (core slot : Nat) (reply : Reply)
  | storeBufferPerform (core slot idx : Nat)
  | shootdownInvalidate (port : Nat)
  | watchdog (core slot : Nat)
  | forcedSave (handle : Nat)
  | restore (core handle : Nat)
  | uintDeliver (core slot : Nat)
  | streamPacketArrival (core : Nat) (reg : Reg) (slot : Nat)
  -- events of tasks
  | taskTake (core : Nat)
  | admission (handle : Nat)
  | taskStart (handle : Nat)
  | taskCommit (handle : Nat)
  | frontierPass (part : Nat)
  | frontierPriority (handle : Nat)
  | launchRecord (q : Nat)
  | jobComplete (root : Nat)
  -- events of engines and of the matrix unit
  | copyAccess (op elem : Nat) (reply : Reply)
  | mloadbApply (op : Nat)
  | mmaRow (core slot : Nat)
  | mdrainPerform (op : Nat)
  | suspendedRow (core slot : Nat)
  | macroRecalibration (unit : Nat)
  -- events of traps and messages
  | jasperTrapMessage (core slot : Nat)
  | jasperForward (core slot : Nat)
  | jasperFailover (cluster : Nat)
  | amsgArrive (core pkg estate thread seq handler : Nat) (args : List Word) (reply : Bool)
  | courierStart (core : Nat)
  | amsgAnswer (core slot : Nat) (answer : Answer)
  -- events of the Cadastre
  | noticeExpiry (parcel : Nat)
  | scrubComplete (parcel : Nat)
  -- events of the host link and of Garnet
  | tailWrite (fn q value : Nat)
  | registerWrite (fn off : Nat) (value : Word)
  | createPartition (q : Nat) | resetPartition (q : Nat) | giveToPartition (q : Nat) | retireCore (q : Nat)
  | spareRow (q : Nat) | spareLane (q : Nat) | updateFirmware (q : Nat) (valid : Bool) (version : BitVec 32)
  | attest (q : Nat) | lifecycle (q : Nat) | setChain (q : Nat) | setDomain (q : Nat) | setTimer (q : Nat) | preempt (q : Nat)
  | unknownCommand (q : Nat)
  | mapfile (core slot : Nat) | sync (core slot : Nat) | unmapfile (core slot : Nat) | launchr (core slot : Nat) (reply : Reply)
  | unknownCall (core slot : Nat)
  | fileFault (estate token : Nat) (page : List Byte)
  | spdmMeasurement (nonce : BitVec 256)
  | ideTagFailure (fn : Nat)
  | tdispRequest (fn : Nat) (dest : Tdi)
  | hostMemAccess (fn hpa n : Nat) (write : Option Nat)
  | snpdata (line : Nat) | snpinv (line : Nat) (value : Option Packet) | snpcur (line : Nat)
  | goResponse (line : Nat) (grant : Grant) (value : Option Packet)
  | hostLineEviction (line : Nat)
  | backInvalidateResponse (line : Nat)
  | functionLevelReset (fn : Nat)
  | boot (okA okB : Bool) (links : BootLinks)
  -- events of the fabric
  | routePacket (packet : Transit) (detours : Nat)
  | flitReceive (port : Nat) (flit : Flit)
  | e2eTimeout (dst seq : Nat)
  | remoteRequest (src seq : Nat) (estate : Nat) (op : RemoteOp)
  | portIsolation (port : Nat)
  | laneSwap (port lane : Nat)
  | packageLost (pkg : Nat)
  -- events of the coherence directory; a line is its home package and its line number PA[38:6]
  | gets (q : Sender) (home line : Nat) | getm (q : Sender) (home line : Nat) | upgrade (q : Sender) (home line : Nat)
  | putm (p : Sender) (home line : Nat) (data : Option LineData) | puto (p : Sender) (home line : Nat) (data : LineData)
  | fwds (q home line : Nat) | fwdm (q home line acks : Nat) | inv (q home line : Nat) | recallLine (home line : Nat)
  | data (home line : Nat) (grant : Grant) (value : Option LineData) (acks : Nat)
  | invAck (home line : Nat) | completionAck (q home line : Nat) (dirty : Bool) | putAck (home line : Nat)
  | homeReply (home line : Nat) (answer : HomeAnswer)
  | coherentEviction (home line : Nat)
  -- events of service
  | governorThrottle (island freq : Nat) | governorRaise (island freq : Nat)
  | uncorrectableError (pa : Nat)
  | sramError (target : SramTarget)
  | hbmRowSpare (frame row : Nat)
  | sliceSwap (commons : Bool) (die logical : Nat)
  -- the rows without arguments
  | lexit | lexitShort | nop | nopShort | tdone | tdoneShort | exit | exitShort | yield | yieldShort
  | undecodableWord | fetchFault | powerLoss
  deriving DecidableEq, Repr

end Sys2Proof
end

