-- ==== Sys2Proof/WellFormed.lean ====
section
/-! DEFINITION. Which terms of Instr stand for a word: the combination rules of R60 to R75 that the fields' widths do
not already give. A term that breaks one has no word, and the decoder answers none for the bits that would spell it
(R79). -/

namespace Sys2Proof

/-- f32, bf16 and f16 (R69). -/
def LaneTy.isFloat : LaneTy → Bool
  | .f32 | .bf16 | .f16 => true
  | _ => false

/-- The lane types on which lanes are signed integers (R69). -/
def LaneTy.isSigned : LaneTy → Bool
  | .s32 | .s16 | .s8 => true
  | _ => false

/-- Bits of one lane (R69). -/
def LaneTy.width : LaneTy → Nat
  | .f32 | .s32 | .z32 => 32
  | .bf16 | .f16 | .s16 => 16
  | .s8 | .z8 => 8

/-- Lanes of a packet (R69). -/
def LaneTy.lanes (t : LaneTy) : Nat := 512 / t.width

/-- R69: integer lanes take rm 00 and 01 only. -/
def rmOk (ty : LaneTy) (rm : BitVec 2) : Bool := ty.isFloat || rm.toNat < 2

/-- The formats LD, ST and LEA accept: codes 0 to 9 (R64). -/
def Fmt.scalar : Fmt → Bool
  | .f16w | .bf16w | .ni8 | .ni16 | .s8w => false
  | _ => true

/-- Whether a run of n e registers from e stays inside e15 (R58). -/
def runOk (e : EReg) (n : Nat) : Bool := e.toNat + n ≤ 16

/-- The rows of the table that are events of the machine and have no word. -/
def Instr.isEvent : Instr → Bool
  | .accessReply .. | .storeBufferPerform .. | .shootdownInvalidate .. | .watchdog .. | .forcedSave .. | .restore ..
  | .uintDeliver .. | .undecodableWord | .fetchFault | .streamPacketArrival .. | .taskTake .. | .admission ..
  | .taskStart .. | .taskCommit .. | .frontierPass .. | .frontierPriority .. | .launchRecord .. | .jobComplete ..
  | .copyAccess .. | .mloadbApply .. | .mmaRow .. | .mdrainPerform .. | .suspendedRow .. | .macroRecalibration ..
  | .jasperTrapMessage .. | .jasperForward .. | .jasperFailover .. | .amsgArrive .. | .courierStart .. | .amsgAnswer ..
  | .noticeExpiry .. | .scrubComplete .. | .tailWrite .. | .registerWrite .. | .createPartition .. | .resetPartition ..
  | .giveToPartition .. | .retireCore .. | .spareRow .. | .spareLane .. | .updateFirmware .. | .attest .. | .lifecycle ..
  | .setChain .. | .setDomain .. | .setTimer .. | .preempt .. | .unknownCommand .. | .mapfile .. | .sync ..
  | .unmapfile .. | .launchr .. | .unknownCall .. | .fileFault .. | .spdmMeasurement .. | .ideTagFailure ..
  | .tdispRequest .. | .hostMemAccess .. | .snpdata .. | .snpinv .. | .snpcur .. | .goResponse .. | .hostLineEviction ..
  | .backInvalidateResponse .. | .functionLevelReset .. | .boot .. | .routePacket .. | .flitReceive .. | .e2eTimeout ..
  | .remoteRequest .. | .portIsolation .. | .laneSwap .. | .packageLost .. | .gets .. | .getm .. | .upgrade .. | .putm ..
  | .puto .. | .fwds .. | .fwdm .. | .inv .. | .recallLine .. | .data .. | .invAck .. | .completionAck .. | .putAck ..
  | .homeReply .. | .coherentEviction .. | .governorThrottle .. | .governorRaise .. | .uncorrectableError ..
  | .sramError .. | .hbmRowSpare .. | .sliceSwap .. | .powerLoss => true
  | _ => false

/-- The combination rules that decide whether a term has a word (R60 to R75, R79). Terms with no rule beyond their
fields' widths answer true. -/
def Instr.wellFormed : Instr → Bool
  | .loop a _ ci _ cnt => if ci then a == 0 else cnt == 0
  | .lea _ _ _ f _ | .ld _ _ _ f _ | .ldAcq _ _ _ f _ | .st _ _ _ f _ | .stRel _ _ _ f _ => f.scalar
  | .ldx e cnt _ _ _ => e.toNat + cnt.toNat ≤ 15
  | .amo _ _ sc _ _ _ _ => sc != .core
  | .amov op ty _ _ _ => match op with
    | .and | .or | .xor => !ty.isFloat
    | .add | .min | .max => true
  | .vadd rm ty .. | .vsub rm ty .. | .vmul rm ty .. | .vredSum rm ty .. => rmOk ty rm
  | .vabs rm ty .. | .vneg rm ty .. => if ty.isFloat then rm == 0 else ty.isSigned && rm.toNat < 2
  | .vrcp _ ty .. | .vrsq _ ty .. | .vexp2 _ ty .. | .vlog2 _ ty .. | .vsin _ ty .. | .vcos _ ty .. => ty.isFloat
  | .vshl ty .. | .vshr ty .. | .vsra ty .. => !ty.isFloat
  | .vfma _ ty .. => ty.isFloat
  | .vcmp c ty .. => match c with
    | .unord | .ordd => ty.isFloat
    | .eq | .ne | .lt | .le | .gt | .ge => true
  | .vcvt rm zero scaled target source _ _ b =>
    target != source && (scaled || b == 0) && rmOk target rm &&
    (target.isFloat || !(source.isFloat || scaled) || rm == 1) && (!zero || source.lanes < target.lanes)
  | .sbind _ e => runOk e 5
  | .mfmt _ e | .mma _ _ e | .tset _ _ _ e | .mapf _ _ e | .ease _ _ _ e => runOk e 2
  | .segw _ e | .segr e _ => runOk e 3
  | .charter _ _ e | .survey _ _ e | .amsg _ _ _ e | .amsgR _ _ _ e => runOk e 4
  | .spawn _ e => runOk e 6
  | .copy e => runOk e 14
  | _ => true

end Sys2Proof
end

