-- ==== Sys2Proof/Decode.lean ====
section
/-! DEFINITION. The encodings of R54 to R79: the layouts of R57 as sums of fields, the encoder, and the decoder, which is
total on any bytes and refuses by name. -/

namespace Sys2Proof

/-! ### Code tables -/

/-- ty codes (R69). -/
def LaneTy.code : LaneTy → Nat
  | .f32 => 0 | .bf16 => 1 | .f16 => 2 | .s32 => 3 | .s16 => 4 | .s8 => 5 | .z32 => 6 | .z8 => 7

def LaneTy.ofCode : Nat → LaneTy
  | 0 => .f32 | 1 => .bf16 | 2 => .f16 | 3 => .s32 | 4 => .s16 | 5 => .s8 | 6 => .z32 | _ => .z8

/-- fmt codes (R23, R88). -/
def Fmt.code : Fmt → Nat
  | .s8 => 0 | .z8 => 1 | .s16 => 2 | .z16 => 3 | .s32 => 4 | .z32 => 5 | .s64 => 6 | .f16 => 7 | .bf16 => 8
  | .f32 => 9 | .f16w => 10 | .bf16w => 11 | .ni8 => 12 | .ni16 => 13 | .s8w => 14

/-- fmt 15 has no meaning (R23). -/
def Fmt.ofCode : Nat → Option Fmt
  | 0 => some .s8 | 1 => some .z8 | 2 => some .s16 | 3 => some .z16 | 4 => some .s32 | 5 => some .z32
  | 6 => some .s64 | 7 => some .f16 | 8 => some .bf16 | 9 => some .f32 | 10 => some .f16w | 11 => some .bf16w
  | 12 => some .ni8 | 13 => some .ni16 | 14 => some .s8w | _ => none

/-- The codes of q of CMP and cc of BR (R60, R62); 6 and up are reserved. -/
def Cond.code : Cond → Nat
  | .eq => 0 | .ne => 1 | .lt => 2 | .ge => 3 | .ltu => 4 | .geu => 5

def Cond.ofCode : Nat → Option Cond
  | 0 => some .eq | 1 => some .ne | 2 => some .lt | 3 => some .ge | 4 => some .ltu | 5 => some .geu | _ => none

/-- The condition codes of VCMP (R70). -/
def VCond.code : VCond → Nat
  | .eq => 0 | .ne => 1 | .lt => 2 | .le => 3 | .gt => 4 | .ge => 5 | .unord => 6 | .ordd => 7

def VCond.ofCode : Nat → VCond
  | 0 => .eq | 1 => .ne | 2 => .lt | 3 => .le | 4 => .gt | 5 => .ge | 6 => .unord | _ => .ordd

/-- AMO op codes (R65); 13 to 15 are reserved. -/
def AmoOp.code : AmoOp → Nat
  | .add => 0 | .and => 1 | .or => 2 | .xor => 3 | .min => 4 | .max => 5 | .minu => 6 | .maxu => 7 | .swap => 8
  | .cas => 9 | .fadd => 10 | .fmin => 11 | .fmax => 12

def AmoOp.ofCode : Nat → Option AmoOp
  | 0 => some .add | 1 => some .and | 2 => some .or | 3 => some .xor | 4 => some .min | 5 => some .max
  | 6 => some .minu | 7 => some .maxu | 8 => some .swap | 9 => some .cas | 10 => some .fadd | 11 => some .fmin
  | 12 => some .fmax | _ => none

/-- AMOV op codes (R66); 6 to 15 are reserved. -/
def AmovOp.code : AmovOp → Nat
  | .add => 0 | .min => 1 | .max => 2 | .and => 3 | .or => 4 | .xor => 5

def AmovOp.ofCode : Nat → Option AmovOp
  | 0 => some .add | 1 => some .min | 2 => some .max | 3 => some .and | 4 => some .or | 5 => some .xor | _ => none

/-- The scope codes of FENCE (R67). AMO's codes 0 to 2 are DIE, PKG, SYS (R65). -/
def Scope.code : Scope → Nat
  | .core => 0 | .die => 1 | .pkg => 2 | .sys => 3

def Scope.ofCode : Nat → Scope
  | 0 => .core | 1 => .die | 2 => .pkg | _ => .sys

def Scope.amoOfCode : Nat → Option Scope
  | 0 => some .die | 1 => some .pkg | 2 => some .sys | _ => none

def FenceKind.code : FenceKind → Nat
  | .full => 0 | .acq => 1 | .rel => 2

def FenceKind.ofCode : Nat → Option FenceKind
  | 0 => some .full | 1 => some .acq | 2 => some .rel | _ => none

def FmaKind.code : FmaKind → Nat
  | .fma => 0 | .fms => 1 | .nfma => 2 | .nfms => 3

def FmaKind.ofCode : Nat → FmaKind
  | 0 => .fma | 1 => .fms | 2 => .nfma | _ => .nfms

/-! ### The layouts of R57: each a sum of its fields at their bit positions -/

def wRR (major d a b fn q : Nat) : Nat :=
  1 + 2 * major + 128 * d + 4096 * a + 131072 * b + 4194304 * fn + 268435456 * q

def wRI (major d a imm : Nat) : Nat := 1 + 2 * major + 128 * d + 4096 * a + 131072 * imm

def wSHI (kind d a sh : Nat) : Nat := 13 + 128 * d + 4096 * a + 131072 * sh + 8388608 * kind

def wUI (major d imm : Nat) : Nat := 1 + 2 * major + 128 * d + 4096 * imm

def wBC (a b cc off : Nat) : Nat := 19 + 128 * a + 4096 * b + 131072 * cc + 1048576 * off

def wLP (a level ci endoff cnt : Nat) : Nat :=
  27 + 128 * a + 4096 * level + 16384 * ci + 32768 * endoff + 16777216 * cnt

def wMM (major d a sg fmt disp : Nat) : Nat :=
  1 + 2 * major + 128 * d + 4096 * a + 131072 * sg + 1048576 * fmt + 16777216 * disp

def wAMO (d a b sg op ar scope : Nat) : Nat :=
  49 + 128 * d + 4096 * a + 131072 * b + 4194304 * sg + 33554432 * op + 536870912 * ar + 1073741824 * scope

def wAMOV (v a sg ty op : Nat) : Nat :=
  51 + 128 * v + 4096 * a + 131072 * sg + 1048576 * ty + 8388608 * op

def wXE (major fn d a b e : Nat) : Nat :=
  1 + 2 * major + 128 * d + 4096 * a + 131072 * b + 4194304 * e + 67108864 * fn

/-- RDS, WRS and TRAP carry imm8 in bits 24 to 17 (R74). -/
def wImm8 (fn d a imm : Nat) : Nat := 105 + 128 * d + 4096 * a + 131072 * imm + 67108864 * fn

def wVV (major d a b f5 ty rm : Nat) : Nat :=
  1 + 2 * major + 128 * d + 4096 * a + 131072 * b + 4194304 * f5 + 134217728 * ty + 1073741824 * rm

def wVC (d a b source target scaled zero rm : Nat) : Nat :=
  75 + 128 * d + 4096 * a + 131072 * b + 4194304 * source + 33554432 * target + 268435456 * scaled +
    536870912 * zero + 1073741824 * rm

/-- The short layouts (R75). -/
def wS2 (sop d a m : Nat) : Nat := 2 * sop + 32 * d + 1024 * a + 32768 * m

def wSI (sop d imm : Nat) : Nat := 2 * sop + 32 * d + 1024 * imm

/-! ### The encoder -/

/-- The word of an instruction, as a number: 16 bits for a short form and 32 for a long one (R54, R57, R75). Events have
no word and answer 0, which is no instruction (R54). -/
def encodeNat : Instr → Nat
  | .add d a b => wRR 0x01 d.toNat a.toNat b.toNat 0x00 0
  | .sub d a b => wRR 0x01 d.toNat a.toNat b.toNat 0x01 0
  | .mul d a b => wRR 0x01 d.toNat a.toNat b.toNat 0x02 0
  | .mulh d a b => wRR 0x01 d.toNat a.toNat b.toNat 0x03 0
  | .mulhu d a b => wRR 0x01 d.toNat a.toNat b.toNat 0x04 0
  | .div d a b => wRR 0x01 d.toNat a.toNat b.toNat 0x05 0
  | .divu d a b => wRR 0x01 d.toNat a.toNat b.toNat 0x06 0
  | .rem d a b => wRR 0x01 d.toNat a.toNat b.toNat 0x07 0
  | .remu d a b => wRR 0x01 d.toNat a.toNat b.toNat 0x08 0
  | .and d a b => wRR 0x01 d.toNat a.toNat b.toNat 0x09 0
  | .or d a b => wRR 0x01 d.toNat a.toNat b.toNat 0x0A 0
  | .xor d a b => wRR 0x01 d.toNat a.toNat b.toNat 0x0B 0
  | .shl d a b => wRR 0x01 d.toNat a.toNat b.toNat 0x0C 0
  | .shr d a b => wRR 0x01 d.toNat a.toNat b.toNat 0x0D 0
  | .sra d a b => wRR 0x01 d.toNat a.toNat b.toNat 0x0E 0
  | .min d a b => wRR 0x01 d.toNat a.toNat b.toNat 0x0F 0
  | .max d a b => wRR 0x01 d.toNat a.toNat b.toNat 0x10 0
  | .minu d a b => wRR 0x01 d.toNat a.toNat b.toNat 0x11 0
  | .maxu d a b => wRR 0x01 d.toNat a.toNat b.toNat 0x12 0
  | .clz d a => wRR 0x01 d.toNat a.toNat 0 0x13 0
  | .ctz d a => wRR 0x01 d.toNat a.toNat 0 0x14 0
  | .popc d a => wRR 0x01 d.toNat a.toNat 0 0x15 0
  | .cmp q d a b => wRR 0x01 d.toNat a.toNat b.toNat 0x16 q.code
  | .sel d a b => wRR 0x01 d.toNat a.toNat b.toNat 0x17 0
  | .bfx d a b => wRR 0x01 d.toNat a.toNat b.toNat 0x18 0
  | .bfi d a b => wRR 0x01 d.toNat a.toNat b.toNat 0x19 0
  | .addi d a i => wRI 0x02 d.toNat a.toNat i.toNat
  | .andi d a i => wRI 0x03 d.toNat a.toNat i.toNat
  | .ori d a i => wRI 0x04 d.toNat a.toNat i.toNat
  | .xori d a i => wRI 0x05 d.toNat a.toNat i.toNat
  | .shli d a s => wSHI 0 d.toNat a.toNat s.toNat
  | .shri d a s => wSHI 1 d.toNat a.toNat s.toNat
  | .srai d a s => wSHI 2 d.toNat a.toNat s.toNat
  | .lih d i => wUI 0x07 d.toNat i.toNat
  | .lea d sg a f p => wMM 0x08 d.toNat a.toNat sg.toNat f.code p.toNat
  | .br cc a b o => wBC a.toNat b.toNat cc.code o.toNat
  | .jal d o => wUI 0x0B d.toNat o.toNat
  | .jr d a => wRR 0x0C d.toNat a.toNat 0 0 0
  | .loop a l ci e c => wLP a.toNat l.toNat ci.toNat e.toNat c.toNat
  | .ld d sg a f p => wMM 0x10 d.toNat a.toNat sg.toNat f.code p.toNat
  | .ldAcq d sg a f p => wMM 0x11 d.toNat a.toNat sg.toNat f.code p.toNat
  | .st d sg a f p => wMM 0x12 d.toNat a.toNat sg.toNat f.code p.toNat
  | .stRel d sg a f p => wMM 0x13 d.toNat a.toNat sg.toNat f.code p.toNat
  | .ldv d sg a f p => wMM 0x14 d.toNat a.toNat sg.toNat f.code p.toNat
  | .stv d sg a f p => wMM 0x15 d.toNat a.toNat sg.toNat f.code p.toNat
  | .ldx e c sg a p => wMM 0x16 e.toNat a.toNat sg.toNat c.toNat p.toNat
  | .mvx e a => wXE 0x17 0 0 a.toNat 0 e.toNat
  | .mxv d e => wXE 0x17 1 d.toNat 0 0 e.toNat
  | .amo op ar sc d sg a b => wAMO d.toNat a.toNat b.toNat sg.toNat op.code ar.toNat (sc.code - 1)
  | .amov op ty v sg a => wAMOV v.toNat a.toNat sg.toNat ty.code op.code
  | .fence k s => wRR 0x1A 0 0 0 (4 * k.code + s.code) 0
  | .pref sg a => wRR 0x1B 0 a.toNat 0 0 sg.toNat
  | .pin d sg a => wRR 0x1B d.toNat a.toNat 0 1 sg.toNat
  | .unpin sg a => wRR 0x1B 0 a.toNat 0 2 sg.toNat
  | .vadd rm ty d a b => wVV 0x20 d.toNat a.toNat b.toNat 0 ty.code rm.toNat
  | .vsub rm ty d a b => wVV 0x20 d.toNat a.toNat b.toNat 1 ty.code rm.toNat
  | .vmul rm ty d a b => wVV 0x20 d.toNat a.toNat b.toNat 2 ty.code rm.toNat
  | .vmin ty d a b => wVV 0x20 d.toNat a.toNat b.toNat 3 ty.code 0
  | .vmax ty d a b => wVV 0x20 d.toNat a.toNat b.toNat 4 ty.code 0
  | .vabs rm ty d a => wVV 0x20 d.toNat a.toNat 0 5 ty.code rm.toNat
  | .vneg rm ty d a => wVV 0x20 d.toNat a.toNat 0 6 ty.code rm.toNat
  | .vrcp rm ty d a => wVV 0x20 d.toNat a.toNat 0 7 ty.code rm.toNat
  | .vrsq rm ty d a => wVV 0x20 d.toNat a.toNat 0 8 ty.code rm.toNat
  | .vexp2 rm ty d a => wVV 0x20 d.toNat a.toNat 0 9 ty.code rm.toNat
  | .vlog2 rm ty d a => wVV 0x20 d.toNat a.toNat 0 10 ty.code rm.toNat
  | .vsin rm ty d a => wVV 0x20 d.toNat a.toNat 0 11 ty.code rm.toNat
  | .vcos rm ty d a => wVV 0x20 d.toNat a.toNat 0 12 ty.code rm.toNat
  | .vand ty d a b => wVV 0x20 d.toNat a.toNat b.toNat 13 ty.code 0
  | .vor ty d a b => wVV 0x20 d.toNat a.toNat b.toNat 14 ty.code 0
  | .vxor ty d a b => wVV 0x20 d.toNat a.toNat b.toNat 15 ty.code 0
  | .vshl ty d a b => wVV 0x20 d.toNat a.toNat b.toNat 16 ty.code 0
  | .vshr ty d a b => wVV 0x20 d.toNat a.toNat b.toNat 17 ty.code 0
  | .vsra ty d a b => wVV 0x20 d.toNat a.toNat b.toNat 18 ty.code 0
  | .vbcast ty d a b => wVV 0x20 d.toNat a.toNat b.toNat 19 ty.code 0
  | .vperm ty d a b => wVV 0x20 d.toNat a.toNat b.toNat 20 ty.code 0
  | .vredSum rm ty d a => wVV 0x20 d.toNat a.toNat 0 21 ty.code rm.toNat
  | .vredMax ty d a => wVV 0x20 d.toNat a.toNat 0 22 ty.code 0
  | .vredMin ty d a => wVV 0x20 d.toNat a.toNat 0 23 ty.code 0
  | .vfma k ty d a b c => wVV 0x21 d.toNat a.toNat b.toNat c.toNat ty.code k.code
  | .vsel ty d a b c => wVV 0x22 d.toNat a.toNat b.toNat c.toNat ty.code 0
  | .vcmp c ty d a b => wVV 0x23 d.toNat a.toNat b.toNat c.code ty.code 0
  | .vext d a b => wXE 0x24 0 d.toNat a.toNat b.toNat 0
  | .vins d a b => wXE 0x24 1 d.toNat a.toNat b.toNat 0
  | .vcvt rm z sc t s d a b => wVC d.toNat a.toNat b.toNat s.code t.code sc.toNat z.toNat rm.toNat
  | .sbind d e => wXE 0x26 0 d.toNat 0 0 e.toNat
  | .qbind w d => wXE 0x26 (1 + 16 * w.toNat) d.toNat 0 0 0
  | .unbind v d => wXE 0x26 (2 + 16 * v.toNat) d.toNat 0 0 0
  | .mfmt a e => wXE 0x28 0 0 a.toNat 0 e.toNat
  | .mloadb a b e => wXE 0x29 0 0 a.toNat b.toNat e.toNat
  | .mma a b e => wXE 0x2A 0 0 a.toNat b.toNat e.toNat
  | .mdrain a b e => wXE 0x2B 0 0 a.toNat b.toNat e.toNat
  | .mdrainClr a b e => wXE 0x2B 16 0 a.toNat b.toNat e.toNat
  | .mzero b => wXE 0x2C 0 0 0 b.toNat 0
  | .copy e => wXE 0x2D 0 0 0 0 e.toNat
  | .tstat d a => wXE 0x2E 0 d.toNat a.toNat 0 0
  | .tset d a b e => wXE 0x2E 1 d.toNat a.toNat b.toNat e.toNat
  | .spawn d e => wXE 0x30 0 d.toNat 0 0 e.toNat
  | .tdone => wXE 0x31 0 0 0 0 0
  | .bar n => wXE 0x31 1 0 0 n.toNat 0
  | .barArrive n => wXE 0x31 2 0 0 n.toNat 0
  | .barWait n => wXE 0x31 3 0 0 n.toNat 0
  | .give d a b => wXE 0x32 0 d.toNat a.toNat b.toNat 0
  | .giveWipe d a b => wXE 0x32 16 d.toNat a.toNat b.toNat 0
  | .accept d a => wXE 0x32 1 d.toNat a.toNat 0 0
  | .decline d a => wXE 0x32 2 d.toNat a.toNat 0 0
  | .withdraw d a => wXE 0x32 3 d.toNat a.toNat 0 0
  | .lend d a b e => wXE 0x32 4 d.toNat a.toNat b.toNat e.toNat
  | .cadReturn d a => wXE 0x32 5 d.toNat a.toNat 0 0
  | .reclaim d a => wXE 0x32 6 d.toNat a.toNat 0 0
  | .reclaimWait d a => wXE 0x32 22 d.toNat a.toNat 0 0
  | .charter d a e => wXE 0x32 7 d.toNat a.toNat 0 e.toNat
  | .muster d a e => wXE 0x32 8 d.toNat a.toNat 0 e.toNat
  | .answer d => wXE 0x32 9 d.toNat 0 0 0
  | .escheat d a => wXE 0x32 10 d.toNat a.toNat 0 0
  | .survey d a e => wXE 0x32 11 d.toNat a.toNat 0 e.toNat
  | .ease d a b e => wXE 0x32 12 d.toNat a.toNat b.toNat e.toNat
  | .mapf d a e => wXE 0x33 0 d.toNat a.toNat 0 e.toNat
  | .unmap d a => wXE 0x33 1 d.toNat a.toNat 0 0
  | .wake a => wXE 0x33 2 0 a.toNat 0 0
  | .wakeFail a => wXE 0x33 18 0 a.toNat 0 0
  | .segw k e => wXE 0x33 3 k.toNat 0 0 e.toNat
  | .segr e k => wXE 0x33 4 0 k.toNat 0 e.toNat
  | .rds d i => wImm8 0 d.toNat 0 i.toNat
  | .wrs i a => wImm8 1 0 a.toNat i.toNat
  | .trap i => wImm8 2 0 0 i.toNat
  | .kret a => wXE 0x34 3 0 a.toNat 0 0
  | .kretSkip a => wXE 0x34 19 0 a.toNat 0 0
  | .kretPc a b => wXE 0x34 35 0 a.toNat b.toNat 0
  | .kread d a b => wXE 0x34 4 d.toNat a.toNat b.toNat 0
  | .kwrite d a b => wXE 0x34 5 d.toNat a.toNat b.toNat 0
  | .sysc d e => wXE 0x34 6 d.toNat 0 0 e.toNat
  | .uint a b => wXE 0x34 7 0 a.toNat b.toNat 0
  | .notify a b => wXE 0x34 8 0 a.toNat b.toNat 0
  | .yield => wXE 0x34 9 0 0 0 0
  | .exit => wXE 0x34 10 0 0 0 0
  | .lexit => wXE 0x34 11 0 0 0 0
  | .nop => wXE 0x34 12 0 0 0 0
  | .amsg d a b e => wXE 0x35 0 d.toNat a.toNat b.toNat e.toNat
  | .amsgR d a b e => wXE 0x35 16 d.toNat a.toNat b.toNat e.toNat
  | .amret a => wXE 0x35 1 0 a.toNat 0 0
  | .movShort d a => wS2 1 d.toNat a.toNat 0
  | .addShort d a => wS2 2 d.toNat a.toNat 0
  | .subShort d a => wS2 3 d.toNat a.toNat 0
  | .andShort d a => wS2 4 d.toNat a.toNat 0
  | .orShort d a => wS2 5 d.toNat a.toNat 0
  | .xorShort d a => wS2 6 d.toNat a.toNat 0
  | .moviShort d i => wSI 7 d.toNat i.toNat
  | .addiShort d i => wSI 8 d.toNat i.toNat
  | .shliShort d i => wSI 9 d.toNat i.toNat
  | .shriShort d i => wSI 10 d.toNat i.toNat
  | .ldShort d a => wS2 11 d.toNat a.toNat 0
  | .stShort d a => wS2 11 d.toNat a.toNat 1
  | .beqzShort d o => wSI 12 d.toNat o.toNat
  | .bnezShort d o => wSI 13 d.toNat o.toNat
  | .jrShort a => wS2 14 0 a.toNat 0
  | .jalShort d a => wS2 14 d.toNat a.toNat 1
  | .nopShort => wS2 15 0 0 0
  | .yieldShort => wS2 15 1 0 0
  | .exitShort => wS2 15 2 0 0
  | .tdoneShort => wS2 15 3 0 0
  | .lexitShort => wS2 15 4 0 0
  | _ => 0

/-- The instructions that are one halfword: those of R75. -/
def Instr.isShort : Instr → Bool
  | .movShort .. | .addShort .. | .subShort .. | .andShort .. | .orShort .. | .xorShort .. | .moviShort ..
  | .addiShort .. | .shliShort .. | .shriShort .. | .ldShort .. | .stShort .. | .beqzShort .. | .bnezShort ..
  | .jrShort .. | .jalShort .. | .nopShort | .yieldShort | .exitShort | .tdoneShort | .lexitShort => true
  | _ => false

/-- The little-endian bytes of a number (R2). -/
def leBytes : Nat → Nat → List Byte
  | 0, _ => []
  | n + 1, x => BitVec.ofNat 8 x :: leBytes n (x / 256)

/-- The number whose little-endian bytes are given (R2). -/
def leNat : List Byte → Nat
  | [] => 0
  | b :: bs => b.toNat + 256 * leNat bs

/-- The bytes of a well-formed instruction, low halfword first (R2, R54). -/
def encode (i : Instr) : List Byte := leBytes (if i.isShort then 2 else 4) (encodeNat i)

/-! ### The decoder -/

/-- Why bits are no instruction (R54, R79). All of them trap ILLEGAL by R56, except truncated, which a fetch decides
before decoding (R55). -/
inductive DecodeError where
  /-- Fewer bytes than the instruction has. -/
  | truncated
  /-- The halfword 0, which is never an instruction (R54). -/
  | zeroHalfword
  /-- A short form whose sop and fields R75 does not list. -/
  | reservedShort
  /-- A major opcode that R59 does not list. -/
  | reservedMajor
  /-- A selector value that its major does not list (R60 to R74). -/
  | reservedSelector
  /-- A combination rule or a zero field is broken (R58, R60 to R74, R79). -/
  | brokenFieldRule
  deriving DecidableEq, Repr

/-- The n-bit field of w at bit position lo, where p = 2^lo. -/
def fld (n p w : Nat) : BitVec n := BitVec.ofNat n (w / p)

/-- The instruction a short halfword selects by sop (R75). -/
def pickShort (h : Nat) : Option Instr :=
  let d : Reg := fld 5 32 h
  let a : Reg := fld 5 1024 h
  let i : BitVec 6 := fld 6 1024 h
  let m := h / 32768 % 2
  match h / 2 % 16 with
  | 1 => some (.movShort d a)
  | 2 => some (.addShort d a)
  | 3 => some (.subShort d a)
  | 4 => some (.andShort d a)
  | 5 => some (.orShort d a)
  | 6 => some (.xorShort d a)
  | 7 => some (.moviShort d i)
  | 8 => some (.addiShort d i)
  | 9 => some (.shliShort d i)
  | 10 => some (.shriShort d i)
  | 11 => some (if m = 0 then .ldShort d a else .stShort d a)
  | 12 => some (.beqzShort d i)
  | 13 => some (.bnezShort d i)
  | 14 => some (if m = 0 then .jrShort a else .jalShort d a)
  | 15 => match d.toNat with
    | 0 => some .nopShort
    | 1 => some .yieldShort
    | 2 => some .exitShort
    | 3 => some .tdoneShort
    | 4 => some .lexitShort
    | _ => none
  | _ => none

/-- Major 01 by fn (R60). -/
def pickAlu (fn : Nat) (d a b : Reg) (q : Nat) : Option Instr :=
  match fn with
  | 0x00 => some (.add d a b)
  | 0x01 => some (.sub d a b)
  | 0x02 => some (.mul d a b)
  | 0x03 => some (.mulh d a b)
  | 0x04 => some (.mulhu d a b)
  | 0x05 => some (.div d a b)
  | 0x06 => some (.divu d a b)
  | 0x07 => some (.rem d a b)
  | 0x08 => some (.remu d a b)
  | 0x09 => some (.and d a b)
  | 0x0A => some (.or d a b)
  | 0x0B => some (.xor d a b)
  | 0x0C => some (.shl d a b)
  | 0x0D => some (.shr d a b)
  | 0x0E => some (.sra d a b)
  | 0x0F => some (.min d a b)
  | 0x10 => some (.max d a b)
  | 0x11 => some (.minu d a b)
  | 0x12 => some (.maxu d a b)
  | 0x13 => some (.clz d a)
  | 0x14 => some (.ctz d a)
  | 0x15 => some (.popc d a)
  | 0x16 => (Cond.ofCode q).map (Instr.cmp · d a b)
  | 0x17 => some (.sel d a b)
  | 0x18 => some (.bfx d a b)
  | 0x19 => some (.bfi d a b)
  | _ => none

/-- Major 20 by fn5 (R68). -/
def pickVec (f5 : Nat) (rm : BitVec 2) (ty : LaneTy) (d a b : Reg) : Option Instr :=
  match f5 with
  | 0 => some (.vadd rm ty d a b)
  | 1 => some (.vsub rm ty d a b)
  | 2 => some (.vmul rm ty d a b)
  | 3 => some (.vmin ty d a b)
  | 4 => some (.vmax ty d a b)
  | 5 => some (.vabs rm ty d a)
  | 6 => some (.vneg rm ty d a)
  | 7 => some (.vrcp rm ty d a)
  | 8 => some (.vrsq rm ty d a)
  | 9 => some (.vexp2 rm ty d a)
  | 10 => some (.vlog2 rm ty d a)
  | 11 => some (.vsin rm ty d a)
  | 12 => some (.vcos rm ty d a)
  | 13 => some (.vand ty d a b)
  | 14 => some (.vor ty d a b)
  | 15 => some (.vxor ty d a b)
  | 16 => some (.vshl ty d a b)
  | 17 => some (.vshr ty d a b)
  | 18 => some (.vsra ty d a b)
  | 19 => some (.vbcast ty d a b)
  | 20 => some (.vperm ty d a b)
  | 21 => some (.vredSum rm ty d a)
  | 22 => some (.vredMax ty d a)
  | 23 => some (.vredMin ty d a)
  | _ => none

/-- Major 32 by fn6, its low four bits the operation and its high two the qualifier (R72 to R74). -/
def pickCad (fn : Nat) (d a b : Reg) (e : EReg) : Option Instr :=
  match fn with
  | 0 => some (.give d a b)
  | 16 => some (.giveWipe d a b)
  | 1 => some (.accept d a)
  | 2 => some (.decline d a)
  | 3 => some (.withdraw d a)
  | 4 => some (.lend d a b e)
  | 5 => some (.cadReturn d a)
  | 6 => some (.reclaim d a)
  | 22 => some (.reclaimWait d a)
  | 7 => some (.charter d a e)
  | 8 => some (.muster d a e)
  | 9 => some (.answer d)
  | 10 => some (.escheat d a)
  | 11 => some (.survey d a e)
  | 12 => some (.ease d a b e)
  | _ => none

/-- Major 34 by fn6 (R74). -/
def pickSys (fn : Nat) (d a b : Reg) (e : EReg) (i : BitVec 8) : Option Instr :=
  match fn with
  | 0 => some (.rds d i)
  | 1 => some (.wrs i a)
  | 2 => some (.trap i)
  | 3 => some (.kret a)
  | 19 => some (.kretSkip a)
  | 35 => some (.kretPc a b)
  | 4 => some (.kread d a b)
  | 5 => some (.kwrite d a b)
  | 6 => some (.sysc d e)
  | 7 => some (.uint a b)
  | 8 => some (.notify a b)
  | 9 => some .yield
  | 10 => some .exit
  | 11 => some .lexit
  | 12 => some .nop
  | _ => none

/-- The XE majors other than 32 and 34, by major and fn6 (R73). -/
def pickXE (major fn : Nat) (d a b : Reg) (e : EReg) : Option Instr :=
  match major, fn with
  | 0x17, 0 => some (.mvx e a)
  | 0x17, 1 => some (.mxv d e)
  | 0x24, 0 => some (.vext d a b)
  | 0x24, 1 => some (.vins d a b)
  | 0x26, 0 => some (.sbind d e)
  | 0x26, 1 => some (.qbind false d)
  | 0x26, 17 => some (.qbind true d)
  | 0x26, 2 => some (.unbind false d)
  | 0x26, 18 => some (.unbind true d)
  | 0x28, 0 => some (.mfmt a e)
  | 0x29, 0 => some (.mloadb a b e)
  | 0x2A, 0 => some (.mma a b e)
  | 0x2B, 0 => some (.mdrain a b e)
  | 0x2B, 16 => some (.mdrainClr a b e)
  | 0x2C, 0 => some (.mzero b)
  | 0x2D, 0 => some (.copy e)
  | 0x2E, 0 => some (.tstat d a)
  | 0x2E, 1 => some (.tset d a b e)
  | 0x30, 0 => some (.spawn d e)
  | 0x31, 0 => some .tdone
  | 0x31, 1 => some (.bar (BitVec.ofNat 2 b.toNat))
  | 0x31, 2 => some (.barArrive (BitVec.ofNat 2 b.toNat))
  | 0x31, 3 => some (.barWait (BitVec.ofNat 2 b.toNat))
  | 0x33, 0 => some (.mapf d a e)
  | 0x33, 1 => some (.unmap d a)
  | 0x33, 2 => some (.wake a)
  | 0x33, 18 => some (.wakeFail a)
  | 0x33, 3 => some (.segw (BitVec.ofNat 3 d.toNat) e)
  | 0x33, 4 => some (.segr e (BitVec.ofNat 3 a.toNat))
  | 0x35, 0 => some (.amsg d a b e)
  | 0x35, 16 => some (.amsgR d a b e)
  | 0x35, 1 => some (.amret a)
  | _, _ => none

/-- The majors R59 lists. -/
def majorListed (m : Nat) : Bool :=
  (0x01 ≤ m && m ≤ 0x09) || (0x0B ≤ m && m ≤ 0x0D) || (0x10 ≤ m && m ≤ 0x1B) || (0x20 ≤ m && m ≤ 0x26) ||
    (0x28 ≤ m && m ≤ 0x2E) || (0x30 ≤ m && m ≤ 0x35)

/-- The instruction that a long word's major and selector fields choose (R59 to R74), before its zero fields and
combination rules are checked. -/
def pickLong (w : Nat) : Option Instr :=
  let d : Reg := fld 5 128 w
  let a : Reg := fld 5 4096 w
  let b : Reg := fld 5 131072 w
  let e : EReg := fld 4 4194304 w
  let f6 := w / 4194304 % 64
  let x6 := w / 67108864 % 64
  let q := w / 268435456 % 16
  let mmSg : SReg := fld 3 131072 w
  let mmF := Fmt.ofCode (w / 1048576 % 16)
  let p : BitVec 8 := fld 8 16777216 w
  let ty := LaneTy.ofCode (w / 134217728 % 8)
  let rm : BitVec 2 := fld 2 1073741824 w
  let f5 := w / 4194304 % 32
  let c5 : Reg := fld 5 4194304 w
  match w / 2 % 64 with
  | 0x01 => pickAlu f6 d a b q
  | 0x02 => some (.addi d a (fld 15 131072 w))
  | 0x03 => some (.andi d a (fld 15 131072 w))
  | 0x04 => some (.ori d a (fld 15 131072 w))
  | 0x05 => some (.xori d a (fld 15 131072 w))
  | 0x06 => match w / 8388608 % 4 with
    | 0 => some (.shli d a (fld 6 131072 w))
    | 1 => some (.shri d a (fld 6 131072 w))
    | 2 => some (.srai d a (fld 6 131072 w))
    | _ => none
  | 0x07 => some (.lih d (fld 20 4096 w))
  | 0x08 => mmF.map (Instr.lea d mmSg a · p)
  | 0x09 => (Cond.ofCode (w / 131072 % 8)).map (Instr.br · d a (fld 12 1048576 w))
  | 0x0B => some (.jal d (fld 20 4096 w))
  | 0x0C => some (.jr d a)
  | 0x0D => some (.loop d (fld 2 4096 w) (w / 16384 % 2 == 1) (fld 9 32768 w) p)
  | 0x10 => mmF.map (Instr.ld d mmSg a · p)
  | 0x11 => mmF.map (Instr.ldAcq d mmSg a · p)
  | 0x12 => mmF.map (Instr.st d mmSg a · p)
  | 0x13 => mmF.map (Instr.stRel d mmSg a · p)
  | 0x14 => mmF.map (Instr.ldv d mmSg a · p)
  | 0x15 => mmF.map (Instr.stv d mmSg a · p)
  | 0x16 => some (.ldx (fld 4 128 w) (fld 4 1048576 w) mmSg a p)
  | 0x18 =>
    (AmoOp.ofCode (w / 33554432 % 16)).bind fun op => (Scope.amoOfCode (w / 1073741824 % 4)).map fun sc =>
      .amo op (w / 536870912 % 2 == 1) sc d (fld 3 4194304 w) a b
  | 0x19 => (AmovOp.ofCode (w / 8388608 % 16)).map (Instr.amov · (LaneTy.ofCode (w / 1048576 % 8)) d mmSg a)
  | 0x1A => (FenceKind.ofCode (f6 / 4)).map (Instr.fence · (Scope.ofCode (f6 % 4)))
  | 0x1B => match f6 with
    | 0 => some (.pref (fld 3 268435456 w) a)
    | 1 => some (.pin d (fld 3 268435456 w) a)
    | 2 => some (.unpin (fld 3 268435456 w) a)
    | _ => none
  | 0x20 => pickVec f5 rm ty d a b
  | 0x21 => some (.vfma (FmaKind.ofCode rm.toNat) ty d a b c5)
  | 0x22 => some (.vsel ty d a b c5)
  | 0x23 => some (.vcmp (VCond.ofCode (f5 % 8)) ty d a b)
  | 0x25 =>
    some (.vcvt rm (w / 536870912 % 2 == 1) (w / 268435456 % 2 == 1) (LaneTy.ofCode (w / 33554432 % 8))
      (LaneTy.ofCode (w / 4194304 % 8)) d a b)
  | 0x32 => pickCad x6 d a b e
  | 0x34 => pickSys x6 d a b e (fld 8 131072 w)
  | m => pickXE m x6 d a b e

/-- R79: the bits are the instruction picked when it is well formed and every bit of the word is one of its fields or
fixed cells, that is, when it encodes back to the same word: so every zero field is 0. -/
def checked (w : Nat) (i : Instr) : Except DecodeError Instr :=
  if i.wellFormed && encodeNat i == w then .ok i else .error .brokenFieldRule

/-- A halfword with bit 0 clear (R54, R75, R79). -/
def decodeShort (h : Nat) : Except DecodeError Instr :=
  if h = 0 then .error .zeroHalfword else
  match pickShort h with
  | some i => checked h i
  | none => .error .reservedShort

/-- A 32-bit word with bit 0 set (R57, R79). -/
def decodeLong (w : Nat) : Except DecodeError Instr :=
  if majorListed (w / 2 % 64) then
    match pickLong w with
    | some i => checked w i
    | none => .error .reservedSelector
  else .error .reservedMajor

/-- The decoder: reads one instruction from the front of the bytes and answers it with its length in bytes (R54). -/
def decode (bs : List Byte) : Except DecodeError (Instr × Nat) :=
  match bs with
  | b0 :: b1 :: rest =>
    if b0.toNat % 2 = 0 then (decodeShort (leNat [b0, b1])).map (·, 2) else
    match rest with
    | b2 :: b3 :: _ => (decodeLong (leNat [b0, b1, b2, b3])).map (·, 4)
    | _ => .error .truncated
  | _ => .error .truncated

/-- The host's question: the instruction the decoder reads from bits numbered as the opcode table numbers them, every
bit above nbits 0, laid out in memory as the hardware stores them. -/
def decodeTableWord (nbits w : Nat) : Option Instr :=
  match decode (leBytes 4 (w % 2 ^ nbits)) with
  | .ok (i, _) => some i
  | .error _ => none

end Sys2Proof
end

