-- ==== Sys2Proof/Machine/State.lean ====
section
/-! DEFINITION. The state of one OM-6400 package as plain data: what the manual gives the cores, the memories, the
Cadastre, the tasks, the engines, the host link, the fabric and the service logic, and after it the model's own
bookkeeping (who moves next, earlier bytes of code, counters of free values). -/

namespace Sys2Proof.Machine

/-- A sparse map: keys rising, an unlisted key reading as the default of its table. -/
abbrev Map (β : Type) := List (Nat × β)

/-- Bytes by address in the canonical form of Memory.wf. -/
abbrev Memory := List Host.Cell

/-! ### Traps and waits -/

/-- The trap codes of R188. -/
inductive TrapCode where
  | illegal | segment | rights | misalign | undeclared | platMode | arith | notHeld | cadastreState | capability
  | tileState | memPoison | fabricError | gate | watchdog | trap | syscSpace | foreign | stream | loop | pageInvalid
  | saveFull | keeperFault | fabricLost
  deriving DecidableEq, Repr

/-- The wait reasons of R197, in code order. -/
inductive Reason where
  | none | mem | remote | page | tile | qempty | qfull | barrier | firm | reclaim | amsg | sysc | stream | parked
  | saved | mma
  deriving DecidableEq, Repr

/-- The wait state of a thread (R197); key is the model's own: what the wait compares against to see that it is over. -/
structure WaitState where
  reason : Reason := .none
  sent : Bool := false
  peer : Nat := 0
  key : Nat := 0
  deriving DecidableEq, Repr

/-- A trap as an instruction raises it; the record adds who and when (R190). -/
structure TrapInfo where
  code : TrapCode
  addr : Word := 0
  aux : Word := 0
  sg : Nat := 0
  deriving DecidableEq, Repr

/-- A trap record (R190), one field per field of the record. -/
structure TrapRec where
  lost : Nat := 0
  long : Bool := false
  thread : Nat := 0
  kind : Nat := 0
  code : Nat := 0
  pc : Nat := 0
  addr : Word := 0
  aux : Word := 0
  part : Nat := 0
  estate : Nat := 0
  time : Nat := 0
  handle : Nat := 0
  sg : Nat := 0
  hops : Nat := 0
  deriving DecidableEq, Repr

/-! ### Places of memory -/

/-- Where the value of a byte is decided (Memory Ordering, R99, R112). A plat place is a line of a GLOBAL page without
OPEN, served by the core's L1 (R104), with the home under it. -/
inductive Home where
  | scratch (core off : Nat)
  | commons (addr : Nat)
  | hbm (pa : Nat)
  | host (pa : Nat)
  | remote (pkg pa : Nat)
  | coherent (pkg pa : Nat)
  deriving DecidableEq, Repr

/-- A run of bytes of one access inside one 64-byte line. For a page without OPEN, plat holds the VA. -/
structure Piece where
  home : Home
  n : Nat
  plat : Option Nat := none
  deriving DecidableEq, Repr

/-- Bytes to be written at a piece: the number whose little-endian bytes they are, and a mask of the bits written. -/
structure Write where
  piece : Piece
  data : Nat
  mask : Nat
  deriving DecidableEq, Repr

/-- What a store buffer entry does at its home (R121). -/
inductive StoreKind where
  | plain
  | amov (op : AmovOp) (ty : LaneTy)
  deriving DecidableEq, Repr

/-- One entry of a thread's store buffer (R121). seq is the entry's number in program order. -/
structure StoreEntry where
  seq : Nat
  cls : Scope
  die : Nat
  kind : StoreKind
  writes : List Write
  release : Bool
  /-- The stream register whose push it is. -/
  stream : Option Nat := none
  /-- False for a push whose data a load still has to bring: its place among the stores is taken at issue (R41). -/
  ready : Bool := true
  /-- A FENCE marked the entry as a barrier entry: the number of the first entry behind the fence (R125). -/
  barrier : Option Nat := none
  /-- The widest scope of a FENCE that marked it (R131 note 2). -/
  fence : Scope := .core
  /-- The estate, the task and the VA or address of the store, for records of late failures (R277, R352). -/
  estate : Nat := 0
  task : Nat := 0
  addr : Nat := 0
  deriving DecidableEq, Repr

/-! ### Threads -/

/-- A segment register (R36, R97). -/
structure Seg where
  base : Word := 0
  limit : Word := 0
  attrs : Word := 0
  deriving DecidableEq, Repr

/-- An active loop (R45, R202): the sg7 offset of the first body instruction, endoff9, and whether the last body
instruction is a long one. -/
structure LoopState where
  start : Word
  endoff : Nat
  long : Bool
  deriving DecidableEq, Repr

/-- A bound stream (R40, R202): the register field, the five descriptor dwords and the next element. -/
structure Stream where
  reg : Nat
  desc : Vector Word 5
  next : Nat := 0
  /-- Packets fetched and not yet popped, the next one first (R41). -/
  buffer : List Nat := []
  deriving DecidableEq, Repr

/-- A packet or queue entry that the instruction in progress has taken from a bound register, or a packet it pushes
(R41, R42). -/
structure Popped where
  reg : Nat
  wide : Bool
  value : Nat
  /-- The slot that bound the stream. -/
  binder : Nat
  /-- Lanes past a stream's last element raise no flag (R85): the number of bits that are elements; 0 for a push. -/
  bits : Nat
  /-- The stream's next element after this packet, and before it; both 0 for a queue. -/
  next : Nat := 0
  prior : Nat := 0
  deriving DecidableEq, Repr

/-- A pre-emption request (R199). -/
structure Request where
  deadline : Nat
  source : Nat
  deriving DecidableEq, Repr

/-- Where the value of a waiting load goes when its reply arrives. -/
inductive Dest where
  | g (d : Reg) (fmt : Fmt)
  /-- push: the pieces of the push, when d is bound to a write stream (R41). -/
  | v (d : Reg) (fmt : Fmt) (push : List Piece := [])
  | e (first cnt : Nat)
  deriving DecidableEq, Repr

/-- How a system call ends (R253). -/
inductive CallEnd where
  | value (v : Word)
  | trap (t : TrapInfo)
  deriving DecidableEq, Repr

/-- What a thread that waits MEM, REMOTE, RECLAIM, AMSG, SYSC or MMA is waiting for (R34, R197). -/
inductive Pending where
  | none
  /-- A load (R34, R120). -/
  | load (acquire : Bool) (pieces : List Piece) (dest : Dest)
  /-- The packet of a read stream that begins at an element, from another package (R41). -/
  | packet (reg : Nat) (pieces : List Piece) (elem : Nat)
  /-- Operands that an instruction reads from memory before it goes on, from another package (R140, R178). -/
  | operand (pieces : List Piece)
  /-- A store that completes at its target before the thread issues again (R121). -/
  | store (writes : List Write)
  /-- The same for a push to a write stream, with the flags that the instruction raises (R41). -/
  | push (writes : List Write) (flags : Nat)
  /-- An AMO; acquire when no later load may combine with a read bound before it (R122, R124). -/
  | amo (op : AmoOp) (piece : Piece) (operand expected : Word) (d : Reg) (acquire : Bool)
  /-- A Cadastre instruction sent, with the parcel whose transfer it awaits, its status once known, what SURVEY writes into e
  registers from the first named, and whether it is a reclaim.wait, or with a status a REVOKE that waits for accesses (R169, R170, R177,
  R201, R298). -/
  | cad (d : Reg) (parcel : Nat) (status : Option Nat) (first : Nat) (out : List Word) (wait : Bool)
  | amsg (d : Reg) (e : Nat) (reply : Bool) (seq : Nat)
  /-- A system call, with its result once Garnet has it (R201, R253). -/
  | sysc (d : Reg) (token : Nat) (result : Option CallEnd)
  /-- An MMA: the tile, the seat, the row operand, the layout operand, the rows done, the GENERATION it carries (R176, R211). -/
  | mma (tile seat : Nat) (rows layout : Word) (done gen : Nat)
  /-- MFMT with the context it writes, or MZERO, until the unit applies it (R208, R214). -/
  | seat (seat gen : Nat) (ctx : Option (Word × Word))
  /-- An instruction fetch from a page of another package (R153): the sg7 offset and the bytes there. -/
  | fetch (off : Nat) (piece : Piece)
  /-- PIN, until the slice answers (R107): destination and line. -/
  | pin (d : Reg) (line : Nat)
  /-- UNMAP or MAPF: its status is written when every shootdown acknowledgement has returned (R114). -/
  | shoot (d : Reg) (status : Nat)
  deriving DecidableEq, Repr

/-- Who waits for the reply of the handler that a courier runs, and which ring record it is (R230, R231). -/
structure RingRec where
  off : Nat
  bytes : Nat
  handler : Nat
  args : List Word
  estate : Nat
  pkg : Nat
  thread : Nat
  seq : Nat
  reply : Bool
  deriving DecidableEq, Repr

/-- What the MMA at the PC has come to before it issues again (R176, R211, R217): its seat, the rows done there, the GENERATION it
carries, and whether it meets CAPABILITY all the same (R207). -/
structure RowsDone where
  seat : Nat
  done : Nat
  gen : Nat
  lost : Bool := false
  deriving DecidableEq, Repr

/-- A thread slot (R31, R36, R39). -/
structure Slot where
  live : Bool := false
  estate : Nat := 0
  /-- The handle of the task the thread belongs to; 0 for the keeper and the courier. -/
  task : Nat := 0
  index : Nat := 0
  pc : Word := 0
  g : Vector Word 16 := Vector.replicate 16 0
  e : Vector Word 16 := Vector.replicate 16 0
  v : Vector Packet 16 := Vector.replicate 16 0
  sg : Vector Seg 8 := Vector.replicate 8 {}
  lc : Vector Word 3 := Vector.replicate 3 0
  /-- Active loops, the outermost first (R45). -/
  loops : List LoopState := []
  frm : Word := 0
  fflags : Word := 0
  wdog : Word := 0x100000000
  uih : Word := 0
  uiret : Word := 0
  uiex : Word := 0
  wait : WaitState := {}
  wdCount : Nat := 0
  streams : List Stream := []
  stores : List StoreEntry := []
  storeSeq : Nat := 0
  pend : Pending := .none
  /-- What the waiting instruction has popped, and the entry of the queue g[d] stands for that it has reserved (R42). -/
  held : List Popped := []
  ticket : Option Nat := none
  request : Option Request := none
  /-- The posted user interrupt (R256). -/
  posted : Option Word := none
  /-- The phase of the thread's latest arrival at each barrier (R202, R203). -/
  arrived : Vector (Option Nat) 4 := Vector.replicate 4 none
  /-- The handler the courier runs (R231). -/
  handling : Option RingRec := none
  /-- The earliest cycle of the island's clock at which the thread issues again (R33). -/
  readyAt : Nat := 0
  /-- The word and the length of the instruction in progress, for the record of a trap that its reply brings (R190). -/
  word : Nat := 0
  long : Bool := true
  /-- What remote fetches have brought: offsets in sg7 and the 64-byte lines there (R55, R153). -/
  fetched : List (Nat × Nat) := []
  /-- The segment register and the address of the access in progress, for the record of a trap that its reply brings
  (R190). -/
  accSg : Nat := 0
  accAddr : Word := 0
  /-- The PC is already past the instruction in progress: its thread was saved and restored since (R201). -/
  past : Bool := false
  /-- The MMA at the PC has trapped, or its thread was saved and restored since (R211, R217). -/
  rows : Option RowsDone := none
  /-- The BAR at the PC has made its arrival and waits for the phase to complete (R49, R282). -/
  barHalf : Bool := false
  /-- The g registers (false) and v registers (true) that a double-bit error has poisoned (R269). -/
  poison : List (Bool × Nat) := []
  deriving DecidableEq, Repr

/-! ### Cores -/

/-- An entry of a queue between threads: reserved by a slot, filled or not (R42). -/
structure QueueEntry where
  ticket : Nat
  value : Option Nat
  deriving DecidableEq, Repr

/-- A bound queue: class c or w and the number within it (R42, R73). -/
structure Queue where
  wide : Bool
  reg : Nat
  entries : List QueueEntry := []
  ticket : Nat := 0
  /-- The thread that bound it (R202). -/
  binder : Nat := 0
  deriving DecidableEq, Repr

/-- The tile states of R101, in code order. -/
inductive TileState where
  | empty | filling | ready | draining | failed
  deriving DecidableEq, Repr

/-- A tile-table entry (R101). -/
structure Tile where
  state : TileState := .empty
  size : Nat := 0
  base : Nat := 0
  status : Nat := 0
  deriving DecidableEq, Repr

/-- An effect on state shared by the slots of a core that takes place at a writeback point (R33, R37, R39, R42). -/
inductive WbAct where
  | c (r : Nat) (value : Word)
  | w (r : Nat) (value : Packet)
  | scratch (off n data mask : Nat)
  | fill (wide : Bool) (reg ticket value : Nat)
  /-- The binding of a queue, or of a stream to a w register, and its release (R40, R42, R43). -/
  | bindQueue (wide : Bool) (reg : Nat)
  | bindStream (stream : Stream)
  | unbind (wide : Bool) (reg : Nat)
  | dqbase (value : Word)
  | dqlim (value : Word)
  | win (value : Word)
  /-- A TSET (R360). -/
  | tile (n : Nat) (entry : Tile)
  /-- No later load of the thread combines with a read bound before (R122, R125). -/
  | acquire
  /-- The thread traps: it parks and its record enters the keeper queue (R189); long is the length of its instruction. -/
  | park (trap : TrapInfo) (long : Bool)
  /-- The thread ends: by TDONE, or by EXIT (R300, R358). -/
  | ends (tdone : Bool)
  /-- The handler ends with this reply (R278). -/
  | amret (value : Word)
  /-- The thread arrives at a barrier (R49). -/
  | arrive (n : Nat)
  /-- WAKE and WAKE.fail of a token (R117). -/
  | wake (fail : Bool) (token : Nat)
  /-- A value is posted to a thread (R256). -/
  | uint (thread : Nat) (value : Word)
  deriving DecidableEq, Repr

/-- A pending writeback: the cycle of the island's clock, the slot and the effect. -/
structure Wb where
  due : Nat
  slot : Nat
  act : WbAct
  /-- The stream register whose push it performs. -/
  stream : Option Nat := none
  deriving DecidableEq, Repr

/-- A line of L1 (R104): data, the mask of bytes written by its task, whether the other bytes have been filled, poison. -/
structure L1Line where
  estate : Nat
  va : Nat
  task : Nat
  data : Packet
  written : BitVec 64 := 0
  filled : Bool := true
  poison : Bool := false
  deriving DecidableEq, Repr

/-- A core (R31, R36, R39, R100, R101, R143, R145, R176, R191, R230). Core 1024 is Garnet, with 64 slots (R9). -/
structure Core where
  slots : Map Slot := []
  c : Vector Word 16 := Vector.replicate 16 0
  w : Vector Packet 16 := Vector.replicate 16 0
  /-- The c registers (false) and w registers (true) that a double-bit error has poisoned (R269). -/
  poison : List (Bool × Nat) := []
  scratch : Memory := []
  /-- Poisoned 64-byte lines of the scratchpad (R269). -/
  scratchPoison : List Nat := []
  tiles : Map Tile := []
  queues : List Queue := []
  /-- The first ticket that no push to a queue bound earlier has had (R43). -/
  spent : Nat := 0
  dqbase : Word := 0
  dqlim : Word := 0
  win : Word := 0x8000000000
  /-- The deque: handles, the thief end first (R143). -/
  deque : List Nat := []
  /-- The place in the deque's ring from which the next push looks for a free one, in descriptors. -/
  dequeNext : Nat := 0
  /-- The tasks in the shadow slots (R145). -/
  shadow : List Nat := []
  /-- The work slot that issued last (R32). -/
  lastWork : Nat := 13
  /-- The issues of the keeper and the courier in the last cycles, and the cycle of the last issue: one in each cycle (R32). -/
  service : List Nat := []
  issued : Option Nat := none
  wb : List Wb := []
  /-- The keeper queue, the head first: slot and record (R191). -/
  keeperQueue : List (Nat × TrapRec) := []
  /-- No new keeper starts until Jasper has finished with an escalation (R193). -/
  keeperHeld : Bool := false
  /-- Trap messages for Jasper that wait in their source: slot and record (R194). Those of a cluster's Beryl unit and copy engine wait
  at the cluster's first core, under the slot numbers 16 and 17. -/
  toJasper : List (Nat × TrapRec) := []
  /-- The message ring: records not yet freed, oldest first, and the tail (R230). -/
  ring : List RingRec := []
  ringTail : Nat := 0x3C000
  l1 : List L1Line := []
  /-- The GENERATION values the core holds, by seat (R176). -/
  gens : Map Nat := []
  /-- How much of the history of stores the core's instruction buffer has seen (R78). -/
  codeSeen : Nat := 0
  /-- Bytes of code at host, COHERENT and remote places, as fetched since the last dispatch (R78). -/
  code : List (Home × Nat) := []
  deriving DecidableEq, Repr

/-! ### The Cadastre and estates -/

/-- The states of a parcel (R167), in code order. -/
inductive ParcelState where
  | held | offeredGive | offeredLoan | onLoan | reclaiming | scrubbing | retired
  deriving DecidableEq, Repr

/-- What a scrub does when it ends (R173 step 6, R175). -/
inductive AfterScrub where
  | hold
  | loan
  | retire
  deriving DecidableEq, Repr

/-- A Cadastre entry (R167). -/
structure Entry where
  state : ParcelState := .held
  outcome : Nat := 0
  wipe : Bool := false
  inuse : Bool := false
  target : Option Nat := none
  occupant : Option Nat := none
  holder : Nat := 0
  deadline : Nat := 0
  term : Nat := 0
  gen : BitVec 32 := 0
  lender : Option Nat := none
  /-- The write that the scrub in progress ends in. -/
  after : AfterScrub := .hold
  /-- The notice in progress belongs to a retirement (R267). -/
  retiring : Bool := false
  /-- The estate whose part in a transfer has begun and not yet ended: what it has in flight there (R173). -/
  leaving : Option Nat := none
  deriving DecidableEq, Repr

/-- An easement of the gate table (R182). -/
structure Easement where
  grantor : Nat
  grantee : Nat
  parcel : Nat
  count : Nat
  rights : Nat
  deriving DecidableEq, Repr

/-- An outstanding page fault (R115, R116): the address of the non-VALID entry, its level, and whether its record is
written, to Garnet or to the pager queue. -/
structure PageFault where
  estate : Nat
  token : Nat
  entry : Nat
  level : Nat
  va : Nat
  kind : Nat
  thread : Nat
  time : Nat
  file : Bool
  recorded : Bool
  deriving DecidableEq, Repr

/-- A line written by a task and held in the write spill (R142, R159). -/
structure SpillLine where
  va : Nat
  slot : Nat
  core : Nat
  /-- Spilled when the task was saved, so that it serves the task wherever it resumes (R160). -/
  saved : Bool := false
  /-- The line was poisoned in L1 (R269). -/
  poison : Bool := false
  deriving DecidableEq, Repr

/-- An estate record (R179) with what the hardware keeps for the estate: pins, rings, spill and save areas. -/
structure Estate where
  part : Nat := 0
  guarantor : Nat := 0
  principal : Bool := false
  /-- The 32 dwords of the record; the RW fields are read out of them. -/
  dwords : List Word := []
  muster : Nat := 0
  musterDeadline : Nat := 0
  /-- The lines the estate pins (R107). -/
  pins : List Nat := []
  /-- The next slot of the fault sink and the records dropped since the last one written (R196). -/
  sinkNext : Nat := 0
  sinkLost : Nat := 0
  /-- The next slot of the pager queue (R115). -/
  pagerNext : Nat := 0
  /-- The overflow ring: handles, the oldest first, and the place from which the next push looks for a free one (R143). -/
  ring : List Nat := []
  ringNext : Nat := 0
  /-- Task records in use, by their VA (R142). -/
  records : List Nat := []
  /-- Write-spill slots in use (R142). -/
  spillSlots : List Nat := []
  /-- Save-area runs in use: first slot and length (R204). -/
  saveRuns : List (Nat × Nat) := []
  deriving DecidableEq, Repr

/-- The states of a TDI and its IDE stream (R257). -/
structure TdispState where
  state : Tdi := .configUnlocked
  secure : Bool := false
  keys : BitVec 8 := 0
  tagFailures : BitVec 48 := 0
  deriving DecidableEq, Repr

/-- An item of a partition's service queue (R249). -/
inductive ServiceItem where
  /-- A system call: its number, g1 to g6 at issue with the pointers among them resolved (R253). -/
  | call (estate token core slot call : Nat) (args : List Word)
  | file (estate token : Nat)
  deriving DecidableEq, Repr

/-- A mapped file (R253, R254). -/
structure Mapped where
  estate : Nat
  file : Word
  va : Nat
  len : Nat
  pool : Nat
  count : Nat
  /-- The pages of the pool that hold a page of the file, by number. -/
  used : List Nat := []
  rights : Nat := 0
  deriving DecidableEq, Repr

/-- What is kept per partition and per PCIe function (R147, R154, R244, R245, R249, R257). -/
structure Part where
  /-- The published frontier F. -/
  frontier : Nat := 0
  admissions : Nat := 0
  /-- The partition exists. -/
  inuse : Bool := false
  /-- Its first estate, and the KEY parcel bound to it (R178). -/
  first : Nat := 0
  key : Option Nat := none
  service : List ServiceItem := []
  tdisp : TdispState := {}
  mailbox : Map Word := []
  /-- MSI-X: masked vectors, pending bits, and the messages sent, the latest first. -/
  msix : Bool := true
  masked : List Nat := []
  msiPending : List Nat := []
  msiSent : List Nat := []
  /-- HDM decoders: host base, first frame, frames. -/
  decoders : List (Nat × Nat × Nat) := []
  deriving DecidableEq, Repr

/-! ### Tasks and jobs -/

/-- A plat (R137): the first line, the length in lines, the mode. -/
inductive PlatMode where
  | read | write | update
  deriving DecidableEq, Repr

structure Plat where
  base : Nat
  units : Nat
  mode : PlatMode
  deriving DecidableEq, Repr

/-- Where a live task stands (R154); aborting until its engine operations have finished (R151). -/
inductive Phase where
  | queued | shadow | running | saved | finished | aborting
  deriving DecidableEq, Repr

/-- A member of a crew: where its thread runs and how it ended (R48, R50). -/
inductive Member where
  | running (core slot : Nat)
  | done
  | exited
  | saved
  deriving DecidableEq, Repr

/-- A live task: its descriptor (R141), its plats, and how far it has come. -/
structure Task where
  estate : Nat := 0
  part : Nat := 0
  entry : Word := 0
  arg0 : Word := 0
  arg1 : Word := 0
  ts : Nat := 0
  width : Nat := 1
  firm : Bool := false
  place : Nat := 0
  cluster : Nat := 0
  /-- The VA of the task record in the spill area (R142). -/
  record : Nat := 0
  /-- The place of the descriptor in the deque or the overflow ring that holds the task, in descriptors (R142, R143). -/
  spot : Nat := 0
  plats : List Plat := []
  handle : Nat := 0
  parent : Nat := 0
  /-- The root of the job the task descends from. -/
  root : Nat := 0
  /-- The spawning core, and the core it last ran on. -/
  core : Nat := 0
  ran : Bool := false
  phase : Phase := .queued
  /-- An aborting task goes back to its queue, or is discarded (R151, R152). -/
  requeue : Bool := true
  admission : Option Nat := none
  /-- Stripes of the plat directory entered so far (R147). -/
  stripes : Nat := 0
  /-- The cycle since which the start condition has held (R158). -/
  waiting : Option Nat := none
  /-- Tasks whose forwarded bytes it took (R149, R150). -/
  deps : List Nat := []
  crew : List Member := []
  /-- The phase of each barrier (R49). -/
  barriers : Vector Nat 4 := Vector.replicate 4 0
  spill : List SpillLine := []
  /-- The save run: first slot and length (R204). -/
  saveRun : Option (Nat × Nat) := none
  /-- A commit in progress (R134, R156): the VAs of the lines sent to homes in other packages, and of those whose home has
  refused them, which leave a record. -/
  sent : List Nat := []
  refused : List Nat := []
  /-- The saved threads as the hardware remembers them beside their records: crew index, slot, bound queues (R201). -/
  saving : List (Nat × Slot × List Queue) := []
  /-- The cores and slots that they were saved from (R308). -/
  savedFrom : List (Nat × Nat × Nat) := []
  deriving DecidableEq, Repr

/-- A job (R48, R146, R250): the completion record, the tag dword, and what became of its tasks. -/
structure Job where
  estate : Nat
  queue : Nat
  record : Nat
  tag : Word
  committed : Nat := 0
  discarded : Nat := 0
  deriving DecidableEq, Repr

/-! ### Engines and the matrix units -/

/-- What an engine operation does (R210, R213, R289). -/
inductive OpKind where
  | copy
  | mloadb
  | mdrain (clear : Bool)
  deriving DecidableEq, Repr

/-- An engine operation in flight (R118, R132, R292). -/
structure EngineOp where
  kind : OpKind
  core : Nat
  slot : Nat
  estate : Nat
  task : Nat
  tile : Nat
  /-- COPY's fourteen operands, or the operand dwords of MLOADB and MDRAIN. -/
  regs : List Word
  sseg : Seg := {}
  dseg : Seg := {}
  /-- The seat, and its GENERATION as the issuing core held it (R176). -/
  seat : Nat := 0
  gen : Nat := 0
  /-- The stores of the issuing thread that come before it, and the scope at which it releases them (R132). -/
  after : Nat := 0
  scope : Scope := .core
  /-- Elements performed, and elements (a gather table's entry 2^24 further on) asked of another package. -/
  done : List Nat := []
  asked : List Nat := []
  /-- The issuing thread has ended. -/
  orphan : Bool := false
  /-- The crew index of the issuing thread. -/
  index : Nat := 0
  /-- The page fault it is joined to. -/
  token : Option Nat := none
  /-- The STATUS of a request of its own that has failed (R293). -/
  failed : Option Nat := none
  deriving DecidableEq, Repr

/-- A macro bank of a unit (R206): 256 columns of 256 codes and their scales, and LOADER. -/
structure Bank where
  loader : Option Nat := none
  /-- The bytes of the B tile as loaded (R209), by offset. -/
  bytes : Memory := []
  deriving DecidableEq, Repr

/-- A row packet held for a suspended seat (R218), and the thread that issued its MMA: where it ran, its task and crew index. -/
structure SpillRow where
  seat : Nat
  row : Nat
  estate : Nat
  core : Nat
  slot : Nat
  task : Nat
  index : Nat
  /-- The row's A bytes as one number, and its scale. -/
  bytes : Nat
  scale : Nat
  deriving DecidableEq, Repr

/-- A seat (R206). Accumulators are listed by row × 1024 + column; EXACT ones are 40-bit codes, SCALED ones F32 codes. -/
structure Seat where
  ctx0 : Word := 0
  ctx1 : Word := 0
  acc : Map Nat := []
  binder : Option (Nat × Nat) := none
  suspended : Bool := false
  deriving DecidableEq, Repr

/-- A Beryl unit (R206). Banks are numbered 2 × macro + bank. -/
structure BerylUnit where
  banks : Map Bank := []
  seats : Map Seat := []
  ring : List SpillRow := []
  /-- The seat served last (R212). -/
  lastSeat : Nat := 15
  deriving DecidableEq, Repr

/-! ### Translation -/

/-- A TLB entry of a cluster memory port (R113). line is the 64-byte line of page-table memory that the leaf was read
from. -/
structure TlbEntry where
  estate : Nat
  page : Nat
  size : Nat
  pte0 : Word
  pte1 : Word
  lines : List Nat
  deriving DecidableEq, Repr

/-- A shootdown invalidation on its way to a port (R114). -/
structure Shootdown where
  port : Nat
  line : Nat
  /-- The thread whose instruction completes when every acknowledgement has returned. -/
  core : Nat
  slot : Nat
  deriving DecidableEq, Repr

/-! ### The remote line cache, the directory and the fabric -/

/-- MOESI states of a line in the remote line cache (R237, R259). -/
inductive LineState where
  | m | o | e | s | i
  deriving DecidableEq, Repr

/-- A line of the remote line cache: none names a host line, some p a line homed at package p (R237, R259). -/
structure RlcLine where
  pkg : Option Nat
  line : Nat
  state : LineState := .i
  data : Packet := 0
  poison : Bool := false
  /-- A request for the line is outstanding. -/
  busy : Bool := false
  /-- Invalidation acknowledgements still to come, with the grant that waits for them (R238). -/
  acks : Nat := 0
  grant : Option Grant := none
  /-- Acknowledgements that came before the Data. -/
  early : Nat := 0
  /-- The line is in the eviction buffer (R237). -/
  evicting : Bool := false
  deriving DecidableEq, Repr

/-- A directory entry (R236), with the transaction in progress and the requests queued behind it (R238). -/
structure DirEntry where
  home : Nat
  line : Nat
  state : DirState := .i
  owner : Nat := 0
  sharers : List Nat := []
  bcast : Bool := false
  busy : Option DirReq := none
  /-- The Invs sent for a transaction; for a recall what is still to come, Acks and the reply of home. -/
  acks : Nat := 0
  queue : List DirReq := []
  /-- When the entry was last used (R239). -/
  used : Nat := 0
  deriving DecidableEq, Repr

/-- Messages of the coherence protocol and of the gate that this package has sent (R226, R238). -/
inductive FabricMsg where
  | getS (seq home line : Nat) | getM (seq home line : Nat) | upgrade (seq home line : Nat)
  | putM (seq home line : Nat) (data : Option LineData) | putO (seq home line : Nat) (data : LineData)
  | fwdS (q home line : Nat) | fwdM (q home line acks : Nat) | inv (q home line : Nat) | recallLine (home line : Nat)
  | data (home line : Nat) (grant : Grant) (value : Option LineData) (acks : Nat)
  /-- A transaction that fails at home: what the requester's access ends in (R240). -/
  | failed (home line : Nat) (reply : Reply)
  | ack (home line : Nat) | completion (home line : Nat) | putAck (home line : Nat)
  | ownerAck (home line : Nat) (dirty : Bool)
  | homeData (home line : Nat) (answer : HomeAnswer)
  /-- A reply to a remote request: done, with the bits a load or an AMO returns. -/
  | done (seq : Nat) (bits : Option Nat)
  | gate (seq cause : Nat)
  | poisoned (seq : Nat)
  | lost (seq pkg : Nat)
  | error (seq cause : Nat)
  /-- A remote access this package sends, with the fabric name of the issuing estate, 0 for a steward's own (R225, R226). -/
  | request (seq name : Nat) (op : RemoteOp)
  | amsg (seq name core thread handler : Nat) (args : List Word) (reply : Bool)
  | answer (thread : Nat) (answer : Answer)
  /-- A frame of this package is scrubbed: no copy of its lines may stay (R109). -/
  | scrubbed (seq frame : Nat)
  deriving DecidableEq, Repr

/-- A port of the Cairn die (R222, R224, R232, R234). -/
structure FabricPort where
  isolated : Bool := false
  replays : Nat := 0
  inReplay : Bool := false
  goodLanes : Nat := 18
  spares : Nat := 2
  /-- Corrected errors by lane, and the lanes that have been taken out (R234). -/
  errors : Map Nat := []
  dead : List Nat := []
  /-- The packets that the router holds toward the port, the oldest first (R223, R232). -/
  held : List Transit := []
  deriving DecidableEq, Repr

/-- A request this package holds outstanding (R225). -/
structure Outstanding where
  dst : Nat
  seq : Nat
  resends : Nat := 0
  thread : Nat
  /-- The COHERENT line it is about: home and line. -/
  line : Option (Nat × Nat) := none
  /-- The estate it is made for, and whether the thread that made it has ended (R196). -/
  estate : Nat := 0
  orphan : Bool := false
  /-- The task of the thread that has ended (R190). -/
  handle : Nat := 0
  /-- The task whose commit it belongs to, and the VA of the line (R156). -/
  task : Nat := 0
  va : Nat := 0
  /-- The engine operation and the element that it is for (R292). -/
  copy : Option (Nat × Nat) := none
  /-- The register field of the read stream, of the thread that bound it, whose packet it brings (R41). -/
  packet : Option Nat := none
  deriving DecidableEq, Repr

/-! ### Jasper, launch queues, firmware, service -/

/-- A trap message in a Jasper's mailbox, with the core and the slot it came from (R194, R195). -/
structure Mail where
  core : Nat
  slot : Nat
  record : TrapRec
  deriving DecidableEq, Repr

/-- A Jasper core: the failure of its self-check, and its mailbox by source: 0 to 7 cores, 8 the Beryl unit, 9 the copy
engine (R194, R267). -/
structure Jasper where
  mailbox : Map Mail := []
  failed : Bool := false
  deriving DecidableEq, Repr

/-- A launch queue block (R247): the slots' bytes and the indices. -/
structure LaunchQueue where
  bytes : Memory := []
  tail : Nat := 0
  head : Nat := 0
  dropped : Nat := 0
  /-- A command is in progress: its record as Garnet read it; and an overrun has passed over its slot since (R248). -/
  busy : Option Nat := none
  passed : Bool := false
  /-- The slot's next work is an item of the service queue, when it has one (R249). -/
  turn : Bool := false
  /-- The crews that the PREEMPT in progress has served and that have not yet met their requests, and how many it has seen
  saved (R252). -/
  crews : List Nat := []
  saved : Nat := 0
  deriving DecidableEq, Repr

/-- The life-cycle states of R264, in code order. -/
inductive LifeCycle where
  | manufacture | provisioned | deployed | decommissioned
  deriving DecidableEq, Repr

/-- Where the package stands in its boot (R262, R263). -/
inductive BootState where
  | running | recovery | stopped | off
  deriving DecidableEq, Repr

/-- A firmware copy in the non-volatile store (R262, R263). -/
structure Image where
  version : BitVec 32 := 0
  valid : Bool := true
  /-- The bytes of the image, as one number, and how many there are. -/
  size : Nat := 0
  data : Nat := 0
  deriving DecidableEq, Repr

/-- What Garnet reports to the host and the principal: a halt with its record, a port isolated (R195, R232). -/
inductive Report where
  | halt (record : TrapRec)
  | isolation (port : Nat)
  deriving DecidableEq, Repr

/-- A voltage and frequency island (R11): its clock in steps of 0.1 GHz, and how many of its cycles have passed. -/
structure Island where
  freq : Nat := 36
  acc : Nat := 0
  ticks : Nat := 0
  deriving DecidableEq, Repr

/-! ### Who moves next: the model's own -/

/-- What moves in a step. -/
inductive Mover where
  /-- A core issues by R32; with defer, an access beyond the scratchpad waits for its reply (R34). -/
  | issue (core : Nat) (defer : Bool)
  /-- An event of the table. -/
  | event (i : Instr)
  /-- Time passes. -/
  | idle
  deriving DecidableEq, Repr

/-- A move: the reference cycles that pass first, and what moves then. -/
structure Move where
  dt : Nat
  mover : Mover
  deriving DecidableEq, Repr

/-- The instruction being issued: who issues it, its word, and what it has popped. -/
structure Issue where
  core : Nat := 0
  slot : Nat := 0
  word : Nat := 0
  long : Bool := true
  defer : Bool := false
  pops : List Popped := []
  /-- Segment register and address of its access, once checked. -/
  sg : Nat := 0
  addr : Word := 0
  deriving DecidableEq, Repr

/-- A byte of memory before a store replaced it (R78): which memory, the address and the byte. -/
structure OldByte where
  home : Home
  byte : Byte
  deriving DecidableEq, Repr

/-- A load whose line is bound at its home and not yet returned (R120, R122): the thread, the line and its bytes, and the
threads that may not combine with it. -/
structure BoundRead where
  core : Nat
  slot : Nat
  line : Home
  data : Packet
  barred : List Nat := []
  deriving DecidableEq, Repr

/-! ### The state -/

/-- One package. -/
structure State where
  /-- CYCLE, the package reference timebase (R12). -/
  cycle : Nat := 0
  islands : Map Island := []
  cores : Map Core := []
  /-- Clusters halted by R195. -/
  halted : List Nat := []
  hbm : Memory := []
  commons : Memory := []
  host : Memory := []
  /-- Poisoned 64-byte lines of HBM and of the commons, and lines home has marked lost with the lost
  package (R110, R240). -/
  hbmPoison : List Nat := []
  /-- HBM lines that the host holds under HDM-DB (R245). -/
  hostHeld : List Nat := []
  commonsPoison : List Nat := []
  lostLines : List (Nat × Nat) := []
  cad : Map Entry := []
  estates : Map Estate := []
  parts : Map Part := []
  easements : List Easement := []
  /-- The easements that ended because their grantor was dissolved (R232). -/
  voided : List Easement := []
  tasks : Map Task := []
  jobs : Map Job := []
  faults : List PageFault := []
  /-- Page tables in use besides the roots (R111, R320). -/
  tables : List Nat := []
  tlbs : Map (List TlbEntry) := []
  /-- Sharer bitmaps of lines of page-table memory (R114). -/
  sharers : Map (BitVec 128) := []
  shootdowns : List Shootdown := []
  units : Map BerylUnit := []
  ops : Map EngineOp := []
  queues : Map LaunchQueue := []
  jaspers : Map Jasper := []
  /-- The chain length of each die (R195). -/
  chains : Map Nat := []
  mapped : List Mapped := []
  /-- The remote line cache (R237, R259). -/
  rlc : List RlcLine := []
  /-- Reads in flight across the dies whose value is bound (R122), the earliest first. -/
  reads : List BoundRead := []
  /-- This package's slices of the coherence directory: as steward and as shadow (R236). -/
  directory : List DirEntry := []
  shadows : List DirEntry := []
  /-- The members of the coherence domain, by slot (R235); none before the first SET_DOMAIN. DESIGN CHOICE (log 67). -/
  domain : List Nat := []
  /-- The packages lost: a steward slot that one of them held is its shadow's (R240). -/
  lostPackages : List Nat := []
  pkgId : BitVec 14 := 0
  ports : Map FabricPort := []
  seqs : Map Nat := []
  outstanding : List Outstanding := []
  /-- For each source, the sequence numbers performed and their replies (R225). -/
  replies : List (Nat × Nat × FabricMsg) := []
  /-- Messages sent to other packages, the latest first: destination and message. -/
  outbox : List (Nat × FabricMsg) := []
  /-- The end-to-end timer in µs, the lane swap threshold (R225, R234). -/
  timer : Nat := 20
  laneThreshold : Nat := 0xFFFFFFFFFFFFFFFF
  boot : BootState := .running
  lifeCycle : LifeCycle := .deployed
  images : Image × Image := ({}, {})
  current : Bool := false
  /-- Physical slice of each logical slice and bank (R266), where a swap has changed it. -/
  sliceMap : Map Nat := []
  bankMap : Map Nat := []
  spareSlices : Nat := 16
  spareBanks : Nat := 8
  /-- Rows spared, by frame and row, and the spares used (R267). -/
  sparedRows : List (Nat × Nat) := []
  /-- Single-bit errors corrected, and those of each L2 slice and commons bank since it last moved, by its number among the logical units
  of the package: first the slices, then the banks (R267, R269). -/
  sramErrors : Nat := 0
  unitErrors : Map Nat := []
  /-- Both copies of a Cadastre entry have failed (R269). -/
  cadastreFailed : Bool := false
  /-- The measurement response in the PF's DOE mailbox (R265). -/
  doe : Nat := 0
  /-- Reports of R195 and R232 to the host and the principal, the latest first. -/
  reports : List Report := []
  /-- The moves to come, the next one first. The model's own, and so are the fields after it (log 16). -/
  agenda : List Move := []
  cur : Issue := {}
  /-- The core whose turn the model takes when the agenda is empty. -/
  focus : Nat := 0
  /-- The bytes that stores have replaced, the oldest first (R78). -/
  history : List OldByte := []
  /-- How many free values and fresh names have been drawn. -/
  draws : Nat := 0
  deriving DecidableEq, Repr

/-- The faults that end a run. -/
inductive Fault where
  /-- step, once power is lost: the package has no state from which to go on (R267). Safe. -/
  | powerOff
  deriving DecidableEq, Repr

/-- Refusals. -/
inductive Refusal where
  /-- exec, for a row of the opcode table that has no meaning yet. Safe: nothing follows from it. -/
  | notModelled (mnemonic : String)
  deriving DecidableEq, Repr

/-- The record of estate 0 as the ROM firmware leaves it (R179, R183): the reset values of the RW fields. -/
def principalDwords : List Word := [0x800000000000, 36000, 0x100000000] ++ List.replicate 29 0

/-- The machine right after reset (R3, R183, R262): the principal holds every parcel and every memory reads zero. DESIGN CHOICE where
the manual gives no reset value (logs 11, 13, 14, 15); DEDUCED (log 12). -/
def State.reset : State where
  estates := [(0, { principal := true, dwords := principalDwords })]
  parts := [(0, { inuse := true })]

end Sys2Proof.Machine
end

