-- ==== Sys2Proof/Machine/Ops.lean ====
section
/-! DEFINITION. The operations every meaning is built from: sparse maps and memories, the parts of the state, the Exec
monad with its three ends, the program counter with its loops, and taking a trap. -/

namespace Sys2Proof.Machine

/-! ### Sparse maps -/

/-- The entry of a key. -/
def mapFind (m : Map β) (k : Nat) : Option β :=
  match m with
  | [] => none
  | (j, b) :: r => if j = k then some b else mapFind r k

/-- Sets the entry of a key, keys rising. -/
def mapSet (m : Map β) (k : Nat) (b : β) : Map β :=
  match m with
  | [] => [(k, b)]
  | (j, x) :: r => if k < j then (k, b) :: (j, x) :: r else if k = j then (k, b) :: r else (j, x) :: mapSet r k b

/-- Removes the entry of a key. -/
def mapErase (m : Map β) (k : Nat) : Map β := m.filter (fun p => p.1 != k)

/-! ### Memories -/

/-- The form of a memory: addresses strictly rising and no byte 0 listed, so that equal memories are equal lists. -/
def Memory.wf : Memory → Bool
  | [] => true
  | [(_, b)] => b != 0
  | (a, b) :: (a', b') :: r => b != 0 && decide (a < a') && Memory.wf ((a', b') :: r)

/-- A byte; an unlisted address reads 0 (R262: every memory of the package is zeroed at boot). -/
def memGet (m : Memory) (a : Nat) : Byte :=
  match m with
  | [] => 0
  | (j, x) :: r => if j = a then x else memGet r a

/-- Writes a byte, keeping the canonical form. -/
def memSet (m : Memory) (a : Nat) (b : Byte) : Memory :=
  match m with
  | [] => if b = 0 then [] else [(a, b)]
  | (j, x) :: r =>
    if a < j then (if b = 0 then (j, x) :: r else (a, b) :: (j, x) :: r)
    else if a = j then (if b = 0 then r else (a, b) :: r)
    else (j, x) :: memSet r a b

/-- n bytes from a, little-endian (R2). -/
def memRead (m : Memory) (a : Nat) : Nat → Nat
  | 0 => 0
  | n + 1 => (memGet m a).toNat + 256 * memRead m (a + 1) n

/-- Writes n bytes of v from a, little-endian (R2). -/
def memWrite (m : Memory) (a : Nat) (v : Nat) : Nat → Memory
  | 0 => m
  | n + 1 => memWrite (memSet m a (BitVec.ofNat 8 v)) (a + 1) (v / 256) n

/-- Writes the bits of v that mask selects in the n bytes from a. -/
def memMask (m : Memory) (a : Nat) (v mask : Nat) : Nat → Memory
  | 0 => m
  | n + 1 =>
    let k : Byte := BitVec.ofNat 8 mask
    memMask (memSet m a ((memGet m a &&& ~~~k) ||| (BitVec.ofNat 8 v &&& k))) (a + 1) (v / 256) (mask / 256) n

/-! ### Parts of the state -/

/-- The number of Garnet among the cores (R9). -/
def garnet : Nat := 1024

def coreOf (s : State) (c : Nat) : Core := (mapFind s.cores c).getD {}
def slotOf (s : State) (c k : Nat) : Slot := (mapFind (coreOf s c).slots k).getD {}
def setCore (s : State) (c : Nat) (x : Core) : State := { s with cores := mapSet s.cores c x }
def setSlot (s : State) (c k : Nat) (x : Slot) : State :=
  setCore s c { coreOf s c with slots := mapSet (coreOf s c).slots k x }

/-- The core and the slot of the instruction being issued. -/
def curCore (s : State) : Core := coreOf s s.cur.core
def curSlot (s : State) : Slot := slotOf s s.cur.core s.cur.slot
def setCurSlot (s : State) (x : Slot) : State := setSlot s s.cur.core s.cur.slot x
def setCurCore (s : State) (x : Core) : State := setCore s s.cur.core x

def estateOf (s : State) (e : Nat) : Estate := (mapFind s.estates e).getD {}
def setEstate (s : State) (e : Nat) (x : Estate) : State := { s with estates := mapSet s.estates e x }
def partOf (s : State) (p : Nat) : Part := (mapFind s.parts p).getD {}
def setPart (s : State) (p : Nat) (x : Part) : State := { s with parts := mapSet s.parts p x }
def taskOf (s : State) (h : Nat) : Task := (mapFind s.tasks h).getD {}
def setTask (s : State) (h : Nat) (x : Task) : State := { s with tasks := mapSet s.tasks h x }
def unitOf (s : State) (u : Nat) : BerylUnit := (mapFind s.units u).getD {}
def setUnit (s : State) (u : Nat) (x : BerylUnit) : State := { s with units := mapSet s.units u x }
def queueOf (s : State) (q : Nat) : LaunchQueue := (mapFind s.queues q).getD {}
def setQueue (s : State) (q : Nat) (x : LaunchQueue) : State := { s with queues := mapSet s.queues q x }
def tileOf (c : Core) (t : Nat) : Tile := (mapFind c.tiles t).getD {}
def setTile (s : State) (c t : Nat) (x : Tile) : State :=
  setCore s c { coreOf s c with tiles := mapSet (coreOf s c).tiles t x }
def jasperOf (s : State) (j : Nat) : Jasper := (mapFind s.jaspers j).getD {}
def portOf (s : State) (p : Nat) : FabricPort := (mapFind s.ports p).getD {}

/-- The die, the cluster and the island of a core (R7, "Clocks, islands and the power limit"). -/
def dieOf (core : Nat) : Nat := core / 256
def clusterOf (core : Nat) : Nat := core / 8
def islandOf (core : Nat) : Nat := if core < garnet then core / 64 else 16

/-- An island; Garnet's fixed clock is 1.8 GHz. -/
def islandGet (s : State) (i : Nat) : Island := (mapFind s.islands i).getD { freq := if i = 16 then 18 else 36 }

/-- The cycles of a core's island that have passed: issue, pace and writeback points count them (R11). -/
def ticksOf (s : State) (core : Nat) : Nat := (islandGet s (islandOf core)).ticks

/-- Thread ID (R7). The manual gives IDs to the slots of cores 0 to 1023; a slot of Garnet shares the ID of the slot that the same
sum names, modulo 2^14. DESIGN CHOICE (log 48). -/
def threadId (core slot : Nat) : Nat := (16 * core + slot) % 16384

/-- The keeper and the courier of a core (R31). Garnet's 64 slots are all of one kind (R9). -/
def isKeeper (core slot : Nat) : Bool := core < garnet && slot == 15
def isCourier (core slot : Nat) : Bool := core < garnet && slot == 14
def isService (core slot : Nat) : Bool := isKeeper core slot || isCourier core slot

/-- Slots of a core. -/
def slotCount (core : Nat) : Nat := if core < garnet then 16 else 64

/-! ### Parcels (R165, R379) -/

/-- Parcel IDs by kind. -/
def parcelEstate (e : Nat) : Nat := e
def parcelCore (c : Nat) : Nat := 134217728 + c
def parcelUnit (u : Nat) : Nat := 2 * 134217728 + u
def parcelSeat (x : Nat) : Nat := 3 * 134217728 + x
def parcelFrame (f : Nat) : Nat := 4 * 134217728 + f
def parcelGranule (g : Nat) : Nat := 5 * 134217728 + g
def parcelQueue (q : Nat) : Nat := 6 * 134217728 + q
def parcelEngine (x : Nat) : Nat := 7 * 134217728 + x
def parcelKey (k : Nat) : Nat := 8 * 134217728 + k
def parcelKind (p : Nat) : Nat := p / 134217728
def parcelIndex (p : Nat) : Nat := p % 134217728

/-- The entry of a parcel; at boot the principal holds every parcel and estate 0 exists (R183). -/
def entryOf (s : State) (p : Nat) : Entry := (mapFind s.cad p).getD { inuse := p == 0 }
def setEntry (s : State) (p : Nat) (x : Entry) : State := { s with cad := mapSet s.cad p x }

/-- The estate that uses a parcel, if any (R379). -/
def userOf (s : State) (p : Nat) : Option Nat :=
  let x := entryOf s p
  match x.state with
  | .onLoan | .reclaiming => x.occupant
  | .held | .offeredGive | .offeredLoan => some x.holder
  | .scrubbing | .retired => none

/-- The estate in the tag of a granule, as the bank sees it (R108): the leaver's until what it has in flight there is performed
(R173 step 3). -/
def tagOf (s : State) (g : Nat) : Option Nat :=
  match (entryOf s (parcelGranule g)).leaving with
  | some l => some l
  | none => userOf s (parcelGranule g)

/-- The estate whose new accesses to a parcel are admitted: none while it leaves (R173). -/
def stays (s : State) (e p : Nat) : Bool := userOf s p == some e && (entryOf s p).leaving.isNone

/-- R379. -/
def uses (s : State) (e p : Nat) : Bool := userOf s p == some e

/-- The estate that occupies a core: Garnet runs as the principal (R183, R249). -/
def coreEstate (s : State) (c : Nat) : Option Nat := if c < garnet then userOf s (parcelCore c) else some 0

/-! ### The estate record (R179) -/

/-- A dword of the record as its image left it. -/
def Estate.dw (x : Estate) (k : Nat) : Word := x.dwords[k]?.getD 0

/-- The n bits of a dword from bit lo. -/
def bits (w : Word) (lo n : Nat) : Nat := (w.toNat >>> lo) % 2 ^ n

def Estate.notice (x : Estate) : Nat := bits (x.dw 1) 0 48
def Estate.wdog (x : Estate) : Word := x.dw 2
def Estate.sinkBase (x : Estate) : Nat := bits (x.dw 3) 0 48
def Estate.sinkSize (x : Estate) : Nat := bits (x.dw 4) 0 32
def Estate.sinkNotify (x : Estate) : Bool := bits (x.dw 5) 14 1 == 1
def Estate.sinkThread (x : Estate) : Nat := bits (x.dw 5) 0 14
def Estate.pagerBase (x : Estate) : Nat := bits (x.dw 6) 0 48
def Estate.pagerSize (x : Estate) : Nat := bits (x.dw 7) 0 32
def Estate.pagerThread (x : Estate) : Nat := bits (x.dw 7) 32 14
def Estate.saveBase (x : Estate) : Nat := bits (x.dw 8) 0 48
def Estate.saveSize (x : Estate) : Nat := bits (x.dw 9) 0 48
def Estate.spillBase (x : Estate) : Nat := bits (x.dw 10) 0 48
def Estate.spillSize (x : Estate) : Nat := bits (x.dw 11) 0 48
def Estate.keeperEntry (x : Estate) : Nat := bits (x.dw 12) 0 48
def Estate.courierTable (x : Estate) : Nat := bits (x.dw 13) 0 48
/-- The physical address of the root table. -/
def Estate.ptRoot (x : Estate) : Nat := bits (x.dw 14) 0 52
def Estate.pinQuota (x : Estate) : Nat := bits (x.dw 15) 0 32
def Estate.sg0 (x : Estate) : Seg := ⟨x.dw 18, x.dw 19, x.dw 20⟩
def Estate.sg7 (x : Estate) : Seg := ⟨x.dw 21, x.dw 22, x.dw 23⟩

/-! ### Codes -/

/-- R188. -/
def TrapCode.toNat : TrapCode → Nat
  | .illegal => 0x01 | .segment => 0x02 | .rights => 0x03 | .misalign => 0x04 | .undeclared => 0x05
  | .platMode => 0x06 | .arith => 0x07 | .notHeld => 0x08 | .cadastreState => 0x09 | .capability => 0x0A
  | .tileState => 0x0B | .memPoison => 0x0C | .fabricError => 0x0D | .gate => 0x0E | .watchdog => 0x0F
  | .trap => 0x10 | .syscSpace => 0x11 | .foreign => 0x12 | .stream => 0x13 | .loop => 0x14 | .pageInvalid => 0x15
  | .saveFull => 0x16 | .keeperFault => 0x17 | .fabricLost => 0x18

/-- R197. -/
def Reason.toNat : Reason → Nat
  | .none => 0 | .mem => 1 | .remote => 2 | .page => 3 | .tile => 4 | .qempty => 5 | .qfull => 6 | .barrier => 7
  | .firm => 8 | .reclaim => 9 | .amsg => 10 | .sysc => 11 | .stream => 12 | .parked => 13 | .saved => 14 | .mma => 15

/-- The wait state as one dword (R197). -/
def WaitState.word (w : WaitState) : Word :=
  BitVec.ofNat 64 (w.reason.toNat + 256 * w.sent.toNat + 65536 * (w.peer % 2 ^ 48))

/-- The dwords of a trap record (R190). -/
def TrapRec.dwords (r : TrapRec) : List Nat :=
  [ r.code % 256 + 256 * (r.kind % 256) + 65536 * (r.thread % 16384) + 4294967296 * r.long.toNat +
      281474976710656 * (r.lost % 65536),
    r.pc % 2 ^ 48, r.addr.toNat, r.aux.toNat, r.estate % 16384 + 65536 * (r.part % 64), r.time % 2 ^ 64,
    r.handle % 2 ^ 64, r.hops % 16 + 256 * (r.sg % 8) ]

/-! ### Instructions as computations -/

/-- Why an instruction does not complete. -/
inductive Halt where
  | trap (t : TrapInfo)
  | wait (w : WaitState) (p : Pending)
  deriving Repr

/-- An instruction runs over the state and completes, traps or waits. What hardware does whatever the outcome (a walker
setting ACCESSED, a fault record) stays; every meaning makes its checks before its first visible effect, so that a
trap and a wait leave the rest as it was (R6). -/
abbrev Exec := ExceptT Halt (StateM State)

def trapWith (code : TrapCode) (addr aux : Word := 0) (sg : Nat := 0) : Exec α := throw (.trap ⟨code, addr, aux, sg⟩)
def waitFor (w : WaitState) (p : Pending := .none) : Exec α := throw (.wait w p)

/-! ### Popping and reserving (R41, R42) -/

/-- The queue bound to a c register (wide false) or a w register. -/
def findQueue (c : Core) (wide : Bool) (r : Nat) : Option Queue := c.queues.find? (fun q => q.wide == wide && q.reg == r)

/-- Changes the queue bound to a register. -/
def mapQueue (c : Core) (wide : Bool) (r : Nat) (f : Queue → Queue) : Core :=
  { c with queues := c.queues.map (fun q => if q.wide == wide && q.reg == r then f q else q) }

/-- Changes a stream of a slot. -/
def mapStream (x : Slot) (r : Nat) (f : Stream → Stream) : Slot :=
  { x with streams := x.streams.map (fun t => if t.reg == r then f t else t) }

/-- Frees one popped entry of a queue, or moves a stream past a packet (R41, R42). -/
def commitPop (core : Nat) (s : State) (p : Popped) : State :=
  if p.next = 0 then setCore s core (mapQueue (coreOf s core) p.wide (p.reg - 16) (fun q => { q with entries := q.entries.tail }))
  else setSlot s core p.binder
    (mapStream (slotOf s core p.binder) p.reg (fun t => { t with next := p.next, buffer := t.buffer.tail }))

/-- The reverse, for an instruction that has no effect after all (R6). -/
def returnPop (core : Nat) (s : State) (p : Popped) : State :=
  if p.next = 0 then
    setCore s core (mapQueue (coreOf s core) p.wide (p.reg - 16) (fun q => { q with entries := ⟨q.ticket, some p.value⟩ :: q.entries, ticket := q.ticket + 1 }))
  else setSlot s core p.binder
    (mapStream (slotOf s core p.binder) p.reg
      (fun t => { t with next := p.prior, buffer := if p.bits = 0 then t.buffer else p.value :: t.buffer }))

/-- Frees what the instruction being issued has popped. -/
def commitPops (s : State) : State :=
  let s' := s.cur.pops.foldl (commitPop s.cur.core) s
  { s' with cur := { s'.cur with pops := [] } }

/-- The register that a waiting instruction writes when its reply comes, and whether it is of class V. -/
def Pending.reg : Pending → Option (Bool × Reg)
  | .load _ _ (.g d _) => some (false, d)
  | .load _ _ (.v d _ _) => some (true, d)
  | .amo _ _ _ _ d _ => some (false, d)
  | .cad d _ _ _ _ _ => some (false, d)
  | .amsg d _ _ _ => some (false, d)
  | .sysc d _ _ => some (false, d)
  | .pin d _ => some (false, d)
  | .shoot d _ => some (false, d)
  | _ => Option.none

/-- Whether an instruction that waits so issues again from its start when its reply has come: until then it has no effect (R6). -/
def Pending.reissues : Pending → Bool
  | .none | .packet _ _ _ | .operand _ | .fetch _ _ => true
  | _ => false

/-- Reserves an entry of a queue (R42). -/
def reserveEntry (c : Core) (wide : Bool) (r : Nat) : Core :=
  mapQueue c wide r (fun q => { q with entries := q.entries ++ [⟨q.ticket, none⟩], ticket := q.ticket + 1 })

/-- The binder of the write stream that an instruction of slot k pushes to through a register field, out of its pops. -/
def pushedBy (pops : List Popped) (r : Nat) : Option Nat := (pops.find? (fun p => p.reg == r && p.bits == 0 && p.next != 0)).map (·.binder)

/-- The queue or the write stream, by class and register field, in which a waiting instruction has taken a place. -/
def reservedReg (held : List Popped) (p : Pending) : Option (Bool × Nat) :=
  match p with
  | .push _ _ => (held.find? (fun h => h.bits == 0 && h.next != 0)).map (fun h => (true, h.reg))
  | p => p.reg.map (fun d => (d.1, d.2.toNat))

/-- Gives back the place that a waiting instruction of slot k has taken in the queue, or among the pushes to the stream, of its
destination. -/
def dropReserved (s : State) (c k : Nat) (wide : Bool) (r t : Nat) : State :=
  match if wide then pushedBy (slotOf s c k).held r else none with
  | some b => setSlot s c b { slotOf s c b with stores := (slotOf s c b).stores.filter (fun e => e.ready || e.seq != t) }
  | none => setCore s c (mapQueue (coreOf s c) wide (r - 16) (fun q => { q with entries := q.entries.filter (·.ticket != t) }))

/-- What an MMA in progress leaves for its next issue (R211, R217). -/
def Slot.rowsLeft (x : Slot) : Option RowsDone :=
  match x.pend with
  | .mma _ seat _ _ done gen => some { seat := seat, done := done, gen := gen }
  | _ => x.rows

/-- A record's image in force: the dwords of an estate that exists (R286). -/
def putImage (s : State) (id : Nat) (image : List Word) : State :=
  match mapFind s.estates id with
  | some x => setEstate s id { x with dwords := image }
  | none => s

/-- The image that a CHARTER sent and not yet answered brings into force with its status: first 16 marks one (R286). -/
def landImage (p : Pending) (s : State) : State :=
  match p with
  | .cad _ parcel (some _) 16 image _ => putImage s (parcelIndex parcel) image
  | _ => s

/-- Gives back what a waiting instruction of slot k has popped and reserved; the tile of an MMA that goes no further is
READY again, and its rows stay done. -/
def returnHeld (s0 : State) (c k : Nat) : State :=
  let x := slotOf s0 c k
  let s := match x.pend with
    | .mma tile _ _ _ _ _ =>
      let t := tileOf (coreOf s0 c) tile
      if t.state = .draining then setTile s0 c tile { t with state := .ready } else s0
    | _ => s0
  let s1 := x.held.reverse.foldl (returnPop c) s
  let s2 := match x.ticket, reservedReg x.held x.pend with
    | some t, some d => dropReserved s1 c k d.1 d.2 t
    | _, _ => s1
  let s3 := landImage x.pend (setSlot s2 c k { slotOf s2 c k with held := [], ticket := none, pend := .none, rows := x.rowsLeft })
  { s3 with reads := s3.reads.filter (fun r => !(r.core == c && r.slot == k)) }

/-- The instruction of slot k issues again from its start. -/
def reissue (core k : Nat) (s : State) : State :=
  let s' := returnHeld s core k
  let x := slotOf s' core k
  setSlot s' core k { x with wait := {}, readyAt := max x.readyAt (ticksOf s' core + 1) }

/-! ### Taking a trap (R189 to R191, R193, R194) -/

/-- The estate on whose behalf the issuing slot runs. -/
def curEstate (s : State) : Nat := (curSlot s).estate

/-- The record of a trap of slot k of core c (R190). -/
def trapRecord (s : State) (c k : Nat) (t : TrapInfo) (long : Bool) : TrapRec :=
  let x := slotOf s c k
  { long := long, thread := threadId c k, kind := 1, code := t.code.toNat, pc := x.pc.toNat % 2 ^ 48, addr := t.addr,
    aux := t.aux, part := (estateOf s x.estate).part, estate := x.estate, time := s.cycle, handle := x.task, sg := t.sg }

/-- The state in which a handler starts (R191, R231): the estate's default segments, everything else 0. -/
def handlerSlot (s : State) (e : Nat) (entry : Nat) (readyAt : Nat) : Slot :=
  let r := estateOf s e
  { live := true, estate := e, pc := BitVec.ofNat 64 entry, wdog := r.wdog, readyAt := readyAt,
    sg := ((Vector.replicate 8 ({} : Seg)).set 0 r.sg0).set 7 r.sg7 }

/-- The estate that a core's keeper serves: its occupant (R191). -/
def keeperEstate (s : State) (c : Nat) (r : TrapRec) : Nat := (coreEstate s c).getD r.estate

/-- Starts the keeper of a core at the head of its queue, when the keeper slot is empty (R191). -/
def startKeeper (s : State) (c : Nat) : State :=
  let k := coreOf s c
  match k.keeperQueue with
  | [] => s
  | (sl, r) :: _ =>
    if (slotOf s c 15).live || k.keeperHeld || !(slotOf s c 15).streams.isEmpty then s else
    let h := handlerSlot s (keeperEstate s c r) (estateOf s (keeperEstate s c r)).keeperEntry (ticksOf s c)
    let d (i : Nat) : Word := BitVec.ofNat 64 (r.dwords[i]?.getD 0)
    let e := ((((((((h.e.set 8 (d 0)).set 9 (d 1)).set 10 (d 2)).set 11 (d 3)).set 12 (d 4)).set 13 (d 5)).set 14
      (d 6)).set 15 (d 7))
    setSlot s c 15 { h with
      g := (h.g.set 1 (BitVec.ofNat 64 sl)).set 2 (BitVec.ofNat 64 r.code), e := e,
      posted := (slotOf s c 15).posted, stores := (slotOf s c 15).stores, storeSeq := (slotOf s c 15).storeSeq }

/-- Adds a record to a queue: of the records of one cycle the lower slot's comes first (R189). -/
def insertRecord (k : Nat) (r : TrapRec) (q : List (Nat × TrapRec)) : List (Nat × TrapRec) :=
  let first := q.takeWhile (fun x => !(x.2.time == r.time && k < x.1))
  first ++ (k, r) :: q.drop first.length

/-- A slot whose thread has ended: its buffered stores still drain. -/
def Slot.emptied (x : Slot) : Slot := { posted := x.posted, stores := x.stores, storeSeq := x.storeSeq }

/-- A core whose keeper slot is empty. -/
def withoutKeeper (s : State) (c : Nat) : State := setSlot s c 15 (slotOf s c 15).emptied

/-- The keeper has started in this cycle and has issued nothing. -/
def keeperFresh (s : State) (c : Nat) : Bool :=
  c < garnet && (slotOf s c 15).live && slotOf (startKeeper (withoutKeeper s c) c) c 15 == slotOf s c 15

/-- A record enters the keeper queue (R191), or goes to Jasper when the estate has no keeper (R194). The keeper that runs serves the head;
one that has just started gives way to a record of the same cycle that enters first (R189). -/
def queueRecord (s : State) (c k : Nat) (r : TrapRec) : State :=
  let x := coreOf s c
  if c < garnet && (estateOf s (keeperEstate s c r)).keeperEntry == 0 then
    setCore s c { x with toJasper := insertRecord k r x.toJasper }
  else
    let fresh := keeperFresh s c
    let n := if c < garnet && (slotOf s c 15).live && !fresh then 1 else 0
    let s1 := setCore s c { x with keeperQueue := x.keeperQueue.take n ++ insertRecord k r (x.keeperQueue.drop n) }
    if fresh then startKeeper (withoutKeeper s1 c) c
    else if c < garnet && x.keeperQueue.isEmpty then startKeeper s1 c else s1

/-- PEER of a parked thread: 0 (R197), but after MEM_POISON in an MMA the seat and the rows done (R211). DEDUCED (log 46). -/
def Slot.parkedPeer (x : Slot) (t : TrapInfo) : Nat :=
  match x.pend, t.code with
  | .mma _ seat _ _ done _, .memPoison => seat + 65536 * done
  | _, _ => 0

/-- Parks slot k of core c with a trap: the thread takes reason PARKED and its record goes to the keeper queue (R189). A
trap of the keeper itself is escalated: its slot empties and a record with CODE 0x17 goes to Jasper (R193). -/
def parkSlot (s : State) (c k : Nat) (t : TrapInfo) (long : Bool) : State :=
  let r := trapRecord s c k t long
  if isKeeper c k then
    let s0 := returnHeld s c k
    let s' := setSlot s0 c k (slotOf s0 c k).emptied
    let x := coreOf s' c
    setCore s' c { x with
      keeperHeld := true,
      toJasper := x.toJasper ++ [(k, { r with code := TrapCode.keeperFault.toNat, aux := BitVec.ofNat 64 r.code })] }
  else
    let s' := returnHeld s c k
    queueRecord (setSlot s' c k { slotOf s' c k with
      wait := { reason := .parked, peer := (slotOf s c k).parkedPeer t }, fetched := [], past := false }) c k r

/-- The slots that hold threads of a task, with the core and the slot number. -/
def crewSlots (s : State) (h : Nat) : List (Nat × Nat × Slot) :=
  s.cores.flatMap fun p => (p.2.slots.filter (fun q => q.2.live && q.2.task == h && !isService p.1 q.1)).map (fun q => (p.1, q.1, q.2))

/-- Parks every thread of a task with a trap (R142), but for those given and those of halted clusters (R195). -/
def parkCrew (s : State) (h : Nat) (t : TrapInfo) (but : List (Nat × Nat) := []) : State :=
  (crewSlots s h).foldl (fun s p =>
    if p.2.2.wait.reason = .parked || but.contains (p.1, p.2.1) || s.halted.contains (clusterOf p.1) then s else parkSlot s p.1 p.2.1 t p.2.2.long) s

/-- Taking a trap by a reply, at the reply's own writeback point (R34, R189). -/
def trapNow (t : TrapInfo) (s : State) : State :=
  parkSlot { s with cur := { s.cur with pops := [] } } s.cur.core s.cur.slot t s.cur.long

/-- Taking a trap at the instruction of n turns being issued (R33, R189): at its writeback point the thread parks and its record
enters the keeper queue. Nothing else of it is visible; until then its slot issues nothing. -/
def takeTrapAt (n : Nat) (t : TrapInfo) (s : State) : State :=
  let now := ticksOf s s.cur.core
  let x := curSlot s
  let s1 := setCurSlot { s with cur := { s.cur with pops := [] } } { x with readyAt := now + 8 * n }
  setCurCore s1 { curCore s1 with wb := (curCore s1).wb ++ [⟨now + 8 * n - 1, s.cur.slot, .park t s.cur.long, none⟩] }

/-- Taking a trap at an instruction of one turn. -/
def takeTrap (t : TrapInfo) (s : State) : State := takeTrapAt 1 t s

/-- The number of the entry that stands for the push of a waiting instruction in the store buffer of the thread that bound its write
stream (R41). -/
def reservedPush (s : State) (c : Nat) (held : List Popped) (p : Pending) : Option Nat :=
  match reservedReg held p with
  | some (true, r) =>
    match pushedBy held r with
    | some b => ((slotOf s c b).stores.reverse.find? (fun e => !e.ready && e.stream == some r)).map (·.seq)
    | none => none
  | _ => none

/-- Waiting (R5, R6): the thread leaves the rotation with its reason and its peer. An instruction that will complete by a
reply has taken its pops and its reservation at issue (R42); one that re-issues has taken none. -/
def takeWait (w : WaitState) (p : Pending) (s : State) : State :=
  let c := s.cur.core
  if p.reissues then
    let s' := { s with cur := { s.cur with pops := [] } }
    setCurSlot s' { curSlot s' with
      wait := w, pend := p, readyAt := ticksOf s c + 8, word := s.cur.word, long := s.cur.long, accSg := s.cur.sg,
      accAddr := s.cur.addr, fetched := if p = .none then [] else (curSlot s').fetched }
  else
    let held := s.cur.pops
    let s1 := commitPops s
    let q := match p.reg with
      | some d => if 16 ≤ d.2.toNat then findQueue (coreOf s1 c) d.1 (d.2.toNat - 16) else none
      | none => none
    let s2 := match q with
      | some q => setCore s1 c (reserveEntry (coreOf s1 c) q.wide q.reg)
      | none => s1
    setCurSlot s2 { curSlot s2 with
      wait := w, pend := p, readyAt := ticksOf s c + 8, held := held,
      ticket := match q with
        | some q => some q.ticket
        | none => reservedPush s1 c held p,
      word := s.cur.word, long := s.cur.long, accSg := s.cur.sg, accAddr := s.cur.addr }

/-- The end of an instruction of n turns: its next state, its trap or its wait. -/
def runAt (n : Nat) (m : Exec Unit) (s : State) : Host.Outcome State Fault Refusal :=
  match m.run s with
  | (.ok _, s') => .next s'
  | (.error (.trap t), s') => .next (takeTrapAt n t s')
  | (.error (.wait w p), s') => .next (takeWait w p s')

/-- The same of an instruction of one turn. -/
def run (m : Exec Unit) (s : State) : Host.Outcome State Fault Refusal := runAt 1 m s

/-- The AUX of an ILLEGAL trap: the word and its length (R56). -/
def illegalAux (s : State) : Word := BitVec.ofNat 64 (s.cur.word % 2 ^ 32 + 4294967296 * s.cur.long.toNat)

/-- Trap(ILLEGAL) (R56). -/
def illegal : Exec α := do
  let s ← get
  trapWith .illegal 0 (illegalAux s)

/-! ### The program counter and the loops (R45, R46) -/

/-- Bytes of the instruction being issued (R54). -/
def curLen (s : State) : Nat := if s.cur.long then 4 else 2

/-- The sg7 offset of a loop's last body instruction (R29, R202). -/
def LoopState.last (l : LoopState) : Word := l.start - 4 + BitVec.ofNat 64 (2 * l.endoff)

/-- Whether an offset lies in a loop's body (R46): the second halfword of a long last instruction does not. DESIGN CHOICE (log 60). -/
def LoopState.holds (l : LoopState) (pc : Word) : Bool := l.start ≤ pc && pc ≤ l.last

/-- The loops count at their last body instruction, from the innermost outward for as long as a loop ends and shares that
instruction (R46). loops is innermost first; answers the PC, the loops still active, and the counters. -/
def countLoops (last seq : Word) (lc : Vector Word 3) : List LoopState → Word × List LoopState × Vector Word 3
  | [] => (seq, [], lc)
  | l :: outer =>
    if l.last = last then
      let n := outer.length
      let x := lc[n]?.getD 0
      if x ≤ 1 then countLoops last seq (lc.setIfInBounds n 0) outer
      else (l.start, l :: outer, lc.setIfInBounds n (x - 1))
    else (seq, l :: outer, lc)

/-- Falls through from the instruction at the PC, counting the loops that end there (R46). -/
def Slot.fall (x : Slot) (len : Nat) : Slot :=
  let r := countLoops x.pc (x.pc + BitVec.ofNat 64 len) x.lc x.loops.reverse
  { x with pc := r.1, loops := r.2.1.reverse, lc := r.2.2 }

/-- Goes to a target, ending every loop whose body does not hold it and the loops inside it (R46). -/
def Slot.goto (x : Slot) (target : Word) : Slot :=
  { x with pc := target, loops := x.loops.takeWhile (·.holds target) }

/-! ### Fresh names and free values -/

/-- The first of c, c + 1, … below 2^32 that is not 0 and not used: a fresh nonzero 32-bit name (R116, R140). fuel bounds
the search by the number of names in use. -/
def freshName (used : List Nat) (c : Nat) : Nat → Nat
  | 0 => c % 2 ^ 32
  | fuel + 1 => if c % 2 ^ 32 = 0 ∨ c % 2 ^ 32 ∈ used then freshName used (c + 1) fuel else c % 2 ^ 32

/-- Draws a fresh nonzero 32-bit name that differs from those in use; which one the manual leaves open. DESIGN CHOICE (log 3). -/
def fresh (s : State) (used : List Nat) : Nat × State :=
  (freshName used (Config.freeWord s.draws).toNat (used.length + 2), { s with draws := s.draws + 1 })

end Sys2Proof.Machine
end

