-- ==== Sys2Proof/Machine/Operands.lean ====
section
/-! DEFINITION. Scalar operands: the private and the shared registers (R5, R36, R37), the queues that shared registers can
stand for (R41, R42), and the end of an instruction. A private register is written at issue: no instruction can read it
before the writeback point, since its own thread issues no sooner (R33). -/

namespace Sys2Proof.Machine

/-! ### Reading -/

/-- What the instruction being issued has popped from a bound register. -/
def popped (s : State) (wide : Bool) (r : Nat) : Option Popped :=
  s.cur.pops.find? (fun p => p.wide == wide && p.reg == r)

/-- Records a pop of the instruction being issued. -/
def addPop (p : Popped) (s : State) : State := { s with cur := { s.cur with pops := s.cur.pops ++ [p] } }

/-- The peer of a QEMPTY, QFULL or STREAM wait: the register field in [20:16] (R197). -/
def regPeer (r : Reg) : Nat := r.toNat

/-- Takes the oldest entry of a queue bound to the register named, once per instruction (R42). While the oldest is reserved and not
filled the reader waits for it, though a younger one be filled. DESIGN CHOICE (log 49). -/
def popQueue (wide : Bool) (r : Reg) : Exec Unit := do
  let s ← get
  match findQueue (curCore s) wide (r.toNat - 16), popped s wide r.toNat with
  | some q, none =>
    match q.entries with
    | { value := some v, .. } :: _ => modify (addPop { reg := r.toNat, wide := wide, value := v, binder := s.cur.slot, bits := 512 })
    | _ => waitFor { reason := .qempty, peer := regPeer r, key := wide.toNat }
  | _, _ => pure ()

/-- Whether a register that is read as such, and stands for no queue or stream, is poisoned. -/
def isPoisoned (s : State) (wide : Bool) (r : Reg) : Bool :=
  (popped s wide r.toNat).isNone &&
    if r.toNat < 16 then (curSlot s).poison.contains (wide, r.toNat) else (curCore s).poison.contains (wide, r.toNat - 16)

/-- A read of a poisoned register traps (R110, R269). DESIGN CHOICE (log 70). -/
def readable (wide : Bool) (r : Reg) : Exec Unit := do
  let s ← get
  if isPoisoned s wide r then trapWith .memPoison

/-- Takes the entries of every queue that the source fields name. -/
def popQueues (wide : Bool) : List Reg → Exec Unit
  | [] => pure ()
  | r :: rs => do
    if 16 ≤ r.toNat then popQueue wide r
    readable wide r
    popQueues wide rs

/-- A push needs one of the queue's 8 entries free, counting the entry that this instruction pops (R42). -/
def reserveQueue (wide : Bool) (r : Reg) : Exec Unit := do
  let s ← get
  match findQueue (curCore s) wide (r.toNat - 16) with
  | some q =>
    let n := q.entries.length - (popped s wide r.toNat).isSome.toNat
    if 8 ≤ n then waitFor { reason := .qfull, peer := regPeer r, key := wide.toNat } else pure ()
  | none => pure ()

/-- Opens the g and c operands of an instruction: the sources it reads and the destination it writes. -/
def useG (srcs : List Reg) (dst : Option Reg) : Exec Unit := do
  popQueues false srcs
  match dst with
  | some d => if 16 ≤ d.toNat then reserveQueue false d else pure ()
  | none => pure ()

/-- G(r) as read at issue (R5, R36, R41). -/
def gval (s : State) (r : Reg) : Word :=
  if r = 0 then 0
  else if r.toNat < 16 then (curSlot s).g[r.toNat]?.getD 0
  else match popped s false r.toNat with
    | some p => BitVec.ofNat 64 p.value
    | none => (curCore s).c[r.toNat - 16]?.getD 0

/-- e[i] (R36). -/
def eval (s : State) (i : Nat) : Word := (curSlot s).e[i]?.getD 0

/-- The n registers of a run of e registers from e (R58). -/
def eRun (s : State) (e : EReg) : Nat → List Word
  | 0 => []
  | n + 1 => eRun s e n ++ [eval s (e.toNat + n)]

/-! ### Writing -/

/-- The writeback point of an instruction of t turns (R33). -/
def wbPoint (s : State) (t : Nat) : Nat := ticksOf s s.cur.core + 8 * t - 1

/-- Leaves an effect for its writeback point (R37). -/
def addWb (due : Nat) (a : WbAct) (s : State) (stream : Option Nat := none) : State :=
  setCurCore s { curCore s with wb := (curCore s).wb ++ [⟨due, s.cur.slot, a, stream⟩] }

/-- Reserves an entry of a queue and leaves its value for the writeback point (R42). -/
def pushQueue (due : Nat) (wide : Bool) (r : Nat) (q : Queue) (v : Nat) (s : State) : State :=
  let c := curCore s
  let q' := { q with entries := q.entries ++ [⟨q.ticket, none⟩], ticket := q.ticket + 1 }
  addWb due (.fill wide r q.ticket v)
    (setCurCore s { c with queues := c.queues.map (fun x => if x.wide == wide && x.reg == r then q' else x) })

/-- A slot whose register is written: its poison goes (R110, R269). -/
def Slot.clean (x : Slot) (wide : Bool) (r : Nat) : Slot := { x with poison := x.poison.filter (· != (wide, r)) }

/-- G(d) := v at the cycle given (R36, R37, R42). DEDUCED (log 17). -/
def putG (due : Nat) (d : Reg) (v : Word) (s : State) : State :=
  if d = 0 then s
  else if d.toNat < 16 then
    setCurSlot s { (curSlot s).clean false d.toNat with g := (curSlot s).g.setIfInBounds d.toNat v }
  else match findQueue (curCore s) false (d.toNat - 16) with
    | some q => pushQueue due false (d.toNat - 16) q v.toNat s
    | none => addWb due (.c (d.toNat - 16) v) s

/-- e[i] := v. -/
def putE (i : Nat) (v : Word) (s : State) : State :=
  setCurSlot s { curSlot s with e := (curSlot s).e.setIfInBounds i v }

/-- Writes a run of e registers from i. -/
def putERun (i : Nat) : List Word → State → State
  | [], s => s
  | v :: vs, s => putERun (i + 1) vs (putE i v s)

/-! ### The end of an instruction -/

/-- The thread's pace after an instruction of t turns (R33). -/
def paced (s : State) (t : Nat) (x : Slot) : Slot :=
  { x with readyAt := ticksOf s s.cur.core + 8 * t, pend := .none, wait := {}, held := [], ticket := none,
           fetched := [], rows := none, barHalf := false }

/-- Ends an instruction that falls through (R46). -/
def endFall (t : Nat) (s : State) : State :=
  let s' := commitPops s
  setCurSlot s' (paced s' t ((curSlot s').fall (curLen s')))

/-- Ends an instruction that goes to a target (R46). -/
def endGoto (t : Nat) (target : Word) (s : State) : State :=
  let s' := commitPops s
  setCurSlot s' (paced s' t ((curSlot s').goto target))

/-- An instruction that reads g operands and writes one g result: the shape of the scalar arithmetic (R270, R301, R347). -/
def alu (t : Nat) (srcs : List Reg) (d : Reg) (f : State → Word) (s : State) : Host.Outcome State Fault Refusal :=
  run (do
    useG srcs (some d)
    modify (fun s => endFall t (putG (wbPoint s t) d (f s) s))) s

end Sys2Proof.Machine
end

