-- ==== Sys2Proof/Machine/Alu.lean ====
section
/-! DEFINITION. The scalar integer instructions (R60, R61, R91, R270, R301, R347): one result written to g[d], no flag
and no trap. -/

namespace Sys2Proof.Machine

/-- The conditions of CMP and BR (R60, R62). -/
def condHolds (q : Cond) (a b : Word) : Bool :=
  match q with
  | .eq => a == b
  | .ne => a != b
  | .lt => a.slt b
  | .ge => !a.slt b
  | .ltu => a.ult b
  | .geu => !a.ult b

/-- Bits 127 to 64 of the signed product (R330). -/
def mulHigh (a b : Word) : Word := BitVec.ofInt 64 (a.toInt * b.toInt / 2 ^ 64)

/-- Bits 127 to 64 of the unsigned product (R330). -/
def mulHighU (a b : Word) : Word := BitVec.ofNat 64 (a.toNat * b.toNat / 2 ^ 64)

/-- Quotients truncate toward zero; by 0 they are all ones; −2^63 / −1 is −2^63 (R91, R297). -/
def divS (a b : Word) : Word := if b = 0 then BitVec.allOnes 64 else a.sdiv b
def divU (a b : Word) : Word := if b = 0 then BitVec.allOnes 64 else a / b

/-- Remainders take the dividend's sign; by 0 they are the dividend (R91, R343). -/
def remS (a b : Word) : Word := if b = 0 then a else a.srem b
def remU (a b : Word) : Word := if b = 0 then a else a % b

/-- Zeros above the most significant one bit, 64 for 0 (R287). -/
def leadingZeros (a : Word) : Word := if a = 0 then 64 else BitVec.ofNat 64 (63 - a.toNat.log2)

/-- Zeros below the least significant one bit of an n-bit number, n for 0 (R295). -/
def trailingZeros (x : Nat) : Nat → Nat
  | 0 => 0
  | n + 1 => if x % 2 = 1 then 0 else 1 + trailingZeros (x / 2) n

/-- One bits of an n-bit number (R338). -/
def onesCount (x : Nat) : Nat → Nat
  | 0 => 0
  | n + 1 => x % 2 + onesCount (x / 2) n

/-- The width of the field that b describes: len in [13:8], 0 meaning 64, cut at bit 63 (R283). -/
def fieldWidth (b : Word) : Nat :=
  let pos := bits b 0 6
  let len := if bits b 8 6 = 0 then 64 else bits b 8 6
  min len (64 - pos)

/-- BFX's result (R284). -/
def extractField (a b : Word) : Word := (a >>> bits b 0 6) &&& BitVec.ofNat 64 (2 ^ fieldWidth b - 1)

/-- BFI's result (R283). -/
def insertField (d a b : Word) : Word :=
  let mask : Word := BitVec.ofNat 64 (2 ^ fieldWidth b - 1) <<< bits b 0 6
  (d &&& ~~~mask) ||| ((a <<< bits b 0 6) &&& mask)

/-- ADD (R272). -/
def execAdd (d a b : Reg) : State → Host.Outcome State Fault Refusal :=
  alu 1 [a, b] d fun s => gval s a + gval s b

/-- SUB (R355). -/
def execSub (d a b : Reg) : State → Host.Outcome State Fault Refusal :=
  alu 1 [a, b] d fun s => gval s a - gval s b

/-- AND (R280). -/
def execAnd (d a b : Reg) : State → Host.Outcome State Fault Refusal :=
  alu 1 [a, b] d fun s => gval s a &&& gval s b

/-- OR (R336). -/
def execOr (d a b : Reg) : State → Host.Outcome State Fault Refusal :=
  alu 1 [a, b] d fun s => gval s a ||| gval s b

/-- XOR (R377). -/
def execXor (d a b : Reg) : State → Host.Outcome State Fault Refusal :=
  alu 1 [a, b] d fun s => gval s a ^^^ gval s b

/-- MUL (R330). -/
def execMul (d a b : Reg) : State → Host.Outcome State Fault Refusal :=
  alu 1 [a, b] d fun s => gval s a * gval s b

/-- MULH (R330). -/
def execMulh (d a b : Reg) : State → Host.Outcome State Fault Refusal :=
  alu 1 [a, b] d fun s => mulHigh (gval s a) (gval s b)

/-- MULHU (R330). -/
def execMulhu (d a b : Reg) : State → Host.Outcome State Fault Refusal :=
  alu 1 [a, b] d fun s => mulHighU (gval s a) (gval s b)

/-- DIV: four turns (R33, R297). -/
def execDiv (d a b : Reg) : State → Host.Outcome State Fault Refusal :=
  alu 4 [a, b] d fun s => divS (gval s a) (gval s b)

/-- DIVU (R297). -/
def execDivu (d a b : Reg) : State → Host.Outcome State Fault Refusal :=
  alu 4 [a, b] d fun s => divU (gval s a) (gval s b)

/-- REM (R343). -/
def execRem (d a b : Reg) : State → Host.Outcome State Fault Refusal :=
  alu 4 [a, b] d fun s => remS (gval s a) (gval s b)

/-- REMU (R343). -/
def execRemu (d a b : Reg) : State → Host.Outcome State Fault Refusal :=
  alu 4 [a, b] d fun s => remU (gval s a) (gval s b)

/-- SHL (R350). -/
def execShl (d a b : Reg) : State → Host.Outcome State Fault Refusal :=
  alu 1 [a, b] d fun s => gval s a <<< ((gval s b).toNat % 64)

/-- SHR (R350). -/
def execShr (d a b : Reg) : State → Host.Outcome State Fault Refusal :=
  alu 1 [a, b] d fun s => gval s a >>> ((gval s b).toNat % 64)

/-- SRA (R350). -/
def execSra (d a b : Reg) : State → Host.Outcome State Fault Refusal :=
  alu 1 [a, b] d fun s => (gval s a).sshiftRight ((gval s b).toNat % 64)

/-- MIN (R326). -/
def execMin (d a b : Reg) : State → Host.Outcome State Fault Refusal :=
  alu 1 [a, b] d fun s => if (gval s a).slt (gval s b) then gval s a else gval s b

/-- MAX (R323). -/
def execMax (d a b : Reg) : State → Host.Outcome State Fault Refusal :=
  alu 1 [a, b] d fun s => if (gval s a).slt (gval s b) then gval s b else gval s a

/-- MINU (R326). -/
def execMinu (d a b : Reg) : State → Host.Outcome State Fault Refusal :=
  alu 1 [a, b] d fun s => if (gval s a).ult (gval s b) then gval s a else gval s b

/-- MAXU (R323). -/
def execMaxu (d a b : Reg) : State → Host.Outcome State Fault Refusal :=
  alu 1 [a, b] d fun s => if (gval s a).ult (gval s b) then gval s b else gval s a

/-- CLZ (R287). -/
def execClz (d a : Reg) : State → Host.Outcome State Fault Refusal :=
  alu 1 [a] d fun s => leadingZeros (gval s a)

/-- CTZ (R295). -/
def execCtz (d a : Reg) : State → Host.Outcome State Fault Refusal :=
  alu 1 [a] d fun s => BitVec.ofNat 64 (trailingZeros (gval s a).toNat 64)

/-- POPC (R338). -/
def execPopc (d a : Reg) : State → Host.Outcome State Fault Refusal :=
  alu 1 [a] d fun s => BitVec.ofNat 64 (onesCount (gval s a).toNat 64)

/-- CMP (R288). -/
def execCmp (q : Cond) (d a b : Reg) : State → Host.Outcome State Fault Refusal :=
  alu 1 [a, b] d fun s => if condHolds q (gval s a) (gval s b) then 1 else 0

/-- SEL reads d as its condition (R349). -/
def execSel (d a b : Reg) : State → Host.Outcome State Fault Refusal :=
  alu 1 [d, a, b] d fun s => if gval s d ≠ 0 then gval s a else gval s b

/-- BFX (R284). -/
def execBfx (d a b : Reg) : State → Host.Outcome State Fault Refusal :=
  alu 1 [a, b] d fun s => extractField (gval s a) (gval s b)

/-- BFI reads d as a source (R283). -/
def execBfi (d a b : Reg) : State → Host.Outcome State Fault Refusal :=
  alu 1 [d, a, b] d fun s => insertField (gval s d) (gval s a) (gval s b)

/-- ADDI (R61, R272). -/
def execAddi (d a : Reg) (imm : BitVec 15) : State → Host.Outcome State Fault Refusal :=
  alu 1 [a] d fun s => gval s a + imm.signExtend 64

/-- ANDI (R61, R280). -/
def execAndi (d a : Reg) (imm : BitVec 15) : State → Host.Outcome State Fault Refusal :=
  alu 1 [a] d fun s => gval s a &&& imm.setWidth 64

/-- ORI (R61, R336). -/
def execOri (d a : Reg) (imm : BitVec 15) : State → Host.Outcome State Fault Refusal :=
  alu 1 [a] d fun s => gval s a ||| imm.setWidth 64

/-- XORI (R61, R377). -/
def execXori (d a : Reg) (imm : BitVec 15) : State → Host.Outcome State Fault Refusal :=
  alu 1 [a] d fun s => gval s a ^^^ imm.setWidth 64

/-- SHLI (R350). -/
def execShli (d a : Reg) (sh : BitVec 6) : State → Host.Outcome State Fault Refusal :=
  alu 1 [a] d fun s => gval s a <<< sh.toNat

/-- SHRI (R350). -/
def execShri (d a : Reg) (sh : BitVec 6) : State → Host.Outcome State Fault Refusal :=
  alu 1 [a] d fun s => gval s a >>> sh.toNat

/-- SRAI (R350). -/
def execSrai (d a : Reg) (sh : BitVec 6) : State → Host.Outcome State Fault Refusal :=
  alu 1 [a] d fun s => (gval s a).sshiftRight sh.toNat

/-- LIH (R318). -/
def execLih (d : Reg) (imm : BitVec 20) : State → Host.Outcome State Fault Refusal :=
  alu 1 [] d fun _ => imm.signExtend 64 <<< 15

/-- Short MOV is OR d, a, g0 (R75, R329). -/
def execMovShort (d a : Reg) : State → Host.Outcome State Fault Refusal :=
  alu 1 [a] d fun s => gval s a

/-- Short ADD is ADD d, d, a (R75, R272). -/
def execAddShort (d a : Reg) : State → Host.Outcome State Fault Refusal :=
  alu 1 [d, a] d fun s => gval s d + gval s a

/-- Short SUB is SUB d, d, a (R75, R355). -/
def execSubShort (d a : Reg) : State → Host.Outcome State Fault Refusal :=
  alu 1 [d, a] d fun s => gval s d - gval s a

/-- Short AND is AND d, d, a (R75, R280). -/
def execAndShort (d a : Reg) : State → Host.Outcome State Fault Refusal :=
  alu 1 [d, a] d fun s => gval s d &&& gval s a

/-- Short OR is OR d, d, a (R75, R336). -/
def execOrShort (d a : Reg) : State → Host.Outcome State Fault Refusal :=
  alu 1 [d, a] d fun s => gval s d ||| gval s a

/-- Short XOR is XOR d, d, a (R75, R377). -/
def execXorShort (d a : Reg) : State → Host.Outcome State Fault Refusal :=
  alu 1 [d, a] d fun s => gval s d ^^^ gval s a

/-- Short MOVI (R75, R329). -/
def execMoviShort (d : Reg) (imm : BitVec 6) : State → Host.Outcome State Fault Refusal :=
  alu 1 [] d fun _ => imm.signExtend 64

/-- Short ADDI (R75, R272). -/
def execAddiShort (d : Reg) (imm : BitVec 6) : State → Host.Outcome State Fault Refusal :=
  alu 1 [d] d fun s => gval s d + imm.signExtend 64

/-- Short SHLI (R75, R350). -/
def execShliShort (d : Reg) (sh : BitVec 6) : State → Host.Outcome State Fault Refusal :=
  alu 1 [d] d fun s => gval s d <<< sh.toNat

/-- Short SHRI (R75, R350). -/
def execShriShort (d : Reg) (sh : BitVec 6) : State → Host.Outcome State Fault Refusal :=
  alu 1 [d] d fun s => gval s d >>> sh.toNat

/-- MXV (R332). -/
def execMxv (d : Reg) (e : EReg) : State → Host.Outcome State Fault Refusal :=
  alu 1 [] d fun s => eval s e.toNat

/-- MVX (R332). -/
def execMvx (e : EReg) (a : Reg) (s : State) : Host.Outcome State Fault Refusal :=
  run (do
    useG [a] none
    modify (fun s => endFall 1 (putE e.toNat (gval s a) s))) s

end Sys2Proof.Machine
end

