-- ==== Sys2Proof/Machine/Flags.lean ====
section
/-! DEFINITION. FRM and FFLAGS (R84, R85): the controls a vector instruction reads and the flags it raises. Flags are
numbers in FFLAGS layout. -/

namespace Sys2Proof.Machine

def flagNV : Nat := 1
def flagDZ : Nat := 2
def flagOF : Nat := 4
def flagUF : Nat := 8
def flagNX : Nat := 16
def flagSAT : Nat := 32
def flagRNG : Nat := 64

/-- The roundings of R81. -/
inductive Round where
  | rne | rtz | sat
  deriving DecidableEq, Repr

/-- FRM[1:0] (R84); 11 is never held. -/
def frmRound (frm : Word) : Round :=
  match frm.toNat % 4 with
  | 1 => .rtz
  | 2 => .sat
  | _ => .rne

/-- The rounding in force for floating lanes (R69, R81). -/
def roundOf (rm : BitVec 2) (frm : Word) : Round :=
  match rm.toNat with
  | 0 => .rne
  | 1 => .rtz
  | 2 => .sat
  | _ => frmRound frm

def frmFtz (frm : Word) : Bool := bits frm 2 1 == 1
def frmNik (frm : Word) : Nat := bits frm 3 4
def frmNir (frm : Word) : Bool := bits frm 7 1 == 1

/-- The flags whose traps FRM enables, in FFLAGS layout: RNG and SAT have none (R84). -/
def frmTraps (frm : Word) : Nat := bits frm 8 5

/-- A value that WRS may place in FRM (R84, R39). -/
def frmOk (w : Word) : Bool := w.toNat < 8192 && w.toNat % 4 != 3

/-- A value that WRS may place in FFLAGS (R84, R39). -/
def fflagsOk (w : Word) : Bool := w.toNat < 128

/-- The OR of flags. -/
def orFlags (a b : Nat) : Nat := a ||| b

/-- The lowest lane that raised an enabled flag (R85). -/
def firstTrapping (enabled : Nat) : List Nat → Nat → Option Nat
  | [], _ => none
  | f :: fs, i => if f &&& enabled != 0 then some i else firstTrapping enabled fs (i + 1)

/-- R85: traps ARITH when a lane raised a flag whose trap is enabled. laneFlags are the flags of each lane, lane 0 first. -/
def checkArith (laneFlags : List Nat) : Exec Unit := do
  let s ← get
  match firstTrapping (frmTraps (curSlot s).frm) laneFlags 0 with
  | some i => trapWith .arith 0 (BitVec.ofNat 64 (laneFlags.foldl orFlags 0 + 256 * i))
  | none => pure ()

/-- ORs flags into a thread's FFLAGS (R85). -/
def Slot.raise (x : Slot) (flags : Nat) : Slot := { x with fflags := x.fflags ||| BitVec.ofNat 64 flags }

end Sys2Proof.Machine
end

