-- ==== Sys2Proof/Machine/Plats.lean ====
section
/-! DEFINITION. What plats and the frontier decide: which bytes a task declared, which tasks conflict, who is at the
frontier (R137 to R139, R153 to R155). -/

namespace Sys2Proof.Machine

/-- One past the last byte of a plat (R137). -/
def Plat.stop (p : Plat) : Nat := p.base + 64 * p.units

def Plat.reads (p : Plat) : Bool := p.mode != .write
def Plat.writes (p : Plat) : Bool := p.mode != .read

/-- Whether two plats overlap. -/
def Plat.meets (p q : Plat) : Bool := p.base < q.stop && q.base < p.stop

/-- Whether a plat covers a byte. -/
def Plat.has (p : Plat) (va : Nat) : Bool := p.base ≤ va && va < p.stop

/-- Whether every one of n bytes from va satisfies p. -/
def allBytes (p : Nat → Bool) (va : Nat) : Nat → Bool
  | 0 => true
  | n + 1 => p va && allBytes p (va + 1) n

/-- The plat check on the runs of bytes of one access (R138): none when they are covered, else the trap. A load needs READ or
UPDATE, a store WRITE or UPDATE. A byte in no plat at all counts first. -/
def platCheck (plats : List Plat) (runs : List (Nat × Nat)) (store : Bool) : Option TrapCode :=
  let all (p : Plat → Nat → Bool) : Bool := runs.all (fun r => allBytes (fun a => plats.any (p · a)) r.1 r.2)
  if all (fun p a => p.has a && (if store then p.writes else p.reads)) then none
  else if all Plat.has then some .platMode
  else some .undeclared

/-- Two tasks of one estate conflict (R139). -/
def conflicts (a b : Task) : Bool :=
  a.estate == b.estate &&
    (a.plats.any (fun p => p.writes && b.plats.any (p.meets ·)) || b.plats.any (fun p => p.writes && a.plats.any (p.meets ·)))

/-- The live tasks (R154). -/
def liveTasks (s : State) : List Task := s.tasks.map (·.2)

/-- A task's parent has committed: a root has none, and a committed task is live no longer, while the children of a task
that is discarded are discarded with it (R151, R152). -/
def parentCommitted (s : State) (t : Task) : Bool := t.parent == 0 || (mapFind s.tasks t.parent).isNone

/-- Whether e was admitted before t. A task without a number yet comes after every admitted one (R144). -/
def admittedBefore (e t : Task) : Bool :=
  match e.admission, t.admission with
  | some a, some b => a < b
  | some _, none => true
  | none, _ => false

/-- No conflicting task of equal timestamp and smaller admission number is uncommitted. -/
def firstAmongEquals (s : State) (t : Task) : Bool :=
  (liveTasks s).all (fun e => e.handle == t.handle || e.ts != t.ts || !admittedBefore e t || !conflicts e t)

/-- A task is at the frontier (R153). -/
def atFrontier (s : State) (h : Nat) : Bool :=
  let t := taskOf s h
  t.ts == (partOf s t.part).frontier && parentCommitted s t && firstAmongEquals s t

/-- A thread may perform a firm operation: the keeper and the courier carry no task and never wait FIRM (R153, R231). -/
def mayBeFirm (s : State) (task : Nat) : Bool := task == 0 || atFrontier s task

/-- A task may commit (R155). -/
def mayCommit (s : State) (t : Task) : Bool :=
  t.phase == .finished && parentCommitted s t &&
    (t.ts < (partOf s t.part).frontier || (t.ts == (partOf s t.part).frontier && firstAmongEquals s t))

/-- The wait of a firm operation (R153, R197). -/
def firmWait (s : State) : WaitState := { reason := .firm, peer := (curSlot s).task % 2 ^ 48 }

/-- Check 7 of R98: a firm operation of a task that is not at the frontier waits. -/
def firm : Exec Unit := do
  let s ← get
  if mayBeFirm s (curSlot s).task then pure () else waitFor (firmWait s)

end Sys2Proof.Machine
end

