-- ==== Sys2Proof/Machine/Places.lean ====
section
/-! DEFINITION. Reading and writing at the place where a location's value is decided (Memory Ordering): the scratchpad,
the commons, HBM, and the remote line cache for host and COHERENT lines, with poison and the history of code bytes. -/

namespace Sys2Proof.Machine

/-- The place k bytes further on. -/
def Home.shift (h : Home) (k : Nat) : Home :=
  match h with
  | .scratch c o => .scratch c (o + k)
  | .commons a => .commons (a + k)
  | .hbm p => .hbm (p + k)
  | .host p => .host (p + k)
  | .remote g p => .remote g (p + k)
  | .coherent g p => .coherent g (p + k)

/-- The address of a place within its memory. -/
def Home.addr : Home → Nat
  | .scratch _ a | .commons a | .hbm a | .host a | .remote _ a | .coherent _ a => a

/-- The place moved to an address of the same memory. -/
def Home.at (h : Home) (a : Nat) : Home :=
  match h with
  | .scratch c _ => .scratch c a
  | .commons _ => .commons a
  | .hbm _ => .hbm a
  | .host _ => .host a
  | .remote g _ => .remote g a
  | .coherent g _ => .coherent g a

/-! ### The remote line cache (R237, R259) -/

/-- Replaces the entries that satisfy p, or adds x. -/
def upsert (p : α → Bool) (x : α) (l : List α) : List α := if l.any p then l.map (fun y => if p y then x else y) else l ++ [x]

/-- The line that the cache holds for accesses (not the one in its eviction buffer). -/
def rlcFind (s : State) (pkg : Option Nat) (line : Nat) : Option RlcLine :=
  s.rlc.find? (fun r => r.pkg == pkg && r.line == line && !r.evicting)

def rlcSet (s : State) (r : RlcLine) : State :=
  { s with rlc := upsert (fun x => x.pkg == r.pkg && x.line == r.line && x.evicting == r.evicting) r s.rlc }

/-- Bytes of a 64-byte line from an offset. -/
def lineBytes (d : Packet) (off n : Nat) : Nat := (d.toNat >>> (8 * off)) % 2 ^ (8 * n)

/-- The history of n bytes of memory about to be replaced (R78). -/
def oldBytes (s : State) (h : Home) (m : Memory) : Nat → List OldByte
  | 0 => []
  | n + 1 => ⟨h, memGet m h.addr⟩ :: oldBytes s (h.shift 1) m n

/-- The same of a line of the remote line cache. -/
def oldLine (h : Home) (d : Packet) (off : Nat) : Nat → List OldByte
  | 0 => []
  | n + 1 => ⟨h, BitVec.ofNat 8 (lineBytes d off 1)⟩ :: oldLine (h.shift 1) d (off + 1) n

/-- The place whose bytes a line of the cache holds. -/
def RlcLine.home (r : RlcLine) : Home :=
  match r.pkg with
  | none => .host (64 * r.line)
  | some g => .coherent g (64 * r.line)

/-- The bytes of a line that the cache is about to lose stay in the history: fetch may still show them (R78). -/
def noteLine (s : State) (r : RlcLine) : State :=
  if r.state = .i then s else { s with history := s.history ++ oldLine r.home r.data 0 64 }

def rlcDrop (s : State) (pkg : Option Nat) (line : Nat) (evicting : Bool) : State :=
  let goes (x : RlcLine) : Bool := x.pkg == pkg && x.line == line && x.evicting == evicting
  { (s.rlc.filter goes).foldl noteLine s with rlc := s.rlc.filter (fun x => !goes x) }

/-- Host memory takes n bytes that were stored by the host (R136). -/
def setHost (s : State) (pa n data : Nat) : State :=
  { s with host := memWrite s.host pa data n, history := s.history ++ oldBytes s (.host pa) s.host n }

/-- A line with bits replaced. -/
def lineMask (d : Packet) (off data mask : Nat) : Packet :=
  let k : Packet := BitVec.ofNat 512 (mask <<< (8 * off))
  (d &&& ~~~k) ||| (BitVec.ofNat 512 (data <<< (8 * off)) &&& k)

/-- The 64 bytes of a line of host memory. -/
def hostData (s : State) (line : Nat) : Packet := BitVec.ofNat 512 (memRead s.host (64 * line) 64)

/-- The host's grant of a line, taken at once: S for a load, M for a store (R259). -/
def grantHost (s : State) (line : Nat) (store : Bool) : State :=
  match rlcFind s none line with
  | some r =>
    if r.state = .i then
      rlcSet s { r with state := if store then .m else .s, data := hostData s line, busy := false, poison := false }
    else if store then rlcSet s { r with state := .m } else s
  | none => rlcSet s { pkg := none, line := line, state := if store then .m else .s, data := hostData s line }

/-! ### Reading -/

/-- What a place answers to a load. -/
inductive Served where
  | value (v : Nat)
  | poison (remote : Bool)
  | lost (pkg : Nat)
  /-- The value is not here: a request must be answered first. -/
  | absent
  /-- A page of the spill area that the value needs is not usable (R142). -/
  | unusable
  deriving DecidableEq, Repr

/-- The package with which home lost a line of this package, if it did (R240). -/
def lostAt (s : State) (h : Home) : Option Nat :=
  match h with
  | .hbm p => (s.lostLines.find? (·.1 == p / 64)).map (·.2)
  | .remote g p => if g = s.pkgId.toNat then (s.lostLines.find? (·.1 == p / 64)).map (·.2) else none
  | _ => none

/-- A load of n bytes, inside one 64-byte line, at its home (R110, R120, R240). -/
def loadHome (s : State) (h : Home) (n : Nat) : Served :=
  match h with
  | .scratch c o =>
    if (coreOf s c).scratchPoison.contains (o / 64) then .poison false else .value (memRead (coreOf s c).scratch o n)
  | .commons a => if s.commonsPoison.contains (a / 64) then .poison false else .value (memRead s.commons a n)
  | .hbm p =>
    match lostAt s h with
    | some l => .lost l
    | none => if s.hbmPoison.contains (p / 64) then .poison false else .value (memRead s.hbm p n)
  | .host p =>
    match rlcFind s none (p / 64) with
    | some r => if r.state = .i then .absent else if r.poison then .poison false else .value (lineBytes r.data (p % 64) n)
    | none => .absent
  | .coherent g p =>
    match rlcFind s (some g) (p / 64) with
    | some r => if r.state = .i then .absent else if r.poison then .poison true else .value (lineBytes r.data (p % 64) n)
    | none => .absent
  | .remote g p =>
    if g ≠ s.pkgId.toNat then .absent else
    match lostAt s h with
    | some l => .lost l
    | none => if s.hbmPoison.contains (p / 64) then .poison true else .value (memRead s.hbm p n)

/-! ### Writing -/

/-- Whether a write of mask over n bytes at an address covers its whole 64-byte line. -/
def wholeLine (a n mask : Nat) : Bool := a % 64 == 0 && n == 64 && mask == 2 ^ 512 - 1

/-- A store of n bytes, inside one 64-byte line, at its home: the bits that mask selects. A whole line clears poison, a
part of a poisoned line is not written (R110, R240). -/
def storeHome (s : State) (h : Home) (n data mask : Nat) : State :=
  match h with
  | .scratch c o =>
    let k := coreOf s c
    let s' := { s with history := s.history ++ oldBytes s h k.scratch n }
    if k.scratchPoison.contains (o / 64) && !wholeLine o n mask then s else
    setCore s' c { k with scratch := memMask k.scratch o data mask n, scratchPoison := k.scratchPoison.filter (· != o / 64) }
  | .commons a =>
    if s.commonsPoison.contains (a / 64) && !wholeLine a n mask then s else
    { s with
      commons := memMask s.commons a data mask n, commonsPoison := s.commonsPoison.filter (· != a / 64),
      history := s.history ++ oldBytes s h s.commons n }
  | .hbm p =>
    if (s.hbmPoison.contains (p / 64) || (lostAt s h).isSome) && !wholeLine p n mask then s else
    { s with
      hbm := memMask s.hbm p data mask n, hbmPoison := s.hbmPoison.filter (· != p / 64),
      lostLines := s.lostLines.filter (·.1 != p / 64), history := s.history ++ oldBytes s h s.hbm n }
  | .host p =>
    match rlcFind s none (p / 64) with
    | some r =>
      if r.poison && !wholeLine p n mask then s else
      { rlcSet s { r with state := .m, data := lineMask r.data (p % 64) data mask, poison := false } with
        history := s.history ++ oldLine h r.data (p % 64) n }
    | none => s
  | .coherent g p =>
    match rlcFind s (some g) (p / 64) with
    | some r =>
      if r.poison && !wholeLine p n mask then s else
      { rlcSet s { r with state := .m, data := lineMask r.data (p % 64) data mask, poison := false } with
        history := s.history ++ oldLine h r.data (p % 64) n }
    | none => s
  | .remote g p =>
    if g ≠ s.pkgId.toNat then s else
    if (s.hbmPoison.contains (p / 64) || (lostAt s h).isSome) && !wholeLine p n mask then s else
    { s with
      hbm := memMask s.hbm p data mask n, hbmPoison := s.hbmPoison.filter (· != p / 64),
      lostLines := s.lostLines.filter (·.1 != p / 64), history := s.history ++ oldBytes s (.hbm p) s.hbm n }

/-- Whether an access to a place must be preceded by something that is not so yet: a COHERENT line in a state that allows it
(R237), the answer of another package, the end of a back-invalidate of a line that the host holds (R245). -/
def needsLine (s : State) (h : Home) (store : Bool) : Bool :=
  match h with
  | .coherent g p =>
    match rlcFind s (some g) (p / 64) with
    | some r => if store then !(r.state = .m || r.state = .e) else r.state = .i
    | none => true
  | .remote g p => g != s.pkgId.toNat || (store && s.hostHeld.contains (p / 64))
  | .hbm p => store && s.hostHeld.contains (p / 64)
  | _ => false

/-- A mask of all the bits of n bytes. -/
def fullMask (n : Nat) : Nat := 2 ^ (8 * n) - 1

/-- Marks a line of HBM poisoned. -/
def poisonHbm (s : State) (pa : Nat) : State := { s with hbmPoison := pa / 64 :: s.hbmPoison.filter (· != pa / 64) }

/-! ### Classes (R119) -/

/-- The die on which a place is homed; 4 is the Cairn die (R197). -/
def Home.die : Home → Nat
  | .scratch c _ => dieOf c
  | .commons a => a / 33554432 % 4
  | .hbm p => p / 137438953472 % 4
  | .host _ | .remote _ _ | .coherent _ _ => 4

/-- A place of SYS class (R119). -/
def Home.sys : Home → Bool
  | .host _ | .remote _ _ | .coherent _ _ => true
  | _ => false

/-- The class of a place relative to a core (R119). -/
def Home.cls (core : Nat) : Home → Scope
  | .scratch _ _ => .core
  | .commons a => if core < garnet && (Home.commons a).die == dieOf core then .die else .pkg
  | .hbm p => if core < garnet && (Home.hbm p).die == dieOf core then .die else .pkg
  | .host _ | .remote _ _ | .coherent _ _ => .sys

/-- The order CORE < DIE < PKG < SYS. -/
def Scope.rank : Scope → Nat
  | .core => 0 | .die => 1 | .pkg => 2 | .sys => 3

def Scope.le (a b : Scope) : Bool := Scope.rank a ≤ Scope.rank b

/-! ### The fabric's geometry and the stewards (R17, R222, R235, R236, R240) -/

/-- The coordinates of a package ID. -/
def coordA (p : Nat) : Nat := p % 4
def coordB (p : Nat) : Nat := p / 4 % 4
def coordX (p : Nat) : Nat := p / 16 % 32
def coordY (p : Nat) : Nat := p / 512 % 32
def packageAt (a b x y : Nat) : Nat := a + 4 * b + 16 * x + 512 * y

/-- The partner of a coordinate in a mesh of a size of 2 or more (R235). -/
def meshPartner (c size : Nat) : Nat := if Nat.xor c 1 < size then Nat.xor c 1 else c - 1

/-- The shadow partner of a package (R235). -/
def shadowPartner (p : Nat) : Nat :=
  let a := coordA p
  let b := coordB p
  let x := coordX p
  let y := coordY p
  if 2 ≤ Config.sizeA then packageAt (meshPartner a Config.sizeA) b x y
  else if 2 ≤ Config.sizeB then packageAt a (meshPartner b Config.sizeB) x y
  else if 2 ≤ Config.sizeX then packageAt a b ((x + 1) % Config.sizeX) y
  else packageAt a b x ((y + 1) % Config.sizeY)

/-- The member whose slot a line falls in (R236). -/
def slotHolder (s : State) (home line : Nat) : Option Nat := s.domain[Nat.xor line (home * 0x3F1) % s.domain.length]?

/-- The steward of a line: the holder of its slot, or when that package is lost its shadow; none when both are lost (R240). -/
def stewardOf (s : State) (home line : Nat) : Option Nat :=
  match slotHolder s home line with
  | none => none
  | some m =>
    if !s.lostPackages.contains m then some m
    else if s.domain.length = 1 || s.lostPackages.contains (shadowPartner m) then none
    else some (shadowPartner m)

end Sys2Proof.Machine
end

