-- ==== Sys2Proof/Machine/Translate.lean ====
section
/-! DEFINITION. Translation of GLOBAL addresses (R111 to R113), the hardware's own accesses to an estate's rings and
areas, the fault sink (R196), user interrupts (R256) and page faults (R115, R116). -/

namespace Sys2Proof.Machine

/-! ### Page-table entries (R112) -/

def pteValid (p : Word) : Bool := bits p 0 1 == 1
def pteR (p : Word) : Bool := bits p 1 1 == 1
def pteW (p : Word) : Bool := bits p 2 1 == 1
def pteX (p : Word) : Bool := bits p 3 1 == 1
def pteOpen (p : Word) : Bool := bits p 4 1 == 1
def pteCoherent (p : Word) : Bool := bits p 5 1 == 1
def pteFile (p : Word) : Bool := bits p 6 1 == 1
def pteDirty (p : Word) : Bool := bits p 8 1 == 1
def pteSize (p : Word) : Nat := bits p 9 2
def ptePa (p : Word) : Nat := bits p 12 40 * 4096
def pteTarget (p : Word) : Nat := bits p 0 2
def ptePackage (p : Word) : Nat := bits p 16 14

/-- Bytes of a page by SIZE (R111). -/
def pageBytes : Nat → Nat
  | 0 => 4096
  | 1 => 65536
  | _ => 2097152

/-- The region of a PA and whether its zero bits are 0 (R15, R16). -/
def paRegion (pa : Nat) : Nat := pa / 281474976710656
def paZeros (pa : Nat) : Bool :=
  match paRegion pa with
  | 0 => bits (BitVec.ofNat 64 pa) 39 9 == 0
  | 1 => bits (BitVec.ofNat 64 pa) 27 21 == 0
  | _ => true

/-- R112: an entry that counts as not VALID although its bit is set. -/
def pteMalformed (level : Nat) (p0 p1 : Word) : Bool :=
  let size := pteSize p0
  let target := pteTarget p1
  let pa := ptePa p0
  if size = 3 then
    level == 4 || paRegion pa != 0 || pa % 8192 != 0 || !paZeros pa || bits p0 52 12 != 0 || bits p0 11 1 != 0 ||
      bits p0 1 8 != 0 || p1 != 0
  else
    (if level = 4 then size == 2 else if level = 3 then size != 2 else true) || target == 3 ||
      (if target = 1 then paRegion pa != 2 else paRegion pa != 0) || pa % pageBytes size != 0 || !paZeros pa ||
      (pteCoherent p0 && target != 2) || bits p0 52 12 != 0 || bits p0 11 1 != 0 || bits p1 30 34 != 0 ||
      bits p1 2 14 != 0

/-- The two dwords of an entry. -/
def pteAt (s : State) (pa : Nat) : Word × Word :=
  (BitVec.ofNat 64 (memRead s.hbm pa 8), BitVec.ofNat 64 (memRead s.hbm (pa + 8) 8))

/-- VALID in the sense of R112. -/
def pteIsValid (level : Nat) (p : Word × Word) : Bool := pteValid p.1 && !pteMalformed level p.1 p.2

/-- The PA of the entry of a level that covers a VA (R111). -/
def entryPa (table level va : Nat) : Nat := table + 16 * (va / 2 ^ (48 - 9 * level) % 512)

/-- What a walk finds (R111, R115): a leaf, or a non-VALID entry; and the entries read. -/
inductive Walked where
  | leaf (level entry : Nat) (p0 p1 : Word)
  | missing (level entry : Nat) (file : Bool)
  deriving DecidableEq, Repr

/-- The walk from a level downward; fuel is the number of levels left. A FILE entry counts as one at the leaf alone (R115). -/
def walkFrom (s : State) (va : Nat) : Nat → Nat → Nat → List Nat → Walked × List Nat
  | 0, table, level, seen => (.missing level table false, seen)
  | fuel + 1, table, level, seen =>
    let e := entryPa table level va
    let p := pteAt s e
    let seen' := seen ++ [e / 64]
    if !pteIsValid level p then (.missing level e (pteFile p.1 && (level == 4 || (level == 3 && pteSize p.1 == 2))), seen')
    else if pteSize p.1 = 3 then walkFrom s va fuel (ptePa p.1) (level + 1) seen'
    else (.leaf level e p.1 p.2, seen')

/-- The walk of an estate's table over a VA (R111). -/
def walk (s : State) (est va : Nat) : Walked × List Nat := walkFrom s va 4 (estateOf s est).ptRoot 1 []

/-! ### TLBs (R113, R114) -/

def tlbOf (s : State) (port : Nat) : List TlbEntry := (mapFind s.tlbs port).getD []

/-- Adds a port to the sharer bitmap of each line read (R114). -/
def addSharer (port : Nat) (s : State) (line : Nat) : State :=
  { s with sharers := mapSet s.sharers line ((mapFind s.sharers line).getD 0 ||| (1#128 <<< port)) }

/-- A free value of n bytes, at most 64, and whether what it stands for succeeded. -/
def freeBytes (s : State) (n : Nat) : Option Nat × State :=
  let v := dwords s.draws 8
  (if (Config.freeWord s.draws).toNat % 2 = 1 then some (v % 2 ^ (8 * n)) else none, { s with draws := s.draws + 9 })
where
  dwords (d : Nat) : Nat → Nat
    | 0 => 0
    | k + 1 => (Config.freeWord (d + k + 1)).toNat + 2 ^ 64 * dwords d k

/-- The back-invalidate of a line of HBM that the host holds, completed within the step, with the bytes that the host then leaves in it
(R245). DESIGN CHOICE (log 57). -/
def invalidateHost (s : State) (line : Nat) : State :=
  if !s.hostHeld.contains line then s else
  let r := freeBytes s 64
  let s1 := { r.2 with hostHeld := r.2.hostHeld.filter (· != line) }
  match r.1 with
  | some v => storeHome s1 (.hbm (64 * line)) 64 v (fullMask 64)
  | none => s1

/-- A store of n bytes by the hardware into a line of HBM of this package, which the host gives up first (R245). -/
def storeOwn (s : State) (pa n data : Nat) : State := storeHome (invalidateHost s (pa / 64)) (.hbm pa) n data (fullMask n)

/-- Writes dword 0 of a leaf; a 64 KiB page's sixteen entries stay identical (R113). -/
def setLeaf (s : State) (entry : Nat) (p0 : Word) : State :=
  let one (s : State) (e : Nat) : State := storeOwn s e 8 p0.toNat
  if pteSize p0 = 1 then (List.range 16).foldl (fun s i => one s (entry / 256 * 256 + 16 * i)) s else one s entry

/-- What a translation gives. -/
inductive Xlate where
  | page (p0 p1 : Word) (size : Nat)
  | missing (level entry : Nat) (file : Bool)
  deriving DecidableEq, Repr

/-- The rights bits of a leaf that an access needs: R, W and X (R112). -/
def needs (r w x : Bool) : Word := BitVec.ofNat 64 (2 * r.toNat + 4 * w.toNat + 8 * x.toNat)

/-- Translates a VA at a cluster memory port (R113): a TLB entry serves, except that one without DIRTY does not serve a
store; else a walk sets ACCESSED, and DIRTY for a store, before the access is performed, and fills the TLB. A leaf that lacks a
right the access needs is answered and left as it is, for no access is performed. Garnet walks and keeps no entry. DEDUCED (log 42). -/
def xlate (s : State) (port est va : Nat) (need : Word) : Xlate × State :=
  let store := pteW need
  match (tlbOf s port).find? (fun t => t.estate == est && va / t.size == t.page && (!store || pteDirty t.pte0)) with
  | some t => (.page t.pte0 t.pte1 t.size, s)
  | none =>
    let w := walk s est va
    let s1 := if 128 ≤ port then s else w.2.foldl (addSharer port) s
    match w.1 with
    | .missing level e file => (.missing level e file, s1)
    | .leaf _ e p0 p1 =>
      let p := p0 ||| 0x80 ||| (if store then 0x100 else 0)
      let size := pageBytes (pteSize p0)
      if p0 &&& need ≠ need then (.page p0 p1 size, s1) else
      let old := (tlbOf s1 port).filter (fun t => !(t.estate == est && va / t.size == t.page))
      let full := if 2048 ≤ old.length then old.tail else old
      (.page p p1 size,
        if 128 ≤ port then setLeaf s1 e p else { setLeaf s1 e p with tlbs := mapSet s1.tlbs port (full ++ [⟨est, va / size, size, p, p1, w.2⟩]) })

/-- The place that a translated VA names (R112). -/
def pteHome (p0 p1 : Word) (size va : Nat) : Home :=
  let pa := ptePa p0 + va % size
  match pteTarget p1 with
  | 1 => .host (pa % 281474976710656)
  | 2 => if pteCoherent p0 then .coherent (ptePackage p1) pa else .remote (ptePackage p1) pa
  | _ => .hbm pa

/-! ### Requests to other packages (R17, R225 to R227) -/

/-- FABRIC_ERROR and GATE as this package itself answers them (R227). -/
def fabricAux (cause : Nat) (sent : Bool) (pkg : Nat) : Word := BitVec.ofNat 64 (cause + 256 * sent.toNat + 65536 * pkg)

/-- The fabric name of an estate of this package (R17). -/
def fabricName (s : State) (est : Nat) : Nat := 16384 * s.pkgId.toNat + est

/-- The senders of a request that no thread makes: a commit or the hardware, a steward at home, an eviction, a scrub. -/
def noThread : Nat := 16 * 1025
def stewardThread : Nat := 16 * 1026
def putThread : Nat := 16 * 1027
def scrubThread : Nat := 16 * 1028

/-- A source holds at most 1,024 requests outstanding toward one destination (R225). -/
def full1024 (s : State) (dst : Nat) : Bool := 1024 ≤ (s.outstanding.filter (·.dst == dst)).length

/-- Sends a numbered request, which stays outstanding until its reply comes (R225). msg is given the number. -/
def sendNumbered (o : Outstanding) (msg : Nat → FabricMsg) (s : State) : State :=
  let n := (mapFind s.seqs o.dst).getD 0
  { s with
    seqs := mapSet s.seqs o.dst ((n + 1) % 2 ^ 32), outstanding := s.outstanding ++ [{ o with seq := n }],
    outbox := (o.dst, msg n) :: s.outbox }

/-- Sends a remote access of an estate to package g (R226). -/
def sendRequest (g est : Nat) (o : Outstanding) (op : RemoteOp) (s : State) : State :=
  sendNumbered { o with dst := g, estate := est } (fun n => .request n (fabricName s est) op) s

/-! ### The hardware's own accesses to an estate's OPEN pages -/

/-- Takes a COHERENT line for the hardware, granted within the step (R237): with bytes that another package's copy or home gives. -/
def takeLine (s : State) (g line : Nat) (store : Bool) : State :=
  let r := (rlcFind s (some g) line).getD { pkg := some g, line := line }
  let dst := (stewardOf s g line).getD g
  let n := (mapFind s.seqs dst).getD 0
  let held := r.state != .i
  let data := (freeBytes s 64).2
  let v := freeBytes.dwords s.draws 8
  let s1 := rlcSet (if held then s else data) { r with
    state := if store then .m else .s, data := if held then r.data else BitVec.ofNat 512 v, poison := held && r.poison }
  { s1 with
    seqs := mapSet s1.seqs dst ((n + 1) % 2 ^ 32),
    outbox := (dst, .completion g line) :: (dst, if store then (if held then .upgrade n g line else .getM n g line) else .getS n g line) :: s1.outbox }

/-- A request of the hardware to another package, its wait under the limit and its resends included: it is answered within the step, so
that nothing stays outstanding (R225). DESIGN CHOICE (log 57). -/
def exchange (g est : Nat) (op : RemoteOp) (s : State) : State :=
  let n := (mapFind s.seqs g).getD 0
  { s with seqs := mapSet s.seqs g ((n + 1) % 2 ^ 32), outbox := (g, .request n (fabricName s est) op) :: s.outbox }

/-- A load of n bytes of a line by the hardware for an estate. What another package answers, or whether it fails, the model leaves
open. DESIGN CHOICE (log 57). -/
def hwLoad (s : State) (est : Nat) (h : Home) (n : Nat) : Option Nat × State :=
  if needsLine s h false then
    match h with
    | .coherent g pa =>
      let s1 := takeLine s g (pa / 64) false
      (match loadHome s1 h n with
        | .value v => some v
        | _ => none, s1)
    | .remote g pa => freeBytes (exchange g est (.load pa n) s) n
    | _ => (none, s)
  else
    (match loadHome s h n with
      | .value v => some v
      | _ => none, s)

/-- A store by the hardware for an estate, inside one line; false where another package answers that it fails. A line that the host
holds is given up first, with the bytes that the host then leaves in it (R245). DESIGN CHOICE (log 57). -/
def hwStore (s : State) (est : Nat) (h : Home) (n data : Nat) : Bool × State :=
  if needsLine s h true then
    match h with
    | .coherent g pa => (true, storeHome (takeLine s g (pa / 64) true) h n data (fullMask n))
    | .remote g pa =>
      if g = s.pkgId.toNat then (true, storeHome (invalidateHost s (pa / 64)) h n data (fullMask n))
      else
        let r := freeBytes (exchange g est (.store pa n data (fullMask n)) s) 0
        (r.1.isSome, r.2)
    | _ => (true, storeHome (invalidateHost s (h.addr / 64)) h n data (fullMask n))
  else (true, storeHome s h n data (fullMask n))

/-- The place of a byte of a ring or an area whose page must be VALID and OPEN with the rights given; none otherwise. -/
def hwPlace (s : State) (core est va : Nat) (r w : Bool) : Option Home × State :=
  match xlate s (clusterOf core) est va (needs r w false) with
  | (.page p0 p1 size, s') =>
    let h := pteHome p0 p1 size va
    if pteOpen p0 && (!r || pteR p0) && (!w || pteW p0) then
      (some h, match h with
        | .host p => grantHost s' (p / 64) w
        | _ => s')
    else (none, s')
  | (.missing _ _ _, s') => (none, s')

/-- Bytes of the first line of n bytes from an address. -/
def lineSpan (a n : Nat) : Nat := min n (64 - a % 64)

/-- Reads n bytes of an OPEN area, line by line; fuel bounds the number of lines. -/
def hwRead (s : State) (core est va n : Nat) (w : Bool) : Nat → Option Nat × State
  | 0 => (some 0, s)
  | fuel + 1 =>
    if n = 0 then (some 0, s) else
    let k := lineSpan va n
    match hwPlace s core est va true w with
    | (some h, s1) =>
      match hwLoad s1 est h k with
      | (some v, s2) =>
        match hwRead s2 core est (va + k) (n - k) w fuel with
        | (some rest, s3) => (some (v + rest <<< (8 * k)), s3)
        | (none, s3) => (none, s3)
      | (none, s2) => (none, s2)
    | (none, s1) => (none, s1)

/-- Whether every page of n bytes of an OPEN area is usable with R and W. -/
def hwUsable (s : State) (core est va n : Nat) : Nat → Bool × State
  | 0 => (true, s)
  | fuel + 1 =>
    if n = 0 then (true, s) else
    let k := min n (4096 - va % 4096)
    match hwPlace s core est va true true with
    | (some _, s1) => hwUsable s1 core est (va + k) (n - k) fuel
    | (none, s1) => (false, s1)

/-- Writes n bytes of an OPEN area, line by line. A line that cannot be translated is not written, and the answer is
false. DESIGN CHOICE (log 29). -/
def hwWrite (s : State) (core est va n data : Nat) (r : Bool) : Nat → Bool × State
  | 0 => (true, s)
  | fuel + 1 =>
    if n = 0 then (true, s) else
    let k := lineSpan va n
    match hwPlace s core est va r true with
    | (some h, s1) =>
      match hwStore s1 est h k data with
      | (true, s2) => hwWrite s2 core est (va + k) (n - k) (data >>> (8 * k)) r fuel
      | (false, s2) => (false, s2)
    | (none, s1) => (false, s1)

/-- The number whose little-endian dwords are given. -/
def dwordsNat : List Nat → Nat
  | [] => 0
  | d :: ds => d % 2 ^ 64 + 2 ^ 64 * dwordsNat ds

/-! ### User interrupts (R256) -/

/-- Posts a value to a slot whose core the estate occupies; it is delivered at the next boundary that allows it. -/
def postUint (s : State) (est thread : Nat) (v : Word) : State :=
  let c := thread / 16
  if coreEstate s c == some est && !s.halted.contains (clusterOf c) then setSlot s c (thread % 16) { slotOf s c (thread % 16) with posted := some v } else s

/-! ### The fault sink (R196) -/

/-- A record that finds no free, translatable slot is dropped and counted. -/
def sinkDrop (s : State) (est : Nat) : State :=
  setEstate s est { estateOf s est with sinkLost := min 65535 ((estateOf s est).sinkLost + 1) }

/-- Writes a record at the next slot of the estate's fault sink; answers whether it was written. With SINKNV the record
also sends a user interrupt, whose value the manual leaves open. DESIGN CHOICE (log 39). -/
def sinkTry (s : State) (core est : Nat) (r : TrapRec) : Bool × State :=
  let x := estateOf s est
  let slots := x.sinkSize / 64
  if slots = 0 then (false, sinkDrop s est) else
  let va := x.sinkBase + 64 * (x.sinkNext % slots)
  match hwRead s core est va 8 true 1 with
  | (some d0, s1) =>
    if d0 / 256 % 256 ≠ 0 then (false, sinkDrop s1 est) else
    match hwWrite s1 core est va 64 (dwordsNat { r with lost := x.sinkLost }.dwords) true 1 with
    | (true, s2) =>
      let s3 := setEstate s2 est { estateOf s2 est with sinkNext := x.sinkNext + 1, sinkLost := 0 }
      (true,
        if x.sinkNotify then postUint { s3 with draws := s3.draws + 1 } est x.sinkThread (Config.freeWord s3.draws) else s3)
    | (false, s2) => (false, sinkDrop s2 est)
  | (none, s1) => (false, sinkDrop s1 est)

/-- Sends a record to the fault sink. -/
def sinkRecord (s : State) (core est : Nat) (r : TrapRec) : State := (sinkTry s core est r).2

/-- A record that the hardware itself makes (R172, R180, R196, R204). handle is the task that it is about, if any (R190). -/
def hwRecord (s : State) (est kind code : Nat) (addr aux : Word) (thread : Nat := 0) (pc : Nat := 0) (handle : Nat := 0) : TrapRec :=
  { kind := kind, code := code, addr := addr, aux := aux, part := (estateOf s est).part, estate := est, time := s.cycle,
    thread := thread, pc := pc, handle := handle }

/-- The task of a thread of an estate, by its ID: 0 where it carries none, or has ended (R190). -/
def handleOf (s : State) (est thread : Nat) : Nat :=
  let x := slotOf s (thread / 16) (thread % 16)
  if x.live && x.estate == est then x.task else 0

/-! ### Page faults (R115, R116) -/

/-- A fault record's dwords (R116), TOKEN in the first. -/
def PageFault.dwords (f : PageFault) : List Nat :=
  [f.token % 2 ^ 32, f.va % 2 ^ 48, f.thread % 16384 + 16384 * (f.kind % 4) + 65536 * (f.level % 8), f.time % 2 ^ 64]

/-- Writes the record of a fault to the pager queue when its next slot is free. Answers none when the ring is not
translatable, some false when the slot is in use. -/
def pagerTry (s : State) (core : Nat) (f : PageFault) : Option Bool × State :=
  let x := estateOf s f.estate
  let slots := x.pagerSize / 32
  if slots = 0 then (none, s) else
  let va := x.pagerBase + 32 * (x.pagerNext % slots)
  match hwPlace s core f.estate va false true with
  | (none, s1) => (none, s1)
  | (some h, s1) =>
    match hwLoad s1 f.estate h 4 with
    | (some 0, s2) =>
      let r := hwStore s2 f.estate h 32 (dwordsNat f.dwords)
      (some true, setEstate r.2 f.estate { estateOf r.2 f.estate with pagerNext := x.pagerNext + 1 })
    | (_, s2) => (some false, s2)

/-- The service queue of a partition takes an item (R249). -/
def addService (s : State) (p : Nat) (i : ServiceItem) : State :=
  setPart s p { partOf s p with service := (partOf s p).service ++ [i] }

/-- Takes the fault path for a missing page (R115): joins the outstanding token of the entry, or forms one and writes its
record. Answers the token, or none when the fault cannot be recorded or is the pager's own. DEDUCED (log 37). -/
def takeFault (s : State) (core est thread va level entry : Nat) (file : Bool) (kind : Nat) : Option Nat × State :=
  let x := estateOf s est
  if x.pagerSize ≠ 0 ∧ thread = x.pagerThread then (none, s) else
  match s.faults.find? (fun f => f.estate == est && f.entry == entry) with
  | some f => (some f.token, s)
  | none =>
    let n := fresh s ((s.faults.filter (·.estate == est)).map (·.token))
    let f : PageFault := ⟨est, n.1, entry, level, va, kind, thread, s.cycle, file, true⟩
    let s1 := n.2
    if file then (some f.token, addService { s1 with faults := s1.faults ++ [f] } x.part (.file est f.token))
    else match pagerTry s1 core f with
      | (some done, s2) => (some f.token, { s2 with faults := s2.faults ++ [{ f with recorded := done }] })
      | (none, s2) =>
        (none, sinkRecord s2 core est
          (hwRecord s2 est 2 TrapCode.pageInvalid.toNat (BitVec.ofNat 64 va) 0 thread (handle := handleOf s2 est thread)))

/-- The instruction being issued meets a missing page: it waits PAGE, or traps PAGE_INVALID (R115). -/
def pageFault (est va level entry : Nat) (file : Bool) (kind sg : Nat) : Exec α := do
  let s ← get
  let r := takeFault s s.cur.core est (threadId s.cur.core s.cur.slot) va level entry file kind
  set r.2
  match r.1 with
  | some t =>
    modify (fun s => { s with cur := { s.cur with sg := sg, addr := BitVec.ofNat 64 va } })
    waitFor { reason := .page, peer := t }
  | none => trapWith .pageInvalid (BitVec.ofNat 64 va) 0 sg

end Sys2Proof.Machine
end

