-- ==== Sys2Proof/Machine/Access.lean ====
section
/-! DEFINITION. The accesses of threads: the checks of R98 in their order, L1 (R104, R150), the store buffer (R121) and
loads, each written once for every instruction that makes them. -/

namespace Sys2Proof.Machine

/-! ### Segments (R97, R98 steps 1 to 3) -/

def Seg.space (x : Seg) : Nat := bits x.attrs 0 2
def Seg.r (x : Seg) : Bool := bits x.attrs 2 1 == 1
def Seg.w (x : Seg) : Bool := bits x.attrs 3 1 == 1
def Seg.x (x : Seg) : Bool := bits x.attrs 4 1 == 1

/-- An attributes dword that R97 allows. -/
def attrsOk (w : Word) : Bool := w.toNat < 32 && w.toNat % 4 != 3

/-- One past the last address of a space (R98 step 1). -/
def spaceTop : Nat → Nat
  | 0 => 2 ^ 48
  | 1 => 2 ^ 27
  | 2 => 0x40000
  | _ => 0

/-- An access as an instruction makes it: on whose behalf, through which segment, at which offset, over which runs of
bytes (offset and length). For a bound stream the thread is the one that bound it (R41). -/
structure Access where
  core : Nat
  slot : Nat
  estate : Nat
  task : Nat
  sg : Nat
  seg : Seg
  off : Int
  spans : List (Int × Nat)
  align : Nat
  /-- What must be a multiple of align, where it is not the address of the access: the descriptor's base for a nested-integer
  stream (R381). -/
  alignedBy : Option Nat := none
  load : Bool := false
  store : Bool := false
  /-- The register field of the stream whose packet it is. -/
  stream : Option Nat := none
  deriving Repr

def Access.isAmo (x : Access) : Bool := x.load && x.store

/-- The offset as the ADDR of a trap record. -/
def Access.addr (x : Access) : Word := BitVec.ofInt 64 x.off

/-- The VA, or the COMMONS address, of an access (R190). -/
def Access.va (x : Access) : Word := BitVec.ofNat 64 (x.seg.base.toNat + x.off.toNat)

/-- An access of the instruction being issued through segment register sg. -/
def ownAccess (s : State) (sg : Nat) (off : Int) (n align : Nat) (load store : Bool) : Access :=
  let x := curSlot s
  { core := s.cur.core, slot := s.cur.slot, estate := x.estate, task := x.task, sg := sg, seg := x.sg[sg]?.getD {},
    off := off, spans := [(off, n)], align := align, load := load, store := store }

/-- Step 1 on one run of bytes. -/
def inSegment (seg : Seg) (p : Int × Nat) : Bool :=
  0 ≤ p.1 && p.1 < 2 ^ 64 && p.1 + p.2 ≤ seg.limit.toNat && seg.base.toNat + p.1 + p.2 ≤ spaceTop seg.space

/-- The address of an offset. -/
def segAddr (seg : Seg) (off : Int) : Nat := seg.base.toNat + off.toNat

/-- Whether two ranges of bytes share a byte; an empty one shares none. -/
def rangesMeet (a n b m : Nat) : Bool := max a b < min (a + n) (b + m)

/-- The regions of the scratchpad that hardware holds (R100): the ring, which only the courier loads, and the deque. -/
def scratchBarred (s : State) (x : Access) : Bool :=
  let c := coreOf s x.core
  x.spans.any fun p =>
    let a := segAddr x.seg p.1
    (rangesMeet a p.2 0x3C000 0x4000 && (x.store || !isCourier x.core x.slot)) ||
      (x.store && rangesMeet a p.2 c.dqbase.toNat (c.dqlim.toNat - c.dqbase.toNat))

/-- Steps 1 to 3 of R98. -/
def checkSegment (x : Access) : Exec Unit := do
  let s ← get
  if !x.spans.all (inSegment x.seg) then trapWith .segment x.addr (BitVec.ofNat 64 x.sg) x.sg
  if x.load && !x.seg.r then trapWith .rights x.addr (BitVec.ofNat 64 x.sg) x.sg
  if x.store && !x.seg.w then trapWith .rights x.addr (BitVec.ofNat 64 (x.sg + 16)) x.sg
  if x.seg.space = 2 && (x.isAmo || scratchBarred s x) then trapWith .rights x.addr (BitVec.ofNat 64 (x.sg + 48)) x.sg
  if (x.alignedBy.getD (segAddr x.seg x.off)) % x.align ≠ 0 then trapWith .misalign x.addr (BitVec.ofNat 64 x.align) x.sg

/-! ### Steps 4 to 7 of R98 -/

/-- Cuts n bytes from an address at the ends of 64-byte lines; fuel bounds the lines. -/
def cutLines (a n : Nat) : Nat → List (Nat × Nat)
  | 0 => []
  | fuel + 1 => if n = 0 then [] else (a, lineSpan a n) :: cutLines (a + lineSpan a n) (n - lineSpan a n) fuel

/-- The line-sized runs of an access, as addresses. -/
def Access.runs (x : Access) : List (Nat × Nat) :=
  x.spans.flatMap fun p => cutLines (segAddr x.seg p.1) p.2 5

/-- Step 4 for each run of a GLOBAL access: translation, the fault path, the PTE's rights. -/
def translateRuns (x : Access) : List (Nat × Nat) → Exec (List Piece)
  | [] => pure []
  | (va, n) :: rest => do
    let s ← get
    let r := xlate s (clusterOf x.core) x.estate va (needs x.load x.store false)
    set r.2
    match r.1 with
    | .missing level e file => pageFault x.estate va level e file (if x.store then 1 else 0) x.sg
    | .page p0 p1 size =>
      if x.load && !pteR p0 then trapWith .rights x.va (BitVec.ofNat 64 x.sg) x.sg
      if x.store && !pteW p0 then trapWith .rights x.va (BitVec.ofNat 64 (x.sg + 16)) x.sg
      let ps ← translateRuns x rest
      pure (⟨pteHome p0 p1 size va, n, if pteOpen p0 then none else some va⟩ :: ps)

/-- Step 5: the plat check on pages without OPEN, over the whole access (R138). A thread that carries no task is covered nowhere; an
AMO is allowed on no page without OPEN. -/
def checkPlats (x : Access) (ps : List Piece) : Exec Unit := do
  let s ← get
  match ps.filterMap (fun p => p.plat.map (·, p.n)) with
  | [] => pure ()
  | runs =>
    if x.task = 0 then trapWith .undeclared x.va 0 x.sg
    if x.isAmo then trapWith .platMode x.va 0 x.sg
    match platCheck (taskOf s x.task).plats runs x.store with
    | some c => trapWith c x.va 0 x.sg
    | none => pure ()

/-- Step 6: the granule tag (R108). -/
def checkTags (x : Access) : List (Nat × Nat) → Exec Unit
  | [] => pure ()
  | (a, _) :: rest => do
    let s ← get
    if stays s x.estate (parcelGranule (a / 64)) then checkTags x rest
    else trapWith .foreign x.va 0 x.sg

/-- Whether an access is a firm operation (R153). -/
def firmAccess (x : Access) (p : Piece) : Bool :=
  x.isAmo || match p.home with
    | .commons _ => x.store
    | .host _ | .remote _ _ | .coherent _ _ => true
    | .hbm _ => x.store && p.plat.isNone
    | .scratch _ _ => false

/-- The gate check on a frame of this package for a grantee's fabric name (R226): none when it passes, else the cause. The
rights are R 1, W 2, AMO 4 (R182). -/
def gateCheck (s : State) (grantee pa right : Nat) : Option Nat :=
  if paRegion pa ≠ 0 then some 3 else
  let f := pa / 2097152
  let es := s.easements.filter fun e =>
    e.grantee == grantee && parcelKind e.parcel == 4 && parcelIndex e.parcel ≤ f && f < parcelIndex e.parcel + e.count
  if es.isEmpty then some 1 else if es.any (fun e => e.rights / right % 2 == 1) then none else some 2

/-- The right an access needs at the gate (R226). -/
def gateRight (x : Access) : Nat := if x.isAmo then 4 else if x.store then 2 else 1

/-- What bars an access before it is sent: a TDI in ERROR (R257), a COHERENT home outside the domain (R235), a steward and its shadow
both lost (R240), the gate of this package for a page that names it as a remote target (R226). Stores and AMOs there are the
operations that R197 marks SENT (R227); the package that answers is this one. -/
def checkReach (x : Access) : List Piece → Exec Unit
  | [] => pure ()
  | p :: ps => do
    let s ← get
    match p.home with
    | .host _ =>
      if (partOf s (estateOf s x.estate).part).tdisp.state = .error then
        trapWith .fabricError x.va (fabricAux 1 x.store s.pkgId.toNat) x.sg
    | .coherent g a =>
      if !s.domain.contains g then trapWith .gate x.va (fabricAux 4 false g) x.sg
      if (stewardOf s g (a / 64)).isNone then trapWith .fabricError x.va (fabricAux 5 x.store s.pkgId.toNat) x.sg
    | .remote g a =>
      if g = s.pkgId.toNat then
        match gateCheck s (fabricName s x.estate) a (gateRight x) with
        | some c => trapWith .gate x.va (fabricAux c false g) x.sg
        | none => pure ()
    | _ => pure ()
    checkReach x ps

/-- Checks 1 to 7 of R98; answers the pieces of the access, in order. -/
def checkAccess (x : Access) : Exec (List Piece) := do
  checkSegment x
  let ps ← match x.seg.space with
    | 0 => translateRuns x x.runs
    | 1 => pure (x.runs.map fun r => ⟨.commons r.1, r.2, none⟩)
    | _ => pure (x.runs.map fun r => ⟨.scratch x.core r.1, r.2, none⟩)
  checkPlats x ps
  if x.seg.space = 1 then checkTags x x.runs
  let s ← get
  if ps.any (firmAccess x) && !mayBeFirm s x.task then waitFor (firmWait s)
  checkReach x ps
  modify fun s => { s with cur := { s.cur with sg := x.sg, addr := x.va } }
  pure ps

/-! ### L1 (R104, R150) -/

def l1Find (s : State) (core est va task : Nat) : Option L1Line :=
  (coreOf s core).l1.find? (fun l => l.estate == est && l.va == va && l.task == task)

def l1Set (s : State) (core : Nat) (x : L1Line) : State :=
  let c := coreOf s core
  setCore s core { c with l1 := upsert (fun l => l.estate == x.estate && l.va == x.va && l.task == x.task) x c.l1 }

/-- Each bit of a byte mask, eight times over, from byte i of n. -/
def bitMask (m : Nat) : Nat → Nat
  | 0 => 0
  | n + 1 => (if m % 2 = 1 then 255 else 0) + 256 * bitMask (m / 2) n

/-- The bytes that a mask of bits touches. -/
def byteMask (m : Nat) : Nat → Nat
  | 0 => 0
  | n + 1 => (if m % 256 = 0 then 0 else 1) + 2 * byteMask (m / 256) n

/-- Overlays bytes on a line. -/
def overlay (base : Packet) (data : Packet) (written : BitVec 64) : Packet :=
  lineMask base 0 data.toNat (bitMask written.toNat 64)

/-- Sends a PAGE_INVALID record for an area of the estate that cannot be used (R142, R250), about a task if one is given. -/
def areaRecord (s : State) (core est va : Nat) (handle : Nat := 0) : State :=
  sinkRecord s core est (hwRecord s est 2 TrapCode.pageInvalid.toNat (BitVec.ofNat 64 va) 0 (handle := handle))

/-- The VA of a write-spill slot (R142). -/
def spillVa (x : Estate) (slot : Nat) : Nat := x.spillBase + x.spillSize / 2 + 128 * slot

/-- A spilled line as it stands in the spill area: its data and its byte mask. The layout inside the slot is the model's:
data, mask, VA, handle. -/
def spillRead (s : State) (core est slot : Nat) : Option (Packet × BitVec 64) × State :=
  match hwRead s core est (spillVa (estateOf s est) slot) 72 true 3 with
  | (some v, s') => (some (BitVec.ofNat 512 v, BitVec.ofNat 64 (v / 2 ^ 512)), s')
  | (none, s') => (none, s')

/-- A number put into an ascending list without repeats. -/
def insertNat (x : Nat) : List Nat → List Nat
  | [] => [x]
  | y :: ys => if x < y then x :: y :: ys else if x = y then y :: ys else y :: insertNat x ys

/-- Numbers in ascending order, each once. -/
def ascending (l : List Nat) : List Nat := l.foldl (fun acc x => insertNat x acc) []

/-- Where bytes that a task has written stand: in a spilled line, or in a line of a core's L1. -/
inductive Source where
  | spilled (l : SpillLine)
  | cached (l : L1Line)
  deriving Repr

def Source.va : Source → Nat
  | .spilled l => l.va
  | .cached l => l.va

/-- The written lines of a task in the order in which a later one's bytes hide an earlier one's: what was spilled when the task was
saved, then core by core in ascending ID what the core has spilled since and its L1 (R135, R156, R160). -/
def sourcesOf (s : State) (t : Task) : List Source :=
  (t.spill.filter (·.saved)).map .spilled ++ (ascending (s.cores.map (·.1) ++ t.spill.map (·.core))).flatMap (fun c =>
    (t.spill.filter (fun l => l.core == c && !l.saved)).map .spilled ++
      ((coreOf s c).l1.filter (fun l => l.task == t.handle && l.estate == t.estate && l.written != 0)).map .cached)

/-- Some of what a task has written in a line is poisoned (R269). -/
def spoilt (s : State) (t : Task) (va : Nat) : Bool :=
  (sourcesOf s t).any fun x => x.va == va && match x with
    | .spilled l => l.poison
    | .cached l => l.poison

/-- Overlays written bytes on a line; none, with a record, where the spill area cannot be read (R142). -/
def overlaySources (core est h : Nat) : List Source → (Packet × BitVec 64) → State → Option (Packet × BitVec 64) × State
  | [], acc, s => (some acc, s)
  | .cached l :: ls, acc, s => overlaySources core est h ls (overlay acc.1 l.data l.written, acc.2 ||| l.written) s
  | .spilled l :: ls, acc, s =>
    match spillRead s core est l.slot with
    | (some d, s') => overlaySources core est h ls (overlay acc.1 d.1 d.2, acc.2 ||| d.2) s'
    | (none, s') => (none, areaRecord s' core est (spillVa (estateOf s' est) l.slot) h)

/-- The bytes of a line that a task has written and not committed (R135, R150). -/
def taskBytes (s : State) (core : Nat) (t : Task) (va : Nat) : Option (Packet × BitVec 64) × State :=
  overlaySources core t.estate t.handle ((sourcesOf s t).filter (·.va == va)) (0, 0) s

/-- Inserts a task in ascending order of timestamp and admission. -/
def insertTask (t : Task) : List Task → List Task
  | [] => [t]
  | x :: xs => if t.ts < x.ts || (t.ts == x.ts && admittedBefore t x) then t :: x :: xs else x :: insertTask t xs

/-- The finished, uncommitted, earlier tasks whose writes reach a line of t by forwarding, in ascending order (R150). -/
def forwarders (s : State) (t : Task) (va : Nat) : List Task :=
  let line : Plat := ⟨va, 1, .update⟩
  if t.plats.any (fun p => p.reads && p.meets line) then
    ((liveTasks s).filter (fun e => e.estate == t.estate && e.handle != t.handle && e.phase == .finished &&
      decide (e.ts < t.ts) && e.plats.any (fun p => p.writes && p.meets line))).foldl (fun l e => insertTask e l) []
  else []

/-- Overlays forwarded bytes, and notes for each task the bytes that came from it. A later writer's byte hides an earlier
one's, which then supplies it no longer (R150). -/
def overlayForwards (core va : Nat) :
    List Task → (Packet × List (Nat × BitVec 64)) → State → Option (Packet × List (Nat × BitVec 64)) × State
  | [], acc, s => (some acc, s)
  | e :: es, acc, s =>
    match taskBytes s core e va with
    | (some d, s1) =>
      overlayForwards core va es
        (overlay acc.1 d.1 d.2, acc.2.map (fun p => (p.1, p.2 &&& ~~~d.2)) ++ [(e.handle, d.2)]) s1
    | (none, s1) => (none, s1)

/-- The tasks that supplied bytes (R150). -/
def suppliers (l : List (Nat × BitVec 64)) : List Nat := (l.filter (·.2 != 0)).map (·.1)

/-- Brings the host line under a place, taken at once (R259). -/
def prepare (s : State) (h : Home) (store : Bool) : State :=
  match h with
  | .host p => grantHost s (p / 64) store
  | _ => s

/-- Whether L1 itself serves n bytes of a plat line (R104). -/
def l1Serves (s : State) (core est task va n : Nat) : Bool :=
  match l1Find s core est (va / 64 * 64) task with
  | some l =>
    let need := fullMask n <<< (8 * (va % 64))
    l.filled || bitMask l.written.toNat 64 &&& need == need
  | none => false

/-- Puts a filled line into L1 where it has room, a clean line making room (R104, R159). -/
def holdLine (s : State) (core : Nat) (l : L1Line) (old : Bool) : State :=
  let c := coreOf s core
  if old || c.l1.length < 1024 then l1Set s core l
  else match c.l1.find? (fun l => l.written == 0) with
    | some v => l1Set (setCore s core { c with l1 := c.l1.filter (fun l => l != v) }) core l
    | none => s

/-- A line of L1 serves n bytes (R110). -/
def L1Line.serve (l : L1Line) (off n : Nat) : Served := if l.poison then .poison false else .value (lineBytes l.data off n)

/-- Fills a plat line from the 64 bytes at its home, overlaid with the task's own spilled bytes and with forwarded ones
(R104, R150): the line, and the state in which L1 holds it where it has room. None where the spill area cannot be read (R142). -/
def fillPlat (s : State) (core est task line : Nat) (d : Nat) : Option L1Line × State :=
  let t := taskOf s task
  let mine := t.spill.filter (fun l => l.va == line && (l.saved || l.core == core))
  match overlaySources core est task (mine.map .spilled) (0, 0) s with
  | (none, s1) => (none, s1)
  | (some own, s1) =>
    match overlayForwards core line (forwarders s1 t line) (BitVec.ofNat 512 d, []) s1 with
    | (none, s2) => (none, s2)
    | (some fw, s2) =>
      let base := overlay fw.1 own.1 own.2
      let old := l1Find s core est line task
      let bad := mine.any (·.poison) || (forwarders s1 t line).any (spoilt s1 · line)
      let l' : L1Line := match old with
        | some l => { l with data := overlay base l.data l.written, filled := true, poison := l.poison || bad }
        | none => { estate := est, va := line, task := task, data := base, poison := bad }
      let s3 := setTask s2 task { taskOf s2 task with deps := (taskOf s2 task).deps ++ suppliers fw.2 }
      (some l', holdLine s3 core l' old.isSome)

/-- A load from a plat line (R104, R150): from L1, else by a fill from home. -/
def loadPlat (s : State) (core est task va : Nat) (home : Home) (n : Nat) : Served × State :=
  let line := va / 64 * 64
  let off := va % 64
  match if l1Serves s core est task va n then l1Find s core est line task else none with
  | some l => (l.serve off n, s)
  | none =>
    let s0 := prepare s home false
    match loadHome s0 (home.at (home.addr / 64 * 64)) 64 with
    | .value d =>
      match fillPlat s0 core est task line d with
      | (some l, s1) => (l.serve off n, s1)
      | (none, s1) => (.unusable, s1)
    | r => (r, s0)

/-- A load of one piece at the place that serves it. -/
def servePiece (s : State) (x : Access) (p : Piece) : Served × State :=
  match p.plat with
  | some va => loadPlat s x.core x.estate x.task va p.home p.n
  | none =>
    let s' := prepare s p.home false
    (loadHome s' p.home p.n, s')

/-! ### The store buffer (R121) -/

/-- The die on which a store to a piece is ordered: its core's for a line of L1, which follows the DIE matrix (R135), else its
home's. -/
def Piece.die (core : Nat) (p : Piece) : Nat := if p.plat.isSome then dieOf core else p.home.die

/-- The class of a piece (R119, R135). -/
def Piece.cls (core : Nat) (p : Piece) : Scope := if p.plat.isSome then .die else p.home.cls core

/-- Whether a write and a piece touch a common byte. -/
def writeMeets (w : Write) (p : Piece) : Bool :=
  w.piece.home.at 0 == p.home.at 0 && rangesMeet w.piece.home.addr w.piece.n p.home.addr p.n

/-- The bits of a piece, when a write covers all of it. -/
def writeCovers (w : Write) (p : Piece) : Option Nat :=
  let a := w.piece.home.addr
  let b := p.home.addr
  if w.piece.home.at 0 == p.home.at 0 && a ≤ b && b + p.n ≤ a + w.piece.n &&
      (w.mask >>> (8 * (b - a))) % 2 ^ (8 * p.n) == fullMask p.n then
    some ((w.data >>> (8 * (b - a))) % 2 ^ (8 * p.n))
  else none

/-- What the thread's own buffer gives a load. -/
inductive Forward where
  | none
  | value (v : Nat)
  /-- It overlaps a buffered store only partly (R121). -/
  | partly (die : Nat)
  deriving DecidableEq, Repr

/-- The bits of every piece out of the writes of one store, the first piece lowest. -/
def storeBits (ws : List Write) : List Piece → Option Nat
  | [] => some 0
  | p :: ps =>
    match ws.findSome? (writeCovers · p), storeBits ws ps with
    | some v, some r => some (v + r <<< (8 * p.n))
    | _, _ => none

/-- Forwarding from the youngest buffered store that the load touches (R121). -/
def forward (stores : List StoreEntry) (ps : List Piece) : Forward :=
  match stores.reverse.find? (fun e => ps.any fun p => e.writes.any (writeMeets · p)) with
  | Option.none => .none
  | some e =>
    let whole := stores.filter (·.seq == e.seq)
    match e.kind, storeBits (whole.flatMap (·.writes)) ps with
    | .plain, some v => if whole.all (·.ready) then .value v else .partly e.die
    | _, _ => .partly e.die

/-- Entries of a store buffer: the parts of one store over several dies count once (R121). -/
def Slot.buffered (x : Slot) : Nat := (x.stores.map (·.seq)).eraseDups.length

/-- A place for a wait: the home die (R197). -/
def memWait (die key : Nat) : WaitState := { reason := .mem, peer := die, key := key }

/-- The key of a wait until fewer than n entries are left in the store buffer of a slot: its own, or that of the thread that
bound a stream. -/
def bufferKey (s : State) (slot n : Nat) : Nat := if slot = s.cur.slot then n else n + 16 * (slot + 1)

/-! ### Combining (R122) -/

/-- The line of a place. -/
def Home.line (h : Home) : Home := h.at (h.addr / 64 * 64)

/-- No later load of a thread combines with a read of these lines that is bound already. -/
def barLines (thread : Nat) (lines : List Home) (s : State) : State :=
  { s with reads := s.reads.map (fun r => if lines.contains r.line then { r with barred := thread :: r.barred } else r) }

/-- No later load of a thread combines with a read that is bound already: an acquire, a FENCE (R122, R125). -/
def closeCombining (thread : Nat) (s : State) : State :=
  { s with reads := s.reads.map (fun r => { r with barred := thread :: r.barred }) }

/-- A bound read of the same die from the same home is in flight: replies return in the order of binding (R122). -/
def readsAhead (s : State) (core : Nat) (p : Piece) : Bool :=
  s.reads.any (fun r => dieOf r.core == dieOf core && r.line.die == p.home.die)

/-- The writes of a store by the die on which each is ordered, the dies in the order in which they first appear. -/
def splitDies (core : Nat) (ws : List Write) : List (List Write) :=
  (ws.map (fun w => w.piece.die core)).eraseDups.map (fun d => ws.filter (fun w => w.piece.die core == d))

/-- A part of a store as an entry of the buffer of slot x. -/
def entryOfPart (core : Nat) (x : Slot) (kind : StoreKind) (release : Bool) (addr : Nat) (stream : Option Nat) (ready : Bool)
    (ws : List Write) : StoreEntry :=
  let p : Piece := (ws.head?.map (·.piece)).getD ⟨.commons 0, 0, none⟩
  { seq := x.storeSeq, cls := p.cls core, die := p.die core, kind := kind, writes := ws, release := release, stream := stream,
    ready := ready, estate := x.estate, task := x.task, addr := addr }

/-- A full store buffer makes the store wait MEM (R121). -/
def awaitRoom (slot : Nat) (die : Nat) : Exec Unit := do
  let s ← get
  if 8 ≤ (slotOf s s.cur.core slot).buffered then waitFor (memWait die (bufferKey s slot 8))

/-- Puts a store of DIE or PKG class into the thread's buffer; a full buffer waits MEM (R121). -/
def enterStore (slot : Nat) (kind : StoreKind) (ws : List Write) (release : Bool) (addr : Nat)
    (stream : Option Nat := none) (ready : Bool := true) : Exec Unit := do
  match ws with
  | [] => pure ()
  | w :: _ =>
    awaitRoom slot w.piece.home.die
    modify fun s =>
      let x := slotOf s s.cur.core slot
      barLines (threadId s.cur.core slot) (ws.map (·.piece.home.line))
        (setSlot s s.cur.core slot { x with
          stores := x.stores ++ (splitDies s.cur.core ws).map (entryOfPart s.cur.core x kind release addr stream ready)
          storeSeq := x.storeSeq + 1 })

/-- Waits MEM until no entry of the thread's buffer that satisfies p is left. -/
def awaitEntries (slot : Nat) (p : StoreEntry → Bool) : Exec Unit := do
  let s ← get
  let x := slotOf s s.cur.core slot
  match x.stores.find? p with
  | some e => waitFor (memWait e.die (bufferKey s slot x.buffered))
  | none => pure ()

/-- An entry that a FENCE puts before every later access of a class (R125, R131 note 2). -/
def StoreEntry.fenced (cls : Scope) (e : StoreEntry) : Bool := e.barrier.isSome && Scope.le cls e.fence

/-! ### Loads -/

/-- The trap of a load that does not deliver a value (R110, R142, R228, R240). -/
def servedTrap (x : Access) (va : Word) : Served → Exec Unit
  | .poison remote => trapWith .memPoison va (if remote then 1 else 0) x.sg
  | .lost g => trapWith .fabricLost va (fabricAux 0 false g) x.sg
  | .unusable => trapWith .pageInvalid va 0 x.sg
  | .value _ | .absent => pure ()

/-- The wait of a load beyond the scratchpad (R34, R197). A host line names no package: its PEER is 0, and the key tells it from
package 0. DESIGN CHOICE (log 55). -/
def loadWait (p : Piece) : WaitState :=
  match p.home with
  | .remote g _ | .coherent g _ => { reason := .remote, peer := g }
  | .host _ => { reason := .remote, key := 2 }
  | h => memWait h.die 0

/-- Asks the steward for a COHERENT line that the load or store needs, unless the line is asked for already (R225, R237). -/
def requestLine (thread : Nat) (s : State) (h : Home) (store : Bool) : State :=
  match h with
  | .coherent g p =>
    let line := p / 64
    let r := (rlcFind s (some g) line).getD { pkg := some g, line := line }
    let dst := (stewardOf s g line).getD g
    if r.busy || full1024 s dst then s else
    let n := (mapFind s.seqs dst).getD 0
    let msg := if store then (if r.state = .s ∨ r.state = .o then .upgrade n g line else .getM n g line) else .getS n g line
    let o : Outstanding :=
      { dst := dst, seq := n, thread := thread, line := some (g, line), estate := (slotOf s (thread / 16) (thread % 16)).estate }
    { rlcSet s { r with busy := true } with
      seqs := mapSet s.seqs dst ((n + 1) % 2 ^ 32), outstanding := s.outstanding ++ [o], outbox := (dst, msg) :: s.outbox }
  | _ => s

/-- s1 with the requests that it has outstanding beyond those of s changed by f: who they are for. -/
def tagged (s : State) (f : Outstanding → Outstanding) (s1 : State) : State :=
  let n := s.outstanding.length
  { s1 with outstanding := s1.outstanding.take n ++ (s1.outstanding.drop n).map f }

/-- The destination of the request that an access to a place needs. -/
def requestDst (s : State) : Home → Option Nat
  | .remote g _ => if g = s.pkgId.toNat then none else some g
  | .coherent g p => if ((rlcFind s (some g) (p / 64)).map (·.busy)).getD false then none else some ((stewardOf s g (p / 64)).getD g)
  | _ => none

/-- The same for a thread, which waits REMOTE at issue while the limit bars its request (R225). -/
def askLine (thread : Nat) (h : Home) (store : Bool) : Exec Unit := do
  let s ← get
  match h, requestDst s h with
  | .coherent _ _, some dst => if full1024 s dst then waitFor { reason := .remote, peer := dst, key := 1 }
  | _, _ => pure ()
  modify (requestLine thread · h store)

/-- Sends a thread's request to another package (R225, R226). packet names the read stream that it fetches for. -/
def sendRemote (g est thread : Nat) (op : RemoteOp) (packet : Option Nat := none) : Exec Unit := do
  let s ← get
  if g = s.pkgId.toNat then pure () else
  if full1024 s g then waitFor { reason := .remote, peer := g, key := 1 }
  set (sendRequest g est { dst := g, seq := 0, thread := thread, packet := packet } op s)

/-- Waits REMOTE while the limit of R225 bars some of the requests that an access to these places needs: none is sent before all
may be. -/
def awaitLimit (hs : List Home) : Exec Unit := do
  let s ← get
  let ds := hs.filterMap (requestDst s)
  match ds.find? (fun d => 1024 < (s.outstanding.filter (·.dst == d)).length + (ds.filter (· == d)).length) with
  | some d => waitFor { reason := .remote, peer := d, key := 1 }
  | none => pure ()

/-- A piece of a load that is not here: neither its home nor, for a plat line, L1 has it. -/
def absent (s : State) (x : Access) (p : Piece) : Bool :=
  needsLine s p.home false && match p.plat with
    | some va => !l1Serves s x.core x.estate x.task va p.n
    | none => true

/-- The bytes that a load asks another package for: a plat line whole, to fill L1 (R104). -/
def Piece.asked (p : Piece) (a : Nat) : Nat × Nat := if p.plat.isSome then (a / 64 * 64, 64) else (a, p.n)

/-- Asks for the pieces of a load that are not here. -/
def askPieces (est thread : Nat) (packet : Option Nat) : List Piece → Exec Unit
  | [] => pure ()
  | p :: ps => do
    match p.home with
    | .remote g a => sendRemote g est thread (.load (p.asked a).1 (p.asked a).2) packet
    | h => askLine thread h false
    askPieces est thread packet ps

/-- The same, once the limit admits them all. -/
def requestPieces (x : Access) (ps : List Piece) : Exec Unit := do
  let s ← get
  let out := ps.filter (absent s x)
  awaitLimit (out.map (·.home))
  askPieces x.estate (threadId x.core x.slot) x.stream out

/-- The values of the pieces, the first lowest, once every one can be served. -/
def servePieces (x : Access) : List Piece → Exec (Option Nat)
  | [] => pure (some 0)
  | p :: ps => do
    let s ← get
    let r := servePiece s x p
    set r.2
    servedTrap x x.va r.1
    match r.1 with
    | .value v =>
      match ← servePieces x ps with
      | some rest => pure (some (v + rest <<< (8 * p.n)))
      | none => pure none
    | _ => pure none

/-- Loads the bytes of an access whose checks are made, as one number, or waits for their reply (R34, R120, R121). pend is
what the thread keeps while it waits. DEDUCED (log 23). -/
def loadBytes (x : Access) (ps : List Piece) (pend : Pending) : Exec Nat := do
  let s ← get
  match forward (slotOf s x.core x.slot).stores ps with
  | .value v => do
    modify (barLines (threadId x.core x.slot) (ps.map (·.home.line)))
    pure v
  | .partly d => waitFor (memWait d (bufferKey s x.slot (slotOf s x.core x.slot).buffered))
  | .none =>
    let far := ps.find? (fun p => p.home.cls x.core != .core)
    match far with
    | some p =>
      requestPieces x ps
      if s.cur.defer || ps.any (fun q => readsAhead s x.core q || absent s x q) then
        waitFor (loadWait ((ps.find? (absent s x)).getD p)) pend
    | none => pure ()
    match ← servePieces x ps with
    | some v =>
      modify (barLines (threadId x.core x.slot) (ps.map (·.home.line)))
      pure v
    | none => waitFor (loadWait (ps.head?.getD ⟨.host 0, 0, none⟩)) pend

end Sys2Proof.Machine
end

