-- ==== Sys2Proof/Machine/Fp.lean ====
section
/-! DEFINITION. Floating point by exact arithmetic and one rounding (R80 to R83, R89 to R94): every operation forms its
exact value, or a value with a sticky bit, and rounds it once. -/

namespace Sys2Proof.Machine

/-! ### Formats and values -/

/-- A binary format: fraction bits and exponent bits (R80). -/
structure FloatFmt where
  frac : Nat
  exp : Nat
  deriving DecidableEq, Repr

def fmtF32 : FloatFmt := ⟨23, 8⟩
def fmtF16 : FloatFmt := ⟨10, 5⟩
def fmtBF16 : FloatFmt := ⟨7, 8⟩

def FloatFmt.bias (f : FloatFmt) : Nat := 2 ^ (f.exp - 1) - 1
/-- The code of +∞. -/
def FloatFmt.inf (f : FloatFmt) : Nat := (2 ^ f.exp - 1) * 2 ^ f.frac
/-- The canonical NaN (R80). -/
def FloatFmt.nan (f : FloatFmt) : Nat := f.inf + 2 ^ (f.frac - 1)
/-- The weight of the sign bit. -/
def FloatFmt.signBit (f : FloatFmt) : Nat := 2 ^ (f.frac + f.exp)
/-- The exponent of the unit of subnormals. -/
def FloatFmt.qmin (f : FloatFmt) : Int := 1 - (f.bias : Int) - f.frac

/-- A decoded operand: a finite one is ±m × 2^e, and keeps its sign at zero. -/
inductive FVal where
  | nan (signalling : Bool)
  | inf (neg : Bool)
  | fin (neg : Bool) (m : Nat) (e : Int)
  deriving DecidableEq, Repr

/-- Reads a code; under FTZ a subnormal is read as a zero of its sign (R82). -/
def decodeF (f : FloatFmt) (ftz : Bool) (code : Nat) : FVal :=
  let neg := code / f.signBit % 2 == 1
  let ex := code / 2 ^ f.frac % 2 ^ f.exp
  let fr := code % 2 ^ f.frac
  if ex = 2 ^ f.exp - 1 then (if fr = 0 then .inf neg else .nan (fr / 2 ^ (f.frac - 1) == 0))
  else if ex = 0 then .fin neg (if ftz then 0 else fr) f.qmin
  else .fin neg (fr + 2 ^ f.frac) (f.qmin + (ex - 1 : Nat))

def FVal.isNan : FVal → Bool
  | .nan _ => true
  | _ => false

/-- NV for a signalling NaN (R81). -/
def FVal.nv : FVal → Nat
  | .nan true => flagNV
  | _ => 0

def FVal.negate : FVal → FVal
  | .nan q => .nan q
  | .inf n => .inf (!n)
  | .fin n m e => .fin (!n) m e

/-! ### Rounding (R81) -/

/-- Rounds the magnitude m × 2^e, increased by less than one unit of m when sticky, to a multiple of 2^q: the multiple
and whether it differs. -/
def roundAt (mode : Round) (m : Nat) (e : Int) (sticky : Bool) (q : Int) : Nat × Bool :=
  if q ≤ e then (m <<< (e - q).toNat, sticky) else
  let sh := (q - e).toNat
  let kept := m >>> sh
  let rem := m - kept <<< sh
  let half := 1 <<< (sh - 1)
  let up := mode != .rtz && (rem > half || (rem == half && (sticky || kept % 2 == 1)))
  (if up then kept + 1 else kept, rem != 0 || sticky)

/-- Puts a sign on the code of a magnitude. -/
def withSign (f : FloatFmt) (neg : Bool) (code : Nat) : Nat := if neg then code + f.signBit else code

/-- Whether the magnitude reaches the half-way point above the largest finite value (R81). -/
def overflows (f : FloatFmt) (m : Nat) (e : Int) (sticky : Bool) : Bool :=
  let top : Int := (m.log2 : Int) + e
  top > f.bias || (top == f.bias && (roundAt .rne m e sticky (top - f.frac)).1 == 2 ^ (f.frac + 1))

/-- The overflow result and its flags (R81). -/
def overflowResult (f : FloatFmt) (mode : Round) (neg : Bool) : Nat × Nat :=
  (withSign f neg (if mode = .rne then f.inf else f.inf - 1), flagOF ||| flagNX)

/-- The code and the flags of a nonzero magnitude m × 2^e rounded once (R81, R82). -/
def roundMag (f : FloatFmt) (mode : Round) (ftz neg : Bool) (m : Nat) (e : Int) (sticky : Bool) : Nat × Nat :=
  if overflows f m e sticky then overflowResult f mode neg else
  let top : Int := (m.log2 : Int) + e
  let q := max (top - f.frac) f.qmin
  let r := roundAt mode m e sticky q
  let code := (q - f.qmin).toNat * 2 ^ f.frac + r.1
  let emin := f.qmin + f.frac
  let tiny := decide (top < emin) &&
    !(top + 1 == emin && (roundAt mode m e sticky (top - f.frac)).1 == 2 ^ (f.frac + 1))
  if ftz && code < 2 ^ f.frac && (code != 0) then (withSign f neg 0, flagUF ||| flagNX) else
  (withSign f neg code, (if r.2 then flagNX else 0) ||| (if tiny && r.2 then flagUF else 0))

/-- The code and the flags of a value rounded once; a NaN gives the canonical NaN (R81). -/
def roundVal (f : FloatFmt) (mode : Round) (ftz : Bool) : FVal → Nat × Nat
  | .nan _ => (f.nan, 0)
  | .inf neg => (withSign f neg f.inf, 0)
  | .fin neg m e => if m = 0 then (withSign f neg 0, 0) else roundMag f mode ftz neg m e false

/-! ### Exact operations -/

def intOf (neg : Bool) (m : Nat) : Int := if neg then -(m : Int) else m

/-- The exact sum; an exact zero is −0 only when both operands are negative (R81). -/
def FVal.add : FVal → FVal → FVal
  | .nan _, _ | _, .nan _ => .nan false
  | .inf a, .inf b => if a = b then .inf a else .nan false
  | .inf a, _ => .inf a
  | _, .inf b => .inf b
  | .fin na ma ea, .fin nb mb eb =>
    let e := min ea eb
    let s := intOf na (ma <<< (ea - e).toNat) + intOf nb (mb <<< (eb - e).toNat)
    if s = 0 then .fin (na && nb) 0 0 else .fin (s < 0) s.natAbs e

/-- The exact product. -/
def FVal.mul : FVal → FVal → FVal
  | .nan _, _ | _, .nan _ => .nan false
  | .inf a, .inf b => .inf (a != b)
  | .inf a, .fin b m _ => if m = 0 then .nan false else .inf (a != b)
  | .fin a m _, .inf b => if m = 0 then .nan false else .inf (a != b)
  | .fin a ma ea, .fin b mb eb => .fin (a != b) (ma * mb) (ea + eb)

/-- NV of an operation whose operands are no NaN but whose result is one (R81, R371). -/
def invalid (operands : List FVal) (r : FVal) : Nat :=
  if r.isNan && !operands.any FVal.isNan then flagNV else 0

/-- The NV flags of signalling operands. -/
def signals (operands : List FVal) : Nat := operands.foldl (fun a v => a ||| v.nv) 0

def addF (f : FloatFmt) (mode : Round) (ftz : Bool) (x y : Nat) : Nat × Nat :=
  let a := decodeF f ftz x
  let b := decodeF f ftz y
  let r := a.add b
  let o := roundVal f mode ftz r
  (o.1, o.2 ||| signals [a, b] ||| invalid [a, b] r)

def subF (f : FloatFmt) (mode : Round) (ftz : Bool) (x y : Nat) : Nat × Nat :=
  let a := decodeF f ftz x
  let b := decodeF f ftz y
  let r := a.add b.negate
  let o := roundVal f mode ftz r
  (o.1, o.2 ||| signals [a, b] ||| invalid [a, b] r)

def mulF (f : FloatFmt) (mode : Round) (ftz : Bool) (x y : Nat) : Nat × Nat :=
  let a := decodeF f ftz x
  let b := decodeF f ftz y
  let r := a.mul b
  let o := roundVal f mode ftz r
  (o.1, o.2 ||| signals [a, b] ||| invalid [a, b] r)

/-- The four fused forms (R371): one rounding; ∞ × 0 is invalid even beside a quiet NaN. -/
def fmaF (f : FloatFmt) (mode : Round) (ftz : Bool) (k : FmaKind) (x y z : Nat) : Nat × Nat :=
  let a := decodeF f ftz x
  let b := decodeF f ftz y
  let c := decodeF f ftz z
  let p := a.mul b
  let p' := match k with
    | .fma | .fms => p
    | .nfma | .nfms => p.negate
  let c' := match k with
    | .fma | .nfms => c
    | .fms | .nfma => c.negate
  let r := p'.add c'
  let o := roundVal f mode ftz r
  (o.1, o.2 ||| signals [a, b, c] ||| invalid [a, b] p ||| invalid [a, b, c] r)

/-! ### Comparison (R83) -/

/-- Below, on numbers; NaN operands answer false. -/
def FVal.lt : FVal → FVal → Bool
  | .nan _, _ | _, .nan _ => false
  | .inf a, .inf b => a && !b
  | .inf a, _ => a
  | _, .inf b => !b
  | .fin na ma ea, .fin nb mb eb =>
    let e := min ea eb
    intOf na (ma <<< (ea - e).toNat) < intOf nb (mb <<< (eb - e).toNat)

/-- Below in the order in which −0 lies below +0 (R83). -/
def FVal.below (a b : FVal) : Bool :=
  a.lt b || (!b.lt a && match a, b with
    | .fin true 0 _, .fin false 0 _ => true
    | _, _ => false)

/-- minimumNumber and maximumNumber (R83): the other operand when one is a NaN. -/
def minMaxF (f : FloatFmt) (ftz wantMax : Bool) (x y : Nat) : Nat × Nat :=
  let a := decodeF f ftz x
  let b := decodeF f ftz y
  let r :=
    if a.isNan then b else if b.isNan then a else
    if wantMax then (if a.below b then b else a) else (if b.below a then b else a)
  ((roundVal f .rne false r).1, signals [a, b])

/-- VCMP on floating lanes: whether the condition holds, and the flags (R83). -/
def cmpF (f : FloatFmt) (ftz : Bool) (c : VCond) (x y : Nat) : Bool × Nat :=
  let a := decodeF f ftz x
  let b := decodeF f ftz y
  let un := a.isNan || b.isNan
  let quiet := signals [a, b]
  let loud := quiet ||| (if un then flagNV else 0)
  match c with
  | .eq => (!un && !a.lt b && !b.lt a, quiet)
  | .ne => (un || a.lt b || b.lt a, quiet)
  | .lt => (a.lt b, loud)
  | .le => (!un && !b.lt a, loud)
  | .gt => (b.lt a, loud)
  | .ge => (!un && !a.lt b, loud)
  | .unord => (un, quiet)
  | .ordd => (!un, quiet)

/-! ### Quotients and roots -/

/-- The quotient of two nonzero magnitudes, with its sticky bit: at least 64 bits of it. -/
def quotient (ma : Nat) (ea : Int) (mb : Nat) (eb : Int) : Nat × Int × Bool :=
  let k := 64 + mb.log2
  let n := ma <<< k
  (n / mb, ea - eb - k, n % mb != 0)

/-- The integer square root, found bit by bit from bit n downward: the largest r with r × r ≤ x and r < 2^n. -/
def isqrt (x : Nat) : Nat → Nat → Nat
  | 0, r => r
  | n + 1, r => if (r + 2 ^ n) * (r + 2 ^ n) ≤ x then isqrt x n (r + 2 ^ n) else isqrt x n r

/-- VRCP (R93). -/
def rcpF (f : FloatFmt) (mode : Round) (ftz : Bool) (x : Nat) : Nat × Nat :=
  match decodeF f ftz x with
  | .nan s => (f.nan, (FVal.nan s).nv)
  | .inf n => (withSign f n 0, 0)
  | .fin n m e =>
    if m = 0 then (withSign f n f.inf, flagDZ) else
    let q := quotient 1 0 m e
    roundMag f mode ftz n q.1 q.2.1 q.2.2

/-- VRSQ (R93). With the exponent made even, the root of 2^(2k) / m is found with its sticky bit. -/
def rsqF (f : FloatFmt) (mode : Round) (ftz : Bool) (x : Nat) : Nat × Nat :=
  match decodeF f ftz x with
  | .nan s => (f.nan, (FVal.nan s).nv)
  | .inf n => if n then (f.nan, flagNV) else (0, 0)
  | .fin n m e =>
    if m = 0 then (withSign f n f.inf, flagDZ) else
    if n then (f.nan, flagNV) else
    let m' := if e % 2 = 0 then m else 2 * m
    let e' := if e % 2 = 0 then e else e - 1
    let k := 64 + m'.log2
    let r := isqrt (2 ^ (2 * k) / m') (k + 1) 0
    roundMag f mode ftz false r (-(k : Int) - e' / 2) (r * r * m' != 2 ^ (2 * k))

/-! ### Conversion (R89) -/

/-- Rounds ±(m × 2^e, sticky) to an integer, ties to even, and saturates it to lo..hi. -/
def roundInt (neg : Bool) (m : Nat) (e : Int) (sticky : Bool) (lo hi : Int) : Int × Nat :=
  let r := roundAt .rne m e sticky 0
  let v := intOf neg r.1
  let nx := if r.2 then flagNX else 0
  if v < lo then (lo, nx ||| flagSAT) else if hi < v then (hi, nx ||| flagSAT) else (v, nx)

/-- A value to an integer range. -/
def toInt (lo hi : Int) : FVal → Int × Nat
  | .nan _ => (0, flagNV)
  | .inf n => (if n then lo else hi, flagSAT)
  | .fin n m e => roundInt n m e false lo hi

/-- What a scaled conversion rounds: the quotient of x and the scale (R89). -/
inductive Scaled where
  | nan (flags : Nat)
  | inf (neg : Bool) (flags : Nat)
  | zero (neg : Bool)
  | mag (neg : Bool) (m : Nat) (e : Int) (sticky : Bool)
  deriving DecidableEq, Repr

def scaledQuot (x s : FVal) : Scaled :=
  match x, s with
  | .nan a, s => .nan ((FVal.nan a).nv ||| s.nv)
  | x, .nan b => .nan (x.nv ||| (FVal.nan b).nv)
  | .inf _, .inf _ => .nan flagNV
  | .inf a, .fin b _ _ => .inf (a != b) 0
  | .fin a _ _, .inf b => .zero (a != b)
  | .fin a ma ea, .fin b mb eb =>
    if mb = 0 then (if ma = 0 then .nan flagNV else .inf (a != b) flagDZ)
    else if ma = 0 then .zero (a != b)
    else
      let q := quotient ma ea mb eb
      .mag (a != b) q.1 q.2.1 q.2.2

/-- A scaled conversion to a floating target (R89). -/
def scaledToF (f : FloatFmt) (mode : Round) (ftz : Bool) : Scaled → Nat × Nat
  | .nan fl => (f.nan, fl)
  | .inf n fl => (withSign f n f.inf, fl)
  | .zero n => (withSign f n 0, 0)
  | .mag n m e st => roundMag f mode ftz n m e st

/-- A scaled conversion to an integer target (R89): a NaN gives 0 with NV. -/
def scaledToInt (lo hi : Int) : Scaled → Int × Nat
  | .nan _ => (0, flagNV)
  | .inf n fl => (if n then lo else hi, fl ||| flagSAT)
  | .zero _ => (0, 0)
  | .mag n m e st => roundInt n m e st lo hi

/-! ### The faithful functions (R93, R369) -/

/-- The code and the flags of an inexact result whose magnitude is m × 2^e or a little more: one of the two
representable values around it. up chooses the upper one. Only overflow depends on the rounding. -/
def faithful (f : FloatFmt) (mode : Round) (ftz up neg : Bool) (m : Nat) (e : Int) : Nat × Nat :=
  if m = 0 then
    (if up && !ftz then (withSign f neg 1, flagUF ||| flagNX) else (withSign f neg 0, flagUF ||| flagNX)) else
  if overflows f m e true then overflowResult f mode neg else
  let q := max ((m.log2 : Int) + e - f.frac) f.qmin
  let lo := (q - f.qmin).toNat * 2 ^ f.frac + (roundAt .rtz m e true q).1
  let c := if up && lo + 1 < f.inf then lo + 1 else lo
  if c < 2 ^ f.frac then (withSign f neg (if ftz then 0 else c), flagUF ||| flagNX) else (withSign f neg c, flagNX)

/-- A lower bound of 2^(n / 2^k) × 2^128 for n < 2^k, by the binary digits of the exponent: root is 2^(2^-i) × 2^128
from below. fuel counts the digits used. -/
def pow2Digits (n k : Nat) : Nat → Nat → Nat → Nat
  | 0, _, acc => acc
  | fuel + 1, root, acc =>
    let root' := isqrt (root <<< 128) 130 0
    if k = 0 then acc else
    let acc' := if n / 2 ^ (k - 1) % 2 = 1 then (acc * root') >>> 128 else acc
    pow2Digits n (k - 1) fuel root' acc'

/-- VEXP2 (R93). -/
def exp2F (f : FloatFmt) (mode : Round) (ftz up : Bool) (x : Nat) : Nat × Nat :=
  match decodeF f ftz x with
  | .nan s => (f.nan, (FVal.nan s).nv)
  | .inf n => if n then (0, 0) else (f.inf, 0)
  | .fin n m e =>
    if m = 0 then roundMag f mode ftz false 1 0 false else
    if (m.log2 : Int) + e ≥ 12 then
      (if n then faithful f mode ftz up false 0 0 else overflowResult f mode false) else
    let k := (-e).toNat
    let num := intOf n (m <<< e.toNat)
    let int := num.fdiv (2 ^ k : Nat)
    let fr := (num - int * (2 ^ k : Nat)).toNat
    if fr = 0 ∧ f.qmin ≤ int then roundMag f mode ftz false 1 int false else
    if int < f.qmin then faithful f mode ftz up false 0 0 else
    faithful f mode ftz up false (pow2Digits fr k 128 (2 <<< 128) (1 <<< 128)) (int - 128)

/-- The binary digits of log2 t for t in [1, 2), t held as t × 2^256 from below. -/
def log2Digits : Nat → Nat → Nat → Nat
  | 0, _, acc => acc
  | fuel + 1, t, acc =>
    let t' := (t * t) >>> 256
    if 2 ^ 257 ≤ t' then log2Digits fuel (t' >>> 1) (2 * acc + 1) else log2Digits fuel t' (2 * acc)

/-- VLOG2 (R93). -/
def log2F (f : FloatFmt) (mode : Round) (ftz up : Bool) (x : Nat) : Nat × Nat :=
  match decodeF f ftz x with
  | .nan s => (f.nan, (FVal.nan s).nv)
  | .inf n => if n then (f.nan, flagNV) else (f.inf, 0)
  | .fin n m e =>
    if m = 0 then (withSign f true f.inf, flagDZ) else
    if n then (f.nan, flagNV) else
    let top : Int := (m.log2 : Int) + e
    if m = 2 ^ m.log2 then roundVal f mode ftz (.fin (top < 0) top.natAbs 0) else
    let v : Int := top * (2 ^ 128 : Nat) + (log2Digits 128 (m <<< (256 - m.log2)) 0 : Nat)
    if v < 0 then faithful f mode ftz up true (v.natAbs - 2) (-128)
    else faithful f mode ftz up false v.natAbs (-128)

/-- π × 2^480 from below. -/
def piScaled : Nat :=
  0x3243f6a8885a308d313198a2e03707344a4093822299f31d0082efa98ec4e6c89452821e638d01377be5466cf34e90c6cc0ac29b7c97c50dd3f84d5b5

/-- The alternating series of sine (d = 1) and cosine (d = 0) at r, everything scaled by 2^480: term is the current
term's magnitude, n its degree. -/
def trigSeries (r2 : Nat) : Nat → Nat → Nat → Bool → Int → Int
  | 0, _, _, _, acc => acc
  | fuel + 1, n, term, neg, acc =>
    trigSeries r2 fuel (n + 2) (((term * r2) >>> 480) / ((n + 1) * (n + 2))) (!neg) (acc + intOf neg term)

/-- VSIN and VCOS (R93): the argument is reduced by quarter turns with 480 fraction bits. -/
def trigF (f : FloatFmt) (mode : Round) (ftz up isCos : Bool) (x : Nat) : Nat × Nat :=
  match decodeF f ftz x with
  | .nan s => (f.nan, (FVal.nan s).nv)
  | .inf _ => (f.nan, flagRNG ||| flagNV)
  | .fin n m e =>
    if m = 0 then (if isCos then roundMag f mode ftz false 1 0 false else (withSign f n 0, 0)) else
    if (m.log2 : Int) + e ≥ 16 then (f.nan, flagRNG) else
    let t := m <<< (e + 480).toNat
    let half := piScaled / 2
    let k := t / half
    let r := t % half
    let r2 := (r * r) >>> 480
    let useCos := if isCos then k % 2 == 0 else k % 2 == 1
    let v := if useCos then trigSeries r2 40 0 (2 ^ 480) false 0 else trigSeries r2 40 1 r false 0
    let neg := if isCos then k % 4 == 1 || k % 4 == 2 else (k / 2 % 2 == 1) != n
    faithful f mode ftz up neg (v - 2 ^ 280).toNat (-480)

end Sys2Proof.Machine
end

