-- ==== Sys2Proof/Machine/Lanes.lean ====
section
/-! DEFINITION. Lanes of packets (R69), the lane operations of the vector and bank instructions (R92, R346), and the
typed memory formats with the nested integers (R86 to R88). -/

namespace Sys2Proof.Machine

/-- The n lanes of width w of a number, lane 0 first. -/
def unpackLanes (w : Nat) : Nat → Nat → List Nat
  | 0, _ => []
  | n + 1, x => x % 2 ^ w :: unpackLanes w n (x / 2 ^ w)

/-- The number whose lanes of width w are given, lane 0 first. -/
def packLanes (w : Nat) : List Nat → Nat
  | [] => 0
  | x :: xs => x % 2 ^ w + 2 ^ w * packLanes w xs

/-- The lanes of a packet (R69). -/
def lanesOf (ty : LaneTy) (p : Packet) : List Nat := unpackLanes ty.width ty.lanes p.toNat

/-- The packet of lanes; lanes not given are 0. -/
def packetOf (ty : LaneTy) (l : List Nat) : Packet := BitVec.ofNat 512 (packLanes ty.width l)

/-- The format of a floating lane type. -/
def floatFmt : LaneTy → FloatFmt
  | .bf16 => fmtBF16
  | .f16 => fmtF16
  | _ => fmtF32

/-- An integer lane's value (R69): s types signed, z types unsigned. -/
def laneInt (ty : LaneTy) (x : Nat) : Int :=
  if ty.isSigned && 2 ^ (ty.width - 1) ≤ x then (x : Int) - (2 ^ ty.width : Nat) else x

/-- The range of an integer lane type (R92). -/
def laneMin (ty : LaneTy) : Int := if ty.isSigned then -((2 ^ (ty.width - 1) : Nat) : Int) else 0
def laneMax (ty : LaneTy) : Int := if ty.isSigned then ((2 ^ (ty.width - 1) : Nat) : Int) - 1 else ((2 ^ ty.width : Nat) : Int) - 1

/-- The code of an integer in a lane, modulo its width. -/
def laneCode (ty : LaneTy) (v : Int) : Nat := (v % ((2 ^ ty.width : Nat) : Int)).toNat

/-- An exact integer result wrapped, or saturated with SAT (R92). -/
def intLane (ty : LaneTy) (sat : Bool) (v : Int) : Nat × Nat :=
  if sat && v < laneMin ty then (laneCode ty (laneMin ty), flagSAT)
  else if sat && laneMax ty < v then (laneCode ty (laneMax ty), flagSAT)
  else (laneCode ty v, 0)

/-- How a lane operation rounds (R69). -/
structure LaneMode where
  round : Round := .rne
  sat : Bool := false
  ftz : Bool := false
  deriving DecidableEq, Repr

/-- The mode that rm and FRM give (R69, R82). -/
def laneMode (ty : LaneTy) (rm : BitVec 2) (frm : Word) : LaneMode :=
  if ty.isFloat then { round := roundOf rm frm, ftz := frmFtz frm } else { sat := rm == 1 }

/-! ### Lane operations: each answers the lane's code and its flags -/

def addLane (ty : LaneTy) (m : LaneMode) (x y : Nat) : Nat × Nat :=
  if ty.isFloat then addF (floatFmt ty) m.round m.ftz x y else intLane ty m.sat (laneInt ty x + laneInt ty y)

def subLane (ty : LaneTy) (m : LaneMode) (x y : Nat) : Nat × Nat :=
  if ty.isFloat then subF (floatFmt ty) m.round m.ftz x y else intLane ty m.sat (laneInt ty x - laneInt ty y)

def mulLane (ty : LaneTy) (m : LaneMode) (x y : Nat) : Nat × Nat :=
  if ty.isFloat then mulF (floatFmt ty) m.round m.ftz x y else intLane ty m.sat (laneInt ty x * laneInt ty y)

/-- VMIN and VMAX (R83, R346). -/
def minMaxLane (ty : LaneTy) (wantMax ftz : Bool) (x y : Nat) : Nat × Nat :=
  if ty.isFloat then minMaxF (floatFmt ty) ftz wantMax x y
  else if wantMax then (if laneInt ty x < laneInt ty y then y else x, 0)
  else (if laneInt ty y < laneInt ty x then y else x, 0)

/-- VABS and VNEG on a floating lane (R366): exact, a NaN becoming the canonical NaN. -/
def signLane (f : FloatFmt) (ftz neg : Bool) (x : Nat) : Nat × Nat :=
  let v := decodeF f ftz x
  let r := match v with
    | .fin n m e => if neg then .fin (!n) m e else .fin false m e
    | .inf n => .inf (neg && !n)
    | .nan q => .nan q
  ((roundVal f .rne false r).1, v.nv)

def absLane (ty : LaneTy) (m : LaneMode) (x : Nat) : Nat × Nat :=
  if ty.isFloat then signLane (floatFmt ty) m.ftz false x else intLane ty m.sat (laneInt ty x).natAbs

def negLane (ty : LaneTy) (m : LaneMode) (x : Nat) : Nat × Nat :=
  if ty.isFloat then signLane (floatFmt ty) m.ftz true x else intLane ty m.sat (-laneInt ty x)

/-- Vector shifts: a count at or above the width empties the lane (R92). -/
def shlLane (ty : LaneTy) (x y : Nat) : Nat := if ty.width ≤ y then 0 else x <<< y % 2 ^ ty.width
def shrLane (ty : LaneTy) (x y : Nat) : Nat := if ty.width ≤ y then 0 else x >>> y
def sraLane (ty : LaneTy) (x y : Nat) : Nat :=
  let v : Int := if 2 ^ (ty.width - 1) ≤ x then (x : Int) - (2 ^ ty.width : Nat) else x
  laneCode ty (v / ((2 ^ (min y ty.width) : Nat) : Int))

/-- VCMP (R70, R83). -/
def cmpLane (ty : LaneTy) (ftz : Bool) (c : VCond) (x y : Nat) : Bool × Nat :=
  if ty.isFloat then cmpF (floatFmt ty) ftz c x y else
  let a := laneInt ty x
  let b := laneInt ty y
  (match c with
    | .eq => a == b
    | .ne => a != b
    | .lt => a < b
    | .le => a ≤ b
    | .gt => b < a
    | .ge => b ≤ a
    | .unord => false
    | .ordd => true, 0)

/-- VCVT of one lane (R89). scale is the BF16 code of a scaled conversion. Between integer types of one width rm decides (R92). -/
def cvtLane (src tgt : LaneTy) (m : LaneMode) (ftz : Bool) (scale : Option Nat) (x : Nat) : Nat × Nat :=
  let v : FVal :=
    if src.isFloat then decodeF (floatFmt src) ftz x else .fin (laneInt src x < 0) (laneInt src x).natAbs 0
  match scale with
  | some k =>
    let q := scaledQuot v (decodeF fmtBF16 ftz k)
    if tgt.isFloat then scaledToF (floatFmt tgt) m.round ftz q
    else
      let r := scaledToInt (laneMin tgt) (laneMax tgt) q
      (laneCode tgt r.1, r.2)
  | none =>
    if tgt.isFloat then
      let r := roundVal (floatFmt tgt) m.round ftz v
      (r.1, r.2 ||| v.nv)
    else if src.isFloat then
      let r := toInt (laneMin tgt) (laneMax tgt) v
      (laneCode tgt r.1, r.2)
    else intLane tgt (m.sat && tgt.width ≤ src.width) (laneInt src x)

/-- One level of the tree of R94: adjacent lanes combined. -/
def pairUp (f : Nat → Nat → Nat × Nat) : List Nat → List Nat × Nat
  | x :: y :: rest =>
    let r := f x y
    let t := pairUp f rest
    (r.1 :: t.1, r.2 ||| t.2)
  | l => (l, 0)

/-- The tree of R94, by levels. -/
def treeReduce (f : Nat → Nat → Nat × Nat) : Nat → List Nat → Nat × Nat
  | 0, l => (l.head?.getD 0, 0)
  | n + 1, l =>
    let r := pairUp f l
    let t := treeReduce f n r.1
    (t.1, r.2 ||| t.2)

/-- AMOV on one lane at the bank (R276): floating lanes round RNE, honour subnormals and set no flag. -/
def amovLane (op : AmovOp) (ty : LaneTy) (m y : Nat) : Nat :=
  match op with
  | .add => (addLane ty {} m y).1
  | .min => (minMaxLane ty false false m y).1
  | .max => (minMaxLane ty true false m y).1
  | .and => m &&& y
  | .or => m ||| y
  | .xor => m ^^^ y

/-- AMOV on a granule. -/
def amovPacket (op : AmovOp) (ty : LaneTy) (granule x : Packet) : Packet :=
  packetOf ty ((lanesOf ty granule).zipWith (amovLane op ty) (lanesOf ty x))

/-! ### Formats of memory (R88) -/

/-- Bytes of the memory element (R64, R88). -/
def Fmt.bytes : Fmt → Nat
  | .s8 | .z8 | .s8w | .ni8 => 1
  | .s16 | .z16 | .f16 | .bf16 | .f16w | .bf16w | .ni16 => 2
  | .s32 | .z32 | .f32 => 4
  | .s64 => 8

/-- The lanes of a packet of a format and their type; a dword packet is eight 64-bit lanes (R88, R381). -/
def Fmt.lanes : Fmt → Nat
  | .s8 | .z8 | .ni8 => 64
  | .s16 | .f16 | .bf16 | .ni16 => 32
  | .z16 | .s32 | .z32 | .f32 | .f16w | .bf16w | .s8w => 16
  | .s64 => 8

/-- Bytes per packet in memory, and its alignment, for the formats that are no nested integers (R88). -/
def Fmt.packet (f : Fmt) : Nat := Fmt.lanes f * Fmt.bytes f

/-- Widens an element into a g register (R88, R311). -/
def widenG (f : Fmt) (x : Nat) : Word :=
  match f with
  | .s8 => (BitVec.ofNat 8 x).signExtend 64
  | .s16 => (BitVec.ofNat 16 x).signExtend 64
  | .s32 => (BitVec.ofNat 32 x).signExtend 64
  | _ => BitVec.ofNat 64 x

/-- An element of memory as a lane (R88): widening conversions are exact, a NaN becoming the canonical NaN. -/
def laneIn (f : Fmt) (x : Nat) : Nat :=
  match f with
  | .f16w => (roundVal fmtF32 .rne false (decodeF fmtF16 false x)).1
  | .bf16w => (roundVal fmtF32 .rne false (decodeF fmtBF16 false x)).1
  | .s8w => ((BitVec.ofNat 8 x).signExtend 32).toNat
  | _ => x

/-- A lane as an element of memory, with flags (R88, R354). -/
def laneOut (f : Fmt) (mode : Round) (ftz : Bool) (x : Nat) : Nat × Nat :=
  match f with
  | .z16 => if 65535 < x then (65535, flagSAT) else (x, 0)
  | .f16w => let v := decodeF fmtF32 ftz x; let r := roundVal fmtF16 mode ftz v; (r.1, r.2 ||| v.nv)
  | .bf16w => let v := decodeF fmtF32 ftz x; let r := roundVal fmtBF16 mode ftz v; (r.1, r.2 ||| v.nv)
  | .s8w =>
    let v := laneInt .s32 x
    if v < -128 then (128, flagSAT) else if 127 < v then (127, flagSAT) else (laneCode .s8 v, 0)
  | _ => (x, 0)

/-- Bits of a lane of a packet of a format. -/
def Fmt.laneBits (f : Fmt) : Nat := 512 / Fmt.lanes f

/-- The packet that the elements of memory fill, as a number (R88). -/
def packetIn (f : Fmt) (els : List Nat) : Nat := packLanes (Fmt.laneBits f) (els.map (laneIn f))

/-- The elements that a packet drains into, each with its flags. -/
def packetOut (f : Fmt) (mode : Round) (ftz : Bool) (x : Nat) : List (Nat × Nat) :=
  (unpackLanes (Fmt.laneBits f) (Fmt.lanes f) x).map (laneOut f mode ftz)

/-! ### Nested integers (R86, R87) -/

/-- Planes of a block. -/
def niPlanes (f : Fmt) : Nat := if f = .ni16 then 16 else 8

/-- Planes read, and planes fetched with the one a rounding read tests (R84, R87). -/
def niRead (f : Fmt) (frm : Word) : Nat :=
  if frmNik frm = 0 then niPlanes f else min (frmNik frm + 1) (niPlanes f)
def niFetched (f : Fmt) (frm : Word) : Nat :=
  if frmNir frm && niRead f frm < niPlanes f then niRead f frm + 1 else niRead f frm

/-- The element value of a prefix read of k of P planes, in units of q (R87). u is the code as stored; unsigned planes
(BHALF 2, R208) have a positive top plane. -/
def prefixRead (P k : Nat) (rounding unsigned : Bool) (u : Nat) : Int :=
  let q : Int := if !unsigned && 2 ^ (P - 1) ≤ u then (u : Int) - (2 ^ P : Nat) else u
  let unit : Int := ((2 ^ (P - k) : Nat) : Int)
  let t := q / unit * unit
  if rounding && k < P && u / 2 ^ (P - k - 1) % 2 = 1 then
    let top : Int := (if unsigned then ((2 ^ P : Nat) : Int) else ((2 ^ (P - 1) : Nat) : Int)) - unit
    min (t + unit) top
  else t

/-- The codes of n elements out of planes, the most significant plane first; w is the bits of a plane's dword in use. Planes
not given are 0. -/
def codesOf (P : Nat) (planes : List Nat) : Nat → List Nat
  | 0 => []
  | n + 1 => codesOf P planes n ++ [(planes.zipIdx.map fun p => p.1 / 2 ^ n % 2 * 2 ^ (P - 1 - p.2)).foldl (· + ·) 0]

/-- The planes of codes, the most significant first (R86). -/
def planesOf (codes : List Nat) : Nat → List Nat
  | 0 => []
  | P + 1 => packLanes 1 (codes.map fun q => q / 2 ^ P % 2) :: planesOf codes P

/-- The packet of a nested-integer read: the element values as s8 or s16 lanes (R87, R88). planes are those fetched. -/
def niIn (f : Fmt) (frm : Word) (planes : List Nat) : Nat :=
  let P := niPlanes f
  let k := niRead f frm
  let ty : LaneTy := if f = .ni16 then .s16 else .s8
  packLanes ty.width ((codesOf P planes ty.lanes).map fun u => laneCode ty (prefixRead P k (frmNir frm) false u))

/-- Cuts a number into n pieces of w bits, the lowest first. -/
def cutBits (w : Nat) (x : Nat) (n : Nat) : List Nat := unpackLanes w n x

/-- The planes that a packet of codes stores: 8 planes of 64 bits, or 16 of 32 bits (R88). -/
def niOut (f : Fmt) (x : Nat) : List Nat :=
  let ty : LaneTy := if f = .ni16 then .s16 else .s8
  planesOf (unpackLanes ty.width ty.lanes x) (niPlanes f)

end Sys2Proof.Machine
end

