-- ==== Sys2Proof/Machine/Store.lean ====
section
/-! DEFINITION. Stores: written plat lines in L1 and their spill (R104, R142, R159), what a store does at its home (R110,
R121, R276), and the path of a store through the buffer or past it. -/

namespace Sys2Proof.Machine

/-! ### Written lines (R104, R142, R159) -/

/-- The first number below n that is not in use: at most used.length numbers are. -/
def firstFree (used : List Nat) (n : Nat) : Option Nat :=
  (List.range (min n (used.length + 1))).find? (fun i => !used.contains i)

/-- How a written line finds its place. -/
inductive Performed where
  | done
  /-- The write spill is full (R159). -/
  | full
  /-- A page of the spill area is not usable (R142). -/
  | unusable
  deriving DecidableEq, Repr

/-- Write-spill slots of an estate (R142). -/
def spillSlotCount (x : Estate) : Nat := x.spillSize / 2 / 128

/-- Moves a written line out of a core's L1 into the write spill of its estate (R142, R159, R160). -/
def spillOut (s : State) (core : Nat) (l : L1Line) : Performed × State :=
  let e := estateOf s l.estate
  match firstFree e.spillSlots (spillSlotCount e) with
  | none => (.full, s)
  | some k =>
    match hwWrite s core l.estate (spillVa e k) 88
        (l.data.toNat + 2 ^ 512 * (l.written.toNat + 2 ^ 64 * (l.va + 2 ^ 64 * l.task))) true 4 with
    | (true, s1) =>
      let s2 := setEstate s1 l.estate { estateOf s1 l.estate with spillSlots := k :: (estateOf s1 l.estate).spillSlots }
      let s3 := setTask s2 l.task
        { taskOf s2 l.task with spill := (taskOf s2 l.task).spill ++ [{ va := l.va, slot := k, core := core, poison := l.poison }] }
      let c := coreOf s3 core
      (.done, setCore s3 core { c with
        l1 := c.l1.filter (fun y => !(y.estate == l.estate && y.va == l.va && y.task == l.task)) })
    | (false, s1) => (.unusable, s1)

/-- Makes room for one more written line (R159): nothing when L1 has room, else a clean line goes, else the oldest written
line spills. DEDUCED (log 41). -/
def makeRoom (s : State) (core : Nat) : Performed × State :=
  let c := coreOf s core
  if c.l1.length < 1024 then (.done, s) else
  match c.l1.find? (fun l => l.written == 0) with
  | some v => (.done, setCore s core { c with l1 := c.l1.filter (· != v) })
  | none =>
    match c.l1 with
    | [] => (.done, s)
    | l :: _ => spillOut s core l

/-- Writes bytes of a plat line in L1, with its byte mask (R138). A poisoned line takes only a write of all of it, which clears the poison
(R110). -/
def writePlat (s : State) (core est task va n data mask : Nat) : Performed × State :=
  let line := va / 64 * 64
  let off := va % 64
  let wrote : BitVec 64 := BitVec.ofNat 64 (byteMask mask n <<< off)
  match l1Find s core est line task with
  | some l =>
    if l.poison && !wholeLine va n mask then (.done, s) else
    (.done, l1Set s core { l with data := lineMask l.data off data mask, written := l.written ||| wrote, poison := false })
  | none =>
    match makeRoom s core with
    | (.done, s1) =>
      (.done, l1Set s1 core
        { estate := est, va := line, task := task, data := lineMask 0 off data mask, written := wrote, filled := false })
    | r => r

/-! ### Stores at their home -/

/-- Whether a store would leave a part of a poisoned line unwritten (R110). -/
def meetsPoison (s : State) (w : Write) : Bool :=
  let a := w.piece.home.addr
  w.piece.plat.isNone && !wholeLine a w.piece.n w.mask && match w.piece.home with
    | .scratch c o => (coreOf s c).scratchPoison.contains (o / 64)
    | .commons a => s.commonsPoison.contains (a / 64)
    | .hbm p => s.hbmPoison.contains (p / 64)
    | .host p => ((rlcFind s none (p / 64)).map (·.poison)).getD false
    | .coherent g p => ((rlcFind s (some g) (p / 64)).map (·.poison)).getD false
    | .remote g p => g == s.pkgId.toNat && s.hbmPoison.contains (p / 64)

/-- The package whose loss a store of a part of a lost line meets (R240). -/
def meetsLoss (s : State) (w : Write) : Option Nat :=
  if w.piece.plat.isSome || wholeLine w.piece.home.addr w.piece.n w.mask then none else lostAt s w.piece.home

/-- One write of a store, in L1 or at its home. -/
def performWrite (s : State) (core est task : Nat) (w : Write) : Performed × State :=
  match w.piece.plat with
  | some va => writePlat s core est task va w.piece.n w.data w.mask
  | none => (.done, storeHome s w.piece.home w.piece.n w.data w.mask)

/-- The writes of a store in order, stopping where a plat line finds no room. -/
def performWrites (s : State) (core est task : Nat) : List Write → Performed × State
  | [] => (.done, s)
  | w :: ws =>
    match performWrite s core est task w with
    | (.done, s1) => performWrites s1 core est task ws
    | r => r

/-- AMOV on its granule, one indivisible step at the bank (R276). -/
def performAmov (s : State) (op : AmovOp) (ty : LaneTy) (w : Write) : State :=
  match loadHome s w.piece.home 64 with
  | .value m =>
    storeHome s w.piece.home 64 (amovPacket op ty (BitVec.ofNat 512 m) (BitVec.ofNat 512 w.data)).toNat (2 ^ 512 - 1)
  | _ => s

/-- The record of a store that met a poisoned line after it had left its thread (R277, R352). -/
def poisonRecord (s : State) (core est thread addr h : Nat) : State :=
  sinkRecord s core est (hwRecord s est 2 TrapCode.memPoison.toNat (BitVec.ofNat 64 addr) 0 thread (handle := h))

/-- The same of a store that met a lost line (R240). -/
def lostRecord (s : State) (core est thread addr h pkg : Nat) : State :=
  sinkRecord s core est (hwRecord s est 2 TrapCode.fabricLost.toNat (BitVec.ofNat 64 addr) (fabricAux 0 false pkg) thread (handle := h))

/-- Whether a buffered store meets a granule whose tag names another estate by then (R108). -/
def meetsTag (s : State) (e : StoreEntry) : Bool :=
  e.writes.any (fun w => match w.piece.home with
    | .commons a => tagOf s (a / 64) != some e.estate
    | _ => false)

/-- The record of such a store. -/
def foreignRecord (s : State) (core est thread addr h : Nat) : State :=
  sinkRecord s core est (hwRecord s est 2 TrapCode.foreign.toNat (BitVec.ofNat 64 addr) 0 thread (handle := h))

/-- Performs a buffered store at its home (R121): from then on no load of the thread combines with a read bound before (R122). -/
def performEntry (s : State) (core slot : Nat) (e : StoreEntry) : Performed × State :=
  let r : Performed × State := if meetsTag s e then (.done, foreignRecord s core e.estate (threadId core slot) e.addr e.task) else
    match e.kind with
    | .amov op ty =>
      match e.writes with
      | w :: _ =>
        (.done, if s.commonsPoison.contains (w.piece.home.addr / 64) then poisonRecord s core e.estate (threadId core slot) e.addr e.task
          else performAmov s op ty w)
      | [] => (.done, s)
    | .plain =>
      match e.writes.findSome? (meetsLoss s) with
      | some g => (.done, lostRecord s core e.estate (threadId core slot) e.addr e.task g)
      | none =>
        if e.writes.any (meetsPoison s) then (.done, poisonRecord s core e.estate (threadId core slot) e.addr e.task)
        else performWrites s core e.estate e.task e.writes
  (r.1, barLines (threadId core slot) (e.writes.map (·.piece.home.line)) r.2)

/-- Whether entry e of a buffer may be performed now: its data are there, and it is behind no entry of another store that is
ordered on its die, whose fence it stands behind, or that is a push to the same stream; a release behind no other store at all
(R41, R121, R123, R125). earlier are the entries before it. -/
def mayPerform (earlier : List StoreEntry) (e : StoreEntry) : Bool :=
  e.ready && earlier.all (fun f => f.seq == e.seq ||
    (!e.release && f.die != e.die && (e.stream.isNone || f.stream != e.stream) && match f.barrier with
      | some q => e.seq < q
      | none => true))

/-! ### The path of a store -/

/-- Cuts data into the pieces of an access, the first piece lowest. -/
def writesOf : List Piece → Nat → List Write
  | [], _ => []
  | p :: ps, d => ⟨p, d % 2 ^ (8 * p.n), fullMask p.n⟩ :: writesOf ps (d >>> (8 * p.n))

/-- Leaves scratchpad writes for the writeback point (R100). -/
def scratchWrites (due : Nat) (stream : Option Nat) : List Write → State → State
  | [], s => s
  | w :: ws, s => scratchWrites due stream ws (addWb due (.scratch w.piece.home.addr w.piece.n w.data w.mask) s stream)

/-- When the scratchpad writes of a push take place: in push order, so behind those of the earlier pushes to a w register (R41). -/
def pushDue (s : State) (stream : Option Nat) (due : Nat) : Nat :=
  match stream with
  | some r => if r < 16 then due else ((curCore s).wb.filter (·.stream == some r)).foldl (fun n b => max n (b.due + 1)) due
  | none => due

/-- The wait of a store or an AMO of SYS class (R197, R352). The PEER of a host line is 0. DESIGN CHOICE (log 55). -/
def sysWait (p : Piece) : WaitState :=
  match p.home with
  | .remote g _ | .coherent g _ => { reason := .remote, sent := true, peer := g }
  | .host _ => { reason := .remote, sent := true, key := 2 }
  | h => { memWait h.die 0 with sent := true }

/-- Sends the remote stores of an access, and asks for the lines it needs in M. -/
def askStores (est thread : Nat) : List Write → Exec Unit
  | [] => pure ()
  | w :: ws => do
    match w.piece.home with
    | .remote g a => sendRemote g est thread (.store a w.piece.n w.data w.mask)
    | h => askLine thread h true
    askStores est thread ws

/-- A write that cannot be performed yet: its home is away. A plat line is written in L1. -/
def away (s : State) (w : Write) : Bool := w.piece.plat.isNone && needsLine s w.piece.home true

/-- The same, once the limit admits them all. -/
def requestStores (est thread : Nat) (ws : List Write) : Exec Unit := do
  let s ← get
  let out := ws.filter (away s)
  awaitLimit (out.map (·.piece.home))
  askStores est thread out

/-- Brings the host lines under the writes. -/
def prepareWrites (s : State) (ws : List Write) : State :=
  ws.foldl (fun s w => if w.piece.plat.isNone then prepare s w.piece.home true else s) s

/-- The trap of writes that find no place for a plat line, of a task that is at the frontier (R159); where a page of the spill area is not
usable, a record goes to the sink and every thread of the task traps (R142). -/
def placed (x : Access) (r : Performed) : Exec Unit :=
  match r with
  | .done => pure ()
  | .full => trapWith .saveFull x.va 1 x.sg
  | .unusable => do
    modify fun s => { parkCrew (areaRecord s x.core x.estate (estateOf s x.estate).spillBase x.task) x.task
        { code := .pageInvalid, addr := x.va } [(x.core, x.slot)] with cur := s.cur }
    trapWith .pageInvalid x.va 0 x.sg

/-- Performs a SYS-class store whose lines are here; a part of a poisoned line traps (R352). -/
def storeSys (x : Access) (ws : List Write) : Exec Unit := do
  modify (prepareWrites · ws)
  let s ← get
  match ws.findSome? (meetsLoss s) with
  | some g => trapWith .fabricLost x.va (fabricAux 0 false g) x.sg
  | none => pure ()
  match ws.find? (meetsPoison s) with
  | some w =>
    trapWith .memPoison x.va (match w.piece.home with
      | .remote _ _ | .coherent _ _ => 1
      | _ => 0) x.sg
  | none =>
    let r := performWrites s x.core x.estate x.task ws
    placed x r.1
    set (barLines (threadId x.core x.slot) (ws.map (·.piece.home.line)) r.2)

/-- A store whose checks are made (R100, R121, R123, R352). due is the writeback point of a scratchpad store, which does not wait for
buffered stores that no release or FENCE puts before it (DESIGN CHOICE, log 56); pend is what the thread keeps while SYS-class parts,
given to it, are on their way. A SYS-class part of a line of L1 follows the earlier plat stores (R135). The parts of a push that are not
of SYS class take their place in the buffer at once, and their data when the whole push completes. -/
def storeBytes (x : Access) (due : Nat) (kind : StoreKind) (ws : List Write) (release : Bool) (pend : List Write → Pending) :
    Exec Unit := do
  let s ← get
  let far := ws.filter (·.piece.home.sys)
  let near := ws.filter (fun w => !w.piece.home.sys)
  let addr := segAddr x.seg x.off
  match ws with
  | [] => pure ()
  | w :: _ =>
    if w.piece.home.cls s.cur.core = .core then do
      awaitEntries x.slot (fun e => release || e.fenced .core)
      modify (scratchWrites (pushDue s x.stream due) x.stream ws)
    else if far.isEmpty then enterStore x.slot kind ws release addr x.stream
    else do
      awaitEntries x.slot (fun e => release || e.fenced .sys ||
        (far.any (·.piece.plat.isSome) && e.writes.any (·.piece.plat.isSome)) || (x.stream.isSome && e.stream == x.stream))
      if !near.isEmpty then awaitRoom x.slot w.piece.home.die
      let out := far.filter (·.piece.plat.isNone)
      requestStores x.estate (threadId s.cur.core s.cur.slot) out
      if (s.cur.defer && !out.isEmpty) || out.any (away s) then
        enterStore x.slot kind near release addr x.stream false
        waitFor (sysWait ((out.head?.map (·.piece)).getD w.piece)) (pend far)
      else
        storeSys x far
        enterStore x.slot kind near release addr x.stream

/-! ### Atomic operations (R65, R273) -/

/-- Bytes of an AMO's operand. -/
def amoSize : AmoOp → Nat
  | .fadd | .fmin | .fmax => 4
  | _ => 8

/-- The new value of an AMO: none when CAS does not write. Floating operations act on F32 codes, honour subnormals and set
no flag. -/
def amoNew (op : AmoOp) (old : Nat) (b expected : Word) : Option Nat :=
  let o : Word := BitVec.ofNat 64 old
  let f := b.toNat % 2 ^ 32
  match op with
  | .add => some (o + b).toNat
  | .and => some (o &&& b).toNat
  | .or => some (o ||| b).toNat
  | .xor => some (o ^^^ b).toNat
  | .min => some (if b.slt o then b else o).toNat
  | .max => some (if o.slt b then b else o).toNat
  | .minu => some (if b.ult o then b else o).toNat
  | .maxu => some (if o.ult b then b else o).toNat
  | .swap => some b.toNat
  | .cas => if o = expected then some b.toNat else none
  | .fadd => some (addF fmtF32 .rne false old f).1
  | .fmin => some (minMaxF fmtF32 false false old f).1
  | .fmax => some (minMaxF fmtF32 false true old f).1

/-- An AMO at its home, whose line is here (R273): the old value. -/
def amoPerform (op : AmoOp) (h : Home) (b expected : Word) (s : State) : Served × State :=
  let n := amoSize op
  let s' := prepare s h true
  match loadHome s' h n with
  | .value old =>
    (.value old, match amoNew op old b expected with
      | some v => storeHome s' h n v (fullMask n)
      | none => s')
  | r => (r, s')

end Sys2Proof.Machine
end

