-- ==== Sys2Proof/Machine/Streams.lean ====
section
/-! DEFINITION. Packets in memory (R88, R381), streams (R26, R40, R41), vector operands and the end of a vector
instruction. -/

namespace Sys2Proof.Machine

/-! ### Packets in memory (R88) -/

def Fmt.isNested (f : Fmt) : Bool := f == .ni8 || f == .ni16

/-- The runs of bytes of a nested-integer packet at an offset off: planes planes of it. at is what selects the half of an NI16
block by its bit 6: the address of an LDV or STV (R88), the offset of a stream's packet (R381). -/
def planeSpans (f : Fmt) (at_ : Nat) (off : Int) (planes : Nat) : List (Int × Nat) :=
  if f = .ni8 then [(off, 8 * planes)]
  else
    let half : Int := ((at_ / 64 % 2 : Nat) : Int)
    (List.range planes).map (fun (j : Nat) => (off - 64 * half + 8 * (j : Int) + 4 * half, 4))

/-- The packet that loaded bytes fill, lane n and up reading 0 (R40, R88). -/
def packetOfBytes (f : Fmt) (frm : Word) (n : Nat) (x : Nat) : Packet :=
  let full :=
    if Fmt.isNested f then niIn f frm (cutBits (if f = .ni8 then 64 else 32) x (niFetched f frm))
    else packetIn f (cutBits (8 * Fmt.bytes f) x n)
  BitVec.ofNat 512 (full % 2 ^ (n * Fmt.laneBits f))

/-- What a packet stores (R354): the bytes' number, the mask of the bits of its first n elements, and the flags of each
lane. -/
def bytesOfPacket (f : Fmt) (frm : Word) (n : Nat) (x : Packet) : Nat × Nat × List Nat :=
  if Fmt.isNested f then
    let w := if f = .ni8 then 64 else 32
    let mask := packLanes w (List.replicate (niPlanes f) (2 ^ n - 1))
    (packLanes w (niOut f x.toNat) &&& mask, mask, [])
  else
    let r := (packetOut f (frmRound frm) (frmFtz frm) x.toNat).take n
    (packLanes (8 * Fmt.bytes f) (r.map (·.1)), fullMask (n * Fmt.bytes f), r.map (·.2))

/-- Bytes that the effective address of a packet must be a multiple of (R88). -/
def packetAlign (f : Fmt) : Nat := if Fmt.isNested f then 64 else Fmt.packet f

/-! ### Streams (R26, R40, R381) -/

def Stream.dw (t : Stream) (k : Nat) : Word := t.desc[k]?.getD 0
def Stream.seg (t : Stream) : Nat := bits (t.dw 1) 0 3
def Stream.fmt (t : Stream) : Fmt := (Fmt.ofCode (bits (t.dw 1) 3 4)).getD .s64
def Stream.isWrite (t : Stream) : Bool := bits (t.dw 1) 7 1 == 1
def Stream.dims (t : Stream) : Nat := bits (t.dw 1) 8 2 + 1
def Stream.extent (t : Stream) (k : Nat) : Nat := bits (t.dw 2) (16 * k) 16
def Stream.stride (t : Stream) (k : Nat) : Int := (BitVec.ofNat 32 (bits (t.dw (3 + k / 2)) (32 * (k % 2)) 32)).toInt

/-- Elements of the stream: the product of the extents in use (R40). -/
def Stream.count (t : Stream) : Nat := ((List.range t.dims).map t.extent).foldl (· * ·) 1

/-- The element offset of element i, dimension 0 fastest; k is the dimension and n how many follow (R40). -/
def Stream.offsetFrom (t : Stream) (i : Nat) (k : Nat) : Nat → Int
  | 0 => 0
  | n + 1 =>
    let e := max (t.extent k) 1
    ((i % e : Nat) : Int) * t.stride k + t.offsetFrom (i / e) (k + 1) n

/-- The segment offset of element i. -/
def Stream.at (t : Stream) (i : Nat) : Int :=
  ((t.dw 0).toNat : Int) + t.offsetFrom i 0 t.dims * ((Fmt.bytes t.fmt : Nat) : Int)

/-- Elements of the packet that begins at element i (R40, R381). -/
def Stream.packetLen (t : Stream) (i : Nat) : Nat :=
  if Fmt.isNested t.fmt then min (Fmt.lanes t.fmt) (t.extent 0 - i % max (t.extent 0) 1)
  else min (Fmt.lanes t.fmt) (t.count - i)

/-- Joins runs that follow on one another. -/
def joinSpans : List (Int × Nat) → List (Int × Nat)
  | (a, n) :: rest =>
    match joinSpans rest with
    | (b, m) :: r => if a + n = b then (a, n + m) :: r else (a, n) :: (b, m) :: r
    | [] => [(a, n)]
  | [] => []

/-- The runs of bytes of the packet that begins at element i; planes counts those of a nested-integer packet. -/
def Stream.spans (t : Stream) (i planes : Nat) : List (Int × Nat) :=
  if Fmt.isNested t.fmt then planeSpans t.fmt (t.at i).toNat (t.at i) planes
  else joinSpans ((List.range (t.packetLen i)).map (fun j => (t.at (i + j), Fmt.bytes t.fmt)))

/-- The stream that a v or w register field names, with the slot that bound it: its own thread's for a v register, any
thread's of the core for a w register (R40). -/
def findStream (s : State) (core slot : Nat) (r : Nat) : Option (Nat × Stream) :=
  if r < 16 then ((slotOf s core slot).streams.find? (·.reg == r)).map (slot, ·)
  else (coreOf s core).slots.findSome? (fun p => if p.2.live then (p.2.streams.find? (·.reg == r)).map (p.1, ·) else none)

/-- The access of the packet that begins at element i, made as the binding thread would (R41). For a nested-integer stream the
descriptor's base is a multiple of its block (R381). -/
def streamAccess (s : State) (core k : Nat) (t : Stream) (i planes : Nat) : Access :=
  let x := slotOf s core k
  let seg : Seg := x.sg[t.seg]?.getD {}
  { core := core, slot := k, estate := x.estate, task := x.task, sg := t.seg, seg := seg, off := t.at i,
    spans := t.spans i planes, align := if t.fmt = .ni8 then 64 else if t.fmt = .ni16 then 128 else Fmt.bytes t.fmt,
    alignedBy := if Fmt.isNested t.fmt then some (t.dw 0).toNat else none,
    load := !t.isWrite, store := t.isWrite, stream := some t.reg }

/-- Runs m, whose wait for a reply is a wait for the stream of a register field (R41). -/
def streamWait (reg : Nat) (m : Exec α) : Exec α :=
  tryCatch m fun h => match h with
    | .wait _ (.packet r ps i) => throw (.wait { reason := .stream, peer := reg } (.packet r ps i))
    | h => throw h

/-- Fetches the packet of a read stream that begins at element i. DEDUCED (log 43). A nested-integer packet is read under FRM as it
stands now, whatever WRS does before its pop. DESIGN CHOICE (log 61). -/
def fetchPacket (core k : Nat) (t : Stream) (i : Nat) : Exec Packet := do
  let s ← get
  let frm := (slotOf s core k).frm
  let x := streamAccess s core k t i (niFetched t.fmt frm)
  let ps ← checkAccess x
  if s.cur.defer && ps.all (fun p => p.home.cls core == .core) then waitFor { reason := .stream, peer := t.reg }
  let v ← streamWait t.reg (loadBytes x ps (.packet t.reg ps i))
  pure (packetOfBytes t.fmt frm (t.packetLen i) v)

/-- Trap(STREAM) on a register field (R188). -/
def streamTrap (r : Reg) : Exec α := trapWith .stream 0 (BitVec.ofNat 64 r.toNat)

/-- Pops one packet of the read stream that a source field names (R41). -/
def popStream (r : Reg) (k : Nat) (t : Stream) : Exec Unit := do
  let s ← get
  if t.isWrite then streamTrap r
  if (popped s true r.toNat).isSome then return
  if t.count ≤ t.next then streamTrap r
  let n := t.packetLen t.next
  let v ← match t.buffer with
    | v :: _ => pure v
    | [] => do
      let p ← fetchPacket s.cur.core k t t.next
      pure p.toNat
  modify (addPop {
    reg := r.toNat, wide := true, value := v, binder := k, bits := n * Fmt.laneBits t.fmt, next := t.next + n,
    prior := t.next })

/-! ### Vector operands -/

/-- Opens a v or w source (R41, R42). -/
def openV (r : Reg) : Exec Unit := do
  let s ← get
  match findStream s s.cur.core s.cur.slot r.toNat with
  | some (k, t) => popStream r k t
  | none => do
    if 16 ≤ r.toNat then popQueue true r
    readable true r

def openVs : List Reg → Exec Unit
  | [] => pure ()
  | r :: rs => do
    openV r
    openVs rs

/-- Whether an instruction that waits has a push to the stream of a register field still to make (R41). binder is the thread that
bound it. -/
def pushAhead (s : State) (core binder r : Nat) : Bool :=
  (coreOf s core).slots.any (fun p => p.2.live && match p.2.pend with
    | .push _ _ | .load _ _ (.v _ _ _) => p.2.held.any (fun h => h.reg == r && h.bits == 0 && h.next != 0 && h.binder == binder)
    | _ => false)

/-- Opens a v or w destination: a read stream traps, and so does a push after the final packet; a push waits for those before it,
and a queue needs a free entry (R41, R42). -/
def reserveV (d : Reg) : Exec Unit := do
  let s ← get
  match findStream s s.cur.core s.cur.slot d.toNat with
  | some (k, t) =>
    if !t.isWrite || t.count ≤ t.next then streamTrap d
    if pushAhead s s.cur.core k d.toNat then waitFor { reason := .stream, peer := regPeer d, key := d.toNat + 1 + 32 * (k + 1) }
  | none => if 16 ≤ d.toNat then reserveQueue true d else pure ()

/-- V(r) as read at issue. -/
def vval (s : State) (r : Reg) : Packet :=
  match popped s true r.toNat with
  | some p => BitVec.ofNat 512 p.value
  | none => if r.toNat < 16 then (curSlot s).v[r.toNat]?.getD 0 else (curCore s).w[r.toNat - 16]?.getD 0

/-- The lanes of width w that every popped source supplies with real elements (R85). -/
def realLanes (s : State) (w : Nat) (srcs : List Reg) (i : Nat) : Bool :=
  srcs.all fun r => match popped s true r.toNat with
    | some p => (i + 1) * w ≤ p.bits
    | none => true

/-- The bits of a packet of n lanes of width w of which lane i is real when p i says so. -/
def laneBitsMask (w n : Nat) (p : Nat → Bool) : Nat :=
  ((List.range n).filter p).foldl (fun m i => m ||| (2 ^ w - 1) <<< (i * w)) 0

/-- The flags of lanes that real elements feed (R85). -/
def realFlags (s : State) (w : Nat) (srcs : List Reg) (flags : List Nat) : List Nat :=
  flags.zipIdx.map fun p => if realLanes s w srcs p.2 then p.1 else 0

/-- V(d) := x at the cycle given, where d is no stream (R37, R42). -/
def putV (due : Nat) (d : Reg) (x : Packet) (s : State) : State :=
  if d.toNat < 16 then setCurSlot s { (curSlot s).clean true d.toNat with v := (curSlot s).v.setIfInBounds d.toNat x }
  else match findQueue (curCore s) true (d.toNat - 16) with
    | some q => pushQueue due true (d.toNat - 16) q x.toNat s
    | none => addWb due (.w (d.toNat - 16) x) s

/-- ORs two lists of lane flags. -/
def joinFlags : List Nat → List Nat → List Nat
  | a :: as, b :: bs => (a ||| b) :: joinFlags as bs
  | [], bs => bs
  | as, [] => as

/-- Cuts data and its mask into the pieces of an access. -/
def writesMasked : List Piece → Nat → Nat → List Write
  | [], _, _ => []
  | p :: ps, d, m =>
    ⟨p, d % 2 ^ (8 * p.n), m % 2 ^ (8 * p.n)⟩ :: writesMasked ps (d >>> (8 * p.n)) (m >>> (8 * p.n))

/-- Raises flags in the issuing thread's FFLAGS. -/
def raiseCur (flags : List Nat) (s : State) : State := setCurSlot s ((curSlot s).raise (flags.foldl orFlags 0))

/-- The push that an instruction with destination d makes: the binding slot, the stream, its access and the pieces of the packet;
none when d is no stream. The checks are those of the binding thread's store (R41). -/
structure Push where
  binder : Nat
  stream : Stream
  access : Access
  pieces : List Piece

/-- Opens the push of a destination. -/
def openPush (d : Reg) : Exec (Option Push) := do
  let s ← get
  match findStream s s.cur.core s.cur.slot d.toNat with
  | none => pure none
  | some (k, st) => do
    let a := streamAccess s s.cur.core k st st.next (niPlanes st.fmt)
    let ps ← checkAccess a
    pure (some ⟨k, st, a, ps⟩)

/-- The bytes, the mask and the flags of a packet that a stream takes (R40, R381). -/
def Push.bytes (s : State) (p : Push) (x : Packet) : Nat × Nat × List Nat :=
  bytesOfPacket p.stream.fmt (slotOf s p.access.core p.binder).frm (p.stream.packetLen p.stream.next) x

/-- The record of a push among what the instruction has popped and pushed. -/
def Push.record (p : Push) : Popped :=
  { reg := p.stream.reg, wide := true, value := 0, binder := p.binder, bits := 0,
    next := p.stream.next + p.stream.packetLen p.stream.next, prior := p.stream.next }

/-- Pushes a packet: a store of the binding thread, issued now (R41). flags are those the instruction raises. -/
def Push.perform (p : Push) (due : Nat) (x : Packet) (flags : Nat) : Exec Unit := do
  let s ← get
  let b := p.bytes s x
  modify (addPop p.record)
  storeBytes p.access due .plain (writesMasked p.pieces b.1 b.2.1) false (.push · flags)

/-- The bits of a result that come of real elements, where each lane comes of the same lane of every source: the lanes past a read
stream's last element do not (R85). -/
def realBits (s : State) : Nat := 2 ^ ((s.cur.pops.filter (fun o => o.bits != 0 && o.wide)).foldl (fun n o => min n o.bits) 512) - 1

/-- The flags of the lanes of a push that take nothing but bits of real elements: the others raise none (R85). -/
def pushFlags (w fed : Nat) (flags : List Nat) : List Nat :=
  flags.zipIdx.map fun q => if fed >>> (q.2 * w) % 2 ^ w == 2 ^ w - 1 then q.1 else 0

/-- Ends a vector instruction of t turns: its result x in V(d), of which the bits fed come of real elements, and its flags by lane
(R41, R85). -/
def endV (t : Nat) (d : Reg) (x : Packet) (flags : List Nat) (fed : Nat) : Exec Unit := do
  let s ← get
  if (findStream s s.cur.core s.cur.slot d.toNat).isNone then
    checkArith flags
    modify (fun s => endFall t (putV (wbPoint s t) d x (raiseCur flags s)))
  else
    match ← openPush d with
    | none => pure ()
    | some p => do
      let s ← get
      let all := joinFlags flags (pushFlags (Fmt.laneBits p.stream.fmt) fed (p.bytes s x).2.2)
      checkArith all
      p.perform (wbPoint s t) x (all.foldl orFlags 0)
      modify (fun s => endFall t (raiseCur all s))

/-- Majors 20 to 2C on Garnet (R9, R77). -/
def notGarnet : Exec Unit := do
  let s ← get
  if garnet ≤ s.cur.core then illegal

/-- A vector instruction: sources vs of class V and gs of class G, destination V(d). f answers the result and its flags by lane, fed
the bits of the result that come of real elements. -/
def vecFed (t : Nat) (vs gs : List Reg) (d : Reg) (fed : State → Nat) (f : State → Packet × List Nat) (s : State) :
    Host.Outcome State Fault Refusal :=
  runAt t (do
    notGarnet
    openVs vs
    useG gs none
    reserveV d
    let s ← get
    endV t d (f s).1 (f s).2 (fed s)) s

/-- The same of an instruction that works lane by lane. -/
def vec (t : Nat) (vs gs : List Reg) (d : Reg) (f : State → Packet × List Nat) : State → Host.Outcome State Fault Refusal :=
  vecFed t vs gs d realBits f

end Sys2Proof.Machine
end

