-- ==== Sys2Proof/Machine/Bind.lean ====
section
/-! DEFINITION. Binding and releasing registers (R40, R42, R43, R340, R347, R363), and the effects that take place at
writeback points (R33, R37). -/

namespace Sys2Proof.Machine

/-- Fills a reserved entry of a queue (R42). -/
def fillEntry (c : Core) (wide : Bool) (reg ticket value : Nat) : Core :=
  mapQueue c wide reg fun q =>
    { q with entries := q.entries.map (fun e => if e.ticket == ticket then { e with value := some value } else e) }

/-- Releases the queues that satisfy p, with their entries: a fill still on its way finds none (R43). -/
def dropQueues (c : Core) (p : Queue → Bool) : Core :=
  { c with
    queues := c.queues.filter (fun q => !p q), spent := (c.queues.filter p).foldl (fun n q => max n q.ticket) c.spent }

/-- The requests for packets of streams of slot k bound no longer are nobody's. -/
def dropPackets (core k : Nat) (p : Nat → Bool) (s : State) : State :=
  { s with outstanding := s.outstanding.filter (fun o => !(o.thread == threadId core k && o.packet.any p)) }

/-- The instructions that wait for a packet of a stream bound no longer issue again (R43). -/
def leaveStreams (core : Nat) (p : Nat → Bool) (s : State) : State :=
  (coreOf s core).slots.foldl (fun s q => match q.2.pend with
    | .packet r _ _ => if 16 ≤ r && p r then reissue core q.1 s else s
    | _ => s) s

/-- An effect on a thread, a token or a mailbox, not on registers or memory. -/
def WbAct.onThread : WbAct → Bool
  | .ends _ | .amret _ | .arrive _ | .wake _ _ | .uint _ _ => true
  | _ => false

/-- An effect on registers or memory takes place at its writeback point (R33, R37, R39, R42, R100, R125, R189). -/
def applyWb (core : Nat) (s : State) (b : Wb) : State :=
  let c := coreOf s core
  match b.act with
  | .c r v => setCore s core { c with c := c.c.setIfInBounds r v, poison := c.poison.filter (· != (false, r)) }
  | .w r v => setCore s core { c with w := c.w.setIfInBounds r v, poison := c.poison.filter (· != (true, r)) }
  | .scratch off n data mask => storeHome s (.scratch core off) n data mask
  | .fill wide reg ticket value => setCore s core (fillEntry c wide reg ticket value)
  | .bindQueue wide reg =>
    setCore s core { c with queues := c.queues ++ [{ wide := wide, reg := reg, ticket := c.spent, binder := b.slot }] }
  | .bindStream t =>
    let x := slotOf s core b.slot
    setSlot s core b.slot { x with streams := x.streams ++ [t] }
  | .unbind wide reg =>
    match findQueue c wide reg with
    | some _ => setCore s core (dropQueues c (fun q => q.wide == wide && q.reg == reg))
    | none =>
      let x := slotOf s core b.slot
      leaveStreams core (· == reg + 16)
        (dropPackets core b.slot (· == reg + 16) (setSlot s core b.slot { x with streams := x.streams.filter (·.reg != reg + 16) }))
  | .dqbase v => setCore s core { c with dqbase := v }
  | .dqlim v => setCore s core { c with dqlim := v }
  | .win v => setCore s core { c with win := v }
  | .tile n t => setTile s core n t
  | .acquire => closeCombining (threadId core b.slot) s
  | .park t long => parkSlot s core b.slot t long
  | .ends _ | .amret _ | .arrive _ | .wake _ _ | .uint _ _ => s

/-- Inserts an effect by its cycle, then by its slot, so that the higher slot's write remains (R37). -/
def insertWb (b : Wb) : List Wb → List Wb
  | [] => [b]
  | x :: xs => if b.due < x.due || (b.due == x.due && b.slot < x.slot) then b :: x :: xs else x :: insertWb b xs

/-- An effect of flushWb is due: those on registers and memory are seen from the cycle after their writeback point on (R37), a thread parks at
it, and its record may be served in that cycle (R189). -/
def Wb.isDue (now : Nat) (b : Wb) : Bool :=
  !b.act.onThread && (b.due < now || (b.due == now && match b.act with
    | .park _ _ => true
    | _ => false))

/-- Applies the effects of a core that satisfy p, by their cycles. -/
def applyWbs (core : Nat) (p : Wb → Bool) (s : State) : State :=
  let c := coreOf s core
  ((c.wb.filter p).foldl (fun l b => insertWb b l) []).foldl (applyWb core)
    (setCore s core { c with wb := c.wb.filter (fun b => !p b) })

/-- Applies every effect of a core whose writeback point has passed. -/
def flushWb (core : Nat) (s : State) : State := applyWbs core (Wb.isDue (ticksOf s core)) s

/-- The scratchpad stores of a core that write back in this cycle come before what an engine writes in it (R100). -/
def flushScratch (core : Nat) (s : State) : State :=
  applyWbs core (fun b => b.due ≤ ticksOf s core && match b.act with
    | .scratch _ _ _ _ => true
    | _ => false) s

/-! ### SBIND, QBIND, UNBIND -/

/-- Whether a binding of a shared register is on its way to its writeback point. -/
def binding (c : Core) (wide : Bool) (reg : Nat) : Bool :=
  c.wb.any fun b => match b.act with
    | .bindQueue w r => w == wide && r == reg
    | .bindStream t => wide && t.reg == reg + 16
    | _ => false

/-- Whether a v or w register field is bound (R40). -/
def isBoundV (s : State) (d : Reg) : Bool :=
  (findStream s s.cur.core s.cur.slot d.toNat).isSome ||
    (16 ≤ d.toNat && ((findQueue (curCore s) true (d.toNat - 16)).isSome || binding (curCore s) true (d.toNat - 16)))

/-- Streams that the thread holds. -/
def boundStreams (s : State) : Nat :=
  (curSlot s).streams.length + ((curCore s).wb.filter (fun b => b.slot == s.cur.slot && match b.act with
    | .bindStream _ => true
    | _ => false)).length

/-- What SBIND refuses in a descriptor (R26, R40, R88, R347). The stride fields of dimensions that are not in use are not looked
at. DESIGN CHOICE (log 50). -/
def streamOk (t : Stream) : Bool :=
  bits (t.dw 1) 10 54 == 0 && bits (t.dw 1) 3 4 != 15 && (List.range t.dims).all (fun k => t.extent k != 0) &&
    (!Fmt.isNested t.fmt ||
      (t.stride 0 == 1 && (List.range t.dims).all (fun k => k == 0 || t.stride k % 64 == 0)))

/-- SBIND (R40, R347). The binding takes effect at the writeback point. -/
def execSbind (d : Reg) (e : EReg) : State → Host.Outcome State Fault Refusal :=
  run do
    notGarnet
    let s ← get
    let n := e.toNat
    let t : Stream := { reg := d.toNat, desc := #v[eval s n, eval s (n + 1), eval s (n + 2), eval s (n + 3), eval s (n + 4)] }
    if isBoundV s d || 4 ≤ boundStreams s || !streamOk t then streamTrap d
    set (endFall 1 (addWb (wbPoint s 1) (.bindStream t) s))

/-- QBIND (R42, R340). -/
def execQbind (w : Bool) (d : Reg) : State → Host.Outcome State Fault Refusal :=
  run do
    notGarnet
    let s ← get
    let c := curCore s
    let waiting := (c.wb.filter (fun b => match b.act with
      | .bindQueue _ _ => true
      | _ => false)).length
    if d.toNat < 16 then streamTrap d
    if (w && isBoundV s d) || (findQueue c w (d.toNat - 16)).isSome || binding c w (d.toNat - 16) ||
        8 ≤ c.queues.length + waiting then streamTrap d
    set (endFall 1 (addWb (wbPoint s 1) (.bindQueue w (d.toNat - 16)) s))

/-- Whether pushes to the stream of a register field are still to be performed (R43). binder is the thread that bound it. -/
def pushesLeft (s : State) (core binder r : Nat) : Bool :=
  (slotOf s core binder).stores.any (·.stream == some r) || (coreOf s core).wb.any (fun b => b.stream == some r && (16 ≤ r || b.slot == binder)) ||
    pushAhead s core binder r

/-- UNBIND (R43, R363). DEDUCED (log 43). -/
def execUnbind (v : Bool) (d : Reg) : State → Host.Outcome State Fault Refusal :=
  run do
    notGarnet
    let s ← get
    let r := d.toNat
    match (if v then findStream s s.cur.core s.cur.slot r else none) with
    | some (k, t) => do
      if k ≠ s.cur.slot then streamTrap d
      if t.isWrite && pushesLeft s s.cur.core k r then waitFor { reason := .stream, peer := regPeer d, key := r + 1 }
      if r < 16 then
        set (endFall 1 (dropPackets s.cur.core s.cur.slot (· == r)
          (setCurSlot s { curSlot s with streams := (curSlot s).streams.filter (·.reg != r) })))
      else set (endFall 1 (addWb (wbPoint s 1) (.unbind true (r - 16)) s))
    | none => do
      if r < 16 || (findQueue (curCore s) v (r - 16)).isNone then streamTrap d
      set (endFall 1 (addWb (wbPoint s 1) (.unbind v (r - 16)) s))

/-! ### The end of a thread (R43) -/

/-- Releases the bindings of a thread that ends, and drops its effects that are on their way to threads and bindings. With abort the pushes
of others to its streams go with the task's writes. -/
def releaseBindings (core slot : Nat) (abort : Bool) (s : State) : State :=
  let c := dropQueues (coreOf s core) (·.binder == slot)
  let s' := setCore s core { c with
    wb := c.wb.filter (fun b => !(b.slot == slot && (b.act.onThread || match b.act with
      | .bindQueue _ _ | .bindStream _ | .park _ _ => true
      | _ => false))) }
  let x := slotOf s' core slot
  leaveStreams core (fun r => x.streams.any (·.reg == r)) (dropPackets core slot (fun _ => true) (setSlot s' core slot { x with
    streams := [], stores := if abort then x.stores.filter (fun e => e.ready || e.stream.isNone) else x.stores }))

/-- The slot of a thread that has ended while instructions of other slots still have pushes to its write streams to make: what they need
stays until then (R43). x is the slot as the thread left it. -/
def keepPushed (s0 : State) (core k : Nat) (x : Slot) (s : State) : State :=
  let left := x.streams.filter (fun t => t.isWrite && pushAhead s0 core k t.reg)
  if left.isEmpty then s else
  setSlot s core k { slotOf s core k with streams := left, sg := x.sg, frm := x.frm, estate := x.estate, task := x.task }

/-- Whether a slot whose thread has ended still has pushes of others to make (R43, R300). -/
def pushesHeld (s : State) (core k : Nat) : Bool :=
  let x := slotOf s core k
  !x.live && x.streams.any (fun t => pushAhead s core k t.reg)

end Sys2Proof.Machine
end

