-- ==== Sys2Proof/Machine/Fetch.lean ====
section
/-! DEFINITION. Fetching code (R38, R54 to R56, R78, R153): the bytes a core sees and the traps and waits of a fetch. -/

namespace Sys2Proof.Machine

/-- The bytes of a page that names this package as a remote target are HBM's own. -/
def codePlace (s : State) (h : Home) : Home :=
  match h with
  | .remote g p => if g = s.pkgId.toNat then .hbm p else h
  | h => h

/-- A byte of code as a core's instruction buffer shows it: the byte that stood there at the core's last dispatch, whatever
has been stored since (R78). Of a place that this package does not hold it is the byte that the first fetch since then brought.
DEDUCED (log 24). -/
def codeByte (s : State) (core : Nat) (h : Home) : Served :=
  match (coreOf s core).code.find? (·.1 == h), (s.history.drop (coreOf s core).codeSeen).find? (·.home == codePlace s h) with
  | some o, _ => .value o.2
  | none, some o => .value o.byte.toNat
  | none, none => loadHome s h 1

/-- n bytes of code from a place. -/
def codeBytes (s : State) (core : Nat) (h : Home) : Nat → Served
  | 0 => .value 0
  | n + 1 =>
    match codeByte s core h, codeBytes s core (h.shift 1) n with
    | .value b, .value r => .value (b + 256 * r)
    | .value _, r => r
    | r, _ => r

/-- The access of a fetch at an offset of sg7. -/
def fetchAccess (s : State) (off : Int) : Access := ownAccess s 7 off 2 1 true false

/-- Translates the runs of a fetch; the page needs X (R98 step 4, R112). -/
def fetchRuns (x : Access) : List (Nat × Nat) → Exec (List Piece)
  | [] => pure []
  | (va, n) :: rest => do
    let s ← get
    let r := xlate s (clusterOf x.core) x.estate va (needs false false true)
    set r.2
    match r.1 with
    | .missing level e file => pageFault x.estate va level e file 2 7
    | .page p0 p1 size =>
      if !pteX p0 then trapWith .rights (BitVec.ofNat 64 va) 0x27 7
      let ps ← fetchRuns x rest
      pure (⟨pteHome p0 p1 size va, n, none⟩ :: ps)

/-- Whether a place is one that a task not at the frontier may not reach, for a fetch (R153). -/
def farHome (h : Home) : Bool := h.sys

/-- Keeps the bytes that a fetch has brought from a place that this package does not hold (R78). -/
def keepCode (core : Nat) (h : Home) (v : Nat) (s : State) : Nat → State
  | 0 => s
  | n + 1 =>
    let c := coreOf s core
    let s' := if c.code.any (·.1 == h) then s else setCore s core { c with code := c.code ++ [(h, v % 256)] }
    keepCode core (h.shift 1) (v / 256) s' n

/-- Whether the instruction buffer holds n bytes of code of a place. -/
def codeHeld (c : Core) (h : Home) : Nat → Bool
  | 0 => true
  | n + 1 => c.code.any (·.1 == h) && codeHeld c (h.shift 1) n

/-- Brings the code of a place of another package, or of the host, under a piece of a fetch at an offset of sg7: by whole 64-byte lines,
so that no instruction within a line is a mix (R78). DEDUCED (log 24). -/
def bringCode (x : Access) (off : Nat) (p : Piece) : Exec Unit := do
  let s ← get
  let s0 := match (curSlot s).fetched.find? (·.1 == off) with
    | some f => keepCode x.core p.home.line f.2 s 64
    | none => s
  let s1 := prepare s0 p.home false
  set s1
  if needsLine s1 p.home false && !codeHeld (curCore s1) p.home p.n then
    awaitLimit [p.home]
    match p.home with
    | .remote g a => sendRemote g x.estate (threadId x.core x.slot) (.load (a / 64 * 64) 64)
    | h => askLine (threadId x.core x.slot) h false
    waitFor (loadWait p) (.fetch off p)

/-- The bytes of the pieces of a fetch, each at an offset of sg7. -/
def fetchPieces (x : Access) (off : Nat) : List Piece → Exec Nat
  | [] => pure 0
  | p :: ps => do
    if p.home.sys then bringCode x off p
    let s ← get
    let v ← match codeBytes s s.cur.core p.home p.n with
      | .value v => pure v
      | r => do
        servedTrap x x.va r
        waitFor (loadWait p)
    if p.home.sys then modify (fun s => keepCode x.core p.home v s p.n)
    let rest ← fetchPieces x (off + p.n) ps
    pure (v + rest <<< (8 * p.n))

/-- Fetches the halfword at an offset of sg7. The ADDR of a trap is the offset of the halfword that cannot be fetched. DESIGN CHOICE
(log 37). -/
def fetchHalf (off : Word) : Exec Nat := do
  let s ← get
  let x := fetchAccess s off.toNat
  if !x.seg.x || !x.spans.all (inSegment x.seg) then trapWith .segment off 7 7
  if off.toNat % 2 = 1 then trapWith .misalign off 2 7
  let ps ← match x.seg.space with
    | 0 => fetchRuns x x.runs
    | 1 => do
      checkTags x x.runs
      pure (x.runs.map fun r => ⟨.commons r.1, r.2, none⟩)
    | _ => pure (x.runs.map fun r => ⟨.scratch x.core r.1, r.2, none⟩)
  let s1 ← get
  if ps.any (fun p => farHome p.home) && !mayBeFirm s1 x.task then waitFor (firmWait s1)
  checkReach x ps
  modify fun s => { s with cur := { s.cur with sg := 7, addr := x.va } }
  fetchPieces x off.toNat ps

/-- Notes the length and the word of the instruction being fetched. -/
def setWord (w : Nat) (long : Bool) (s : State) : State := { s with cur := { s.cur with word := w, long := long } }

/-- Fetches the instruction at the PC and decodes it (R54 to R56): none when its word is undecodable. Until its first halfword is
there its length is not known, and a trap's record has LONG 0. DEDUCED (logs 20, 24), DESIGN CHOICE (log 37). -/
def fetchInstr : Exec (Option Instr) := do
  let s ← get
  let pc := (curSlot s).pc
  modify (setWord 0 false)
  let lo ← fetchHalf pc
  if lo % 2 = 0 then
    modify (setWord lo false)
    pure (match decodeShort lo with
      | .ok i => some i
      | .error _ => none)
  else
    modify (setWord lo true)
    let hi ← fetchHalf (pc + 2)
    let w := lo + 65536 * hi
    modify (setWord w true)
    pure (match decodeLong w with
      | .ok i => some i
      | .error _ => none)

end Sys2Proof.Machine
end

