-- ==== Sys2Proof/Machine/Memory.lean ====
section
/-! DEFINITION. Loads, stores, atomic operations, FENCE and the cache operations (R64 to R67, R107, R125, R273 to R277,
R302, R310 to R315, R337, R339, R352 to R354). -/

namespace Sys2Proof.Machine

/-- The effective offset of an MM access (R98, R310): an exact sum. -/
def effective (s : State) (a : Reg) (disp : BitVec 8) (scale : Nat) : Int :=
  ((gval s a).toNat : Int) + disp.toInt * ((scale : Nat) : Int)

/-- LEA (R315): a segment offset, checked against the segment and its space; the whole-dword format code gives n. -/
def execLea (d : Reg) (sg : SReg) (a : Reg) (fmt : Fmt) (disp : BitVec 8) : State → Host.Outcome State Fault Refusal :=
  run do
    useG [a] (some d)
    let s ← get
    let off := effective s a disp (Fmt.bytes fmt)
    let x := ownAccess s sg.toNat off (Fmt.bytes fmt) 1 false false
    if !inSegment x.seg (off, Fmt.bytes fmt) then trapWith .segment x.addr (BitVec.ofNat 64 sg.toNat) sg.toNat
    set (endFall 1 (putG (wbPoint s 1) d (BitVec.ofInt 64 off) s))

/-! ### Loads -/

/-- LD and LD.ACQ (R310 to R312). -/
def loadScalar (acquire : Bool) (d : Reg) (sg : SReg) (a : Reg) (fmt : Fmt) (disp : BitVec 8) : Exec Unit := do
  useG [a] (some d)
  let s ← get
  let n := Fmt.bytes fmt
  let x := ownAccess s sg.toNat (effective s a disp n) n n true false
  let ps ← checkAccess x
  let v ← loadBytes x ps (.load acquire ps (.g d fmt))
  if acquire then modify (closeCombining (threadId x.core x.slot))
  modify (fun s => endFall 1 (putG (wbPoint s 1) d (widenG fmt v) s))

/-- LD (R311). -/
def execLd (d : Reg) (sg : SReg) (a : Reg) (fmt : Fmt) (disp : BitVec 8) : State → Host.Outcome State Fault Refusal :=
  run (loadScalar false d sg a fmt disp)

/-- LD.ACQ (R312). -/
def execLdAcq (d : Reg) (sg : SReg) (a : Reg) (fmt : Fmt) (disp : BitVec 8) : State → Host.Outcome State Fault Refusal :=
  run (loadScalar true d sg a fmt disp)

/-- LD, short: LD .s64 through sg0 with disp 0 (R75, R311). -/
def execLdShort (d a : Reg) : State → Host.Outcome State Fault Refusal := run (loadScalar false d 0 a .s64 0)

/-- The access of an LDV or STV (R313, R354): a packet at an offset scaled by 64. -/
def packetAccess (s : State) (sg : SReg) (a : Reg) (fmt : Fmt) (disp : BitVec 8) (planes : Nat) (store : Bool) : Access :=
  let off := effective s a disp 64
  let x := ownAccess s sg.toNat off (Fmt.packet fmt) (packetAlign fmt) (!store) store
  if Fmt.isNested fmt then { x with spans := planeSpans fmt (segAddr x.seg off) off planes } else x

/-- The place of a push among the stores, taken when its instruction has to wait for its data (R41): its parts of DIE and PKG class
enter the buffer of the thread that bound the stream, unready. -/
def Push.reserve (p : Push) : Exec Unit := do
  let s ← get
  let b := p.bytes s 0
  let near := (writesMasked p.pieces 0 b.2.1).filter (fun w => !w.piece.home.sys && w.piece.home.cls s.cur.core != .core)
  modify (addPop p.record)
  enterStore p.binder .plain near false (segAddr p.access.seg p.access.off) p.access.stream false

/-- Loads the packet of an LDV. A wait for its reply takes the place of its push with it (R41). -/
def loadPushed (p : Option Push) (m : Exec Nat) : Exec Nat :=
  tryCatch m fun h => match p, h with
    | some p, .wait w (.load q ps dest) => do
      p.reserve
      throw (.wait w (.load q ps dest))
    | _, h => throw h

/-- LDV (R313). As a load it raises no flag and traps no ARITH, though its destination be a write stream whose push converts (R85).
DEDUCED (log 43). -/
def execLdv (d : Reg) (sg : SReg) (a : Reg) (fmt : Fmt) (disp : BitVec 8) : State → Host.Outcome State Fault Refusal :=
  run do
    useG [a] none
    reserveV d
    let s ← get
    let x := packetAccess s sg a fmt disp (niFetched fmt (curSlot s).frm) false
    let ps ← checkAccess x
    let p ← openPush d
    modify fun s => { s with cur := { s.cur with sg := x.sg, addr := x.va } }
    match p with
    | some p => awaitRoom p.binder 0
    | none => pure ()
    let v ← loadPushed p (loadBytes x ps (.load false ps (.v d fmt ((p.map (·.pieces)).getD []))))
    let y := packetOfBytes fmt (curSlot s).frm (Fmt.lanes fmt) v
    match p with
    | some p => do
      p.perform (wbPoint s 1) y 0
      modify (endFall 1)
    | none => modify (fun s => endFall 1 (putV (wbPoint s 1) d y s))

/-- LDX (R314): count consecutive dwords into e registers, all checked before any is written. -/
def execLdx (e : EReg) (cnt : BitVec 4) (sg : SReg) (a : Reg) (disp : BitVec 8) :
    State → Host.Outcome State Fault Refusal :=
  run do
    useG [a] none
    let s ← get
    let n := cnt.toNat + 1
    let off := effective s a disp 8
    let x := { ownAccess s sg.toNat off (8 * n) 8 true false with
      spans := (List.range n).map (fun (j : Nat) => (off + 8 * (j : Int), 8)) }
    let ps ← checkAccess x
    let v ← loadDwords x ps n
    modify (fun s => endFall 1 (putERun e.toNat (v.map (BitVec.ofNat 64)) s))
where
  /-- Each dword is a load of its own, in ascending order (R314). -/
  loadDwords (x : Access) (ps : List Piece) (n : Nat) : Exec (List Nat) := do
    let s ← get
    let stores := (slotOf s x.core x.slot).stores
    if ps.all (fun p => forward stores [p] == .none) then
      let v ← loadBytes x ps (.load false ps (.e e.toNat n))
      pure (cutBits 64 v n)
    else each x ps
  each (x : Access) : List Piece → Exec (List Nat)
    | [] => pure []
    | p :: ps => do
      let v ← loadBytes x [p] .none
      let rest ← each x ps
      pure (v :: rest)

/-! ### Stores -/

/-- ST and ST.REL (R352, R353). -/
def storeScalar (release : Bool) (d : Reg) (sg : SReg) (a : Reg) (fmt : Fmt) (disp : BitVec 8) : Exec Unit := do
  useG [a, d] none
  let s ← get
  let n := Fmt.bytes fmt
  let x := ownAccess s sg.toNat (effective s a disp n) n n false true
  let ps ← checkAccess x
  let ws := writesOf ps (gval s d).toNat
  storeBytes x (wbPoint s 1) .plain ws release .store
  modify (endFall 1)

/-- ST (R352). -/
def execSt (d : Reg) (sg : SReg) (a : Reg) (fmt : Fmt) (disp : BitVec 8) : State → Host.Outcome State Fault Refusal :=
  run (storeScalar false d sg a fmt disp)

/-- ST.REL (R353). -/
def execStRel (d : Reg) (sg : SReg) (a : Reg) (fmt : Fmt) (disp : BitVec 8) : State → Host.Outcome State Fault Refusal :=
  run (storeScalar true d sg a fmt disp)

/-- ST, short: ST .s64 through sg0 with disp 0 (R75, R352). -/
def execStShort (d a : Reg) : State → Host.Outcome State Fault Refusal := run (storeScalar false d 0 a .s64 0)

/-- STV (R354). -/
def execStv (d : Reg) (sg : SReg) (a : Reg) (fmt : Fmt) (disp : BitVec 8) : State → Host.Outcome State Fault Refusal :=
  run do
    useG [a] none
    openV d
    let s ← get
    let b := bytesOfPacket fmt (curSlot s).frm (Fmt.lanes fmt) (vval s d)
    let x := packetAccess s sg a fmt disp (niPlanes fmt) true
    let ps ← checkAccess x
    let flags := realFlags s (Fmt.laneBits fmt) [d] b.2.2
    checkArith flags
    let ws := writesMasked ps b.1 b.2.1
    storeBytes x (wbPoint s 1) .plain ws false (.push · (flags.foldl orFlags 0))
    modify (fun s => endFall 1 (raiseCur flags s))

/-! ### Atomic operations -/

/-- A buffered store that an AMO of a thread follows (R121, R124, R128 to R131): at the AMO's die without ar, of its scope or
overlapping it with ar, and in both cases one that a FENCE puts before it. -/
def amoBehind (ar : Bool) (scope : Scope) (core : Nat) (p : Piece) (e : StoreEntry) : Bool :=
  e.fenced (p.home.cls core) ||
    if ar then Scope.le e.cls scope || e.writes.any (writeMeets · p) else e.die == p.home.die

/-- AMO (R273 to R275): sent behind the earlier stores to its die, or with ar behind every earlier store of its scope. -/
def execAmo (op : AmoOp) (ar : Bool) (scope : Scope) (d : Reg) (sg : SReg) (a b : Reg) :
    State → Host.Outcome State Fault Refusal :=
  run do
    useG (if op = .cas then [a, b, d] else [a, b]) (some d)
    let s ← get
    let n := amoSize op
    let x := ownAccess s sg.toNat (gval s a).toNat n n true true
    let ps ← checkAccess x
    match ps with
    | [] => pure ()
    | p :: _ => do
      awaitEntries x.slot (amoBehind ar scope x.core p)
      let acquire := ar && 2 ≤ Scope.rank scope
      let pend : Pending := .amo op p (gval s b) (gval s d) d acquire
      amoSend x.core x.slot p op (gval s b) (gval s d)
      let s1 ← get
      if s1.cur.defer || needsLine s1 p.home true || readsAhead s1 x.core p then waitFor (sysWait p) pend
      let r := amoPerform op p.home (gval s1 b) (gval s1 d) s1
      servedTrap x x.va r.1
      match r.1 with
      | .value old => do
        set r.2
        modify (barLines (threadId x.core x.slot) [p.home.line])
        if acquire then modify (closeCombining (threadId x.core x.slot))
        modify (fun s => endFall 1 (putG (wbPoint s 1) d (BitVec.ofNat 64 old) s))
      | _ => waitFor (sysWait p) pend
where
  /-- Sends an AMO to another package, or asks for its COHERENT line in M. -/
  amoSend (core slot : Nat) (p : Piece) (op : AmoOp) (vb vd : Word) : Exec Unit := do
    let s ← get
    if needsLine s p.home true then
      match p.home with
      | .remote g pa => sendRemote g (curEstate s) (threadId core slot) (.amo pa op vb vd)
      | h => askLine (threadId core slot) h true

/-- AMOV (R276, R277). The space is part of check 2, after the limit; the packet is read after every check. -/
def execAmov (op : AmovOp) (ty : LaneTy) (v : Reg) (sg : SReg) (a : Reg) : State → Host.Outcome State Fault Refusal :=
  run do
    useG [a] none
    let s ← get
    let x := ownAccess s sg.toNat (gval s a).toNat 64 64 true true
    if !x.spans.all (inSegment x.seg) then trapWith .segment x.addr (BitVec.ofNat 64 sg.toNat) sg.toNat
    if x.seg.space ≠ 1 then trapWith .rights x.addr (BitVec.ofNat 64 (sg.toNat + 48)) sg.toNat
    let ps ← checkAccess x
    openV v
    let s1 ← get
    let ws := writesOf ps (vval s1 v).toNat
    enterStore x.slot (.amov op ty) ws false (segAddr x.seg x.off)
    modify (endFall 1)

/-! ### FENCE and the cache operations -/

/-- FENCE (R125, R302). -/
def execFence (kind : FenceKind) (scope : Scope) : State → Host.Outcome State Fault Refusal :=
  run do
    let s ← get
    let x := curSlot s
    if kind = .full then awaitEntries s.cur.slot (fun e => Scope.le e.cls scope)
    if kind = .rel then
      modify fun s => setCurSlot s { x with stores := x.stores.map (fun e =>
        if Scope.le e.cls scope then { e with
          barrier := some (e.barrier.getD x.storeSeq)
          fence := if e.barrier.isSome && Scope.le scope e.fence then e.fence else scope } else e) }
    if kind ≠ .rel && 2 ≤ Scope.rank scope then modify (fun s => addWb (wbPoint s 1) .acquire s)
    modify (endFall 1)

/-- PREF (R339): a fill of L2 that no load can see, so it only passes. -/
def execPref (_sg : SReg) (a : Reg) : State → Host.Outcome State Fault Refusal :=
  run do
    useG [a] none
    modify (endFall 1)

/-- The home slice and set of an HBM line (R106). -/
def lineSet (pa : Nat) : Nat × Nat × Nat :=
  (pa / 2 ^ 37 % 4, (pa / 64 % 64 + 17 * (pa / 4096 % 2 ^ 25)) % 80,
    pa / 4096 % 64 * 16 + Nat.xor (Nat.xor (pa / 2 ^ 18 % 16) (pa / 2 ^ 22 % 16)) (Nat.xor (pa / 2 ^ 26 % 16) (pa / 2 ^ 30 % 16)))

/-- The lines that any estate pins. -/
def pinnedLines (s : State) : List Nat := (s.estates.flatMap (fun e => e.2.pins)).eraseDups

/-- PIN's status and effect on an HBM line, by line number (R107, R337). A frame that the estate leaves has lost its pins: nothing is pinned
there any more. A line that meets both limits gets SET_FULL. DESIGN CHOICE
(log 52). -/
def pinLine (s : State) (est line : Nat) : Nat × State :=
  let e := estateOf s est
  let all := pinnedLines s
  if (entryOf s (parcelFrame (64 * line / 2097152))).leaving == some est then (3, s)
  else if e.pins.contains line then (0, s)
  else if !all.contains line && 12 ≤ (all.filter (fun l => lineSet (64 * l) == lineSet (64 * line))).length then (1, s)
  else if e.pinQuota < e.pins.length + 1 then (2, s)
  else (0, setEstate s est { e with pins := e.pins ++ [line] })

/-- PIN (R107, R337). -/
def execPin (d : Reg) (sg : SReg) (a : Reg) : State → Host.Outcome State Fault Refusal :=
  run do
    useG [a] (some d)
    let s ← get
    let x := ownAccess s sg.toNat (gval s a).toNat 64 64 true false
    if !x.spans.all (inSegment x.seg) then trapWith .segment x.addr (BitVec.ofNat 64 sg.toNat) sg.toNat
    if !x.seg.r then trapWith .rights x.addr (BitVec.ofNat 64 sg.toNat) sg.toNat
    if segAddr x.seg x.off % 64 ≠ 0 then trapWith .misalign x.addr 64 sg.toNat
    let home ← if x.seg.space ≠ 0 then pure none else do
      let r := xlate s (clusterOf x.core) x.estate (segAddr x.seg x.off) (needs true false false)
      set r.2
      match r.1 with
      | .missing level e file => pageFault x.estate (segAddr x.seg x.off) level e file 0 sg.toNat
      | .page p0 p1 size => pure (some (pteHome p0 p1 size (segAddr x.seg x.off)))
    match home with
    | some (.hbm p) => do
      let s1 ← get
      if s1.hbmPoison.contains (p / 64) then
        trapWith .memPoison (BitVec.ofNat 64 (segAddr x.seg x.off)) 0 sg.toNat
      if s1.cur.defer then waitFor (memWait (Home.die (.hbm p)) 0) (.pin d (p / 64))
      let r := pinLine s1 x.estate (p / 64)
      set (endFall 1 (putG (wbPoint r.2 1) d (BitVec.ofNat 64 r.1) r.2))
    | _ => modify (fun s => endFall 1 (putG (wbPoint s 1) d 3 s))

/-- UNPIN (R107, R337). It never waits and never faults: where the page is missing it does nothing. Its checks 1 and 2 are those of
a read of 64 bytes at its address. DESIGN CHOICE (log 52). -/
def execUnpin (sg : SReg) (a : Reg) : State → Host.Outcome State Fault Refusal :=
  run do
    useG [a] none
    let s ← get
    let x := ownAccess s sg.toNat (gval s a).toNat 64 64 true false
    if !x.spans.all (inSegment x.seg) then trapWith .segment x.addr (BitVec.ofNat 64 sg.toNat) sg.toNat
    if !x.seg.r then trapWith .rights x.addr (BitVec.ofNat 64 sg.toNat) sg.toNat
    let va := segAddr x.seg x.off
    if x.seg.space = 0 then
      match walk s x.estate va with
      | (.leaf _ _ p0 p1, _) =>
        match pteHome p0 p1 (pageBytes (pteSize p0)) va with
        | .hbm p => modify fun s =>
            setEstate s x.estate { estateOf s x.estate with pins := (estateOf s x.estate).pins.filter (· != p / 64) }
        | _ => pure ()
      | _ => pure ()
    modify (endFall 1)

end Sys2Proof.Machine
end

