-- ==== Sys2Proof/Machine/Reply.lean ====
section
/-! DEFINITION. The replies to accesses beyond the scratchpad (R34, R120, R122, R226 to R228, R240): what the waiting
instruction then does. -/

namespace Sys2Proof.Machine

/-- The issue state of a slot whose reply has come. -/
def issueOf (s : State) (core k : Nat) : Issue :=
  let x := slotOf s core k
  { core := core, slot := k, word := x.word, long := x.long }

/-- Goes on with the instruction in progress of slot k. A further wait keeps what the instruction has popped and reserved. In a halted
cluster everything stays as it stands (R195). -/
def resume (core k : Nat) (m : Exec Unit) (s : State) : State :=
  if s.halted.contains (clusterOf core) then s else
  match m.run { s with cur := issueOf s core k } with
  | (.ok _, s') => s'
  | (.error (.trap t), s') => trapNow t s'
  | (.error (.wait w p), s') =>
    setCurSlot s' { curSlot s' with wait := w, pend := p, accSg := s'.cur.sg, accAddr := s'.cur.addr }

/-- The same as an outcome. -/
def resumed (core k : Nat) (m : Exec Unit) (s : State) : Host.Outcome State Fault Refusal := .next (resume core k m s)

/-- An outstanding request that is an active message: it stays so until its target has answered, whether its sender still waits or not
(R225, R358). -/
def isMessage (s : State) (o : Outstanding) : Bool :=
  s.outbox.any (fun m => m.1 == o.dst && match m.2 with
    | .amsg n _ _ _ _ _ _ => n == o.seq
    | _ => false)

/-- Drops what was outstanding for the instruction. -/
def dropReads (core k : Nat) (s : State) : State :=
  { s with
    reads := s.reads.filter (fun r => !(r.core == core && r.slot == k)),
    outstanding := s.outstanding.filter (fun o =>
      o.orphan || o.copy.isSome || o.packet.isSome || o.thread != threadId core k || isMessage s o) }

/-- The instruction ends by its reply: the thread issues again from the next cycle on, and no sooner than 8 after the access
issued (R34). -/
def endReply (s : State) : State :=
  let c := s.cur.core
  let s' := dropReads c s.cur.slot s
  let x := if (curSlot s').past then curSlot s' else (curSlot s').fall (curLen s')
  setCurSlot s' { x with
    readyAt := max x.readyAt (ticksOf s' c + 1), pend := .none, wait := {}, held := [], ticket := none, fetched := [],
    past := false, rows := none }

/-- Writes the result of a reply into g[d], at the reply's own writeback cycle; a queue entry was reserved at issue (R34,
R42). -/
def deliverG (d : Reg) (v : Word) (s : State) : State :=
  let now := ticksOf s s.cur.core
  if d = 0 then s
  else if d.toNat < 16 then setCurSlot s { (curSlot s).clean false d.toNat with g := (curSlot s).g.setIfInBounds d.toNat v }
  else match (curSlot s).ticket with
    | some t => addWb now (.fill false (d.toNat - 16) t v.toNat) s
    | none => addWb now (.c (d.toNat - 16) v) s

/-- Ends the instruction in progress with g[d] := v. -/
def replyG (d : Reg) (v : Word) : Exec Unit := modify (fun s => endReply (deliverG d v s))

/-- Ends a system call, MAPF or UNMAP with its result: an acquire (R136, R322, R365). -/
def replyCall (d : Reg) (v : Word) : Exec Unit := do
  modify fun s => closeCombining (threadId s.cur.core s.cur.slot) s
  replyG d v

/-- A system call ends so: with its result, or in a trap (R253). -/
def replyCallEnd (d : Reg) : CallEnd → Exec Unit
  | .value v => replyCall d v
  | .trap t => throw (.trap t)

/-- Ends a Cadastre instruction: its status, an acquire, and the dwords of SURVEY (R168, R169, R177). The core reads its GENERATION values
anew after it (R176). -/
def replyCad (d : Reg) (status first : Nat) (out : List Word) : Exec Unit :=
  modify fun s =>
    let s1 := endReply (deliverG d (BitVec.ofNat 64 status) (putERun first out s))
    closeCombining (threadId s.cur.core s.cur.slot) (setCurCore s1 { curCore s1 with gens := [] })

/-- Gives the entries of a push in the binder's buffer their data (R41); with done they may be performed. -/
def fillStore (s : State) (core binder ticket : Nat) (ws : List Write) (done : Bool) : State :=
  let x := slotOf s core binder
  setSlot s core binder { x with stores := x.stores.map (fun e =>
    if e.seq == ticket && !e.ready then
      { e with writes := ws.filter (fun w => w.piece.die core == e.die), ready := done } else e) }

/-- The push whose SYS-class parts are performed: its other parts may be too. -/
def readyStore (s : State) (core binder ticket : Nat) : State :=
  let x := slotOf s core binder
  setSlot s core binder { x with stores := x.stores.map (fun e => if e.seq == ticket then { e with ready := true } else e) }

/-- The push that the instruction of slot k has made at issue to the stream of a register field: its binder and the stream as it
stood then (R41). -/
def heldPush (s : State) (core k r : Nat) : Option (Nat × Stream) :=
  match (slotOf s core k).held.find? (fun p => p.reg == r && p.bits == 0 && p.next != 0) with
  | some h => ((slotOf s core h.binder).streams.find? (·.reg == r)).map (fun t => (h.binder, { t with next := h.prior }))
  | none => none

/-- The data of a push come by a reply (R41): they go where its place was taken at issue. A part of SYS class is a store that the
thread waits for. When the thread that bound the stream has ended, its plat data are discarded (R300). -/
def landPush (p : Push) (ticket due : Nat) (x : Packet) : Exec Unit := do
  let s ← get
  let c := p.access.core
  let b := p.bytes s x
  let gone := !(slotOf s c p.binder).live
  let ws := (writesMasked p.pieces b.1 b.2.1).filter (fun w => !gone || w.piece.plat.isNone)
  let far := ws.filter (·.piece.home.sys)
  if ws.all (fun w => w.piece.home.cls c == .core) then modify (scratchWrites due p.access.stream ws) else
  modify fun s => fillStore s c p.binder ticket (ws.filter (fun w => !w.piece.home.sys)) far.isEmpty
  match far with
  | [] => pure ()
  | w :: _ => do
    modify fun s => { s with cur := { s.cur with sg := p.access.sg, addr := p.access.va } }
    let out := far.filter (·.piece.plat.isNone)
    requestStores p.access.estate (threadId c s.cur.slot) out
    let s1 ← get
    if out.any (away s1) then waitFor (sysWait ((out.head?.map (·.piece)).getD w.piece)) (.push far 0)
    storeSys p.access far
    modify fun s => readyStore s c p.binder ticket

/-- Puts a packet that a load has brought into V(d); push holds the pieces of its push. -/
def deliverV (d : Reg) (x : Packet) (push : List Piece) : Exec Unit := do
  let s ← get
  let c := s.cur.core
  let now := ticksOf s c
  let ticket := (curSlot s).ticket
  match push with
  | [] => modify fun s => endReply (match ticket with
    | some t => addWb now (.fill true (d.toNat - 16) t x.toNat) s
    | none =>
      if d.toNat < 16 then setCurSlot s { (curSlot s).clean true d.toNat with v := (curSlot s).v.setIfInBounds d.toNat x }
      else addWb now (.w (d.toNat - 16) x) s)
  | _ => do
    match heldPush s c s.cur.slot d.toNat with
    | some (b, t) => landPush ⟨b, t, streamAccess s c b t t.next (niPlanes t.fmt), push⟩ (ticket.getD (2 ^ 64)) now x
    | none => pure ()
    modify endReply

/-- The value of a load goes where its instruction puts it. -/
def deliver (v : Nat) : Dest → Exec Unit
  | .g d fmt => replyG d (widenG fmt v)
  | .v d fmt push => do
    let s ← get
    deliverV d (packetOfBytes fmt (curSlot s).frm (Fmt.lanes fmt) v) push
  | .e first n => modify (fun s => endReply (putERun first ((cutBits 64 v n).map (BitVec.ofNat 64)) s))

/-- Whether the SYS-class parts of the push that a load's packet goes to may be sent now (R121, R123, R225). -/
def pushMayGo (s : State) (core k : Nat) : Dest → Bool
  | .v d _ push =>
    let far := push.filter (·.home.sys)
    far.isEmpty || match heldPush s core k d.toNat with
      | some (b, _) =>
        let out := (far.filter (fun p => p.plat.isNone && needsLine s p.home true)).filterMap (fun p => requestDst s p.home)
        (slotOf s core b).stores.all (fun e => !e.ready || !(e.fenced .sys ||
          (far.any (·.plat.isSome) && e.writes.any (·.piece.plat.isSome)) || e.stream == some d.toNat)) &&
          out.all (fun d => (s.outstanding.filter (·.dst == d)).length + (out.filter (· == d)).length ≤ 1024)
      | none => true
  | _ => true

/-! ### Loads -/

/-- The line bound for a thread, if any (R120). -/
def boundLine (s : State) (core k : Nat) (h : Home) : Option Packet :=
  (s.reads.find? (fun r => r.core == core && r.slot == k && r.line == h.line)).map (·.data)

/-- The pieces of a load at its reply, the first lowest: bound lines as they were bound, what was asked of another package out of
the bits brought (of a plat line, the whole line, which fills L1), the rest as it stands. -/
def replyPieces (x : Access) : List Piece → Nat → Exec Nat
  | [], _ => pure 0
  | p :: ps, bits => do
    let s ← get
    if absent s x p then
      match p.plat with
      | some va =>
        let r := fillPlat s x.core x.estate x.task (va / 64 * 64) (bits % 2 ^ 512)
        set r.2
        match r.1 with
        | some l => do
          servedTrap x x.va (l.serve (va % 64) p.n)
          let rest ← replyPieces x ps (bits >>> 512)
          pure (lineBytes l.data (va % 64) p.n + rest <<< (8 * p.n))
        | none => trapWith .pageInvalid x.va 0 x.sg
      | none =>
        let rest ← replyPieces x ps (bits >>> (8 * p.n))
        pure (bits % 2 ^ (8 * p.n) + rest <<< (8 * p.n))
    else
      let v ← match boundLine s x.core x.slot p.home with
        | some d => pure (lineBytes d (p.home.addr % 64) p.n)
        | none => do
          let r := servePiece s x p
          set r.2
          servedTrap x x.va r.1
          match r.1 with
          | .value v => pure v
          | _ => pure 0
      let rest ← replyPieces x ps bits
      pure (v + rest <<< (8 * p.n))

/-- Whether pieces can be served: nothing is missing but what another package sends, and that has come. -/
def piecesHere (s : State) (x : Access) (ps : List Piece) (remote : Bool) : Bool :=
  ps.all fun p => !absent s x p || (remote && match p.home with
    | .remote _ _ => true
    | _ => false)

/-- Another bound read of the same die from the same home returns first (R122). -/
def notFirst (s : State) (core k : Nat) (ps : List Piece) : Bool :=
  ps.any fun p =>
    ((s.reads.takeWhile (fun r => !(r.core == core && r.slot == k))).any
      (fun r => dieOf r.core == dieOf core && r.line.die == p.home.die))

/-- Binds the lines of a PKG-class load at their home (R120). -/
def bindReads (s : State) (core k : Nat) (ps : List Piece) : Option State :=
  let lines := (ps.filter (fun p => p.plat.isNone && p.home.cls core == .pkg)).map (·.home.line)
  let rs := lines.map (fun h => (h, loadHome s h 64))
  if lines.isEmpty || s.reads.any (fun r => r.core == core && r.slot == k) then none else
  rs.foldl (fun acc r => match acc, r.2 with
    | some s', .value v => some { s' with reads := s'.reads ++ [{ core := core, slot := k, line := r.1, data := BitVec.ofNat 512 v }] }
    | _, _ => none) (some s)

/-- Combines a load with a bound read of its die (R122). -/
def combineRead (s : State) (core k c' k' : Nat) (acquire : Bool) (ps : List Piece) : Option State :=
  match ps with
  | [p] =>
    match s.reads.find? (fun r => r.core == c' && r.slot == k' && r.line == p.home.line) with
    | some r =>
      if acquire || dieOf core ≠ dieOf c' || r.barred.contains (threadId core k) || p.plat.isSome || p.home.cls core ≠ .pkg ||
          s.reads.any (fun q => q.core == core && q.slot == k) then none
      else
        let mine : BoundRead := { r with core := core, slot := k }
        some { s with reads := s.reads.flatMap (fun q => if q == r then [q, mine] else [q]) }
    | none => none
  | _ => none

/-- The places that a waiting instruction's access reaches. -/
def Pending.homes : Pending → List Home
  | .load _ ps _ | .packet _ ps _ | .operand ps => ps.map (·.home)
  | .store ws | .push ws _ => ws.map (·.piece.home)
  | .amo _ p _ _ _ _ | .fetch _ p => [p.home]
  | .pin _ line => [.hbm (64 * line)]
  | _ => []

/-- The trap that a failed remote access takes (R227, R228, R240). sent is SENT. -/
def replyTrap (x : Access) (va : Word) (sent : Bool) : Reply → Exec Unit
  | .gate cause pkg => trapWith .gate va (fabricAux cause false pkg) x.sg
  | .fabricError cause pkg => trapWith .fabricError va (fabricAux cause sent pkg) x.sg
  | .lost pkg => trapWith .fabricLost va (fabricAux 0 false pkg) x.sg
  | .poisoned => trapWith .memPoison va 1 x.sg
  | _ => pure ()

/-- An access record for an instruction whose checks are made. -/
def replyAccess (s : State) (core k : Nat) : Access :=
  let x := slotOf s core k
  { core := core, slot := k, estate := x.estate, task := x.task, sg := x.accSg, seg := { base := x.accAddr }, off := 0,
    spans := [], align := 1 }

/-- The reply of a load: v from the pieces, then where it goes. -/
def loadReply (core k : Nat) (acquire : Bool) (ps : List Piece) (bits : Nat) (f : Nat → Exec Unit) : Exec Unit := do
  let s ← get
  let x := replyAccess s core k
  let v ← replyPieces x ps bits
  modify (barLines (threadId core k) (ps.map (·.home.line)))
  if acquire then modify (closeCombining (threadId core k))
  f v

/-- The reply of a store: performed, with the flags its instruction raises; a push's other parts may be performed from now on. -/
def storeReply (core k : Nat) (ws : List Write) (flags : Nat) : Exec Unit := do
  let s ← get
  let x := replyAccess s core k
  storeSys x (ws.filter (fun w => !away s w))
  modify fun s =>
    let y := slotOf s core k
    let s1 := match y.ticket, reservedReg y.held y.pend with
      | some t, some (true, r) => (match pushedBy y.held r with
        | some b => readyStore s core b t
        | none => s)
      | _, _ => s
    endReply (raiseCur [flags] s1)

/-- An access of a thread to a place of this package that names it as a remote target was admitted by an easement that has ended since
(R182, R226). -/
def Slot.easedOut (s : State) (x : Slot) : Bool :=
  let right := match x.pend with
    | .store _ | .push _ _ => 2
    | .amo _ _ _ _ _ _ => 4
    | _ => 1
  x.live && x.pend.homes.any (fun h => match h with
    | .remote g a => g == s.pkgId.toNat && (gateCheck s (fabricName s x.estate) a right).isSome
    | _ => false)

/-- Some such access is still to be performed: REVOKE waits for it (R298). -/
def easedOut (s : State) : Bool :=
  s.cores.any (fun c => !s.halted.contains (clusterOf c.1) && c.2.slots.any (fun k => k.2.easedOut s))

/-- A place that another package answers for, by a reply to the access itself: no COHERENT and no host line, no place of this package. -/
def answeredFar (s : State) (h : Home) : Bool :=
  match h with
  | .remote g _ => g != s.pkgId.toNat
  | _ => false

/-- The packet that instructions of slot k wait for, element elem of the stream of a register field, is bound: it goes into the stream's
buffer, and the instruction issues again (R41, R120). -/
def bindPacket (core k reg elem : Nat) (ps : List Piece) (bits : Nat) : Exec Unit := do
  let s ← get
  match findStream s core k reg with
  | none => modify (reissue core k)
  | some (j, t) => do
    let y := slotOf s core j
    let v ← replyPieces { replyAccess s core k with estate := y.estate, task := y.task } ps bits
    modify fun s => dropPackets core j (· == reg) (reissue core k (
      if t.next ≠ elem then s
      else
        let p := packetOfBytes t.fmt y.frm (t.packetLen t.next) v
        setSlot s core j (mapStream (slotOf s core j) reg (fun t => { t with buffer := [p.toNat] }))))

/-- The operands of an instruction are bound: they wait for its next issue. -/
def bindOperand (core k : Nat) (ps : List Piece) (bits : Nat) : Exec Unit := do
  let s ← get
  let v ← replyPieces (replyAccess s core k) ps bits
  modify fun s =>
    let s' := reissue core k s
    setSlot s' core k { slotOf s' core k with fetched := [(2 ^ 64, v)] }

/-- A line of code has come: it waits for the next issue (R55, R78). -/
def bindCode (core k off line : Nat) (s : State) : State :=
  let f := (slotOf s core k).fetched
  let s' := reissue core k s
  setSlot s' core k { slotOf s' core k with fetched := f ++ [(off, line)] }

/-- The same of a line that this package's own cache holds by now. -/
def bindCached (core k off : Nat) (p : Piece) (s : State) : State :=
  let s1 := prepare s p.home false
  match loadHome s1 p.home.line 64 with
  | .value v => bindCode core k off v s1
  | _ => reissue core k s1

/-- What the reply does to the waiting instruction; none where this reply cannot come now. -/
def replyTo (s : State) (core k : Nat) (r : Reply) : Option (Exec Unit) :=
  let x := slotOf s core k
  let a := replyAccess s core k
  let failed : Bool := match r with
    | .gate _ _ | .fabricError _ _ | .lost _ | .poisoned => true
    | _ => false
  let far := x.wait.reason == .remote || match x.pend with
    | .packet _ _ _ => true
    | _ => false
  match x.pend with
  | .load acquire ps dest =>
    match r with
    | .home =>
      if piecesHere s a ps false && !notFirst s core k ps && pushMayGo s core k dest then
        some (loadReply core k acquire ps 0 (deliver · dest)) else none
    | .data b =>
      if far && piecesHere s a ps true && pushMayGo s core k dest then some (loadReply core k acquire ps b (deliver · dest)) else none
    | .bind => (bindReads s core k ps).map (fun s' => set { s' with cur := s.cur })
    | .combine c' k' => (combineRead s core k c' k' acquire ps).map (fun s' => set { s' with cur := s.cur })
    | _ => if far && failed then some (replyTrap a a.va false r) else none
  | .packet reg ps elem =>
    match r with
    | .home => if piecesHere s a ps false then some (bindPacket core k reg elem ps 0) else none
    | .data b => if far && piecesHere s a ps true then some (bindPacket core k reg elem ps b) else none
    | _ => if far && failed then some (replyTrap a a.va false r) else none
  | .operand ps =>
    match r with
    | .home => if piecesHere s a ps false then some (bindOperand core k ps 0) else none
    | .data b => if far && piecesHere s a ps true then some (bindOperand core k ps b) else none
    | _ => if far && failed then some (replyTrap a a.va false r) else none
  | .fetch off p =>
    match r with
    | .home => if needsLine s p.home false then none else some (modify (bindCached core k off p))
    | .data b => if far && piecesHere s a [p] true then some (modify (bindCode core k off (b % 2 ^ 512))) else none
    | _ => if far && failed then some (replyTrap a a.va false r) else none
  | .store ws | .push ws _ =>
    let flags := match x.pend with
      | .push _ f => f
      | _ => 0
    match r with
    | .home => if ws.all (fun w => !away s w) then some (storeReply core k ws flags) else none
    | .data _ =>
      if far && ws.all (fun w => !away s w || answeredFar s w.piece.home) then some (storeReply core k ws flags) else none
    | _ => if far && failed then some (replyTrap a a.va true r) else none
  | .amo op p b e d acquire =>
    let close : Exec Unit := if acquire then modify (closeCombining (threadId core k)) else pure ()
    match r with
    | .home =>
      if needsLine s p.home true || readsAhead s core p then none else some do
        let s ← get
        let res := amoPerform op p.home b e s
        servedTrap a a.va res.1
        match res.1 with
        | .value old => do
          set res.2
          modify (barLines (threadId core k) [p.home.line])
          close
          replyG d (BitVec.ofNat 64 old)
        | _ => pure ()
    | .data v => if far && answeredFar s p.home then some (do
        close
        replyG d (BitVec.ofNat 64 v)) else none
    | _ => if far && failed then some (replyTrap a a.va true r) else none
  | .pin d line =>
    match r with
    | .home => some do
        let s ← get
        let res := pinLine s x.estate line
        set res.2
        replyG d (BitVec.ofNat 64 res.1)
    | _ => none
  | .cad d _ (some st) first out wait =>
    match r with
    | .home =>
      if wait && easedOut s then none
      else some (if first = 16 then do
          modify (landImage x.pend)
          replyCad d st 0 []
        else replyCad d st first out)
    | _ => none
  | .none | .cad _ _ none _ _ _ | .amsg _ _ _ _ | .sysc _ _ _ | .mma _ _ _ _ _ _ | .seat _ _ _ | .shoot _ _ => none

/-- The threads whose access waits for a COHERENT line; a halted cluster has none that goes on. -/
def lineWaiters (s : State) (home line : Nat) : List (Nat × Nat) :=
  (s.cores.filter (fun c => !s.halted.contains (clusterOf c.1))).flatMap fun c =>
    (c.2.slots.filter (fun k => k.2.live && k.2.pend.homes.any (fun h => match h with
    | .coherent g pa => g == home && pa / 64 == line
    | _ => false))).map (fun k => (c.1, k.1))

/-- The code and AUX of the record of a remote operation that fails after its thread (R188, R196, R227). -/
def failureCode : Reply → Nat × Word
  | .gate c g => (TrapCode.gate.toNat, fabricAux c false g)
  | .fabricError c g => (TrapCode.fabricError.toNat, fabricAux c true g)
  | .lost g => (TrapCode.fabricLost.toNat, fabricAux 0 false g)
  | _ => (TrapCode.memPoison.toNat, 1)

/-- The STATUS of a copy whose access fails so (R293). -/
def replyStatus : Reply → Option Nat
  | .gate _ _ => some 0x000E
  | .fabricError _ _ => some 0x000D
  | .lost _ => some 0x0018
  | .poisoned => some 0x0010
  | _ => none

/-- What comes of a request that fails without a thread to trap: the engine operation that made it fails (R293); the thread has ended, and a
record tells of it (R196); or it is a commit's, which goes on without the line (R156). -/
def failedLate (s : State) (o : Outstanding) (r : Reply) : State :=
  match o.copy with
  | some (op, _) => (match mapFind s.ops op with
    | some eo => if s.halted.contains (clusterOf eo.core) then s else { s with ops := mapSet s.ops op { eo with failed := replyStatus r } }
    | none => s)
  | none =>
  if o.task = 0 ∧ !o.orphan then s else
  let c := failureCode r
  let core := if o.task = 0 then o.thread / 16 else (taskOf s o.task).core
  let s1 := if o.task = 0 then s else
    setTask s o.task { taskOf s o.task with refused := o.va :: (taskOf s o.task).refused }
  sinkRecord s1 core o.estate (hwRecord s1 o.estate 2 c.1 (BitVec.ofNat 64 o.va) c.2 (if o.orphan then o.thread else 0)
    (handle := if o.task = 0 then o.handle else o.task))

/-- A reply reaches a waiting thread, if it can come now. -/
def replyWaiter (r : Reply) (s : State) (w : Nat × Nat) : State :=
  match replyTo s w.1 w.2 r with
  | some m => resume w.1 w.2 m s
  | none => s

/-- Whether an outstanding request asks the steward for a COHERENT line. -/
def asksLine (home line : Nat) (o : Outstanding) : Bool :=
  o.thread != stewardThread && o.thread != putThread && o.line == some (home, line)

/-- A request for a COHERENT line fails: every access that waits for the line takes the same trap (R237, R240). -/
def failLine (s : State) (home line : Nat) (r : Reply) : State :=
  match rlcFind s (some home) line with
  | some x =>
    if !x.busy then s else
    let s0 := if x.state = .i then rlcDrop s (some home) line false
              else rlcSet s { x with busy := false, acks := 0, early := 0, grant := none }
    let gone := s0.outstanding.filter (asksLine home line)
    let s1 := gone.foldl (failedLate · · r) { s0 with outstanding := s0.outstanding.filter (fun o => !asksLine home line o) }
    (lineWaiters s1 home line).foldl (replyWaiter r) s1
  | none => s

/-- The COHERENT line that a failed access has asked for. -/
def askedLine (s : State) (p : Pending) : Option (Nat × Nat) :=
  p.homes.findSome? fun h => match h with
    | .coherent g pa => if ((rlcFind s (some g) (pa / 64)).map (·.busy)).getD false then some (g, pa / 64) else none
    | _ => none

/-- A reply that brings a failure. -/
def replyFails : Reply → Bool
  | .gate _ _ | .fabricError _ _ | .lost _ | .poisoned => true
  | _ => false

/-- The reply of package dst to a request that no thread waits for: a commit's or the hardware's, a steward's mirror or mark, one whose
thread has ended. -/
def lateReply (s : State) (dst seq : Nat) (r : Reply) : State :=
  match s.outstanding.find? (fun o => o.dst == dst && o.seq == seq && o.line.isNone &&
      (o.orphan || o.thread == noThread || o.thread == stewardThread || o.thread == scrubThread)) with
  | some o =>
    let s1 := { s with outstanding := s.outstanding.erase o }
    if replyFails r then failedLate s1 o r else s1
  | none => s

/-- An operation that is not sent, whose thread the deadline of its request stops: it is abandoned, and its reply comes to nothing
(R201). -/
def Slot.gaveUp (x : Slot) (cycle : Nat) : Bool :=
  x.request.any (fun r => decide (r.deadline ≤ cycle)) && match x.pend with
    | .load _ _ _ | .packet _ _ _ | .operand _ | .fetch _ _ | .pin _ _ => true
    | _ => false

/-- ACCESS_REPLY: the reply to the access that slot k of a core waits for (R34, R120, R122, R226 to R228, R240). A number of 1,025 or more
in place of the core names a package, 1,025 added, and that of the slot a request of this package to it, for which no thread waits. -/
def execAccessReply (core slot : Nat) (reply : Reply) (s : State) : Host.Outcome State Fault Refusal :=
  if 1024 < core then .next (lateReply s (core - 1025) slot reply)
  else if s.halted.contains (clusterOf core) then .next s
  else if (slotOf s core slot).live && !(slotOf s core slot).gaveUp s.cycle then
    match if replyFails reply then askedLine s (slotOf s core slot).pend else none with
    | some l => .next (failLine s l.1 l.2 reply)
    | none =>
      match replyTo s core slot reply with
      | some m => resumed core slot m s
      | none => .next s
  else .next s

end Sys2Proof.Machine
end

