-- ==== Sys2Proof/Machine/Tasks.lean ====
section
/-! DEFINITION. Tasks: descriptors, deques and the overflow ring (R141 to R144), the end of threads (R49, R50), abort and
abandonment (R149 to R152), admission and start (R145, R147, R148), and commit (R156). -/

namespace Sys2Proof.Machine

/-! ### Descriptors and places (R141, R142) -/

/-- The dwords of a descriptor (R141). -/
def descriptor (t : Task) : List Nat :=
  let key := t.ts % 2 ^ 40 + 2 ^ 40 * ((t.width - 1) % 128) + 2 ^ 47 * t.firm.toNat + 2 ^ 48 * (t.place % 8) + 2 ^ 56 * (t.cluster % 128)
  [t.entry.toNat, t.arg0.toNat, t.arg1.toNat, key, t.record, t.plats.length, t.handle, t.parent]

/-- A plat as it stands in memory (R137). -/
def Plat.nat (p : Plat) : Nat :=
  p.base + 2 ^ 64 * (p.units % 2 ^ 24) + 2 ^ 96 * (match p.mode with
    | .read => 0
    | .write => 1
    | .update => 2)

/-- A plat read from memory; none when it is malformed (R137). -/
def platOf (x : Nat) : Option Plat :=
  let base := x % 2 ^ 48
  let units := if x / 2 ^ 64 % 2 ^ 24 = 0 then 2 ^ 24 else x / 2 ^ 64 % 2 ^ 24
  let mode := x / 2 ^ 96 % 8
  if x / 2 ^ 48 % 2 ^ 16 != 0 || x / 2 ^ 88 % 256 != 0 || 2 ^ 99 ≤ x || 2 < mode || base % 64 != 0 || 2 ^ 48 < base + 64 * units
  then none
  else some ⟨base, units, if mode = 0 then .read else if mode = 1 then .write else .update⟩

/-- Descriptors that the overflow ring holds. -/
def ringSize (x : Estate) : Nat := x.spillSize / 4 / 64

/-- The first place of a ring of size places, from a place on, in which none of the tasks given stands: an entry that is passed over
keeps its place (R143, R144). -/
def freePlace (s : State) (queue : List Nat) (from_ size : Nat) : Nat :=
  let used := queue.map (fun h => (taskOf s h).spot)
  ((List.range (min size (used.length + 1))).map (fun i => (from_ + i) % size)).find? (fun p => !used.contains p) |>.getD (from_ % size)

/-- Puts a task at the young end of its estate's overflow ring (R142, R143): false when the ring is full or unusable. -/
def pushRing (s : State) (core : Nat) (t : Task) : Bool × State :=
  let x := estateOf s t.estate
  if ringSize x ≤ x.ring.length then (false, s) else
  let place := freePlace s x.ring x.ringNext (ringSize x)
  let va := x.spillBase + 64 * place
  match hwWrite s core t.estate va 64 (dwordsNat (descriptor t)) true 2 with
  | (true, s1) =>
    let y := estateOf s1 t.estate
    (true, setTask (setEstate s1 t.estate { y with ring := y.ring ++ [t.handle], ringNext := place + 1 }) t.handle
      { taskOf s1 t.handle with spot := place })
  | (false, s1) => (false, areaRecord s1 core t.estate va t.handle)

/-- Puts a task back in the overflow ring whatever the ring's room: no task is lost (R151, R160). Where its place cannot be
written, a record goes to the sink; the task's threads are gone by then, so none of them traps. DEDUCED (log 35). -/
def returnRing (s : State) (core : Nat) (t : Task) : State :=
  match pushRing s core t with
  | (true, s1) => s1
  | (false, s1) => setEstate s1 t.estate { estateOf s1 t.estate with ring := (estateOf s1 t.estate).ring ++ [t.handle] }

/-- Descriptors that a core's deque holds (R143). -/
def dequeSize (c : Core) : Nat := (c.dqlim.toNat - c.dqbase.toNat) / 64

/-- Moves the oldest entry of a core's deque to the overflow ring (R143). -/
def spillDeque (s : State) (core : Nat) : Bool × State :=
  let c := coreOf s core
  match c.deque with
  | [] => (true, s)
  | h :: rest =>
    match pushRing s core (taskOf s h) with
    | (true, s1) => (true, setCore s1 core { coreOf s1 core with deque := rest })
    | r => r

/-- Pushes a task at the owner end of a core's deque (R143): false when no room can be made. -/
def pushDeque (s : State) (core : Nat) (t : Task) : Bool × State :=
  let c := coreOf s core
  let size := dequeSize c
  if size = 0 then pushRing s core t else
  let r := if size ≤ c.deque.length then spillDeque s core else (true, s)
  if r.1 then
    let c1 := coreOf r.2 core
    let place := freePlace r.2 c1.deque c1.dequeNext size
    let off := c1.dqbase.toNat + 64 * place
    let s1 := storeHome r.2 (.scratch core off) 64 (dwordsNat (descriptor t)) (fullMask 64)
    let c2 := coreOf s1 core
    (true, setTask (setCore s1 core { c2 with deque := c2.deque ++ [t.handle], dequeNext := place + 1 }) t.handle
      { taskOf s1 t.handle with spot := place })
  else r

/-- Removes a task from every queue that may hold it. -/
def unqueue (s : State) (h : Nat) : State :=
  { s with
    cores := s.cores.map (fun p => (p.1, { p.2 with deque := p.2.deque.filter (· != h), shadow := p.2.shadow.filter (· != h) }))
    estates := s.estates.map (fun p => (p.1, { p.2 with ring := p.2.ring.filter (· != h) })) }

/-! ### The crew (R48 to R50) -/

/-- A phase of a barrier completes when every live thread of the crew has arrived in it (R49). -/
def completePhase (s : State) (h n : Nat) : State :=
  let t := taskOf s h
  let phase := t.barriers[n]?.getD 0
  let crew := crewSlots s h
  let arrived (x : Slot) : Bool := (x.arrived[n]?.getD none) == some phase
  if t.crew.any (· == .saved) || crew.isEmpty || !crew.all (fun x => arrived x.2.2) then s
  else setTask s h { t with barriers := t.barriers.setIfInBounds n ((phase + 1) % 65536) }

/-- The same for all four barriers. -/
def completePhases (s : State) (h : Nat) : State := (List.range 4).foldl (fun s n => completePhase s h n) s

/-- Removes the records of slot k from the keeper queue (R193). -/
def dropRecords (c : Core) (k : Nat) : Core := { c with keeperQueue := c.keeperQueue.filter (·.1 != k) }

/-- Empties a slot whose thread is gone: its bindings, what it waited for, its trap record; with plats its buffered plat
stores too, with abort also the pushes of others to its streams (R43, R151, R300). -/
def clearSlot (s : State) (core k : Nat) (plats : Bool) (abort : Bool := false) : State :=
  let s1 := releaseBindings core k abort (returnHeld s core k)
  let x := (slotOf s1 core k).emptied
  let keep := x.stores.filter (fun e => !(plats && e.writes.any (·.piece.plat.isSome)))
  let s2 := setSlot s1 core k { x with stores := keep }
  let s3 := { s2 with outstanding := s2.outstanding.map (fun o =>
    if o.thread = threadId core k ∧ !o.orphan then { o with orphan := true, handle := (slotOf s core k).task } else o) }
  let s4 := setCore s3 core (dropRecords (coreOf s3 core) k)
  if abort then s4 else keepPushed s core k (slotOf s core k) s4

/-- Whether an engine operation was issued by the thread in slot k of a core. -/
def issuedBy (s : State) (core k : Nat) (o : EngineOp) : Bool :=
  let x := slotOf s core k
  x.live && !o.orphan && o.task == x.task && (if x.task = 0 then o.core == core && o.slot == k else o.index == x.index)

/-- The engine operations of a thread that ends (R293). -/
def orphanOps (s : State) (core k : Nat) : State :=
  { s with ops := s.ops.map (fun p => (p.1, if issuedBy s core k p.2 then { p.2 with orphan := true } else p.2)) }

/-! ### Abort (R149, R151, R152) -/

/-- Frees a run of save slots (R204). -/
def freeRun (x : Estate) (r : Option (Nat × Nat)) : Estate :=
  match r with
  | some p => { x with saveRuns := x.saveRuns.filter (· != p) }
  | none => x

/-- Frees a task's spill slots, record and save run (R151, R156). -/
def freeSpill (s : State) (t : Task) (record : Bool) : State :=
  let x := freeRun (estateOf s t.estate) t.saveRun
  setEstate s t.estate { x with
    spillSlots := x.spillSlots.filter (fun k => !(t.spill.any (·.slot == k))),
    records := if record then x.records.filter (· != t.record) else x.records }

/-- Counts a task that is gone in its job (R250). -/
def countJob (s : State) (t : Task) (committed : Bool) : State :=
  match mapFind s.jobs t.root with
  | some j =>
    let j' := if committed then { j with committed := j.committed + 1 } else { j with discarded := j.discarded + 1 }
    { s with jobs := mapSet s.jobs t.root j' }
  | none => s

/-- Removes the L1 lines of a task. -/
def dropLines (s : State) (h : Nat) : State :=
  { s with cores := s.cores.map (fun p => (p.1, { p.2 with l1 := p.2.l1.filter (·.task != h) })) }

/-- Whether an engine operation of a task is in flight. -/
def opsOf (s : State) (h : Nat) : Bool := s.ops.any (·.2.task == h)

/-- The second half of an abort, once the task's engine operations have finished (R151). DEDUCED (log 35). -/
def finishAbort (s : State) (h : Nat) : State :=
  let t := taskOf s h
  if t.phase ≠ .aborting || opsOf s h then s else
  let s1 := freeSpill (dropLines s h) t (!t.requeue)
  if t.requeue then
    let t' := { t with
      phase := .queued, admission := none, stripes := 0, waiting := none, deps := [], crew := [], spill := [],
      barriers := Vector.replicate 4 0, saveRun := none, saving := [], sent := [], refused := [] }
    let s2 := setTask s1 h t'
    if t.ran && coreEstate s2 t.core == some t.estate then
      match pushDeque s2 t.core t' with
      | (true, s3) => s3
      | (false, s3) => returnRing s3 t.core t'
    else returnRing s2 t.core t'
  else
    let s2 := countJob s1 t false
    { s2 with tasks := mapErase s2.tasks h }

/-- The save slots that hold the thread records of a saved task, from a slot on: each record with its queue extensions (R204). -/
def recordSlots : List (Nat × Slot × List Queue) → Nat → List Nat
  | [], _ => []
  | m :: ms, k => k :: recordSlots ms (k + 1 + m.2.2.length)

/-- Writes 0 to the VALID of a save record. -/
def clearRecord (core est : Nat) (s : State) (k : Nat) : State :=
  let va := (estateOf s est).saveBase + 2048 * k
  match hwRead s core est va 8 true 2 with
  | (some d, s1) => (hwWrite s1 core est va 8 (d % 2 ^ 63) true 2).2
  | (none, s1) => s1

/-- Discards the save records of a task and the seat images among them: their slots hold no record, and no image of the seats
stands outside the unit (R151, R202, R206). -/
def discardRecords (s : State) (h : Nat) : State :=
  let t := taskOf s h
  match t.saveRun with
  | none => s
  | some run =>
    let s1 := (recordSlots t.saving run.1).foldl (clearRecord t.core t.estate) s
    let woken (x : Seat) : Seat := if x.suspended && x.binder.any (·.2 == h) then { x with suspended := false } else x
    { s1 with units := s1.units.map (fun u => (u.1, { u.2 with seats := u.2.seats.map (fun p => (p.1, woken p.2)) })) }

/-- A PREEMPT in progress has nothing more to wait for in a task that is gone: its request was met (R252). -/
def dropServed (s : State) (h : Nat) : State :=
  { s with queues := s.queues.map (fun q => (q.1, { q.2 with crews := q.2.crews.filter (· != h) })) }

/-- The first half of an abort: the threads stop and their state is gone (R151). -/
def stopTask (requeue : Bool) (s : State) (h : Nat) : State :=
  let s0 := discardRecords (dropServed (unqueue s h) h) h
  let s1 := (crewSlots s0 h).foldl (fun s p => clearSlot (orphanOps s p.1 p.2.1) p.1 p.2.1 true true) s0
  let t := taskOf s1 h
  let s2 := t.saving.foldl (fun s m => landImage m.2.1.pend s) s1
  finishAbort (setTask s2 h { t with phase := .aborting, requeue := requeue && t.requeue, crew := [] }) h

/-- The tasks that a set of tasks drags along: those they spawned and those that took forwarded bytes from them, again and
again (R149). fuel bounds the rounds. -/
def dependants (s : State) (set : List Nat) : Nat → List Nat
  | 0 => set
  | fuel + 1 =>
    let more := (liveTasks s).filter (fun t => !set.contains t.handle && (set.contains t.parent || t.deps.any (set.contains ·)))
    if more.isEmpty then set else dependants s (set ++ more.map (·.handle)) fuel

/-- Aborts tasks with their dependants; each whose parent is not among them is queued again (R149, R151). -/
def abortTasks (s : State) (hs : List Nat) : State :=
  let all := dependants s hs s.tasks.length
  all.foldl (fun s' h => stopTask (!all.contains (taskOf s h).parent) s' h) s

/-- Abandons a task (R50, R152): it is discarded, and what depended on it is aborted. -/
def abandonTask (s : State) (h : Nat) : State :=
  let all := dependants s [h] s.tasks.length
  all.foldl (fun s' k => stopTask (k != h && !all.contains (taskOf s k).parent) s' k) s

/-- Aborts one task and makes it run again only at the frontier (R159). -/
def abortFirm (s : State) (h : Nat) : State := abortTasks (setTask s h { taskOf s h with firm := true }) [h]

/-! ### The end of a thread (R50, R300, R358) -/

/-- When every thread of a crew has ended: finished, or abandoned when one ended by EXIT (R50). -/
def finishTask (s : State) (h : Nat) : State :=
  let t := taskOf s h
  let ended := t.crew.all (fun m => m == .done || m == .exited)
  if t.phase ≠ .running || !ended then s
  else if t.crew.any (· == .exited) then abandonTask s h
  else setTask s h { t with phase := .finished }

/-- Ends the work thread in a slot. -/
def endThread (s : State) (core k : Nat) (how : Member) : State :=
  let x := slotOf s core k
  let s1 := clearSlot (orphanOps s core k) core k (how == .exited)
  let t := taskOf s1 x.task
  let s2 := setTask s1 x.task { t with crew := t.crew.set x.index how }
  finishTask (completePhases s2 x.task) x.task

/-! ### Admission and start (R145, R147, R148) -/

/-- The stripes of a task's plats, in increasing number (R147). -/
def stripesOf (t : Task) : List Nat :=
  ascending (t.plats.flatMap (fun p => (List.range ((p.stop - 1) / 2097152 - p.base / 2097152 + 1)).map (· + p.base / 2097152)))

/-- A task has entered its last stripe (R147). -/
def isAdmitted (t : Task) : Bool := t.admission.isSome && (stripesOf t).length ≤ t.stripes

def hasStarted (t : Task) : Bool := t.phase == .running || t.phase == .saved || t.phase == .finished

/-- The start condition (R148). -/
def mayStart (s : State) (t : Task) : Bool :=
  isAdmitted t && (liveTasks s).all fun e =>
    e.handle == t.handle || !isAdmitted e || !conflicts e t ||
      (if e.ts = t.ts then !admittedBefore e t else if e.ts < t.ts then e.phase == .finished else true)

/-- On admission, later conflicting tasks that have started are aborted with their dependants (R149). -/
def onAdmitted (s : State) (h : Nat) : State :=
  let t := taskOf s h
  let late := (liveTasks s).filter (fun l => l.handle != h && hasStarted l && conflicts l t && decide (t.ts < l.ts))
  if late.isEmpty then s else abortTasks s (late.map (·.handle))

/-- A work slot free for dispatch: no thread and no buffered store (R300). -/
def slotFree (s : State) (core k : Nat) : Bool :=
  let x := slotOf s core k
  !x.live && x.stores.isEmpty && !binding x.streams
where
  binding (l : List Stream) : Bool := !l.isEmpty

/-- The notice on a core is over, so that its reversion starts (R172). DEDUCED (log 35). -/
def noticeOver (s : State) (core : Nat) : Bool :=
  let x := entryOf s (parcelCore core)
  (x.state == .reclaiming || (x.retiring && x.state != .scrubbing)) && x.deadline ≤ s.cycle

/-- Whether a core may be given work: the estate uses it, its cluster is not halted (R195) and no reversion starts (R172). -/
def coreUsable (s : State) (est core : Nat) : Bool :=
  coreEstate s core == some est && !s.halted.contains (clusterOf core) && !noticeOver s core

/-- The free work slots that a task taken by a core may reserve, in order: its own, then those of the cluster's other cores
that the estate occupies (R145 step 5). -/
def freeSlots (s : State) (est core : Nat) : List (Nat × Nat) :=
  let own := (List.range 14).filter (slotFree s core ·)
  let others := ((List.range 8).map (· + 8 * clusterOf core)).filter (fun c => c != core && coreUsable s est c)
  own.map (core, ·) ++ others.flatMap (fun c => ((List.range 14).filter (slotFree s c ·)).map (c, ·))

/-- The state of a thread at task entry (R52). -/
def entrySlot (s : State) (t : Task) (index : Nat) (old : Slot) (readyAt : Nat) : Slot :=
  let h := handlerSlot s t.estate t.entry.toNat readyAt
  { h with
    task := t.handle, index := index, posted := old.posted, storeSeq := old.storeSeq,
    g := (((h.g.set 1 t.arg0).set 2 t.arg1).set 3 (BitVec.ofNat 64 index)).set 4 (BitVec.ofNat 64 t.width) }

/-- Dispatch invalidation on one core: its clean lines in the task's READ and UPDATE ranges; and the core's instruction
buffer is refreshed and its held GENERATION values are read anew (R78, R145 step 3, R207). -/
def refreshCore (t : Task) (s : State) (core : Nat) : State :=
  let c := coreOf s core
  setCore s core { c with
    l1 := c.l1.filter (fun l => !(l.estate == t.estate && l.written == 0 &&
      t.plats.any (fun p => p.reads && p.meets ⟨l.va, 1, .read⟩)))
    slots := c.slots.map (fun k => (k.1, { k.2 with fetched := k.2.fetched.filter (·.1 == 2 ^ 64) })),
    codeSeen := s.history.length, code := [], gens := [] }

/-- The lines that the prefetcher visits: 32 KiB of the READ and UPDATE ranges, in plat order and ascending address (R145
step 4). -/
def prefetchLines (t : Task) : List Nat :=
  ((t.plats.filter (·.reads)).flatMap (fun p => (List.range (min p.units 512)).map (fun i => p.base + 64 * i))).take 512

/-- Fills one line by prefetch, when its page is VALID and local (R145 step 4). -/
def prefetch (core : Nat) (t : Task) (s : State) (va : Nat) : State :=
  match xlate s (clusterOf core) t.estate va (needs true false false) with
  | (.page p0 p1 size, s1) =>
    let h := pteHome p0 p1 size va
    match h with
    | .hbm _ => if pteOpen p0 || !pteR p0 || 1024 ≤ (coreOf s1 core).l1.length then s1 else (loadPlat s1 core t.estate t.handle va h 64).2
    | _ => s1
  | (.missing _ _ _, s1) => s1

/-- Starts a task on the slots given (R145 steps 3 to 6); for its threads the start is an acquire (R134). -/
def startTask (s : State) (core h : Nat) (slots : List (Nat × Nat)) : State :=
  let t := taskOf s h
  let cores := (slots.map (·.1)).eraseDups
  let s1 := (core :: cores).eraseDups.foldl (refreshCore t) s
  let t1 := { t with
    phase := .running, ran := true, core := core, waiting := none, crew := slots.map (fun p => .running p.1 p.2) }
  let s2 := setTask { s1 with cores := s1.cores.map (fun p => (p.1, { p.2 with shadow := p.2.shadow.filter (· != h) })) } h t1
  let s3 := (prefetchLines t).foldl (prefetch core t1) s2
  slots.zipIdx.foldl (fun s p =>
    closeCombining (threadId p.1.1 p.1.2)
      (setSlot s p.1.1 p.1.2 (entrySlot s t1 p.2 (slotOf s p.1.1 p.1.2) (ticksOf s p.1.1 + 1)))) s3

/-- The better of two tasks in shadow slots: lower timestamp, then lower admission number (R145 step 2). -/
def goesFirst (a b : Task) : Bool := a.ts < b.ts || (a.ts == b.ts && admittedBefore a b)

/-- Whether a shadow task starts now, and on which slots: not before another whose timestamp is lower and whose start condition holds
(R145 step 2). -/
def startSlots (s : State) (core h : Nat) : Option (List (Nat × Nat)) :=
  let t := taskOf s h
  let free := freeSlots s t.estate core
  let heldBack := (coreOf s core).shadow.any (fun k =>
    let u := taskOf s k
    k != h && isAdmitted u && goesFirst u t && (u.phase == .saved || mayStart s u))
  if (t.phase == .saved || (t.phase == .shadow && mayStart s t)) && t.width ≤ free.length && !heldBack && coreUsable s t.estate core then
    some (free.take t.width)
  else none

/-! ### Taking work (R144) -/

/-- A FIRM entry would be at the frontier (R144). One that keeps its admission, saved or moved (R160), yields to earlier ones alone
(R161). -/
def wouldBeAtFrontier (s : State) (t : Task) : Bool :=
  t.ts == (partOf s t.part).frontier && parentCommitted s t &&
    (liveTasks s).all (fun e => e.handle == t.handle || e.ts != t.ts || !isAdmitted e || !admittedBefore e t || !conflicts e t)

/-- Whether a core may take an entry (R144). -/
def eligible (s : State) (core h : Nat) : Bool :=
  let t := taskOf s h
  t.ts ≤ (partOf s t.part).frontier + (coreOf s core).win.toNat &&
    (match t.place with
      | 0 => t.core == core
      | 1 => clusterOf t.core == clusterOf core
      | 3 => t.cluster == clusterOf core
      | _ => true) &&
    (!t.firm || wouldBeAtFrontier s t)

/-- The cores whose thief ends a core searches: its cluster, then the rest of its die, each in ascending ID after its own
with wrap (R144). -/
def thiefOrder (core : Nat) : List Nat :=
  let near := (List.range 7).map (fun i => 8 * clusterOf core + (core + 1 + i) % 8)
  let far := ((List.range 255).map (fun i => 256 * dieOf core + (core + 1 + i) % 256)).filter (fun c => clusterOf c != clusterOf core)
  near ++ far

/-- The entry that a core takes next (R144). -/
def findWork (s : State) (core : Nat) : Option Nat :=
  match coreEstate s core with
  | none => none
  | some est =>
    if !coreUsable s est core then none else
    let own := (coreOf s core).deque.reverse.find? (eligible s core)
    let thief := (thiefOrder core).findSome? (fun c =>
      if coreEstate s c == some est then (coreOf s c).deque.find? (eligible s core) else none)
    own <|> thief <|> (estateOf s est).ring.find? (eligible s core)

/-! ### Commit (R135, R156) -/

/-- The package that a line goes to, when it is another one. -/
def commitTarget (s : State) (est va : Nat) : Option (Nat × Nat) :=
  match walk s est va with
  | (.leaf _ _ p0 p1, _) =>
    match pteHome p0 p1 (pageBytes (pteSize p0)) va with
    | .remote g a => if g = s.pkgId.toNat then none else some (g, a)
    | _ => none
  | _ => none

/-- Writes a line's written bytes to its home in this package (R156 step 1). A line whose page is gone, or of which home does not
write a part, leaves a record instead. -/
def commitLine (core est h : Nat) (s : State) (l : Nat × Packet × BitVec 64) : State :=
  match xlate s (clusterOf core) est l.1 (needs false true false) with
  | (.page p0 p1 size, s1) =>
    let home := pteHome p0 p1 size l.1
    let w : Write := ⟨⟨home, 64, none⟩, l.2.1.toNat, bitMask l.2.2.toNat 64⟩
    let s2 := prepare s1 home true
    match meetsLoss s2 w with
    | some g => lostRecord s2 core est 0 l.1 h g
    | none => if meetsPoison s2 w then poisonRecord s2 core est 0 l.1 h else storeHome s2 home 64 w.data w.mask
  | (.missing _ _ _, s1) => areaRecord s1 core est l.1 h

/-- A written line whose bytes are poisoned: it brings its poison to a home in this package, and a record tells of it (R110, R269). DESIGN
CHOICE (log 70). -/
def commitSpoilt (core est h : Nat) (s : State) (l : Nat × Packet × BitVec 64) : State :=
  let s1 := poisonRecord s core est 0 l.1 h
  match xlate s1 (clusterOf core) est l.1 (needs false true false) with
  | (.page p0 p1 size, s2) =>
    (match pteHome p0 p1 size l.1 with
    | .hbm pa => poisonHbm s2 pa
    | .remote g pa => if g = s2.pkgId.toNat then poisonHbm s2 pa else s2
    | _ => s2)
  | (.missing _ _ _, s2) => s2

/-- Sends a line to its home in another package, where the limit allows it and the line is not on its way; the leaf gets its DIRTY first
(R113, R156, R225). -/
def commitSend (h : Nat) (s : State) (l : Nat × Packet × BitVec 64) : State :=
  let t := taskOf s h
  match commitTarget s t.estate l.1 with
  | some (g, a) =>
    if t.sent.contains l.1 || full1024 s g then s else
    let s1 := (xlate s (clusterOf t.core) t.estate l.1 (needs false true false)).2
    sendRequest g t.estate { dst := g, seq := 0, thread := noThread, task := h, va := l.1 }
      (.store a 64 l.2.1.toNat (bitMask l.2.2.toNat 64)) (setTask s1 h { t with sent := l.1 :: t.sent })
  | none => s

/-- The written lines of a task, each once with the bytes that it ends with (R135, R156). DEDUCED (log 35). -/
def writtenLines (s : State) (t : Task) : List (Nat × Packet × BitVec 64) × State :=
  (((sourcesOf s t).map (·.va)).eraseDups).foldl (fun acc va =>
    match taskBytes acc.2 t.core t va with
    | (some d, s') => (acc.1 ++ [(va, d.1, d.2)], s')
    | (none, s') => (acc.1, s')) ([], s)

/-- The lines that a commit still needs before it may write them: COHERENT ones in M, those that the host holds (R237, R245). -/
def commitNeeds (s : State) (est : Nat) (ls : List (Nat × Packet × BitVec 64)) : List (Nat × Home) :=
  ls.filterMap fun l =>
    match walk s est l.1 with
    | (.leaf _ _ p0 p1, _) =>
      let h := pteHome p0 p1 (pageBytes (pteSize p0)) l.1
      match h with
      | .coherent _ _ | .hbm _ => if needsLine s h true then some (l.1, h) else none
      | .remote g _ => if g = s.pkgId.toNat && needsLine s h true then some (l.1, h) else none
      | _ => none
    | _ => none

/-- Asks for such a line on behalf of a commit. -/
def commitAsk (h : Nat) (s : State) (n : Nat × Home) : State :=
  tagged s (fun o => { o with task := h, va := n.1, estate := (taskOf s h).estate }) (requestLine noThread s n.2 true)

/-- A commit of a task is in progress: nothing interrupts it (R156). -/
def inCommit (s : State) (h : Nat) : Bool := !(taskOf s h).sent.isEmpty || s.outstanding.any (fun o => h != 0 && o.task == h)

/-- A commit of a task of some estate given is in progress. -/
def estatesCommit (s : State) (set : List Nat) : Bool := (liveTasks s).any (fun t => set.contains t.estate && inCommit s t.handle)

/-- Commit invalidation in a core's L1: lines overlapping the committed write ranges; a written line keeps its written bytes
(R156 step 3). -/
def commitInvalidate (t : Task) (c : Core) : Core :=
  let hit (l : L1Line) : Bool := l.estate == t.estate && l.task != t.handle && t.plats.any (fun p => p.writes && p.meets ⟨l.va, 1, .read⟩)
  { c with l1 := (c.l1.filter (fun l => !(hit l && l.written == 0))).map (fun l => if hit l then { l with filled := false } else l) }

/-- Whether a core holds an admitted task whose plats overlap a task's write ranges. -/
def holdsOverlap (s : State) (t : Task) (core : Nat) : Bool :=
  (liveTasks s).any fun e =>
    e.handle != t.handle && isAdmitted e && e.estate == t.estate &&
      (e.core == core || e.crew.any (fun m => match m with
        | .running c _ => c == core
        | _ => false)) &&
      t.plats.any (fun p => p.writes && e.plats.any (p.meets ·))

/-- Commit (R156). The lines whose homes are in other packages are stored there first, and the commit is complete once every such store
has been answered; a commit whose COHERENT lines are not yet here asks for them and waits. DEDUCED (log 35). -/
def commitTask (s : State) (h : Nat) : State :=
  let t := taskOf s h
  let w := writtenLines s t
  let lines := w.1.filter (fun l => !t.refused.contains l.1 && !spoilt s t l.1)
  let needs := commitNeeds w.2 t.estate lines
  if !needs.isEmpty then needs.foldl (commitAsk h) w.2 else
  let far := lines.filter (fun l => (commitTarget w.2 t.estate l.1).isSome)
  let s0 := far.foldl (commitSend h) w.2
  if s0.outstanding.any (·.task == h) || far.any (fun l => !(taskOf s0 h).sent.contains l.1) then s0 else
  let near := (lines.filter (fun l => (commitTarget s0 t.estate l.1).isNone)).foldl (commitLine t.core t.estate h) s0
  let s1 := (w.1.filter (fun l => spoilt s t l.1)).foldl (commitSpoilt t.core t.estate h) near
  let s2 := { s1 with cores := s1.cores.map (fun p => (p.1, if holdsOverlap s1 t p.1 then commitInvalidate t p.2 else p.2)) }
  let s3 := countJob (freeSpill (dropLines s2 h) t true) t true
  { s3 with tasks := mapErase s3.tasks h }

end Sys2Proof.Machine
end

