-- ==== Sys2Proof/Machine/Messages.lean ====
section
/-! DEFINITION. Active messages and the courier (R133, R225 to R231, R278, R279). -/

namespace Sys2Proof.Machine

/-! ### Answers -/

/-- What a target's answer does to the waiting sender in slot k of a core (R229, R279). The reply is an acquire (R133). -/
def answerAmsg (s : State) (core k : Nat) (a : Answer) : State :=
  let x := slotOf s core k
  match x.pend with
  | .amsg d e reply _ =>
    let target := x.wait.peer / 16384
    match a with
    | .accepted => if reply then s else resume core k (replyG d 0) s
    | .busy => resume core k (replyG d 6) s
    | .refused => resume core k (replyG d 2) s
    | .gate => resume core k (trapWith .gate 0 (fabricAux 5 false target)) s
    | .replied v => if reply then resume core k (do
        modify (fun s => putE e v (closeCombining (threadId core k) s))
        replyG d 0) s else s
    | .fabricError cause pkg => resume core k (trapWith .fabricError 0 (fabricAux cause true pkg)) s
  | _ => s

/-- Whether a slot's thread waits for the answer to message seq. -/
def awaits (x : Slot) (seq : Nat) : Bool :=
  match x.pend with
  | .amsg _ _ _ n => x.live && n == seq
  | _ => false

/-- Sends an answer to the sender of a message: to a thread of this package at once, to another package as a message. A sender
that waits no longer ignores it (R198). -/
def sendAnswer (s : State) (pkg thread seq : Nat) (a : Answer) : State :=
  if pkg = s.pkgId.toNat then
    let c := thread / 16
    let k := thread % 16
    if awaits (slotOf s c k) seq then answerAmsg s c k a
    else if awaits (slotOf s garnet thread) seq then answerAmsg s garnet thread a
    else s
  else { s with outbox := (pkg, .answer thread a) :: s.outbox }

/-! ### The ring (R230) -/

/-- Bytes of a record with argc arguments. -/
def recordBytes (argc : Nat) : Nat := 16 * ((16 + 8 * argc + 15) / 16)

/-- Dword 0 and dword 1 of a record. -/
def RingRec.header (r : RingRec) : Nat :=
  r.handler % 256 + 256 * r.args.length + boolBit r.reply 11 + boolBit (decide (0x40000 < r.off + r.bytes)) 12
where
  boolBit (b : Bool) (k : Nat) : Nat := if b then 2 ^ k else 0
def RingRec.sender (r : RingRec) : Nat := (16384 * r.pkg + r.thread) % 2 ^ 28 + 2 ^ 28 * (r.estate % 16384)

/-- Free bytes of a core's ring. -/
def ringFree (c : Core) : Nat := 16384 - (c.ring.map (·.bytes)).foldl (· + ·) 0

/-- Writes a record's 16-byte parts at the tail, wrapping at 0x40000. DEDUCED (log 44). -/
def writeRecord (core off : Nat) (data : Nat) : Nat → State → State
  | 0, s => s
  | n + 1, s =>
    let at0 := if 0x40000 ≤ off then off - 0x4000 else off
    writeRecord core (off + 16) (data / 2 ^ 128) n (storeHome s (.scratch core at0) 16 (data % 2 ^ 128) (fullMask 16))

/-- Whether a core's occupant accepts messages of a sender: its own estate of this package, or one with a MSG easement on the
CORE parcel (R182, R229). -/
def messageAllowed (s : State) (core pkg estate : Nat) : Bool :=
  match coreEstate s core with
  | some occ =>
    (pkg == s.pkgId.toNat && estate == occ) ||
      s.easements.any (fun e => e.grantor == occ && e.grantee == 16384 * pkg + estate && e.parcel == parcelCore core &&
        e.rights / 8 % 2 == 1)
  | none => false

/-- The MSG easement that would have admitted a peer's message ended with the dissolution of its grantor (R232). DEDUCED (log 34). -/
def messageVoided (s : State) (core pkg estate : Nat) : Bool :=
  pkg != s.pkgId.toNat && !messageAllowed s core pkg estate &&
    s.voided.any (fun e => e.grantee == 16384 * pkg + estate && e.parcel == parcelCore core && e.rights / 8 % 2 == 1)

/-- A message at its target core: the answer, and the record written when it is accepted (R229, R230). -/
def deliverMessage (s : State) (core : Nat) (r : RingRec) : Answer × State :=
  if messageVoided s core r.pkg r.estate then (.fabricError 4 s.pkgId.toNat, s) else
  match (entryOf s (parcelCore core)).state with
  | .scrubbing | .retired => (.refused, s)
  | _ =>
    if !messageAllowed s core r.pkg r.estate then (.gate, s) else
    let c := coreOf s core
    let n := recordBytes r.args.length
    if ringFree c < n then (.busy, s) else
    let r' := { r with off := c.ringTail, bytes := n }
    let s1 := writeRecord core c.ringTail (dwordsNat (r'.header :: r'.sender :: r'.args.map (·.toNat))) (n / 16) s
    let tail := c.ringTail + n
    (.accepted, setCore s1 core { coreOf s1 core with
      ring := (coreOf s1 core).ring ++ [r'], ringTail := if 0x40000 ≤ tail then tail - 0x4000 else tail })

/-! ### AMSG -/

/-- A slot has stores that its message must not overtake: those of the message's scope and narrower by its release (R133), wider ones
by the MSG column of their own matrix (R128 to R131). -/
def unreleased (x : Slot) : Bool := !x.stores.isEmpty

/-- AMSG and AMSG.r (R229, R279). DEDUCED (log 44). -/
def amsg (reply : Bool) (d a b : Reg) (e : EReg) : Exec Unit := do
  useG [a, b] (some d)
  let s ← get
  let name := gval s a
  let sel := gval s b
  let argc := bits sel 8 3
  if bits name 28 36 != 0 || bits name 10 4 != 0 || bits sel 11 53 != 0 || 4 < argc then illegal
  firm
  let pkg := bits name 14 14
  let core := bits name 0 10
  if full1024 s pkg && pkg != s.pkgId.toNat then
    waitFor { reason := .remote, peer := pkg, key := 1 }
  if pkg != s.pkgId.toNat then awaitEntries s.cur.slot (fun _ => true)
  let seq := (mapFind s.seqs pkg).getD 0
  let thread := threadId s.cur.core s.cur.slot
  let r : RingRec :=
    { off := 0, bytes := 0, handler := bits sel 0 8, args := eRun s e argc, estate := curEstate s, pkg := s.pkgId.toNat,
      thread := thread, seq := seq, reply := reply }
  modify fun s => { s with seqs := mapSet s.seqs pkg ((seq + 1) % 2 ^ 32) }
  let w : WaitState := { reason := .amsg, sent := true, peer := name.toNat }
  let pend : Pending := .amsg d e.toNat reply seq
  if pkg = s.pkgId.toNat && !s.cur.defer && !unreleased (curSlot s) && !s.halted.contains (clusterOf core) then
    let t ← get
    let out := deliverMessage t core r
    set out.2
    let finish (v : Nat) (s : State) : State := endFall 1 (putG (wbPoint s 1) d (BitVec.ofNat 64 v) s)
    match out.1 with
    | .accepted => if reply then waitFor w pend else modify (finish 0)
    | .busy => modify (finish 6)
    | .refused => modify (finish 2)
    | _ => trapWith .gate 0 (fabricAux 5 false pkg)
  else do
    modify fun s => { s with
      outbox := (pkg, .amsg seq (fabricName s (curEstate s)) core thread r.handler r.args reply) :: s.outbox
      outstanding := if pkg = s.pkgId.toNat then s.outstanding else s.outstanding ++ [({ dst := pkg, seq := seq, thread := thread } : Outstanding)] }
    waitFor w pend

/-- AMSG (R229). -/
def execAmsg (d a b : Reg) (e : EReg) : State → Host.Outcome State Fault Refusal := run (amsg false d a b e)

/-- AMSG.r (R229). -/
def execAmsgR (d a b : Reg) (e : EReg) : State → Host.Outcome State Fault Refusal := run (amsg true d a b e)

/-- Whether a message of a thread of this package may arrive: it is under way and what it releases has been performed (R133). Nothing
arrives in a halted cluster (R195). -/
def mayArrive (s : State) (core estate thread seq handler : Nat) (args : List Word) (reply : Bool) : Bool :=
  let under := !s.halted.contains (clusterOf core) && s.outbox.contains (s.pkgId.toNat, .amsg seq (fabricName s estate) core thread handler args reply)
  let x := if awaits (slotOf s (thread / 16) (thread % 16)) seq then slotOf s (thread / 16) (thread % 16) else slotOf s garnet thread
  under && !unreleased x

/-- The answer kept against a duplicate (R225). -/
def storedAnswer (s : State) (src seq : Nat) : Option FabricMsg :=
  (s.replies.find? (fun r => r.1 == src && r.2.1 == seq)).map (·.2.2)

/-- Keeps a reply, and the last 1,024 for each source (R225). -/
def keepReply (s : State) (src seq : Nat) (m : FabricMsg) : State :=
  let mine := (s.replies.filter (·.1 == src))
  let old := if 1024 ≤ mine.length then mine.drop (mine.length - 1023) else mine
  { s with replies := s.replies.filter (·.1 != src) ++ old ++ [(src, seq, m)] }

/-- A sequence number behind the window of a source (R225). -/
def behindWindow (s : State) (src seq : Nat) : Bool :=
  let mine := s.replies.filter (·.1 == src)
  1024 ≤ mine.length && match mine.head? with
    | some r => decide (2 ^ 31 ≤ (seq + 2 ^ 32 - r.2.1) % 2 ^ 32)
    | none => false

/-- AMSG_ARRIVE: a message of thread `thread` of an estate of package pkg reaches a core (R229, R230). A message of this
package is one that AMSG has sent; one of another package is performed once for each sequence number (R225). -/
def execAmsgArrive (core pkg estate thread seq handler : Nat) (args : List Word) (reply : Bool) (s : State) :
    Host.Outcome State Fault Refusal :=
  if 1024 ≤ core || 4 < args.length || 16384 ≤ thread || s.halted.contains (clusterOf core) then .next s else
  let r : RingRec :=
    { off := 0, bytes := 0, handler := handler, args := args, estate := estate, pkg := pkg, thread := thread, seq := seq, reply := reply }
  if pkg = s.pkgId.toNat then
    if mayArrive s core estate thread seq handler args reply then
      let s1 := { s with outbox := s.outbox.filter (· != (pkg, .amsg seq (fabricName s estate) core thread handler args reply)) }
      let out := deliverMessage s1 core r
      .next (sendAnswer out.2 pkg thread seq out.1)
    else .next s
  else match storedAnswer s pkg seq with
    | some m => .next { s with outbox := (pkg, m) :: s.outbox }
    | none =>
      if behindWindow s pkg seq then .next s else
      let out := deliverMessage s core r
      .next (sendAnswer (keepReply out.2 pkg seq (.answer thread out.1)) pkg thread seq out.1)

/-- A message to another package whose sender waits for its answer no longer: the answer, which it ignores, ends it (R198, R358). -/
def lateAnswer (s : State) (mine : Outstanding → Bool) : State :=
  match s.outstanding.find? (fun o => mine o && isMessage s o && !awaits (slotOf s (o.thread / 16) (o.thread % 16)) o.seq) with
  | some o => { s with outstanding := s.outstanding.erase o }
  | none => s

/-- AMSG_ANSWER: the answer of a core of another package reaches the sender that waits for it (R229), or one that waits no longer. A
number of 1,025 or more in place of the core names a package, 1,025 added, and that of the slot a message to it. -/
def execAmsgAnswer (core slot : Nat) (answer : Answer) (s : State) : Host.Outcome State Fault Refusal :=
  let x := slotOf s core slot
  let pkg := x.wait.peer / 16384
  if 1024 < core then .next (lateAnswer s (fun o => o.dst == core - 1025 && o.seq == slot))
  else if s.halted.contains (clusterOf core) then .next s
  else match x.pend with
    | .amsg _ _ _ seq =>
      if x.live && x.wait.reason == .amsg && pkg != s.pkgId.toNat then
        .next (answerAmsg { s with outstanding := s.outstanding.filter (fun o => !(o.dst == pkg && o.seq == seq)) } core slot answer)
      else .next s
    | _ => .next (lateAnswer s (fun o => o.thread == threadId core slot))

/-! ### The courier (R231) -/

/-- Frees a record and answers a REPLY sender. -/
def freeRecord (s : State) (core : Nat) (r : RingRec) (a : Answer) : State :=
  let s1 := setCore s core { coreOf s core with ring := (coreOf s core).ring.filter (· != r) }
  if r.reply then sendAnswer s1 r.pkg r.thread r.seq a else s1

/-- Ends the handler that the courier runs (R231). DEDUCED (log 44). -/
def endHandler (s : State) (core : Nat) (a : Answer) : State :=
  let x := slotOf s core 14
  let s1 := clearSlot (orphanOps s core 14) core 14 false
  match x.handling with
  | some r => freeRecord s1 core r a
  | none => s1

/-- The thread ends by the instruction being issued, at its writeback point (R278, R300, R358). -/
def endAt (how : WbAct) (s : State) : State :=
  let s' := addWb (wbPoint s 1) how (commitPops s)
  setCurSlot s' (paced s' 1 (curSlot s'))

/-- AMRET (R278): the reply is sent at its writeback point, when the handler's stores have been performed. -/
def execAmret (a : Reg) : State → Host.Outcome State Fault Refusal :=
  run do
    useG [a] none
    let s ← get
    let x := curSlot s
    if !isCourier s.cur.core s.cur.slot || x.handling.isNone then illegal
    match x.stores with
    | e :: _ => waitFor (memWait e.die 1)
    | [] => modify fun s => endAt (.amret (gval s a)) s

/-- COURIER_START: the courier takes the oldest record of its ring (R231); the start is an acquire (R133). The offset of its record in
the ring, which g7 gets, is an offset in the scratchpad. DESIGN CHOICE (log 68). -/
def execCourierStart (core : Nat) (s : State) : Host.Outcome State Fault Refusal :=
  let c := coreOf s core
  let x := slotOf s core 14
  match coreEstate s core, c.ring with
  | some est, r :: _ =>
    if garnet ≤ core || x.live || !x.stores.isEmpty || !x.streams.isEmpty || s.halted.contains (clusterOf core) then .next s else
    match hwRead s core est ((estateOf s est).courierTable + 8 * r.handler) 8 false 2 with
    | (none, s1) => .next (freeRecord (areaRecord s1 core est ((estateOf s1 est).courierTable + 8 * r.handler)) core r .refused)
    | (some v, s1) =>
      let entry := v % 2 ^ 48
      if entry = 0 then .next (freeRecord s1 core r .refused) else
      let h := handlerSlot s1 est entry (ticksOf s1 core)
      let arg (i : Nat) : Word := r.args[i]?.getD 0
      .next (setSlot (closeCombining (threadId core 14) s1) core 14 { h with
        g := ((((((h.g.set 1 (arg 0)).set 2 (arg 1)).set 3 (arg 2)).set 4 (arg 3)).set 5 (BitVec.ofNat 64 r.sender)).set 6
          (BitVec.ofNat 64 r.header)).set 7 (BitVec.ofNat 64 r.off),
        handling := some r, posted := x.posted, storeSeq := x.storeSeq })
  | _, _ => .next s

end Sys2Proof.Machine
end

