-- ==== Sys2Proof/Machine/Tiles.lean ====
section
/-! DEFINITION. Scratchpad tiles: the tile table, TSET and TSTAT, and the checks of the instructions that name a tile (R28,
R101 to R103, R166, R360, R361). -/

namespace Sys2Proof.Machine

/-- R101. -/
def TileState.toNat : TileState → Nat
  | .empty => 0 | .filling => 1 | .ready => 2 | .draining => 3 | .failed => 4

/-- STATE in [2:0] and STATUS in [31:16] (R103). -/
def Tile.word (t : Tile) : Word := BitVec.ofNat 64 (t.state.toNat + 65536 * (t.status % 65536))

/-- What a TILE wait waits for; kept in its key. -/
def needReady : Nat := 1
def needEmpty : Nat := 2
def needIdle : Nat := 3

/-- A TSET on the tile is on its way to its writeback point. -/
def tilePending (c : Core) (n : Nat) : Bool :=
  c.wb.any fun b => match b.act with
    | .tile m _ => m == n
    | _ => false

/-- Whether the wait of an instruction for a tile is over: it can proceed, or it traps (R102). -/
def tileWaitOver (c : Core) (n need : Nat) : Bool :=
  let t := tileOf c n
  if need = needIdle then t.state != .filling && t.state != .draining
  else !tilePending c n &&
    (t.size == 0 || t.state == .failed || (if need = needReady then t.state == .ready else t.state == .empty))

def tileWait (n need : Nat) : Exec α := waitFor { reason := .tile, peer := n, key := need }

/-- Observing a tile READY or FAILED is an acquire (R103, R132). -/
def observe (t : Tile) (s : State) : State :=
  if t.state = .ready ∨ t.state = .failed then closeCombining (threadId s.cur.core s.cur.slot) s else s

/-- Trap(TILE_STATE) (R103). -/
def tileTrap (n : Nat) (t : Tile) : Exec α := do
  modify (observe t)
  trapWith .tileState 0 (BitVec.ofNat 64 (n + 256 * t.state.toNat + 65536 * (t.status % 65536)))

/-- The tile that g[a] names for MLOADB, MMA and MDRAIN, with at least n bytes (R102). -/
def namedTile (a : Word) (n : Nat) : Exec Nat := do
  if 64 ≤ a.toNat then trapWith .tileState 0 (BitVec.ofNat 64 (a.toNat % 64 + 256 * 7))
  let s ← get
  let t := tileOf (curCore s) a.toNat
  if t.size = 0 || t.state = .failed || t.size < n then tileTrap a.toNat t
  pure a.toNat

/-- Waits until a tile is READY, or EMPTY. -/
def awaitTile (n need : Nat) : Exec Unit := do
  let s ← get
  let c := curCore s
  if !tileWaitOver c n need then tileWait n need
  modify (observe (tileOf c n))

/-- TSET's install (R101, R102): the entry, or none for BAD_ENTRY. -/
def installed (n : Nat) (d0 d1 : Word) : Option Tile :=
  let size := bits d0 18 19
  let base := bits d0 0 18
  if bits d0 59 5 = 0 ∧ bits d0 56 3 = 0 ∧ bits d0 54 2 = 0 ∧ bits d0 48 6 = n ∧ bits d0 37 11 = 0 ∧ size ≠ 0 ∧
      base % 64 = 0 ∧ base + size ≤ 0x40000 ∧ bits d1 0 16 = 0 ∧ bits d1 32 32 = 0 then
    some { size := size, base := base }
  else none

/-- TSET's status and the new entry, on a tile that is neither FILLING nor DRAINING (R102). -/
def tset (n state : Nat) (t : Tile) (d0 d1 : Word) : Nat × Option Tile :=
  match state with
  | 0 => match installed n d0 d1 with
    | some t' => (0, some t')
    | none => (1, none)
  | 2 => if t.size ≠ 0 ∧ t.state = .empty then (0, some { t with state := .ready }) else (2, none)
  | _ =>
    if t.size ≠ 0 ∧ (t.state = .empty ∨ t.state = .ready) then (0, some { t with state := .failed, status := 0x00FF })
    else (2, none)

/-- A tile as the TSETs on their way to their writeback points leave it. -/
def tileSoon (c : Core) (n : Nat) : Tile :=
  c.wb.foldl (fun t b => match b.act with
    | .tile m x => if m = n then x else t
    | _ => t) (tileOf c n)

/-- TSET (R73, R102, R360). It follows the TSETs on the same tile that issued before it. -/
def execTset (d a b : Reg) (e : EReg) : State → Host.Outcome State Fault Refusal :=
  run do
    useG [a, b] (some d)
    let s ← get
    let n := (gval s a).toNat
    let state := (gval s b).toNat
    if state ≠ 0 ∧ e ≠ 0 then illegal
    let finish (status : Nat) (s : State) : State := endFall 1 (putG (wbPoint s 1) d (BitVec.ofNat 64 status) s)
    if garnet ≤ s.cur.core || 63 < n then modify (finish 3)
    else if state = 1 || state = 3 || 4 < state then modify (finish 2)
    else do
      awaitTile n needIdle
      let r := tset n state (tileSoon (curCore s) n) (eval s e.toNat) (eval s (e.toNat + 1))
      match r.2 with
      | some t => modify (fun s => finish r.1 (addWb (wbPoint s 1) (.tile n t) s))
      | none => modify (finish r.1)

/-- TSTAT (R103, R361). -/
def execTstat (d a : Reg) : State → Host.Outcome State Fault Refusal :=
  run do
    useG [a] (some d)
    modify fun s =>
      let n := (gval s a).toNat
      if garnet ≤ s.cur.core || 63 < n then endFall 1 (putG (wbPoint s 1) d (BitVec.allOnes 64) s)
      else
        let t := tileOf (curCore s) n
        endFall 1 (putG (wbPoint s 1) d t.word (observe t s))

/-- The AUX of NOT_HELD and CADASTRE_STATE (R166). -/
def parcelAux (parcel cause : Nat) : Word := BitVec.ofNat 64 (parcel % 2 ^ 32 + 2 ^ 32 * cause)

/-! ### The ends of engine operations (R293) -/

def opOf (s : State) (op : Nat) : Option EngineOp := mapFind s.ops op

/-- The trap code of an engine STATUS, for a record in the fault sink (R293): for those that name no trap the model
chooses. DESIGN CHOICE (log 30). -/
def statusCode (status : Nat) : Nat :=
  match status with
  | 0x0010 => TrapCode.memPoison.toNat
  | 0x0011 => TrapCode.pageInvalid.toNat
  | 0x0012 => TrapCode.foreign.toNat
  | 0x0020 | 0x0021 => TrapCode.fabricError.toNat
  | 0x00FD => TrapCode.notHeld.toNat
  | 0x00FE => TrapCode.tileState.toNat
  | n => n

end Sys2Proof.Machine
end

