-- ==== Sys2Proof/Machine/Units.lean ====
section
/-! DEFINITION. The arithmetic of the Beryl units (R86, R87, R95, R206 to R218): operand rows, accumulation, the spill ring
and the drain's conversions. -/

namespace Sys2Proof.Machine

def seatOf (s : State) (u i : Nat) : Seat := (mapFind (unitOf s u).seats i).getD {}
def setSeat (s : State) (u i : Nat) (x : Seat) : State := setUnit s u { unitOf s u with seats := mapSet (unitOf s u).seats i x }
def bankOf (x : BerylUnit) (k : Nat) : Bank := (mapFind x.banks k).getD {}

/-! ### The context (R208) -/

def Seat.bhalf (x : Seat) : Nat := bits x.ctx0 22 2
def Seat.bank (x : Seat) : Nat := bits x.ctx0 21 1
def Seat.exact (x : Seat) : Bool := bits x.ctx0 20 1 == 0
def Seat.macros (x : Seat) : Nat := bits x.ctx0 16 4
def Seat.nirb (x : Seat) : Bool := bits x.ctx0 13 1 == 1
def Seat.nira (x : Seat) : Bool := bits x.ctx0 12 1 == 1
def Seat.kb (x : Seat) : Nat := bits x.ctx0 8 4
def Seat.ka (x : Seat) : Nat := bits x.ctx0 0 5
def Seat.wide (x : Seat) : Bool := bits x.ctx1 0 1 == 1

/-- Planes of an A element, and bytes of an A row (R209). -/
def Seat.aPlanes (x : Seat) : Nat := if x.wide then 16 else 8
def Seat.rowBytes (x : Seat) : Nat := if x.wide then 512 else 256

/-- A pair of context dwords that MFMT writes (R208). -/
def ctxOk (c0 c1 : Word) : Bool :=
  let x : Seat := { ctx0 := c0, ctx1 := c1 }
  bits c0 24 40 == 0 && bits c0 14 2 == 0 && bits c0 5 3 == 0 && c1.toNat < 2 && 2 ≤ x.ka && x.ka ≤ 16 &&
    (x.wide || x.ka ≤ 8) && 2 ≤ x.kb && x.kb ≤ 8 && x.macros != 0 && x.bhalf != 3

/-! ### Operands (R86, R87, R209) -/

/-- The codes of the 64 elements of a block of P planes, whose bytes are a number. -/
def blockCodes (P : Nat) (bytes : Nat) : List Nat := codesOf P (cutBits 64 bytes P) 64

/-- The 256 codes of four blocks. -/
def rowCodes (P : Nat) (bytes : Nat) : List Nat := (cutBits (64 * P) bytes 4).flatMap (blockCodes P)

/-- The A values of a row (R211). -/
def aValues (x : Seat) (bytes : Nat) : List Int := (rowCodes x.aPlanes bytes).map (prefixRead x.aPlanes x.ka x.nira false)

/-- The B values of a column (R208, R211). -/
def bValues (x : Seat) (b : Bank) (n : Nat) : List Int :=
  (rowCodes 8 (memRead b.bytes (256 * n) 256)).map (fun q =>
    let v := prefixRead 8 x.kb x.nirb (x.bhalf == 2) q
    if x.bhalf = 1 then 256 * v else v)

/-- The exact dot product. -/
def dot : List Int → List Int → Int
  | a :: as, b :: bs => a * b + dot as bs
  | _, _ => 0

/-- An integer wrapped to 40 bits. -/
def wrap40 (v : Int) : Nat := (v % ((2 ^ 40 : Nat) : Int)).toNat

/-- The signed value of a 40-bit code. -/
def signed40 (v : Nat) : Int := if 2 ^ 39 ≤ v then (v : Int) - ((2 ^ 40 : Nat) : Int) else v

/-- The new value of one accumulator: EXACT modulo 2^40, SCALED with two roundings, no flag (R95, R211). -/
def accumulate (exact : Bool) (acc : Nat) (sum : Int) (sA sB : Nat) : Nat :=
  if exact then wrap40 (signed40 acc + sum)
  else
    let scale := (decodeF fmtBF16 false sA).mul (decodeF fmtBF16 false sB)
    let p := (roundVal fmtF32 .rne false ((FVal.fin (decide (sum < 0)) sum.natAbs 0).mul scale)).1
    (addF fmtF32 .rne false acc p).1

/-- Sets an accumulator, zero being unlisted. -/
def setAcc (m : Map Nat) (k v : Nat) : Map Nat := if v = 0 then mapErase m k else mapSet m k v

/-- Adds one A row to a row of a seat's sub-tile, over the macros that take part (R211). -/
def addRow (un : BerylUnit) (x : Seat) (row : Nat) (bytes sA : Nat) : Seat :=
  let a := aValues x bytes
  let cols := (List.range 1024).filter (fun col => x.macros / 2 ^ (col / 256) % 2 == 1)
  { x with acc := cols.foldl (fun m col =>
      let b := bankOf un (2 * (col / 256) + x.bank)
      let k := row * 1024 + col
      setAcc m k (accumulate x.exact ((mapFind m k).getD 0) (dot a (bValues x b (col % 256))) sA
        (memRead b.bytes (65536 + 2 * (col % 256)) 2))) x.acc }

/-- A row meets a bank that another estate loaded (R207). -/
def foreignBank (un : BerylUnit) (x : Seat) (est : Nat) : Bool :=
  (List.range 4).any fun m => x.macros / 2 ^ m % 2 == 1 && match (bankOf un (2 * m + x.bank)).loader with
    | some l => l != est
    | none => false

/-! ### The spill ring (R218) -/

/-- A failure for which there is no issuing thread to park becomes a trap message to the cluster's Jasper; source is 16 for the Beryl
unit, 17 for the copy engine (R194). -/
def jasperMessage (s : State) (cluster source : Nat) (r : TrapRec) : State :=
  let c := coreOf s (8 * cluster)
  setCore s (8 * cluster) { c with toJasper := c.toJasper ++ [(source, r)] }

/-- The slot in which the thread that issued a row of a seat still waits for its MMA. -/
def rowWaiter (s : State) (seat : Nat) (r : SpillRow) : Option (Nat × Nat) :=
  s.cores.findSome? fun c => (c.2.slots.find? (fun k => k.2.live && k.2.task == r.task &&
      (if r.task = 0 then c.1 == r.core && k.1 == r.slot else k.2.index == r.index) && match k.2.pend with
        | .mma _ q _ _ _ _ => q == seat
        | _ => false)).map (fun k => (c.1, k.1))

/-- Two rows are of one thread. -/
def SpillRow.sameThread (a b : SpillRow) : Bool :=
  a.task == b.task && if a.task = 0 then a.core == b.core && a.slot == b.slot else a.index == b.index

/-- The slot of a row's thread where it is to issue its MMA on the seat again, parked or restored. -/
def rowOwner (s : State) (seat : Nat) (r : SpillRow) : Option (Nat × Nat) :=
  s.cores.findSome? fun c => (c.2.slots.find? (fun k => k.2.live && k.2.task == r.task &&
      (if r.task = 0 then c.1 == r.core && k.1 == r.slot else k.2.index == r.index) && k.2.rows.any (·.seat == seat))).map
    (fun k => (c.1, k.1))

/-- Changes what the hardware keeps of one saved thread beside its record. -/
def mapSavedOf (s : State) (h index : Nat) (f : Slot → Slot) : State :=
  let t := taskOf s h
  setTask s h { t with saving := t.saving.map (fun m => if m.1 = index then (m.1, f m.2.1, m.2.2) else m) }

/-- The MMA that a thread has in progress meets CAPABILITY when it issues again, if it is on the seat; its last undone rows, left in number,
count as done no longer. -/
def Slot.loseSeat (seat : Nat) (x : Slot) (left : Nat := 0) : Slot :=
  { x with rows := x.rows.map (fun r => if r.seat = seat then { r with lost := true, done := r.done - left } else r) }

/-- The MMA that a thread waits for has rows at the unit that will not be computed: left in number, the last ones done. -/
def Slot.undoRows (left : Nat) (x : Slot) : Slot :=
  match x.pend with
  | .mma tile seat rows layout done gen => { x with pend := .mma tile seat rows layout (done - left) gen }
  | _ => x

/-- A row that waited in the ring meets a foreign bank: its thread takes CAPABILITY, at once if it waits for the MMA, and when it issues it
again if it is parked, restored or saved; left counts this row and those of the MMA behind it. Without a thread that still has the MMA in
progress Jasper gets the record (R194, R207, R218). Answers whether a thread takes it. DEDUCED (log 46). -/
def ringTrap (u left : Nat) (r : SpillRow) (s : State) : Bool × State :=
  let seat := 16 * u + r.seat
  match rowWaiter s seat r with
  | some p => (true, resume p.1 p.2 (trapWith .capability 0 (BitVec.ofNat 64 seat)) (setSlot s p.1 p.2 ((slotOf s p.1 p.2).undoRows left)))
  | none =>
    match rowOwner s seat r with
    | some p => (true, setSlot s p.1 p.2 ((slotOf s p.1 p.2).loseSeat seat left))
    | none =>
      if (taskOf s r.task).saving.any (fun m => m.1 == r.index && m.2.1.rows.any (·.seat == seat)) then
        (true, mapSavedOf s r.task r.index (Slot.loseSeat seat · left))
      else (false, jasperMessage s u 16 (hwRecord s r.estate 2 TrapCode.capability.toNat 0 (BitVec.ofNat 64 seat) (threadId r.core r.slot) (handle := r.task)))

/-- Computes rows that the ring held for a seat, in arrival order; those of a thread that has trapped are done when its MMA issues
again. -/
def computeRows (u i : Nat) : List SpillRow → List SpillRow → State → State
  | [], _, s => s
  | r :: rs, gone, s =>
    let x := seatOf s u i
    if gone.any (r.sameThread ·) then computeRows u i rs gone s
    else if foreignBank (unitOf s u) x r.estate then
      let t := ringTrap u ((r :: rs).filter (r.sameThread ·)).length r s
      computeRows u i rs (if t.1 then r :: gone else gone) t.2
    else computeRows u i rs gone (setSeat s u i (addRow (unitOf s u) x r.row r.bytes r.scale))

/-- Computes the rows that the ring holds for a seat (R218). -/
def computeRing (u i : Nat) (s : State) : State :=
  let s1 := computeRows u i ((unitOf s u).ring.filter (·.seat == i)) []
    (setUnit s u { unitOf s u with ring := (unitOf s u).ring.filter (·.seat != i) })
  { s1 with cur := s.cur }

/-! ### The drain (R213) -/

/-- A signed integer as a value. -/
def intVal (v : Int) : FVal := .fin (decide (v < 0)) v.natAbs 0

/-- One element of a drain: its code and its flags. fmt is the FMT field, 0 to 4. -/
def drainElem (exact : Bool) (fmt oscale acc : Nat) : Nat × Nat :=
  let v : FVal := if exact then intVal (signed40 acc) else decodeF fmtF32 false acc
  match fmt with
  | 0 => if exact then roundVal fmtF32 .rne false v else (acc, 0)
  | 1 => let r := roundVal fmtBF16 .rne false v
         (r.1, r.2 ||| v.nv)
  | 2 => let r := roundVal fmtF16 .rne false v
         (r.1, r.2 ||| v.nv)
  | 3 => let r := toInt (-2147483648) 2147483647 v
         ((r.1 % 4294967296).toNat, r.2)
  | _ => let r := scaledToInt (-128) 127 (scaledQuot v (decodeF fmtBF16 false oscale))
         ((r.1 % 256).toNat, r.2)

/-- Bytes of a drained row (R213). -/
def drainRow (fmt : Nat) : Nat :=
  match fmt with
  | 0 | 3 => 4096
  | 1 | 2 => 2048
  | _ => 1024

/-- Cuts a list into pieces of n; fuel bounds the pieces. -/
def chunks (n : Nat) : Nat → List α → List (List α)
  | 0, _ => []
  | fuel + 1, l => if l.isEmpty then [] else l.take n :: chunks n fuel (l.drop n)

/-- The bytes of a drained row as one number, and its flags. -/
def drainBytes (x : Seat) (fmt oscale row : Nat) : Nat × Nat :=
  let r := (List.range 1024).map (fun col => drainElem x.exact fmt oscale ((mapFind x.acc (row * 1024 + col)).getD 0))
  let codes := r.map (·.1)
  let n := match fmt with
    | 0 | 3 => packLanes 32 codes
    | 1 | 2 => packLanes 16 codes
    | _ => packLanes 512 ((chunks 64 16 codes).map (fun b => packLanes 64 (planesOf b 8)))
  (n, (r.map (·.2)).foldl orFlags 0)

end Sys2Proof.Machine
end

