-- ==== Sys2Proof/Machine/Engine.lean ====
section
/-! DEFINITION. The copy engine (R132, R289 to R294). -/

namespace Sys2Proof.Machine

/-! ### The operands (R289) -/

/-- Register k of the fourteen. -/
def EngineOp.reg (o : EngineOp) (k : Nat) : Word := o.regs[k]?.getD 0
def copyFlags (r : List Word) : Word := r[2]?.getD 0
def copyTile (r : List Word) : Nat := bits (copyFlags r) 14 6
/-- TSIDE: the source is the tile. -/
def copyOut (r : List Word) : Bool := bits (copyFlags r) 13 1 == 1
def copyGather (r : List Word) : Bool := bits (copyFlags r) 12 1 == 1
def copyDims (r : List Word) : Nat := bits (copyFlags r) 9 3 + 1
def copySize (r : List Word) : Nat := match bits (copyFlags r) 6 3 with
  | 0 => 1 | 1 => 2 | 2 => 4 | 3 => 8 | 4 => 16 | _ => 64
def copyDseg (r : List Word) : Nat := bits (copyFlags r) 3 3
def copySseg (r : List Word) : Nat := bits (copyFlags r) 0 3
def copyExtent (r : List Word) (j : Nat) : Nat := bits (r[3 + j / 4]?.getD 0) (16 * (j % 4)) 16
/-- The stride of dimension j, from register 5 (source) or 9 (destination) up. -/
def copyStride (r : List Word) (first j : Nat) : Int :=
  (BitVec.ofNat 32 (bits (r[first + j / 2]?.getD 0) (32 * (j % 2)) 32)).toInt
def copyCount (r : List Word) : Nat := ((List.range (copyDims r)).map (copyExtent r)).foldl (· * ·) 1

/-- Index of dimension j of an element, dimension 0 fastest. -/
def copyIndex (r : List Word) (elem j : Nat) : Nat :=
  elem / ((List.range j).map (copyExtent r)).foldl (· * ·) 1 % max (copyExtent r j) 1

/-- The sum of index times stride. -/
def copyOffset (r : List Word) (first elem : Nat) : Int :=
  ((List.range (copyDims r)).map (fun j => (copyIndex r elem j : Int) * copyStride r first j)).foldl (· + ·) 0

/-- The bytes that a side spans, relative to its register: lowest, and one past the highest (R291). -/
def copyRange (r : List Word) (first : Nat) : Int × Int :=
  let t := (List.range (copyDims r)).map (fun j => ((copyExtent r j : Int) - 1) * copyStride r first j)
  let e : Int := ((copySize r : Nat) : Int)
  (e * (t.filter (· < 0)).foldl (· + ·) 0, e * (t.filter (0 < ·)).foldl (· + ·) 0 + e)

/-- The ILLEGAL cases (R291 step 1). -/
def copyIllegal (r : List Word) : Bool :=
  let d := copyDims r
  let used := List.range d
  let unused := (List.range 8).filter (d ≤ ·)
  bits (copyFlags r) 20 44 != 0 || 6 ≤ bits (copyFlags r) 6 3 || used.any (fun j => copyExtent r j == 0) ||
    unused.any (fun j => copyExtent r j != 0 || copyStride r 5 j != 0 || copyStride r 9 j != 0) ||
    2 ^ 24 < copyCount r || (if copyOut r then copySseg r != 0 else copyDseg r != 0) ||
    (copyGather r && (copyOut r || copyStride r 5 (d - 1) != 0))

/-! ### Issue (R291) -/

/-- Checks 4 and 5: the two ranges. -/
def copyRanges (r : List Word) (t : Tile) (n sg : Nat) (seg : Seg) (out : Bool) : Exec Unit := do
  let s ← get
  let c := curCore s
  let tileReg : Int := (((r[if out then 0 else 1]?.getD 0).toNat : Nat) : Int)
  let tr := copyRange r (if out then 5 else 9)
  let lo := tileReg + tr.1
  let hi := tileReg + tr.2
  if lo < 0 || t.size < hi || 0x3C000 < t.base + hi ||
      rangesMeet (t.base + lo.toNat) (hi - lo).toNat c.dqbase.toNat (c.dqlim.toNat - c.dqbase.toNat) then tileTrap n t
  let memReg : Int := (((r[if out then 1 else 0]?.getD 0).toNat : Nat) : Int)
  let mr := copyRange r (if out then 9 else 5)
  let table : Int := (((r[13]?.getD 0).toNat : Nat) : Int)
  let range : Int × Int :=
    if copyGather r then (table, table + 4 * copyExtent r (copyDims r - 1)) else (memReg + mr.1, memReg + mr.2)
  let addr : Word := BitVec.ofInt 64 range.1
  if seg.space = 2 then trapWith .rights addr (BitVec.ofNat 64 (sg + 48)) sg
  if out && !seg.w then trapWith .rights addr (BitVec.ofNat 64 (sg + 16)) sg
  if !out && !seg.r then trapWith .rights addr (BitVec.ofNat 64 sg) sg
  if range.1 < 0 || (seg.limit.toNat : Int) < range.2 || (spaceTop seg.space : Int) < seg.base.toNat + range.2 then
    trapWith .segment addr (BitVec.ofNat 64 sg) sg
  let e := copySize r
  if (r[0]?.getD 0).toNat % e ≠ 0 || (r[1]?.getD 0).toNat % e ≠ 0 || (t.base + tileReg.toNat) % e ≠ 0 then
    trapWith .misalign addr (BitVec.ofNat 64 e) sg
  if (r[13]?.getD 0).toNat % 4 ≠ 0 then trapWith .misalign addr 4 sg

/-- Copies of a core in flight. -/
def copiesOf (s : State) (core : Nat) : Nat := (s.ops.filter (fun p => p.2.core == core && p.2.kind == .copy)).length

/-- The number of the next engine operation. -/
def nextOp (s : State) : Nat := ((s.ops.map (·.1)).foldl max 0) + 1

/-- The scope at which issuing an engine operation releases (R132): COMMONS of the core's own die DIE, else PKG; GLOBAL SYS,
the class of every place its pages may name. DEDUCED (log 30). -/
def sideScope (core : Nat) (seg : Seg) : Scope :=
  if seg.space = 1 then (Home.commons seg.base.toNat).cls core else .sys

/-- COPY (R291). Garnet belongs to no cluster and has no installed tile: there it traps TILE_STATE (R294). DEDUCED (log 30). -/
def execCopy (e : EReg) : State → Host.Outcome State Fault Refusal :=
  run do
    let s ← get
    let r := eRun s e 14
    if copyIllegal r then illegal
    let x := curSlot s
    let engine := parcelEngine (clusterOf s.cur.core)
    if s.cur.core < garnet && !uses s x.estate engine then trapWith .notHeld 0 (parcelAux engine 6)
    let n := copyTile r
    let t := tileOf (curCore s) n
    if t.size = 0 || t.state = .failed then tileTrap n t
    let out := copyOut r
    let sg := if out then copyDseg r else copySseg r
    let seg : Seg := x.sg[sg]?.getD {}
    copyRanges r t n sg seg out
    awaitTile n (if out then needReady else needEmpty)
    if 512 ≤ copiesOf s s.cur.core then waitFor (memWait (dieOf s.cur.core) 14)
    let o : EngineOp :=
      { kind := .copy, core := s.cur.core, slot := s.cur.slot, estate := x.estate, task := x.task, tile := n, regs := r,
        sseg := seg, dseg := seg, after := x.storeSeq, scope := sideScope s.cur.core seg, index := x.index }
    modify fun s => endFall 1 { setTile s s.cur.core n { t with state := if out then .draining else .filling } with
      ops := mapSet s.ops (nextOp s) o }

/-! ### The accesses (R292, R293) -/

/-- Reports the failure of an operation whose thread has ended: a message to Jasper, and for COPY a record in the fault sink (R194, R196,
R293). DEDUCED (log 27). -/
def reportOrphan (s : State) (o : EngineOp) (status : Nat) : State :=
  let r := hwRecord s o.estate 2 (statusCode status) 0 (BitVec.ofNat 64 status) (threadId o.core o.slot) (handle := o.task)
  if o.kind = .copy then jasperMessage (sinkRecord s o.core o.estate r) (clusterOf o.core) 17 r else jasperMessage s (o.seat / 16) 16 r

/-- Ends an operation: its tile READY, or FAILED with a STATUS and, when its thread has ended, a report (R293); an abort that waited for
it goes on (R151). -/
def endOp (s : State) (op : Nat) (o : EngineOp) (status : Option Nat) : State :=
  let t := tileOf (coreOf s o.core) o.tile
  let t' : Tile := match status with
    | none => { t with state := .ready }
    | some st => { t with state := .failed, status := st }
  let s1 := { setTile s o.core o.tile t' with
    ops := mapErase s.ops op, outstanding := s.outstanding.filter (fun x => !x.copy.any (·.1 == op)) }
  let s2 := match status with
    | some st => if o.orphan then reportOrphan s1 o st else s1
    | none => s1
  if o.task = 0 then s2 else finishAbort s2 o.task

/-- The STATUS of an access that an issuing thread would trap on (R293). -/
def trapStatus : TrapCode → Nat
  | .segment => 0x0002
  | .rights => 0x0003
  | .undeclared => 0x0005
  | .platMode => 0x0006
  | .fabricError => 0x000D
  | .gate => 0x000E
  | .memPoison => 0x0010
  | .pageInvalid => 0x0011
  | .foreign => 0x0012
  | .fabricLost => 0x0018
  | _ => 0x0011

/-- What one attempt at an access comes to. -/
inductive Attempt where
  | ok (pieces : List Piece)
  | failed (status : Nat)
  | held
  | fault (token : Nat)
  deriving DecidableEq, Repr

/-- Makes the checks of an access on behalf of an engine operation. -/
def attempt (s : State) (o : EngineOp) (x : Access) : Attempt × State :=
  match (checkAccess x).run { s with cur := { core := o.core, slot := o.slot } } with
  | (.ok ps, s') => (.ok ps, s')
  | (.error (.trap t), s') => (.failed (trapStatus t.code), s')
  | (.error (.wait w _), s') => (if w.reason = .page then .fault w.peer else .held, s')

/-- The access of an engine operation to n bytes at an offset of its memory side. -/
def copyAccess (o : EngineOp) (off : Int) (n : Nat) (load : Bool) : Access :=
  let out := copyOut o.regs
  { core := o.core, slot := o.slot, estate := o.estate, task := o.task, sg := if out then copyDseg o.regs else copySseg o.regs,
    seg := o.sseg, off := off, spans := [(off, n)], align := 1, load := load, store := !load }

/-- Whether the stores that come before the operation have been performed: those of its scope and narrower by the release of
R132, wider ones by the ENG column of their own matrix (R128 to R131). -/
def released (s : State) (o : EngineOp) : Bool :=
  (slotOf s o.core o.slot).stores.all (fun e => o.after ≤ e.seq)

/-- What reading the pieces of an engine's access gives: some value, a failure, or not yet. bits are what another package has
sent. -/
inductive EngineRead where
  | value (v : Nat)
  | failed (status : Nat)
  | later
  deriving DecidableEq, Repr

/-- Asks for a COHERENT line for an element of an operation. -/
def engineLine (op elem : Nat) (o : EngineOp) (s : State) (h : Home) (store : Bool) : State :=
  tagged s (fun x => { x with copy := some (op, elem) }) (requestLine (threadId o.core o.slot) s h store)

/-- Reads pieces for an engine, the first lowest, with the bits of remote pieces consumed from the reply. -/
def engineLoad (op elem : Nat) (o : EngineOp) (x : Access) : List Piece → Option Nat → State → EngineRead × State
  | [], _, s => (.value 0, s)
  | p :: ps, reply, s =>
    let remote := absent s x p && match p.home with
      | .remote _ _ => true
      | _ => false
    let one : EngineRead × State :=
      if remote then
        match reply, p.plat with
        | some b, none => (.value (b % 2 ^ (8 * p.n)), s)
        | some b, some va =>
          match fillPlat s x.core x.estate x.task (va / 64 * 64) (b % 2 ^ 512) with
          | (some l, s1) => (if l.poison then .failed 0x0010 else .value (lineBytes l.data (va % 64) p.n), s1)
          | (none, s1) => (.failed 0x0011, s1)
        | none, _ => (.later, s)
      else if absent s x p && needsLine s p.home false then (.later, engineLine op elem o s p.home false)
      else
        let r := servePiece s x p
        match r.1 with
        | .value v => (.value v, r.2)
        | .poison _ => (.failed 0x0010, r.2)
        | .lost _ => (.failed 0x0018, r.2)
        | .unusable => (.failed 0x0011, r.2)
        | .absent => (.later, r.2)
    match one with
    | (.value v, s1) =>
      match engineLoad op elem o x ps (if remote then reply.map (· >>> (8 * (p.asked 0).2)) else reply) s1 with
      | (.value rest, s2) => (.value (v + rest <<< (8 * p.n)), s2)
      | r => r
    | r => r

/-- What the reply brings: bits, or a failure of the remote side. -/
def replyBits : Reply → Option Nat
  | .data b => some b
  | _ => none

/-- Marks an element performed; after the last one the operation ends. -/
def elementDone (s : State) (op : Nat) (o : EngineOp) (elem : Nat) : State :=
  let o' := { o with done := elem :: o.done, token := none }
  let s1 := { s with outstanding := s.outstanding.filter (fun x => !x.copy.any (fun c => c.1 == op && c.2 % 2 ^ 24 == elem)) }
  if o'.done.length = copyCount o.regs then endOp s1 op o' none else { s1 with ops := mapSet s1.ops op o' }

/-- Writes an element into memory for an engine: where a plat line finds no room, the task is aborted, or at the frontier its
thread traps (R159). The operation of a task that is aborting finishes without the lines that the abort invalidates (R151). -/
def engineStore (s : State) (op : Nat) (o : EngineOp) (elem : Nat) (ps : List Piece) (v : Nat) : State :=
  let ws := writesOf ps v
  if ws.any (fun w => away s w && match w.piece.home with
      | .coherent _ _ | .hbm _ => true
      | .remote g _ => g == s.pkgId.toNat
      | _ => false) then
    (ws.filter (away s)).foldl (fun s w => engineLine op elem o s w.piece.home true) s
  else
    match performWrites (prepareWrites s ws) o.core o.estate o.task ws with
    | (.done, s1) => elementDone s1 op o elem
    | (.full, s1) =>
      if (taskOf s1 o.task).phase = .aborting then elementDone s op o elem
      else if !atFrontier s1 o.task then abortFirm s1 o.task
      else if issuedBy s1 o.core o.slot o && (slotOf s1 o.core o.slot).wait.reason != .parked then
        parkSlot s1 o.core o.slot { code := .saveFull, aux := 1 } (slotOf s1 o.core o.slot).long
      else s1
    | (.unusable, s1) => endOp (areaRecord s1 o.core o.estate (estateOf s1 o.estate).spillBase o.task) op o (some 0x0011)

/-- Sends the requests of an element to another package, once, when the limit admits them all (R225, R226). -/
def askRemote (s : State) (op : Nat) (o : EngineOp) (elem : Nat) (ps : List Piece) (store : Option Nat) : State :=
  if o.asked.contains elem then s else
  let ws := match store with
    | some v => writesOf ps v
    | none => ps.map (fun p => ⟨p, 0, 0⟩)
  let far := ws.filter (fun w => (if store.isSome then w.piece.plat.isNone else absent s (copyAccess o 0 0 true) w.piece) && match w.piece.home with
    | .remote g _ => g != s.pkgId.toNat
    | _ => false)
  let dst (w : Write) : Option Nat := requestDst s w.piece.home
  if far.isEmpty || far.any (fun w => (dst w).any (fun d =>
      1024 < (s.outstanding.filter (·.dst == d)).length + (far.filter (fun v => dst v == some d)).length)) then s else
  let send (s : State) (w : Write) : State := match w.piece.home with
    | .remote g a =>
      sendRequest g o.estate { dst := g, seq := 0, thread := threadId o.core o.slot, copy := some (op, elem) }
        (if store.isSome then .store a w.piece.n w.data w.mask else .load (w.piece.asked a).1 (w.piece.asked a).2) s
    | _ => s
  let s1 := far.foldl send s
  { s1 with ops := mapSet s1.ops op { o with asked := elem :: o.asked } }

/-- The element's move, its offsets known: from memory into the tile, or from the tile into memory (R290). -/
def moveElement (s : State) (op : Nat) (o : EngineOp) (elem : Nat) (memOff : Int) (tileOff : Int) (reply : Reply)
    (bits : Option Nat) : State :=
  let e := copySize o.regs
  let out := copyOut o.regs
  let t := tileOf (coreOf s o.core) o.tile
  let place : Home := .scratch o.core (t.base + tileOff.toNat)
  if copyGather o.regs && (memOff < 0 || (o.sseg.limit.toNat : Int) < memOff + e) then endOp s op o (some 0x0002) else
  let x := copyAccess o memOff e (!out)
  let stuck (s1 : State) (token : Option Nat) : State := { s1 with ops := mapSet s1.ops op { o with token := token } }
  match attempt s o x with
  | (.failed st, s1) => endOp s1 op o (some st)
  | (.held, s1) => if (taskOf s1 o.task).phase = .aborting then endOp s1 op o (some 0x00FE) else s1
  | (.fault k, s1) => stuck s1 (some k)
  | (.ok ps, s1) =>
    match replyStatus reply with
    | some st => if ps.any (fun p => farHome p.home) then endOp s1 op o (some st) else s1
    | none =>
      if out then
        match loadHome s1 place e with
        | .value v =>
          let sent := ps.any (fun p => p.plat.isNone && match p.home with
            | .remote g _ => g != s1.pkgId.toNat
            | _ => false)
          if sent && (bits.isNone || !o.asked.contains elem) then askRemote s1 op o elem ps (some v) else engineStore s1 op o elem ps v
        | _ => endOp s1 op o (some 0x0010)
      else
        match engineLoad op elem o x ps (if o.asked.contains elem then bits else none) s1 with
        | (.value v, s2) => elementDone (storeHome s2 place e v (fullMask e)) op o elem
        | (.failed st, s2) => endOp s2 op o (some st)
        | (.later, s2) => askRemote s2 op o elem ps none

/-- One element access of a copy (R290, R292): under GATHER its table entry is read first. -/
def copyElement (s : State) (op : Nat) (o : EngineOp) (elem : Nat) (reply : Reply) : State :=
  let r := o.regs
  let e : Int := ((copySize r : Nat) : Int)
  let out := copyOut r
  let memReg : Int := ((o.reg (if out then 1 else 0)).toNat : Int)
  let tileOff : Int := ((o.reg (if out then 0 else 1)).toNat : Int) + e * copyOffset r (if out then 5 else 9) elem
  let plain := copyOffset r (if out then 9 else 5) elem
  if copyGather r then
    let last := copyDims r - 1
    let x := copyAccess o (((o.reg 13).toNat : Int) + 4 * copyIndex r elem last) 4 true
    match attempt s o x with
    | (.failed st, s1) => endOp s1 op o (some st)
    | (.held, s1) => if (taskOf s1 o.task).phase = .aborting then endOp s1 op o (some 0x00FE) else s1
    | (.fault k, s1) => { s1 with ops := mapSet s1.ops op { o with token := some k } }
    | (.ok ps, s1) =>
      match replyStatus reply with
      | some st => if ps.any (fun p => farHome p.home) then endOp s1 op o (some st)
                   else moveElement s1 op o elem memReg tileOff reply none
      | none =>
        match engineLoad op (elem + 2 ^ 24) o x ps (if o.asked.contains (elem + 2 ^ 24) then replyBits reply else none) s1 with
        | (.value idx, s2) =>
          let far := ps.any (fun p => farHome p.home)
          moveElement s2 op o elem (memReg + e * (plain + (idx : Int))) tileOff reply
            ((replyBits reply).map (fun b => if far then b >>> 32 else b))
        | (.failed st, s2) => endOp s2 op o (some st)
        | (.later, s2) => askRemote s2 op o (elem + 2 ^ 24) ps none
  else moveElement s op o elem (memReg + e * plain) tileOff reply (replyBits reply)

/-! ### Confidential I/O (R257) -/

/-- The offset in the source segment of an element of a copy into a tile; under GATHER as the table stands (R290). -/
def sourceOffset (s : State) (o : EngineOp) (i : Nat) : Option Int :=
  let r := o.regs
  let plain : Int := ((o.reg 0).toNat : Int) + copySize r * copyOffset r 5 i
  if !copyGather r then some plain else
  let x := copyAccess o (((o.reg 13).toNat : Int) + 4 * copyIndex r i (copyDims r - 1)) 4 true
  match attempt s o x with
  | (.ok ps, s1) =>
    match (engineLoad 0 0 o x ps none s1).1 with
    | .value idx => some (plain + copySize r * (idx : Int))
    | _ => none
  | _ => none

/-- Whether an element still to come of a copy into a tile comes from the host window. -/
def readsHost (s : State) (o : EngineOp) : Bool :=
  o.kind == .copy && !copyOut o.regs && o.sseg.space == 0 && (List.range (copyCount o.regs)).any (fun i =>
    !o.done.contains i && match sourceOffset s o i with
      | some off =>
        (match walk s o.estate (segAddr o.sseg off) with
          | (.leaf _ _ _ p1, _) => pteTarget p1 == 1
          | _ => false)
      | none => false)

/-- Plaintext of a TDI in RUN would go to a core that an estate of another partition holds (R257). DESIGN CHOICE (log 29): the core's parcel
stands for the frame that the rule names. -/
def foreignPlain (s : State) (o : EngineOp) : Bool :=
  let p := (estateOf s o.estate).part
  (partOf s p).tdisp.state == .run && (estateOf s (entryOf s (parcelCore o.core)).holder).part != p && readsHost s o

/-- COPY_ACCESS: the engine makes an element access that is not yet performed. reply is what another package answers, where
the access reaches one (R292, R293). -/
def execCopyAccess (op elem : Nat) (reply : Reply) (s : State) : Host.Outcome State Fault Refusal :=
  match opOf s op with
  | some o =>
    if o.kind ≠ .copy || copyCount o.regs ≤ elem || o.done.contains elem || !released s o ||
        s.halted.contains (clusterOf o.core) || (o.token.any (fun k => s.faults.any (fun f => f.estate == o.estate && f.token == k)))
    then .next s
    else if o.failed.isSome then .next (endOp s op o o.failed)
    else if foreignPlain s o then .next (endOp s op o (some 0x0021))
    else if o.done.isEmpty && !uses s o.estate (parcelEngine (clusterOf o.core)) then .next (endOp s op o (some 0x00FD))
    else .next (copyElement (flushScratch o.core s) op o elem reply)
  | none => .next s

end Sys2Proof.Machine
end

