-- ==== Sys2Proof/Machine/Save.lean ====
section
/-! DEFINITION. Pre-emption requests, saving a crew and restoring it (R199 to R205, R216, R217). -/

namespace Sys2Proof.Machine

/-! ### Requests (R199) -/

/-- A request reaches every work thread of a core's crews; a second one keeps the earlier deadline. -/
def requestCrew (deadline source : Nat) (s : State) (h : Nat) : State :=
  (crewSlots s h).foldl (fun s p =>
    let x := slotOf s p.1 p.2.1
    let r : Request := match x.request with
      | some r => if r.deadline ≤ deadline then r else ⟨deadline, source⟩
      | none => ⟨deadline, source⟩
    setSlot s p.1 p.2.1 { x with request := some r }) s

/-- The tasks that have a thread on a core. -/
def tasksOn (s : State) (core : Nat) : List Nat :=
  ((coreOf s core).slots.filterMap (fun p => if p.2.live && p.2.task != 0 then some p.2.task else none)).eraseDups

/-- A request to every crew that has a thread on a core (R199). -/
def requestCore (deadline source : Nat) (s : State) (core : Nat) : State :=
  (tasksOn s core).foldl (requestCrew deadline source) s

/-- A thread that may not issue: the deadline of its request has come (R201). -/
def Slot.pastDeadline (x : Slot) (cycle : Nat) : Bool :=
  match x.request with
  | some r => decide (r.deadline ≤ cycle)
  | none => false

/-! ### Settling what is in flight (R201) -/

/-- What a save abandons (R201): an operation that was not sent, or an instruction that the save takes past. -/
def abandoned : Pending → Bool
  | .load _ _ _ | .packet _ _ _ | .operand _ | .fetch _ _ | .pin _ _ | .seat _ _ _ | .cad _ _ _ _ _ _ | .sysc _ _ _ => true
  | _ => false

/-- Whether an unfilled entry of a queue will be filled without the save's doing (R44): its value is on its way to the writeback
point, or a thread that the save does not abandon waits for it. -/
def fillComes (s : State) (core h : Nat) (q : Queue) (ticket : Nat) : Bool :=
  (coreOf s core).wb.any (fun b => match b.act with
    | .fill w r t _ => w == q.wide && r == q.reg && t == ticket
    | _ => false) ||
  (coreOf s core).slots.any (fun p => p.2.live && p.2.ticket == some ticket && !(p.2.task == h && abandoned p.2.pend) &&
    reservedReg p.2.held p.2.pend == some (q.wide, q.reg + 16))

/-- Whether a push of a thread that the save does not abandon is still to come to a stream that slot k bound. -/
def pushComes (s : State) (core k h : Nat) : Bool :=
  (coreOf s core).slots.any (fun p => p.2.live && !(p.2.task == h && abandoned p.2.pend) && match p.2.pend with
    | .push _ _ | .load _ _ (.v _ _ _) => p.2.held.any (fun q => q.bits == 0 && q.next != 0 && q.binder == k)
    | _ => false)

/-- Whether nothing is left that the save must await: an operation sent that is neither a system call, a Cadastre
instruction nor the rows of an MMA still to come, a shootdown, an effect before its writeback point, a push into what the thread
bound, a store whose line is away (R44, R201). -/
def settled (s : State) (core k : Nat) : Bool :=
  let x := slotOf s core k
  (match x.pend with
    | .store _ | .push _ _ | .amo _ _ _ _ _ _ | .amsg _ _ _ _ | .shoot _ _ => false
    | _ => true) &&
  !(coreOf s core).wb.any (fun b => b.slot == k && ticksOf s core ≤ b.due) &&
  (coreOf s core).queues.all (fun q => q.binder != k || q.entries.all (fun e => e.value.isSome || !fillComes s core x.task q e.ticket)) &&
  !pushComes s core k x.task && x.stores.all (fun e => e.writes.all (fun w => !away s w))

/-- Performs what is left in a slot's store buffer, in order. -/
def drainStores (core k : Nat) : Nat → State → Performed × State
  | 0, s => (.done, s)
  | fuel + 1, s =>
    match (slotOf s core k).stores with
    | [] => (.done, s)
    | e :: _ =>
      match performEntry s core k e with
      | (.done, s1) =>
        drainStores core k fuel (setSlot s1 core k { slotOf s1 core k with stores := (slotOf s1 core k).stores.tail })
      | r => r

/-- A system call, which a save leaves at its PC. -/
def Pending.isCall : Pending → Bool
  | .sysc _ _ _ => true
  | _ => false

/-- The wait for a seat (R197). -/
def seatWait (seat done : Nat) : WaitState := { reason := .mma, peer := seat + 65536 * done }

/-- The wait of a thread as its record holds it: loads and what was not sent are abandoned, and so is the wait of a YIELD;
a Cadastre instruction is past, a system call stays at its PC; an MMA that is to issue again keeps its rows done (R201, R217, R378). -/
def settleSlot (core k : Nat) (s0 : State) : State :=
  let s := flushWb core s0
  let x := slotOf s core k
  let again : WaitState := match x.rows with
    | some r => { seatWait r.seat r.done with sent := true }
    | none => {}
  match x.pend with
  | .load _ _ _ | .packet _ _ _ | .operand _ | .fetch _ _ | .pin _ _ | .seat _ _ _ =>
    let s1 := returnHeld s core k
    setSlot s1 core k { slotOf s1 core k with wait := if x.wait.reason = .stream then x.wait else again, fetched := [] }
  | .cad _ _ _ _ _ _ | .sysc _ _ _ =>
    let s1 := match x.ticket, reservedReg x.held x.pend with
      | some t, some d => dropReserved s core k d.1 d.2 t
      | _, _ => s
    let call := x.pend.isCall
    let y := if x.past || call then slotOf s1 core k else (slotOf s1 core k).fall (if x.long then 4 else 2)
    setSlot s1 core k { y with held := [], ticket := none, past := x.past || !call }
  | .mma _ _ _ _ _ _ =>
    let s1 := returnHeld s core k
    setSlot s1 core k { slotOf s1 core k with wait := x.wait }
  | _ =>
    let keep := match x.wait.reason with
      | .mem => x.wait.key == 15
      | .none | .remote | .saved | .mma => false
      | _ => true
    setSlot s core k { x with wait := if keep then x.wait else again, fetched := [] }

/-- Spills the written lines of a task out of every L1 (R160). What was spilled since the task last resumed follows the order of the cores
(R135), and what it spilled before comes first. -/
def spillTask (s : State) (h : Nat) : Performed × State :=
  let lines := s.cores.flatMap (fun c => (c.2.l1.filter (fun l => l.task == h && l.written != 0)).map (c.1, ·))
  match lines.foldl (fun acc l => match acc with
    | (.done, s) => spillOut s l.1 l.2
    | r => r) (Performed.done, s) with
  | (.done, s1) =>
    let t := taskOf s1 h
    let since := t.spill.filter (!·.saved)
    let sorted := (ascending (since.map (·.core))).flatMap (fun c => since.filter (·.core == c))
    (.done, setTask s1 h { t with spill := t.spill.filter (·.saved) ++ sorted.map (fun l => { l with saved := true }) })
  | r => r

/-! ### Save records (R202) -/

/-- Slots of a save area. -/
def saveSlotCount (x : Estate) : Nat := x.saveSize / 2048

/-- The first run of n consecutive free slots (R204): it starts at 0 or where a used run ends. -/
def firstRun (used : List (Nat × Nat)) (total n : Nat) : Option Nat :=
  ((0 :: used.map (fun r => r.1 + r.2)).filter (fun i =>
    i + n ≤ total && used.all (fun r => !(i < r.1 + r.2 && r.1 < i + n)))).min?

def boolBit (b : Bool) (k : Nat) : Nat := if b then 2 ^ k else 0

/-- The dword of a loop, by level. -/
def loopDword (loops : List LoopState) (n : Nat) : Nat :=
  match loops[n]? with
  | some l => l.start.toNat % 2 ^ 48 + 2 ^ 48 * l.endoff + 2 ^ 58
  | none => 0

/-- The dwords of a stream save entry. -/
def streamDwords (ts : List Stream) (n : Nat) : List Nat :=
  match ts[n]? with
  | some t => t.desc.toList.map (·.toNat) ++ [t.next % 2 ^ 48 + 2 ^ 48 * t.reg]
  | none => List.replicate 6 0

/-- Four 16-bit numbers in a dword. -/
def fourPhases (f : Nat → Nat) : Nat := f 0 % 65536 + 2 ^ 16 * (f 1 % 65536) + 2 ^ 32 * (f 2 % 65536) + 2 ^ 48 * (f 3 % 65536)

/-- The 256 dwords of a save record (R202). DEDUCED (log 26). -/
def saveDwords (t : Task) (x : Slot) (r : Option TrapRec) (qext : Nat) : List Nat :=
  [2 ^ 63 + 2 ^ 49 * x.index + boolBit r.isSome 48 + x.pc.toNat % 2 ^ 48, x.wait.word.toNat, t.handle, x.frm.toNat,
    x.fflags.toNat, x.wdog.toNat, x.wdCount, qext] ++
  x.g.toList.map (·.toNat) ++ x.e.toList.map (·.toNat) ++
  x.sg.toList.flatMap (fun g => [g.base.toNat, g.limit.toNat, g.attrs.toNat]) ++
  x.lc.toList.map (·.toNat) ++ [loopDword x.loops 0, loopDword x.loops 1, loopDword x.loops 2, x.loops.length, 0] ++
  (List.range 4).flatMap (streamDwords x.streams) ++
  [fourPhases (fun n => t.barriers[n]?.getD 0), fourPhases (fun n => (x.arrived[n]?.getD none).getD 0),
    boolBit (x.arrived[0]?.getD none).isSome 0 + boolBit (x.arrived[1]?.getD none).isSome 1 +
      boolBit (x.arrived[2]?.getD none).isSome 2 + boolBit (x.arrived[3]?.getD none).isSome 3,
    x.uih.toNat, x.uiret.toNat, x.uiex.toNat] ++ List.replicate 18 0 ++
  (match r with
    | some r => r.dwords
    | none => List.replicate 8 0) ++
  x.v.toList.flatMap (fun p => (List.range 8).map (fun k => p.toNat / 2 ^ (64 * k) % 2 ^ 64))

/-- The filled entries of a queue, the oldest first. -/
def filled (q : Queue) : List Nat := q.entries.filterMap (·.value)

/-- The number of a queue extension record (R202). -/
def queueRecordNat (q : Queue) : Nat :=
  q.reg + 16 + 256 * (filled q).length +
    (filled q).zipIdx.foldl (fun acc p => acc + (p.1 % 2 ^ 512) <<< (512 * (p.2 + 1))) 0

/-- The value of an accumulator as a dword of a seat image (R216). -/
def accDword (exact : Bool) (v : Nat) : Nat := if exact && 2 ^ 39 ≤ v then v + (2 ^ 64 - 2 ^ 40) else v

/-- The bytes of a seat image after its header: one dword per element, row-major (R216). -/
def seatImage (x : Seat) : Nat := x.acc.foldl (fun n a => n + accDword x.exact a.2 <<< (64 * a.1)) 0

/-- The seats whose BINDER is a task, in the order of their images: by unit, then by seat (R216). DESIGN CHOICE (log 66). -/
def seatsOf (s : State) (h : Nat) : List (Nat × Nat) :=
  s.units.flatMap fun u => (u.2.seats.filter (fun x => !x.2.suspended && match x.2.binder with
    | some b => b.2 == h
    | none => false)).map (fun x => (u.1, x.1))

/-- Ends every thread of a crew as by EXIT (R204). -/
def exitCrew (s : State) (h : Nat) : State := (crewSlots s h).foldl (fun s p => endThread s p.1 p.2.1 .exited) s

/-- A record about a crew that cannot be saved (R204), or whose written lines cannot be spilled (R159). -/
def saveFull (s : State) (core h aux : Nat) : State :=
  let t := taskOf s h
  sinkRecord (exitCrew s h) core t.estate (hwRecord s t.estate 2 TrapCode.saveFull.toNat 0 (BitVec.ofNat 64 aux) (handle := h))

/-- Whether a message came from slot k of a core about its own trap: not the escalation of its keeper (R194). -/
def Mail.of (m : Mail) (core k : Nat) : Bool := m.core == core && m.slot == k && m.record.kind == 1

/-- A record that a Jasper core holds about a work thread. -/
def mailRecord (s : State) (core k : Nat) : Option TrapRec :=
  s.jaspers.findSome? fun j => (j.2.mailbox.find? (fun m => m.2.of core k)).map (·.2.record)

/-- The record of a parked thread, wherever it is held (R201). -/
def parkedRecord (s : State) (core k : Nat) : Option TrapRec :=
  let c := coreOf s core
  match (c.keeperQueue ++ c.toJasper).find? (·.1 == k) with
  | some r => some r.2
  | none => if (slotOf s core k).wait.reason = .parked then mailRecord s core k else none

/-- Takes the record of a parked thread away from Jasper: it moves into the save record (R201). -/
def takeMail (core k : Nat) (s : State) : State :=
  { s with jaspers := s.jaspers.map (fun j => (j.1, { j.2 with
      mailbox := j.2.mailbox.filter (fun m => !m.2.of core k) })) }

/-- The records of a thread: its own, then one for each queue it bound. -/
def threadRecords (s : State) (h : Nat) (p : Nat × Nat × Slot) : List Nat :=
  let qs := (coreOf s p.1).queues.filter (·.binder == p.2.1)
  dwordsNat (saveDwords (taskOf s h) p.2.2 (parkedRecord s p.1 p.2.1) qs.length) :: qs.map queueRecordNat

/-- Writes the slots of a save run, 2,048 bytes each. -/
def writeRun (core est va : Nat) : List Nat → State → State
  | [], s => s
  | r :: rs, s => writeRun core est (va + 2048) rs (hwWrite s core est va 2048 r true 40).2

/-- The 33 slots of a seat's image (R216). -/
def seatSlots (s : State) (u i : Nat) : List Nat :=
  let x := seatOf s u i
  let gen := (entryOf s (parcelSeat (16 * u + i))).gen.toNat
  dwordsNat [16 * u + i, x.ctx0.toNat, x.ctx1.toNat, gen] :: (List.range 32).map (fun k => seatImage x / 2 ^ (16384 * k) % 2 ^ 16384)

/-- Inserts a thread by its crew index. -/
def insertMember (p : Nat × Nat × Slot) : List (Nat × Nat × Slot) → List (Nat × Nat × Slot)
  | [] => [p]
  | x :: xs => if p.2.2.index < x.2.2.index then p :: x :: xs else x :: insertMember p xs

/-- A crew that PREEMPT has served is saved (R252). -/
def countSaved (s : State) (h : Nat) : State :=
  { s with queues := s.queues.map (fun q => (q.1,
      if q.2.crews.contains h then { q.2 with crews := q.2.crews.filter (· != h), saved := q.2.saved + 1 } else q.2)) }

/-- The place of the overflow ring that a task's next descriptor takes is usable (R142). -/
def ringUsable (s : State) (core est : Nat) : Bool × State :=
  let x := estateOf s est
  if ringSize x ≤ x.ring.length then (true, s)
  else hwUsable s core est (x.spillBase + 64 * freePlace s x.ring x.ringNext (ringSize x)) 64 2

/-- Writes the records of a settled crew, frees its slots and puts its task into the overflow ring (R201, R204, R216). -/
def writeCrew (s : State) (core h : Nat) : State :=
  let t := taskOf s h
  let crew := (crewSlots s h).foldl (fun l p => insertMember p l) []
  let seats := seatsOf s h
  let slots := crew.flatMap (threadRecords s h) ++ seats.flatMap (fun x => seatSlots s x.1 x.2)
  let e := estateOf s t.estate
  match firstRun e.saveRuns (saveSlotCount e) slots.length with
  | none => saveFull s core h 0
  | some i =>
    match hwUsable s core t.estate (e.saveBase + 2048 * i) (2048 * slots.length) (slots.length + 2) with
    | (false, s1) => saveFull s1 core h 2
    | (true, s1) =>
      let s2 := writeRun core t.estate (e.saveBase + 2048 * i) slots s1
      let s3 := setEstate s2 t.estate { estateOf s2 t.estate with saveRuns := (i, slots.length) :: (estateOf s2 t.estate).saveRuns }
      let s4 := seats.foldl (fun s x => setSeat s x.1 x.2 { seatOf s x.1 x.2 with suspended := true }) s3
      let saving := crew.map (fun p => (p.2.2.index, p.2.2, (coreOf s p.1).queues.filter (·.binder == p.2.1)))
      let s5 := crew.foldl (fun s p =>
        let c := takeMail p.1 p.2.1 (clearSlot s p.1 p.2.1 false)
        setCore c p.1 { coreOf c p.1 with toJasper := (coreOf c p.1).toJasper.filter (·.1 != p.2.1) }) s4
      let t' := { taskOf s5 h with
        phase := .saved, saveRun := some (i, slots.length), saving := saving,
        savedFrom := crew.map (fun p => (p.2.2.index, p.1, p.2.1)),
        crew := (taskOf s5 h).crew.map (fun m => match m with
          | .running _ _ => .saved
          | m => m) }
      returnRing (countSaved (setTask s5 h t') h) core t'

/-- Spills the lines that a finished task has written in a core's L1 (R160). One that finds no usable room runs again: it has no thread to
trap (R142, R159). DEDUCED (log 35). -/
def spillFinished (core : Nat) (s : State) (h : Nat) : State :=
  if (taskOf s h).phase ≠ .finished || inCommit s h then s else
  match spillTask s h with
  | (.done, s1) => s1
  | (.full, s1) => abortFirm s1 h
  | (.unusable, s1) => abortFirm (areaRecord s1 core (taskOf s1 h).estate (estateOf s1 (taskOf s1 h).estate).spillBase h) h

/-- Moves the queued and shadow tasks of a core to the overflow ring, keeping their admission (R160). -/
def moveQueued (core : Nat) (s : State) : State :=
  let c := coreOf s core
  let s1 := setCore s core { c with deque := [], shadow := [] }
  (c.deque ++ c.shadow).foldl (fun s h =>
    let t := taskOf s h
    let t' := { t with phase := if t.phase = .saved then .saved else .queued }
    returnRing (setTask s h t') core t') s1

/-- What leaves a core that is reclaimed, escheated or pre-empted with its crews (R160): the lines of finished tasks, the queued and the
shadow tasks. -/
def emptyCore (s : State) (core : Nat) : State :=
  let tasks := (((coreOf s core).l1.filter (·.written != 0)).map (·.task)).eraseDups
  moveQueued core (tasks.foldl (spillFinished core) s)

/-- A save that cannot be made: the crew's threads trap, with a record. When they have all trapped and a core of theirs is still being left,
they end as by EXIT (R142, R159, R204). DEDUCED (log 26). -/
def saveFails (s : State) (h : Nat) (leaving : Bool) (record : State → State) (t : TrapInfo) : State :=
  if !(crewSlots s h).all (fun p => p.2.2.wait.reason == .parked) then parkCrew (record s) h t
  else if leaving then exitCrew (record s) h
  else s

/-- Saves a crew whose threads are settled (R201): the store buffers drain, the written lines spill, the records are written. leaving says
that a core of the crew is being transferred. A crew that PREEMPT has asked for takes with it what else its cores hold (R160). -/
def saveCrew (s : State) (core h : Nat) (leaving : Bool) : State :=
  let crew := crewSlots s h
  let est := (taskOf s h).estate
  let cores := if crew.any (fun p => p.2.2.request.any (·.source == 2)) then (crew.map (·.1)).eraseDups else []
  let drained := crew.foldl (fun (acc : Performed × State) p => match acc with
    | (.done, s) => drainStores p.1 p.2.1 64 s
    | r => r) (.done, crew.foldl (fun s p => settleSlot p.1 p.2.1 s) s)
  let spilled := match drained with
    | (.done, s1) => spillTask s1 h
    | r => r
  let s2 := spilled.2
  let area (s : State) : State := areaRecord s core est (estateOf s est).spillBase h
  match spilled.1 with
  | .full =>
    if !atFrontier s2 h then abortFirm s2 h
    else if leaving && (crewSlots s2 h).all (fun p => p.2.2.wait.reason == .parked) then saveFull s2 core h 1
    else saveFails s2 h false id { code := .saveFull, aux := 1 }
  | .unusable => saveFails s2 h leaving area { code := .pageInvalid }
  | .done =>
    match ringUsable s2 core est with
    | (true, s3) => cores.foldl emptyCore (writeCrew s3 core h)
    | (false, s3) => saveFails s3 h leaving area { code := .pageInvalid }

/-- Every live thread of a crew waits SAVED or PARKED (R200). -/
def crewYielded (s : State) (h : Nat) : Bool :=
  (crewSlots s h).all (fun p => p.2.2.wait.reason == .saved || p.2.2.wait.reason == .parked)

/-- Whether a core is being left: its transfer saves the crews itself (R173 step 2). -/
def coreLeaving (s : State) (core : Nat) : Bool := (entryOf s (parcelCore core)).leaving.isSome

/-- A commit in progress has lines of a core (R156, R160). -/
def committing (s : State) (core : Nat) : Bool :=
  (liveTasks s).any (fun t => inCommit s t.handle && (t.core == core || (coreOf s core).l1.any (·.task == t.handle)))

/-- FORCED_SAVE: at the deadline of its request a crew whose threads are settled is saved (R201). DEDUCED (log 26). -/
def execForcedSave (handle : Nat) (s : State) : Host.Outcome State Fault Refusal :=
  let crew := crewSlots s handle
  match crew with
  | [] => .next s
  | p :: _ =>
    if crew.all (fun q => !coreLeaving s q.1 && !s.halted.contains (clusterOf q.1) &&
        !(crew.any (fun p => p.2.2.request.any (·.source == 2)) && committing s q.1)) &&
      crew.any (fun q => q.2.2.pastDeadline s.cycle) && crew.all (fun q => settled s q.1 q.2.1) && (taskOf s handle).phase == .running
    then .next (saveCrew s p.1 handle false) else .next s

/-! ### Restoring (R205, R217) -/

/-- Reads n slots of the save area; answers the VA of the first that cannot be read. -/
def readRun (core est va : Nat) : Nat → State → (List Nat ⊕ Nat) × State
  | 0, s => (.inl [], s)
  | n + 1, s =>
    match hwRead s core est va 2048 true 40 with
    | (none, s1) => (.inr va, s1)
    | (some v, s1) =>
      match readRun core est (va + 2048) n s1 with
      | (.inl vs, s2) => (.inl (v :: vs), s2)
      | r => r

/-- Dword k of a record. -/
def recDw (r k : Nat) : Word := BitVec.ofNat 64 (r / 2 ^ (64 * k) % 2 ^ 64)

/-- The active loops that a record holds. It does not say how long the instruction at `last` is. -/
def recLoops (r : Nat) : List LoopState :=
  (List.range (bits (recDw r 70) 0 2)).map fun n =>
    let d := recDw r (67 + n)
    ⟨BitVec.ofNat 64 (bits d 0 48), bits d 48 9, true⟩

/-- Whether the instruction at an offset of a thread's sg7 is long, as the core's instruction buffer shows it (R54); one that cannot be read
counts as long. DESIGN CHOICE (log 26). -/
def longAt (s : State) (core : Nat) (x : Slot) (off : Nat) : Bool :=
  let seg : Seg := x.sg[7]
  let va := segAddr seg off
  let home : Option Home := match seg.space with
    | 0 => (match walk s x.estate va with
      | (.leaf _ _ p0 p1, _) => some (pteHome p0 p1 (pageBytes (pteSize p0)) va)
      | _ => none)
    | 1 => some (.commons va)
    | _ => some (.scratch core va)
  match home.map (codeByte s core) with
  | some (.value b) => b % 2 == 1
  | _ => true

/-- The loops of a restored thread with the length of each `last`: of a loop that the record has left as it was, with its code segment, it
is known; of another the code tells. -/
def measureLoops (s : State) (core : Nat) (saved x : Slot) : Slot :=
  { x with loops := x.loops.map fun l =>
      match saved.loops.find? (fun o => o.start == l.start && o.endoff == l.endoff && saved.sg[7] == x.sg[7]) with
      | some o => o
      | none => { l with long := longAt s core x l.last.toNat } }

/-- Each loop's body ends inside the body around it (R45). -/
def nested : List LoopState → Bool
  | a :: b :: ls => b.last ≤ a.last && nested (b :: ls)
  | _ => true

/-- The Z fields of the trap record in a save record (R190). -/
def trapZeros (r : Nat) : Bool :=
  let d (k : Nat) : Word := recDw r (120 + k)
  bits (d 0) 33 15 == 0 && bits (d 0) 30 2 == 0 && bits (d 1) 48 16 == 0 && bits (d 4) 22 42 == 0 && bits (d 4) 14 2 == 0 &&
    bits (d 7) 11 53 == 0 && bits (d 7) 4 4 == 0

/-- The layouts of R84, R97 and R45, and the Z fields (R190, R197, R202, R205). DEDUCED (log 26). -/
def recOk (r : Nat) : Bool :=
  bits (recDw r 0) 56 7 == 0 && bits (recDw r 1) 4 4 == 0 && trapZeros r && frmOk (recDw r 3) && fflagsOk (recDw r 4) &&
    (List.range 8).all (fun i => attrsOk (recDw r (42 + 3 * i))) &&
    (List.range 3).all (fun n => (bits (recDw r (67 + n)) 58 1 == 1) == decide (n < bits (recDw r 70) 0 2)) &&
    (recLoops r).all (fun l => 2 ≤ l.endoff) && nested (recLoops r) &&
    bits (recDw r 98) 4 60 == 0 && (List.range 18).all (fun k => recDw r (102 + k) == 0)

/-- The trap record that a save record holds (R190). -/
def recTrap (r : Nat) : TrapRec :=
  let d (k : Nat) : Word := recDw r (120 + k)
  { lost := bits (d 0) 48 16, long := bits (d 0) 32 1 == 1, thread := bits (d 0) 16 14, kind := bits (d 0) 8 8,
    code := bits (d 0) 0 8, pc := bits (d 1) 0 48, addr := d 2, aux := d 3, part := bits (d 4) 16 6,
    estate := bits (d 4) 0 14, time := (d 5).toNat, handle := (d 6).toNat, sg := bits (d 7) 8 3, hops := bits (d 7) 0 4 }

/-- The wait reasons by code (R197). -/
def reasonOf : Nat → Reason
  | 1 => .mem | 2 => .remote | 3 => .page | 4 => .tile | 5 => .qempty | 6 => .qfull | 7 => .barrier | 8 => .firm
  | 9 => .reclaim | 10 => .amsg | 11 => .sysc | 12 => .stream | 13 => .parked | 14 => .saved | 15 => .mma
  | _ => .none

/-- The wait state that a record holds; the model's own key comes from the saved slot. -/
def recWait (r : Nat) (saved : Slot) : WaitState :=
  let d := recDw r 1
  { reason := reasonOf (bits d 0 4), sent := bits d 8 1 == 1, peer := bits d 16 48, key := saved.wait.key }

/-- What a restored thread is still waiting for: a sent Cadastre instruction or system call (R201). -/
def recPend (r : Nat) (saved : Slot) : Pending := if (recWait r saved).reason ≠ saved.wait.reason then .none else saved.pend

/-- The streams that a record holds. -/
def recStreams (r : Nat) : List Stream :=
  (List.range 4).filterMap fun n =>
    let d (k : Nat) : Word := recDw r (72 + 6 * n + k)
    if (List.range 6).all (fun k => d k == 0) then none else
      some { reg := bits (d 5) 48 5, desc := #v[d 0, d 1, d 2, d 3, d 4], next := bits (d 5) 0 48 }

/-- The rows that the MMA at the PC has done: as the record's wait says, of an MMA at the saved PC (R202, R217). A seat that has changed
hands since is lost to it. -/
def recRows (s : State) (r : Nat) (saved : Slot) : Option RowsDone :=
  if BitVec.ofNat 64 (bits (recDw r 0) 0 48) ≠ saved.pc then none else
  match (recWait r saved).reason with
  | .none => none
  | .mma => saved.rows.map (fun x =>
      let y : RowsDone := { x with seat := bits (recDw r 1) 16 11, done := bits (recDw r 1) 32 4 }
      { y with lost := x.lost || (entryOf s (parcelSeat y.seat)).gen.toNat != x.gen })
  | _ => saved.rows

/-- A thread as its record says (R202, R205). -/
def slotOfRecord (est : Nat) (r : Nat) (saved old : Slot) (rows : Option RowsDone) (readyAt : Nat) : Slot :=
  { live := true, estate := est, task := (recDw r 2).toNat, index := bits (recDw r 0) 49 7, pc := BitVec.ofNat 64 (bits (recDw r 0) 0 48),
    g := (Vector.ofFn fun (i : Fin 16) => recDw r (8 + i.val)).set 0 0,
    e := Vector.ofFn fun (i : Fin 16) => recDw r (24 + i.val),
    sg := Vector.ofFn fun (i : Fin 8) => ⟨recDw r (40 + 3 * i.val), recDw r (41 + 3 * i.val), recDw r (42 + 3 * i.val)⟩,
    lc := Vector.ofFn fun (i : Fin 3) => recDw r (64 + i.val),
    loops := recLoops r, frm := recDw r 3, fflags := recDw r 4, wdog := recDw r 5, wdCount := (recDw r 6).toNat,
    streams := recStreams r, pend := recPend r saved,
    wait := if (recWait r saved).reason = .mma ∨ (recWait r saved).reason = .parked then {} else recWait r saved,
    rows := rows,
    arrived := Vector.ofFn fun (n : Fin 4) =>
      if bits (recDw r 98) n.val 1 = 1 then some (bits (recDw r 97) (16 * n.val) 16) else none,
    uih := BitVec.ofNat 64 (2 * bits (recDw r 99) 1 47), uiret := BitVec.ofNat 64 (2 * bits (recDw r 100) 1 47), uiex := recDw r 101,
    v := Vector.ofFn fun (i : Fin 16) => BitVec.ofNat 512 (r / 2 ^ (64 * (128 + 8 * i.val)) % 2 ^ 512),
    posted := old.posted, storeSeq := old.storeSeq, readyAt := readyAt, word := saved.word, long := saved.long,
    accSg := saved.accSg, accAddr := saved.accAddr,
    past := saved.past || ((recPend r saved).isCall && BitVec.ofNat 64 (bits (recDw r 0) 0 48) != saved.pc), barHalf := saved.barHalf, poison := saved.poison }

/-- The queue that an extension record holds; whether it stands for a c or a w register the record does not say, and the
hardware keeps it. first is the first ticket that no earlier push has had. -/
def queueOfRecord (r : Nat) (wide : Bool) (binder first : Nat) : Queue :=
  let n := bits (recDw r 0) 8 4
  let width := if wide then 512 else 64
  let e (i : Nat) : QueueEntry := ⟨first + i, some (r / 2 ^ (512 * (i + 1)) % 2 ^ width)⟩
  { wide := wide, reg := bits (recDw r 0) 0 5 - 16, entries := (List.range n).map e, ticket := first + n, binder := binder }

/-- The queue extension records that follow a record (R202). -/
def qext (r : Nat) : Nat := bits (recDw r 7) 0 4

/-- Loads one thread from its records into a slot (R205). -/
def restoreThread (h : Nat) (s : State) (core k : Nat) (saved : Nat × Slot × List Queue) (recs : List Nat) : State :=
  let t := taskOf s h
  let r := recs.headD 0
  let x := measureLoops s core saved.2.1
    (slotOfRecord t.estate r saved.2.1 (slotOf s core k) (recRows s r saved.2.1) (ticksOf s core + 1))
  let qs := recs.tail.zipIdx.map (fun p =>
    queueOfRecord p.1 (((saved.2.2[p.2]?).map (·.wide)).getD true) k (coreOf s core).spent)
  let s1 := setCore s core { coreOf s core with queues := (coreOf s core).queues ++ qs }
  let s2 := closeCombining (threadId core k) (setSlot s1 core k x)
  if !recOk r then parkSlot s2 core k { code := .illegal, aux := 0xFFFFFFFF } saved.2.1.long
  else if bits (recDw r 0) 48 1 = 1 then
    queueRecord (setSlot s2 core k { x with wait := { reason := .parked, peer := bits (recDw r 1) 16 48 }, pend := .none }) core k
      { recTrap r with estate := t.estate, part := (estateOf s t.estate).part }
  else s2

/-- Loads the threads of a crew, one after another, into the slots reserved. -/
def restoreThreads (h : Nat) : List (Nat × Slot × List Queue) → List (Nat × Nat) → List Nat → State → State
  | m :: ms, p :: ps, recs, s =>
    let n := 1 + qext (recs.headD 0)
    restoreThreads h ms ps (recs.drop n) (restoreThread h s p.1 p.2 m (recs.take n))
  | _, _, _, s => s

/-- Ends the waits whose outcome has come while the threads were saved (R117, R201, R253). A Cadastre instruction or a system call whose
destination is bound as a queue takes its place there again first, the youngest (R42, R44). DEDUCED (log 26). -/
def endRestored (s : State) (p : Nat × Nat) : State :=
  let core := p.1
  let k := p.2
  let x := slotOf s core k
  if x.wait.reason = .parked then s else
  let s1 := match x.pend with
    | .cad d _ _ _ _ _ | .sysc d _ _ =>
      (match if d.toNat < 16 then none else findQueue (coreOf s core) false (d.toNat - 16) with
      | some q => setSlot (setCore s core (reserveEntry (coreOf s core) false (d.toNat - 16))) core k { x with ticket := some q.ticket }
      | none => s)
    | _ => s
  match x.pend with
  | .cad _ _ (some _) _ _ _ => (match replyTo s1 core k .home with
    | some m => resume core k m s1
    | none => s1)
  | .sysc d _ (some r) => resume core k (replyCallEnd d r) s1
  | _ =>
    if x.wait.reason = .page ∧ x.wait.key = 17 then
      parkSlot s1 core k { code := .pageInvalid, addr := x.accAddr, aux := BitVec.ofNat 64 x.wait.peer, sg := x.accSg } x.long
    else if x.wait.reason = .page ∧ x.wait.key = 18 then setSlot s1 core k { x with wait := {} }
    else s1

/-- The accumulators of a seat image, the nonzero ones. -/
def imageAcc (exact : Bool) (v : Nat) : Map Nat :=
  (List.range 8192).filterMap fun i =>
    let d := v / 2 ^ (64 * i) % 2 ^ (if exact then 40 else 32)
    if d = 0 then none else some (i, d)

/-- Every saved thread of a task loses a seat. -/
def loseSeats (s : State) (h seat : Nat) : State :=
  (taskOf s h).saving.foldl (fun s m => mapSavedOf s h m.1 (Slot.loseSeat seat ·)) s

/-- Writes back the seats of a run of task h, those whose GENERATION is still the saved one; an MMA in progress on another meets
CAPABILITY (R217). slots are 33 for each seat. -/
def restoreSeats (h fuel : Nat) (slots : List Nat) (s : State) : State :=
  match fuel, slots with
  | fuel + 1, head :: rest =>
    let id := bits (recDw head 0) 0 11
    let u := id / 16
    let i := id % 16
    let image := (rest.take 32).zipIdx.foldl (fun acc p => acc + p.1 <<< (16384 * p.2)) 0
    let x : Seat := { seatOf s u i with ctx0 := recDw head 1, ctx1 := recDw head 2, suspended := false }
    let s1 := if (entryOf s (parcelSeat id)).gen.toNat = (recDw head 3).toNat then
        computeRing u i (setSeat s u i { x with acc := imageAcc x.exact image })
      else loseSeats s h id
    restoreSeats h fuel (rest.drop 32) s1
  | _, _ => s

/-- The slots that the records of n threads take, their queue extensions included. -/
def threadSlots : Nat → List Nat → Nat → Nat
  | 0, _, acc => acc
  | n + 1, recs, acc =>
    let k := 1 + qext (recs.headD 0)
    threadSlots n (recs.drop k) (acc + k)

/-- Writes 0 to the VALID of each thread record (R205). -/
def clearValid (core est base : Nat) : List (Nat × Slot × List Queue) → List Nat → Nat → State → State
  | _ :: ms, recs, off, s =>
    let n := 1 + qext (recs.headD 0)
    let d := (recDw (recs.headD 0) 0).toNat % 2 ^ 63
    clearValid core est base ms (recs.drop n) (off + n) (hwWrite s core est (base + 2048 * off) 8 d true 2).2
  | [], _, _, s => s

/-- Restores a saved task on the slots given. The barrier state comes from the records (R203). DEDUCED (log 26). -/
def restoreTask (s : State) (core h : Nat) (slots : List (Nat × Nat)) : State :=
  let t := taskOf s h
  let run := t.saveRun.getD (0, 0)
  let base := (estateOf s t.estate).saveBase + 2048 * run.1
  match readRun core t.estate base run.2 s with
  | (.inr va, s1) =>
    abandonTask (sinkRecord s1 core t.estate (hwRecord s1 t.estate 2 TrapCode.pageInvalid.toNat (BitVec.ofNat 64 va) 0 (handle := h))) h
  | (.inl recs, s1) =>
    let nThreads := threadSlots t.saving.length recs 0
    let s2 := clearValid core t.estate base t.saving recs 0 s1
    let seats := recs.drop nThreads
    let s3 := restoreSeats h (seats.length / 33) seats s2
    let cores := (core :: slots.map (·.1)).eraseDups
    let s4 := cores.foldl (refreshCore t) s3
    let place (i : Nat) : Member := match (t.saving.zip slots).find? (fun p => p.1.1 == i) with
      | some p => .running p.2.1 p.2.2
      | none => .exited
    let b := recDw (recs.headD 0) 96
    let t1 := { taskOf s4 h with
      phase := .running, core := core, saving := [], savedFrom := [], saveRun := none,
      barriers := Vector.ofFn fun (n : Fin 4) => bits b (16 * n.val) 16,
      crew := t.crew.zipIdx.map (fun m => if m.1 == .saved then place m.2 else m.1) }
    let s5 := setEstate s4 t.estate (freeRun (estateOf s4 t.estate) t.saveRun)
    let s6 := { s5 with cores := s5.cores.map (fun p => (p.1, { p.2 with shadow := p.2.shadow.filter (· != h) })) }
    (slots.take (taskOf s3 h).saving.length).foldl endRestored (restoreThreads h (taskOf s3 h).saving slots recs (setTask s6 h t1))

/-- Slots of a save run before the record of a crew index. -/
def recordOffset (index : Nat) : List (Nat × Slot × List Queue) → Nat
  | [] => 0
  | m :: ms => if m.1 = index then 0 else 1 + m.2.2.length + recordOffset index ms

/-- The VA of the save record of a crew index. -/
def recordAt (s : State) (t : Task) (index : Nat) : Nat :=
  (estateOf s t.estate).saveBase + 2048 * ((t.saveRun.getD (0, 0)).1 + recordOffset index t.saving)

/-- ORs flags into the FFLAGS of a saved thread's record (R202, R213). -/
def raiseSaved (s : State) (core h index flags : Nat) : State :=
  let t := taskOf s h
  if !t.saving.any (·.1 == index) then s else
  match hwRead s core t.estate (recordAt s t index + 32) 8 true 2 with
  | (some v, s1) => (hwWrite s1 core t.estate (recordAt s t index + 32) 8 (v ||| flags) true 2).2
  | (none, s1) => s1

/-- Changes what the hardware keeps of saved threads beside their records (R201): the status of a Cadastre instruction or the
result of a system call. -/
def mapSaved (s : State) (f : Slot → Slot) : State :=
  { s with tasks := s.tasks.map (fun p => (p.1, { p.2 with saving := p.2.saving.map (fun m => (m.1, f m.2.1, m.2.2)) })) }

end Sys2Proof.Machine
end

