-- ==== Sys2Proof/Machine/Matrix.lean ====
section
/-! DEFINITION. The matrix instructions and the units' events (R206 to R218, R267, R324 to R333). -/

namespace Sys2Proof.Machine

/-! ### The checks at the unit (R176, R207) -/

/-- Whether the UNIT or the SEAT parcel is SCRUBBING or RETIRED. -/
def seatBarred (s : State) (seat : Nat) : Bool :=
  let out (p : Nat) : Bool := match (entryOf s p).state with
    | .scrubbing | .retired => true
    | _ => false
  out (parcelSeat seat) || out (parcelUnit (seat / 16))

def capabilityTrap (seat : Nat) : Exec α := trapWith .capability 0 (BitVec.ofNat 64 (seat % 2048))

/-- What the unit compares (R176, R207): a message of an estate that uses the seat no longer, that carries an older GENERATION, or whose
seat or unit is being scrubbed is refused. -/
def seatRefused (s : State) (est seat gen : Nat) : Bool :=
  !uses s est (parcelSeat seat) || seatBarred s seat || (entryOf s (parcelSeat seat)).gen.toNat != gen

/-- The CAPABILITY checks of R207 on the seat that a register names; answers the seat ID. The core reads a GENERATION that it
does not hold; deferred, the instruction waits MEM for it and issues again (R176). -/
def checkSeat (b : Word) (unit : Bool) : Exec Nat := do
  let s ← get
  let seat := b.toNat
  let est := curEstate s
  if 2048 ≤ seat then capabilityTrap seat
  let c := curCore s
  let held := (mapFind c.gens seat).getD (entryOf s (parcelSeat seat)).gen.toNat
  set (setCurCore s { c with gens := mapSet c.gens seat held })
  if s.cur.defer && (mapFind c.gens seat).isNone then waitFor (memWait 4 0)
  if seatRefused s est seat held || (seatOf s (seat / 16) (seat % 16)).suspended then capabilityTrap seat
  if unit && !uses s est (parcelUnit (seat / 16)) then capabilityTrap seat
  pure seat

/-- The GENERATION of a seat that the issuing core holds. -/
def heldGen (s : State) (seat : Nat) : Nat := (mapFind (curCore s).gens seat).getD 0

/-- Whether a drain of the seat that the thread issued is still to be performed. -/
def drainAhead (s : State) (core k seat : Nat) : Bool :=
  s.ops.any (fun p => issuedBy s core k p.2 && p.2.seat == seat && match p.2.kind with
    | .mdrain _ => true
    | _ => false)

/-- Operations of one thread on a seat are applied in issue order (R212). -/
def behindDrains (seat : Nat) : Exec Unit := do
  let s ← get
  if drainAhead s s.cur.core s.cur.slot seat then waitFor (seatWait seat 0)

/-! ### MFMT, MZERO -/

/-- What MFMT and MZERO do at the unit, after the rows that the ring still holds for the seat (R208, R212, R214, R218): with a context
MFMT. -/
def applySeat (seat : Nat) (ctx : Option (Word × Word)) (s0 : State) : State :=
  let s := computeRing (seat / 16) (seat % 16) s0
  let x := seatOf s (seat / 16) (seat % 16)
  match ctx with
  | some (c0, c1) =>
    let y : Seat := { x with ctx0 := c0, ctx1 := c1, binder := some (s.cur.core, (curSlot s).task) }
    setSeat s (seat / 16) (seat % 16) { y with acc := if x.exact == y.exact then x.acc else [] }
  | none => setSeat s (seat / 16) (seat % 16) { x with acc := [] }

/-- The unit applies MFMT or MZERO; deferred, or while the unit is halted, the thread waits MMA for it (R195, R208, R212, R214). -/
def sendSeat (seat : Nat) (ctx : Option (Word × Word)) : Exec Unit := do
  behindDrains seat
  let s ← get
  if s.cur.defer || s.halted.contains (seat / 16) then waitFor (seatWait seat 0) (.seat seat (heldGen s seat) ctx)
  modify (fun s => endFall 1 (applySeat seat ctx s))

/-- MFMT (R208, R325). -/
def execMfmt (a : Reg) (e : EReg) : State → Host.Outcome State Fault Refusal :=
  run do
    notGarnet
    useG [a] none
    let s ← get
    let seat ← checkSeat (gval s a) false
    let c0 := eval s e.toNat
    let c1 := eval s (e.toNat + 1)
    if !ctxOk c0 c1 then illegal
    sendSeat seat (some (c0, c1))

/-- MZERO (R214, R333). -/
def execMzero (b : Reg) : State → Host.Outcome State Fault Refusal :=
  run do
    notGarnet
    useG [b] none
    let s ← get
    let seat ← checkSeat (gval s b) false
    sendSeat seat none

/-! ### MLOADB -/

/-- Starts an engine operation of the issuing thread. -/
def startOp (kind : OpKind) (tile seat : Nat) (regs : List Word) (state : TileState) (s : State) : State :=
  let x := curSlot s
  let o : EngineOp :=
    { kind := kind, core := s.cur.core, slot := s.cur.slot, estate := x.estate, task := x.task, tile := tile, regs := regs,
      seat := seat, gen := heldGen s seat, after := x.storeSeq, scope := .core, index := x.index }
  let t := tileOf (curCore s) tile
  endFall 1 { setTile s s.cur.core tile { t with state := state } with ops := mapSet s.ops (nextOp s) o }

/-- MLOADB (R210, R327). -/
def execMloadb (a b : Reg) (e : EReg) : State → Host.Outcome State Fault Refusal :=
  run do
    notGarnet
    useG [a, b] none
    let s ← get
    let r := eval s e.toNat
    if 8 ≤ r.toNat then illegal
    let seat ← checkSeat (gval s b) true
    let n ← namedTile (gval s a) 66048
    awaitTile n needReady
    modify (startOp .mloadb n seat [r] .draining)

/-- Whether n bytes from a scratchpad offset meet a poisoned line. -/
def scratchPoisoned (c : Core) (off n : Nat) : Bool := c.scratchPoison.any (fun l => rangesMeet (64 * l) 64 off n)

/-- The nonzero bytes of n from an address, moved to begin at 0. -/
def cutMemory (m : Memory) (a n : Nat) : Memory := (m.filter (fun p => a ≤ p.1 && p.1 < a + n)).map (fun p => (p.1 - a, p.2))

/-- MLOADB_APPLY (R210). A unit or seat that has been taken away meanwhile discards the load (R176, R327). -/
def execMloadbApply (op : Nat) (s : State) : Host.Outcome State Fault Refusal :=
  match opOf s op with
  | some o =>
    if o.kind ≠ .mloadb || s.halted.contains (clusterOf o.core) || s.halted.contains (o.seat / 16) || !released s o then .next s else
    let c := coreOf s o.core
    let t := tileOf c o.tile
    if scratchPoisoned c t.base 66048 then .next (endOp s op o (some 0x0010)) else
    let u := o.seat / 16
    let k := 2 * bits (o.reg 0) 0 2 + bits (o.reg 0) 2 1
    let b : Bank := { loader := some o.estate, bytes := cutMemory c.scratch t.base 66048 }
    let s1 := if uses s o.estate (parcelUnit u) && !seatRefused s o.estate o.seat o.gen then
        setUnit s u { unitOf s u with banks := mapSet (unitOf s u).banks k b }
      else s
    .next (endOp s1 op o none)
  | none => .next s

/-! ### MMA -/

/-- ROW0, COUNT, STRIDE and SCALEOFF (R211). -/
def mmaRow0 (r : Word) : Nat := bits r 0 3
def mmaCount (r : Word) : Nat := bits r 3 3 + 1
def mmaStride (x : Seat) (l : Word) : Nat := if bits l 0 18 = 0 then x.rowBytes else bits l 0 18
def mmaScaleOff (l : Word) : Nat := bits l 18 18

/-- The ILLEGAL cases that the operands decide alone (R328). -/
def mmaIllegal (r l : Word) : Bool :=
  64 ≤ r.toNat || bits l 36 28 != 0 || 8 < mmaRow0 r + mmaCount r || bits l 0 18 % 64 != 0 || mmaScaleOff l % 2 != 0

/-- Bytes of the tile that the rows need (R209). -/
def mmaBytes (x : Seat) (r l : Word) : Nat :=
  max ((mmaCount r - 1) * mmaStride x l + x.rowBytes) (if x.exact then 0 else mmaScaleOff l + 2 * mmaCount r)

/-- Leaves MMA: the tile returns to READY, or goes FAILED. -/
def mmaTile (s : State) (core tile : Nat) (status : Option Nat) : State :=
  let t := tileOf (coreOf s core) tile
  match status with
  | none => setTile s core tile { t with state := .ready }
  | some st => setTile s core tile { t with state := .failed, status := st }

/-- The planes of an A block that the unit reads (R209). -/
def Seat.aFetched (x : Seat) : Nat := if x.nira && x.ka < x.aPlanes then x.ka + 1 else x.ka

/-- A row of the A tile: its bytes and, in SCALED mode, its scale; none when a plane that is read is poisoned, or the scale (R87, R211). -/
def mmaOperand (s : State) (core : Nat) (x : Seat) (tile i : Nat) (l : Word) : Option (Nat × Nat) :=
  let c := coreOf s core
  let base := (tileOf c tile).base
  let at0 := base + i * mmaStride x l
  let sc := base + mmaScaleOff l + 2 * i
  if (List.range 4).any (fun b => scratchPoisoned c (at0 + 8 * x.aPlanes * b) (8 * x.aFetched)) ||
      (!x.exact && scratchPoisoned c sc 2) then none
  else some (memRead c.scratch at0 x.rowBytes, if x.exact then 0 else memRead c.scratch sc 2)

/-- The rows that an MMA in progress still has to do, and the next of them, are at the unit. -/
def mmaNext (core k tile seat : Nat) (rows layout : Word) (done gen : Nat) (s : State) : State :=
  if mmaCount rows ≤ done then resume core k (modify (fun s => endReply (mmaTile s core tile none))) s
  else setSlot s core k { slotOf s core k with
    pend := .mma tile seat rows layout done gen, wait := { seatWait seat done with sent := true } }

/-- An MMA ends at the unit with a trap (R207, R211); status is its tile's. -/
def mmaTrap (core k tile : Nat) (status : Option Nat) (t : TrapInfo) (s : State) : State :=
  resume core k (do
    modify (mmaTile · core tile status)
    throw (.trap t)) s

/-- CAPABILITY at a seat, and MEM_POISON at a row of a tile, whose ADDR is the row's scratchpad offset. DESIGN CHOICE (log 37). -/
def seatTrap (seat : Nat) : TrapInfo := { code := .capability, aux := BitVec.ofNat 64 seat }
def rowTrap (s : State) (core tile row : Nat) (x : Seat) (layout : Word) : TrapInfo :=
  { code := .memPoison, addr := BitVec.ofNat 64 ((tileOf (coreOf s core) tile).base + row * mmaStride x layout) }

/-- The next row of an MMA that a thread waits for, once its earlier stores are performed (R128) and after the rows that the ring still
holds for the seat (R211, R212, R218). -/
def mmaStep (core k : Nat) (s0 : State) : State :=
  let x := slotOf s0 core k
  match x.pend with
  | .mma tile seat rows layout done gen =>
    let u := seat / 16
    let i := seat % 16
    let s := if (seatOf s0 u i).suspended then s0 else computeRing u i s0
    let seatNow := seatOf s u i
    if seatNow.suspended || s.halted.contains u || (slotOf s core k).pend != x.pend || !x.stores.isEmpty then s
    else if mmaCount rows ≤ done then mmaNext core k tile seat rows layout done gen s
    else if seatRefused s x.estate seat gen || foreignBank (unitOf s u) seatNow x.estate then mmaTrap core k tile none (seatTrap seat) s
    else match mmaOperand s core seatNow tile done layout with
      | none => mmaTrap core k tile (some 0x0010) (rowTrap s core tile done seatNow layout) s
      | some a =>
        let s1 := setSeat s u i (addRow (unitOf s u) seatNow (mmaRow0 rows + done) a.1 a.2)
        mmaNext core k tile seat rows layout (done + 1) gen (setUnit s1 u { unitOf s1 u with lastSeat := i })
  | _ => s0

/-- MFMT or MZERO that a thread waits for is applied (R208, R214). -/
def seatStep (core k : Nat) (s : State) : State :=
  let x := slotOf s core k
  match x.pend with
  | .seat seat gen ctx =>
    if s.halted.contains (seat / 16) then s
    else if seatRefused s x.estate seat gen || (seatOf s (seat / 16) (seat % 16)).suspended then
      resume core k (throw (.trap (seatTrap seat))) s
    else resume core k (modify (fun s => endReply (applySeat seat ctx s))) s
  | _ => s

/-- MMA (R211, R328). Without defer its rows are served at once; issued again, it goes on from the rows done (R217). DEDUCED (log 46). -/
def execMma (a b : Reg) (e : EReg) (s : State) : Host.Outcome State Fault Refusal :=
  let m : Exec Unit := do
    notGarnet
    useG [a, b] none
    let s ← get
    let r := eval s e.toNat
    let l := eval s (e.toNat + 1)
    if mmaIllegal r l then illegal
    let seat ← checkSeat (gval s b) false
    let before := (curSlot s).rows.filter (·.seat == seat)
    if before.any (·.lost) then do
      modify (fun s => setCurSlot s { curSlot s with rows := before.map (fun r => { r with lost := false }) })
      capabilityTrap seat
    let x := seatOf s (seat / 16) (seat % 16)
    if x.ka = 0 || (bits l 0 18 != 0 && bits l 0 18 < x.rowBytes) then illegal
    let n ← namedTile (gval s a) (mmaBytes x r l)
    awaitTile n needReady
    behindDrains seat
    modify (fun s => setTile s s.cur.core n { tileOf (curCore s) n with state := .draining })
    let s1 ← get
    let done := (before.map (·.done)).getD 0
    waitFor { seatWait seat done with sent := true } (.mma n seat r l done (heldGen s1 seat))
  match run m s with
  | .next s1 => .next (if s.cur.defer then s1 else (List.range 9).foldl (fun t _ => mmaStep s.cur.core s.cur.slot t) s1)
  | r => r

/-- MMA_ROW: the unit serves a row of the MMA that slot k of a core waits for, or applies its MFMT or MZERO (R212). Which of the waiting
rows have arrived the move says: any waiting thread's may be the only one. -/
def execMmaRow (core slot : Nat) (s : State) : Host.Outcome State Fault Refusal :=
  if (slotOf s core slot).live && !s.halted.contains (clusterOf core) then .next (seatStep core slot (mmaStep core slot s)) else .next s

/-- The seat that a unit serves next when every waiting row has arrived: round-robin, starting after the last seat served (R212). -/
def nextSeat (s : State) (u : Nat) : Option Nat :=
  let waits (i : Nat) : Bool := s.cores.any (fun c => !s.halted.contains (clusterOf c.1) && c.2.slots.any (fun k => k.2.live && match k.2.pend with
    | .mma _ seat _ _ _ _ => seat == 16 * u + i && !(seatOf s u i).suspended
    | _ => false))
  ((List.range 16).map (fun i => ((unitOf s u).lastSeat + 1 + i) % 16)).find? waits

/-- SUSPENDED_ROW: a row for a suspended seat enters the spill ring and counts as done (R218). -/
def execSuspendedRow (core slot : Nat) (s : State) : Host.Outcome State Fault Refusal :=
  let x := slotOf s core slot
  match x.pend with
  | .mma tile seat rows layout done gen =>
    let u := seat / 16
    let seatNow := seatOf s u (seat % 16)
    if !x.live || !seatNow.suspended || !x.stores.isEmpty || mmaCount rows ≤ done || 128 ≤ (unitOf s u).ring.length || s.halted.contains (clusterOf core) ||
      s.halted.contains u then .next s
    else if seatRefused s x.estate seat gen then .next (mmaTrap core slot tile none (seatTrap seat) s)
    else match mmaOperand s core seatNow tile done layout with
    | none => .next (mmaTrap core slot tile (some 0x0010) (rowTrap s core tile done seatNow layout) s)
    | some a =>
      let r : SpillRow := ⟨seat % 16, mmaRow0 rows + done, x.estate, core, slot, x.task, x.index, a.1, a.2⟩
      let s1 := setUnit s u { unitOf s u with ring := (unitOf s u).ring ++ [r] }
      .next (setSlot s1 core slot { slotOf s1 core slot with
        pend := .mma tile seat rows layout (done + 1) gen, wait := { seatWait seat (done + 1) with sent := true } })
  | _ => .next s

/-- MACRO_RECALIBRATION: the unit is held for up to 100 µs between two rows, and nothing else changes (R267). -/
def execMacroRecalibration (_unit : Nat) (s : State) : Host.Outcome State Fault Refusal := .next s

/-! ### MDRAIN -/

def drainFmt (r : Word) : Nat := bits r 0 3
def drainRow0 (r : Word) : Nat := bits r 3 3
def drainCount (r : Word) : Nat := bits r 6 3 + 1
def drainScale (r : Word) : Nat := bits r 16 16

/-- The ILLEGAL cases (R213). -/
def drainIllegal (r : Word) : Bool :=
  5 ≤ drainFmt r || 8 < drainRow0 r + drainCount r || (drainFmt r != 4 && drainScale r != 0) || bits r 9 7 != 0 || bits r 32 32 != 0

/-- MDRAIN and MDRAIN.CLR at issue (R213, R324). DEDUCED (log 31). -/
def drain (clear : Bool) (a b : Reg) (e : EReg) : Exec Unit := do
  notGarnet
  useG [a, b] none
  let s ← get
  let r := eval s e.toNat
  if drainIllegal r then illegal
  let seat ← checkSeat (gval s b) false
  let n ← namedTile (gval s a) (drainCount r * drainRow (drainFmt r))
  awaitTile n needEmpty
  modify (startOp (.mdrain clear) n seat [r] .filling)

/-- MDRAIN (R213). -/
def execMdrain (a b : Reg) (e : EReg) : State → Host.Outcome State Fault Refusal := run (drain false a b e)

/-- MDRAIN.CLR (R213). -/
def execMdrainClr (a b : Reg) (e : EReg) : State → Host.Outcome State Fault Refusal := run (drain true a b e)

/-- Writes drained rows into the tile, and gathers the flags. -/
def drainRows (x : Seat) (r : Word) (place : Home) : List Nat → Nat → State → Nat × State
  | [], flags, s => (flags, s)
  | j :: js, flags, s =>
    let l := drainRow (drainFmt r)
    let d := drainBytes x (drainFmt r) (drainScale r) (drainRow0 r + j)
    let lines := List.range (l / 64)
    let s1 := lines.foldl (fun s i =>
      storeHome s (place.shift (j * l + 64 * i)) 64 (d.1 / 2 ^ (512 * i) % 2 ^ 512) (fullMask 64)) s
    drainRows x r place js (flags ||| d.2) s1

/-- Raises flags in the thread that issued an operation, if it has not ended: in its record while it is saved (R213). -/
def raiseIssuer (o : EngineOp) (flags : Nat) (s : State) : State :=
  match s.cores.findSome? (fun c => c.2.slots.findSome? (fun p => if issuedBy s c.1 p.1 o then some (c.1, p.1) else none)) with
  | some p => setSlot s p.1 p.2 ((slotOf s p.1 p.2).raise flags)
  | none => if o.orphan then s else raiseSaved s o.core o.task o.index flags

/-- Whether two operations are of one thread. -/
def EngineOp.sameThread (o p : EngineOp) : Bool :=
  o.task == p.task && if o.task = 0 then o.core == p.core && o.slot == p.slot else o.index == p.index

/-- An earlier drain of the same thread from the same seat. -/
def drainBefore (s : State) (op : Nat) (o : EngineOp) : Bool :=
  s.ops.any (fun p => p.1 < op && p.2.seat == o.seat && o.sameThread p.2 && match p.2.kind with
    | .mdrain _ => true
    | _ => false)

/-- MDRAIN_PERFORM (R213), once the thread's earlier stores are performed (R128). A seat that its estate uses no longer is not read: the
tile goes FAILED with STATUS 0x00FD, DEDUCED (log 31). While the seat is suspended the drain waits. DESIGN CHOICE (log 31). -/
def execMdrainPerform (op : Nat) (s : State) : Host.Outcome State Fault Refusal :=
  match opOf s op with
  | some o =>
    match o.kind with
    | .mdrain clear =>
      let u := o.seat / 16
      let i := o.seat % 16
      let x := seatOf s u i
      if s.halted.contains (clusterOf o.core) || s.halted.contains u || drainBefore s op o || x.suspended || !released s o then .next s
      else if seatRefused s o.estate o.seat o.gen then .next (endOp s op o (some 0x00FD))
      else
        let r := o.reg 0
        let s0 := flushScratch o.core (computeRing u i s)
        let w := drainRows (seatOf s0 u i) r (.scratch o.core (tileOf (coreOf s o.core) o.tile).base) (List.range (drainCount r)) 0 s0
        let rows := (List.range (drainCount r)).map (· + drainRow0 r)
        let s1 := if clear then
            setSeat w.2 u i { seatOf s0 u i with acc := (seatOf s0 u i).acc.filter (fun p => !rows.contains (p.1 / 1024)) }
          else w.2
        .next (endOp (raiseIssuer o w.1 s1) op o none)
    | _ => .next s
  | none => .next s

end Sys2Proof.Machine
end

