-- ==== Sys2Proof/Machine/Paging.lean ====
section
/-! DEFINITION. Changing page tables, shootdown, WAKE, and the segment registers (R27, R111 to R117, R304, R320 to R322, R348,
R364, R365, R374). -/

namespace Sys2Proof.Machine

/-! ### Tables -/

/-- The entries on the walk path of a VA, down to a leaf or the first that is not VALID: level, PA, dwords. -/
def pathFrom (s : State) (va : Nat) : Nat → Nat → Nat → List (Nat × Nat × Word × Word)
  | 0, _, _ => []
  | fuel + 1, table, level =>
    let e := entryPa table level va
    let p := pteAt s e
    (level, e, p.1, p.2) ::
      (if pteIsValid level p && pteSize p.1 == 3 then pathFrom s va fuel (ptePa p.1) (level + 1) else [])

def pathOf (s : State) (est va : Nat) : List (Nat × Nat × Word × Word) := pathFrom s va 4 (estateOf s est).ptRoot 1

/-- Every VALID entry of the tables from one downward: level, PA, dwords. -/
def entriesFrom (s : State) : Nat → Nat → Nat → List (Nat × Nat × Word × Word)
  | 0, _, _ => []
  | fuel + 1, table, level =>
    (List.range 512).flatMap fun i =>
      let e := table + 16 * i
      let p := pteAt s e
      if !pteIsValid level p then [] else
        (level, e, p.1, p.2) :: (if pteSize p.1 = 3 then entriesFrom s fuel (ptePa p.1) (level + 1) else [])

def entriesOf (s : State) (est : Nat) : List (Nat × Nat × Word × Word) := entriesFrom s 4 (estateOf s est).ptRoot 1

def frameOf (pa : Nat) : Nat := pa / 2097152

/-- A frame that holds a root or a table in use (R320). -/
def tableFrame (s : State) (f : Nat) : Bool :=
  s.estates.any (fun e => frameOf e.2.ptRoot == f) || s.tables.any (fun t => frameOf t == f)

/-- A leaf that maps local HBM in a frame. -/
def mapsFrame (f : Nat) (p0 p1 : Word) : Bool := pteSize p0 != 3 && pteTarget p1 == 0 && frameOf (ptePa p0) == f

/-- A frame that some leaf of any estate maps (R320). -/
def dataFrame (s : State) (f : Nat) : Bool :=
  s.estates.any (fun e => (entriesOf s e.1).any (fun p => mapsFrame f p.2.2.1 p.2.2.2))

/-- Writes an entry of page-table memory. -/
def writePte (p0 p1 : Word) (s : State) (e : Nat) : State := storeOwn (storeOwn s e 8 p0.toNat) (e + 8) 8 p1.toNat

/-- Zeroes a page table, line by line, so that no poison is left in it (R110, R321). -/
def zeroTable (s : State) (pa : Nat) : State :=
  (List.range 128).foldl (fun s i => storeOwn s (pa + 64 * i) 64 0) s

/-- The sixteen entries of the 64 KiB group of a level-4 entry, or the entry alone. -/
def entryGroup (e size : Nat) : List Nat := if size = 1 then (List.range 16).map (fun i => e / 256 * 256 + 16 * i) else [e]

/-! ### Shootdown (R114) -/

/-- The ports whose bit is set for a line. -/
def sharingPorts (s : State) (line : Nat) : List Nat :=
  (List.range 128).filter (fun p => ((mapFind s.sharers line).getD 0).getLsbD p)

/-- A port drops the TLB entries that a line fed, and its bit. -/
def invalidatePort (line : Nat) (s : State) (port : Nat) : State :=
  { s with
    tlbs := mapSet s.tlbs port ((tlbOf s port).filter (fun t => !t.lines.contains line)),
    sharers := mapSet s.sharers line ((mapFind s.sharers line).getD 0 &&& ~~~(1#128 <<< port)) }

/-- Whether a thread has accesses that it translated and that are not performed. -/
def translating (x : Slot) : Bool :=
  !x.stores.isEmpty || match x.pend with
    | .load _ _ _ | .packet _ _ _ | .operand _ | .store _ | .push _ _ | .amo _ _ _ _ _ _ | .fetch _ _ | .pin _ _ => true
    | _ => false

/-- Whether an engine operation has asked another package for an element, by a translation made before (R114). -/
def asking (o : EngineOp) : Bool := o.asked.any (fun i => !o.done.contains (i % 2 ^ 24))

/-- Whether a port has translated accesses still to be performed: of its threads, its engine, a commit. -/
def portBusy (s : State) (port : Nat) : Bool :=
  s.ops.any (fun p => clusterOf p.2.core == port && asking p.2) ||
  s.outstanding.any (fun o => o.task != 0 && clusterOf (taskOf s o.task).core == port) ||
  (List.range 8).any (fun i => (coreOf s (8 * port + i)).slots.any (fun p => translating p.2))

/-- Invalidates the lines changed, at every port that has read them; the ports' own accesses are performed before. -/
def shootNow (s : State) (lines : List Nat) : State :=
  lines.foldl (fun s l => (sharingPorts s l).foldl (invalidatePort l) s) s

/-- MAPF or UNMAP ends in one turn: its status, at whose writeback point it is an acquire (R322, R365). -/
def endTable (d : Reg) (status : Nat) (s : State) : State :=
  endFall 1 (addWb (wbPoint s 1) .acquire (putG (wbPoint s 1) d (BitVec.ofNat 64 status) s))

/-- The end of MAPF or UNMAP: the status once every acknowledgement has returned (R114, R322). -/
def endShoot (d : Reg) (status : Nat) (lines : List Nat) : Exec Unit := do
  let s ← get
  let jobs := lines.flatMap (fun l => (sharingPorts s l).map (fun p => (l, p)))
  if jobs.isEmpty || (!s.cur.defer && jobs.all (fun j => !portBusy s j.2)) then
    modify (fun s => endTable d status (shootNow s lines))
  else do
    modify fun s => { s with
      shootdowns := s.shootdowns ++ jobs.map (fun j => { port := j.2, line := j.1, core := s.cur.core, slot := s.cur.slot }) }
    waitFor (memWait 4 0) (.shoot d status)

/-- SHOOTDOWN_INVALIDATE: a port that has performed every access it had translated drops the entries and acknowledges; with the
last acknowledgement the instruction completes (R114). -/
def execShootdownInvalidate (port : Nat) (s : State) : Host.Outcome State Fault Refusal :=
  match s.shootdowns.find? (·.port == port) with
  | none => .next s
  | some j =>
    if portBusy s port then .next s else
    let s1 := { invalidatePort j.line s port with shootdowns := s.shootdowns.filter (· != j) }
    if s1.shootdowns.any (fun k => k.core == j.core && k.slot == j.slot) then .next s1 else
    match (slotOf s1 j.core j.slot).pend with
    | .shoot d status => .next (resume j.core j.slot (replyCall d (BitVec.ofNat 64 status)) s1)
    | _ => .next s1

/-! ### MAPF (R320 to R322) -/

/-- The entry that MAPF writes: PAs, and whether a table comes into use; or a status. -/
inductive MapPlan where
  | status (n : Nat)
  | table (e pa : Nat)
  | leaf (es : List Nat)
  deriving DecidableEq, Repr

/-- The checks of MAPF, in the order of R321. -/
def mapPlan (s : State) (est : Nat) (va : Word) (p0 p1 : Word) : MapPlan :=
  let size := pteSize p0
  let level := if size = 2 then 3 else if size = 3 then 1 else 4
  if pteMalformed level p0 p1 || !pteValid p0 || bits p0 7 2 != 0 || pteFile p0 || bits va 48 16 != 0 then .status 4 else
  let v := va.toNat
  let path := pathOf s est v
  let valid (x : Nat × Nat × Word × Word) : Bool := pteIsValid x.1 (x.2.2.1, x.2.2.2)
  if size = 3 then
    if path.any (fun x => x.1 == 3 && valid x && pteSize x.2.2.1 == 2) then .status 6 else
    match path.find? (fun x => x.1 ≤ 3 && !valid x) with
    | none => .status 5
    | some x =>
      let f := frameOf (ptePa p0)
      if !stays s est (parcelFrame f) then .status 2 else if dataFrame s f then .status 3 else .table x.2.1 (ptePa p0)
  else
    match path.find? (fun x => x.1 == level) with
    | none => if path.any (fun x => x.1 == 3 && valid x && pteSize x.2.2.1 == 2) then .status 6 else .status 1
    | some x =>
      if valid x && pteSize x.2.2.1 == 3 then .status 6
      else if size = 0 && valid x && pteSize x.2.2.1 == 1 then .status 6
      else if v % pageBytes size ≠ 0 then .status 4
      else if pteTarget p1 = 0 && !stays s est (parcelFrame (frameOf (ptePa p0))) then .status 2
      else if pteTarget p1 = 0 && tableFrame s (frameOf (ptePa p0)) then .status 3
      else .leaf (entryGroup x.2.1 size)

/-- Sent only with an empty store buffer (R169, R322). -/
def emptyBuffer : Exec Unit := do
  let s ← get
  match (curSlot s).stores with
  | f :: _ => waitFor (memWait f.die 1)
  | [] => pure ()

/-- MAPF. -/
def execMapf (d a : Reg) (e : EReg) : State → Host.Outcome State Fault Refusal :=
  run do
    useG [a] (some d)
    firm
    emptyBuffer
    let s ← get
    let p0 := eval s e.toNat
    let p1 := eval s (e.toNat + 1)
    match mapPlan s (curEstate s) (gval s a) p0 p1 with
    | .status n => modify (endTable d n)
    | .table x pa => do
      let old := pteValid (pteAt s x).1
      let s0 := zeroTable s pa
      let s1 := { s0 with tables := pa :: s0.tables.filter (· != pa) }
      set (writePte p0 p1 s1 x)
      endShoot d 0 (if old then [x / 64] else [])
    | .leaf es => do
      let old := es.filter (fun x => pteValid (pteAt s x).1)
      set (es.foldl (writePte p0 p1) s)
      endShoot d 0 ((old.map (· / 64)).eraseDups)

/-! ### UNMAP (R364, R365) -/

/-- Whether no entry of a table is VALID. -/
def tableEmpty (s : State) (table level : Nat) : Bool :=
  (List.range 512).all (fun i => !pteIsValid level (pteAt s (table + 16 * i)))

/-- UNMAP. -/
def execUnmap (d a : Reg) : State → Host.Outcome State Fault Refusal :=
  run do
    useG [a] (some d)
    firm
    emptyBuffer
    let s ← get
    let va := gval s a
    let finish (n : Nat) : Exec Unit := modify (endTable d n)
    let path := (pathOf s (curEstate s) va.toNat).filter (fun x => pteIsValid x.1 (x.2.2.1, x.2.2.2))
    if bits va 48 16 ≠ 0 then finish 4
    else match path.getLast? with
      | none => finish 1
      | some x =>
        let size := pteSize x.2.2.1
        if size = 3 then
          if tableEmpty s (ptePa x.2.2.1) (x.1 + 1) then do
            set { writePte 0 0 s x.2.1 with tables := s.tables.filter (· != ptePa x.2.2.1) }
            endShoot d 0 [x.2.1 / 64]
          else finish 1
        else do
          let es := entryGroup x.2.1 size
          set (es.foldl (writePte 0 0) s)
          endShoot d 0 ((es.map (· / 64)).eraseDups)

/-! ### A frame leaves an estate (R173 step 1) -/

/-- The tables that the tables of any estate reach. -/
def reachable (s : State) : List Nat :=
  s.estates.flatMap (fun e => (entriesOf s e.1).filterMap (fun p => if pteSize p.2.2.1 = 3 then some (ptePa p.2.2.1) else none))

/-- Removes every mapping of a frame, and every pointer into it, from an estate's tables. -/
def removeMappings (s : State) (est f : Nat) : State :=
  let hit := (entriesOf s est).filter (fun p =>
    mapsFrame f p.2.2.1 p.2.2.2 || (pteSize p.2.2.1 == 3 && frameOf (ptePa p.2.2.1) == f))
  let s1 := hit.foldl (fun s p => writePte 0 0 s p.2.1) s
  let s2 := shootNow s1 ((hit.map (fun p => p.2.1 / 64)).eraseDups)
  let live := reachable s2
  { s2 with tables := s2.tables.filter (fun t => live.contains t) }

/-! ### WAKE (R117, R374) -/

/-- What has become of a token on which a thread waits that cannot go on now, saved or in a halted cluster (R117, R195). -/
def Slot.markToken (fail : Bool) (est token : Nat) (x : Slot) : Slot :=
  if x.estate = est ∧ x.wait.reason = .page ∧ x.wait.peer = token then { x with wait := { x.wait with key := if fail then 17 else 18 } } else x

/-- The threads of an estate that wait on a token. -/
def joined (s : State) (est token : Nat) : List (Nat × Nat × Slot) :=
  (s.cores.filter (fun c => !s.halted.contains (clusterOf c.1))).flatMap fun c => (c.2.slots.filter (fun p =>
    p.2.live && p.2.estate == est && p.2.wait.reason == .page && p.2.wait.peer == token)).map (fun p => (c.1, p.1, p.2))

/-- Parks a thread whose page will not come (R117). -/
def pageFails (token : Nat) (s : State) (p : Nat × Nat × Slot) : State :=
  parkSlot s p.1 p.2.1
    { code := .pageInvalid, addr := p.2.2.accAddr, aux := BitVec.ofNat 64 token, sg := p.2.2.accSg } p.2.2.long

/-- A saved thread that waited on the token is ready when it is restored, or with fail traps then: its mark is a key of the model (R117). So
does one of a halted cluster, once it has been saved and restored (R195). -/
def markSaved (fail : Bool) (est token : Nat) (s : State) : State :=
  { s with
    tasks := s.tasks.map (fun t => (t.1, { t.2 with saving := t.2.saving.map (fun m =>
      (m.1, { m.2.1 with estate := t.2.estate }.markToken fail est token, m.2.2)) })),
    cores := s.cores.map (fun c => if s.halted.contains (clusterOf c.1)
      then (c.1, { c.2 with slots := c.2.slots.map (fun k => (k.1, k.2.markToken fail est token)) }) else c) }

/-- Ends an outstanding token of an estate: its threads re-issue, for they find it gone, or with fail they trap. -/
def wakeToken (fail : Bool) (s : State) (est token : Nat) : State :=
  if !s.faults.any (fun f => f.estate == est && f.token == token) then s else
  let s1 := markSaved fail est token { s with faults := s.faults.filter (fun f => !(f.estate == est && f.token == token)) }
  let ops := s1.ops.filter (fun o => o.2.estate == est && o.2.token == some token && !s1.halted.contains (clusterOf o.2.core))
  if fail then
    let s2 := (joined s1 est token).foldl (pageFails token) s1
    ops.foldl (fun s o => endOp s o.1 o.2 (some 0x0011)) s2
  else { s1 with ops := s1.ops.map (fun o =>
      (o.1, if o.2.estate = est ∧ o.2.token = some token then { o.2 with token := none } else o.2)) }

/-- WAKE and WAKE.fail: the token is ended at the writeback point (R33, R117). -/
def wakeWith (fail : Bool) (a : Reg) : Exec Unit := do
  useG [a] none
  modify (fun s => endFall 1 (addWb (wbPoint s 1) (.wake fail (gval s a).toNat) s))

/-- WAKE (R117). -/
def execWake (a : Reg) : State → Host.Outcome State Fault Refusal := run (wakeWith false a)

/-- WAKE.fail (R117). -/
def execWakeFail (a : Reg) : State → Host.Outcome State Fault Refusal := run (wakeWith true a)

/-! ### Segment registers (R27, R348) -/

/-- SEGW. A segment register is private, so it is written at issue. -/
def execSegw (k : SReg) (e : EReg) : State → Host.Outcome State Fault Refusal :=
  run do
    let s ← get
    let n := e.toNat
    if !attrsOk (eval s (n + 2)) then illegal
    let x : Seg := ⟨eval s n, eval s (n + 1), eval s (n + 2)⟩
    set (endFall 1 (setCurSlot s { curSlot s with sg := (curSlot s).sg.setIfInBounds k.toNat x }))

/-- SEGR. -/
def execSegr (e : EReg) (k : SReg) : State → Host.Outcome State Fault Refusal :=
  run do
    let s ← get
    let x : Seg := (curSlot s).sg[k.toNat]?.getD {}
    set (endFall 1 (putERun e.toNat [x.base, x.limit, x.attrs] s))

end Sys2Proof.Machine
end

