-- ==== Sys2Proof/Machine/Crew.lean ====
section
/-! DEFINITION. SPAWN, barriers, the end of a thread, and the events of tasks, store buffers and streams (R41, R49, R50, R121,
R140 to R160, R200, R282, R300, R351, R358). -/

namespace Sys2Proof.Machine

/-! ### SPAWN (R140, R351) -/

/-- Operands that an instruction reads from memory before it goes on: n bytes, with every check of R98. -/
def loadOperand (sg : Nat) (off : Int) (n align : Nat) : Exec Nat := do
  let s ← get
  match (curSlot s).fetched.find? (·.1 == 2 ^ 64) with
  | some f => pure f.2
  | none => do
    let x := ownAccess s sg off n align true false
    let ps ← checkAccess x
    modify fun s => { s with cur := { s.cur with defer := false } }
    loadBytes x ps (.operand ps)

/-- Trap(ILLEGAL) of SPAWN, with the index of the first malformed plat or 0xF. -/
def spawnIllegal (aux : Nat) : Exec α := trapWith .illegal 0 (BitVec.ofNat 64 aux)

/-- The plats of a list as read from memory, or the index of the first malformed one. -/
def platsOf (x : Nat) : Nat → Nat → Except Nat (List Plat)
  | 0, _ => .ok []
  | n + 1, i =>
    match platOf (x / 2 ^ (128 * i) % 2 ^ 128) with
    | none => .error i
    | some p =>
      match platsOf x n (i + 1) with
      | .ok ps => .ok (p :: ps)
      | .error e => .error e

/-- Work slots of a cluster on cores that an estate uses, 14 for each (R140). -/
def clusterRoom (s : State) (est cluster : Nat) : Nat :=
  14 * ((List.range 8).filter (fun i => 8 * cluster + i < garnet && coreEstate s (8 * cluster + i) == some est)).length

/-- Whether some cluster that the placement allows has room for a crew. -/
def placeRoom (s : State) (est core place cluster width : Nat) : Bool :=
  match place with
  | 0 | 1 => width ≤ clusterRoom s est (clusterOf core)
  | 2 => (List.range 128).any (fun c => width ≤ clusterRoom s est c)
  | _ => width ≤ clusterRoom s est cluster

/-- The key dword's checks: Z bits, CLUSTER, WIDTH, PLACE (R140, R141). -/
def keyOk (key : Word) : Bool :=
  bits key 63 1 == 0 && bits key 51 5 == 0 && (bits key 48 3 == 3 || bits key 56 7 == 0) &&
    bits key 40 7 < 112 && bits key 48 3 < 4

/-- The task that a key and its other dwords describe. Of the entry dword the descriptor keeps [47:0]; bits above them, which no rule
makes ILLEGAL, are dropped. DESIGN CHOICE (log 53). -/
def taskOfKey (est part : Nat) (entry arg0 arg1 key : Word) (plats : List Plat) : Task :=
  { estate := est, part := part, entry := BitVec.ofNat 64 (entry.toNat % 2 ^ 48), arg0 := arg0, arg1 := arg1,
    ts := bits key 0 40, width := bits key 40 7 + 1, firm := bits key 47 1 == 1, place := bits key 48 3,
    cluster := bits key 56 7, plats := plats }

/-- Task records of an estate's spill area (R142). -/
def recordCount (x : Estate) : Nat := x.spillSize / 4 / 128

/-- The VA of a task record. -/
def recordVa (x : Estate) (k : Nat) : Nat := x.spillBase + x.spillSize / 4 + 128 * k

/-- A free task record whose page is usable: none when there is none (R142). -/
def findRecord (s : State) (core est : Nat) : Option Nat × State :=
  let x := estateOf s est
  match firstFree (x.records.map (fun va => (va - recordVa x 0) / 128)) (recordCount x) with
  | none => (none, s)
  | some k =>
    match hwUsable s core est (recordVa x k) 128 2 with
    | (true, s1) => (some (recordVa x k), s1)
    | (false, s1) => (none, areaRecord s1 core est (recordVa x k))

/-- The number of a task record: the plats of the task. -/
def recordData (t : Task) : Nat := t.plats.zipIdx.foldl (fun acc p => acc + Plat.nat p.1 <<< (128 * p.2)) 0

/-- The handles that live tasks have or remember, with those of jobs and of engine operations in progress. -/
def handlesInUse (s : State) : List Nat :=
  (liveTasks s).flatMap (fun t => t.handle :: t.parent :: t.root :: t.deps) ++ s.jobs.map (·.1) ++ s.ops.map (·.2.task)

/-- A serial number that no live task of the estate has (R140); DESIGN CHOICE: nor one that the package still remembers as a
parent's, a job's or a forwarder's. -/
def freshHandle (s : State) (est : Nat) : Nat × State :=
  let r := fresh s ((handlesInUse s).filterMap (fun h => if h / 2 ^ 32 = est then some (h % 2 ^ 32) else none))
  (est * 2 ^ 32 + r.1, r.2)

/-- Makes a task live and pushes its descriptor: none for FULL, in which case nothing has been written. root is none for a task that is
its job's root. -/
def createTask (s : State) (core : Nat) (t : Task) (root : Option Nat) (push : State → Task → Bool × State) : Option Nat × State :=
  match findRecord s core t.estate with
  | (none, s1) => (none, s1)
  | (some va, s1) =>
    let h := freshHandle s1 t.estate
    let t' := { t with record := va, handle := h.1, root := root.getD h.1, core := core }
    match push (setTask h.2 h.1 t') t' with
    | (true, s2) =>
      let s3 := (hwWrite s2 core t.estate va 128 (recordData t) true 3).2
      (some h.1, setEstate s3 t.estate { estateOf s3 t.estate with records := va :: (estateOf s3 t.estate).records })
    | (false, s2) => (none, { s2 with tasks := mapErase s2.tasks h.1 })

/-- SPAWN (R140, R351). It is a release at PKG scope (R134): it waits until the thread's buffered stores are performed. DEDUCED (log 45).
With no plat there is no list to load, and no check of its offset. DESIGN CHOICE (log 63). -/
def execSpawn (d : Reg) (e : EReg) : State → Host.Outcome State Fault Refusal :=
  run do
    useG [] (some d)
    let s ← get
    let x := curSlot s
    let me := taskOf s x.task
    let n := e.toNat
    let entry := eval s n
    let key := eval s (n + 3)
    let count := eval s (n + 5)
    if isService s.cur.core s.cur.slot then spawnIllegal 0xF
    if bits entry 0 1 = 1 || !keyOk key || 8 < count.toNat || bits key 0 40 < me.ts then spawnIllegal 0xF
    let list ← if count = 0 then pure 0 else
      loadOperand 0 ((eval s (n + 4)).toNat : Int) (16 * count.toNat) 16
    let plats ← match platsOf list count.toNat 0 with
      | .ok ps => pure ps
      | .error i => spawnIllegal i
    let s1 ← get
    match x.stores with
    | f :: _ => waitFor (memWait f.die 1)
    | [] => do
      let t := { taskOfKey x.estate (estateOf s1 x.estate).part entry (eval s (n + 1)) (eval s (n + 2)) key plats with parent := x.task }
      let done (v : Nat) (s : State) : State := endFall 1 (putG (wbPoint s 1) d (BitVec.ofNat 64 v) s)
      if !placeRoom s1 x.estate s1.cur.core t.place t.cluster t.width then set (done 0x8000000000000002 s1)
      else
        let r := createTask s1 s1.cur.core t (if me.root = 0 then none else some me.root) (fun s t => pushDeque s t.core t)
        set (match r.1 with
          | some h => done h r.2
          | none => done 0x8000000000000001 r.2)

/-! ### The end of a thread -/

/-- A message of the thread in slot k is on its way, neither accepted nor refused (R134, R358). -/
def messageLeft (s : State) (core k : Nat) : Bool :=
  s.outbox.any fun m => match m.2 with
    | .amsg seq name _ thread _ _ _ =>
      thread == threadId core k && name == fabricName s (slotOf s core k).estate &&
        (m.1 == s.pkgId.toNat || s.outstanding.any (fun o => o.dst == m.1 && o.seq == seq && o.thread == thread && !o.orphan))
    | _ => false

/-- Whether the thread still awaits its stores, the pushes of others to its streams, its engine operations or its messages (R43, R134,
R358). -/
def endHeld (s : State) (core k : Nat) : Bool :=
  let x := slotOf s core k
  !x.stores.isEmpty || x.streams.any (fun t => t.isWrite && pushesLeft s core k t.reg) ||
    s.ops.any (fun p => issuedBy s core k p.2) || messageLeft s core k

/-- TDONE (R358). -/
def threadDone : Exec Unit := do
  let s ← get
  let c := s.cur.core
  let k := s.cur.slot
  if isService c k then illegal
  if endHeld s c k then waitFor (memWait (dieOf c) 15)
  set (endAt (.ends true) s)

def execTdone : State → Host.Outcome State Fault Refusal := run threadDone

def execTdoneShort : State → Host.Outcome State Fault Refusal := run threadDone

/-- EXIT (R300). -/
def threadExit : Exec Unit := modify (endAt (.ends false))

/-- The end of a thread by TDONE, or by EXIT (R231, R300, R358). A thread of Garnet, which carries no task, simply ends. -/
def endSlot (s : State) (core k : Nat) (tdone : Bool) : State :=
  if isKeeper core k then startKeeper (clearSlot (orphanOps s core k) core k false) core
  else if isCourier core k then endHandler s core .refused
  else if (slotOf s core k).task = 0 then clearSlot (orphanOps s core k) core k false
  else endThread s core k (if tdone then .done else .exited)

def execExit : State → Host.Outcome State Fault Refusal := run threadExit

def execExitShort : State → Host.Outcome State Fault Refusal := run threadExit

/-! ### Barriers (R49, R282) -/

/-- The wait for a phase of barrier n. -/
def barWaitFor (n : Nat) : Exec α := waitFor { reason := .barrier, peer := n }

/-- The thread's latest arrival at barrier n is in the current phase. -/
def inPhase (s : State) (n : Nat) : Bool :=
  let x := curSlot s
  match x.arrived[n]?.getD none with
  | some p => (taskOf s x.task).barriers[n]?.getD 0 == p
  | none => false

/-- A number outside the barriers, or a thread that belongs to no crew. -/
def checkCrew : Exec Unit := do
  let s ← get
  if (curSlot s).task = 0 then illegal

/-- The arrival of the thread in slot k at barrier n (R49). -/
def arrived (s : State) (core k n : Nat) : State :=
  let x := slotOf s core k
  let phase := (taskOf s x.task).barriers[n]?.getD 0
  completePhase (setSlot s core k { x with arrived := x.arrived.setIfInBounds n (some phase) }) x.task n

/-- An arrival of slot k at barrier n is on its way to its writeback point. -/
def arriving (s : State) (core k n : Nat) : Bool := (coreOf s core).wb.any (fun b => b.slot == k && b.act == .arrive n)

/-- The phase completes with the arrival of the thread that issues: every other thread of its crew has arrived, or is arriving. -/
def lastToArrive (s : State) (n : Nat) : Bool :=
  let h := (curSlot s).task
  let phase := (taskOf s h).barriers[n]?.getD 0
  !(taskOf s h).crew.any (· == .saved) && (crewSlots s h).all fun q =>
    (q.1 == s.cur.core && q.2.1 == s.cur.slot) || q.2.2.arrived[n]?.getD none == some phase || arriving s q.1 q.2.1 n

/-- Arrives at the writeback point: a release at DIE scope, so behind the thread's buffered stores of that class. -/
def arrive (n : Nat) : Exec Unit := do
  let s ← get
  if inPhase s n then barWaitFor n
  match (curSlot s).stores.filter (fun e => Scope.le e.cls .die) with
  | e :: _ => waitFor (memWait e.die (curSlot s).buffered)
  | [] => modify (fun s => addWb (wbPoint s 1) (.arrive n) s)

/-- BAR (R49): the arrival, then the wait for its phase. DEDUCED (log 45). -/
def execBar (n : BitVec 2) : State → Host.Outcome State Fault Refusal :=
  run do
    checkCrew
    let s ← get
    if !(curSlot s).barHalf then
      arrive n.toNat
      if !lastToArrive s n.toNat then
        modify (fun s => setCurSlot s { curSlot s with barHalf := true })
        barWaitFor n.toNat
    else if inPhase s n.toNat then barWaitFor n.toNat
    modify (endFall 1)

/-- BAR.ARRIVE (R49). -/
def execBarArrive (n : BitVec 2) : State → Host.Outcome State Fault Refusal :=
  run do
    checkCrew
    arrive n.toNat
    modify (endFall 1)

/-- BAR.WAIT (R49). -/
def execBarWait (n : BitVec 2) : State → Host.Outcome State Fault Refusal :=
  run do
    checkCrew
    let s ← get
    if inPhase s n.toNat then barWaitFor n.toNat
    modify (endFall 1)

/-! ### Effects at writeback points on threads and tokens (R33) -/

/-- What an instruction does to a thread, a token or a mailbox at its writeback point (R49, R117, R256, R278, R300, R358). -/
def applyThread (core : Nat) (s : State) (b : Wb) : State :=
  match b.act with
  | .ends tdone => endSlot s core b.slot tdone
  | .amret v => endHandler s core (.replied v)
  | .arrive n => arrived s core b.slot n
  | .wake fail token => wakeToken fail s (slotOf s core b.slot).estate token
  | .uint thread v => postUint s (slotOf s core b.slot).estate thread v
  | _ => s

/-- Applies every effect of a core on threads and tokens whose writeback point has passed. -/
def flushThreads (core : Nat) (s : State) : State :=
  let now := ticksOf s core
  let due (b : Wb) : Bool := b.act.onThread && b.due < now
  let c := coreOf s core
  (c.wb.filter due).foldl (applyThread core) (setCore s core { c with wb := c.wb.filter (fun b => !due b) })

/-- Slots whose thread has ended keep the streams that others still push to, until they have (R43). -/
def clearPushed (core : Nat) (s : State) : State :=
  (coreOf s core).slots.foldl (fun s q =>
    let x := slotOf s core q.1
    if x.live || x.streams.isEmpty || pushesHeld s core q.1 then s
    else
      let s1 := setSlot s core q.1 x.emptied
      if isKeeper core q.1 then startKeeper s1 core else s1) s

/-! ### Store buffers and streams -/

/-- STORE_BUFFER_PERFORM: entry idx of a buffer is performed at its home (R121). A plat line that finds no room in the write
spill aborts its task, or traps its thread at the frontier (R159). -/
def execStoreBufferPerform (core slot idx : Nat) (s : State) : Host.Outcome State Fault Refusal :=
  let x := slotOf s core slot
  match x.stores[idx]? with
  | none => .next s
  | some e =>
    if !mayPerform (x.stores.take idx) e || e.writes.any (away s) || s.halted.contains (clusterOf core) then .next s else
    match performEntry s core slot e with
    | (.done, s1) =>
      let y := slotOf s1 core slot
      .next (setSlot s1 core slot { y with stores := y.stores.take idx ++ y.stores.drop (idx + 1) })
    | (.full, s1) =>
      if !atFrontier s1 e.task then .next (abortFirm s1 e.task)
      else if x.wait.reason = .parked then .next s
      else .next (parkSlot s1 core slot { code := .saveFull, addr := BitVec.ofNat 64 e.addr, aux := 1 } x.long)
    | (.unusable, s1) =>
      .next (parkCrew (areaRecord s1 core e.estate (estateOf s1 e.estate).spillBase e.task) e.task
        { code := .pageInvalid, addr := BitVec.ofNat 64 e.addr })

/-- The element with which the next packet to be fetched begins. -/
def nextFetch (t : Stream) : Nat := t.buffer.foldl (fun i _ => i + t.packetLen i) t.next

/-- The threads that wait for a packet of a register. -/
def streamWaiters (s : State) (core k : Nat) (reg : Reg) : List Nat :=
  (coreOf s core).slots.filterMap fun p =>
    if p.2.live && p.2.wait.reason == .stream && p.2.pend == .none && p.2.wait.key == 0 && p.2.wait.peer == reg.toNat && (16 ≤ reg.toNat || p.1 == k)
    then some p.1 else none

/-- STREAM_PACKET_ARRIVAL: the fetch of the next packet of a read stream bound by slot k completes, or fails; the instruction
that waits for the packet then takes the trap or the wait (R41). -/
def execStreamPacketArrival (core : Nat) (reg : Reg) (slot : Nat) (s : State) : Host.Outcome State Fault Refusal :=
  match (slotOf s core slot).streams.find? (·.reg == reg.toNat) with
  | none => .next s
  | some t =>
    if t.isWrite || t.count ≤ nextFetch t || !(slotOf s core slot).live then .next s else
    match (fetchPacket core slot t (nextFetch t)).run { s with cur := { core := core, slot := slot } } with
    | (.ok p, s1) =>
      .next (setSlot s1 core slot (mapStream (slotOf s1 core slot) reg.toNat (fun t => { t with buffer := t.buffer ++ [p.toNat] })))
    | (.error h, s1) =>
      if t.buffer.isEmpty then .next ((streamWaiters s1 core slot reg).foldl (fun s k => resume core k (throw h) s) s1) else .next s1

/-! ### Tasks -/

/-- TASK_TAKE: a core with a free shadow slot takes the first eligible entry (R144). A saved task keeps its phase. -/
def execTaskTake (core : Nat) (s : State) : Host.Outcome State Fault Refusal :=
  if garnet ≤ core || 2 ≤ (coreOf s core).shadow.length || s.halted.contains (clusterOf core) then .next s else
  match findWork s core with
  | none => .next s
  | some h =>
    let s1 := unqueue s h
    let t := taskOf s1 h
    let s2 := setTask s1 h { t with phase := if t.phase = .saved then .saved else .shadow }
    .next (setCore s2 core { coreOf s2 core with shadow := (coreOf s2 core).shadow ++ [h] })

/-- ADMISSION: a task in a shadow slot takes its admission number, then enters its stripes one after another; with the last of
them it is admitted (R147, R149). DEDUCED (log 35). A stripe never lacks a free entry. DESIGN CHOICE (log 62). -/
def execAdmission (handle : Nat) (s : State) : Host.Outcome State Fault Refusal :=
  let t := taskOf s handle
  if (mapFind s.tasks handle).isNone || t.phase ≠ .shadow || isAdmitted t then .next s else
  let p := partOf s t.part
  let s1 := match t.admission with
    | none => setPart (setTask s handle { t with admission := some p.admissions }) t.part { p with admissions := p.admissions + 1 }
    | some _ => setTask s handle { t with stripes := t.stripes + 1 }
  .next (if isAdmitted (taskOf s1 handle) then onAdmitted s1 handle else s1)

/-- The core whose shadow slot holds a task. -/
def shadowCore (s : State) (h : Nat) : Option Nat := (s.cores.find? (fun c => c.2.shadow.contains h)).map (·.1)

/-- TASK_START (R145). -/
def execTaskStart (handle : Nat) (s : State) : Host.Outcome State Fault Refusal :=
  match shadowCore s handle with
  | none => .next s
  | some core =>
    if (taskOf s handle).phase ≠ .shadow then .next s else
    match startSlots s core handle with
    | some slots => .next (startTask s core handle slots)
    | none => .next s

/-- RESTORE: the dispatcher restores a saved task that a core's shadow slot holds (R205). -/
def execRestore (core handle : Nat) (s : State) : Host.Outcome State Fault Refusal :=
  if !(coreOf s core).shadow.contains handle || (taskOf s handle).phase ≠ .saved then .next s else
  match startSlots s core handle with
  | some slots => .next (restoreTask s core handle slots)
  | none => .next s

/-- TASK_COMMIT (R155, R156). -/
def execTaskCommit (handle : Nat) (s : State) : Host.Outcome State Fault Refusal :=
  if (mapFind s.tasks handle).isSome && mayCommit s (taskOf s handle) then .next (commitTask s handle) else .next s

/-- The live tasks that hold a partition's frontier back (R154): all but those being discarded. DEDUCED (log 35). -/
def frontierTasks (s : State) (part : Nat) : List Task :=
  (liveTasks s).filter (fun t => t.part == part && !(t.phase == .aborting && !t.requeue))

/-- FRONTIER_PASS: every 64 reference cycles, at the multiples of 64 of CYCLE, the minimum timestamp is published (R12, R154). DEDUCED
(log 35). -/
def execFrontierPass (part : Nat) (s : State) : Host.Outcome State Fault Refusal :=
  if s.cycle % 64 ≠ 0 then .next s else
  match ((frontierTasks s part).map (·.ts)).min? with
  | some m => .next (setPart s part { partOf s part with frontier := max (partOf s part).frontier m })
  | none => .next s

/-- Whether a running task has a thread in a cluster. -/
def runsIn (s : State) (cluster : Nat) (t : Task) : Bool :=
  t.phase == .running && (crewSlots s t.handle).any (fun p => clusterOf p.1 == cluster)

/-- Of two tasks, the one with the later timestamp, then the higher admission number (R158). -/
def laterTask (a : Option Task) (b : Task) : Option Task :=
  match a with
  | none => some b
  | some a => if goesFirst a b then some b else some a

/-- A task in a shadow slot whose start condition holds: not yet started, or saved and to be restored (R145, R158, R205). -/
def waitsForSlots (s : State) (t : Task) : Bool :=
  (shadowCore s t.handle).isSome && (t.phase == .saved || (t.phase == .shadow && mayStart s t))

/-- A task at the frontier has waited 4,096 reference cycles for work slots (R158). -/
def priorityDue (s : State) (t : Task) : Bool :=
  match shadowCore s t.handle, t.waiting with
  | some core, some since =>
    waitsForSlots s t && atFrontier s t.handle && (startSlots s core t.handle).isNone && since + 4096 ≤ s.cycle
  | _, _ => false

/-- FRONTIER_PRIORITY: it falls due again when the task has waited as long once more (R158). -/
def execFrontierPriority (handle : Nat) (s : State) : Host.Outcome State Fault Refusal :=
  let t := taskOf s handle
  match shadowCore s handle with
  | some core =>
    if !priorityDue s t then .next s else
    let victims := (liveTasks s).filter (fun v => runsIn s (clusterOf core) v && !atFrontier s v.handle)
    let s1 := setTask s handle { t with waiting := some s.cycle }
    match victims.foldl laterTask none with
    | some v => .next (abortTasks s1 [v.handle])
    | none => .next s1
  | none => .next s

end Sys2Proof.Machine
end

