-- ==== Sys2Proof/Machine/Cadastre.lean ====
section
/-! DEFINITION. The Cadastre: offers, loans, notices, transfers and scrubs, charters, musters, escheat, easements, and YIELD
(R165 to R184, R200, R271, R281, R286, R296 to R299, R303, R304, R316, R331, R342, R344, R356, R375, R378, R380). -/

namespace Sys2Proof.Machine

/-! ### Parcels and entries (R165, R167) -/

/-- Indices of a kind of parcel (R165). -/
def kindCount (kind : Nat) : Nat :=
  match kind with
  | 0 => 16384 | 1 => 1024 | 2 => 128 | 3 => 2048 | 4 => 262144 | 5 => 2097152 | 6 => 64 | 7 => 128 | 8 => 64 | _ => 0

def goodParcel (p : Nat) : Bool := parcelIndex p < kindCount (parcelKind p)

/-- R167's STATE codes. -/
def ParcelState.toNat : ParcelState → Nat
  | .held => 0 | .offeredGive => 1 | .offeredLoan => 2 | .onLoan => 3 | .reclaiming => 4 | .scrubbing => 5 | .retired => 6

def offered (x : Entry) : Bool := x.state == .offeredGive || x.state == .offeredLoan
def lent (x : Entry) : Bool := x.state == .onLoan || x.state == .reclaiming

/-- The partition of an entry's holder. -/
def entryPart (s : State) (x : Entry) : Nat := (estateOf s x.holder).part

/-- The four dwords of an entry (R167). -/
def entryDwords (s : State) (x : Entry) : List Nat :=
  [ x.occupant.isSome.toNat * 2 ^ 60 + x.target.isSome.toNat * 2 ^ 59 + x.state.toNat * 2 ^ 56 + x.outcome * 2 ^ 54 +
      x.wipe.toNat * 2 ^ 53 + x.inuse.toNat * 2 ^ 48 + entryPart s x % 64 * 2 ^ 42 + x.target.getD 0 % 16384 * 2 ^ 28 +
      x.occupant.getD 0 % 16384 * 2 ^ 14 + x.holder % 16384,
    if lent x then x.deadline % 2 ^ 64 else 0,
    if lent x || x.state == .offeredLoan then x.term % 2 ^ 48 else 0,
    x.gen.toNat * 2 ^ 32 + x.lender.isSome.toNat * 2 ^ 14 + x.lender.getD 0 % 16384 ]

/-! ### Sending and answering (R166, R168, R169) -/

def cadTrap (parcel cause : Nat) : Exec α := trapWith .cadastreState 0 (parcelAux parcel cause)
def notHeld (parcel : Nat) : Exec α := trapWith .notHeld 0 (parcelAux parcel 6)

/-- What every Cadastre instruction does before its operation: it is firm, and is sent with an empty store buffer; while a
transfer without a scrub runs on the parcel, the operation waits its turn. -/
def cadSend (p : Nat) : Exec Unit := do
  firm
  emptyBuffer
  let s ← get
  let x := entryOf s p
  if x.leaving.isSome && x.state != .scrubbing then waitFor (memWait 4 (13 + 16 * p))

/-- Step 1 of R380. -/
def cadGood (p : Nat) : Exec Unit := if goodParcel p then pure () else cadTrap p 1

/-- Step 3 of R380. -/
def cadRetired (p : Nat) : Exec Unit := do
  let s ← get
  if (entryOf s p).state = .retired then cadTrap p 2

/-- The status write, an acquire (R169): at once, or, deferred, when the reply comes. -/
def cadFinish (d : Reg) (parcel status : Nat) (first : Nat := 0) (out : List Word := []) : Exec Unit := do
  let s ← get
  if s.cur.defer then waitFor { memWait 4 0 with sent := true } (.cad d parcel (some status) first out false)
  else modify fun s =>
    let s1 := endFall 1 (putG (wbPoint s 1) d (BitVec.ofNat 64 status) (putERun first out s))
    closeCombining (threadId s.cur.core s.cur.slot) (setCurCore s1 { curCore s1 with gens := [] })

/-- The wait for a parcel's transfer. -/
def cadAwait (d : Reg) (parcel : Nat) (wait : Bool) : Exec Unit :=
  waitFor { reason := .reclaim, sent := true, peer := parcel } (.cad d parcel none 0 [] wait)

/-- The status that ends an instruction waiting for a parcel's transfer: 0; reclaim.wait waits until the caller holds the parcel, and gets
2 where it is no longer the caller's (R170). -/
def cadStatus (s : State) (p est : Nat) (wait : Bool) : Option Nat :=
  let x := entryOf s p
  if !wait then some 0 else if x.holder ≠ est then some 2 else if x.state = .held then some 0 else none

/-- The threads that wait for a parcel's transfer: core, slot, destination, reclaim.wait. -/
def cadWaiters (s : State) (p : Nat) : List (Nat × Nat × Reg × Bool) :=
  s.cores.flatMap fun c => c.2.slots.filterMap fun k =>
    match k.2.pend with
    | .cad d q none _ _ w => if k.2.live && q == p then some (c.1, k.1, d, w) else none
    | _ => none

/-- The status that an instruction which waits for a parcel's transfer gets, as its thread keeps it. -/
def keepStatus (s : State) (p : Nat) (x : Slot) : Slot :=
  match x.pend with
  | .cad d q none first out w => if q = p then { x with pend := .cad d q (cadStatus s p x.estate w) first out w } else x
  | _ => x

/-- Ends the instructions that wait for a parcel's transfer. A thread that is saved, or in a halted cluster, gets its status once it has
been restored (R195, R201). -/
def notifyCad (s : State) (p : Nat) : State :=
  let s1 := (cadWaiters s p).foldl (fun t w =>
    if s.halted.contains (clusterOf w.1) then setSlot t w.1 w.2.1 (keepStatus s p (slotOf t w.1 w.2.1)) else
    match cadStatus s p (slotOf s w.1 w.2.1).estate w.2.2.2 with
    | some st => resume w.1 w.2.1 (replyCad w.2.2.1 st 0 []) t
    | none => t) s
  mapSaved s1 (keepStatus s p)

/-- Whether a dissolution still has transfer actions to make: an estate that is gone leaves a parcel (R173, R181). -/
def dissolving (s : State) : Bool := s.cad.any (fun e => e.2.leaving.any (fun l => (mapFind s.estates l).isNone))

/-- Ends the ESCHEATs that wait: every dissolved estate has left what it used (R169, R181). -/
def notifyEscheat (s : State) : State :=
  if dissolving s then s else
  let parcels := (s.cores.flatMap fun c => c.2.slots.filterMap fun k =>
    match k.2.pend with
    | .cad _ q none _ _ _ => if parcelKind q = 0 && (entryOf s q).leaving.isNone && (entryOf s q).state == .held then some q else none
    | _ => none).eraseDups
  parcels.foldl notifyCad s

/-! ### What a leaver has in flight (R173 steps 1 to 4) -/

/-- The FRAME or GRANULE parcel of a place of this package. -/
def homeParcel (s : State) : Home → Option Nat
  | .hbm pa => some (parcelFrame (frameOf pa))
  | .coherent g pa | .remote g pa => if g = s.pkgId.toNat then some (parcelFrame (frameOf pa)) else none
  | .commons a => some (parcelGranule (a / 64))
  | .scratch _ _ | .host _ => none

/-- Stores of an estate to a parcel are still in a store buffer, wherever its threads are or were. A halted cluster performs none. -/
def storesInto (s : State) (est p : Nat) : Bool :=
  s.cores.any fun c => !s.halted.contains (clusterOf c.1) && c.2.slots.any fun k =>
    k.2.stores.any (fun e => e.estate == est && e.writes.any (fun w => w.piece.plat.isNone && homeParcel s w.piece.home == some p))

/-- The slots of an estate. -/
def slotsOfEstate (s : State) (est : Nat) : List (Nat × Nat × Slot) :=
  s.cores.flatMap fun c => (c.2.slots.filter (fun k => k.2.estate == est)).map (fun k => (c.1, k.1, k.2))

/-- The VA ranges that map a frame: first address and length. -/
def frameVasFrom (s : State) (f : Nat) : Nat → Nat → Nat → Nat → List (Nat × Nat)
  | 0, _, _, _ => []
  | fuel + 1, table, level, va =>
    (List.range 512).flatMap fun i =>
      let p := pteAt s (table + 16 * i)
      let a := va + i * 2 ^ (48 - 9 * level)
      if !pteIsValid level p then []
      else if pteSize p.1 = 3 then frameVasFrom s f fuel (ptePa p.1) (level + 1) a
      else if mapsFrame f p.1 p.2 then [(a, 2 ^ (48 - 9 * level))] else []

/-- Uncommitted tasks of an estate that have begun and whose write plats have bytes in a frame. -/
def frameTasks (s : State) (est f : Nat) : List Nat :=
  let vas := frameVasFrom s f 4 (estateOf s est).ptRoot 1 0
  ((liveTasks s).filter (fun t => t.estate == est && hasStarted t &&
    t.plats.any (fun p => p.writes && vas.any (fun v => p.base < v.1 + v.2 && v.1 < p.stop)))).map (·.handle)

/-- An easement over a parcel. DEDUCED (log 25). -/
def easesParcel (g : Easement) (p : Nat) : Bool := g.parcel ≤ p && p < g.parcel + g.count && parcelKind g.parcel == parcelKind p

/-- Ends an estate's easements over a parcel that it leaves: the rest of a run of frames keeps its grant. -/
def dropEasements (s : State) (p leaver : Nat) : State :=
  let split (g : Easement) : List Easement :=
    if g.grantor = leaver ∧ easesParcel g p then
      (if g.parcel < p then [{ g with count := p - g.parcel }] else []) ++
      (if p + 1 < g.parcel + g.count then [{ g with parcel := p + 1, count := g.parcel + g.count - (p + 1) }] else [])
    else [g]
  { s with easements := s.easements.flatMap split }

/-- Removes what an estate that still exists has in a frame that it leaves: mappings, tables, pins (R173 step 1). -/
def leaveFrame (s : State) (f leaver : Nat) : State :=
  if (mapFind s.estates leaver).isNone then s else
  let s1 := removeMappings s leaver f
  setEstate s1 leaver { estateOf s1 leaver with pins := (estateOf s1 leaver).pins.filter (fun l => frameOf (64 * l) != f) }

/-- A transfer begins: what stops or goes at once (R173). -/
def beginLeave (s : State) (p leaver : Nat) : State :=
  let s0 := dropEasements s p leaver
  match parcelKind p with
  | 1 => requestCore s0.cycle 1 s0 (parcelIndex p)
  | 4 => leaveFrame (abortTasks s0 (frameTasks s0 leaver (parcelIndex p))) (parcelIndex p) leaver
  | _ => s0

/-- Operations of an estate in flight on a unit, or on one seat of it (R173 step 4). -/
def unitBusy (s : State) (est unit : Nat) (seat : Option Nat) : Bool :=
  let hits (x : Nat) : Bool := x / 16 == unit && (seat.isNone || seat == some (x % 16))
  s.ops.any (fun o => o.2.kind != .copy && o.2.estate == est && hits o.2.seat) ||
    (slotsOfEstate s est).any (fun k => match k.2.2.pend with
      | .mma _ seat _ _ _ _ | .seat seat _ _ => hits seat
      | _ => false)

/-- Nothing of the leaver is in flight any more: engine operations that have begun have completed or failed. -/
def leaveReady (s : State) (p leaver : Nat) : Bool :=
  match parcelKind p with
  | 1 =>
    (coreOf s (parcelIndex p)).slots.all (fun k => k.2.stores.all (fun e => !e.writes.any (away s))) &&
    (s.halted.contains (clusterOf (parcelIndex p)) ||
      (tasksOn s (parcelIndex p)).all (fun h => (crewSlots s h).all (fun q => settled s q.1 q.2.1)) && !committing s (parcelIndex p))
  | 4 | 5 => !storesInto s leaver p && (slotsOfEstate s leaver).all (fun k =>
      s.halted.contains (clusterOf k.1) || !k.2.2.pend.homes.any (fun h => homeParcel s h == some p))
  | 2 => s.halted.contains (parcelIndex p) || !unitBusy s leaver (parcelIndex p) none
  | 3 => s.halted.contains (parcelIndex p / 16) || !unitBusy s leaver (parcelIndex p / 16) (some (parcelIndex p % 16))
  | 6 => !(queueOf s (parcelIndex p)).busy.isSome
  | 7 => s.halted.contains (parcelIndex p) ||
    !s.ops.any (fun o => o.2.kind == .copy && o.2.estate == leaver && clusterOf o.2.core == parcelIndex p && !o.2.done.isEmpty)
  | _ => true

/-- A thread that returns the core it runs on has its status before it is saved. -/
def returnStatus (core : Nat) (s : State) : State :=
  (cadWaiters s (parcelCore core)).foldl (fun s w =>
    if w.1 = core ∧ w.2.2.2 = false then resume w.1 w.2.1 (replyCad w.2.2.1 0 0 []) s else s) s

/-- A thread of a halted cluster that waits for what no longer comes cannot be read: it ends as by EXIT, with a record of KIND 5 (R267).
DEDUCED (log 26). -/
def endUnreadable (core h : Nat) (s : State) : State :=
  if !s.halted.contains (clusterOf core) then s else
  (crewSlots s h).foldl (fun s p =>
    if settled s p.1 p.2.1 then s
    else endThread (sinkRecord s p.1 p.2.2.estate (hwRecord s p.2.2.estate 5 0 0 0 (threadId p.1 p.2.1) (p.2.2.pc.toNat % 2 ^ 48) h)) p.1 p.2.1 .exited) s

/-- The work of a core that is left is saved and moved (R160, R173 step 2). A crew that cannot be saved yet stays. -/
def vacateWork (core : Nat) (s : State) : State :=
  let tasks := (((coreOf s core).l1.filter (·.written != 0)).map (·.task)).eraseDups
  let s2 := tasks.foldl (spillFinished core) s
  let s3 := (tasksOn s2 core).foldl (fun s h => endUnreadable core h s) s2
  (tasksOn s3 core).foldl (fun s h => saveCrew s core h true) s3

/-- The leaver's work on a core that it leaves is saved and moved as far as it can be; and whether some is left. -/
def leaveWork (s : State) (p : Nat) : State := if parcelKind p = 1 then vacateWork (parcelIndex p) s else s
def workLeft (s : State) (p : Nat) : Bool := parcelKind p == 1 && !(tasksOn s (parcelIndex p)).isEmpty

/-- The rest of a core is vacated: the keeper and the courier, the ring, the buffers, the queues (R173 step 2). -/
def vacateCore (core : Nat) (s3 : State) : State :=
  let s4 := clearSlot (orphanOps s3 core 15) core 15 false
  let s5 := clearSlot (orphanOps s4 core 14) core 14 false
  let s6 := (coreOf s5 core).ring.foldl (fun s r => freeRecord s core r .refused) s5
  let s7 := (coreOf s6 core).slots.foldl (fun s k => (drainStores core k.1 64 s).2) s6
  moveQueued core s7

/-- The leaver's part of a transfer ends (R173 steps 2 to 4). DEDUCED (log 25). -/
def finishLeave (s : State) (p : Nat) : State :=
  match (entryOf s p).leaving with
  | none => s
  | some l =>
    let s0 := dropEasements s p l
    match parcelKind p with
    | 1 => vacateCore (parcelIndex p) s0
    | 4 => leaveFrame s0 (parcelIndex p) l
    | _ => s0

/-! ### Scrubs (R109, R174, R175) -/

/-- Drops the bytes of n addresses from a. -/
def zeroFill (m : Memory) (a n : Nat) : Memory := m.filter (fun c => !(a ≤ c.1 && c.1 < a + n))

/-- Fails the operations that are in flight. -/
def failOps (which : EngineOp → Bool) (s : State) : State :=
  (s.ops.filter (fun o => which o.2)).foldl (fun s o => endOp s o.1 o.2 (some 0x00FD)) s

/-- Discards the operations of a core in flight with its tile table (R175, R294); the aborts that waited for them go on. -/
def discardOps (core : Nat) (s : State) : State :=
  let gone := s.ops.filter (fun o => o.2.core == core)
  gone.foldl (fun s o => if o.2.task = 0 then s else finishAbort s o.2.task) { s with ops := s.ops.filter (fun o => o.2.core != core) }

/-- A line of a frame. -/
def inFrame (i l : Nat) : Bool := frameOf (64 * l) == i

/-- A scrub begins. Of a frame this package's own copies of COHERENT lines go, and each other member of the domain is told to give its
copies up, a request that it answers; the manual names no message that carries this (R109, R175). DESIGN CHOICE (log 58). -/
def beginScrub (s : State) (p : Nat) : State :=
  if parcelKind p ≠ 4 then s else
  let i := parcelIndex p
  let mine (r : RlcLine) : Bool := r.pkg == some s.pkgId.toNat && inFrame i r.line
  let s1 := (s.rlc.filter mine).foldl noteLine s
  let s2 := { s1 with
    rlc := s1.rlc.filter (fun r => !mine r),
    directory := s1.directory.filter (fun d => !(d.home == s.pkgId.toNat && inFrame i d.line)),
    shadows := s1.shadows.filter (fun d => !(d.home == s.pkgId.toNat && inFrame i d.line)) }
  ((s.domain.filter (fun d => d != s.pkgId.toNat && !s.lostPackages.contains d))).foldl (fun s d =>
    sendNumbered { dst := d, seq := 0, thread := scrubThread, va := i } (fun n => .scrubbed n i) s) s2

/-- Every clear of a scrub may be performed: for a frame, no other package still has copies to give up, no steward's write to it is under
way, and the host holds none of its lines (R109, R175, R245). -/
def scrubReady (s : State) (p : Nat) : Bool :=
  parcelKind p != 4 ||
    (!s.outstanding.any (fun o => (o.thread == scrubThread && o.va == parcelIndex p) ||
        (o.thread == stewardThread && o.line.any (fun l => l.1 == s.pkgId.toNat && inFrame (parcelIndex p) l.2))) &&
      !s.hostHeld.any (inFrame (parcelIndex p)))

/-- A core as a scrub leaves it; what waits for Jasper waits on. -/
def freshCore (s : State) (c : Core) : Core := { toJasper := c.toJasper, codeSeen := s.history.length }

/-- What a scrub clears (R175). -/
def scrub (s : State) (p : Nat) : State :=
  let i := parcelIndex p
  match parcelKind p with
  | 1 => let s1 := discardOps i s
         setCore s1 i (freshCore s1 (coreOf s1 i))
  | 2 => setUnit s i { unitOf s i with banks := [], seats := [], ring := [] }
  | 3 => setUnit s (i / 16) { unitOf s (i / 16) with
      seats := mapErase (unitOf s (i / 16)).seats (i % 16), ring := (unitOf s (i / 16)).ring.filter (·.seat != i % 16) }
  | 4 =>
    { s with
      hbm := zeroFill s.hbm (2097152 * i) 2097152, hbmPoison := s.hbmPoison.filter (fun l => !inFrame i l),
      lostLines := s.lostLines.filter (fun l => !inFrame i l.1),
      estates := s.estates.map (fun e => (e.1, { e.2 with pins := e.2.pins.filter (fun l => !inFrame i l) })) }
  | 5 => { s with commons := zeroFill s.commons (64 * i) 64, commonsPoison := s.commonsPoison.filter (· != i) }
  | 6 => setQueue s i {}
  | 7 => failOps (fun o => o.kind == .copy && clusterOf o.core == i) s
  | _ => s

/-- What travels with a parcel that is given without .wipe (R174): of a core, its scratchpad and its tile table. DEDUCED (log 25). -/
def carry (s : State) (p : Nat) : State :=
  match parcelKind p with
  | 1 =>
    let c := coreOf s (parcelIndex p)
    setCore s (parcelIndex p) { freshCore s c with scratch := c.scratch, scratchPoison := c.scratchPoison, tiles := c.tiles }
  | _ => s

/-- The entry after a transfer (R173 step 6). OUTCOME stays: after a return it still tells of the offer that was accepted (R185). -/
def enteredAs (x : Entry) : Entry :=
  match x.after with
  | .hold => { state := .held, outcome := x.outcome, inuse := x.inuse, holder := x.holder, gen := x.gen + 1 }
  | .loan =>
    { state := .onLoan, outcome := x.outcome, inuse := x.inuse, holder := x.holder, occupant := x.target,
      lender := some x.holder, deadline := x.deadline, term := x.term, gen := x.gen + 1 }
  | .retire => { state := .retired, outcome := x.outcome, gen := x.gen + 1 }

/-- A halt ends with the retirement of all the cluster's cores and its unit (R195, R267). -/
def endHalt (p : Nat) (s : State) : State :=
  let c := if parcelKind p = 1 then clusterOf (parcelIndex p) else parcelIndex p
  let gone (p : Nat) : Bool := (entryOf s p).state == .retired
  if (parcelKind p == 1 || parcelKind p == 2) && gone (parcelUnit c) && (List.range 8).all (fun i => gone (parcelCore (8 * c + i))) then
    { s with halted := s.halted.filter (· != c) }
  else s

/-- The end of a transfer whose leaver has nothing in flight. -/
def endTransfer (s : State) (p : Nat) : State :=
  let x := entryOf s p
  let s1 := finishLeave s p
  let s2 := if x.state = .scrubbing then setEntry (scrub s1 p) p (enteredAs x)
    else setEntry (carry s1 p) p { state := .held, outcome := 1, inuse := x.inuse, holder := x.target.getD x.holder, gen := x.gen + 1 }
  endHalt p (notifyEscheat (notifyCad s2 p))

/-- The leaver's part of a transfer with a scrub ends: the scrub begins. -/
def endLeave (s : State) (p : Nat) : State :=
  let s1 := finishLeave s p
  notifyEscheat (beginScrub (setEntry s1 p { entryOf s1 p with leaving := none }) p)

/-- SCRUB_COMPLETE: of a transfer with a scrub, first the leaver's part is done, then the scrub, and the entry is written (R173, R175). A
thread that returns its own core has its status written before it is saved (R344). -/
def execScrubComplete (parcel : Nat) (s : State) : Host.Outcome State Fault Refusal :=
  let x := entryOf s parcel
  match x.leaving with
  | some l =>
    if !leaveReady s parcel l then .next s else
    let s0 := if parcelKind parcel = 1 then returnStatus (parcelIndex parcel) s else s
    if !leaveReady s0 parcel l then .next s0 else
    let s1 := leaveWork s0 parcel
    if workLeft s1 parcel then .next s1
    else .next (if x.state = .scrubbing then endLeave s1 parcel else endTransfer s1 parcel)
  | none => if x.state = .scrubbing && scrubReady s parcel then .next (endTransfer s parcel) else .next s

/-- The transfer back to the lender begins (R172, R344); of a parcel in retirement, to nobody (R267). -/
def beginReversion (s : State) (p : Nat) : State :=
  let x := entryOf s p
  let leaver := (userOf s p).getD x.holder
  beginLeave (setEntry s p { x with
    state := .scrubbing, target := none, wipe := false, occupant := none, lender := none, deadline := 0, term := 0,
    leaving := some leaver, after := if x.retiring then .retire else .hold }) p leaver

/-- NOTICE_EXPIRY: at its deadline the reversion starts regardless (R172). -/
def execNoticeExpiry (parcel : Nat) (s : State) : Host.Outcome State Fault Refusal :=
  let x := entryOf s parcel
  if (x.state == .reclaiming || (x.retiring && x.state != .scrubbing)) && x.deadline ≤ s.cycle then .next (beginReversion s parcel) else .next s

/-! ### Offers -/

/-- An existing estate. -/
def estateExists (s : State) (e : Nat) : Bool := (mapFind s.estates e).isSome

/-- A KEY parcel bound to a partition (R178, R304). -/
def keyBound (s : State) (k : Nat) : Bool := k == 0 || s.parts.any (fun p => p.2.inuse && p.2.key == some k)

/-- R304's cases. -/
def unofferable (s : State) (p : Nat) : Bool :=
  (parcelKind p == 4 && tableFrame s (parcelIndex p)) || (parcelKind p == 8 && keyBound s (parcelIndex p))

/-- GIVE and LEND: the term of a loan, or none and WIPE (R170, R303, R316, R380). -/
def offer (d a b : Reg) (loan : Option Word) (wipe : Bool) : Exec Unit := do
  useG [a, b] (some d)
  let s0 ← get
  let p := (gval s0 a).toNat
  let dest := (gval s0 b).toNat
  cadSend p
  let s ← get
  let me := curEstate s
  cadGood p
  let badTerm : Bool := match loan with
    | some t => decide (t.toNat < 3600) || decide (2 ^ 48 ≤ t.toNat)
    | none => false
  if 16384 ≤ dest || badTerm then cadTrap p 4
  if loan.isSome && (parcelKind p == 0 || parcelKind p == 8) then cadTrap p 3
  if dest = me then cadTrap p 5
  cadRetired p
  let x := entryOf s p
  if parcelKind p = 0 && x.inuse then cadTrap p 3
  if x.holder ≠ me || lent x then notHeld p
  if !estateExists s dest || ((estateOf s dest).part ≠ (estateOf s me).part && !(estateOf s me).principal) || unofferable s p then
    cadFinish d p 2
  else if x.state ≠ .held then cadFinish d p 6
  else do
    set (setEntry s p { x with
      state := if loan.isSome then .offeredLoan else .offeredGive, target := some dest, wipe := wipe,
      term := (loan.getD 0).toNat })
    cadFinish d p 1

/-- GIVE (R303). -/
def execGive (d a b : Reg) : State → Host.Outcome State Fault Refusal := run (offer d a b none false)

/-- GIVE.wipe (R303). -/
def execGiveWipe (d a b : Reg) : State → Host.Outcome State Fault Refusal := run (offer d a b none true)

/-- LEND (R316). -/
def execLend (d a b : Reg) (e : EReg) : State → Host.Outcome State Fault Refusal :=
  run do
    let s ← get
    offer d a b (some (eval s e.toNat)) false

/-- An offer ends without a transfer. -/
def unoffered (x : Entry) (outcome : Nat) : Entry :=
  { x with state := .held, outcome := outcome, target := none, wipe := false, term := 0 }

/-- The parcel of a Cadastre instruction that names one, with the checks that need no entry. -/
def cadParcel (d a : Reg) : Exec Nat := do
  useG [a] (some d)
  let s ← get
  let p := (gval s a).toNat
  cadSend p
  cadGood p
  pure p

/-- ACCEPT (R271). -/
def execAccept (d a : Reg) : State → Host.Outcome State Fault Refusal :=
  run do
    let p ← cadParcel d a
    cadRetired p
    let s ← get
    let me := curEstate s
    let x := entryOf s p
    if !offered x || x.target ≠ some me then cadFinish d p 5
    else if unofferable s p then do
      set (setEntry s p (unoffered x 3))
      cadFinish d p 5
    else if x.state = .offeredLoan then do
      set (beginLeave (setEntry s p { x with
        state := .scrubbing, outcome := 1, deadline := s.cycle + x.term, leaving := some x.holder, after := .loan }) p x.holder)
      cadAwait d p false
    else if x.wipe then do
      set (beginLeave (setEntry s p { x with
        state := .scrubbing, outcome := 1, holder := me, leaving := some x.holder, after := .hold }) p x.holder)
      cadAwait d p false
    else do
      set (beginLeave (setEntry s p { x with leaving := some x.holder }) p x.holder)
      let s1 ← get
      if !leaveReady s1 p x.holder then cadAwait d p false
      set { leaveWork s1 p with cur := s1.cur }
      let s2 ← get
      if workLeft s2 p then cadAwait d p false
      set { endTransfer s2 p with cur := s1.cur }
      cadFinish d p 0

/-- DECLINE (R296). -/
def execDecline (d a : Reg) : State → Host.Outcome State Fault Refusal :=
  run do
    let p ← cadParcel d a
    cadRetired p
    let s ← get
    let x := entryOf s p
    if offered x && x.target == some (curEstate s) then do
      set (setEntry s p (unoffered x 2))
      cadFinish d p 0
    else cadFinish d p 5

/-- WITHDRAW (R375). -/
def execWithdraw (d a : Reg) : State → Host.Outcome State Fault Refusal :=
  run do
    let p ← cadParcel d a
    cadRetired p
    let s ← get
    let x := entryOf s p
    if x.holder ≠ curEstate s then cadFinish d p 5
    else if offered x then do
      set (setEntry s p (unoffered x 3))
      cadFinish d p 0
    else if x.state = .held && x.outcome = 2 then do
      set (setEntry s p { x with outcome := 0 })
      cadFinish d p 4
    else cadFinish d p 5

/-! ### The end of a loan -/

/-- RETURN (R344). -/
def execCadReturn (d a : Reg) : State → Host.Outcome State Fault Refusal :=
  run do
    let p ← cadParcel d a
    cadRetired p
    let s ← get
    let x := entryOf s p
    if lent x && x.occupant == some (curEstate s) then do
      set (beginReversion s p)
      cadAwait d p false
    else cadFinish d p 2

/-- The notice starts (R172); of a parcel under notice already, a retirement's keeps the earlier deadline (R199, R267). -/
def startNotice (s : State) (core p : Nat) (x : Entry) (source : Nat) : State :=
  let occ := x.occupant.getD x.holder
  let own := s.cycle + (estateOf s occ).notice
  let deadline := if x.state = .reclaiming then min x.deadline own else own
  let s1 := setEntry s p { x with state := if x.occupant.isSome then .reclaiming else x.state, deadline := deadline }
  if parcelKind p = 1 then requestCore deadline source s1 (parcelIndex p)
  else sinkRecord s1 core occ (hwRecord s1 occ 3 0 (BitVec.ofNat 64 deadline) (BitVec.ofNat 64 p))

/-- RECLAIM and reclaim.wait (R342). -/
def reclaim (wait : Bool) (d a : Reg) : Exec Unit := do
  let p ← cadParcel d a
  cadRetired p
  let s ← get
  let x := entryOf s p
  if x.holder ≠ curEstate s then notHeld p
  match x.state with
  | .held => cadFinish d p 0
  | .offeredGive | .offeredLoan => cadFinish d p 6
  | .onLoan =>
    if s.cycle < x.deadline then cadFinish d p 2
    else do
      set (startNotice s s.cur.core p x 1)
      if wait then cadAwait d p true else cadFinish d p 3
  | .reclaiming => if wait then cadAwait d p true else cadFinish d p 3
  | .scrubbing => if wait then cadAwait d p true else cadFinish d p 6
  | .retired => cadFinish d p 2

/-- RECLAIM (R342). -/
def execReclaim (d a : Reg) : State → Host.Outcome State Fault Refusal := run (reclaim false d a)

/-- RECLAIM.wait (R342). -/
def execReclaimWait (d a : Reg) : State → Host.Outcome State Fault Refusal := run (reclaim true d a)

/-! ### YIELD (R200, R378) -/

/-- The occupant's work threads on a core. -/
def workThreads (s : State) (core : Nat) : Bool := (coreOf s core).slots.any (fun k => k.2.live && !isService core k.1)

/-- The work threads of a core have all yielded, or are parked: at least one has yielded. -/
def coreYielded (s : State) (core : Nat) : Bool :=
  let work := (coreOf s core).slots.filter (fun k => k.2.live && !isService core k.1)
  work.all (fun k => k.2.wait.reason == .saved || k.2.wait.reason == .parked) && work.any (fun k => k.2.wait.reason == .saved)

/-- The last occupant thread of a core under notice has yielded: the reversion starts at once (R172, R267). DEDUCED (log 25). -/
def endNotice (s : State) (core : Nat) : State :=
  let p := parcelCore core
  let x := entryOf s p
  if (x.state = .reclaiming || (x.retiring && x.state != .scrubbing)) && coreYielded s core then beginReversion s p else s

/-- Whether a crew rests whole: at least one thread has yielded, and nothing is left that its save must await (R200). -/
def crewRests (s : State) (h : Nat) : Bool :=
  let crew := crewSlots s h
  (taskOf s h).phase == .running && crew.any (fun p => p.2.2.wait.reason == .saved) && crewYielded s h &&
    crew.all (fun p => settled s p.1 p.2.1 && !coreLeaving s p.1 && !s.halted.contains (clusterOf p.1))

/-- What follows once threads of a crew have yielded: the notices of their cores end, and a crew that rests whole is saved at once
(R172, R200). -/
def yielded (s : State) (h : Nat) : State :=
  match crewSlots s h with
  | [] => s
  | p :: ps =>
    let s1 := ((p :: ps).map (·.1)).eraseDups.foldl endNotice s
    if crewRests s1 h then saveCrew s1 p.1 h false else s1

def yieldTurn : Exec Unit := do
  let s ← get
  let x := curSlot s
  if x.request.isNone || isService s.cur.core s.cur.slot then set (endFall 1 s)
  else
    let s1 := endFall 1 s
    set (yielded (setCurSlot s1 { curSlot s1 with wait := { reason := .saved } }) x.task)

/-- YIELD (R378). -/
def execYield : State → Host.Outcome State Fault Refusal := run yieldTurn

def execYieldShort : State → Host.Outcome State Fault Refusal := run yieldTurn

/-! ### Charters (R178, R179, R286) -/

/-- The bits of the record's dwords that are Z. -/
def imageZeros (k : Nat) : Nat :=
  match k with
  | 0 => 0xFFFF40FFC000C000
  | 4 => 0xFFFFFFFF00000000
  | 5 => 0xFFFFFFFFFFFF8000
  | 7 => 0xFFFFC00000000000
  | 14 => 0xFFF0000000000FFF
  | 15 | 17 | 18 | 19 | 20 | 21 | 22 | 23 => 0
  | 16 => 0xFFFFFFFFFFFFFFFC
  | 1 | 2 | 3 | 6 | 8 | 9 | 10 | 11 | 12 | 13 => 0xFFFF000000000000
  | _ => 0xFFFFFFFFFFFFFFFF

/-- The conditions on a record image (R179, R286). DEDUCED (log 25). -/
def imageOk (ds : List Word) : Bool :=
  let x : Estate := { dwords := ds }
  ds.zipIdx.all (fun p => p.1 &&& BitVec.ofNat 64 (imageZeros p.2) == 0) && 3600 ≤ x.notice && x.saveSize % 2048 == 0 &&
    x.spillSize % 65536 == 0 && x.sinkSize % 64 == 0 && x.pagerSize % 32 == 0 && attrsOk (x.dw 20) && attrsOk (x.dw 23)

/-- What a partition selector asks for: the new partition, if any; none where it is bad (R178). -/
def charterPart (s : State) (me : Nat) (fresh : Bool) (sel key : Word) : Option (Option Nat) :=
  if sel = 0 then (if key = 0 then some none else none)
  else
    let p := sel.toNat - 0x40
    if 0x41 ≤ sel.toNat && sel.toNat ≤ 0x7F && fresh && (estateOf s me).principal && !(partOf s p).inuse &&
        key.toNat == parcelKey p && (entryOf s (parcelKey p)).holder == 0 then
      some (some p)
    else none

/-- A new partition, with its first estate and its KEY parcel (R178): what its function holds stays (R244, R257). -/
def openPart (s : State) (q id : Nat) : State :=
  setPart s q { partOf s q with inuse := true, first := id, key := some q, frontier := 0, admissions := 0, service := [] }

/-- CHARTER (R178, R286). The values of a rewritten record come into force with the status. Where the image is bad and the parcel may not
be chartered either, the bad image comes first. DESIGN CHOICE (log 64). -/
def execCharter (d a : Reg) (e : EReg) : State → Host.Outcome State Fault Refusal :=
  run do
    let p ← cadParcel d a
    if parcelKind p ≠ 0 then cadTrap p 3
    let s0 ← get
    let n := e.toNat
    let image ← loadOperand 0 (eval s0 n).toNat 256 8
    let s ← get
    let me := curEstate s
    let ds := (cutBits 64 image 32).map (BitVec.ofNat 64)
    let x := entryOf s p
    let sel := charterPart s me (!x.inuse) (eval s (n + 1)) (eval s (n + 2))
    if !imageOk ds || eval s (n + 3) ≠ 0 || sel.isNone then cadTrap p 4
    cadRetired p
    let id := parcelIndex p
    if x.inuse then
      if id ≠ me && x.holder ≠ me then notHeld p
      if s.cur.defer then cadFinish d p 0 16 ds
      set (putImage s id ds)
      cadFinish d p 0
    else do
      if x.state ≠ .held || x.holder ≠ me then notHeld p
      let s1 := match sel with
        | some (some q) => openPart s q id
        | _ => s
      let part := match sel with
        | some (some q) => q
        | _ => (estateOf s me).part
      set (setEstate (setEntry s1 p { x with inuse := true }) id { part := part, guarantor := me, dwords := ds })
      cadFinish d p 0

/-! ### Muster and escheat (R180, R181, R281, R299, R331) -/

/-- The caller guarantees an estate: it holds the ESTATE parcel of an estate that exists. -/
def guarantees (s : State) (me p : Nat) : Bool := (entryOf s p).inuse && (entryOf s p).holder == me

/-- MUSTER (R180, R331). -/
def execMuster (d a : Reg) (e : EReg) : State → Host.Outcome State Fault Refusal :=
  run do
    let p ← cadParcel d a
    let s ← get
    let me := curEstate s
    let period := (eval s e.toNat).toNat
    if period < 3600 || 2 ^ 48 ≤ period then cadTrap p 4
    if parcelKind p ≠ 0 then cadTrap p 3
    let id := parcelIndex p
    if id = me then cadTrap p 5
    cadRetired p
    if !guarantees s me p then notHeld p
    let x := estateOf s id
    if x.muster = 1 then cadFinish d p 6
    else do
      let deadline := s.cycle + period
      let s1 := setEstate s id { x with muster := 1, musterDeadline := deadline }
      set (sinkRecord s1 s.cur.core id
        { kind := 4, addr := BitVec.ofNat 64 deadline, aux := BitVec.ofNat 64 me })
      cadFinish d p 0

/-- ANSWER (R281). -/
def execAnswer (d : Reg) : State → Host.Outcome State Fault Refusal :=
  run do
    useG [] (some d)
    firm
    emptyBuffer
    let s ← get
    let x := estateOf s (curEstate s)
    let p := parcelEstate (curEstate s)
    if x.muster = 1 then do
      set (setEstate s (curEstate s) { x with muster := 2 })
      cadFinish d p 0
    else cadFinish d p 5

/-- An estate with all that it guarantees, directly or through others. -/
def subtree (s : State) (set : List Nat) : Nat → List Nat
  | 0 => set
  | fuel + 1 =>
    let more := (s.estates.filter (fun e => !set.contains e.1 && !e.2.principal && set.contains e.2.guarantor)).map (·.1)
    if more.isEmpty then set else subtree s (set ++ more) fuel

/-- A parcel's entry once its offers are off (R181 step 2). One whose ACCEPT already runs is an offer no longer. -/
def dissolveOffer (set : List Nat) (x : Entry) : Entry :=
  if !offered x || x.leaving.isSome then x
  else if set.contains x.holder then unoffered x 3
  else if (x.target.map (set.contains ·)).getD false then unoffered x 2
  else x

/-- A parcel's entry after a dissolution (R181 steps 2 to 4). -/
def dissolveEntry (set : List Nat) (receiver p : Nat) (x0 : Entry) : Entry :=
  let x := dissolveOffer set x0
  let gone (o : Option Nat) : Bool := (o.map (set.contains ·)).getD false
  let heir (h : Nat) : Nat := if set.contains h then receiver else h
  let y : Entry := match x.state with
    | .onLoan | .reclaiming =>
      if gone x.occupant then
        { x with
          state := .scrubbing, holder := heir x.holder, occupant := none, lender := none, deadline := 0, term := 0,
          leaving := x.occupant, after := if x.retiring then .retire else .hold }
      else if set.contains x.holder then { x with holder := receiver, lender := some receiver, gen := x.gen + 1 }
      else x
    | .held =>
      if set.contains x.holder then
        { x with state := .scrubbing, holder := receiver, leaving := some x.holder, after := if x.retiring then .retire else .hold }
      else x
    | .scrubbing =>
      if x.after = .loan ∧ gone x.target then { x with holder := heir x.holder, target := none, after := .hold }
      else { x with holder := heir x.holder }
    | .offeredGive | .offeredLoan =>
      if x.leaving.isSome ∧ gone x.target then { x with state := .scrubbing, holder := receiver, target := none, wipe := false, after := .hold }
      else x
    | .retired => x
  if parcelKind p = 0 ∧ set.contains (parcelIndex p) then { y with inuse := false } else y

/-- The threads and tasks of a set of estates are gone, with all that is kept for them (R181 steps 1 and 5). -/
def dropEstates (s : State) (set : List Nat) : State :=
  let mine (e : Nat) : Bool := set.contains e
  let gone (h : Nat) : Bool := mine (taskOf s h).estate
  let kept : ServiceItem → Bool
    | .call e _ _ _ _ _ | .file e _ => !mine e
  let s1 := { s with
    cores := s.cores.map (fun c => (c.1, { c.2 with
      slots := c.2.slots.map (fun k => (k.1, if (k.2.live || !k.2.stores.isEmpty) && mine k.2.estate then {} else k.2)),
      deque := c.2.deque.filter (fun h => !gone h), shadow := c.2.shadow.filter (fun h => !gone h),
      l1 := c.2.l1.filter (fun l => !mine l.estate),
      keeperQueue := c.2.keeperQueue.filter (fun r => !mine r.2.estate) })),
    tasks := s.tasks.filter (fun t => !mine t.2.estate), jobs := s.jobs.filter (fun j => !mine j.2.estate),
    ops := s.ops.filter (fun o => !mine o.2.estate), faults := s.faults.filter (fun f => !mine f.estate),
    estates := s.estates.filter (fun e => !mine e.1), mapped := s.mapped.filter (fun m => !mine m.estate),
    voided := s.voided ++ s.easements.filter (fun g => mine g.grantor),
    easements := s.easements.filter (fun g => !mine g.grantor && !(g.grantee / 16384 == s.pkgId.toNat && mine (g.grantee % 16384))),
    tlbs := s.tlbs.map (fun t => (t.1, t.2.filter (fun x => !mine x.estate))) }
  let live := reachable s1
  { s1 with
    tables := s1.tables.filter (fun t => live.contains t),
    parts := s1.parts.map (fun p =>
      let x := { p.2 with service := p.2.service.filter kept }
      (p.1, if s1.estates.any (fun e => e.2.part == p.1) then x else { x with inuse := false, key := none })) }

/-- The dissolution of a subtree, with a receiver (R181). -/
def dissolve (s : State) (set : List Nat) (receiver : Nat) : State :=
  let s1 := { s with cad := s.cad.map (fun x => (x.1, dissolveEntry set receiver x.1 x.2)) }
  dropEstates s1 set

/-- ESCHEAT (R181, R299). A commit in progress in the subtree completes first, and the instruction issues again (R156). -/
def execEscheat (d a : Reg) : State → Host.Outcome State Fault Refusal :=
  run do
    let p ← cadParcel d a
    let s ← get
    let me := curEstate s
    if parcelKind p ≠ 0 then cadTrap p 3
    let id := parcelIndex p
    if id = me then cadTrap p 5
    cadRetired p
    if !guarantees s me p then notHeld p
    let x := estateOf s id
    if x.muster ≠ 1 || s.cycle < x.musterDeadline then cadFinish d p 2
    else do
      let gone := subtree s [id] s.estates.length
      if estatesCommit s gone then waitFor (memWait 4 0)
      let s1 := dissolve s gone me
      set s1
      if dissolving s1 then cadAwait d p false else cadFinish d p 0

/-! ### SURVEY, EASE (R177, R182, R298, R356) -/

/-- SURVEY (R356). -/
def execSurvey (d a : Reg) (e : EReg) : State → Host.Outcome State Fault Refusal :=
  run do
    let p ← cadParcel d a
    let s ← get
    let me := estateOf s (curEstate s)
    let x := entryOf s p
    let out := if me.principal || entryPart s x = me.part then entryDwords s x else [entryPart s x % 64 * 2 ^ 42, 0, 0, 0]
    cadFinish d p 0 e.toNat (out.map (BitVec.ofNat 64))

/-- The rights that suit a kind (R182). -/
def easeRights (kind : Nat) : Nat :=
  match kind with
  | 4 => 7
  | 1 => 8
  | 6 => 16
  | _ => 0

/-- A parcel that its user may ease. -/
def easable (s : State) (me p : Nat) : Bool := uses s me p && !offered (entryOf s p)

/-- EASE (R182, R298). DEDUCED (log 25). Where the caller may not ease some parcel of the range, AUX names the first of the range; a second
grant like one that stands is another entry. DESIGN CHOICE (log 54). A REVOKE returns once what the grant admitted has been performed. -/
def execEase (d a b : Reg) (e : EReg) : State → Host.Outcome State Fault Refusal :=
  run do
    useG [a, b] (some d)
    let s0 ← get
    let p := (gval s0 a).toNat
    cadSend p
    cadGood p
    let s ← get
    let me := curEstate s
    let grantee := (gval s b).toNat
    let count := (eval s e.toNat).toNat
    let w := eval s (e.toNat + 1)
    let revoke := bits w 63 1 == 1
    let rights := bits w 0 63
    let kind := parcelKind p
    if 2 ^ 28 ≤ grantee || count = 0 || 4096 < count || 32 ≤ rights || (rights == 0 && !revoke) then cadTrap p 4
    if easeRights kind = 0 then cadTrap p 3
    if rights &&& easeRights kind ≠ rights || (kind ≠ 4 && count ≠ 1) || kindCount kind < parcelIndex p + count then cadTrap p 4
    cadRetired p
    if !(List.range count).all (fun i => easable s me (p + i)) then notHeld p
    let same (g : Easement) : Bool := g.grantor == me && g.grantee == grantee && g.parcel == p && g.count == count
    if revoke then
      match s.easements.find? same with
      | some g => do
        let s1 : State := { s with easements := s.easements.erase g }
        set s1
        if easedOut s1 then waitFor { memWait 4 0 with sent := true } (.cad d p (some 0) 0 [] true)
        cadFinish d p 0
      | none => cadFinish d p 5
    else if 4096 ≤ s.easements.length then cadFinish d p 6
    else do
      set { s with easements := s.easements ++ [({ grantor := me, grantee := grantee, parcel := p, count := count, rights := rights } : Easement)] }
      cadFinish d p 0

end Sys2Proof.Machine
end

