-- ==== Sys2Proof/Machine/System.lean ====
section
/-! DEFINITION. The system instructions: state registers, TRAP, the keeper's instructions, SYSC, UINT and NOTIFY; and the events
of the watchdog, of user interrupts, of fetch and of the Jasper chain (R39, R56, R84, R188 to R198, R253, R255, R256, R307 to
R309, R335, R341, R357, R359, R362, R376). -/

namespace Sys2Proof.Machine

/-! ### State registers (R39, R341, R376) -/

/-- KEY of the current task; 0 where a slot carries none. -/
def keyWord (s : State) (x : Slot) : Word :=
  if x.task = 0 then 0
  else
    let t := taskOf s x.task
    BitVec.ofNat 64 (t.ts % 2 ^ 40 + 2 ^ 40 * (t.width - 1) + 2 ^ 47 * t.firm.toNat)

/-- PRQ (R199). -/
def prqWord (s : State) (x : Slot) : Word :=
  match x.request with
  | some r => BitVec.ofNat 64 (2 ^ 63 + 2 ^ 48 * r.source + (r.deadline - s.cycle) % 2 ^ 48)
  | none => 0

/-- TRAPREC (R191). -/
def traprecWord (c : Core) : Word :=
  match c.keeperQueue with
  | [] => 0
  | (k, _) :: rest => BitVec.ofNat 64 (256 + 16 * rest.length + k)

/-- The value of a state register; none for an index outside the table. -/
def stateReg (s : State) (idx : Nat) : Option Word :=
  let c := curCore s
  let x := curSlot s
  match idx with
  | 0x00 => some (BitVec.ofNat 64 (threadId s.cur.core s.cur.slot + 2 ^ 14 * (isService s.cur.core s.cur.slot).toNat))
  | 0x01 => some (BitVec.ofNat 64 x.estate)
  | 0x02 => some (BitVec.ofNat 64 (estateOf s x.estate).part)
  | 0x03 => some (BitVec.ofNat 64 s.cycle)
  | 0x04 => some (keyWord s x)
  | 0x05 => some x.frm
  | 0x06 => some x.fflags
  | 0x07 => some (prqWord s x)
  | 0x08 => some x.wdog
  | 0x09 => some c.dqbase
  | 0x0A => some c.dqlim
  | 0x0B => some x.uih
  | 0x0C => some x.uiret
  | 0x0D => some c.win
  | 0x0E => some (traprecWord c)
  | 0x0F => some x.uiex
  | 0x10 => x.lc[0]?
  | 0x11 => x.lc[1]?
  | 0x12 => x.lc[2]?
  | _ => none

/-- RDS (R341). -/
def execRds (d : Reg) (idx : BitVec 8) : State → Host.Outcome State Fault Refusal :=
  run do
    let s0 ← get
    if (stateReg s0 idx.toNat).isNone || (idx == 0x0E && !isKeeper s0.cur.core s0.cur.slot) then illegal
    useG [] (some d)
    modify (fun s => endFall 1 (putG (wbPoint s 1) d ((stateReg s idx.toNat).getD 0) s))

/-- Moves every entry of a core's deque to the overflow ring, the oldest first; false while the ring has no room (R143). -/
def emptyDeque (core : Nat) : Nat → State → Bool × State
  | 0, s => ((coreOf s core).deque.isEmpty, s)
  | fuel + 1, s =>
    if (coreOf s core).deque.isEmpty then (true, s) else
    match spillDeque s core with
    | (true, s1) => emptyDeque core fuel s1
    | r => r

/-- WRS to DQBASE or DQLIM: v is the new value, base and lim what the two registers would hold (R143). Where the overflow ring cannot be
written, the move fails and the thread traps (R142). -/
def writeDeque (v : Word) (base lim : Word) (act : Word → WbAct) : Exec Unit := do
  if v.toNat % 64 ≠ 0 || 2 ^ 18 ≤ v.toNat || lim < base || 0x3C000 < lim.toNat then illegal
  let s ← get
  let c := s.cur.core
  let r := emptyDeque c (coreOf s c).deque.length s
  set r.2
  if !r.1 then do
    let x := estateOf r.2 ((((coreOf r.2 c).deque.head?).map (fun h => (taskOf r.2 h).estate)).getD 0)
    if ringSize x ≤ x.ring.length then waitFor (memWait (dieOf c) 12)
    trapWith .pageInvalid (BitVec.ofNat 64 x.spillBase)
  modify fun s => endFall 1 (addWb (wbPoint s 1) (act v) (setCore s c { coreOf s c with dequeNext := 0 }))

/-- Writes a register of the thread. -/
def putState (f : Slot → Slot) : Exec Unit := modify (fun s => endFall 1 (setCurSlot s (f (curSlot s))))

/-- An sg7 offset as UIH and UIRET hold it: [47:1]. -/
def offsetOk (v : Word) : Bool := v.toNat % 2 == 0 && v.toNat < 2 ^ 48

/-- WRS (R376). -/
def execWrs (idx : BitVec 8) (a : Reg) : State → Host.Outcome State Fault Refusal :=
  run do
    let n := idx.toNat
    if n < 5 || n == 7 || n == 14 || 0x12 < n then illegal
    useG [a] none
    let s ← get
    let v := gval s a
    let c := curCore s
    match n with
    | 0x05 => if frmOk v then putState (fun x => { x with frm := v }) else illegal
    | 0x06 => if fflagsOk v then putState (fun x => { x with fflags := v }) else illegal
    | 0x08 => putState (fun x => { x with wdog := v })
    | 0x09 => writeDeque v v c.dqlim .dqbase
    | 0x0A => writeDeque v c.dqbase v .dqlim
    | 0x0B => if offsetOk v then putState (fun x => { x with uih := v }) else illegal
    | 0x0C => if offsetOk v then putState (fun x => { x with uiret := v }) else illegal
    | 0x0D =>
      if 2 ^ 40 ≤ v.toNat then illegal
      modify (fun s => endFall 1 (addWb (wbPoint s 1) (.win v) s))
    | 0x0F => putState (fun x => { x with uiex := v })
    | _ => putState (fun x => { x with lc := x.lc.setIfInBounds (n - 0x10) v })

/-- TRAP (R359). -/
def execTrap (code : BitVec 8) : State → Host.Outcome State Fault Refusal := run (trapWith .trap 0 (BitVec.ofNat 64 code.toNat))

/-! ### The keeper (R192, R193, R307 to R309) -/

/-- The keeper alone may issue the instruction (R77). -/
def keeperOnly : Exec Unit := do
  let s ← get
  if !isKeeper s.cur.core s.cur.slot then illegal

/-- The slot that g[a] names. -/
def servedSlot (a : Word) : Exec Nat := if 15 ≤ a.toNat then illegal else pure a.toNat

def isParked (x : Slot) : Bool := x.live && x.wait.reason == .parked

/-- The queued record of a slot. -/
def queuedRecord (c : Core) (k : Nat) : Option TrapRec := (c.keeperQueue.find? (·.1 == k)).map (·.2)

/-- The state that a selector names; none outside the table and for END (R192). -/
def selected (c : Core) (k : Nat) (x : Slot) (sel : Nat) : Option Word :=
  if sel < 0x10 then x.g[sel]?
  else if sel < 0x20 then x.e[sel - 0x10]?
  else if sel < 0x38 then
    let sg : Seg := x.sg[(sel - 0x20) / 3]?.getD {}
    some (match (sel - 0x20) % 3 with
      | 0 => sg.base
      | 1 => sg.limit
      | _ => sg.attrs)
  else if sel = 0x38 then some x.pc
  else if sel = 0x39 then some x.wait.word
  else if sel < 0x3D then x.lc[sel - 0x3A]?
  else if sel = 0x3D then some x.frm
  else if sel = 0x3E then some x.fflags
  else if sel = 0x3F then some x.wdog
  else if 0x80 ≤ sel && sel < 0x100 then
    some (BitVec.ofNat 64 ((x.v[(sel - 0x80) / 8]?.getD 0).toNat / 2 ^ (64 * ((sel - 0x80) % 8)) % 2 ^ 64))
  else if 0x100 ≤ sel && sel < 0x108 then
    some (BitVec.ofNat 64 (((queuedRecord c k).map (fun r => r.dwords[sel - 0x100]?.getD 0)).getD 0))
  else none

/-- KREAD (R307). -/
def execKread (d a b : Reg) : State → Host.Outcome State Fault Refusal :=
  run do
    keeperOnly
    useG [a, b] (some d)
    let s ← get
    let k ← servedSlot (gval s a)
    let x := slotOf s s.cur.core k
    match selected (curCore s) k x (gval s b).toNat with
    | none => illegal
    | some v =>
      let v' := if isParked x then v else 0
      set (endFall 1 (putG (wbPoint s 1) d v' s))

/-- Whether KWRITE may write a value at a selector (R192). -/
def writableAs (sel : Nat) (v : Word) : Bool :=
  if sel < 0x20 then true
  else if sel < 0x38 then (sel - 0x20) % 3 != 2 || attrsOk v
  else if sel = 0x38 then v.toNat % 2 == 0
  else if sel = 0x39 then false
  else if sel < 0x3D then true
  else if sel = 0x3D then frmOk v
  else if sel = 0x3E then fflagsOk v
  else sel == 0x3F || (0x80 ≤ sel && sel < 0x100) || sel == 0x108

/-- Dword k of a packet replaced. -/
def setDword (p : Packet) (k : Nat) (v : Word) : Packet :=
  (p &&& ~~~((BitVec.ofNat 512 (2 ^ 64 - 1)) <<< (64 * k))) ||| ((BitVec.ofNat 512 v.toNat) <<< (64 * k))

/-- A slot with the state at a selector replaced. -/
def Slot.select (x : Slot) (sel : Nat) (v : Word) : Slot :=
  if sel = 0 then x
  else if sel < 0x10 then { x.clean false sel with g := x.g.setIfInBounds sel v }
  else if sel < 0x20 then { x with e := x.e.setIfInBounds (sel - 0x10) v }
  else if sel < 0x38 then
    let n := (sel - 0x20) / 3
    let sg : Seg := x.sg[n]?.getD {}
    let sg' : Seg := match (sel - 0x20) % 3 with
      | 0 => { sg with base := v }
      | 1 => { sg with limit := v }
      | _ => { sg with attrs := v }
    { x with sg := x.sg.setIfInBounds n sg' }
  else if sel = 0x38 then { x with pc := v, rows := if v = x.pc then x.rows else none }
  else if sel < 0x3D then { x with lc := x.lc.setIfInBounds (sel - 0x3A) v }
  else if sel = 0x3D then { x with frm := v }
  else if sel = 0x3E then { x with fflags := v }
  else if sel = 0x3F then { x with wdog := v }
  else
    let n := (sel - 0x80) / 8
    { x with v := x.v.setIfInBounds n (setDword (x.v[n]?.getD 0) ((sel - 0x80) % 8) v) }

/-- Ends a thread as by EXIT (R50, R192, R194). -/
def exitSlot (s : State) (core k : Nat) : State :=
  if isCourier core k then endHandler (setCore s core (dropRecords (coreOf s core) k)) core .refused
  else if (slotOf s core k).task = 0 then clearSlot (orphanOps s core k) core k false
  else endThread s core k .exited

/-- KWRITE (R309). Ending a courier answers its sender, which may wait on this core, so what the keeper issues is kept. -/
def execKwrite (d a b : Reg) : State → Host.Outcome State Fault Refusal :=
  run do
    keeperOnly
    useG [a, b, d] none
    let s ← get
    let k ← servedSlot (gval s a)
    let sel := (gval s b).toNat
    let v := gval s d
    if !writableAs sel v then illegal
    let s1 := endFall 1 s
    let x := slotOf s1 s.cur.core k
    if !isParked x then set s1
    else if sel = 0x108 then set { exitSlot s1 s.cur.core k with cur := s1.cur }
    else set (setSlot s1 s.cur.core k (x.select sel v))

/-- How KRET sets the PC (R193). -/
inductive Resumption where
  | retry
  | skip
  | jump (pc : Word)
  deriving DecidableEq, Repr

/-- A thread with the PC that KRET gives it: the loops end whose bodies do not hold it, and those inside them (R46). An MMA that is retried
keeps its rows done (R211). -/
def Slot.resumeAt (x : Slot) (long : Bool) (r : Resumption) : Slot :=
  let pc := match r with
    | .retry => x.pc
    | .skip => x.pc + (if long then 4 else 2)
    | .jump pc => pc
  { x with pc := pc, loops := x.loops.takeWhile (·.holds pc), rows := if r = .retry then x.rows else none }

/-- The saved tasks whose records hold a parked thread that was in slot k of a core: handle and crew index. -/
def savedParked (s : State) (core k : Nat) : List (Nat × Nat) :=
  s.tasks.flatMap fun t => (t.2.savedFrom.filter (fun m => m.2.1 == core && m.2.2 == k)).map (fun m => (t.1, m.1))

/-- KRET of a slot whose crew was saved while parked: TRAPPED is cleared in the save record, and the PC and the loops are set
there (R308). -/
def kretSaved (s : State) (core : Nat) (r : Resumption) (h index : Nat) : State :=
  let t := taskOf s h
  match t.saveRun, t.saving.find? (·.1 == index) with
  | some _, some m =>
    let va := recordAt s t index
    match hwRead s core t.estate va 2048 true 40 with
    | (some v, s1) =>
      if bits (recDw v 0) 48 1 = 0 then s1 else
      let x := measureLoops s1 core m.2.1 (slotOfRecord t.estate v m.2.1 {} none 0)
      let y := x.resumeAt (recTrap v).long r
      let d0 := (recDw v 0).toNat - 2 ^ 48 - x.pc.toNat + y.pc.toNat % 2 ^ 48
      let loops := dwordsNat [loopDword y.loops 0, loopDword y.loops 1, loopDword y.loops 2, y.loops.length]
      let s2 := (hwWrite s1 core t.estate va 8 d0 true 2).2
      (hwWrite s2 core t.estate (va + 8 * 67) 32 loops true 2).2
    | (none, s1) => s1
  | _, _ => s

/-- Ends the park of slot k of a core. -/
def kretSlot (s : State) (core k : Nat) (r : Resumption) : State :=
  let x := slotOf s core k
  if isParked x then
    let long := ((queuedRecord (coreOf s core) k).map (·.long)).getD x.long
    let s1 := setCore s core (dropRecords (coreOf s core) k)
    setSlot s1 core k { (slotOf s1 core k).resumeAt long r with
      wait := {}, readyAt := ticksOf s core + 8, barHalf := false }
  else if x.live then s
  else (savedParked s core k).foldl (fun s p => kretSaved s core r p.1 p.2) s

/-- KRET in its three forms; what the new PC is, when the registers have been read. -/
def kret (a : Reg) (srcs : List Reg) (how : State → Resumption) : Exec Unit := do
  keeperOnly
  useG srcs none
  let s ← get
  let k ← servedSlot (gval s a)
  let r := how s
  set (kretSlot (endFall 1 s) s.cur.core k r)

/-- KRET (R193). -/
def execKret (a : Reg) : State → Host.Outcome State Fault Refusal := run (kret a [a] (fun _ => .retry))

/-- KRET.skip (R193). -/
def execKretSkip (a : Reg) : State → Host.Outcome State Fault Refusal := run (kret a [a] (fun _ => .skip))

/-- KRET.pc (R193). -/
def execKretPc (a b : Reg) : State → Host.Outcome State Fault Refusal := run (kret a [a, b] (fun s => .jump (gval s b)))

/-! ### SYSC (R253, R357) -/

/-- Checks one argument of SYSC; answers its value, a pointer as the VA it names. -/
def syscArg (desc : Word) (i : Nat) : Exec Word := do
  let s ← get
  let g := (curSlot s).g[i + 1]?.getD 0
  readable false (BitVec.ofNat 5 (i + 1))
  if bits desc (12 + i) 1 = 0 then pure g
  else do
    let sg := bits desc (18 + 3 * i) 3
    let x := ownAccess s sg g.toNat 1 1 true false
    if !x.spans.all (inSegment x.seg) then trapWith .segment x.addr (BitVec.ofNat 64 sg) sg
    if !x.seg.r then trapWith .rights x.addr (BitVec.ofNat 64 sg) sg
    if x.seg.space ≠ 0 then trapWith .syscSpace 0 (BitVec.ofNat 64 i) sg
    let va := segAddr x.seg x.off
    let r := xlate s (clusterOf x.core) x.estate va (needs true false false)
    set r.2
    match r.1 with
    | .missing level e file => pageFault x.estate va level e file 0 sg
    | .page _ p1 _ =>
      if pteTarget p1 = 2 then trapWith .syscSpace 0 (BitVec.ofNat 64 i) sg
      pure (BitVec.ofNat 64 va)

def syscArgs (desc : Word) : List Nat → Exec (List Word)
  | [] => pure []
  | i :: is => do
    let v ← syscArg desc i
    let rest ← syscArgs desc is
    pure (v :: rest)

/-- The call tokens in use. -/
def tokensOf (s : State) : List Nat :=
  s.cores.flatMap (fun c => c.2.slots.filterMap (fun k => match k.2.pend with
    | .sysc _ t _ => some t
    | _ => none)) ++
  s.tasks.flatMap (fun t => t.2.saving.filterMap (fun m => match m.2.1.pend with
    | .sysc _ t _ => some t
    | _ => none))

/-- SYSC (R357): the call enters its partition's service queue, and the thread waits for Garnet. DESIGN CHOICE (log 28). -/
def execSysc (d : Reg) (e : EReg) : State → Host.Outcome State Fault Refusal :=
  run do
    useG [] (some d)
    let s ← get
    let desc := eval s e.toNat
    if bits desc 36 28 ≠ 0 then illegal
    let args ← syscArgs desc (List.range 6)
    firm
    emptyBuffer
    let s1 ← get
    let est := curEstate s1
    let n := fresh s1 (tokensOf s1)
    set (addService n.2 (estateOf s1 est).part (.call est n.1 s.cur.core s.cur.slot (bits desc 0 12) args))
    waitFor { reason := .sysc, sent := true, peer := n.1 } (.sysc d n.1 none)

/-! ### UINT and NOTIFY (R255, R256, R335, R362) -/

/-- UINT (R362). -/
def execUint (a b : Reg) : State → Host.Outcome State Fault Refusal :=
  run do
    useG [a, b] none
    let s ← get
    let t := gval s a
    if 16384 ≤ t.toNat then illegal
    firm
    let s1 ← get
    let v := gval s1 b
    set (endFall 1 (addWb (wbPoint s1 1) (.uint t.toNat v) s1))

/-- Whether the value posted to a slot is delivered now: its thread is at an instruction boundary outside every loop, neither saved nor
parked, and takes it (R256). -/
def deliverable (s : State) (core slot : Nat) : Bool :=
  let x := slotOf s core slot
  x.posted.isSome && x.live && x.wait.reason == .none && x.pend == .none && !x.barHalf && !x.past && x.uih != 0 && x.loops.isEmpty &&
    x.rows.all (fun r => r.done == 0 && !r.lost) && x.readyAt ≤ ticksOf s core && !s.halted.contains (clusterOf core)

/-- UINT_DELIVER: a posted value reaches its thread (R256). -/
def execUintDeliver (core slot : Nat) (s : State) : Host.Outcome State Fault Refusal :=
  let x := slotOf s core slot
  match x.posted with
  | some v =>
    if deliverable s core slot then
      .next (setSlot s core slot { x with
        uiret := x.pc, pc := x.uih, uih := 0, uiex := x.e[15], e := x.e.set 15 v, posted := none })
    else .next s
  | none => .next s

/-- Writes a mailbox and sends its vector's MSI-X message, or sets the pending bit of a masked vector (R255). DESIGN CHOICE (log 28). -/
def sendMsi (s : State) (part vector : Nat) (v : Word) : State :=
  let p := partOf s part
  let p1 := { p with mailbox := if v = 0 then mapErase p.mailbox vector else mapSet p.mailbox vector v }
  setPart s part (
    if !p.msix then p1
    else if p.masked.contains vector then { p1 with msiPending := vector :: p1.msiPending.filter (· != vector) }
    else { p1 with msiSent := vector :: p1.msiSent })

/-- NOTIFY (R335). -/
def execNotify (a b : Reg) : State → Host.Outcome State Fault Refusal :=
  run do
    useG [a, b] none
    let s ← get
    let t := gval s a
    if 64 ≤ t.toNat then illegal
    firm
    emptyBuffer
    let s1 ← get
    let v := gval s1 b
    set (endFall 1 (sendMsi s1 (estateOf s1 (curEstate s1)).part t.toNat v))

/-! ### The watchdog, and words that do not decode -/

/-- The reasons whose wait the watchdog counts (R198). -/
def counted : Reason → Bool
  | .none | .parked | .saved => false
  | _ => true

/-- The count of a waiting thread has reached its limit; in a halted cluster everything stays as it stands (R195, R198). -/
def expired (s : State) (core slot : Nat) : Bool :=
  let x := slotOf s core slot
  x.live && counted x.wait.reason && x.wdog != 0 && x.wdog.toNat ≤ x.wdCount && !s.halted.contains (clusterOf core)

/-- WATCHDOG: the wait ends and the thread traps; a late reply to what it has sent is discarded (R198). -/
def execWatchdog (core slot : Nat) (s : State) : Host.Outcome State Fault Refusal :=
  let x := slotOf s core slot
  if expired s core slot then
    .next (parkSlot { s with outstanding := s.outstanding.filter (fun o =>
        o.orphan || o.line.isSome || o.thread != threadId core slot || isMessage s o) }
      core slot
      { code := .watchdog,
        aux := BitVec.ofNat 64 (x.wait.reason.toNat + 256 * x.wait.sent.toNat + 65536 * (x.wait.peer % 2 ^ 48)) } x.long)
  else .next s

/-- UNDECODABLE_WORD: the word at the PC of the slot that issues has no meaning (R56). -/
def execUndecodableWord : State → Host.Outcome State Fault Refusal := run illegal

/-- FETCH_FAULT: the fetch of the slot that issues traps, or waits for its page (R55, R115, R153). -/
def execFetchFault : State → Host.Outcome State Fault Refusal :=
  run do
    let i ← fetchInstr
    if i.isNone then illegal

/-! ### The Jasper chain (R194, R195, R267) -/

/-- The next cluster's Jasper on the die ring that has not failed; fuel bounds the ring. -/
def nextJasper (s : State) (cluster : Nat) : Nat → Nat
  | 0 => cluster
  | fuel + 1 =>
    let n := 32 * (cluster / 32) + (cluster + 1) % 32
    if (jasperOf s n).failed then nextJasper s n fuel else n

/-- The Jasper that serves a cluster. -/
def servingJasper (s : State) (cluster : Nat) : Nat := if (jasperOf s cluster).failed then nextJasper s cluster 32 else cluster

def setJasper (s : State) (j : Nat) (x : Jasper) : State := { s with jaspers := mapSet s.jaspers j x }

/-- A Jasper core writes a record to the fault sink: false when the ring cannot be translated; a slot in use, or no slot at all,
drops the record. DEDUCED (log 27). -/
def jasperSink (s : State) (core : Nat) (r : TrapRec) : Bool × State :=
  let x := estateOf s r.estate
  let slots := x.sinkSize / 64
  if slots = 0 then (true, sinkDrop s r.estate) else
  if (hwPlace s core r.estate (x.sinkBase + 64 * (x.sinkNext % slots)) true true).1.isNone then (false, s)
  else (true, sinkRecord s core r.estate r)

/-- The record as Jasper writes it. -/
def escalated (r : TrapRec) : TrapRec := { r with kind := 5, hops := r.hops + 1 }

/-- What Jasper does once the record is written (R194 steps 2 and 3). The queued records of step 3 get KIND 5 and a further hop as the
message's own does. DESIGN CHOICE (log 65). -/
def jasperEnds (s : State) (core slot : Nat) (r : TrapRec) : State :=
  if r.code = TrapCode.keeperFault.toNat then
    let q := (coreOf s core).keeperQueue
    let s1 := q.foldl (fun s p => exitSlot (jasperSink s core (escalated p.2)).2 core p.1) s
    setCore s1 core { coreOf s1 core with keeperQueue := [], keeperHeld := false }
  else if isParked (slotOf s core slot) then exitSlot s core slot else s

/-- Halts a cluster and reports it (R195). DEDUCED (log 27). -/
def haltCluster (s : State) (cluster : Nat) (r : TrapRec) : State :=
  { s with halted := cluster :: s.halted.filter (· != cluster), reports := .halt r :: s.reports }

/-- The chain length of a die. -/
def chainOf (s : State) (die : Nat) : Nat := (mapFind s.chains die).getD 2

/-- Jasper j handles a record of a core's slot; false when it has to be forwarded. DEDUCED (log 27). -/
def jasperHandles (s : State) (core slot : Nat) (r : TrapRec) : Bool × State :=
  match jasperSink s core (escalated r) with
  | (true, s1) => (true, jasperEnds s1 core slot r)
  | (false, s1) =>
    if chainOf s1 (dieOf core) ≤ r.hops + 1 then (true, haltCluster s1 (clusterOf core) r) else (false, s1)

/-- The mailbox place of a source: a core's, the Beryl unit's, the copy engine's (R194). -/
def mailPlace (core slot : Nat) : Nat := if slot < 16 then core % 8 else slot - 8

/-- Jasper j takes a message: its firmware handles it, or the mailbox keeps it for the next Jasper. -/
def jasperTakes (s : State) (j : Nat) (m : Mail) : State :=
  match jasperHandles s m.core m.slot m.record with
  | (true, s1) => s1
  | (false, s1) =>
    let x := jasperOf s1 j
    setJasper s1 j { x with mailbox := mapSet x.mailbox (mailPlace m.core m.slot) { m with record := { m.record with hops := m.record.hops + 1 } } }

/-- JASPER_TRAP_MESSAGE: the message of a slot of a core enters the mailbox of its cluster's Jasper, whose firmware handles it;
where it cannot, the mailbox keeps it for the next Jasper (R194, R195). The slots 16 and 17 of a cluster's first core stand for its Beryl
unit and its copy engine. -/
def execJasperTrapMessage (core slot : Nat) (s : State) : Host.Outcome State Fault Refusal :=
  let c := coreOf s core
  match c.toJasper.find? (·.1 == slot) with
  | none => .next s
  | some m =>
    let j := servingJasper s (clusterOf core)
    if s.halted.contains (clusterOf core) || (mapFind (jasperOf s j).mailbox (mailPlace core slot)).isSome then .next s
    else .next (jasperTakes (setCore s core { c with toJasper := c.toJasper.erase m }) j ⟨core, slot, m.2⟩)

/-- JASPER_FORWARD: a record that a Jasper could not handle goes to the next cluster's Jasper (R195). -/
def execJasperForward (core slot : Nat) (s : State) : Host.Outcome State Fault Refusal :=
  let mine (m : Nat × Mail) : Bool := m.2.core == core && m.2.slot == slot
  match s.jaspers.find? (fun j => j.2.mailbox.any mine) with
  | none => .next s
  | some j =>
    match j.2.mailbox.find? mine with
    | none => .next s
    | some m =>
      let n := nextJasper s j.1 32
      let s1 := setJasper s j.1 { j.2 with mailbox := mapErase j.2.mailbox m.1 }
      if (mapFind (jasperOf s1 n).mailbox m.1).isSome then .next s else .next (jasperTakes s1 n m.2)

/-- A message moves into a mailbox; one whose place is taken goes back to wait in its source (R194). -/
def passMail (n : Nat) (s : State) (m : Nat × Mail) : State :=
  let x := jasperOf s n
  if (mapFind x.mailbox m.1).isSome then
    let c := coreOf s m.2.core
    setCore s m.2.core { c with toJasper := (m.2.slot, m.2.record) :: c.toJasper }
  else setJasper s n { x with mailbox := mapSet x.mailbox m.1 m.2 }

/-- JASPER_FAILOVER: a Jasper that fails its self-check passes its mailbox to the next on the ring (R267). -/
def execJasperFailover (cluster : Nat) (s : State) : Host.Outcome State Fault Refusal :=
  let j := jasperOf s cluster
  let s1 := setJasper s cluster { j with failed := true, mailbox := [] }
  let n := nextJasper s1 cluster 32
  .next (j.mailbox.foldl (passMail n) s1)

end Sys2Proof.Machine
end

