-- ==== Sys2Proof/Machine/Boot.lean ====
section
/-! DEFINITION. Host memory as the package reaches it, boot, the principal's restart, retirement and the attestation
report (R183, R258, R259, R262 to R268). -/

namespace Sys2Proof.Machine

/-! ### Host memory (R259) -/

/-- What the device's copy of a host line becomes when the host takes it: its data go to the host when it is in M; then it is S, or
with inv it is gone. -/
def snoopHost (inv : Bool) (s : State) (line : Nat) : State :=
  match rlcFind s none line with
  | none => s
  | some r =>
    let s1 := if r.state = .m then { s with host := memWrite s.host (64 * line) r.data.toNat 64 } else s
    if inv then rlcDrop s1 none line false
    else if r.state = .i then s1 else rlcSet s1 { r with state := .s }

/-- The lines of n bytes from an address. -/
def linesOf (pa n : Nat) : List Nat := (List.range ((pa % 64 + n + 63) / 64)).map (· + pa / 64)

/-- Garnet reads host memory over PCIe. -/
def hostRead (s : State) (pa n : Nat) : Nat × State :=
  let s1 := (linesOf pa n).foldl (snoopHost false) s
  (memRead s1.host pa n, s1)

/-- Garnet writes host memory over PCIe: the device's copies go first. -/
def hostWrite (s : State) (pa n data : Nat) : State :=
  let s1 := (linesOf pa n).foldl (snoopHost true) s
  setHost s1 pa n data

/-- The host lines in M go home (R258). -/
def writeBackHost (s : State) : State :=
  (s.rlc.filter (fun r => r.pkg.isNone)).foldl (fun s r => snoopHost true s r.line) s

/-! ### Boot (R262, R263) -/

/-- The image that a copy of the store holds. -/
def imageOf (s : State) (copy : Bool) : Image := if copy then s.images.2 else s.images.1

/-- Whether a copy passes step 1, given what its signature and its measurement come to. -/
def imagePasses (s : State) (copy ok : Bool) : Bool :=
  ok && (imageOf s copy).valid && Config.fusedMinimum ≤ (imageOf s copy).version

/-- The links as they stand once trained: a port that fails is isolated (R232, R262). -/
def trainedPorts (failed : List Nat) : Map FabricPort :=
  (failed.filter (· < 8)).foldl (fun m p => mapSet m p { isolated := true }) []

/-- The package after a boot: the copy marked current is tried first. What the store, the fuses and host memory hold stays. Step 6 runs only
where the steps before it have. -/
def rebooted (s : State) (okA okB : Bool) (links : BootLinks) : State :=
  let passes (copy : Bool) : Bool := imagePasses s copy (if copy then okB else okA)
  let copy := if passes s.current then s.current else !s.current
  let ends : BootState := if s.cadastreFailed || !passes copy then .recovery
    else if s.lifeCycle = .decommissioned then .stopped else .running
  let s1 := { State.reset with
    host := s.host, lifeCycle := s.lifeCycle, images := s.images, current := if passes copy then copy else s.current,
    draws := s.draws, agenda := s.agenda, sparedRows := s.sparedRows, boot := ends }
  if ends = .running then
    let ports := trainedPorts links.failed
    { s1 with pkgId := links.pkgId, ports := ports, reports := ports.reverse.map (fun p => .isolation p.1) }
  else s1

/-- BOOT (R262). -/
def execBoot (okA okB : Bool) (links : BootLinks) (s : State) : Host.Outcome State Fault Refusal := .next (rebooted s okA okB links)

/-- POWER_LOSS: the package stops; the image marked current stays so (R267). -/
def execPowerLoss (s : State) : Host.Outcome State Fault Refusal := .next { s with boot := .off }

/-! ### The attestation report (R265) -/

/-- LIFECYCLE codes (R264). -/
def LifeCycle.toNat : LifeCycle → Nat
  | .manufacture => 0 | .provisioned => 1 | .deployed => 2 | .decommissioned => 3

/-- The 8,192 bytes of the report for a nonce. -/
def report (s : State) (nonce : Nat) : Nat :=
  let image := imageOf s s.current
  let head := nonce % 2 ^ 256 + (Config.measurement 0).toNat <<< 256 + (Config.sha256 image.size image.data).toNat <<< 512 +
    (Config.measurement 1).toNat <<< 768 + s.lifeCycle.toNat <<< 1024 + image.version.toNat <<< 1280
  head + (Config.signature (BitVec.ofNat 2048 head)).toNat <<< 2048

/-- SPDM_MEASUREMENT: the report is the measurement response in the PF's DOE mailbox (R265). -/
def execSpdmMeasurement (nonce : BitVec 256) (s : State) : Host.Outcome State Fault Refusal := .next { s with doe := report s nonce.toNat }

/-! ### Partition reset and retirement -/

/-- A parcel that may be retired. -/
def retirable (p : Nat) : Bool := goodParcel p && (parcelKind p == 1 || parcelKind p == 2)

/-- Retirement begins: an offer is withdrawn, then the notice is served on the party in use; a holder without threads gets
none (R267, R268). While a transfer runs the retirement waits. -/
def beginRetirement (s : State) (p : Nat) : State :=
  let x0 := entryOf s p
  let x := if offered x0 then unoffered x0 3 else x0
  let user := x.occupant.getD x.holder
  if x.state = .scrubbing || x.state = .retired || x.retiring || x0.leaving.isSome then s
  else if x.state = .held && !(slotsOfEstate s user).any (fun k => k.2.2.live && (parcelKind p == 2 || k.1 == parcelIndex p)) then
    beginReversion (setEntry s p { x with retiring := true }) p
  else startNotice s garnet p { x with retiring := true } 3

/-- A restart of the principal: Garnet's slots start again, commands in progress end with STATUS 4 by what is given, and the
principal's own threads on compute cores are to be saved at once (R183, R249). -/
def restartPrincipal (s : State) (abandon : State → Nat → State) : State :=
  let s1 := (s.queues.filter (fun q => q.2.busy.isSome)).foldl (fun s q => abandon s q.1) s
  let s2 := setCore s1 garnet {}
  ((liveTasks s2).filter (fun t => t.estate == 0 && t.phase == .running)).foldl (fun s t => requestCrew s.cycle 2 s t.handle) s2

end Sys2Proof.Machine
end

