-- ==== Sys2Proof/Machine/Control.lean ====
section
/-! DEFINITION. Branches, jumps and hardware loops (R45, R46, R62, R285, R305, R306, R317, R319) and NOP. -/

namespace Sys2Proof.Machine

/-- The PC of the instruction being issued, and an offset of halfwords from it. -/
def curPc (s : State) : Word := (curSlot s).pc
def target (s : State) (halfwords : Int) : Word := curPc s + BitVec.ofInt 64 (2 * halfwords)

/-- A branch: to its target when taken, else on (R285). -/
def branch (cc : Cond) (a b : Reg) (off : Int) : Exec Unit := do
  useG [a, b] none
  modify fun s =>
    if condHolds cc (gval s a) (gval s b) then endGoto 1 (target s off) s else endFall 1 s

/-- BR (R285). -/
def execBr (cc : Cond) (a b : Reg) (off : BitVec 12) : State → Host.Outcome State Fault Refusal :=
  run (branch cc a b off.toInt)

/-- BEQZ, short: BR.EQ d, g0 (R75, R285). -/
def execBeqzShort (d : Reg) (off : BitVec 6) : State → Host.Outcome State Fault Refusal := run (branch .eq d 0 off.toInt)

/-- BNEZ, short: BR.NE d, g0 (R75, R285). -/
def execBnezShort (d : Reg) (off : BitVec 6) : State → Host.Outcome State Fault Refusal := run (branch .ne d 0 off.toInt)

/-- The PC of the next instruction. -/
def link (s : State) : Word := curPc s + BitVec.ofNat 64 (curLen s)

/-- JAL (R305). -/
def execJal (d : Reg) (off : BitVec 20) : State → Host.Outcome State Fault Refusal :=
  run do
    useG [] (some d)
    modify fun s => endGoto 1 (target s off.toInt) (putG (wbPoint s 1) d (link s) s)

/-- A jump to g[a] with the link in g[d] (R306). An odd target traps MISALIGN, its alignment 2. -/
def jumpReg (d a : Reg) : Exec Unit := do
  useG [a] (some d)
  let s ← get
  let t := gval s a
  if t.toNat % 2 = 1 then trapWith .misalign 0 2
  set (endGoto 1 t (putG (wbPoint s 1) d (link s) s))

/-- JR (R306). -/
def execJr (d a : Reg) : State → Host.Outcome State Fault Refusal := run (jumpReg d a)

/-- JR, short, without a link: JR g0, a (R75, R306). -/
def execJrShort (a : Reg) : State → Host.Outcome State Fault Refusal := run (jumpReg 0 a)

/-- JAL d, a, short: JR d, a (R75, R306). -/
def execJalShort (d a : Reg) : State → Host.Outcome State Fault Refusal := run (jumpReg d a)

/-! ### LOOP (R45, R319) -/

def loopTrap : Exec α := trapWith .loop

/-- Reads the halfwords of a loop body from an offset to the last halfword of `last` and counts the instructions. Answers the
number of instructions and the length of `last`, or none when `last` is not the first halfword of an instruction. off is in
halfwords from the body's start, n the offset of `last`; fuel bounds the halfwords. -/
def readBody (start : Word) (n : Nat) : Nat → Nat → Nat → Exec (Option (Nat × Bool))
  | 0, _, _ => pure none
  | fuel + 1, off, count => do
    if n < off then return none
    let lo ← fetchHalf (start + BitVec.ofNat 64 (2 * off))
    let long := lo % 2 == 1
    if long then
      let _ ← fetchHalf (start + BitVec.ofNat 64 (2 * off + 2))
    if off = n then pure (some (count + 1, long))
    else readBody start n fuel (off + (if long then 2 else 1)) (count + 1)

/-- LOOP (R45, R319). A count of 0 goes on after `last`; no loop around it counts or ends by that. DEDUCED (log 21). -/
def execLoop (a : Reg) (level : BitVec 2) (ci : Bool) (endoff : BitVec 9) (cnt : BitVec 8) :
    State → Host.Outcome State Fault Refusal :=
  run do
    let s0 ← get
    let depth := (curSlot s0).loops.length
    if level = 3 || level.toNat ≠ depth || endoff.toNat < 2 then loopTrap
    let start := curPc s0 + 4
    let n := endoff.toNat - 2
    let long ← match ← readBody start n 512 0 0 with
      | some (count, long) => do
        if 256 < count then loopTrap
        pure long
      | none => loopTrap
    let l : LoopState := ⟨start, endoff.toNat, long⟩
    match (curSlot s0).loops.getLast? with
    | some outer => if outer.last < l.last then loopTrap
    | none => pure ()
    useG (if ci then [] else [a]) none
    modify fun s =>
      let x := curSlot s
      let v := if ci then BitVec.ofNat 64 cnt.toNat else gval s a
      let past := l.last + (if long then 4 else 2)
      if v = 0 then
        let s' := commitPops s
        setCurSlot s' (paced s' 1 { curSlot s' with lc := x.lc.setIfInBounds depth 0, pc := past })
      else endFall 1 (setCurSlot s { x with loops := x.loops ++ [l], lc := x.lc.setIfInBounds depth v })

/-- LEXIT: the innermost loop ends; loops that share its `last` count (R46, R317). -/
def loopExit : Exec Unit := do
  let s ← get
  let x := curSlot s
  match x.loops.reverse with
  | [] => loopTrap
  | l :: outer =>
    let r := countLoops l.last (l.last + (if l.long then 4 else 2)) x.lc outer
    let s' := commitPops s
    set (setCurSlot s' (paced s' 1 { x with pc := r.1, loops := r.2.1.reverse, lc := r.2.2 }))

def execLexit : State → Host.Outcome State Fault Refusal := run loopExit

def execLexitShort : State → Host.Outcome State Fault Refusal := run loopExit

/-- NOP (R334). -/
def execNop : State → Host.Outcome State Fault Refusal := run (modify (endFall 1))

def execNopShort : State → Host.Outcome State Fault Refusal := run (modify (endFall 1))

end Sys2Proof.Machine
end

