-- ==== Sys2Proof/Machine/Garnet.lean ====
section
/-! DEFINITION. Garnet: launch queues, jobs, commands, partition reset, and the service of system calls and mapped files (R146,
R244, R247 to R254, R258, R263 to R268). -/

namespace Sys2Proof.Machine

/-! ### The queue blocks (R244, R247, R248) -/

/-- The estate that uses a launch queue. -/
def queueUser (s : State) (q : Nat) : Option Nat := userOf s (parcelQueue q)

/-- Whether a queue block responds in BAR0 of a function. In recovery the PF alone answers (R263). -/
def responds (s : State) (fn q : Nat) : Bool :=
  q < 64 && (fn == 0 || (s.boot != .recovery && match queueUser s q with
    | some e => (estateOf s e).part == fn
    | none => false))

/-- Writes TAIL: an overrun drops the records; a command in progress goes on with the record that Garnet has read (R248). -/
def writeTail (s : State) (q value : Nat) : State :=
  let x := queueOf s q
  let t := value % 65536
  let n := (t + 65536 - x.head) % 65536
  if 32 < n then
    setQueue s q { x with tail := t, head := t, dropped := min 65535 (x.dropped + n), passed := x.busy.isSome }
  else setQueue s q { x with tail := t }

/-- TAIL_WRITE (R248). -/
def execTailWrite (fn q value : Nat) (s : State) : Host.Outcome State Fault Refusal :=
  if responds s fn q then .next (writeTail s q value) else .next s

/-! ### MSI-X and the HDM decoders (R244, R245) -/

/-- Sends the message of every pending vector that neither its own mask nor the function's enable bit holds back any more: per PCIe, the
message that a mask has held is sent when the mask goes. -/
def sendPending (p : Part) : Part :=
  if !p.msix then p else
  let due := p.msiPending.filter (fun v => !p.masked.contains v)
  { p with msiPending := p.msiPending.filter p.masked.contains, msiSent := due.reverse ++ p.msiSent }

/-- Writes the mask bit of a vector. -/
def writeMask (p : Part) (vector : Nat) (mask : Bool) : Part :=
  let others := p.masked.filter (· != vector)
  sendPending { p with masked := if mask then vector :: others else others }

/-- Decoder k of a function: host base, first frame, number of frames. -/
def decoderOf (p : Part) (k : Nat) : Nat × Nat × Nat := p.decoders[k]?.getD (0, 0, 0)

/-- Writes field f of decoder k: host base, first frame, number of frames. -/
def writeDecoder (p : Part) (k f value : Nat) : Part :=
  let d := decoderOf p k
  let d' : Nat × Nat × Nat := match f with
    | 0 => (value, d.2.1, d.2.2)
    | 1 => (d.1, value, d.2.2)
    | _ => (d.1, d.2.1, value)
  { p with decoders := (List.range 2).map (fun i => if i = k then d' else decoderOf p i) }

/-- A write past BAR0, where the model numbers what the host sets in a function elsewhere: 0x80000 + 16v + 8 the dword of MSI-X vector v
that holds its mask bit in [32]; 0x80400 the enable bit [31] of MSI-X; 0x80800 + 32k + 8f field f of HDM decoder k. DESIGN CHOICE (log 59). -/
def writeFunction (p : Part) (o : Nat) (value : Word) : Part :=
  if o < 0x400 then (if o % 16 = 8 then writeMask p (o / 16) (bits value 32 1 == 1) else p)
  else if o = 0x400 then sendPending { p with msix := bits value 31 1 == 1 }
  else if 0x800 ≤ o && o < 0x840 && o % 32 < 24 then writeDecoder p ((o - 0x800) / 32) (o % 32 / 8) value.toNat
  else p

/-- REGISTER_WRITE: 8 bytes written by the host to BAR0 of a function. Slots and TAIL take writes; every other register is RO, and
what does not respond discards the write (R244, R247). DESIGN CHOICE (log 28). -/
def execRegisterWrite (fn off : Nat) (value : Word) (s : State) : Host.Outcome State Fault Refusal :=
  let q := off / 4096
  let o := off % 4096
  if 0x80000 ≤ off then
    .next (if fn < 64 && (fn = 0 || s.boot != .recovery) && off % 8 = 0 then
      setPart s fn (writeFunction (partOf s fn) (off - 0x80000) value) else s)
  else if !responds s fn q || o % 8 ≠ 0 then .next s
  else if o < 0x800 then .next (setQueue s q { queueOf s q with bytes := memWrite (queueOf s q).bytes o value.toNat 8 })
  else if o = 0x800 then .next (writeTail s q value.toNat)
  else .next s

/-- Whether Garnet's slot q takes records. In recovery and after DECOMMISSIONED it serves queue 0 alone (R263, R264). -/
def serves (s : State) (q : Nat) : Bool :=
  match s.boot with
  | .running => true
  | .recovery | .stopped => q == 0
  | .off => false

/-- The record that Garnet's slot q works on or would take next: the one in progress, else the one at the head. -/
def headRecord (s : State) (q : Nat) : Option Nat :=
  let x := queueOf s q
  if x.busy.isSome then x.busy
  else if x.head = x.tail || (entryOf s (parcelQueue q)).state = .scrubbing || !serves s q then none
  else some (memRead x.bytes (64 * (x.head % 32)) 64)

/-- The record is done; HEAD passes it, unless an overrun has set HEAD since (R248). The slot's next work is its other source's (R249). -/
def takeHead (s : State) (q : Nat) : State :=
  let x := queueOf s q
  setQueue s q { x with
    head := if x.passed then x.head else (x.head + 1) % 65536, busy := none, passed := false, turn := true, crews := [], saved := 0 }

/-! ### The service queues (R249) -/

/-- The partition's next item of an estate. -/
def nextItem (s : State) (est : Nat) : Option ServiceItem :=
  (partOf s (estateOf s est).part).service.find? (fun i => match i with
    | .call e _ _ _ _ _ => e == est
    | .file e _ => e == est)

/-- The slots that serve a partition's service queue: those of the queues that its estates use, else those of the principal's. -/
def servers (s : State) (part : Nat) : List Nat :=
  let of (p : Nat) : List Nat := (List.range 64).filter (fun q => (queueUser s q).any (fun e => (estateOf s e).part == p))
  if (of part).isEmpty then (List.range 64).filter (fun q => queueUser s q == some 0) else of part

/-- Whether a slot may take an item now: it is between two records, and its turn is the service queue's or there is no record. -/
def servesItem (s : State) (q : Nat) : Bool :=
  s.boot == .running && (queueOf s q).busy.isNone && ((queueOf s q).turn || (headRecord s q).isNone)

/-- A slot that serves a partition, if one may take an item now. -/
def serverOf (s : State) (part : Nat) : Option Nat := (servers s part).find? (servesItem s)

/-- Whether slot q may take a launch record: an item of a queue that it serves does not go first. -/
def recordTurn (s : State) (q : Nat) : Bool :=
  (queueOf s q).busy.isSome || !(queueOf s q).turn || !s.parts.any (fun p => !p.2.service.isEmpty && serverOf s p.1 == some q)

/-- Takes an item out of its service queue, in a slot whose next turn is its launch queue's. -/
def takeItem (s : State) (est : Nat) (i : ServiceItem) : Option State :=
  let p := (estateOf s est).part
  match serverOf s p with
  | some q =>
    if nextItem s est ≠ some i then none else
    let s1 := setQueue s q { queueOf s q with turn := false }
    some (setPart s1 p { partOf s1 p with service := (partOf s1 p).service.erase i })
  | none => none

/-! ### Completion (R250) -/

/-- TAG, VECTOR and NOTIFY of a record's dword 7. -/
def jobTag (d7 : Word) : Nat := bits d7 0 56
def vectorOf (d7 : Word) : Nat := bits d7 56 6
def notifies (d7 : Word) : Bool := bits d7 63 1 == 1

/-- The completion record's dwords. -/
def completion (s : State) (d7 : Word) (status cad committed discarded : Nat) : List Nat :=
  [2 ^ 63 + jobTag d7, status + 256 * cad, committed % 2 ^ 32 + 2 ^ 32 * (discarded % 2 ^ 32), s.cycle]

/-- The notification of a completion. -/
def notifyDone (s : State) (part : Nat) (d7 : Word) : State :=
  if notifies d7 then sendMsi s part (vectorOf d7) (BitVec.ofNat 64 (2 ^ 63 + jobTag d7)) else s

/-- The partition whose function exposes a queue. -/
def queuePart (s : State) (q : Nat) : Nat := ((queueUser s q).map (fun e => (estateOf s e).part)).getD 0

/-- Ends a command: its record in host memory, its notification, and HEAD. -/
def endCommand (s : State) (q rec status : Nat) (cad : Nat := 0) (committed : Nat := 0) : State :=
  let pa := (recDw rec 6).toNat
  let s1 := if pa = 0 then s else
    let c := completion s (recDw rec 7) status cad committed 0
    hostWrite (hostWrite s (pa + 8) 24 (dwordsNat c.tail)) pa 8 (c.headD 0)
  takeHead (notifyDone s1 (queuePart s1 q) (recDw rec 7)) q

/-- Writes a job's record, dwords 1 to 3 first and dword 0 last: false where a part of it cannot be written. -/
def writeJob (s : State) (j : Job) (status : Nat) : Bool × State :=
  if j.record = 0 then (true, s) else
  let c := completion s j.tag status 0 j.committed j.discarded
  match hwWrite s garnet j.estate (j.record + 8) 24 (dwordsNat c.tail) false 3 with
  | (true, s1) => hwWrite s1 garnet j.estate j.record 8 (c.headD 0) false 3
  | r => r

/-- Ends a job: its record in the estate's memory and its notification. -/
def endJob (s : State) (j : Job) (status : Nat) : State :=
  let s1 := match writeJob s j status with
    | (true, s1) => s1
    | (false, s1) => areaRecord s1 garnet j.estate j.record
  notifyDone s1 (queuePart s1 j.queue) j.tag

/-! ### Partition reset (R258) -/

/-- The estates of a partition: its first estate's subtree. -/
def partEstates (s : State) (p : Nat) : List Nat := subtree s [(partOf s p).first] s.estates.length

/-- A partition that can be reset. -/
def resettable (s : State) (p : Nat) : Bool := p != 0 && (partOf s p).inuse

/-- A commit of the partition is in progress: its reset waits (R156). -/
def partCommits (s : State) (p : Nat) : Bool := resettable s p && estatesCommit s (partEstates s p)

/-- The reset of a partition: its jobs end with STATUS 3, where their records can still be written, then its first estate's subtree is
dissolved, with the principal as the receiver (R258). DESIGN CHOICE (log 28). -/
def resetPartition (s : State) (p : Nat) : State :=
  if !resettable s p then s else
  let set := partEstates s p
  let s0 := (s.jobs.filter (fun j => set.contains j.2.estate)).foldl
    (fun s j => notifyDone (writeJob s j.2 3).2 (queuePart s j.2.queue) j.2.tag) s
  let s1 := writeBackHost (dissolve s0 set 0)
  setPart s1 p { partOf s1 p with service := [], mailbox := [], msiPending := [] }

/-- JOB_COMPLETE: the root and every descendant are committed or discarded (R250). -/
def execJobComplete (root : Nat) (s : State) : Host.Outcome State Fault Refusal :=
  match mapFind s.jobs root with
  | none => .next s
  | some j =>
    if (liveTasks s).any (fun t => t.root == root) then .next s
    else .next { endJob s j 0 with jobs := mapErase s.jobs root }

/-! ### Launch records (R146) -/

/-- Reads n bytes of an estate's memory with R, OPEN or not. -/
def estateRead (s : State) (est va n : Nat) : Nat → Option Nat × State
  | 0 => (some 0, s)
  | fuel + 1 =>
    if n = 0 then (some 0, s) else
    let k := lineSpan va n
    match xlate s (clusterOf garnet) est va (needs true false false) with
    | (.page p0 p1 size, s1) =>
      let h := pteHome p0 p1 size va
      if !pteR p0 || 2 ^ 48 < va + n then (none, s1) else
      match hwLoad (prepare s1 h false) est h k with
      | (some v, s2) =>
        match estateRead s2 est (va + k) (n - k) fuel with
        | (some rest, s3) => (some (v + rest <<< (8 * k)), s3)
        | r => r
      | (none, s2) => (none, s2)
    | (.missing _ _ _, s1) => (none, s1)

/-- The root that a record describes, or the STATUS of its failure. DESIGN CHOICE (log 28). -/
def rootOf (s : State) (est rec : Nat) : Except Nat Task × State :=
  let key := recDw rec 3
  let count := (recDw rec 5).toNat
  let list := (recDw rec 4).toNat
  if (recDw rec 0).toNat % 2 = 1 || 2 ^ 48 ≤ (recDw rec 0).toNat || !keyOk key || bits key 48 3 < 2 || 8 < count ||
      (count ≠ 0 && list % 16 ≠ 0) then (.error 1, s)
  else
    let r := estateRead s est list (16 * count) 3
    match r.1.map (fun x => platsOf x count 0) with
    | some (.ok plats) =>
      let t := taskOfKey est (estateOf s est).part (recDw rec 0) (recDw rec 1) (recDw rec 2) key plats
      if placeRoom s est 0 t.place t.cluster t.width then (.ok { t with ts := max t.ts (partOf s t.part).frontier }, r.2) else (.error 2, r.2)
    | _ => (.error 1, r.2)

/-- LAUNCH_RECORD (R146). -/
def execLaunchRecord (q : Nat) (s : State) : Host.Outcome State Fault Refusal :=
  match headRecord s q, queueUser s q with
  | some rec, some est =>
    if bits (recDw rec 0) 56 8 ≠ 0 || s.boot ≠ .running || !recordTurn s q then .next s else
    let j : Job := { estate := est, queue := q, record := (recDw rec 6).toNat, tag := recDw rec 7 }
    match rootOf s est rec with
    | (.error st, s1) => .next (takeHead (endJob s1 j st) q)
    | (.ok t, s1) =>
      match createTask s1 garnet t none (fun s t => pushRing s garnet t) with
      | (some h, s2) => .next (takeHead { s2 with jobs := mapSet s2.jobs h j } q)
      | (none, s2) => .next (takeHead (endJob s2 j 2) q)
  | _, _ => .next s

/-! ### Commands (R251) -/

/-- Takes the command of a code at the head of queue q: only the principal's queues accept one (R248), and in recovery or after
DECOMMISSIONED only some run (R263, R264). -/
def command (q code : Nat) (f : Nat → State → State) (s : State) : Host.Outcome State Fault Refusal :=
  match headRecord s q with
  | none => .next s
  | some rec =>
    if bits (recDw rec 0) 56 8 ≠ code || !recordTurn s q then .next s
    else if queueUser s q ≠ some 0 then .next (endCommand s q rec 1)
    else if (s.boot = .recovery ∧ code ≠ 7 ∧ code ≠ 8) ∨ (s.boot = .stopped ∧ code ≠ 8) then .next (endCommand s q rec 4)
    else .next (f rec s)

/-- Operand k of a command. -/
def opnd (rec k : Nat) : Nat := (recDw rec k).toNat

/-- The estates that a new partition's first estate may take: which of them the manual leaves open. -/
def freeEstates (s : State) : List Nat :=
  (List.range 16384).filter (fun e => let x := entryOf s (parcelEstate e); !x.inuse && x.state == .held && x.holder == 0)

/-- CREATE_PARTITION (R178, R251): CHARTER by the principal, with selector 0x40 + p and KEY p. DESIGN CHOICE (log 28). -/
def execCreatePartition (q : Nat) : State → Host.Outcome State Fault Refusal :=
  command q 0x01 fun rec s =>
    let p := opnd rec 1
    if p = 0 || 63 < p then endCommand s q rec 1 else
    let image := hostRead s (opnd rec 2) 256
    let ds := (cutBits 64 image.1 32).map (BitVec.ofNat 64)
    let free := freeEstates s
    let s1 := { image.2 with draws := s.draws + 1 }
    if !imageOk ds || (charterPart s 0 true (BitVec.ofNat 64 (0x40 + p)) (BitVec.ofNat 64 (parcelKey p))).isNone || free.isEmpty then
      endCommand image.2 q rec 4
    else
      let id := free[(Config.freeWord s.draws).toNat % free.length]?.getD 0
      let s2 := openPart s1 p id
      let s3 := setEntry s2 (parcelEstate id) { entryOf s2 (parcelEstate id) with inuse := true }
      endCommand (setEstate s3 id { part := p, guarantor := 0, dwords := ds }) q rec 0

/-- RESET_PARTITION: it completes when every dissolved estate has left what it used (R258). DESIGN CHOICE (log 28). -/
def execResetPartition (q : Nat) : State → Host.Outcome State Fault Refusal :=
  command q 0x02 fun rec s =>
    let p := opnd rec 1
    if p = 0 || 63 < p then endCommand s q rec 1
    else
      let begun := (queueOf s q).busy.isSome
      if !begun && partCommits s p then s else
      let s1 := if begun then s else resetPartition s p
      if dissolving s1 then setQueue s1 q { queueOf s1 q with busy := some rec } else endCommand s1 q rec 0

/-- The principal's GIVE of one parcel: the status, none where the instruction would trap. -/
def principalGive (s : State) (p dest : Nat) : Option Nat :=
  let x := entryOf s p
  if dest = 0 || x.state = .retired || (parcelKind p = 0 && x.inuse) || x.holder ≠ 0 || lent x then none
  else if !estateExists s dest || unofferable s p then some 2
  else if x.state ≠ .held then some 6 else some 1

/-- Gives parcels one after another, up to the first that is not offered: STATUS, CADSTATUS. -/
def giveRun (dest : Nat) : Nat → Nat → State → (Nat × Nat) × State
  | _, 0, s => ((0, 1), s)
  | p, n + 1, s =>
    match principalGive s p dest with
    | some 1 => giveRun dest (p + 1) n (setEntry s p { entryOf s p with state := .offeredGive, target := some dest, wipe := false, term := 0 })
    | some st => ((4, st), s)
    | none => ((4, 0), s)

/-- GIVE_TO_PARTITION (R251). -/
def execGiveToPartition (q : Nat) : State → Host.Outcome State Fault Refusal :=
  command q 0x03 fun rec s =>
    let p := opnd rec 1
    let n := opnd rec 2
    let dest := opnd rec 3
    if !goodParcel p || n = 0 || 4096 < n || kindCount (parcelKind p) < parcelIndex p + n || 16384 ≤ dest then endCommand s q rec 1 else
    let r := giveRun dest p n s
    endCommand r.2 q rec r.1.1 r.1.2

/-- RETIRE_CORE: the record is completed when the entry reads RETIRED (R267, R268). -/
def execRetireCore (q : Nat) : State → Host.Outcome State Fault Refusal :=
  command q 0x04 fun rec s =>
    let p := opnd rec 1
    if !retirable p then endCommand s q rec 1
    else if (entryOf s p).state = .retired then endCommand s q rec 0
    else
      let s1 := beginRetirement s p
      setQueue s1 q { queueOf s1 q with busy := some rec }

/-- Whether a row's bank has a spare left. DESIGN CHOICE (log 8). -/
def spareLeft (s : State) (frame row : Nat) : Bool :=
  (s.sparedRows.filter (fun r => Config.rowBank r.1 r.2 == Config.rowBank frame row)).length < Config.bankSpares (Config.rowBank frame row)

/-- Spares a row: no program sees it (R267). -/
def spareRow (s : State) (frame row : Nat) : State := { s with sparedRows := (frame, row) :: s.sparedRows }

/-- SPARE_ROW (R267). -/
def execSpareRow (q : Nat) : State → Host.Outcome State Fault Refusal :=
  command q 0x05 fun rec s =>
    let f := opnd rec 1
    let r := opnd rec 2
    if 262144 ≤ f then endCommand s q rec 1
    else if !spareLeft s f r then endCommand s q rec 4
    else endCommand (spareRow s f r) q rec 0

/-- HBM_ROW_SPARE: the patrol scrub's own (R267). -/
def execHbmRowSpare (frame row : Nat) (s : State) : Host.Outcome State Fault Refusal :=
  if frame < 262144 && spareLeft s frame row then .next (spareRow s frame row) else .next s

def setPort (s : State) (p : Nat) (x : FabricPort) : State := { s with ports := mapSet s.ports p x }

/-- Ends a command that a restart interrupts (R249). -/
def abandonCommand (s : State) (q : Nat) : State :=
  match headRecord s q with
  | some rec => endCommand s q rec 4
  | none => s

/-- UPDATE_FIRMWARE: Garnet reads the image of dword 2 bytes at dword 1 from host memory; valid and version are what its check comes to
(R262, R267). DESIGN CHOICE (log 28). -/
def execUpdateFirmware (q : Nat) (valid : Bool) (version : BitVec 32) : State → Host.Outcome State Fault Refusal :=
  command q 0x07 fun rec s =>
    if opnd rec 2 = 0 || 2 ^ 48 < opnd rec 1 + opnd rec 2 || !valid then endCommand s q rec 1
    else if version < Config.fusedMinimum then endCommand s q rec 4
    else
      let read := hostRead s (opnd rec 1) (opnd rec 2)
      let image : Image := { version := version, size := opnd rec 2, data := read.1 }
      let s1 := { read.2 with
        images := if s.current then (image, s.images.2) else (s.images.1, image), current := !s.current }
      endCommand (restartPrincipal s1 abandonCommand) q rec 0

/-- ATTEST (R265). -/
def execAttest (q : Nat) : State → Host.Outcome State Fault Refusal :=
  command q 0x08 fun rec s =>
    if opnd rec 3 < 8192 then endCommand s q rec 1 else
    let nonce := hostRead s (opnd rec 1) 32
    endCommand (hostWrite nonce.2 (opnd rec 2) 8192 (report nonce.2 nonce.1)) q rec 0

/-- The transitions of R264. -/
def lifeStep (x : LifeCycle) (code : Nat) : Option LifeCycle :=
  match x, code with
  | .manufacture, 1 => some .provisioned
  | .provisioned, 2 => some .deployed
  | .deployed, 1 => some .provisioned
  | .provisioned, 3 | .deployed, 3 => some .decommissioned
  | _, _ => none

/-- LIFECYCLE: every partition is reset, the fuses are written, the package reboots, and the completion record follows (R264). Which ports
fail training the manual leaves open. DESIGN CHOICE (log 28). -/
def execLifecycle (q : Nat) : State → Host.Outcome State Fault Refusal :=
  command q 0x09 fun rec s =>
    match lifeStep s.lifeCycle (opnd rec 1) with
    | none => endCommand s q rec 1
    | some l =>
      if (List.range 64).any (partCommits s) then s else
      let s1 := (List.range 64).foldl resetPartition s
      let failed := (List.range 8).filter ((Config.freeWord s1.draws).getLsbD ·)
      let s2 := rebooted { s1 with lifeCycle := l, draws := s1.draws + 1 } true true ⟨s.pkgId, failed⟩
      let x := endCommand s2 q rec 0
      setQueue x q (queueOf s2 q)

/-- SET_CHAIN (R195). -/
def execSetChain (q : Nat) : State → Host.Outcome State Fault Refusal :=
  command q 0x0A fun rec s =>
    let die := opnd rec 1
    let n := opnd rec 2
    if 3 < die || n = 0 || 4 < n then endCommand s q rec 1 else endCommand { s with chains := mapSet s.chains die n } q rec 0

/-- A membership table that may be set (R235). -/
def domainOk (l : List Nat) : Bool :=
  l.length ≤ 256 && decide l.Nodup && l.all (· < 16384) && (l.length ≤ 1 || l.all (fun p => l.contains (shadowPartner p)))

/-- SET_DOMAIN (R235). The directory starts empty. DESIGN CHOICE (log 6). -/
def execSetDomain (q : Nat) : State → Host.Outcome State Fault Refusal :=
  command q 0x0B fun rec s =>
    let t := hostRead s (opnd rec 1) 1024
    let l := Config.domainTable t.1
    if domainOk l then endCommand { t.2 with domain := l, lostPackages := [], directory := [], shadows := [] } q rec 0
    else endCommand t.2 q rec 1

/-- SET_TIMER (R225, R234). -/
def execSetTimer (q : Nat) : State → Host.Outcome State Fault Refusal :=
  command q 0x0C fun rec s =>
    let t := opnd rec 1
    if t < 5 || 200 < t then endCommand s q rec 1 else endCommand { s with timer := t, laneThreshold := opnd rec 2 } q rec 0

/-- The crews of a partition that run on a core, each with the deadline that PREEMPT gives it there. -/
def preemptCrews (s : State) (part notice : Nat) (core : Nat) : List (Nat × Nat) :=
  ((tasksOn s core).filter (fun h => (taskOf s h).part == part && (taskOf s h).phase == .running)).map (fun h =>
    (h, s.cycle + (if notice = 0 then (estateOf s (taskOf s h).estate).notice else notice)))

/-- PREEMPT: the requests are served when the command is taken, and the record is completed when every one has been met (R252). -/
def execPreempt (q : Nat) : State → Host.Outcome State Fault Refusal :=
  command q 0x0D fun rec s =>
    let p := opnd rec 1
    let n := opnd rec 2
    let notice := opnd rec 3
    let part := opnd rec 4
    if parcelKind p ≠ 1 || !goodParcel p || n = 0 || 1024 < n || 1024 < parcelIndex p + n || (notice ≠ 0 && notice < 3600) || 2 ^ 48 ≤ notice ||
        63 < part then endCommand s q rec 1
    else if (queueOf s q).busy.isNone then
      let crews := (List.range n).flatMap (fun i => preemptCrews s part notice (parcelIndex p + i))
      let s1 := crews.foldl (fun s c => requestCrew c.2 2 s c.1) s
      setQueue s1 q { queueOf s1 q with busy := some rec, crews := (crews.map (·.1)).eraseDups, saved := 0 }
    else
      let x := queueOf s q
      if x.crews.any (fun h => (mapFind s.tasks h).isSome && (taskOf s h).phase == .running) then s
      else endCommand s q rec 0 0 x.saved

/-- UNKNOWN_COMMAND (R251). -/
def execUnknownCommand (q : Nat) (s : State) : Host.Outcome State Fault Refusal :=
  match headRecord s q with
  | none => .next s
  | some rec =>
    let code := bits (recDw rec 0) 56 8
    if code < 0x0E || !recordTurn s q then .next s
    else .next (endCommand s q rec (if queueUser s q ≠ some 0 then 1 else if s.boot = .running then 5 else 4))

/-- FUNCTION_LEVEL_RESET (R258). It waits for the commits in progress. -/
def execFunctionLevelReset (fn : Nat) (s : State) : Host.Outcome State Fault Refusal :=
  if (List.range 64).any (fun p => (fn = 0 || p = fn) && partCommits s p) then
    .next { s with agenda := s.agenda ++ [⟨1, .event (.functionLevelReset fn)⟩] }
  else if fn = 0 then .next (restartPrincipal ((List.range 64).foldl resetPartition s) abandonCommand)
  else if fn < 64 then
    let s1 := resetPartition s fn
    .next (setPart s1 fn { partOf s1 fn with tdisp := {} })
  else .next s

/-! ### System calls (R253, R254) -/

/-- A call that Garnet may take now: its estate, token and arguments, and the state without it. -/
def takeCall (s : State) (core slot call : Nat) : Option (Nat × Nat × List Word × State) :=
  s.parts.findSome? fun p => p.2.service.findSome? fun i => match i with
    | .call e t c k n args =>
      if c = core ∧ k = slot ∧ (n = call ∨ call = 0) then (takeItem s e i).map (fun s1 => (e, t, args, s1)) else none
    | .file _ _ => none

/-- The call's result reaches its thread, or is held for it while it is saved or in a halted cluster (R195, R201, R253). -/
def endCall (s : State) (token : Nat) (r : CallEnd) : State :=
  let waits (x : Slot) : Bool := match x.pend with
    | .sysc _ t _ => x.live && t == token
    | _ => false
  let keep (x : Slot) : Slot := match x.pend with
    | .sysc d t _ => if t = token then { x with pend := .sysc d t (some r) } else x
    | _ => x
  match s.cores.findSome? (fun c => (c.2.slots.find? (fun k => waits k.2)).map (fun k => (c.1, k.1, k.2))) with
  | some w =>
    if s.halted.contains (clusterOf w.1) then setSlot s w.1 w.2.1 (keep w.2.2) else
    match w.2.2.pend with
    | .sysc d _ _ => resume w.1 w.2.1 (replyCallEnd d r) s
    | _ => s
  | none => mapSaved s keep

/-- A call that ends with a result. -/
def endCallWith (s : State) (token : Nat) (v : Word) : State := endCall s token (.value v)

/-- An argument of a call, g1 being 0. -/
def argOf (args : List Word) (k : Nat) : Word := args[k]?.getD 0

/-- The level-4 entry of a VA, where the tables reach one: its PA and dwords. -/
def leafEntry (s : State) (est va : Nat) : Option (Nat × Word × Word) :=
  ((pathOf s est va).find? (fun x => x.1 == 4)).map (fun x => (x.2.1, x.2.2.1, x.2.2.2))

/-- The pages of a range. -/
def pagesOf (va len : Nat) : List Nat := (List.range ((len + 4095) / 4096)).map (fun i => va + 4096 * i)

/-- Writes an entry and invalidates what was read from its line. -/
def changePte (s : State) (e : Nat) (p0 p1 : Word) : State := shootNow (writePte p0 p1 s e) [e / 64]

/-- No access that was translated through an entry of a range is still to be performed: Garnet's shootdown of the range is
acknowledged at once (R114 step 3). Until then the call waits. -/
def quiet (s : State) (est va len : Nat) : Bool :=
  (pagesOf va len).all fun v => match leafEntry s est v with
    | some e => (sharingPorts s (e.1 / 64)).all (fun p => !portBusy s p)
    | none => true

/-- Gives the level-4 entries of a range dword 0 p0, wherever the estate's tables reach. -/
def putLeaves (s : State) (est va len : Nat) (p0 : Word) : State :=
  (pagesOf va len).foldl (fun s v => match leafEntry s est v with
    | some e => changePte s e.1 p0 0
    | none => s) s

/-- Whether the frames of a pool are parcels that an estate uses. -/
def poolOk (s : State) (est pool count : Nat) : Bool :=
  parcelKind pool == 4 && parcelIndex pool + count ≤ 262144 &&
    (List.range count).all (fun i => uses s est (parcelFrame (parcelIndex pool + i)))

/-- The flags of a file page: FILE, the rights, OPEN. -/
def fileFlags (rights : Nat) : Nat := 64 + 2 * (rights % 4) + (if Config.fileOpen then 16 else 0)

/-- MAPFILE (R254): FILE entries over the range, wherever the estate's tables reach. DESIGN CHOICE (log 32). -/
def execMapfile (core slot : Nat) (s : State) : Host.Outcome State Fault Refusal :=
  match takeCall s core slot 0x001 with
  | none => .next s
  | some (est, token, args, s1) =>
    let va := (argOf args 1).toNat
    let len := (argOf args 2).toNat
    let rights := bits (argOf args 3) 0 2
    let pool := (argOf args 4).toNat
    let count := (argOf args 5).toNat
    if !poolOk s1 est pool count then .next (endCallWith s1 token 1)
    else if va % 2097152 ≠ 0 || 2 ^ 48 < va + len then
      .next (endCallWith { s1 with draws := s1.draws + 1 } token (Config.freeWord s1.draws))
    else if !quiet s1 est va len then .next s
    else
      let s2 := putLeaves s1 est va len (BitVec.ofNat 64 (fileFlags rights))
      let m : Mapped :=
        { estate := est, file := argOf args 0, va := va, len := len, pool := parcelIndex pool, count := count, rights := rights }
      .next (endCallWith { s2 with mapped := s2.mapped ++ [m] } token 0)

/-- The mapping that holds a VA: the latest, whose entries stand there (R254). -/
def mappingOf (s : State) (est va : Nat) : Option Mapped :=
  s.mapped.reverse.find? (fun m => m.estate == est && m.va ≤ va && va < m.va + m.len)

/-- The next free 4 KiB of a mapping's pool, as a page number: no mapping has put a page there (R254). -/
def nextPage (s : State) (m : Mapped) : Option Nat :=
  let taken := s.mapped.flatMap (·.used)
  ((List.range (min (512 * m.count) (taken.length + 1))).map (512 * m.pool + ·)).find? (!taken.contains ·)

/-- Writes back the DIRTY pages of a mapping and clears DIRTY: the number of pages. The file itself is the host's. -/
def syncMapping (s : State) (m : Mapped) : Nat × State :=
  (pagesOf m.va m.len).foldl (fun r v => match leafEntry r.2 m.estate v with
    | some e =>
      if pteIsValid 4 e.2 && pteDirty e.2.1 then (r.1 + 1, changePte r.2 e.1 (e.2.1 &&& ~~~0x100) e.2.2) else r
    | none => r) (0, s)

/-- SYNC (R254). -/
def execSync (core slot : Nat) (s : State) : Host.Outcome State Fault Refusal :=
  match takeCall s core slot 0x002 with
  | none => .next s
  | some (est, token, args, s1) =>
    match mappingOf s1 est (argOf args 0).toNat with
    | some m =>
      if !quiet s1 est m.va m.len then .next s else
      let r := syncMapping s1 m
      .next (endCallWith r.2 token (BitVec.ofNat 64 r.1))
    | none => .next (endCallWith s1 token 0)

/-- UNMAPFILE (R254). -/
def execUnmapfile (core slot : Nat) (s : State) : Host.Outcome State Fault Refusal :=
  match takeCall s core slot 0x003 with
  | none => .next s
  | some (est, token, args, s1) =>
    match mappingOf s1 est (argOf args 0).toNat with
    | some m =>
      if !quiet s1 est m.va m.len then .next s else
      let s3 := putLeaves (syncMapping s1 m).2 est m.va m.len 0
      .next (endCallWith { s3 with mapped := s3.mapped.erase m } token 0)
    | none => .next (endCallWith s1 token 0)

/-- A record placed on a queue by LAUNCHR: 6 when no slot is free (R248, R253). -/
def placeRecord (s : State) (q rec : Nat) : Nat × State :=
  let x := queueOf s q
  if 32 ≤ (x.tail + 65536 - x.head) % 65536 then (6, s)
  else (0, setQueue s q { x with bytes := memWrite x.bytes (64 * (x.tail % 32)) rec 64, tail := (x.tail + 1) % 65536 })

/-- Whether an estate, by its fabric name, may launch on a queue of this package: it holds a LAUNCH easement of the queue's user, which
no estate is without (R182, R253). -/
def mayLaunch (s : State) (name q : Nat) : Bool :=
  q < 64 && match queueUser s q with
    | some u => s.easements.any (fun g =>
        g.grantor == u && g.grantee == name && g.parcel == parcelQueue q && g.rights / 16 % 2 == 1)
    | none => false

/-- LAUNCHR (R253): for another package's queue the request goes out, and reply is what comes back. DESIGN CHOICE (log 32). -/
def execLaunchr (core slot : Nat) (reply : Reply) (s : State) : Host.Outcome State Fault Refusal :=
  match takeCall s core slot 0x020 with
  | none => .next s
  | some (est, token, args, s1) =>
    let name := (argOf args 0).toNat
    let pkg := bits (argOf args 0) 14 14
    let q := name % 64
    let r := estateRead s1 est (argOf args 1).toNat 64 3
    let gate (cause : Nat) (s : State) : State := endCall s token (.trap ⟨.gate, 0, fabricAux cause false pkg, 0⟩)
    match r.1 with
    | none => .next (endCallWith { r.2 with draws := r.2.draws + 1 } token (Config.freeWord r.2.draws))
    | some rec =>
      if pkg = s.pkgId.toNat then
        if !mayLaunch r.2 (fabricName r.2 est) q then .next (gate 1 r.2)
        else
          let p := placeRecord r.2 q rec
          .next (endCallWith p.2 token (BitVec.ofNat 64 p.1))
      else
        if full1024 r.2 pkg then .next s else
        let n := (mapFind r.2.seqs pkg).getD 0
        let s2 := { r.2 with
          seqs := mapSet r.2.seqs pkg ((n + 1) % 2 ^ 32), outbox := (pkg, .request n (fabricName r.2 est) (.launch q rec)) :: r.2.outbox }
        match reply with
        | .gate c _ => .next (gate c s2)
        | .fabricError c g => .next (endCall s2 token (.trap ⟨.fabricError, 0, fabricAux c true g, 0⟩))
        | .data v => .next (endCallWith s2 token (BitVec.ofNat 64 (if v = 0 then 0 else 6)))
        | _ => .next (endCallWith s2 token 0)

/-- UNKNOWN_CALL: all ones (R253). -/
def execUnknownCall (core slot : Nat) (s : State) : Host.Outcome State Fault Refusal :=
  let known := s.parts.any (fun p => p.2.service.any (fun i => match i with
    | .call _ _ c k n _ => c == core && k == slot && [1, 2, 3, 0x20].contains n
    | .file _ _ => false))
  if known then .next s else
  match takeCall s core slot 0 with
  | none => .next s
  | some (_, token, _, s1) => .next (endCallWith s1 token (BitVec.allOnes 64))

/-- Writes the bytes of a page, line by line. -/
def writePage (est pa : Nat) : List Byte → Nat → State → State
  | _, 0, s => s
  | page, n + 1, s =>
    let line := (page.take 64).foldr (fun b v => b.toNat + 256 * v) 0
    writePage est (pa + 64) (page.drop 64) n (hwStore s est (.hbm pa) 64 line).2

/-- FILE_FAULT: Garnet brings a page of a mapped file, given by its bytes, and wakes its token; without room in the pool it fails
the token (R254). DESIGN CHOICE (log 32). -/
def execFileFault (estate token : Nat) (page : List Byte) (s : State) : Host.Outcome State Fault Refusal :=
  match takeItem s estate (.file estate token) with
  | none => .next s
  | some s1 =>
    match s1.faults.find? (fun f => f.estate == estate && f.token == token) with
    | none => .next s1
    | some f =>
      match mappingOf s1 estate f.va with
      | none => .next (wakeToken true s1 estate token)
      | some m =>
        match nextPage s1 m with
        | none => .next (wakeToken true s1 estate token)
        | some n =>
        if f.level ≠ 4 || !uses s1 estate (parcelFrame (n / 512)) then .next (wakeToken true s1 estate token)
        else
          let pa := 4096 * n
          let s2 := writePage estate pa page 64
            { s1 with mapped := s1.mapped.map (fun x => if x == m then { x with used := n :: x.used } else x) }
          let s3 := writePte (BitVec.ofNat 64 (pa + fileFlags m.rights + 1)) 0 s2 f.entry
          .next (wakeToken false s3 estate token)

end Sys2Proof.Machine
end

