-- ==== Sys2Proof/Machine/Link.lean ====
section
/-! DEFINITION. The host over CXL and TDISP: its accesses to device memory, its snoops and grants, confidential I/O, and the events
of service that touch memory (R8, R11, R14, R110, R136, R245, R257, R259, R269). -/

namespace Sys2Proof.Machine

/-! ### Device memory (R245) -/

/-- The estate as which the host acts through a function. -/
def hostEstate (s : State) (fn : Nat) : Nat := if fn = 0 then 0 else (partOf s fn).first

/-- Whether an access of the host through a function is admitted. -/
def hostAdmitted (s : State) (fn pa : Nat) (write : Bool) : Bool :=
  fn < 64 && (partOf s fn).inuse && paRegion pa == 0 && (uses s (hostEstate s fn) (parcelFrame (frameOf pa)) ||
    (gateCheck s (fabricName s (hostEstate s fn)) pa (if write then 2 else 1)).isNone)

/-- The device PA that a host physical address names through a function's decoders: a range maps linearly onto a run of whole frames. -/
def hostPa (s : State) (fn hpa : Nat) : Option Nat :=
  (partOf s fn).decoders.findSome? fun d =>
    let pa := 2097152 * d.2.1 + (hpa - d.1)
    if d.1 ≤ hpa && hpa < d.1 + 2097152 * d.2.2 && pa < 2 ^ 39 then some pa else none

/-- HOST_MEM_ACCESS: a read or a write of n bytes inside a line that a decoder of the function maps onto HBM, performed at its home slice
(R136, R245). A read that the host caches leaves the line with the host; a refused access changes nothing. Before the last step of a boot
has ended none is served (R262). -/
def execHostMemAccess (fn hpa n : Nat) (write : Option Nat) (s : State) : Host.Outcome State Fault Refusal :=
  match hostPa s fn hpa with
  | none => .next s
  | some pa =>
    if s.boot ≠ .running || !hostAdmitted s fn pa write.isSome || 64 < pa % 64 + n then .next s else
    match write with
    | some v =>
      let s1 := storeHome s (.hbm pa) n v (fullMask n)
      .next { s1 with hostHeld := s1.hostHeld.filter (· != pa / 64) }
    | none => .next { s with hostHeld := pa / 64 :: s.hostHeld.filter (· != pa / 64) }

/-- BACK_INVALIDATE_RESPONSE: the host gives a line up, so that a device store to it may be performed (R245). -/
def execBackInvalidateResponse (line : Nat) (s : State) : Host.Outcome State Fault Refusal :=
  .next { s with hostHeld := s.hostHeld.filter (· != line) }

/-! ### Host lines (R259) -/

/-- The threads whose access waits for a host line. -/
def hostWaiters (s : State) (line : Nat) : List (Nat × Nat) :=
  (s.cores.filter (fun c => !s.halted.contains (clusterOf c.1))).flatMap fun c =>
    (c.2.slots.filter (fun k => k.2.live && k.2.pend.homes.any (fun h => match h with
    | .host pa => pa / 64 == line
    | _ => false))).map (fun k => (c.1, k.1))

/-- An access that needs its line in M. -/
def Pending.writes : Pending → Bool
  | .store _ | .push _ _ | .amo _ _ _ _ _ _ => true
  | _ => false

/-- A waiting access has asked the host for a line: it is not here, or not for its store (R259). -/
def awaitsGo (s : State) (line : Nat) : Bool :=
  (hostWaiters s line).any fun w => match rlcFind s none line with
    | some r => r.state == .i || ((slotOf s w.1 w.2).pend.writes && r.state == .s)
    | none => true

/-- A snoop of a line whose request awaits its GO is answered after it (R259). -/
def afterGo (s : State) (line : Nat) (i : Instr) (f : State) : Host.Outcome State Fault Refusal :=
  if awaitsGo s line then .next { s with agenda := s.agenda ++ [⟨1, .event i⟩] } else .next f

/-- SNPDATA. -/
def execSnpdata (line : Nat) (s : State) : Host.Outcome State Fault Refusal := afterGo s line (.snpdata line) (snoopHost false s line)

/-- SNPINV: the device's copy goes; the host's own store may follow, which leaves the line with value (R136). DESIGN CHOICE (log 29). -/
def execSnpinv (line : Nat) (value : Option Packet) (s : State) : Host.Outcome State Fault Refusal :=
  let s1 := snoopHost true s line
  afterGo s line (.snpinv line value) (match value with
  | some v => setHost s1 (64 * line) 64 v.toNat
  | none => s1)

/-- SNPCUR: the host sees the data, and nothing changes. -/
def execSnpcur (_line : Nat) (s : State) : Host.Outcome State Fault Refusal := .next s

/-- The host grants a line, with data where it sends them; a grant of M is taken as E (R259). DESIGN CHOICE (log 29). -/
def grantLine (s : State) (line : Nat) (grant : Grant) (value : Option Packet) : State :=
  let s0 := match value with
    | some v => setHost s (64 * line) 64 v.toNat
    | none => s
  let state : LineState := if grant = .s then .s else .e
  match rlcFind s none line with
  | some r => if r.state = .i then rlcSet s0 { r with state := state, data := hostData s0 line }
              else if grant = .s then s else rlcSet s { r with state := if r.state = .m then .m else .e }
  | none => rlcSet s0 { pkg := none, line := line, state := state, data := hostData s0 line }

/-- GO_RESPONSE: the grant of a line that threads wait for; the waiting accesses are bound to that line. A load is granted S alone, and with
S no store goes on (R259). -/
def execGoResponse (line : Nat) (grant : Grant) (value : Option Packet) (s : State) : Host.Outcome State Fault Refusal :=
  let waiters := hostWaiters s line
  let writes (w : Nat × Nat) : Bool := (slotOf s w.1 w.2).pend.writes
  let g : Grant := if waiters.any writes then grant else .s
  let served := waiters.filter (fun w => g != .s || !writes w)
  if served.isEmpty then .next s else .next (served.foldl (replyWaiter .home) (grantLine s line g value))

/-- HOST_LINE_EVICTION: DirtyEvict, CleanEvict or nothing (R259). -/
def execHostLineEviction (line : Nat) (s : State) : Host.Outcome State Fault Refusal := .next (snoopHost true s line)

/-! ### Confidential I/O (R257) -/

/-- IDE_TAG_FAILURE: the packet is dropped, the stream is insecure, the TDI is in ERROR, and the copies that read through it
fail (R257). -/
def execIdeTagFailure (fn : Nat) (s : State) : Host.Outcome State Fault Refusal :=
  let p := partOf s fn
  if p.tdisp.state ≠ .run then .next s else
  let s1 := setPart s fn { p with tdisp := { p.tdisp with state := .error, secure := false, tagFailures := p.tdisp.tagFailures + 1 } }
  .next ((s1.ops.filter (fun o => (estateOf s1 o.2.estate).part == fn && readsHost s1 o.2)).foldl (fun s o => endOp s o.1 o.2 (some 0x0020)) s1)

/-- The status dword of a function's stream, as its configuration space shows it (R257). -/
def TdispState.word (t : TdispState) : Word :=
  BitVec.ofNat 64 (t.secure.toNat + 256 * t.keys.toNat + 65536 * t.tagFailures.toNat)

/-- TDISP_REQUEST: LOCK, START and STOP (R257); in recovery only the PF answers (R263). The keys that a stream in RUN has in use the manual
leaves open. DESIGN CHOICE (log 29). -/
def execTdispRequest (fn : Nat) (dest : Tdi) (s : State) : Host.Outcome State Fault Refusal :=
  let p := partOf s fn
  let move (t : TdispState) (s : State) : Host.Outcome State Fault Refusal := .next (setPart s fn { partOf s fn with tdisp := t })
  if fn = 0 || 64 ≤ fn || s.boot ≠ .running then .next s else
  match p.tdisp.state, dest with
  | .configUnlocked, .configLocked => move { p.tdisp with state := .configLocked } s
  | .configLocked, .run =>
    move { p.tdisp with state := .run, secure := true, keys := BitVec.ofNat 8 (Config.freeWord s.draws).toNat } { s with draws := s.draws + 1 }
  | _, .configUnlocked => move { p.tdisp with state := .configUnlocked, secure := false, keys := 0 } s
  | _, _ => .next s

/-! ### Service events -/

/-- A clock that an island may have: 0.9 to 3.6 GHz in steps of 0.1 GHz (R11). -/
def freqOk (island freq : Nat) : Bool := island < 16 && 9 ≤ freq && freq ≤ 36

/-- The governor sets an island's clock: no program sees more than speed (R11, R14). -/
def setFreq (s : State) (island freq : Nat) : State := { s with islands := mapSet s.islands island { islandGet s island with freq := freq } }

/-- GOVERNOR_THROTTLE (R14). -/
def execGovernorThrottle (island freq : Nat) (s : State) : Host.Outcome State Fault Refusal :=
  if freqOk island freq && freq < (islandGet s island).freq then .next (setFreq s island freq) else .next s

/-- GOVERNOR_RAISE (R11). -/
def execGovernorRaise (island freq : Nat) (s : State) : Host.Outcome State Fault Refusal :=
  if freqOk island freq && (islandGet s island).freq < freq then .next (setFreq s island freq) else .next s

/-- UNCORRECTABLE_ERROR (R110). -/
def execUncorrectableError (pa : Nat) (s : State) : Host.Outcome State Fault Refusal :=
  if pa < 2 ^ 39 then .next (poisonHbm s pa) else .next s

/-- The physical unit that a logical slice or bank is on. -/
def physicalOf (m : Map Nat) (index logical : Nat) : Nat := (mapFind m index).getD logical

/-- A logical L2 slice or commons bank of a die moves to a spare, contents and pins with it; without a spare it stays
(R8, R267). The spares of a die are its last physical units and are used in ascending order, so that those after the last one used are
free. -/
def sliceSwap (commons : Bool) (die logical : Nat) (s : State) : State :=
  let count := if commons then 64 else 80
  let total := if commons then 66 else 84
  let m := if commons then s.bankMap else s.sliceMap
  let used := (m.filter (fun p => p.1 / count == die)).map (·.2)
  if 4 ≤ die || count ≤ logical then s else
  let p := used.foldl max (count - 1) + 1
  if total ≤ p then s else
    let m' := mapSet m (die * count + logical) p
    if commons then { s with bankMap := m', spareBanks := s.spareBanks - 1 } else { s with sliceMap := m', spareSlices := s.spareSlices - 1 }

/-- SLICE_SWAP (R8, R267). -/
def execSliceSwap (commons : Bool) (die logical : Nat) (s : State) : Host.Outcome State Fault Refusal := .next (sliceSwap commons die logical s)

/-- A single-bit error of a unit is corrected and counted; at the threshold the unit moves to a spare, whose count starts anew (R267,
R269). -/
def countUnit (commons : Bool) (die logical : Nat) (s : State) : State :=
  let count := if commons then 64 else 80
  let s1 := { s with sramErrors := s.sramErrors + 1 }
  if 4 ≤ die || count ≤ logical then s1 else
  let k := (if commons then 320 else 0) + die * count + logical
  let n := (mapFind s.unitErrors k).getD 0 + 1
  if Config.eccThreshold ≤ n then { sliceSwap commons die logical s1 with unitErrors := mapErase s1.unitErrors k }
  else { s1 with unitErrors := mapSet s1.unitErrors k n }

/-! ### What reads of the package's registers return (R15, R244, R247, R255, R266) -/

/-- 8 bytes of a queue block. -/
def queueWord (s : State) (q o : Nat) : Nat :=
  let x := queueOf s q
  if o < 0x800 then memRead x.bytes o 8
  else if o = 0x800 then x.tail
  else if o = 0x808 then x.head
  else if o = 0x810 then x.busy.isSome.toNat + 65536 * x.dropped
  else 0

/-- A byte of a map of physical units: logical units first, then 0xFF. -/
def mapByte (m : Map Nat) (count total i : Nat) : Nat :=
  if i % total < count then physicalOf m (i / total * count + i % total) (i % total) else 255

/-- Bit i of a byte for each parcel that is RETIRED. -/
def retiredByte (s : State) (parcel : Nat → Nat) (j : Nat) : Nat :=
  ((List.range 8).map (fun i => if (entryOf s (parcel (8 * j + i))).state = .retired then 2 ^ i else 0)).foldl (· + ·) 0

/-- A byte of the service status block. -/
def statusByte (s : State) (o : Nat) : Nat :=
  if o < 0x150 then mapByte s.sliceMap 80 84 o
  else if o < 0x258 then mapByte s.bankMap 64 66 (o - 0x150)
  else if o < 0x2D8 then retiredByte s parcelCore (o - 0x258)
  else if o < 0x2E8 then retiredByte s parcelUnit (o - 0x2D8)
  else if o = 0x2E8 then s.spareSlices % 256
  else if o = 0x2E9 then s.spareBanks % 256
  else if o < 0x2EC then (Config.hbmSpares - s.sparedRows.length) / 256 ^ (o - 0x2EA) % 256
  else if o < 0x2F0 then (imageOf s s.current).version.toNat / 256 ^ (o - 0x2EC) % 256
  else if o = 0x2F0 then s.lifeCycle.toNat
  else 0

/-- 8 bytes of the status block. -/
def statusWord (s : State) (o : Nat) : Nat := ((List.range 8).map (fun i => statusByte s (o + i) * 256 ^ i)).foldl (· + ·) 0

/-- A read of 8 bytes of BAR0 of a function by the host: a block that does not respond reads all ones. -/
def barRead (s : State) (fn off : Nat) : Nat :=
  if off < 0x40000 then (if responds s fn (off / 4096) then queueWord s (off / 4096) (off % 4096) else 2 ^ 64 - 1)
  else if off < 0x40200 then ((mapFind (partOf s fn).mailbox ((off - 0x40000) / 8)).getD 0).toNat
  else if fn = 0 && 0x50000 ≤ off && off < 0x51000 then statusWord s (off - 0x50000)
  else 0

/-- A read of 8 bytes of PA region 3 by Garnet: the queue blocks, whose TAIL is the notify register, and the status block. No page leads
there (R112). -/
def cairnRead (s : State) (off : Nat) : Nat :=
  if off < 0x40000 then queueWord s (off / 4096) (off % 4096)
  else if off < 0x41000 then statusWord s (off - 0x40000)
  else 0

end Sys2Proof.Machine
end

