-- ==== Sys2Proof/Machine/Directory.lean ====
section
/-! DEFINITION. The coherence directory and the remote line cache's part in it (R235 to R240), and errors in SRAM (R269). A message of this package to itself
waits in outbox like one to another package; the event of its arrival takes it out. -/

namespace Sys2Proof.Machine

/-! ### Messages -/

/-- Takes a message to this package out of the outbox, once it has arrived from package src. -/
def unsend (s : State) (m : FabricMsg) (src : Nat) : State :=
  if src = s.pkgId.toNat then { s with outbox := s.outbox.erase (src, m) } else s

/-- The same where the event does not say who sent it. -/
def received (s : State) (m : FabricMsg) : State := unsend s m s.pkgId.toNat

def post (dst : Nat) (m : FabricMsg) (s : State) : State := { s with outbox := (dst, m) :: s.outbox }

/-- Sends a steward's numbered request, which stays outstanding until it is answered (R225); line is what its answer is about. -/
def stewardRequest (dst : Nat) (op : RemoteOp) (line : Option (Nat × Nat)) (s : State) : State :=
  sendNumbered { dst := dst, seq := 0, thread := stewardThread, line := line } (fun n => .request n 0 op) s

/-- The limit of R225 holds a steward back: the requests that one message may make it send to home or to its shadow would not all fit. -/
def stewardFull (s : State) (home : Nat) : Bool :=
  let n (dst : Nat) : Nat := (s.outstanding.filter (·.dst == dst)).length
  1020 < n home || (1 < s.domain.length && 1020 < n (shadowPartner s.pkgId.toNat))

/-- The shadow takes no further mirror before it has answered some (R225). -/
def mirrorFull (s : State) : Bool := 1 < s.domain.length && full1024 s (shadowPartner s.pkgId.toNat)

/-- Whether a coherence request of package q was taken before: a duplicate, which is not served again (R225). The request itself stands for
its reply among those kept; what answers it is what its transaction has sent. -/
def takenBefore (s : State) (q seq : Nat) (m : FabricMsg) : Bool := s.replies.contains (q, seq, m)

/-! ### Entries (R236) -/

def dirFind (s : State) (home line : Nat) : Option DirEntry := s.directory.find? (fun d => d.home == home && d.line == line)

/-- An entry, or a new one in I. -/
def dirGet (s : State) (home line : Nat) : DirEntry := (dirFind s home line).getD { home := home, line := line }

/-- An entry that holds nothing. -/
def DirEntry.free (d : DirEntry) : Bool := d.state == .i && d.busy.isNone && d.queue.isEmpty

/-- Writes an entry; a free one leaves the directory. -/
def dirPut (s : State) (d : DirEntry) : State :=
  let others := s.directory.filter (fun x => !(x.home == d.home && x.line == d.line))
  { s with directory := if d.free then others else others ++ [{ d with used := s.cycle }] }

/-- Writes an entry, and its change to the shadow first (R236). A shadow that serves for a lost steward keeps none itself. -/
def dirSet (s : State) (d : DirEntry) : State :=
  let me := s.pkgId.toNat
  let old := dirGet s d.home d.line
  let s1 :=
    if 1 < s.domain.length && slotHolder s d.home d.line == some me && !s.lostPackages.contains (shadowPartner me) &&
        (old.state, old.owner, old.sharers, old.bcast, old.busy) != (d.state, d.owner, d.sharers, d.bcast, d.busy) then
      stewardRequest (shadowPartner me) (.mirror d.home d.line d.state d.owner d.sharers d.bcast d.busy) none s
    else s
  dirPut s1 d

/-- The entries of a line's set that take up a way (R236). -/
def setWays (s : State) (home line : Nat) : List DirEntry :=
  s.directory.filter (fun d => Config.directorySet d.home d.line == Config.directorySet home line && (d.state != .i || d.busy.isSome))

/-- The packages that hold a copy as sharers, as far as Invs go, but for those given: the pointers, or with BCAST every member
(R238). DEDUCED (log 33). -/
def invTargets (s : State) (d : DirEntry) (but : List Nat) : List Nat :=
  (if d.bcast then s.domain else d.sharers).filter (fun p => !but.contains p)

/-- The owner of an entry among those that a transaction spares an Inv: not where it is a listed sharer too, for its owner's copy is in its
eviction buffer then (R237 to R239). -/
def DirEntry.spared (d : DirEntry) : List Nat := if d.sharers.contains d.owner then [] else [d.owner]

/-- Adds a sharer; the fifth sets BCAST (R238). -/
def DirEntry.share (d : DirEntry) (q : Nat) : DirEntry :=
  if d.sharers.contains q then d
  else if 4 ≤ d.sharers.length then { d with bcast := true }
  else { d with sharers := d.sharers ++ [q] }

/-- Sends an Inv to each package, its Ack due to q. -/
def sendInvs (q : Nat) (d : DirEntry) (dest : List Nat) (s : State) : State := dest.foldl (fun s p => post p (.inv q d.home d.line) s) s

/-- Whether a line's home is lost (R240). -/
def homeLost (s : State) (home : Nat) : Bool := s.lostPackages.contains home

/-! ### The requester -/

/-- The line has been granted: the threads that wait for it go on, and one that needs more asks again (R237). -/
def wakeLine (s : State) (home line : Nat) : State :=
  (lineWaiters s home line).foldl (fun s w => match replyTo s w.1 w.2 .home with
    | some m => resume w.1 w.2 m s
    | none =>
      match (slotOf s w.1 w.2).pend with
      | .load _ ps _ | .packet _ ps _ | .operand ps =>
        ps.foldl (fun s p => if needsLine s p.home false then requestLine (threadId w.1 w.2) s p.home false else s) s
      | .fetch _ p => if needsLine s p.home false then requestLine (threadId w.1 w.2) s p.home false else s
      | p => p.homes.foldl (fun s h => if needsLine s h true then requestLine (threadId w.1 w.2) s h true else s) s) s

def stateOfGrant : Grant → LineState
  | .s => .s
  | .e => .e
  | .m => .m

/-- The requester holds Data and every Ack that it announced: completion Ack, and the line is granted (R238). -/
def completeLine (s : State) (r : RlcLine) (g : Grant) : State :=
  let home := r.pkg.getD 0
  let s1 := rlcSet s { r with state := stateOfGrant g, busy := false, acks := 0, early := 0, grant := none }
  let s2 := { s1 with outstanding := s1.outstanding.filter (fun o => !asksLine home r.line o) }
  wakeLine (post ((stewardOf s home r.line).getD home) (.completion home r.line) s2) home r.line

/-- DATA: Data(x) arrives at the requester. Data for which nothing is outstanding is a duplicate; the completion Ack is sent again
(R238, R240). -/
def execData (home line : Nat) (grant : Grant) (value : Option LineData) (acks : Nat) (s : State) : Host.Outcome State Fault Refusal :=
  let s0 := received s (.data home line grant value acks)
  match rlcFind s0 (some home) line with
  | none => .next s0
  | some r =>
    if !r.busy then .next (post ((stewardOf s home line).getD home) (.completion home line) s0) else
    let r1 := match value with
      | some v => { r with data := v.data, poison := v.poison }
      | none => r
    if acks ≤ r.early then .next (completeLine s0 r1 grant)
    else .next (rlcSet s0 { r1 with grant := some grant, acks := acks - r.early, early := 0 })

/-! ### Holders -/

/-- The copy that answers a forward or a recall: in the cache, or in its eviction buffer (R237). -/
def holderLine (s : State) (home line : Nat) (ok : LineState → Bool) : Option RlcLine :=
  s.rlc.find? (fun r => r.pkg == some home && r.line == line && ok r.state)

/-- The copy is given up: a line of the cache goes, unless a request for it is outstanding; one in the eviction buffer stays until
the steward's Ack. -/
def giveUp (s : State) (r : RlcLine) : State :=
  if r.busy || r.evicting then rlcSet (noteLine s r) { r with state := .i } else rlcDrop s r.pkg r.line false

/-- The line as a message carries it. -/
def RlcLine.value (r : RlcLine) : LineData := { data := r.data, poison := r.poison }

def owns (x : LineState) : Bool := x == .m || x == .o || x == .e

/-- The Data that this package has sent to q for a line, the latest first. -/
def dataSent (s : State) (q home line : Nat) : Option FabricMsg :=
  (s.outbox.find? (fun m => m.1 == q && match m.2 with
    | .data h l _ _ _ => h == home && l == line
    | _ => false)).map (·.2)

/-- Answers a repeated forward with the Data already sent (R225, R240). -/
def repeatData (s : State) (q home line : Nat) : State :=
  match dataSent s q home line with
  | some m => post q m s
  | none => s

/-- FWDS: the owner sends Data(S) to the requester and Acks the steward with a dirty bit (R238). -/
def execFwds (q home line : Nat) (s : State) : Host.Outcome State Fault Refusal :=
  let s0 := received s (.fwdS q home line)
  match holderLine s0 home line owns with
  | some r =>
    let dirty := r.state != .e
    let s1 := rlcSet s0 { r with state := if dirty then .o else .s }
    .next (post ((stewardOf s home line).getD home) (.ownerAck home line dirty) (post q (.data home line .s (some r.value) 0) s1))
  | none => .next (repeatData s0 q home line)

/-- What else the package caches of a line whose owner's copy it gives up out of the eviction buffer: the copy in which it reads the line
again. -/
def giveUpRest (s : State) (home line : Nat) : State :=
  match rlcFind s (some home) line with
  | some r => if r.state = .i then s else giveUp s r
  | none => s

/-- FWDM: the owner sends Data(M) with the Ack count to the requester and goes to I (R238). -/
def execFwdm (q home line acks : Nat) (s : State) : Host.Outcome State Fault Refusal :=
  let s0 := received s (.fwdM q home line acks)
  match holderLine s0 home line owns with
  | some r => .next (post q (.data home line .m (some r.value) acks) (giveUpRest (giveUp s0 r) home line))
  | none => .next (repeatData s0 q home line)

/-- INV: the copy goes and the Ack goes to the requester; a package without the line answers with Ack too (R238). -/
def execInv (q home line : Nat) (s : State) : Host.Outcome State Fault Refusal :=
  let s0 := received s (.inv q home line)
  let s1 := match rlcFind s0 (some home) line with
    | some r => if r.state = .i then s0 else giveUp s0 r
    | none => s0
  .next (post q (.ack home line) s1)

/-- Sends a Put, which stays outstanding until the steward's Ack (R225, R237). -/
def sendPut (w home line : Nat) (msg : Nat → FabricMsg) (s : State) : State :=
  sendNumbered { dst := w, seq := 0, thread := putThread, line := some (home, line) } msg s

/-- The Put of a line by its state (R237). -/
def putOf (home line : Nat) (r : RlcLine) (n : Nat) : FabricMsg :=
  match r.state with
  | .e => .putM n home line none
  | .m => .putM n home line (some r.value)
  | _ => .putO n home line r.value

/-- The copy that a recall takes: the owner's, or that of the sharer that stands in for a lost owner (R239, R240). -/
def recalledLine (s : State) (home line : Nat) : Option RlcLine := (holderLine s home line owns).or (holderLine s home line (· != .i))

/-- RECALL: the holder returns its data to the steward and goes to I (R239, R240). It travels as a Put, and while the Put of an eviction
is outstanding, as that one. DEDUCED (log 33). -/
def execRecallLine (home line : Nat) (s : State) : Host.Outcome State Fault Refusal :=
  let s0 := received s (.recallLine home line)
  match recalledLine s0 home line with
  | some r =>
    if r.evicting && s0.outstanding.any (fun o => o.thread == putThread && o.line == some (home, line)) then .next (giveUpRest s0 home line)
    else .next (sendPut ((stewardOf s home line).getD home) home line (putOf home line r) (giveUpRest (giveUp s0 r) home line))
  | none => .next s0

/-- A line leaves the cache: an S line silently; an owner's line waits in the eviction buffer for the steward's Ack of its Put (R237), which
the limit may hold back (R225). -/
def evictLine (home line : Nat) (s : State) : State :=
  match rlcFind s (some home) line with
  | none => s
  | some r =>
    let buffered := s.rlc.any (fun x => x.pkg == some home && x.line == line && x.evicting)
    if r.busy then s else
    match r.state, stewardOf s home line with
    | .i, _ | .s, _ => rlcDrop s (some home) line false
    | _, some w =>
      if buffered || full1024 s w then s else
      sendPut w home line (putOf home line r) (rlcSet (rlcDrop s (some home) line false) { r with evicting := true })
    | _, none => s

/-- COHERENT_EVICTION (R237). -/
def execCoherentEviction (home line : Nat) (s : State) : Host.Outcome State Fault Refusal := .next (evictLine home line s)

/-- PUT_ACK: the eviction buffer is free (R237). -/
def execPutAck (home line : Nat) (s : State) : Host.Outcome State Fault Refusal :=
  let s0 := received s (.putAck home line)
  .next (rlcDrop { s0 with outstanding := s0.outstanding.filter (fun o => !(o.thread == putThread && o.line == some (home, line))) }
    (some home) line true)

/-! ### The steward's transactions (R238, R239) -/

/-- The entry when a request's transaction ends. dirty is the owner's, for a GetS in EM. DEDUCED (log 33). -/
def DirEntry.after (d : DirEntry) (dirty : Bool) : DirReq → DirEntry
  | .getS q =>
    match d.state with
    | .i => { d with state := .em, owner := q, sharers := [], bcast := false }
    | .s | .o => d.share q
    | .em =>
      if dirty then { d with state := .o, sharers := [q] }
      else { d with state := .s, sharers := if d.owner = q then [q] else [d.owner, q], owner := 0 }
  | .getM q | .upgrade q => { d with state := .em, owner := q, sharers := [], bcast := false }
  | .put p _ _ =>
    match d.state with
    | .em => if d.owner = p then { d with state := .i, owner := 0 } else d
    | .o =>
      if d.owner ≠ p then d
      else if d.sharers.isEmpty then { d with state := .i, owner := 0, bcast := false }
      else { d with state := .s, owner := 0 }
    | _ => d
  | .recallLine | .lose _ => { d with state := .i, owner := 0, sharers := [], bcast := false }

/-- Whether a Put is the owner's and brings data for home. -/
def DirEntry.takes (d : DirEntry) (p : Nat) : Bool := (d.state == .em || d.state == .o) && d.owner == p

/-- The transaction in progress ends. -/
def endTransaction (s : State) (d : DirEntry) (dirty : Bool) : State :=
  match d.busy with
  | some r => dirSet s { d.after dirty r with busy := none, acks := 0 }
  | none => s

/-- A request that cannot be served: its requester's access ends in a trap (R240). DEDUCED (log 34). -/
def failTo (s : State) (q home line : Nat) (r : Reply) : State :=
  if q = s.pkgId.toNat then failLine s home line r else post q (.failed home line r) s

/-- The steward reads home for a request, or fails it when home is lost. -/
def readHome (s : State) (d : DirEntry) (q : Nat) : State :=
  if homeLost s d.home then failTo (dirSet s { d with busy := none, acks := 0 }) q d.home d.line (.fabricError 2 s.pkgId.toNat)
  else stewardRequest d.home (.readHome d.line) (some (d.home, d.line)) s

/-- A transaction begins. -/
def begin (s : State) (d : DirEntry) (r : DirReq) : State :=
  let me := s.pkgId.toNat
  let d1 := { d with busy := some r, acks := 0 }
  match r with
  | .getS q =>
    let s1 := dirSet s d1
    match d.state with
    | .i | .s => readHome s1 d1 q
    | .em | .o => post d.owner (.fwdS q d.home d.line) s1
  | .getM q => exclusive s d1 q false
  | .upgrade q => exclusive s d1 q (match d.state with
    | .s => d.sharers.contains q
    | .o => d.owner == q || d.sharers.contains q
    | _ => false)
  | .put p data _ =>
    if !d.takes p then post p (.putAck d.home d.line) (dirPut s d)
    else
      let done (s : State) : State := post p (.putAck d.home d.line) (endTransaction s d1 false)
      match data with
      | some v => if homeLost s d.home then done s
                  else stewardRequest d.home (.writeHome d.line v) (some (d.home, d.line)) (dirSet s d1)
      | none => done s
  | .recallLine =>
    let owned := d.state == .em || d.state == .o
    let dest := invTargets s d (if owned then d.spared else [])
    let s1 := sendInvs me d dest (dirSet s { d1 with acks := dest.length })
    if owned then post d.owner (.recallLine d.home d.line) s1
    else if dest.isEmpty then endTransaction s1 { d1 with acks := 0 } false else s1
  | .lose p => stewardRequest d.home (.markLost d.line p) (some (d.home, d.line)) (dirSet s { d1 with state := .i, owner := 0 })
where
  /-- GetM, and Upgrade: has says that the requester holds the line. -/
  exclusive (s : State) (d1 : DirEntry) (q : Nat) (has : Bool) : State :=
    match d1.state with
    | .i => readHome (dirSet s d1) d1 q
    | .em => post d1.owner (.fwdM q d1.home d1.line 0) (dirSet s d1)
    | .s =>
      if !has && homeLost s d1.home then failTo (dirSet s { d1 with busy := none }) q d1.home d1.line (.fabricError 2 s.pkgId.toNat) else
      let dest := invTargets s d1 [q]
      let d2 := { d1 with acks := dest.length }
      let s1 := sendInvs q d1 dest (dirSet s d2)
      if has then post q (.data d1.home d1.line .m none dest.length) s1 else readHome s1 d2 q
    | .o =>
      if has then
        let dest := (invTargets s d1 [q]).filter (· != d1.owner) ++ (if d1.owner = q then [] else [d1.owner])
        post q (.data d1.home d1.line .m none dest.length) (sendInvs q d1 dest (dirSet s { d1 with acks := dest.length }))
      else
        let dest := invTargets s d1 (q :: d1.spared)
        post d1.owner (.fwdM q d1.home d1.line dest.length) (sendInvs q d1 dest (dirSet s { d1 with acks := dest.length }))

/-- The least recently used entry of a set that is not busy. -/
def leastUsed (l : List DirEntry) : Option DirEntry :=
  (l.filter (fun d => d.busy.isNone)).foldl (fun acc d => match acc with
    | some m => if d.used < m.used then some d else acc
    | none => some d) none

/-- A line's queue goes on: its next request begins, or in a full set the least recently used entry is recalled first (R239). -/
def advance (s : State) (home line : Nat) : State :=
  match dirFind s home line with
  | none => s
  | some d =>
    match d.busy, d.queue with
    | none, r :: rest =>
      if stewardFull s home then s else
      let put := match r with
        | .put _ _ _ => true
        | _ => false
      let ways := setWays s home line
      if d.state = .i && !put && 16 ≤ ways.length then
        if ways.any (fun x => x.busy == some .recallLine) then s else
        match leastUsed ways with
        | some v => begin s v .recallLine
        | none => s
      else begin s { d with queue := rest } r
    | _, _ => s

/-- Every queue goes on as far as it can; fuel bounds the requests. -/
def pump : Nat → State → State
  | 0, s => s
  | n + 1, s => pump n (s.directory.foldl (fun s d => advance s d.home d.line) s)

/-- The requests that wait. -/
def waitingRequests (s : State) : Nat := (s.directory.map (fun d => d.queue.length)).foldl (· + ·) 1

def pumpAll (s : State) : State := pump (waitingRequests s) s

/-- Whether this package is the steward of a line (R236, R240). -/
def isSteward (s : State) (home line : Nat) : Bool := stewardOf s home line == some s.pkgId.toNat

/-- A request arrives: it is served when its turn comes (R238). -/
def serve (s : State) (home line : Nat) (r : DirReq) : State :=
  let d := dirGet s home line
  pumpAll (dirPut s { d with queue := d.queue ++ [r] })

/-- Whether the steward waits for home on behalf of a line. -/
def awaitsHome (s : State) (home line : Nat) : Bool :=
  s.outstanding.any (fun o => o.thread == stewardThread && o.line == some (home, line))

/-- A duplicate of a request whose transaction is in progress: the Data or the forward that the steward has sent for it goes out again
(R225, R240). When the transaction has ended, its requester waits for nothing more. -/
def repeatReply (s : State) (q home line : Nat) : State :=
  if awaitsHome s home line then s else
  match s.outbox.find? (fun m => match m.2 with
    | .data h l _ _ _ => m.1 == q && h == home && l == line
    | .fwdS p h l | .fwdM p h l _ => p == q && h == home && l == line
    | _ => false) with
  | some m => post m.1 m.2 s
  | none => s

/-- A request under its number arrives at the steward: it is served when its turn comes, and once (R225, R238). -/
def takeRequest (s : State) (q : Sender) (home line : Nat) (m : FabricMsg) (r : DirReq) (f : State → State) : State :=
  if !isSteward s home line then unsend s m q.pkg
  else if takenBefore s q.pkg q.seq m then
    (if (dirFind s home line).any (fun d => d.busy == some r) then repeatReply (unsend s m q.pkg) q.pkg home line else unsend s m q.pkg)
  else if behindWindow s q.pkg q.seq then unsend s m q.pkg
  else if stewardFull s home then s
  else f (keepReply (unsend s m q.pkg) q.pkg q.seq m)

/-- GETS (R238). -/
def execGets (q : Sender) (home line : Nat) (s : State) : Host.Outcome State Fault Refusal :=
  .next (takeRequest s q home line (.getS q.seq home line) (.getS q.pkg) (serve · home line (.getS q.pkg)))

/-- GETM (R238). -/
def execGetm (q : Sender) (home line : Nat) (s : State) : Host.Outcome State Fault Refusal :=
  .next (takeRequest s q home line (.getM q.seq home line) (.getM q.pkg) (serve · home line (.getM q.pkg)))

/-- UPGRADE (R238). -/
def execUpgrade (q : Sender) (home line : Nat) (s : State) : Host.Outcome State Fault Refusal :=
  .next (takeRequest s q home line (.upgrade q.seq home line) (.upgrade q.pkg) (serve · home line (.upgrade q.pkg)))

/-- What a recall still waits for: Acks, the reply of home, the owner's data. -/
def recallStep (s : State) (d : DirEntry) : State :=
  if d.acks = 0 && d.state != .em && d.state != .o then pumpAll (endTransaction s d false) else dirPut s d

/-- A Put arrives. The owner's Put during a recall serves as the recall's data (R239). -/
def servePut (s : State) (p home line : Nat) (data : Option LineData) (owned : Bool) : State :=
  let d := dirGet s home line
  if d.busy = some .recallLine && d.takes p then
    let d1 : DirEntry := { d with state := .s, owner := 0 }
    let written := data.isSome && !homeLost s home
    let d2 := if written then { d1 with acks := d1.acks + 1 } else d1
    let s1 := post p (.putAck home line) (dirSet s d2)
    match data with
    | some v => if written then stewardRequest home (.writeHome line v) (some (home, line)) s1 else recallStep s1 d2
    | none => recallStep s1 d2
  else serve s home line (.put p data owned)

/-- A Put under its number arrives; a duplicate of one that has ended is acknowledged again (R225, R237, R238). -/
def takePut (s : State) (p : Sender) (home line : Nat) (m : FabricMsg) (data : Option LineData) (owned : Bool) : State :=
  let r : DirReq := .put p.pkg data owned
  let waits (d : DirEntry) : Bool := d.busy == some r || d.queue.contains r
  if isSteward s home line && takenBefore s p.pkg p.seq m && !(dirFind s home line).any waits then
    post p.pkg (.putAck home line) (unsend s m p.pkg)
  else takeRequest s p home line m r (servePut · p.pkg home line data owned)

/-- PUTM (R237, R238). -/
def execPutm (p : Sender) (home line : Nat) (data : Option LineData) (s : State) : Host.Outcome State Fault Refusal :=
  .next (takePut s p home line (.putM p.seq home line data) data false)

/-- PUTO (R237, R238). -/
def execPuto (p : Sender) (home line : Nat) (data : LineData) (s : State) : Host.Outcome State Fault Refusal :=
  .next (takePut s p home line (.putO p.seq home line data) (some data) true)

/-- Home's answer to a steward: the transaction goes on, or fails (R238 to R240). DEDUCED (log 33). -/
def homeAnswered (s : State) (home line : Nat) (a : HomeAnswer) : State :=
  match dirFind s home line with
  | none => s
  | some d =>
    let grant (q : Nat) (g : Grant) : State :=
      match a with
      | .line v => post q (.data home line g (some v) d.acks) s
      | .lost g => failTo (pumpAll (dirSet s (failed d))) q home line (.lost g)
      | .fabricError c => failTo (pumpAll (dirSet s (failed d))) q home line (.fabricError c s.pkgId.toNat)
      | .written => s
    match d.busy with
    | some (.getS q) => grant q (if d.state = .i then .e else .s)
    | some (.getM q) | some (.upgrade q) => grant q .m
    | some (.put p _ _) => pumpAll (post p (.putAck home line) (endTransaction s d false))
    | some .recallLine => recallStep s { d with acks := d.acks - 1 }
    | some (.lose _) => pumpAll (endTransaction s d false)
    | none => s
where
  /-- A request fails: the sharers that its Invs have reached are no sharers any more. -/
  failed (d : DirEntry) : DirEntry :=
    match d.busy with
    | some (.getS _) => { d with busy := none, acks := 0 }
    | _ => { d with busy := none, acks := 0, state := .i, sharers := [], bcast := false, owner := 0 }

/-- HOME_REPLY (R238). -/
def execHomeReply (home line : Nat) (answer : HomeAnswer) (s : State) : Host.Outcome State Fault Refusal :=
  if mirrorFull s then .next s else
  let s0 := received s (.homeData home line answer)
  let s1 := { s0 with outstanding := s0.outstanding.filter (fun o => !(o.thread == stewardThread && o.line == some (home, line))) }
  .next (homeAnswered s1 home line answer)

/-- INV_ACK: an Ack of an Inv arrives, at the requester, or at the steward that recalls the line (R238, R239). -/
def execInvAck (home line : Nat) (s : State) : Host.Outcome State Fault Refusal :=
  if mirrorFull s then .next s else
  let s0 := received s (.ack home line)
  match dirFind s0 home line with
  | some d =>
    if d.busy = some .recallLine then .next (if d.acks = 0 then s0 else recallStep s0 { d with acks := d.acks - 1 })
    else .next (requester s0)
  | none => .next (requester s0)
where
  requester (s : State) : State :=
    match rlcFind s (some home) line with
    | none => s
    | some r =>
      if !r.busy then s else
      match r.grant with
      | some g => if r.acks ≤ 1 then completeLine s r g else rlcSet s { r with acks := r.acks - 1 }
      | none => rlcSet s { r with early := r.early + 1 }

/-- The dirty bit that this package's own cache has sent as owner, if it has. -/
def ownDirty (s : State) (home line : Nat) : Option Bool :=
  s.outbox.findSome? (fun m => match m.2 with
    | .ownerAck h l b => if m.1 = s.pkgId.toNat && h == home && l == line then some b else none
    | _ => none)

/-- The request of a transaction is package q's. -/
def requestOf (q : Nat) : DirReq → Bool
  | .getS p | .getM p | .upgrade p => p == q
  | _ => false

/-- COMPLETION_ACK: the requester's Ack ends the transaction; dirty is the bit that the owner has sent for a GetS (R238). -/
def execCompletionAck (q home line : Nat) (dirty : Bool) (s : State) : Host.Outcome State Fault Refusal :=
  if mirrorFull s then .next s else
  let bit := (ownDirty s home line).getD dirty
  let s0 := received (received (unsend s (.completion home line) q) (.ownerAck home line true)) (.ownerAck home line false)
  match dirFind s0 home line with
  | some d =>
    if (d.busy.map (requestOf q)).getD false then .next (pumpAll (endTransaction s0 d bit)) else .next s0
  | none => .next s0

/-! ### The loss of a package (R240) -/

/-- The lowest-slot sharer of an entry. -/
def lowestSharer (s : State) (d : DirEntry) : Option Nat := s.domain.find? (d.sharers.contains ·)

/-- Whether a request in a queue comes from a package. -/
def fromPackage (p : Nat) : DirReq → Bool
  | .getS q | .getM q | .upgrade q => q == p
  | .put q _ _ => q == p
  | .recallLine | .lose _ => false

/-- One entry after the loss of package p: what p had asked for counts as granted; p's copies are gone, and of a line that p owned home is told
before any other request for it is served. DEDUCED (log 33). An entry in O that has no sharer left becomes I, and home is not told. DESIGN
CHOICE (log 69). -/
def loseEntry (p : Nat) (s : State) (d0 : DirEntry) : State :=
  let d1 := match d0.busy with
    | some r => if fromPackage p r then { d0.after true r with busy := none, acks := 0 } else d0
    | none => d0
  let d := { d1 with sharers := d1.sharers.filter (· != p), queue := d1.queue.filter (fun r => !fromPackage p r) }
  if d.owner ≠ p then dirSet s d else
  match d.state with
  | .em =>
    let free : DirEntry := { d with state := .i, owner := 0, busy := none, acks := 0 }
    let s2 := if homeLost s d.home then dirSet s free else begin s free (.lose p)
    match d.busy with
    | some (.getS q) | some (.getM q) | some (.upgrade q) => failTo s2 q d.home d.line (.lost p)
    | _ => s2
  | .o =>
    let queue := match d.busy with
      | some .recallLine | none => d.queue
      | some r => r :: d.queue
    match lowestSharer s d with
    | some q => begin s { d with owner := q, queue := queue, busy := none, sharers := d.sharers.filter (· != q) } .recallLine
    | none => dirSet s { d with state := .i, owner := 0, bcast := false, queue := queue, busy := none, acks := 0 }
  | _ => dirSet s d

/-- The shadow becomes the steward of a lost package's slots, and replays what its mirror shows as incomplete. -/
def promote (s : State) (p : Nat) : State :=
  let mine := s.shadows.filter (fun d => slotHolder s d.home d.line == some p)
  mine.foldl (fun s d =>
    let queue := match d.busy with
      | some r => [r]
      | none => []
    dirPut s { d with busy := none, acks := 0, queue := queue })
    { s with shadows := s.shadows.filter (fun d => slotHolder s d.home d.line != some p) }

/-- PACKAGE_LOST (R240). -/
def execPackageLost (pkg : Nat) (s : State) : Host.Outcome State Fault Refusal :=
  if pkg = s.pkgId.toNat || s.lostPackages.contains pkg || s.domain.length ≤ 1 || !s.domain.contains pkg then .next s else
  let s1 := { s with lostPackages := pkg :: s.lostPackages }
  let s2 := if shadowPartner pkg = s.pkgId.toNat then promote s1 pkg else s1
  let s3 := s2.directory.foldl (loseEntry pkg) s2
  let asked := s3.outstanding.filter (fun o => o.thread == stewardThread && o.dst == pkg)
  let s4 := { s3 with outstanding := s3.outstanding.filter (fun o => !(o.thread == stewardThread && o.dst == pkg)) }
  .next (pumpAll (asked.foldl (fun s o => match o.line with
    | some l => homeAnswered s l.1 l.2 (.fabricError 2)
    | none => s) s4))

/-! ### SRAM errors (R269) -/

/-- SRAM_ERROR (R110, R269). A tag that cannot be read is dropped and refetched; of a line that this package alone holds the copy goes where
an eviction takes it. DESIGN CHOICE (log 70). -/
def execSramError (target : SramTarget) (s : State) : Host.Outcome State Fault Refusal :=
  match target with
  | .single => .next { s with sramErrors := s.sramErrors + 1 }
  | .corrected commons die logical => .next (countUnit commons die logical s)
  | .hbmLine pa => if pa < 2 ^ 39 then .next (poisonHbm s pa) else .next s
  | .commonsLine a =>
    if a < 2 ^ 27 then .next { s with commonsPoison := a / 64 :: s.commonsPoison.filter (· != a / 64) } else .next s
  | .scratchLine core off =>
    if core < garnet && off < 2 ^ 18 then
      let c := coreOf s core
      .next (setCore s core { c with scratchPoison := off / 64 :: c.scratchPoison.filter (· != off / 64) })
    else .next s
  | .l1Line core estate va task =>
    match l1Find s core estate va task with
    | some l => .next (l1Set s core { l with poison := true })
    | none => .next s
  | .rlcData pkg line =>
    match rlcFind s pkg line with
    | some r => .next (if r.state = .i then s else rlcSet s { r with poison := true })
    | none => .next s
  | .register core slot wide reg =>
    let x := slotOf s core slot
    let r := reg.toNat
    if !x.live || (r = 0 && !wide) then .next s
    else if r < 16 then .next (setSlot s core slot { x with poison := (wide, r) :: x.poison.filter (· != (wide, r)) })
    else
      let c := coreOf s core
      .next (setCore s core { c with poison := (wide, r - 16) :: c.poison.filter (· != (wide, r - 16)) })
  | .tlb port estate page =>
    .next { s with tlbs := mapSet s.tlbs port ((tlbOf s port).filter (fun t => !(t.estate == estate && t.page == page))) }
  | .rlcTag none line => .next (snoopHost true s line)
  | .rlcTag (some g) line => .next (evictLine g line s)
  | .cadastre both => .next { s with cadastreFailed := s.cadastreFailed || both }

end Sys2Proof.Machine
end

