-- ==== Sys2Proof/Machine/Fabric.lean ====
section
/-! DEFINITION. The fabric: routes, links, the end-to-end timer, requests from other packages, and the loss of ports (R222 to R228,
R232 to R234). -/

namespace Sys2Proof.Machine

/-! ### Routes (R222, R223) -/

/-- Where the router sends a packet. -/
inductive Routing where
  | port (p : Nat)
  | error (cause : Nat)
  | here
  deriving DecidableEq, Repr

/-- A package ID that the fabric has. -/
def packageExists (p : Nat) : Bool :=
  p < 16384 && coordA p < Config.sizeA && coordB p < Config.sizeB && coordX p < Config.sizeX && coordY p < Config.sizeY

/-- The direction on a torus: the shorter way round, + when both are equal. -/
def torusPort (plus here there size : Nat) : Nat := if 2 * ((there + size - here) % size) ≤ size then plus else plus + 1

/-- The next hop of dimension order. -/
def dimensionHop (me dst : Nat) : Routing :=
  if coordX me ≠ coordX dst then .port (torusPort 0 (coordX me) (coordX dst) Config.sizeX)
  else if coordY me ≠ coordY dst then .port (torusPort 2 (coordY me) (coordY dst) Config.sizeY)
  else if coordA me ≠ coordA dst then .port (if coordA me < coordA dst then 4 else 5)
  else if coordB me ≠ coordB dst then .port (if coordB me < coordB dst then 6 else 7)
  else .here

/-- The detour neighbour: one step in A, or in B when A has size 1. -/
def detourPort (me : Nat) : Option Nat :=
  if 2 ≤ Config.sizeA then some (if coordA me + 1 < Config.sizeA then 4 else 5)
  else if 2 ≤ Config.sizeB then some (if coordB me + 1 < Config.sizeB then 6 else 7)
  else none

/-- The route of a packet toward a package, after a number of detours (R223). -/
def route (s : State) (dst detours : Nat) : Routing :=
  if !packageExists dst || s.lostPackages.contains dst then .error 2 else
  match dimensionHop s.pkgId.toNat dst with
  | .port p =>
    if !(portOf s p).isolated then .port p
    else if 2 ≤ detours then .error 2
    else match detourPort s.pkgId.toNat with
      | some q => if (portOf s q).isolated then .error 2 else .port q
      | none => .error 2
  | r => r

/-! ### Requests that fail -/

/-- The wait of a thread is for package dst: it waits for the answer to a message, or its access reaches a place there. -/
def waitsFor (x : Slot) (dst : Nat) : Bool :=
  x.live && ((x.wait.reason == .amsg && x.wait.peer / 16384 == dst) || x.pend.homes.any (fun h => match h with
    | .remote g _ => g == dst
    | _ => false))

/-- The slots that a thread ID may name (R7). -/
def slotsOf (thread : Nat) : List (Nat × Nat) :=
  (thread / 16, thread % 16) :: if thread < 64 then [(garnet, thread)] else []

/-- The slots whose instruction waits for a packet of the stream that a thread bound to a register field. -/
def packetWaiters (s : State) (thread reg : Nat) : List (Nat × Nat) :=
  let c := thread / 16
  ((coreOf s c).slots.filter (fun q => q.2.live && (match q.2.pend with
    | .packet r _ _ => r == reg
    | _ => false) && (findStream s c q.1 reg).any (·.1 == thread % 16))).map (fun q => (c, q.1))

/-- A failure reaches a thread that waits for the answer to a message, or for an access. -/
def failThread (cause : Nat) (s : State) (w : Nat × Nat) : State :=
  match (slotOf s w.1 w.2).pend with
  | .amsg _ _ _ _ => answerAmsg s w.1 w.2 (.fabricError cause s.pkgId.toNat)
  | _ => replyWaiter (.fabricError cause s.pkgId.toNat) s w

/-- An outstanding request is answered with FABRIC_ERROR: the access that waits for it traps, every instruction that waits for its packet
does, the copy that it is for fails; of one that has no thread any more, or is a commit's, there is a record (R41, R156, R196, R293). A Put
stays in its eviction buffer. In a halted cluster everything stays as it stands (R195). DEDUCED (log 34). -/
def failRequest (cause : Nat) (s : State) (o : Outstanding) : State :=
  let s1 := { s with outstanding := s.outstanding.erase o }
  let r : Reply := .fabricError cause s.pkgId.toNat
  match o.line with
  | some l =>
    if o.thread = stewardThread then homeAnswered s1 l.1 l.2 (.fabricError cause)
    else if o.thread = putThread then s1
    else failLine (failedLate s1 o r) l.1 l.2 r
  | none =>
    match o.packet with
    | some reg => (packetWaiters s1 o.thread reg).foldl (replyWaiter r) s1
    | none =>
      if o.copy.isSome || o.orphan || o.thread = noThread || o.thread = stewardThread || o.thread = scrubThread then failedLate s1 o r
      else match (slotsOf o.thread).find? (fun w => waitsFor (slotOf s1 w.1 w.2) o.dst) with
        | some w => failThread cause s1 w
        | none => s1

/-- A request that this package's router holds is answered with FABRIC_ERROR: its own, or another package's (R223, R232). -/
def refuseRequest (cause : Nat) (packet : Transit) (s : State) : State :=
  if packet.src = s.pkgId.toNat then
    match s.outstanding.find? (fun o => o.dst == packet.dst && o.seq == packet.seq) with
    | some o => failRequest cause s o
    | none => s
  else { s with outbox := (packet.src, .error packet.seq cause) :: s.outbox }

/-- ROUTE_PACKET: a packet from package src toward dst, detoured so many times, is at this package's router, which holds it toward a port,
or answers a request that it cannot route with FABRIC_ERROR (R223). -/
def execRoutePacket (packet : Transit) (detours : Nat) (s : State) : Host.Outcome State Fault Refusal :=
  match route s packet.dst detours with
  | .error cause => .next (if packet.cls = .req then refuseRequest cause packet s else s)
  | .port p =>
    let x := portOf s p
    .next (if x.held.contains packet then s else setPort s p { x with held := x.held ++ [packet] })
  | .here => .next s

/-- A port is isolated: the requests held toward it fail with cause 1, the other packets held are discarded, it leaves the routing, and
Garnet reports it (R232). -/
def isolate (s : State) (port : Nat) : State :=
  let x := portOf s port
  let s1 := { setPort s port { x with isolated := true, inReplay := false, held := [] } with
    reports := .isolation port :: s.reports }
  (x.held.filter (fun h => h.cls = .req)).foldl (fun s h => refuseRequest 1 h s) s1

/-- PORT_ISOLATION (R232). -/
def execPortIsolation (port : Nat) (s : State) : Host.Outcome State Fault Refusal :=
  if port < 8 && !(portOf s port).isolated then .next (isolate s port) else .next s

/-- A port loses a lane: a spare takes its place while one is left, the link being in replay while it retrains; with 8 to 15 good lanes the
port runs on 8, and below 8 it goes (R232, R234). DEDUCED (log 34). -/
def swapLane (s : State) (port lane : Nat) : State :=
  let x := portOf s port
  if x.isolated || x.dead.contains lane || 18 ≤ lane then s else
  let n := x.goodLanes - 1
  let s1 := setPort s port { x with
    goodLanes := n, spares := n - 16, dead := lane :: x.dead, errors := mapErase x.errors lane, inReplay := true, replays := 0 }
  if n < 8 then isolate s1 port else s1

/-- Counts the corrected errors of a flit's lanes; a lane whose count passes the threshold is replaced (R234). -/
def countErrors (port : Nat) (s : State) (lane : Nat) : State :=
  let x := portOf s port
  let n := (mapFind x.errors lane).getD 0 + 1
  if x.dead.contains lane || 18 ≤ lane then s
  else if s.laneThreshold < n then swapLane s port lane
  else setPort s port { x with errors := mapSet x.errors lane n }

/-- The packets held once a port has passed one on: the oldest of class RSP or FWD, which none of class REQ holds up, else the oldest
(R223). -/
def passOn (held : List Transit) : List Transit :=
  match held.find? (fun h => h.cls != .req) with
  | some h => held.erase h
  | none => held.tail

/-- FLIT_RECEIVE: the receiver acknowledges a flit of a port, the next packet held, with errors corrected in some lanes; or it refuses
the flit, which puts the link in replay; sixteen failed replays in a row isolate the port (R224, R234). -/
def execFlitReceive (port : Nat) (flit : Flit) (s : State) : Host.Outcome State Fault Refusal :=
  let x := portOf s port
  if 8 ≤ port || x.isolated then .next s
  else if flit.ok then .next (flit.corrected.foldl (countErrors port) (setPort s port { x with inReplay := false, replays := 0, held := passOn x.held }))
  else if !x.inReplay then .next (setPort s port { x with inReplay := true, replays := 0 })
  else if 15 ≤ x.replays then .next (isolate s port)
  else .next (setPort s port { x with replays := x.replays + 1 })

/-- LANE_SWAP (R234). -/
def execLaneSwap (port lane : Nat) (s : State) : Host.Outcome State Fault Refusal :=
  if port < 8 then .next (swapLane s port lane) else .next s

/-- SPARE_LANE: a lane of an HBM stack, whose retrain is time alone, or of a port, which has 18 (R234, R267). How many lanes a stack has the
manual leaves open. DESIGN CHOICE (log 34). -/
def execSpareLane (q : Nat) : State → Host.Outcome State Fault Refusal :=
  command q 0x06 fun rec s =>
    let u := opnd rec 1
    if u < 8 then endCommand s q rec 0
    else if 0x10 ≤ u && u < 0x18 && opnd rec 2 < 18 then endCommand (swapLane s (u - 0x10) (opnd rec 2)) q rec 0
    else endCommand s q rec 1

/-- The message that carried a sequence number toward a package. -/
def sentMessage (s : State) (dst seq : Nat) : Option FabricMsg :=
  (s.outbox.find? (fun m => m.1 == dst && match m.2 with
    | .request n _ _ | .getS n _ _ | .getM n _ _ | .upgrade n _ _ => n == seq
    | .putM n _ _ _ | .putO n _ _ _ => n == seq
    | .amsg n _ _ _ _ _ _ | .scrubbed n _ => n == seq
    | _ => false)).map (·.2)

/-- E2E_TIMEOUT: the request is sent again, a coherence request to the steward of the day (R240); after the seventh resend its requester traps (R225). -/
def execE2eTimeout (dst seq : Nat) (s : State) : Host.Outcome State Fault Refusal :=
  match s.outstanding.find? (fun o => o.dst == dst && o.seq == seq) with
  | none => .next s
  | some o =>
    let replaying := match route s dst 0 with
      | .port p => (portOf s p).inReplay
      | _ => false
    if replaying then .next s
    else if 7 ≤ o.resends then .next (failRequest 3 s o)
    else
      let s1 := { s with outstanding := s.outstanding.map (fun p => if p == o then { p with resends := p.resends + 1 } else p) }
      let dest := match o.line with
        | some l => if o.thread = stewardThread then dst else (stewardOf s l.1 l.2).getD dst
        | none => dst
      match sentMessage s dst seq with
      | some m => .next { s1 with outbox := (dest, m) :: s1.outbox }
      | none => .next s1

/-! ### Requests from other packages (R225, R226, R228) -/

/-- An easement that a dissolution ended would have admitted the request (R232). DEDUCED (log 34). -/
def wasAdmitted (s : State) (grantee pa : Nat) : Bool :=
  (gateCheck { s with easements := s.voided } grantee pa 1).isNone || (gateCheck { s with easements := s.voided } grantee pa 2).isNone ||
    (gateCheck { s with easements := s.voided } grantee pa 4).isNone

/-- The gate's verdict on a request, as the reply it makes. -/
def gateReply (s : State) (grantee seq pa right : Nat) : Option FabricMsg :=
  match gateCheck s grantee pa right with
  | none => none
  | some c => some (if c = 1 && wasAdmitted s grantee pa then .error seq 4 else .gate seq c)

/-- The LAUNCH easement that would have admitted a launch ended with the dissolution of its grantor (R232, R258). -/
def launchVoided (s : State) (grantee q : Nat) : Bool :=
  s.voided.any (fun e => e.grantee == grantee && e.parcel == parcelQueue q && e.rights / 16 % 2 == 1)

/-- A served load's reply. -/
def servedReply (seq : Nat) : Served → FabricMsg
  | .value v => .done seq (some v)
  | .poison _ => .poisoned seq
  | .lost g => .lost seq g
  | .absent | .unusable => .done seq none

/-- A request performed at this package: its reply and the state after it. -/
def performRequest (s : State) (grantee seq : Nat) : RemoteOp → FabricMsg × State
  | .load pa n =>
    match gateReply s grantee seq pa 1 with
    | some m => (m, s)
    | none => (servedReply seq (loadHome s (.hbm pa) n), s)
  | .store pa n data mask =>
    match gateReply s grantee seq pa 2 with
    | some m => (m, s)
    | none =>
      let w : Write := ⟨⟨.hbm pa, n, none⟩, data, mask⟩
      match meetsLoss s w with
      | some g => (.lost seq g, s)
      | none =>
      if meetsPoison s w then (.poisoned seq, s)
      else (.done seq none, storeHome s (.hbm pa) n data mask)
  | .amo pa op b e =>
    match gateReply s grantee seq pa 4 with
    | some m => (m, s)
    | none =>
      let r := amoPerform op (.hbm pa) b e s
      match r.1 with
      | .value v => (.done seq (some v), r.2)
      | x => (servedReply seq x, s)
  | .launch q rec =>
    if mayLaunch s grantee q then
      let r := placeRecord s q rec
      (.done seq (some r.1), r.2)
    else (if launchVoided s grantee q then .error seq 4 else .gate seq 1, s)
  | .readHome line =>
    let v : HomeAnswer := match loadHome s (.hbm (64 * line)) 64 with
      | .value v => .line { data := BitVec.ofNat 512 v }
      | .lost g => .lost g
      | _ => .line { data := BitVec.ofNat 512 (memRead s.hbm (64 * line) 64), poison := true }
    (.homeData s.pkgId.toNat line v, s)
  | .writeHome line v =>
    let s1 := storeHome s (.hbm (64 * line)) 64 v.data.toNat (fullMask 64)
    (.homeData s.pkgId.toNat line .written, if v.poison then poisonHbm s1 (64 * line) else s1)
  | .markLost line pkg => (.homeData s.pkgId.toNat line .written, { s with lostLines := (line, pkg) :: s.lostLines.filter (·.1 != line) })
  | .mirror home line state owner sharers bcast busy =>
    let d : DirEntry := { home := home, line := line, state := state, owner := owner, sharers := sharers, bcast := bcast, busy := busy }
    let others := s.shadows.filter (fun x => !(x.home == home && x.line == line))
    (.done seq none, { s with shadows := if state = .i && busy.isNone then others else d :: others })

/-- Whether a request must wait for a back-invalidate (R245). -/
def requestHeld (s : State) : RemoteOp → Bool
  | .store pa _ _ _ | .amo pa _ _ _ => needsLine s (.hbm pa) true
  | .writeHome line _ => needsLine s (.hbm (64 * line)) true
  | _ => false

/-- Sends a reply. This package's own requests are a steward's: the answer of home goes to it as a message, any other reply ends the
request at once. -/
def sendReply (s : State) (src seq : Nat) (m : FabricMsg) : State :=
  match m with
  | .homeData _ _ _ => { s with outbox := (src, m) :: s.outbox }
  | _ =>
    if src = s.pkgId.toNat then { s with outstanding := s.outstanding.filter (fun o => !(o.dst == src && o.seq == seq)) }
    else { s with outbox := (src, m) :: s.outbox }

/-- REMOTE_REQUEST: a request of an estate of package src is checked and performed, once for each sequence number (R225, R226). -/
def execRemoteRequest (src seq estate : Nat) (op : RemoteOp) (s : State) : Host.Outcome State Fault Refusal :=
  let s0 := unsend s (.request seq 0 op) src
  match storedAnswer s src seq with
  | some m => .next (sendReply s0 src seq m)
  | none =>
    if behindWindow s src seq then .next s0 else
    if requestHeld s op then .next s else
    let r := performRequest s0 (16384 * src + estate) seq op
    .next (sendReply (keepReply r.2 src seq r.1) src seq r.1)

end Sys2Proof.Machine
end

