-- ==== Sys2Proof/Machine/Vector.lean ====
section
/-! DEFINITION. The vector instructions (R68 to R71, R92 to R94, R345, R346, R366 to R373). Each is one packet function
under the shared frame vec. -/

namespace Sys2Proof.Machine

/-- FRM of the issuing thread. -/
def curFrm (s : State) : Word := (curSlot s).frm

/-- A lane operation of one source: the packet and the flags by lane. -/
def mapLanes (ty : LaneTy) (f : Nat → Nat × Nat) (a : Packet) : Packet × List Nat :=
  let r := (lanesOf ty a).map f
  (packetOf ty (r.map (·.1)), r.map (·.2))

/-- A lane operation of two sources. -/
def zipLanes (ty : LaneTy) (f : Nat → Nat → Nat × Nat) (a b : Packet) : Packet × List Nat :=
  let r := (lanesOf ty a).zipWith f (lanesOf ty b)
  (packetOf ty (r.map (·.1)), r.map (·.2))

/-- A vector instruction of one vector source. -/
def vec1 (t : Nat) (ty : LaneTy) (d a : Reg) (f : State → Nat → Nat × Nat) : State → Host.Outcome State Fault Refusal :=
  vec t [a] [] d fun s =>
    let r := mapLanes ty (f s) (vval s a)
    (r.1, realFlags s ty.width [a] r.2)

/-- A vector instruction of two vector sources. -/
def vec2 (ty : LaneTy) (d a b : Reg) (f : State → Nat → Nat → Nat × Nat) : State → Host.Outcome State Fault Refusal :=
  vec 1 [a, b] [] d fun s =>
    let r := zipLanes ty (f s) (vval s a) (vval s b)
    (r.1, realFlags s ty.width [a, b] r.2)

/-- VADD (R346). -/
def execVadd (rm : BitVec 2) (ty : LaneTy) (d a b : Reg) : State → Host.Outcome State Fault Refusal :=
  vec2 ty d a b fun s => addLane ty (laneMode ty rm (curFrm s))

/-- VSUB (R346). -/
def execVsub (rm : BitVec 2) (ty : LaneTy) (d a b : Reg) : State → Host.Outcome State Fault Refusal :=
  vec2 ty d a b fun s => subLane ty (laneMode ty rm (curFrm s))

/-- VMUL (R346). -/
def execVmul (rm : BitVec 2) (ty : LaneTy) (d a b : Reg) : State → Host.Outcome State Fault Refusal :=
  vec2 ty d a b fun s => mulLane ty (laneMode ty rm (curFrm s))

/-- VMIN (R83, R346). -/
def execVmin (ty : LaneTy) (d a b : Reg) : State → Host.Outcome State Fault Refusal :=
  vec2 ty d a b fun s => minMaxLane ty false (frmFtz (curFrm s))

/-- VMAX (R83, R346). -/
def execVmax (ty : LaneTy) (d a b : Reg) : State → Host.Outcome State Fault Refusal :=
  vec2 ty d a b fun s => minMaxLane ty true (frmFtz (curFrm s))

/-- VABS (R366). -/
def execVabs (rm : BitVec 2) (ty : LaneTy) (d a : Reg) : State → Host.Outcome State Fault Refusal :=
  vec1 1 ty d a fun s => absLane ty (laneMode ty rm (curFrm s))

/-- VNEG (R366). -/
def execVneg (rm : BitVec 2) (ty : LaneTy) (d a : Reg) : State → Host.Outcome State Fault Refusal :=
  vec1 1 ty d a fun s => negLane ty (laneMode ty rm (curFrm s))

/-- VRCP (R93, R369). -/
def execVrcp (rm : BitVec 2) (ty : LaneTy) (d a : Reg) : State → Host.Outcome State Fault Refusal :=
  vec1 2 ty d a fun s => rcpF (floatFmt ty) (roundOf rm (curFrm s)) (frmFtz (curFrm s))

/-- VRSQ (R93, R369). -/
def execVrsq (rm : BitVec 2) (ty : LaneTy) (d a : Reg) : State → Host.Outcome State Fault Refusal :=
  vec1 2 ty d a fun s => rsqF (floatFmt ty) (roundOf rm (curFrm s)) (frmFtz (curFrm s))

/-- VEXP2 (R93, R369). DESIGN CHOICE (log 1). -/
def execVexp2 (rm : BitVec 2) (ty : LaneTy) (d a : Reg) : State → Host.Outcome State Fault Refusal :=
  vec1 2 ty d a fun s x =>
    exp2F (floatFmt ty) (roundOf rm (curFrm s)) (frmFtz (curFrm s)) (Config.faithfulUp 0 (LaneTy.code ty) x) x

/-- VLOG2 (R93, R369). -/
def execVlog2 (rm : BitVec 2) (ty : LaneTy) (d a : Reg) : State → Host.Outcome State Fault Refusal :=
  vec1 2 ty d a fun s x =>
    log2F (floatFmt ty) (roundOf rm (curFrm s)) (frmFtz (curFrm s)) (Config.faithfulUp 1 (LaneTy.code ty) x) x

/-- VSIN (R93, R369). DEDUCED: radians (log 38). -/
def execVsin (rm : BitVec 2) (ty : LaneTy) (d a : Reg) : State → Host.Outcome State Fault Refusal :=
  vec1 2 ty d a fun s x =>
    trigF (floatFmt ty) (roundOf rm (curFrm s)) (frmFtz (curFrm s)) (Config.faithfulUp 2 (LaneTy.code ty) x) false x

/-- VCOS (R93, R369). DEDUCED: radians (log 38). -/
def execVcos (rm : BitVec 2) (ty : LaneTy) (d a : Reg) : State → Host.Outcome State Fault Refusal :=
  vec1 2 ty d a fun s x =>
    trigF (floatFmt ty) (roundOf rm (curFrm s)) (frmFtz (curFrm s)) (Config.faithfulUp 3 (LaneTy.code ty) x) true x

/-- VAND (R346): the lane bits, whatever the type. -/
def execVand (_ty : LaneTy) (d a b : Reg) : State → Host.Outcome State Fault Refusal :=
  vec 1 [a, b] [] d fun s => (vval s a &&& vval s b, [])

/-- VOR (R346). -/
def execVor (_ty : LaneTy) (d a b : Reg) : State → Host.Outcome State Fault Refusal :=
  vec 1 [a, b] [] d fun s => (vval s a ||| vval s b, [])

/-- VXOR (R346). -/
def execVxor (_ty : LaneTy) (d a b : Reg) : State → Host.Outcome State Fault Refusal :=
  vec 1 [a, b] [] d fun s => (vval s a ^^^ vval s b, [])

/-- VSHL (R92, R346). -/
def execVshl (ty : LaneTy) (d a b : Reg) : State → Host.Outcome State Fault Refusal :=
  vec2 ty d a b fun _ x y => (shlLane ty x y, 0)

/-- VSHR (R92, R346). -/
def execVshr (ty : LaneTy) (d a b : Reg) : State → Host.Outcome State Fault Refusal :=
  vec2 ty d a b fun _ x y => (shrLane ty x y, 0)

/-- VSRA (R92, R346). -/
def execVsra (ty : LaneTy) (d a b : Reg) : State → Host.Outcome State Fault Refusal :=
  vec2 ty d a b fun _ x y => (sraLane ty x y, 0)

/-- VBCAST (R346): lane G(b) mod n of a in every lane. -/
def execVbcast (ty : LaneTy) (d a b : Reg) : State → Host.Outcome State Fault Refusal :=
  vecFed 1 [a] [b] d
    (fun s => laneBitsMask ty.width ty.lanes (fun _ => realLanes s ty.width [a] ((gval s b).toNat % ty.lanes))) fun s =>
    let x := (lanesOf ty (vval s a))[(gval s b).toNat % ty.lanes]?.getD 0
    (packetOf ty (List.replicate ty.lanes x), [])

/-- VPERM (R346). -/
def execVperm (ty : LaneTy) (d a b : Reg) : State → Host.Outcome State Fault Refusal :=
  vecFed 1 [a, b] [] d
    (fun s => laneBitsMask ty.width ty.lanes (fun i => realLanes s ty.width [b] i &&
      realLanes s ty.width [a] (((lanesOf ty (vval s b))[i]?.getD 0) % ty.lanes))) fun s =>
    let x := lanesOf ty (vval s a)
    (packetOf ty ((lanesOf ty (vval s b)).map (fun j => x[j % ty.lanes]?.getD 0)), [])

/-- A reduction: the tree's value in lane 0, 0 elsewhere (R94, R372). Every addition of the tree raises its flags as lane 0. DESIGN CHOICE
(log 51). -/
def vecRed (ty : LaneTy) (d a : Reg) (f : State → Nat → Nat → Nat × Nat) : State → Host.Outcome State Fault Refusal :=
  vecFed 1 [a] [] d (fun _ => 2 ^ 512 - 1) fun s =>
    let r := treeReduce (f s) 6 (lanesOf ty (vval s a))
    (packetOf ty [r.1], [r.2])

/-- VRED.SUM (R94, R372). -/
def execVredSum (rm : BitVec 2) (ty : LaneTy) (d a : Reg) : State → Host.Outcome State Fault Refusal :=
  vecRed ty d a fun s => addLane ty (laneMode ty rm (curFrm s))

/-- VRED.MAX (R83, R94, R372). -/
def execVredMax (ty : LaneTy) (d a : Reg) : State → Host.Outcome State Fault Refusal :=
  vecRed ty d a fun s => minMaxLane ty true (frmFtz (curFrm s))

/-- VRED.MIN (R83, R94, R372). -/
def execVredMin (ty : LaneTy) (d a : Reg) : State → Host.Outcome State Fault Refusal :=
  vecRed ty d a fun s => minMaxLane ty false (frmFtz (curFrm s))

/-- VFMA (R371): one rounding by FRM. -/
def execVfma (k : FmaKind) (ty : LaneTy) (d a b c : Reg) : State → Host.Outcome State Fault Refusal :=
  vec 1 [a, b, c] [] d fun s =>
    let r := ((lanesOf ty (vval s a)).zip (lanesOf ty (vval s b))).zipWith
      (fun p z => fmaF (floatFmt ty) (frmRound (curFrm s)) (frmFtz (curFrm s)) k p.1 p.2 z) (lanesOf ty (vval s c))
    (packetOf ty (r.map (·.1)), realFlags s ty.width [a, b, c] (r.map (·.2)))

/-- VSEL (R373): bits unchanged, whatever FTZ. -/
def execVsel (ty : LaneTy) (d a b c : Reg) : State → Host.Outcome State Fault Refusal :=
  vec 1 [a, b, c] [] d fun s =>
    (packetOf ty (((lanesOf ty (vval s a)).zip (lanesOf ty (vval s b))).zipWith
      (fun p z => if z = 0 then p.2 else p.1) (lanesOf ty (vval s c))), [])

/-- VCMP (R367). -/
def execVcmp (cond : VCond) (ty : LaneTy) (d a b : Reg) : State → Host.Outcome State Fault Refusal :=
  vec2 ty d a b fun s x y =>
    let r := cmpLane ty (frmFtz (curFrm s)) cond x y
    (if r.1 then 2 ^ ty.width - 1 else 0, r.2)

/-- The byte offset and the size of the element that a lane selector names (R370). -/
def laneSelect (b : Word) : Nat × Nat :=
  let n := 2 ^ bits b 8 2
  (n * (bits b 0 6 % (64 / n)), n)

/-- VEXT (R370). -/
def execVext (d a b : Reg) : State → Host.Outcome State Fault Refusal :=
  run do
    notGarnet
    openV a
    useG [b] (some d)
    modify fun s =>
      let p := laneSelect (gval s b)
      endFall 1 (putG (wbPoint s 1) d (BitVec.ofNat 64 (lineBytes (vval s a) p.1 p.2)) s)

/-- A bound destination that an instruction would also read traps STREAM (R368, R370). -/
def unboundDest (d : Reg) : Exec Unit := do
  let s ← get
  let queue := 16 ≤ d.toNat && (findQueue (curCore s) true (d.toNat - 16)).isSome
  if (findStream s s.cur.core s.cur.slot d.toNat).isSome || queue then streamTrap d

/-- VINS (R370). -/
def execVins (d a b : Reg) : State → Host.Outcome State Fault Refusal :=
  run do
    notGarnet
    unboundDest d
    readable true d
    useG [a, b] none
    let s ← get
    let p := laneSelect (gval s b)
    endV 1 d (lineMask (vval s d) p.1 ((gval s a).toNat % 2 ^ (8 * p.2)) (fullMask p.2)) [] (2 ^ 512 - 1)

/-- The lanes of VCVT's result (R30, R368): r are the converted lanes, old the lanes of d before. -/
def placeLanes (ns nt : Nat) (zero : Bool) (old r : List Nat) : List Nat :=
  if ns < nt then (if zero then List.replicate (nt - ns) 0 else old.drop ns) ++ r else r

/-- VCVT (R89, R368). -/
def execVcvt (rm : BitVec 2) (zero scaled : Bool) (target source : LaneTy) (d a b : Reg) :
    State → Host.Outcome State Fault Refusal :=
  run do
    notGarnet
    if source.lanes < target.lanes && !zero then do
      unboundDest d
      readable true d
    openV a
    useG (if scaled then [b] else []) none
    reserveV d
    let s ← get
    let frm := curFrm s
    let k := if scaled then some ((gval s b).toNat % 65536) else none
    let r := ((lanesOf source (vval s a)).take (min source.lanes target.lanes)).map
      (cvtLane source target (laneMode target rm frm) (frmFtz frm) k)
    let flags := realFlags s source.width [a] (r.map (·.2))
    endV 1 d (packetOf target (placeLanes source.lanes target.lanes zero (lanesOf target (vval s d)) (r.map (·.1)))) flags
      (laneBitsMask target.width target.lanes (fun i => source.lanes ≤ i || realLanes s source.width [a] i))

end Sys2Proof.Machine
end

