-- ==== Sys2Proof/Machine/Dispatch.lean ====
section
/-! DEFINITION. The meaning of each row of the opcode table: one direct call for each constructor of Instr. -/

namespace Sys2Proof.Machine

def exec (i : Instr) (s : State) : Host.Outcome State Fault Refusal :=
  match i with
  | .add d a b => Sys2Proof.Machine.execAdd d a b s
  | .addi d a imm => Sys2Proof.Machine.execAddi d a imm s
  | .addShort d a => Sys2Proof.Machine.execAddShort d a s
  | .addiShort d imm => Sys2Proof.Machine.execAddiShort d imm s
  | .sub d a b => Sys2Proof.Machine.execSub d a b s
  | .subShort d a => Sys2Proof.Machine.execSubShort d a s
  | .and d a b => Sys2Proof.Machine.execAnd d a b s
  | .andi d a imm => Sys2Proof.Machine.execAndi d a imm s
  | .andShort d a => Sys2Proof.Machine.execAndShort d a s
  | .or d a b => Sys2Proof.Machine.execOr d a b s
  | .ori d a imm => Sys2Proof.Machine.execOri d a imm s
  | .orShort d a => Sys2Proof.Machine.execOrShort d a s
  | .xor d a b => Sys2Proof.Machine.execXor d a b s
  | .xori d a imm => Sys2Proof.Machine.execXori d a imm s
  | .xorShort d a => Sys2Proof.Machine.execXorShort d a s
  | .movShort d a => Sys2Proof.Machine.execMovShort d a s
  | .moviShort d imm => Sys2Proof.Machine.execMoviShort d imm s
  | .bfi d a b => Sys2Proof.Machine.execBfi d a b s
  | .bfx d a b => Sys2Proof.Machine.execBfx d a b s
  | .clz d a => Sys2Proof.Machine.execClz d a s
  | .ctz d a => Sys2Proof.Machine.execCtz d a s
  | .popc d a => Sys2Proof.Machine.execPopc d a s
  | .cmp q d a b => Sys2Proof.Machine.execCmp q d a b s
  | .sel d a b => Sys2Proof.Machine.execSel d a b s
  | .div d a b => Sys2Proof.Machine.execDiv d a b s
  | .divu d a b => Sys2Proof.Machine.execDivu d a b s
  | .rem d a b => Sys2Proof.Machine.execRem d a b s
  | .remu d a b => Sys2Proof.Machine.execRemu d a b s
  | .mul d a b => Sys2Proof.Machine.execMul d a b s
  | .mulh d a b => Sys2Proof.Machine.execMulh d a b s
  | .mulhu d a b => Sys2Proof.Machine.execMulhu d a b s
  | .max d a b => Sys2Proof.Machine.execMax d a b s
  | .maxu d a b => Sys2Proof.Machine.execMaxu d a b s
  | .min d a b => Sys2Proof.Machine.execMin d a b s
  | .minu d a b => Sys2Proof.Machine.execMinu d a b s
  | .shl d a b => Sys2Proof.Machine.execShl d a b s
  | .shr d a b => Sys2Proof.Machine.execShr d a b s
  | .sra d a b => Sys2Proof.Machine.execSra d a b s
  | .shli d a sh => Sys2Proof.Machine.execShli d a sh s
  | .shri d a sh => Sys2Proof.Machine.execShri d a sh s
  | .srai d a sh => Sys2Proof.Machine.execSrai d a sh s
  | .shliShort d sh => Sys2Proof.Machine.execShliShort d sh s
  | .shriShort d sh => Sys2Proof.Machine.execShriShort d sh s
  | .lih d imm => Sys2Proof.Machine.execLih d imm s
  | .mvx e a => Sys2Proof.Machine.execMvx e a s
  | .mxv d e => Sys2Proof.Machine.execMxv d e s
  | .br cc a b off => Sys2Proof.Machine.execBr cc a b off s
  | .beqzShort d off => Sys2Proof.Machine.execBeqzShort d off s
  | .bnezShort d off => Sys2Proof.Machine.execBnezShort d off s
  | .jal d off => Sys2Proof.Machine.execJal d off s
  | .jr d a => Sys2Proof.Machine.execJr d a s
  | .jrShort a => Sys2Proof.Machine.execJrShort a s
  | .jalShort d a => Sys2Proof.Machine.execJalShort d a s
  | .loop a level ci endoff cnt => Sys2Proof.Machine.execLoop a level ci endoff cnt s
  | .lea d sg a fmt disp => Sys2Proof.Machine.execLea d sg a fmt disp s
  | .ld d sg a fmt disp => Sys2Proof.Machine.execLd d sg a fmt disp s
  | .ldAcq d sg a fmt disp => Sys2Proof.Machine.execLdAcq d sg a fmt disp s
  | .ldShort d a => Sys2Proof.Machine.execLdShort d a s
  | .ldv d sg a fmt disp => Sys2Proof.Machine.execLdv d sg a fmt disp s
  | .ldx e cnt sg a disp => Sys2Proof.Machine.execLdx e cnt sg a disp s
  | .st d sg a fmt disp => Sys2Proof.Machine.execSt d sg a fmt disp s
  | .stRel d sg a fmt disp => Sys2Proof.Machine.execStRel d sg a fmt disp s
  | .stShort d a => Sys2Proof.Machine.execStShort d a s
  | .stv d sg a fmt disp => Sys2Proof.Machine.execStv d sg a fmt disp s
  | .amo op ar scope d sg a b => Sys2Proof.Machine.execAmo op ar scope d sg a b s
  | .amov op ty v sg a => Sys2Proof.Machine.execAmov op ty v sg a s
  | .fence kind scope => Sys2Proof.Machine.execFence kind scope s
  | .pref sg a => Sys2Proof.Machine.execPref sg a s
  | .pin d sg a => Sys2Proof.Machine.execPin d sg a s
  | .unpin sg a => Sys2Proof.Machine.execUnpin sg a s
  | .vadd rm ty d a b => Sys2Proof.Machine.execVadd rm ty d a b s
  | .vsub rm ty d a b => Sys2Proof.Machine.execVsub rm ty d a b s
  | .vmul rm ty d a b => Sys2Proof.Machine.execVmul rm ty d a b s
  | .vmin ty d a b => Sys2Proof.Machine.execVmin ty d a b s
  | .vmax ty d a b => Sys2Proof.Machine.execVmax ty d a b s
  | .vabs rm ty d a => Sys2Proof.Machine.execVabs rm ty d a s
  | .vneg rm ty d a => Sys2Proof.Machine.execVneg rm ty d a s
  | .vrcp rm ty d a => Sys2Proof.Machine.execVrcp rm ty d a s
  | .vrsq rm ty d a => Sys2Proof.Machine.execVrsq rm ty d a s
  | .vexp2 rm ty d a => Sys2Proof.Machine.execVexp2 rm ty d a s
  | .vlog2 rm ty d a => Sys2Proof.Machine.execVlog2 rm ty d a s
  | .vsin rm ty d a => Sys2Proof.Machine.execVsin rm ty d a s
  | .vcos rm ty d a => Sys2Proof.Machine.execVcos rm ty d a s
  | .vand ty d a b => Sys2Proof.Machine.execVand ty d a b s
  | .vor ty d a b => Sys2Proof.Machine.execVor ty d a b s
  | .vxor ty d a b => Sys2Proof.Machine.execVxor ty d a b s
  | .vshl ty d a b => Sys2Proof.Machine.execVshl ty d a b s
  | .vshr ty d a b => Sys2Proof.Machine.execVshr ty d a b s
  | .vsra ty d a b => Sys2Proof.Machine.execVsra ty d a b s
  | .vbcast ty d a b => Sys2Proof.Machine.execVbcast ty d a b s
  | .vperm ty d a b => Sys2Proof.Machine.execVperm ty d a b s
  | .vredSum rm ty d a => Sys2Proof.Machine.execVredSum rm ty d a s
  | .vredMax ty d a => Sys2Proof.Machine.execVredMax ty d a s
  | .vredMin ty d a => Sys2Proof.Machine.execVredMin ty d a s
  | .vfma k ty d a b c => Sys2Proof.Machine.execVfma k ty d a b c s
  | .vsel ty d a b c => Sys2Proof.Machine.execVsel ty d a b c s
  | .vcmp cond ty d a b => Sys2Proof.Machine.execVcmp cond ty d a b s
  | .vext d a b => Sys2Proof.Machine.execVext d a b s
  | .vins d a b => Sys2Proof.Machine.execVins d a b s
  | .vcvt rm zero scaled target source d a b => Sys2Proof.Machine.execVcvt rm zero scaled target source d a b s
  | .sbind d e => Sys2Proof.Machine.execSbind d e s
  | .qbind w d => Sys2Proof.Machine.execQbind w d s
  | .unbind v d => Sys2Proof.Machine.execUnbind v d s
  | .mfmt a e => Sys2Proof.Machine.execMfmt a e s
  | .mloadb a b e => Sys2Proof.Machine.execMloadb a b e s
  | .mma a b e => Sys2Proof.Machine.execMma a b e s
  | .mdrain a b e => Sys2Proof.Machine.execMdrain a b e s
  | .mdrainClr a b e => Sys2Proof.Machine.execMdrainClr a b e s
  | .mzero b => Sys2Proof.Machine.execMzero b s
  | .copy e => Sys2Proof.Machine.execCopy e s
  | .tstat d a => Sys2Proof.Machine.execTstat d a s
  | .tset d a b e => Sys2Proof.Machine.execTset d a b e s
  | .spawn d e => Sys2Proof.Machine.execSpawn d e s
  | .bar n => Sys2Proof.Machine.execBar n s
  | .barArrive n => Sys2Proof.Machine.execBarArrive n s
  | .barWait n => Sys2Proof.Machine.execBarWait n s
  | .give d a b => Sys2Proof.Machine.execGive d a b s
  | .giveWipe d a b => Sys2Proof.Machine.execGiveWipe d a b s
  | .accept d a => Sys2Proof.Machine.execAccept d a s
  | .decline d a => Sys2Proof.Machine.execDecline d a s
  | .withdraw d a => Sys2Proof.Machine.execWithdraw d a s
  | .lend d a b e => Sys2Proof.Machine.execLend d a b e s
  | .cadReturn d a => Sys2Proof.Machine.execCadReturn d a s
  | .reclaim d a => Sys2Proof.Machine.execReclaim d a s
  | .reclaimWait d a => Sys2Proof.Machine.execReclaimWait d a s
  | .charter d a e => Sys2Proof.Machine.execCharter d a e s
  | .muster d a e => Sys2Proof.Machine.execMuster d a e s
  | .answer d => Sys2Proof.Machine.execAnswer d s
  | .escheat d a => Sys2Proof.Machine.execEscheat d a s
  | .survey d a e => Sys2Proof.Machine.execSurvey d a e s
  | .ease d a b e => Sys2Proof.Machine.execEase d a b e s
  | .mapf d a e => Sys2Proof.Machine.execMapf d a e s
  | .unmap d a => Sys2Proof.Machine.execUnmap d a s
  | .wake a => Sys2Proof.Machine.execWake a s
  | .wakeFail a => Sys2Proof.Machine.execWakeFail a s
  | .segw k e => Sys2Proof.Machine.execSegw k e s
  | .segr e k => Sys2Proof.Machine.execSegr e k s
  | .rds d idx => Sys2Proof.Machine.execRds d idx s
  | .wrs idx a => Sys2Proof.Machine.execWrs idx a s
  | .trap code => Sys2Proof.Machine.execTrap code s
  | .kret a => Sys2Proof.Machine.execKret a s
  | .kretSkip a => Sys2Proof.Machine.execKretSkip a s
  | .kretPc a b => Sys2Proof.Machine.execKretPc a b s
  | .kread d a b => Sys2Proof.Machine.execKread d a b s
  | .kwrite d a b => Sys2Proof.Machine.execKwrite d a b s
  | .sysc d e => Sys2Proof.Machine.execSysc d e s
  | .uint a b => Sys2Proof.Machine.execUint a b s
  | .notify a b => Sys2Proof.Machine.execNotify a b s
  | .amsg d a b e => Sys2Proof.Machine.execAmsg d a b e s
  | .amsgR d a b e => Sys2Proof.Machine.execAmsgR d a b e s
  | .amret a => Sys2Proof.Machine.execAmret a s
  | .accessReply core slot reply => Sys2Proof.Machine.execAccessReply core slot reply s
  | .storeBufferPerform core slot idx => Sys2Proof.Machine.execStoreBufferPerform core slot idx s
  | .shootdownInvalidate port => Sys2Proof.Machine.execShootdownInvalidate port s
  | .watchdog core slot => Sys2Proof.Machine.execWatchdog core slot s
  | .forcedSave handle => Sys2Proof.Machine.execForcedSave handle s
  | .restore core handle => Sys2Proof.Machine.execRestore core handle s
  | .uintDeliver core slot => Sys2Proof.Machine.execUintDeliver core slot s
  | .streamPacketArrival core reg slot => Sys2Proof.Machine.execStreamPacketArrival core reg slot s
  | .taskTake core => Sys2Proof.Machine.execTaskTake core s
  | .admission handle => Sys2Proof.Machine.execAdmission handle s
  | .taskStart handle => Sys2Proof.Machine.execTaskStart handle s
  | .taskCommit handle => Sys2Proof.Machine.execTaskCommit handle s
  | .frontierPass part => Sys2Proof.Machine.execFrontierPass part s
  | .frontierPriority handle => Sys2Proof.Machine.execFrontierPriority handle s
  | .launchRecord q => Sys2Proof.Machine.execLaunchRecord q s
  | .jobComplete root => Sys2Proof.Machine.execJobComplete root s
  | .copyAccess op elem reply => Sys2Proof.Machine.execCopyAccess op elem reply s
  | .mloadbApply op => Sys2Proof.Machine.execMloadbApply op s
  | .mmaRow core slot => Sys2Proof.Machine.execMmaRow core slot s
  | .mdrainPerform op => Sys2Proof.Machine.execMdrainPerform op s
  | .suspendedRow core slot => Sys2Proof.Machine.execSuspendedRow core slot s
  | .macroRecalibration unit => Sys2Proof.Machine.execMacroRecalibration unit s
  | .jasperTrapMessage core slot => Sys2Proof.Machine.execJasperTrapMessage core slot s
  | .jasperForward core slot => Sys2Proof.Machine.execJasperForward core slot s
  | .jasperFailover cluster => Sys2Proof.Machine.execJasperFailover cluster s
  | .amsgArrive core pkg estate thread seq handler args reply => Sys2Proof.Machine.execAmsgArrive core pkg estate thread seq handler args reply s
  | .courierStart core => Sys2Proof.Machine.execCourierStart core s
  | .amsgAnswer core slot answer => Sys2Proof.Machine.execAmsgAnswer core slot answer s
  | .noticeExpiry parcel => Sys2Proof.Machine.execNoticeExpiry parcel s
  | .scrubComplete parcel => Sys2Proof.Machine.execScrubComplete parcel s
  | .tailWrite fn q value => Sys2Proof.Machine.execTailWrite fn q value s
  | .registerWrite fn off value => Sys2Proof.Machine.execRegisterWrite fn off value s
  | .createPartition q => Sys2Proof.Machine.execCreatePartition q s
  | .resetPartition q => Sys2Proof.Machine.execResetPartition q s
  | .giveToPartition q => Sys2Proof.Machine.execGiveToPartition q s
  | .retireCore q => Sys2Proof.Machine.execRetireCore q s
  | .spareRow q => Sys2Proof.Machine.execSpareRow q s
  | .spareLane q => Sys2Proof.Machine.execSpareLane q s
  | .updateFirmware q valid version => Sys2Proof.Machine.execUpdateFirmware q valid version s
  | .attest q => Sys2Proof.Machine.execAttest q s
  | .lifecycle q => Sys2Proof.Machine.execLifecycle q s
  | .setChain q => Sys2Proof.Machine.execSetChain q s
  | .setDomain q => Sys2Proof.Machine.execSetDomain q s
  | .setTimer q => Sys2Proof.Machine.execSetTimer q s
  | .preempt q => Sys2Proof.Machine.execPreempt q s
  | .unknownCommand q => Sys2Proof.Machine.execUnknownCommand q s
  | .mapfile core slot => Sys2Proof.Machine.execMapfile core slot s
  | .sync core slot => Sys2Proof.Machine.execSync core slot s
  | .unmapfile core slot => Sys2Proof.Machine.execUnmapfile core slot s
  | .launchr core slot reply => Sys2Proof.Machine.execLaunchr core slot reply s
  | .unknownCall core slot => Sys2Proof.Machine.execUnknownCall core slot s
  | .fileFault estate token page => Sys2Proof.Machine.execFileFault estate token page s
  | .spdmMeasurement nonce => Sys2Proof.Machine.execSpdmMeasurement nonce s
  | .ideTagFailure fn => Sys2Proof.Machine.execIdeTagFailure fn s
  | .tdispRequest fn dest => Sys2Proof.Machine.execTdispRequest fn dest s
  | .hostMemAccess fn pa n write => Sys2Proof.Machine.execHostMemAccess fn pa n write s
  | .snpdata line => Sys2Proof.Machine.execSnpdata line s
  | .snpinv line value => Sys2Proof.Machine.execSnpinv line value s
  | .snpcur line => Sys2Proof.Machine.execSnpcur line s
  | .goResponse line grant value => Sys2Proof.Machine.execGoResponse line grant value s
  | .hostLineEviction line => Sys2Proof.Machine.execHostLineEviction line s
  | .backInvalidateResponse line => Sys2Proof.Machine.execBackInvalidateResponse line s
  | .functionLevelReset fn => Sys2Proof.Machine.execFunctionLevelReset fn s
  | .boot okA okB links => Sys2Proof.Machine.execBoot okA okB links s
  | .routePacket packet detours => Sys2Proof.Machine.execRoutePacket packet detours s
  | .flitReceive port flit => Sys2Proof.Machine.execFlitReceive port flit s
  | .e2eTimeout dst seq => Sys2Proof.Machine.execE2eTimeout dst seq s
  | .remoteRequest src seq estate op => Sys2Proof.Machine.execRemoteRequest src seq estate op s
  | .portIsolation port => Sys2Proof.Machine.execPortIsolation port s
  | .laneSwap port lane => Sys2Proof.Machine.execLaneSwap port lane s
  | .packageLost pkg => Sys2Proof.Machine.execPackageLost pkg s
  | .gets q home line => Sys2Proof.Machine.execGets q home line s
  | .getm q home line => Sys2Proof.Machine.execGetm q home line s
  | .upgrade q home line => Sys2Proof.Machine.execUpgrade q home line s
  | .putm p home line data => Sys2Proof.Machine.execPutm p home line data s
  | .puto p home line data => Sys2Proof.Machine.execPuto p home line data s
  | .fwds q home line => Sys2Proof.Machine.execFwds q home line s
  | .fwdm q home line acks => Sys2Proof.Machine.execFwdm q home line acks s
  | .inv q home line => Sys2Proof.Machine.execInv q home line s
  | .recallLine home line => Sys2Proof.Machine.execRecallLine home line s
  | .data home line grant value acks => Sys2Proof.Machine.execData home line grant value acks s
  | .invAck home line => Sys2Proof.Machine.execInvAck home line s
  | .completionAck q home line dirty => Sys2Proof.Machine.execCompletionAck q home line dirty s
  | .putAck home line => Sys2Proof.Machine.execPutAck home line s
  | .homeReply home line answer => Sys2Proof.Machine.execHomeReply home line answer s
  | .coherentEviction home line => Sys2Proof.Machine.execCoherentEviction home line s
  | .governorThrottle island freq => Sys2Proof.Machine.execGovernorThrottle island freq s
  | .governorRaise island freq => Sys2Proof.Machine.execGovernorRaise island freq s
  | .uncorrectableError pa => Sys2Proof.Machine.execUncorrectableError pa s
  | .sramError target => Sys2Proof.Machine.execSramError target s
  | .hbmRowSpare frame row => Sys2Proof.Machine.execHbmRowSpare frame row s
  | .sliceSwap commons die logical => Sys2Proof.Machine.execSliceSwap commons die logical s
  | .lexit => Sys2Proof.Machine.execLexit s
  | .lexitShort => Sys2Proof.Machine.execLexitShort s
  | .nop => Sys2Proof.Machine.execNop s
  | .nopShort => Sys2Proof.Machine.execNopShort s
  | .tdone => Sys2Proof.Machine.execTdone s
  | .tdoneShort => Sys2Proof.Machine.execTdoneShort s
  | .exit => Sys2Proof.Machine.execExit s
  | .exitShort => Sys2Proof.Machine.execExitShort s
  | .yield => Sys2Proof.Machine.execYield s
  | .yieldShort => Sys2Proof.Machine.execYieldShort s
  | .undecodableWord => Sys2Proof.Machine.execUndecodableWord s
  | .fetchFault => Sys2Proof.Machine.execFetchFault s
  | .powerLoss => Sys2Proof.Machine.execPowerLoss s

end Sys2Proof.Machine
end

