-- ==== Sys2Proof/Machine/Sched.lean ====
section
/-! DEFINITION. What moves in a step: the passage of time, the effects that come due with it, the choice of the slot that issues
(R32), and the events that may happen. The state's agenda says what moves next, so that every order and every delay that the manual
allows is the run of some state; with an empty agenda the model takes events and issues in turn. -/

namespace Sys2Proof.Machine

/-! ### Time (R11, R12, R198) -/

/-- dt reference cycles pass for an island's clock. -/
def tickIsland (dt : Nat) (s : State) (i : Nat) : State :=
  let x := islandGet s i
  let a := x.acc + x.freq * dt
  { s with islands := mapSet s.islands i { x with acc := a % 36, ticks := x.ticks + a / 36 } }

/-- The packages to which the requests of a waiting access have gone: the homes, or for a COHERENT line its steward. -/
def requestedFrom (s : State) (x : Slot) : List Nat :=
  x.pend.homes.filterMap fun h => match h with
    | .remote g _ => some g
    | .coherent g p => some ((stewardOf s g (p / 64)).getD g)
    | _ => none

/-- A link on the way to a package is in replay. -/
def pathReplays (s : State) (pkg : Nat) : Bool :=
  match route s pkg 0 with
  | .port p => (portOf s p).inReplay
  | _ => false

def stalled (x : Slot) : Bool := x.live && (x.wait.reason == .saved || x.wait.reason == .parked)

/-- An earlier task on which a FIRM wait depends is saved. DEDUCED (log 36). -/
def firmOnSaved (s : State) (t : Task) : Bool :=
  (liveTasks s).any fun e => e.handle != t.handle && e.phase == .saved && e.part == t.part &&
    (decide (e.ts < t.ts) || e.handle == t.parent || (e.ts == t.ts && admittedBefore e t && conflicts e t))

/-- The watchdog of a waiting thread stands still (R198). DEDUCED (log 36). -/
def frozen (s : State) (core k : Nat) (x : Slot) : Bool :=
  match x.wait.reason with
  | .barrier =>
    let n := x.wait.peer
    let phase := (taskOf s x.task).barriers[n]?.getD 0
    (crewSlots s x.task).any (fun q => q.2.2.arrived[n]?.getD none != some phase && stalled q.2.2)
  | .qempty | .qfull => (coreOf s core).slots.any (fun q => q.1 != k && stalled q.2)
  | .amsg =>
    let pkg := x.wait.peer / 16384
    if pkg = s.pkgId.toNat then stalled (slotOf s (x.wait.peer % 1024) 14) else pathReplays s pkg
  | .page =>
    let pager := (estateOf s x.estate).pagerThread
    (estateOf s x.estate).pagerSize != 0 && stalled (slotOf s (pager / 16) (pager % 16))
  | .firm => firmOnSaved s (taskOf s x.task)
  | .tile => s.ops.any (fun o => o.2.core == core && o.2.tile == x.wait.peer && (taskOf s o.2.task).phase == .saved)
  | .remote => if x.wait.key = 1 then pathReplays s x.wait.peer else (requestedFrom s x).any (pathReplays s)
  | .stream => (requestedFrom s x).any (pathReplays s)
  | _ => false

/-- The watchdog counts of a core's slots advance; those of a halted cluster stand (R195). -/
def countSlots (s : State) (dt core : Nat) (c : Core) : Core :=
  if s.halted.contains (clusterOf core) then c else
  { c with slots := c.slots.map (fun q =>
      if q.2.live && counted q.2.wait.reason && !frozen s core q.1 q.2 then (q.1, { q.2 with wdCount := q.2.wdCount + dt }) else q) }

/-- dt reference cycles pass. -/
def advance0 (dt : Nat) (s : State) : State :=
  if dt = 0 then s else
  let s1 := (List.range 17).foldl (tickIsland dt) { s with cycle := s.cycle + dt }
  { s1 with cores := s1.cores.map (fun c => (c.1, countSlots s dt c.1 c.2)) }

/-! ### Waits that are over (R197) -/

/-- A full or empty queue is so no longer, or is bound no longer. -/
def queueReady (c : Core) (wide : Bool) (reg : Nat) (empty : Bool) : Bool :=
  match findQueue c wide (reg - 16) with
  | some q =>
    if empty then match q.entries with
      | { value := some _, .. } :: _ => true
      | _ => false
    else q.entries.length < 8
  | none => true

/-- A MEM wait that no reply ends. -/
def memOver (s : State) (core k : Nat) (x : Slot) : Bool :=
  let r := x.wait.key % 16
  let q := x.wait.key / 16
  if r = 13 then
    let e := entryOf s q
    e.leaving.isNone || e.state == .scrubbing
  else if r = 12 then (estateOf s x.estate).ring.length < ringSize (estateOf s x.estate)
  else if r = 14 then copiesOf s core < 512
  else if r = 15 then !endHeld s core k
  else r = 0 || (slotOf s core (if q = 0 then k else q - 1)).buffered < r

/-- The wait for a stream: for a packet, for the pushes that UNBIND follows, or for the push before. -/
def streamOver (s : State) (core k : Nat) (x : Slot) : Bool :=
  if x.wait.key = 0 then
    match findStream s core k x.wait.peer with
    | some (_, t) => !t.buffer.isEmpty
    | none => true
  else if x.wait.key ≤ 32 then !pushesLeft s core k (x.wait.key - 1)
  else !pushAhead s core ((x.wait.key - 1) / 32 - 1) ((x.wait.key - 1) % 32)

/-- The wait of a thread whose instruction issues again is over. DEDUCED (log 23). -/
def waitOver (s : State) (core k : Nat) (x : Slot) : Bool :=
  x.live && x.pend == .none && match x.wait.reason with
    | .mem => memOver s core k x
    | .remote => x.wait.key = 0 || !full1024 s x.wait.peer
    | .page => !s.faults.any (fun f => f.estate == x.estate && f.token == x.wait.peer)
    | .tile => tileWaitOver (coreOf s core) x.wait.peer x.wait.key
    | .qempty => queueReady (coreOf s core) (x.wait.key == 1) x.wait.peer true
    | .qfull => queueReady (coreOf s core) (x.wait.key == 1) x.wait.peer false
    | .barrier => !arriving s core k x.wait.peer && x.arrived[x.wait.peer]?.getD none != some ((taskOf s x.task).barriers[x.wait.peer]?.getD 0)
    | .firm => mayBeFirm s x.task
    | .stream => streamOver s core k x
    | .mma => !drainAhead s core k (x.wait.peer % 65536)
    | _ => false

/-- Ends the waits of a core that are over; those of a halted cluster stand (R195). -/
def endWaits (core : Nat) (s : State) : State :=
  if s.halted.contains (clusterOf core) then s else
  (coreOf s core).slots.foldl (fun s q =>
    if waitOver s core q.1 (slotOf s core q.1) then setSlot s core q.1 { slotOf s core q.1 with wait := {} } else s) s

/-- Writes the records of faults that have waited for a slot of the pager queue. When the ring cannot be translated any more, the threads
trap, with a record in the fault sink (R115). -/
def recordFaults (s : State) : State :=
  s.faults.foldl (fun s f =>
    if f.recorded || f.file then s else
    match pagerTry s (f.thread / 16) f with
    | (some true, s1) => { s1 with faults := s1.faults.map (fun g => if g == f then { g with recorded := true } else g) }
    | (some false, _) => s
    | (none, s1) =>
      wakeToken true (sinkRecord s1 (f.thread / 16) f.estate
        (hwRecord s1 f.estate 2 TrapCode.pageInvalid.toNat (BitVec.ofNat 64 f.va) 0 f.thread
          (handle := handleOf s1 f.estate f.thread))) f.estate f.token) s

/-- A crew of which threads have yielded is saved, and its cores' notices end, as soon as the last other thread has parked or ended
(R172, R200). -/
def restCrews (s : State) : State :=
  (liveTasks s).foldl (fun s t =>
    if (taskOf s t.handle).phase == .running && (crewSlots s t.handle).any (fun p => p.2.2.wait.reason == .saved) then yielded s t.handle
    else s) s

/-- Notes since when a task in a shadow slot might start (R158). -/
def noteWaiting (s : State) : State :=
  { s with tasks := s.tasks.map (fun t =>
      (t.1, { t.2 with waiting := if waitsForSlots s t.2 then some (t.2.waiting.getD s.cycle) else none })) }

/-- What comes due: effects at writeback points, waits that are over, fault records, crews that rest, coherence requests that the limit
has held back. -/
def settle (s : State) : State :=
  noteWaiting (pumpAll (restCrews (recordFaults ((s.cores.map (·.1)).foldl (fun s c => endWaits c (clearPushed c (flushThreads c (flushWb c s)))) s))))

/-! ### Issue (R32, R33) -/

/-- A core takes part in issue. -/
def coreRuns (s : State) (core : Nat) : Bool :=
  s.boot == .running && core ≤ garnet && (coreEstate s core).isSome && !s.halted.contains (clusterOf core) &&
    (garnet ≤ core || !coreLeaving s core) && (coreOf s core).issued != some (ticksOf s core)

/-- A ready slot. -/
def ready (s : State) (core k : Nat) : Bool :=
  let x := slotOf s core k
  x.live && x.wait.reason == .none && x.readyAt ≤ ticksOf s core && (isService core k || !x.pastDeadline s.cycle)

/-- The service budget allows another issue of the keeper or the courier. DEDUCED (log 22). -/
def budget (s : State) (core : Nat) : Bool := ((coreOf s core).service.filter (fun t => ticksOf s core < t + 16)).length < 2

/-- The slot that issues (R32). Garnet's slots are work slots. DEDUCED (log 22). -/
def pick (s : State) (core : Nat) : Option Nat :=
  let n := if core < garnet then 14 else 64
  if core < garnet && budget s core && ready s core 15 then some 15
  else if core < garnet && budget s core && ready s core 14 then some 14
  else ((List.range n).map (fun i => ((coreOf s core).lastWork + 1 + i) % n)).find? (ready s core)

/-- A slot issues: its watchdog count is cleared. -/
def issueFrom (s : State) (core k : Nat) (defer : Bool) : State :=
  let now := ticksOf s core
  let c := coreOf s core
  let c1 :=
    if isService core k then { c with issued := some now, service := now :: c.service.filter (fun t => now < t + 16) }
    else { c with issued := some now, lastWork := k }
  let s1 := setCore s core c1
  { setSlot s1 core k { slotOf s1 core k with wdCount := 0 } with cur := { core := core, slot := k, defer := defer } }

/-- The instruction that a core issues, and the state at its issue. A slot with a value to deliver takes it first (R256). -/
def issue (s : State) (core : Nat) (defer : Bool) : Option Instr × State :=
  if !coreRuns s core then (none, s) else
  match pick s core with
  | none => (none, s)
  | some k =>
    if deliverable s core k then (some (.uintDeliver core k), s) else
    let s1 := issueFrom s core k defer
    match fetchInstr.run s1 with
    | (.ok (some i), s2) => (some i, s2)
    | (.ok none, s2) => (some .undecodableWord, s2)
    | (.error _, _) => (some .fetchFault, s1)

/-! ### Events -/

/-- The rows of the table that are events: what the agenda may name. UNDECODABLE_WORD and FETCH_FAULT belong to an issue. -/
def isEvent : Instr → Bool
  | .accessReply .. | .storeBufferPerform .. | .shootdownInvalidate .. | .watchdog .. | .forcedSave .. | .restore ..
  | .uintDeliver .. | .streamPacketArrival .. | .taskTake .. | .admission .. | .taskStart .. | .taskCommit ..
  | .frontierPass .. | .frontierPriority .. | .launchRecord .. | .jobComplete .. | .copyAccess .. | .mloadbApply ..
  | .mmaRow .. | .mdrainPerform .. | .suspendedRow .. | .macroRecalibration .. | .jasperTrapMessage .. | .jasperForward ..
  | .jasperFailover .. | .amsgArrive .. | .courierStart .. | .amsgAnswer .. | .noticeExpiry .. | .scrubComplete ..
  | .tailWrite .. | .registerWrite .. | .createPartition .. | .resetPartition .. | .giveToPartition .. | .retireCore ..
  | .spareRow .. | .spareLane .. | .updateFirmware .. | .attest .. | .lifecycle .. | .setChain .. | .setDomain ..
  | .setTimer .. | .preempt .. | .unknownCommand .. | .mapfile .. | .sync .. | .unmapfile .. | .launchr .. | .unknownCall ..
  | .fileFault .. | .spdmMeasurement .. | .ideTagFailure .. | .tdispRequest .. | .hostMemAccess .. | .snpdata .. | .snpinv ..
  | .snpcur .. | .goResponse .. | .hostLineEviction .. | .backInvalidateResponse .. | .functionLevelReset .. | .boot ..
  | .routePacket .. | .flitReceive .. | .e2eTimeout .. | .remoteRequest .. | .portIsolation .. | .laneSwap ..
  | .packageLost .. | .gets .. | .getm .. | .upgrade .. | .putm .. | .puto .. | .fwds .. | .fwdm .. | .inv .. | .recallLine ..
  | .data .. | .invAck .. | .completionAck .. | .putAck .. | .homeReply .. | .coherentEviction .. | .governorThrottle ..
  | .governorRaise .. | .uncorrectableError .. | .sramError .. | .hbmRowSpare .. | .sliceSwap .. | .powerLoss => true
  | _ => false

/-- The arrival of a message that this package has sent to itself. -/
def arrival (s : State) : FabricMsg → Option Instr
  | .getS n h l => some (.gets ⟨s.pkgId.toNat, n⟩ h l)
  | .getM n h l => some (.getm ⟨s.pkgId.toNat, n⟩ h l)
  | .upgrade n h l => some (.upgrade ⟨s.pkgId.toNat, n⟩ h l)
  | .putM n h l v => some (.putm ⟨s.pkgId.toNat, n⟩ h l v)
  | .putO n h l v => some (.puto ⟨s.pkgId.toNat, n⟩ h l v)
  | .fwdS q h l => some (.fwds q h l)
  | .fwdM q h l n => some (.fwdm q h l n)
  | .inv q h l => some (.inv q h l)
  | .recallLine h l => some (.recallLine h l)
  | .data h l g v n => some (.data h l g v n)
  | .ack h l => some (.invAck h l)
  | .completion h l => some (.completionAck s.pkgId.toNat h l true)
  | .putAck h l => some (.putAck h l)
  | .homeData h l a => some (.homeReply h l a)
  | .request n _ op => if requestHeld s op then none else some (.remoteRequest s.pkgId.toNat n 0 op)
  | .amsg n name c t h a r =>
    if mayArrive s c (name % 16384) t n h a r then some (.amsgArrive c s.pkgId.toNat (name % 16384) t n h a r) else none
  | _ => none

/-- The events of messages to this package itself, the earliest first. -/
def arrivals (s : State) : List Instr :=
  s.outbox.reverse.filterMap (fun m => if m.1 = s.pkgId.toNat then arrival s m.2 else none)

/-- The slots of every core. -/
def allSlots (s : State) : List (Nat × Nat × Slot) := s.cores.flatMap (fun c => c.2.slots.map (fun k => (c.1, k.1, k.2)))

/-- The first entry of a buffer that may be performed. -/
def performable (s : State) (core : Nat) (x : Slot) : Option Nat :=
  if s.halted.contains (clusterOf core) then none else
  (List.range x.stores.length).find? (fun i => match x.stores[i]? with
    | some e => mayPerform (x.stores.take i) e && !e.writes.any (away s)
    | none => false)

/-- The events that may happen to a slot. -/
def slotEvents (s : State) (p : Nat × Nat × Slot) : List Instr :=
  let c := p.1
  let k := p.2.1
  let x := p.2.2
  (match performable s c x with
    | some i => [.storeBufferPerform c k i]
    | none => []) ++
  (if x.live && (replyTo s c k .home).isSome && !s.halted.contains (clusterOf c) then [.accessReply c k .home] else []) ++
  (if deliverable s c k then [.uintDeliver c k] else []) ++
  (match x.pend with
    | .mma _ seat _ _ _ _ =>
      if (seatOf s (seat / 16) (seat % 16)).suspended then [.suspendedRow c k]
      else if nextSeat s (seat / 16) = some (seat % 16) then [.mmaRow c k] else []
    | .seat _ _ _ => [.mmaRow c k]
    | _ => []) ++
  (if x.live && x.wait.reason == .stream && x.wait.key == 0 && x.pend == .none then
    match findStream s c k x.wait.peer with
    | some (b, t) => if t.isWrite || !t.buffer.isEmpty then [] else [.streamPacketArrival c (BitVec.ofNat 5 x.wait.peer) b]
    | none => []
  else [])

/-- The events that may happen to a core. -/
def coreEvents (s : State) (p : Nat × Core) : List Instr :=
  let halted := s.halted.contains (clusterOf p.1)
  let jasper := jasperOf s (servingJasper s (clusterOf p.1))
  (if halted then [] else (((p.2.toJasper.map (fun m => (mailPlace p.1 m.1, m.1))).filter (fun m => (mapFind jasper.mailbox m.1).isNone)).take 1).map
    (fun m => .jasperTrapMessage p.1 m.2)) ++
  (if halted || p.2.ring.isEmpty || (slotOf s p.1 14).live || !(slotOf s p.1 14).stores.isEmpty || (coreEstate s p.1).isNone then []
    else [.courierStart p.1])

/-- The cores that take work now (R144), of the estates that have a task in a queue. DESIGN CHOICE (log 35). -/
def takers (s : State) : List Nat :=
  let estates := ((liveTasks s).filter (fun t => t.phase == .queued || t.phase == .saved)).map (·.estate)
  if estates.isEmpty then [] else
  (List.range garnet).filter fun c =>
    (coreEstate s c).any estates.contains && !s.halted.contains (clusterOf c) && (coreOf s c).shadow.length < 2 && (findWork s c).isSome

/-- The events that may happen to a task. -/
def taskEvents (s : State) (t : Task) : List Instr :=
  (if t.phase == .shadow && !isAdmitted t then [.admission t.handle] else []) ++
  (match shadowCore s t.handle with
    | some c =>
      if (startSlots s c t.handle).isNone then [] else if t.phase == .saved then [.restore c t.handle] else [.taskStart t.handle]
    | none => []) ++
  (if mayCommit s t then [.taskCommit t.handle] else []) ++
  (let crew := crewSlots s t.handle
   if t.phase == .running && crew.all (fun q => !coreLeaving s q.1) && crew.any (fun q => q.2.2.pastDeadline s.cycle) &&
      crew.all (fun q => settled s q.1 q.2.1) then [.forcedSave t.handle] else []) ++
  (if priorityDue s t then [.frontierPriority t.handle] else [])

/-- The event of an engine operation's next part. -/
def opEvent (s : State) (p : Nat × EngineOp) : List Instr :=
  match p.2.kind with
  | .copy =>
    if released s p.2 && !(p.2.token.any (fun k => s.faults.any (fun f => f.estate == p.2.estate && f.token == k))) then
      (((List.range (copyCount p.2.regs)).find? (fun i => !p.2.done.contains i)).map (fun i => Instr.copyAccess p.1 i .home)).toList
    else []
  | .mloadb => [.mloadbApply p.1]
  | .mdrain _ => [.mdrainPerform p.1]

/-- The command, or the launch record, at the head of a queue. -/
def queueEvent (s : State) (q : Nat) : List Instr :=
  match if recordTurn s q then headRecord s q else none with
  | none => []
  | some rec =>
    match bits (recDw rec 0) 56 8 with
    | 0 => [.launchRecord q]
    | 1 => [.createPartition q]
    | 2 => [.resetPartition q]
    | 3 => [.giveToPartition q]
    | 4 => [.retireCore q]
    | 5 => [.spareRow q]
    | 6 => [.spareLane q]
    | 8 => [.attest q]
    | 9 => [.lifecycle q]
    | 10 => [.setChain q]
    | 11 => [.setDomain q]
    | 12 => [.setTimer q]
    | 13 => [.preempt q]
    | 7 => []
    | _ => [.unknownCommand q]

/-- The call at the head of an estate's part of a service queue. -/
def serviceEvents (s : State) (p : Nat × Part) : List Instr :=
  p.2.service.filterMap fun i =>
    match i with
    | .call e _ c k n args =>
      if nextItem s e ≠ some i || (serverOf s p.1).isNone then none else
      match n with
      | 1 => some (.mapfile c k)
      | 2 => some (.sync c k)
      | 3 => some (.unmapfile c k)
      | 0x20 => if bits (argOf args 0) 14 14 = s.pkgId.toNat then some (.launchr c k .home) else none
      | _ => some (.unknownCall c k)
    | .file _ _ => none

/-- The events of the package's own logic that may happen now. What comes from outside (the host, other packages, firmware's data,
failures) only the agenda brings. DESIGN CHOICE (log 16). -/
def events (s : State) : List Instr :=
  arrivals s ++
  s.cores.flatMap (coreEvents s) ++
  (takers s).map (fun c => .taskTake c) ++
  (allSlots s).flatMap (slotEvents s) ++
  s.jaspers.flatMap (fun j => (j.2.mailbox.filter (fun m => (mapFind (jasperOf s (nextJasper s j.1 32)).mailbox m.1).isNone)).map
    (fun m => .jasperForward m.2.core m.2.slot)) ++
  (liveTasks s).flatMap (taskEvents s) ++
  (s.jobs.filter (fun j => !(liveTasks s).any (fun t => t.root == j.1))).map (fun j => .jobComplete j.1) ++
  s.ops.flatMap (opEvent s) ++
  s.shootdowns.filterMap (fun j => if portBusy s j.port then none else some (.shootdownInvalidate j.port)) ++
  s.cad.flatMap (fun e =>
    (if (e.2.state == .reclaiming || (e.2.retiring && e.2.state != .scrubbing)) && e.2.deadline ≤ s.cycle then [.noticeExpiry e.1] else []) ++
    (match e.2.leaving with
      | some l => if leaveReady s e.1 l then [.scrubComplete e.1] else []
      | none => if e.2.state == .scrubbing then [.scrubComplete e.1] else [])) ++
  s.queues.flatMap (fun q => queueEvent s q.1) ++
  s.parts.flatMap (serviceEvents s)

/-- The model's choice among a list, by a counter, so that none is passed over for ever. -/
def choose (l : List α) (n : Nat) : Option α := l[n % l.length]?

/-- What must happen before anything else does: a watchdog that has expired (R198), the priority of a task at the frontier (R158, R161), the
frontier's publication, every 64 reference cycles (R12, R154). -/
def forced (s : State) : Option Instr :=
  match (allSlots s).find? (fun p => expired s p.1 p.2.1) with
  | some p => some (.watchdog p.1 p.2.1)
  | none =>
    match (liveTasks s).find? (priorityDue s) with
    | some t => some (.frontierPriority t.handle)
    | none =>
    if s.cycle % 64 ≠ 0 then none else
    s.parts.findSome? fun p => match ((frontierTasks s p.1).map (·.ts)).min? with
      | some m => if p.2.frontier < m then some (.frontierPass p.1) else none
      | none => none

/-- The cores that have a slot to issue in this cycle. -/
def readyCores (s : State) : List Nat := (s.cores.map (·.1)).filter (fun c => coreRuns s c && (pick s c).isSome)

/-- The move of an empty agenda: an event on even turns where there is one, else an issue by a core that is ready, else a cycle
passes. DESIGN CHOICE (log 16). -/
def autonomous (s0 : State) : Option Instr × State :=
  let s := settle s0
  match forced s with
  | some i => (some i, s)
  | none =>
    let n := s.focus
    let s1 := { s with focus := n + 1 }
    match choose (if n % 2 = 0 then events s else []) (n / 2) with
    | some i => (some i, s1)
    | none =>
      match choose (readyCores s) (n / 2) with
      | some c => issue s1 c false
      | none => (none, advance0 1 s1)

/-- A move of the agenda. Its time passes cycle by cycle, and a cycle passes only when every core that has a ready slot has issued in it
(R32, R35). -/
def agendaMove (s : State) (m : Move) (rest : List Move) : Option Instr × State :=
  let s1 := settle { s with agenda := rest }
  let kept : State := { s1 with agenda := m :: rest }
  match forced s1 with
  | some i => (some i, kept)
  | none =>
    match m.dt with
    | 0 =>
      match m.mover with
      | .issue core defer => issue s1 core defer
      | .event i => if isEvent i then (some i, s1) else (none, s1)
      | .idle => (none, s1)
    | dt + 1 =>
      match (readyCores s1).head? with
      | some c => issue kept c false
      | none => (none, { advance0 1 s1 with agenda := ⟨dt, m.mover⟩ :: rest })

/-- What moves next: the instruction or event to be executed, and the state in which it is. DESIGN CHOICE (logs 16, 18). -/
def next (s : State) : Option Instr × State :=
  match s.agenda with
  | [] => autonomous s
  | m :: rest => agendaMove s m rest

/-- The package is without power: only a boot goes on from there. -/
def powerless (s : State) : Bool :=
  s.boot == .off && match s.agenda with
    | ⟨_, .event (.boot _ _ _)⟩ :: _ => false
    | _ => true

/-! ### A program placed from outside -/

/-- The task that runs a placed instruction: a root of the principal at the frontier. -/
def placedTask (s : State) : Task := { handle := 1, root := 1, ts := (partOf s 0).frontier, phase := .running, ran := true, crew := [.running 0 0] }

/-- The thread that runs it: its code segment is the scratchpad of core 0. -/
def placedThread : Slot := { live := true, task := 1, sg := (Vector.replicate 8 ({} : Seg)).set 7 { limit := 0x1000, attrs := 0x16 } }

/-- The state with an instruction placed for the very next step: a thread of core 0 with nothing else to do, its PC at the bytes of w
in the scratchpad, and the move that lets the core issue. DESIGN CHOICE (log 16). -/
def placeWord (s : State) (w : Nat) : State :=
  let c := coreOf s 0
  let core : Core := { c with
    slots := [(0, placedThread)], scratch := memWrite c.scratch 0 (w % 2 ^ 32) 4, scratchPoison := c.scratchPoison.filter (· != 0), wb := [],
    issued := none, codeSeen := s.history.length }
  { setTask (setEntry (setCore s 0 core) (parcelCore 0) {}) 1 (placedTask s) with
    boot := .running, halted := s.halted.filter (· != 0), agenda := ⟨0, .issue 0 false⟩ :: s.agenda }

end Sys2Proof.Machine
end

