-- ==== Sys2Proof/Machine/Step.lean ====
section
/-! DEFINITION. One step: what moves next moves. -/

namespace Sys2Proof.Machine

/-- One step of the package: the next move of its agenda, or the model's own choice. A package without power goes no further. DESIGN
CHOICE (logs 16, 19). -/
def step (s : State) : Host.Outcome State Fault Refusal :=
  if powerless s then .fault .powerOff else
  match next s with
  | (some i, s1) => exec i s1
  | (none, s1) => .next s1

/-- s with the instruction whose bits are w stored where the very next step fetches it. Bits above nbits are zero; the longest
instruction has 32. DESIGN CHOICE (log 16). -/
def State.withFetchWord (s : State) (nbits w : Nat) : State := placeWord s (w % 2 ^ nbits)

end Sys2Proof.Machine
end

