-- ==== Sys2Proof/Safety.lean ====
section
/-! DEFINITION. What claims are stated in: computations that end, the parts of a state that an instruction may change, the states
that keep every memory in its canonical form, and the runs that meet no fault. -/

namespace Sys2Proof.Machine

/-- A computation of an instruction ends: it neither traps nor waits, and it answers a in s'. -/
def Ends (m : Exec α) (s : State) (a : α) (s' : State) : Prop := m.run s = (.ok a, s')

/-- A computation of an instruction traps. -/
def Traps (m : Exec α) (s : State) (t : TrapInfo) (s' : State) : Prop := m.run s = (.error (.trap t), s')

/-- A computation of an instruction waits. -/
def Waits (m : Exec α) (s : State) (w : WaitState) (p : Pending) (s' : State) : Prop := m.run s = (.error (.wait w p), s')

/-- The g and c operands of the instruction being issued can be taken: its sources srcs, and room for its result in dst (R41, R42);
s' holds what it has popped. -/
def Takes (srcs : List Reg) (dst : Option Reg) (s s' : State) : Prop := Ends (useG srcs dst) s () s'

/-- The same for an instruction with vector sources vs, g sources gs and a vector destination d, on a core with a vector pipe. -/
def TakesV (vs gs : List Reg) (d : Reg) (s s' : State) : Prop :=
  Ends (do notGarnet; openVs vs; useG gs none; reserveV d) s () s'

/-- The end of an instruction of t turns whose result v goes to G(d), and which falls through (R33, R37). -/
def writesG (t : Nat) (d : Reg) (v : Word) (s : State) : State := endFall t (putG (wbPoint s t) d v s)

/-- Nothing of the package changes but the cores and the issue in progress. -/
def OnlyCores (s t : State) : Prop := t = { s with cores := t.cores, cur := t.cur }

/-- Of the issuing core nothing changes but slots, queues and pending writebacks; every other core is as it was. -/
def OnlyIssuer (s t : State) : Prop :=
  OnlyCores s t ∧ (∀ c, c ≠ s.cur.core → coreOf t c = coreOf s c) ∧
    coreOf t s.cur.core = { coreOf s s.cur.core with
      slots := (coreOf t s.cur.core).slots, queues := (coreOf t s.cur.core).queues, wb := (coreOf t s.cur.core).wb }

/-- Of the issuing thread nothing changes but its PC and loops, its pace and wait, and g[d], with its poison, when d is one of its g
registers; the other slots of the core are as they were. -/
def OnlyG (d : Reg) (s t : State) : Prop :=
  OnlyIssuer s t ∧ (∀ k, k ≠ s.cur.slot → slotOf t s.cur.core k = slotOf s s.cur.core k) ∧
    (∀ r : Reg, r ≠ d → (slotOf t s.cur.core s.cur.slot).g[r.toNat]? = (slotOf s s.cur.core s.cur.slot).g[r.toNat]?) ∧
    (∀ x, x ≠ (false, d.toNat) →
      (x ∈ (slotOf t s.cur.core s.cur.slot).poison ↔ x ∈ (slotOf s s.cur.core s.cur.slot).poison)) ∧
    slotOf t s.cur.core s.cur.slot = { slotOf s s.cur.core s.cur.slot with
      poison := (slotOf t s.cur.core s.cur.slot).poison, g := (slotOf t s.cur.core s.cur.slot).g, pc := (slotOf t s.cur.core s.cur.slot).pc,
      loops := (slotOf t s.cur.core s.cur.slot).loops, lc := (slotOf t s.cur.core s.cur.slot).lc,
      readyAt := (slotOf t s.cur.core s.cur.slot).readyAt, pend := .none, wait := {}, held := [], ticket := none, fetched := [],
      rows := none, barHalf := false }

/-- The byte that stands at a place of this package's memories. -/
def byteAt (s : State) : Home → Byte
  | .scratch c o => memGet (coreOf s c).scratch o
  | .commons a => memGet s.commons a
  | .hbm p => memGet s.hbm p
  | .host p => memGet s.host p
  | .remote _ _ | .coherent _ _ => 0

/-- The n bytes at a place of this package's memories, little-endian. -/
def bytesAt (s : State) (h : Home) (n : Nat) : Nat :=
  match h with
  | .scratch c o => memRead (coreOf s c).scratch o n
  | .commons a => memRead s.commons a n
  | .hbm p => memRead s.hbm p n
  | .host p => memRead s.host p n
  | .remote _ _ | .coherent _ _ => 0

/-- The bytes of the pieces of an access, the first piece lowest. -/
def piecesAt (s : State) : List Piece → Nat
  | [] => 0
  | p :: ps => bytesAt s p.home p.n + piecesAt s ps * 2 ^ (8 * p.n)

/-- A piece that is served at its home: in the scratchpad, the commons or HBM, on no plat line, neither poisoned nor lost, and not
held by the host. -/
def Piece.plain (s : State) (p : Piece) : Prop :=
  p.plat = none ∧ needsLine s p.home true = false ∧ match p.home with
    | .scratch c o => o / 64 ∉ (coreOf s c).scratchPoison
    | .commons a => a / 64 ∉ s.commonsPoison
    | .hbm q => q / 64 ∉ s.hbmPoison ∧ ∀ l ∈ s.lostLines, l.1 ≠ q / 64
    | .host _ | .remote _ _ | .coherent _ _ => False

/-- Whether a place lies among n bytes from another. -/
def Home.within (h h' : Home) (n : Nat) : Prop := ∃ i, i < n ∧ h = h'.shift i

/-- Every memory of the package in its canonical form: HBM, the commons, host memory, each core's scratchpad, each launch queue, each
bank of a Beryl unit. -/
def State.memOk (s : State) : Bool :=
  Memory.wf s.hbm && Memory.wf s.commons && Memory.wf s.host && s.cores.all (fun c => Memory.wf c.2.scratch) &&
    s.queues.all (fun q => Memory.wf q.2.bytes) && s.units.all (fun u => u.2.banks.all (fun b => Memory.wf b.2.bytes))

/-- A Cadastre instruction on parcel p is sent and answered at once: its thread may perform firm operations and has an empty store
buffer, no transfer without a scrub runs on the parcel, and p names a parcel (R169, R380). -/
def CadReady (s : State) (p : Nat) : Prop :=
  mayBeFirm s (curSlot s).task = true ∧ (curSlot s).stores = [] ∧ (entryOf s p).leaving = none ∧ goodParcel p = true ∧
    s.cur.defer = false

/-- The end of a Cadastre instruction: its status in G(d), an acquire; the core reads its GENERATION values anew (R168, R169, R176). -/
def cadDone (d : Reg) (status : Nat) (s : State) : State :=
  let t := writesG 1 d (BitVec.ofNat 64 status) s
  closeCombining (threadId s.cur.core s.cur.slot) (setCurCore t { curCore t with gens := [] })

/-- The wait of a Cadastre instruction for the transfer of its parcel (R170). -/
def cadWaits (d : Reg) (p : Nat) (wait : Bool) (s : State) : State :=
  takeWait { reason := .reclaim, sent := true, peer := p } (.cad d p none 0 [] wait) s

/-- No run from a state ends in a fault. -/
def Safe (s : State) : Prop := ∀ k f, Sys2Proof.core.run k s ≠ .fault f

end Sys2Proof.Machine
end

