-- ==== Sys2Proof/Certificates/Slice0/Obligations.lean ====
section
/-! DEFINITION. The statements for the provers. An instruction that ends is said to by the state it answers; Takes, Ends and the
frames stand in Sys2Proof/Safety.lean. -/

section

open Sys2Proof

open Sys2Proof.Machine

/-! ### Encodings -/

/-- Decoding the encoding of a well-formed instruction gives it back with its length, whatever bytes follow (R54 to R79). -/
def Obligations.DecodeOfEncode : Prop :=
  ∀ (i : Instr) (rest : List Byte), i.wellFormed = true → i.isEvent = false →
    decode (encode i ++ rest) = .ok (i, if i.isShort then 2 else 4)

/-- What decodes is a well-formed instruction, no event, and the bytes read are its encoding: no bit of a word is without meaning
(R4, R54, R79). -/
def Obligations.DecodedBytesAreTheEncoding : Prop :=
  ∀ (bs : List Byte) (i : Instr) (n : Nat), decode bs = .ok (i, n) →
    i.wellFormed = true ∧ i.isEvent = false ∧ n = (if i.isShort then 2 else 4) ∧ bs.take n = encode i

/-- Words that the instruction reference writes out, one or two of each family, and the instructions it gives them for; a halfword 0
and a word of a reserved major are none (R54, R59). -/
def Obligations.ReferenceWords : Prop :=
  decodeTableWord 32 0x000A4183 = some (.add 3 4 5) ∧ decodeTableWord 16 0x1C64 = some (.addShort 3 7) ∧
  decodeTableWord 32 0x258A4183 = some (.cmp .lt 3 4 5) ∧ decodeTableWord 32 0x07D3458F = some (.lih 11 0x7D34) ∧
  decodeTableWord 32 0xFFA44193 = some (.br .lt 3 4 (-6)) ∧ decodeTableWord 32 0x0006029B = some (.loop 5 0 false 12 0) ∧
  decodeTableWord 32 0x106012A3 = some (.ldAcq 5 0 1 .s64 16) ∧
  decodeTableWord 32 0x00C2922B = some (.stv 4 1 9 .ni8 0) ∧ decodeTableWord 32 0x728C5231 = some (.amo .cas true .pkg 4 2 5 6) ∧
  decodeTableWord 32 0x5A0C024B = some (.vcvt 1 false true .s8 .f32 4 0 6) ∧
  decodeTableWord 32 0x012620C3 = some (.vfma .fma .f32 1 2 19 4) ∧ decodeTableWord 32 0x0200004D = some (.sbind 0 8) ∧
  decodeTableWord 32 0x008A7055 = some (.mma 7 5 2) ∧ decodeTableWord 32 0x000002E1 = some (.spawn 5 0) ∧
  decodeTableWord 32 0x308E62E5 = some (.ease 5 6 7 2) ∧ decodeTableWord 32 0x0D0000E7 = some (.segw 1 4) ∧
  decodeTableWord 32 0x08540069 = some (.trap 0x2A) ∧ decodeTableWord 32 0x0400506B = some (.amret 5) ∧
  decodeTableWord 16 0 = none ∧ decodeTableWord 32 0x15 = none

/-! ### Steps -/

/-- A core's turn runs the instruction at the PC. When the agenda's next move lets a core issue now, nothing comes before it, the core
takes part, and the slot that R32 picks has no user interrupt to take and has at its PC the bytes of a well-formed instruction, step is
exec of that instruction in the state at its issue: what was due has happened, and the fetch has noted the word. A short instruction
needs its two bytes only. When the next move is an event of the table, step is exec of that event, once what was due has happened.
The agenda, and what comes before its moves, are the model's own (log 16). -/
def Obligations.StepRunsDecoded : Prop :=
  (∀ (s s1 : State) (i : Instr) (rest : List Move), powerless s = false → s.agenda = ⟨0, .event i⟩ :: rest →
    s1 = settle { s with agenda := rest } → forced s1 = none → Machine.isEvent i = true → step s = exec i s1) ∧
  ∀ (s s1 s2 : State) (core k lo : Nat) (defer : Bool) (rest : List Move),
    powerless s = false → s.agenda = ⟨0, .issue core defer⟩ :: rest → s1 = settle { s with agenda := rest } → forced s1 = none →
    coreRuns s1 core = true → pick s1 core = some k → deliverable s1 core k = false →
    Ends (fetchHalf (slotOf (issueFrom s1 core k defer) core k).pc) (setWord 0 false (issueFrom s1 core k defer)) lo s2 →
    (∀ i, lo < 65536 → decode (leBytes 2 lo) = .ok (i, 2) → step s = exec i (setWord lo false s2)) ∧
    (∀ i hi s3, lo < 65536 → hi < 65536 → lo % 2 = 1 →
      Ends (fetchHalf ((slotOf (issueFrom s1 core k defer) core k).pc + 2)) (setWord lo true s2) hi s3 →
      decode (leBytes 2 lo ++ leBytes 2 hi) = .ok (i, 4) → step s = exec i (setWord (lo + 65536 * hi) true s3))

/-- Every row of the table answers a next state in every state: none faults and none is refused. A step ends in a fault exactly when the
package is without power and its next move is no boot (R267).
That fault, and that an event not enabled changes nothing, are the model's choices (logs 18, 19). -/
def Obligations.OnlyPowerLossStops : Prop :=
  (∀ (i : Instr) (s : State), ∃ t, exec i s = .next t) ∧
  ∀ s : State, (step s = .fault .powerOff ↔ powerless s = true) ∧ ∀ r, step s ≠ .refused r

/-- Which slot issues (R32): the keeper where it is ready and the budget allows it, else the courier likewise, else the first ready work
slot from the one after the last that issued, with wrap-around; no slot when none of these is, and then the cycle issues nothing. After
boot and after a core scrub slot 13 counts as the last. While two issues of the keeper and the courier lie within the last 16 cycles of
their island's clock, neither of them is picked. A slot is ready when it holds a thread with wait reason none (a parked or saved thread
has another) whose pace has elapsed; a work slot whose forced-save request is past its deadline issues no more (R201). Each core that
takes part chooses a slot in every cycle: where a move lets time pass, a core with a ready slot issues first, and a cycle passes only
when no core has one (R32, R35). The agenda, and the order in which the cores that are ready take their turns, are the model's own (log
16); that the 16 cycles of the budget are cycles of the core's island is its reading (log 22). -/
def Obligations.IssueOrder : Prop :=
  (∀ (s s1 : State) (dt : Nat) (m : Mover) (rest : List Move), s.agenda = ⟨dt + 1, m⟩ :: rest →
    s1 = settle { s with agenda := rest } → forced s1 = none →
    (∀ c cs, readyCores s1 = c :: cs → next s = issue { s1 with agenda := s.agenda } c false) ∧
    (readyCores s1 = [] → next s = (none, { advance0 1 s1 with agenda := ⟨dt, m⟩ :: rest }) ∧
      ∀ c, c ∈ s1.cores.map (·.1) → coreRuns s1 c = true → pick s1 c = none)) ∧
  ∀ (s : State) (c : Nat), c < garnet → (coreOf s c).lastWork < 14 →
    (∀ t u k, (coreOf s c).service = [t, u] → ticksOf s c < t + 16 → ticksOf s c < u + 16 → pick s c = some k → k < 14) ∧
    (budget s c = true → ready s c 15 = true → pick s c = some 15) ∧
    (budget s c = true → ready s c 15 = false → ready s c 14 = true → pick s c = some 14) ∧
    ((budget s c = false ∨ (ready s c 15 = false ∧ ready s c 14 = false)) →
      (∀ n, n < 14 → ready s c (((coreOf s c).lastWork + 1 + n) % 14) = true →
        (∀ j, j < n → ready s c (((coreOf s c).lastWork + 1 + j) % 14) = false) →
        pick s c = some (((coreOf s c).lastWork + 1 + n) % 14)) ∧
      ((∀ k, k < 14 → ready s c k = false) → pick s c = none)) ∧
    (∀ k, k < 16 → (ready s c k = true ↔ (slotOf s c k).live = true ∧ (slotOf s c k).wait.reason = .none ∧ (slotOf s c k).readyAt ≤ ticksOf s c ∧
      (k < 14 → ∀ r, (slotOf s c k).request = some r → s.cycle < r.deadline))) ∧
    (pick s c = none → ∀ defer, issue s c defer = (none, s)) ∧
    (coreOf State.reset c).lastWork = 13 ∧ ∀ x, (freshCore s x).lastWork = 13

/-! ### Reset, traps and waits -/

/-- What reset leaves, as the manual states it (R39, R167, R179, R183, R225, R247, R262): CYCLE 0, every byte of HBM and of the commons 0 with no poison, every scratchpad byte
and tile entry 0, the Cadastre with every parcel HELD by the principal and GENERATION 0, estate 0 alone INUSE with PRINCIPAL set,
NOTICE 36,000 and WDOG 2^32, partition 0 alone, the state registers of R39, the seats, the launch queues, the last work slot 13. Every
memory stands in the model's canonical form.
That the remote line cache is empty is the model's reading (log 12). -/
def Obligations.ResetLeaves : Prop :=
  let s := State.reset
  s.cycle = 0 ∧ (∀ a, memGet s.hbm a = 0 ∧ memGet s.commons a = 0) ∧ s.hbmPoison = [] ∧ s.commonsPoison = [] ∧
  (∀ c a, memGet (coreOf s c).scratch a = 0 ∧ (coreOf s c).scratchPoison = []) ∧ (∀ c t, tileOf (coreOf s c) t = {}) ∧
  (∀ p, (entryOf s p).state = .held ∧ (entryOf s p).holder = 0 ∧ (entryOf s p).gen = 0 ∧ (entryOf s p).outcome = 0 ∧
    (entryOf s p).target = none ∧ (entryOf s p).occupant = none ∧ (entryOf s p).lender = none) ∧
  (∀ e, e < 16384 → (entryOf s (parcelEstate e)).inuse = decide (e = 0)) ∧
  (estateOf s 0).principal = true ∧ (estateOf s 0).notice = 36000 ∧ (estateOf s 0).wdog = 0x100000000 ∧
  (∀ p, (partOf s p).inuse = decide (p = 0)) ∧
  (∀ c k, (slotOf s c k).live = false ∧ (slotOf s c k).frm = 0 ∧ (slotOf s c k).fflags = 0 ∧ (slotOf s c k).uih = 0 ∧
    (slotOf s c k).uiret = 0 ∧ (slotOf s c k).uiex = 0 ∧ (slotOf s c k).lc = Vector.replicate 3 0 ∧ (slotOf s c k).request = none) ∧
  (∀ c, (coreOf s c).win = 0x8000000000 ∧ (coreOf s c).dqbase = 0 ∧ (coreOf s c).dqlim = 0 ∧ (coreOf s c).lastWork = 13 ∧
    (coreOf s c).keeperQueue = []) ∧
  (∀ u x, (seatOf s u x).ctx0 = 0 ∧ (seatOf s u x).ctx1 = 0 ∧ (seatOf s u x).suspended = false) ∧
  (∀ q, (queueOf s q).tail = 0 ∧ (queueOf s q).head = 0 ∧ (queueOf s q).dropped = 0) ∧ s.rlc = [] ∧ s.timer = 20 ∧
  s.memOk = true

/-- A trap of an instruction of n turns (R33, R189): until its writeback point nothing changes but the thread's earliest next issue and
the writeback left for that point; there, and no later, it parks. A work slot's or the courier's thread then, on a core whose estate has
a keeper (R189 to R191), takes reason PARKED at its own PC, and its record, with the fields that R190 names, enters the core's keeper
queue with its slot: at the end, but before those of the same cycle whose slots are higher and which no keeper serves yet; a keeper that
has started in this cycle, and issued nothing, starts again at the head there is then. No memory changes. -/
def Obligations.TrapParksAndRecords : Prop :=
  (∀ (s : State) (n : Nat) (t : TrapInfo), let u := takeTrapAt n t s
    takeTrap t s = takeTrapAt 1 t s ∧ OnlyIssuer s u ∧ (coreOf u s.cur.core).queues = (curCore s).queues ∧
    slotOf u s.cur.core s.cur.slot = { curSlot s with readyAt := ticksOf s s.cur.core + 8 * n } ∧
    (∀ k, k ≠ s.cur.slot → slotOf u s.cur.core k = slotOf s s.cur.core k) ∧ (∀ h, byteAt u h = byteAt s h) ∧
    (coreOf u s.cur.core).wb =
      (curCore s).wb ++ [⟨ticksOf s s.cur.core + 8 * n - 1, s.cur.slot, .park t s.cur.long, none⟩]) ∧
  ∀ (s : State) (c k due now : Nat) (t : TrapInfo) (long : Bool),
    let u := applyWb c s ⟨due, k, .park t long, none⟩
    (Wb.isDue now ⟨due, k, .park t long, none⟩ = decide (due ≤ now)) ∧
    (c < garnet → k ≠ 15 → (estateOf s ((coreEstate s c).getD (slotOf s c k).estate)).keeperEntry ≠ 0 → (slotOf s c k).pend = .none →
      (slotOf s c k).held = [] →
      ∃ r pre post, (coreOf s c).keeperQueue = pre ++ post ∧ (coreOf u c).keeperQueue = pre ++ (k, r) :: post ∧
        (∀ x ∈ post.head?, x.2.time = s.cycle ∧ k < x.1) ∧
        (∀ x ∈ pre.drop (if (slotOf s c 15).live && !keeperFresh s c then 1 else 0), ¬ (x.2.time = s.cycle ∧ k < x.1)) ∧
        r.lost = 0 ∧ r.long = long ∧ r.thread = threadId c k ∧ r.kind = 1 ∧ r.code = t.code.toNat ∧
        r.pc = (slotOf s c k).pc.toNat % 2 ^ 48 ∧ r.addr = t.addr ∧ r.aux = t.aux ∧
        r.part = (estateOf s (slotOf s c k).estate).part ∧ r.estate = (slotOf s c k).estate ∧ r.time = s.cycle ∧
        r.handle = (slotOf s c k).task ∧ r.sg = t.sg ∧ r.hops = 0 ∧
        slotOf u c k = { slotOf s c k with wait := { reason := .parked }, fetched := [], ticket := none, past := false } ∧
        (∀ h, byteAt u h = byteAt s h) ∧ u.cad = s.cad ∧ u.tasks = s.tasks ∧ (∀ d, d ≠ c → coreOf u d = coreOf s d))

/-- The keeper starts on the first record of its queue (R191): at the keeper entry of the core's occupant, with the slot in g1, the code in
g2, the record's dwords in e8 to e15, the estate's default sg0 and sg7, every other register 0. Nothing else of the package changes, of the
keeper slot not the stores that it still has buffered, nor a value posted to it. A trap of
the keeper itself (R193): at its writeback point its slot empties, no new keeper starts, and a record with CODE 0x17 and the code of the
trap in AUX waits for Jasper; the keeper queue keeps its records. -/
def Obligations.KeeperStarts : Prop :=
  (∀ (s : State) (c due : Nat) (t : TrapInfo) (long : Bool), c < garnet → (slotOf s c 15).pend = .none → (slotOf s c 15).held = [] →
    let u := applyWb c s ⟨due, 15, .park t long, none⟩
    ∃ r, (coreOf u c).toJasper = (coreOf s c).toJasper ++ [(15, r)] ∧ r.code = 0x17 ∧
      r.aux = BitVec.ofNat 64 t.code.toNat ∧ r.thread = threadId c 15 ∧ (slotOf u c 15).live = false ∧
      (coreOf u c).keeperHeld = true ∧ (coreOf u c).keeperQueue = (coreOf s c).keeperQueue) ∧
  ∀ (s : State) (c sl : Nat) (r : TrapRec) (rest : List (Nat × TrapRec)), (coreOf s c).keeperQueue = (sl, r) :: rest →
    (slotOf s c 15).live = false → (slotOf s c 15).streams = [] → (coreOf s c).keeperHeld = false →
    let x := slotOf (startKeeper s c) c 15
    let est := (coreEstate s c).getD r.estate
    x.live = true ∧ x.estate = est ∧ x.pc = BitVec.ofNat 64 (estateOf s est).keeperEntry ∧
    x.g[1]? = some (BitVec.ofNat 64 sl) ∧ x.g[2]? = some (BitVec.ofNat 64 r.code) ∧ (∀ n, 3 ≤ n → n < 16 → x.g[n]? = some 0) ∧
    (∀ n, n < 8 → x.e[8 + n]? = (r.dwords[n]?).map (BitVec.ofNat 64)) ∧ (∀ n, n < 8 → x.e[n]? = some 0) ∧
    x.sg[0]? = some (estateOf s est).sg0 ∧ x.sg[7]? = some (estateOf s est).sg7 ∧ x.frm = 0 ∧ x.fflags = 0 ∧
    (∀ n, 0 < n → n < 7 → x.sg[n]? = some ({} : Seg)) ∧ x.v = Vector.replicate 16 0 ∧ x.loops = [] ∧ x.streams = [] ∧
    x.task = 0 ∧ x.wait = {} ∧ x.pend = .none ∧ x.stores = (slotOf s c 15).stores ∧ x.posted = (slotOf s c 15).posted ∧
    startKeeper s c = setSlot s c 15 x

/-- A wait of an instruction that will be issued again from its start leaves all visible state as it was but the thread's wait
reason and peer, and its earliest next issue (R5, R6, R33): also where it waits for a packet, an operand in memory or its own code. Nor has
the instruction changed anything before it waits for its scalar operands or the room of its result, to be firm, for room in a store buffer
or for its entries, or for a tile. -/
def Obligations.WaitLeavesState : Prop :=
  (∀ (s s' : State) (w : WaitState) (p : Pending) (srcs : List Reg) (dst : Option Reg), Waits (useG srcs dst) s w p s' →
    p = .none ∧ s' = { s with cur := s'.cur } ∧ (w.reason = .qempty ∨ w.reason = .qfull)) ∧
  (∀ (s s' : State) (w : WaitState) (p : Pending) (slot n need : Nat) (f : StoreEntry → Bool),
    (Waits firm s w p s' ∨ Waits (awaitRoom slot n) s w p s' ∨ Waits (awaitEntries slot f) s w p s' ∨ Waits (awaitTile n need) s w p s') →
    p = .none ∧ s' = s) ∧
  ∀ (s : State) (w : WaitState) (p : Pending), p.reissues = true → let t := takeWait w p s
    OnlyCores s t ∧ (∀ c, c ≠ s.cur.core → coreOf t c = coreOf s c) ∧
    coreOf t s.cur.core = { coreOf s s.cur.core with slots := (coreOf t s.cur.core).slots } ∧
    (∀ k, k ≠ s.cur.slot → slotOf t s.cur.core k = slotOf s s.cur.core k) ∧
    slotOf t s.cur.core s.cur.slot = { curSlot s with
      wait := w, pend := p, readyAt := ticksOf s s.cur.core + 8, word := s.cur.word, long := s.cur.long, accSg := s.cur.sg,
      accAddr := s.cur.addr, fetched := if p = .none then [] else (curSlot s).fetched }

/-- An undecodable word traps ILLEGAL with the word in AUX [31:0] and its length in bit 32, and an instruction that cannot be fetched
takes the trap, or the wait, of its fetch (R55, R56).
The row UNDECODABLE_WORD stands for every word that does not decode (log 20). -/
def Obligations.UndecodableWordTraps : Prop :=
  ∀ s : State, exec .undecodableWord s = .next (takeTrap ⟨.illegal, 0, illegalAux s, 0⟩ s) ∧
    illegalAux s = BitVec.ofNat 64 (s.cur.word % 2 ^ 32) ||| (if s.cur.long then 0x100000000 else 0) ∧
    (∀ t s', Traps fetchInstr s t s' → exec .fetchFault s = .next (takeTrap t s')) ∧
    (∀ w p s', Waits fetchInstr s w p s' → exec .fetchFault s = .next (takeWait w p s'))

/-! ### Scalar instructions -/

/-- The scalar instructions on two registers and on a register and an immediate complete where their operands can be taken (R42), and
write to G(d) what the reference gives: sums, differences and products modulo 2^64, bitwise results, the high half of the signed and
of the unsigned product, the smaller and the larger, shifts by g[b][5:0] or by the immediate, 1 or 0 for a condition, a selected register, LIH's
shifted immediate, moves from and to e registers (R91, R272, R280, R288, R318, R330, R350, R377; R323, R326, R329, R332, R336, R349, R355). -/
def Obligations.ScalarResults : Prop :=
  ∀ (s s' : State) (d a b : Reg),
    (Takes [a, b] (some d) s s' → let x := gval s' a; let y := gval s' b
      exec (.add d a b) s = .next (writesG 1 d (x + y) s') ∧ exec (.sub d a b) s = .next (writesG 1 d (x - y) s') ∧
      exec (.and d a b) s = .next (writesG 1 d (x &&& y) s') ∧ exec (.or d a b) s = .next (writesG 1 d (x ||| y) s') ∧
      exec (.xor d a b) s = .next (writesG 1 d (x ^^^ y) s') ∧ exec (.mul d a b) s = .next (writesG 1 d (x * y) s') ∧
      exec (.mulh d a b) s = .next (writesG 1 d ((x.signExtend 128 * y.signExtend 128).extractLsb' 64 64) s') ∧
      exec (.mulhu d a b) s = .next (writesG 1 d ((x.setWidth 128 * y.setWidth 128).extractLsb' 64 64) s') ∧
      exec (.shl d a b) s = .next (writesG 1 d (x <<< (y.extractLsb' 0 6).toNat) s') ∧
      exec (.shr d a b) s = .next (writesG 1 d (x >>> (y.extractLsb' 0 6).toNat) s') ∧
      exec (.sra d a b) s = .next (writesG 1 d (x.sshiftRight (y.extractLsb' 0 6).toNat) s') ∧
      exec (.min d a b) s = .next (writesG 1 d (if x.toInt ≤ y.toInt then x else y) s') ∧
      exec (.max d a b) s = .next (writesG 1 d (if x.toInt ≤ y.toInt then y else x) s') ∧
      exec (.minu d a b) s = .next (writesG 1 d (if x.toNat ≤ y.toNat then x else y) s') ∧
      exec (.maxu d a b) s = .next (writesG 1 d (if x.toNat ≤ y.toNat then y else x) s') ∧
      exec (.cmp .eq d a b) s = .next (writesG 1 d (if x = y then 1 else 0) s') ∧
      exec (.cmp .ne d a b) s = .next (writesG 1 d (if x = y then 0 else 1) s') ∧
      exec (.cmp .lt d a b) s = .next (writesG 1 d (if x.toInt < y.toInt then 1 else 0) s') ∧
      exec (.cmp .ge d a b) s = .next (writesG 1 d (if x.toInt < y.toInt then 0 else 1) s') ∧
      exec (.cmp .ltu d a b) s = .next (writesG 1 d (if x.toNat < y.toNat then 1 else 0) s') ∧
      exec (.cmp .geu d a b) s = .next (writesG 1 d (if x.toNat < y.toNat then 0 else 1) s')) ∧
    (Takes [d, a, b] (some d) s s' →
      exec (.sel d a b) s = .next (writesG 1 d (if gval s' d ≠ 0 then gval s' a else gval s' b) s')) ∧
    (Takes [a] (some d) s s' → ∀ (imm : BitVec 15) (sh : BitVec 6), let x := gval s' a
      exec (.addi d a imm) s = .next (writesG 1 d (x + imm.signExtend 64) s') ∧
      exec (.andi d a imm) s = .next (writesG 1 d (x &&& imm.setWidth 64) s') ∧
      exec (.ori d a imm) s = .next (writesG 1 d (x ||| imm.setWidth 64) s') ∧
      exec (.xori d a imm) s = .next (writesG 1 d (x ^^^ imm.setWidth 64) s') ∧
      exec (.shli d a sh) s = .next (writesG 1 d (x <<< sh.toNat) s') ∧
      exec (.shri d a sh) s = .next (writesG 1 d (x >>> sh.toNat) s') ∧
      exec (.srai d a sh) s = .next (writesG 1 d (x.sshiftRight sh.toNat) s') ∧
      exec (.movShort d a) s = .next (writesG 1 d x s')) ∧
    (Takes [d, a] (some d) s s' → let x := gval s' d; let y := gval s' a
      exec (.addShort d a) s = .next (writesG 1 d (x + y) s') ∧ exec (.subShort d a) s = .next (writesG 1 d (x - y) s') ∧
      exec (.andShort d a) s = .next (writesG 1 d (x &&& y) s') ∧ exec (.orShort d a) s = .next (writesG 1 d (x ||| y) s') ∧
      exec (.xorShort d a) s = .next (writesG 1 d (x ^^^ y) s')) ∧
    (Takes [d] (some d) s s' → ∀ sh : BitVec 6,
      exec (.addiShort d sh) s = .next (writesG 1 d (gval s' d + sh.signExtend 64) s') ∧
      exec (.shliShort d sh) s = .next (writesG 1 d (gval s' d <<< sh.toNat) s') ∧
      exec (.shriShort d sh) s = .next (writesG 1 d (gval s' d >>> sh.toNat) s')) ∧
    (Takes [] (some d) s s' → ∀ (imm : BitVec 20) (i : BitVec 6) (e : EReg),
      exec (.lih d imm) s = .next (writesG 1 d (BitVec.ofInt 64 (imm.toInt * 2 ^ 15)) s') ∧
      exec (.moviShort d i) s = .next (writesG 1 d (i.signExtend 64) s') ∧
      exec (.mxv d e) s = .next (writesG 1 d (eval s' e.toNat) s')) ∧
    (∀ e : EReg, Takes [a] none s s' → exec (.mvx e a) s = .next (endFall 1 (putE e.toNat (gval s' a) s')))

/-- The divisions complete in four turns (R33, R91, R297, R343): the quotient truncates toward zero and the remainder has the
dividend's sign; a division by 0 gives all ones and the dividend, and −2^63 by −1 gives −2^63 and 0. -/
def Obligations.DivisionResults : Prop :=
  ∀ (s s' : State) (d a b : Reg), Takes [a, b] (some d) s s' → let x := gval s' a; let y := gval s' b
    ∃ q r qu ru : Word,
      exec (.div d a b) s = .next (writesG 4 d q s') ∧ exec (.rem d a b) s = .next (writesG 4 d r s') ∧
      exec (.divu d a b) s = .next (writesG 4 d qu s') ∧ exec (.remu d a b) s = .next (writesG 4 d ru s') ∧
      (y = 0 → q = BitVec.allOnes 64 ∧ r = x ∧ qu = BitVec.allOnes 64 ∧ ru = x) ∧
      (y ≠ 0 → qu.toNat = x.toNat / y.toNat ∧ ru.toNat = x.toNat % y.toNat ∧ r.toInt = x.toInt.tmod y.toInt ∧
        (x = BitVec.intMin 64 ∧ y = BitVec.allOnes 64 → q = BitVec.intMin 64 ∧ r = 0) ∧
        (¬ (x = BitVec.intMin 64 ∧ y = BitVec.allOnes 64) → q.toInt = x.toInt.tdiv y.toInt))

/-- CLZ, CTZ and POPC complete and count: the zeros above the highest one bit, the zeros below the lowest, 64 for 0, and the one bits
(R91, R287, R295, R338). BFX and BFI complete (R283, R284): the field starts at bit pos = g[b][5:0] and has n bits, g[b][13:8] with 0
meaning 64, cut at bit 63; BFX moves it to bit 0 under zeros, BFI puts the low n bits of g[a] there and keeps the other bits of g[d].
A CLZ, CTZ or POPC with a nonzero b field is no instruction: its word does not decode, and traps ILLEGAL. -/
def Obligations.BitResults : Prop :=
  ∀ (s s' : State) (d a b : Reg),
    let x := gval s' a
    let pos := ((gval s' b).extractLsb' 0 6).toNat
    let len := ((gval s' b).extractLsb' 8 6).toNat
    let n := min (if len = 0 then 64 else len) (64 - pos)
    (Takes [a] (some d) s s' →
      ∃ z t p : Nat, exec (.clz d a) s = .next (writesG 1 d (BitVec.ofNat 64 z) s') ∧
        exec (.ctz d a) s = .next (writesG 1 d (BitVec.ofNat 64 t) s') ∧
        exec (.popc d a) s = .next (writesG 1 d (BitVec.ofNat 64 p) s') ∧
        (x = 0 → z = 64 ∧ t = 64) ∧
        (x ≠ 0 → z < 64 ∧ x.getLsbD (63 - z) = true ∧ (∀ i, 63 - z < i → x.getLsbD i = false) ∧
          x.getLsbD t = true ∧ (∀ i, i < t → x.getLsbD i = false)) ∧
        p = ((List.range 64).filter (fun i => x.getLsbD i)).length) ∧
    (Takes [a, b] (some d) s s' → ∃ v : Word, exec (.bfx d a b) s = .next (writesG 1 d v s') ∧
      ∀ i, i < 64 → v.getLsbD i = (decide (i < n) && (gval s' a).getLsbD (pos + i))) ∧
    (Takes [d, a, b] (some d) s s' → ∃ v : Word, exec (.bfi d a b) s = .next (writesG 1 d v s') ∧
      ∀ i, i < 64 → v.getLsbD i = if pos ≤ i ∧ i < pos + n then (gval s' a).getLsbD (i - pos) else (gval s' d).getLsbD i) ∧
    ∀ (i : Instr) (bf : BitVec 5), (i = .clz d a ∨ i = .ctz d a ∨ i = .popc d a) → bf ≠ 0 →
      decodeTableWord 32 (encodeNat i + bf.toNat * 2 ^ 17) = none ∧
      exec .undecodableWord s = .next (takeTrap ⟨.illegal, 0, illegalAux s, 0⟩ s)

/-- When the operands can be taken: no bound queue among the registers of the fields, none of those read poisoned, and nothing changes; g0
reads 0, the other g registers and the unbound c registers read what they hold (R5, R36). A poisoned register that is read traps MEM_POISON,
by the model's reading (log 70). Of a c register bound to a queue an instruction takes the oldest
entry once, however many of its fields name the register; on an empty queue, or one whose oldest entry is reserved and not filled, it
waits QEMPTY with the register as peer, and the queue stays as it was (R42). That a reader waits for the oldest entry, whatever younger
ones hold, is the model's choice (log 49). -/
def Obligations.OperandsTaken : Prop :=
  ∀ (s : State) (srcs : List Reg) (dst : Option Reg), s.cur.pops = [] →
    ((∀ r, (r ∈ srcs ∨ dst = some r) → 16 ≤ r.toNat → findQueue (curCore s) false (r.toNat - 16) = none) →
      (∀ r ∈ srcs, isPoisoned s false r = false) → Takes srcs dst s s ∧ gval s 0 = 0 ∧
      (∀ r : Reg, r ≠ 0 → r.toNat < 16 → gval s r = (curSlot s).g[r.toNat]?.getD 0) ∧
      (∀ r : Reg, 16 ≤ r.toNat → gval s r = (curCore s).c[r.toNat - 16]?.getD 0)) ∧
    ∀ (r : Reg) (q : Queue), 16 ≤ r.toNat → findQueue (curCore s) false (r.toNat - 16) = some q →
      (∀ e rest v, q.entries = e :: rest → e.value = some v → ∃ s', Takes [r, r] none s s' ∧ gval s' r = BitVec.ofNat 64 v ∧
        s'.cur.pops.length = 1 ∧ s' = { s with cur := s'.cur }) ∧
      ((q.entries = [] ∨ ∃ e rest, q.entries = e :: rest ∧ e.value = none) →
        Waits (useG [r] none) s { reason := .qempty, peer := r.toNat, key := 0 } .none s) ∧
    ∀ r : Reg, (16 ≤ r.toNat → findQueue (curCore s) false (r.toNat - 16) = none) → isPoisoned s false r = true →
      Traps (useG [r] none) s ⟨.memPoison, 0, 0, 0⟩ s

/-- What the end of a scalar instruction does with its result (R33, R36, R37, R46). The PC moves past the instruction where no loop
ends there; g[d] holds the value, and g0 stays as it was; a c register that is not bound keeps its value until the writeback point
8t − 1, for which one write is left; a queue that a c register stands for has one more entry, reserved now and filled then. At one
cycle, two writebacks to one c register leave the value of the higher-numbered slot, in whichever order they were issued.
Which effects come at issue is the model's reading (log 17). -/
def Obligations.RegisterWrite : Prop :=
  (∀ (s : State) (c r i j due : Nat) (x y : Word), r < 16 → i < j → due < ticksOf s c →
    ((coreOf s c).wb = [⟨due, i, .c r x, none⟩, ⟨due, j, .c r y, none⟩] ∨
      (coreOf s c).wb = [⟨due, j, .c r y, none⟩, ⟨due, i, .c r x, none⟩]) →
    (coreOf (flushWb c s) c).c[r]? = some y) ∧
  ∀ (s : State) (t : Nat) (d : Reg) (v : Word), s.cur.pops = [] →
    ((∀ l ∈ (curSlot s).loops, l.last ≠ (curSlot s).pc) →
      (slotOf (writesG t d v s) s.cur.core s.cur.slot).pc = (curSlot s).pc + (if s.cur.long then 4 else 2)) ∧
    (slotOf (writesG t d v s) s.cur.core s.cur.slot).readyAt = ticksOf s s.cur.core + 8 * t ∧
    (d ≠ 0 → d.toNat < 16 → (slotOf (writesG t d v s) s.cur.core s.cur.slot).g[d.toNat]? = some v ∧
      (coreOf (writesG t d v s) s.cur.core).wb = (curCore s).wb) ∧
    (d = 0 → (slotOf (writesG t d v s) s.cur.core s.cur.slot).g = (curSlot s).g ∧
      (coreOf (writesG t d v s) s.cur.core).wb = (curCore s).wb) ∧
    (16 ≤ d.toNat → findQueue (curCore s) false (d.toNat - 16) = none →
      (coreOf (writesG t d v s) s.cur.core).c = (curCore s).c ∧
      (coreOf (writesG t d v s) s.cur.core).wb =
        (curCore s).wb ++ [⟨ticksOf s s.cur.core + 8 * t - 1, s.cur.slot, .c (d.toNat - 16) v, none⟩]) ∧
    (∀ q, 16 ≤ d.toNat → findQueue (curCore s) false (d.toNat - 16) = some q →
      findQueue (coreOf (writesG t d v s) s.cur.core) false (d.toNat - 16) =
        some { q with entries := q.entries ++ [⟨q.ticket, none⟩], ticket := q.ticket + 1 } ∧
      (coreOf (writesG t d v s) s.cur.core).wb =
        (curCore s).wb ++ [⟨ticksOf s s.cur.core + 8 * t - 1, s.cur.slot, .fill false (d.toNat - 16) q.ticket v.toNat, none⟩])

/-- The frame of every scalar instruction that completes (R6, R270, R301): nothing of the package changes but the issuing core; there
nothing but queues and pending writebacks, and of the issuing thread nothing but its PC and its loops with their counters (R46), its
pace, and g[d], for MVX e[N]. No flag, no other register, no memory changes.
Which effects come at issue is the model's reading (log 17). -/
def Obligations.ScalarFrame : Prop :=
  ∀ (s s' : State) (t : Nat) (srcs : List Reg) (d : Reg) (v : Word), s.cur.pops = [] → Takes srcs (some d) s s' →
    OnlyG d s (writesG t d v s') ∧ (∀ h, byteAt (writesG t d v s') h = byteAt s h) ∧
    (slotOf (writesG t d v s') s.cur.core s.cur.slot).fflags = (curSlot s).fflags ∧ (writesG t d v s').cur.pops = [] ∧
    ∀ (e : EReg) (a : Reg) (s'' : State), Takes [a] none s s'' →
      let u := endFall 1 (putE e.toNat (gval s'' a) s'')
      OnlyIssuer s u ∧ (∀ k, k ≠ s.cur.slot → slotOf u s.cur.core k = slotOf s s.cur.core k) ∧ (∀ h, byteAt u h = byteAt s h) ∧
      (slotOf u s.cur.core s.cur.slot).e = (curSlot s).e.setIfInBounds e.toNat (gval s'' a) ∧
      (slotOf u s.cur.core s.cur.slot).g = (curSlot s).g ∧ (slotOf u s.cur.core s.cur.slot).v = (curSlot s).v ∧
      (slotOf u s.cur.core s.cur.slot).sg = (curSlot s).sg ∧ (slotOf u s.cur.core s.cur.slot).fflags = (curSlot s).fflags

/-! ### Control flow -/

/-- A branch completes: taken, at its PC plus twice the signed offset; else past the instruction (R62, R285). BEQZ and BNEZ compare
g[d] with 0. NOP only advances the PC (R334). -/
def Obligations.BranchResults : Prop :=
  ∀ (s s' : State) (a b d : Reg) (off : BitVec 12) (o6 : BitVec 6),
    (Takes [a, b] none s s' → let x := gval s' a; let y := gval s' b
      let go := endGoto 1 (curPc s' + off.signExtend 64 * 2) s'; let on := endFall 1 s'
      exec (.br .eq a b off) s = .next (if x = y then go else on) ∧ exec (.br .ne a b off) s = .next (if x = y then on else go) ∧
      exec (.br .lt a b off) s = .next (if x.toInt < y.toInt then go else on) ∧
      exec (.br .ge a b off) s = .next (if x.toInt < y.toInt then on else go) ∧
      exec (.br .ltu a b off) s = .next (if x.toNat < y.toNat then go else on) ∧
      exec (.br .geu a b off) s = .next (if x.toNat < y.toNat then on else go)) ∧
    (Takes [d, 0] none s s' →
      let go := endGoto 1 (curPc s' + o6.signExtend 64 * 2) s'; let on := endFall 1 s'
      exec (.beqzShort d o6) s = .next (if gval s' d = 0 then go else on) ∧
      exec (.bnezShort d o6) s = .next (if gval s' d = 0 then on else go)) ∧
    exec .nop s = .next (endFall 1 s) ∧ exec .nopShort s = .next (endFall 1 s)

/-- The jumps complete (R305, R306): the link, the PC plus the instruction's own size, goes to G(d); JAL goes to its PC plus twice its
signed offset, JR to the even address that g[a] held at issue; the short JR links nothing. A jump to an odd address traps MISALIGN with
2 in AUX, and G(d) is unchanged (R55). -/
def Obligations.JumpResults : Prop :=
  ∀ (s s' : State) (d a : Reg) (off : BitVec 20),
    (Takes [] (some d) s s' → exec (.jal d off) s =
      .next (endGoto 1 (curPc s' + off.signExtend 64 * 2) (putG (wbPoint s' 1) d (curPc s' + (if s'.cur.long then 4 else 2)) s'))) ∧
    (Takes [a] (some d) s s' → (gval s' a).getLsbD 0 = false →
      let t := endGoto 1 (gval s' a) (putG (wbPoint s' 1) d (curPc s' + (if s'.cur.long then 4 else 2)) s')
      exec (.jr d a) s = .next t ∧ exec (.jalShort d a) s = .next t) ∧
    (Takes [a] (some 0) s s' → (gval s' a).getLsbD 0 = false → exec (.jrShort a) s = .next (endGoto 1 (gval s' a) s')) ∧
    (Takes [a] (some d) s s' → (gval s' a).getLsbD 0 = true → exec (.jr d a) s = .next (takeTrap ⟨.misalign, 0, 2, 0⟩ s') ∧
      exec (.jalShort d a) s = .next (takeTrap ⟨.misalign, 0, 2, 0⟩ s')) ∧
    (Takes [a] (some 0) s s' → (gval s' a).getLsbD 0 = true → exec (.jrShort a) s = .next (takeTrap ⟨.misalign, 0, 2, 0⟩ s'))

/-- The loops count at their last body instruction (R46). The innermost loop that ends there repeats while its counter is above 1: the
counter falls by one, the PC goes to the loop's start, no loop around it counts. Else its counter becomes 0, the loop is active no
longer, and the enclosing loop counts when it shares that `last`. An instruction that ends no loop changes none. A jump or a taken
branch sets the PC and ends each loop whose body does not hold the target and every loop inside it. -/
def Obligations.LoopsCount : Prop :=
  (∀ (last seq : Word) (lc : Vector Word 3) (l : LoopState) (outer : List LoopState), outer.length < 3 →
    (l.last ≠ last → countLoops last seq lc (l :: outer) = (seq, l :: outer, lc)) ∧
    (l.last = last → 1 < lc[outer.length]?.getD 0 →
      countLoops last seq lc (l :: outer) = (l.start, l :: outer, lc.setIfInBounds outer.length (lc[outer.length]?.getD 0 - 1))) ∧
    (l.last = last → lc[outer.length]?.getD 0 ≤ 1 →
      countLoops last seq lc (l :: outer) = countLoops last seq (lc.setIfInBounds outer.length 0) outer) ∧
    countLoops last seq lc [] = (seq, [], lc)) ∧
  ∀ (s : State) (t : Nat) (pc : Word), s.cur.pops = [] →
    (slotOf (endGoto t pc s) s.cur.core s.cur.slot).pc = pc ∧
    (slotOf (endGoto t pc s) s.cur.core s.cur.slot).lc = (curSlot s).lc ∧
    (slotOf (endGoto t pc s) s.cur.core s.cur.slot).loops <+: (curSlot s).loops ∧
    (∀ l ∈ (slotOf (endGoto t pc s) s.cur.core s.cur.slot).loops, l.holds pc = true) ∧
    (∀ l, (curSlot s).loops[(slotOf (endGoto t pc s) s.cur.core s.cur.slot).loops.length]? = some l → l.holds pc = false)

/-- LOOP completes (R45, R319): the level is the number of active loops and below 3, the body holds at most 256 instructions and
ends at or before the end of the enclosing body. A count other than 0 makes the loop active with LCn the count; a count of 0 sets LCn
to 0 and goes on after `last`; that no enclosing loop then counts is the model's reading (log 21). A fourth level, a level that is not
the depth, or an end below 2 traps LOOP. -/
def Obligations.LoopStarts : Prop :=
  ∀ (s s1 s' : State) (a : Reg) (level : BitVec 2) (ci : Bool) (endoff : BitVec 9) (cnt : BitVec 8) (count : Nat) (long : Bool),
    ((level = 3 ∨ level.toNat ≠ (curSlot s).loops.length ∨ endoff.toNat < 2) →
      exec (.loop a level ci endoff cnt) s = .next (takeTrap ⟨.loop, 0, 0, 0⟩ s)) ∧
    (level ≠ 3 → level.toNat = (curSlot s).loops.length → 2 ≤ endoff.toNat →
    Ends (readBody (curPc s + 4) (endoff.toNat - 2) 512 0 0) s (some (count, long)) s1 → count ≤ 256 →
    (∀ l, (curSlot s).loops.getLast? = some l → ¬ l.last < LoopState.last ⟨curPc s + 4, endoff.toNat, long⟩) →
    Takes (if ci then [] else [a]) none s1 s' →
    let v := if ci then cnt.setWidth 64 else gval s' a
    let l : LoopState := ⟨curPc s + 4, endoff.toNat, long⟩
    (v ≠ 0 → exec (.loop a level ci endoff cnt) s = .next (endFall 1 (setCurSlot s' { curSlot s' with
      loops := (curSlot s').loops ++ [l], lc := (curSlot s').lc.setIfInBounds level.toNat v }))) ∧
    (v = 0 → ∃ t, exec (.loop a level ci endoff cnt) s = .next t ∧
      (slotOf t s'.cur.core s'.cur.slot).pc = l.last + (if long then 4 else 2) ∧
      (slotOf t s'.cur.core s'.cur.slot).loops = (slotOf s' s'.cur.core s'.cur.slot).loops ∧
      (slotOf t s'.cur.core s'.cur.slot).lc = (slotOf s' s'.cur.core s'.cur.slot).lc.setIfInBounds level.toNat 0))

/-- LEXIT completes where a loop is active (R317): the innermost loop ends with its counter as it was, and the PC goes on after that
loop's `last`, where the enclosing loops count as R46 gives. With no loop active it traps LOOP. -/
def Obligations.LoopExitResult : Prop :=
  (∀ s : State, (curSlot s).loops = [] → exec .lexit s = .next (takeTrap ⟨.loop, 0, 0, 0⟩ s) ∧
    exec .lexitShort s = .next (takeTrap ⟨.loop, 0, 0, 0⟩ s)) ∧
  ∀ (s : State) (l : LoopState) (outer : List LoopState), s.cur.pops = [] → (curSlot s).loops = outer ++ [l] →
    ∃ t, exec .lexit s = .next t ∧ exec .lexitShort s = .next t ∧
      let r := countLoops l.last (l.last + (if l.long then 4 else 2)) (curSlot s).lc outer.reverse
      (slotOf t s.cur.core s.cur.slot).pc = r.1 ∧ (slotOf t s.cur.core s.cur.slot).loops = r.2.1.reverse ∧
      (slotOf t s.cur.core s.cur.slot).lc = r.2.2 ∧ (slotOf t s.cur.core s.cur.slot).g = (curSlot s).g ∧
      OnlyIssuer s t ∧ (∀ h, byteAt t h = byteAt s h) ∧
      ((∀ m ∈ outer, m.last ≠ l.last) → (slotOf t s.cur.core s.cur.slot).lc = (curSlot s).lc ∧
        (slotOf t s.cur.core s.cur.slot).loops = outer ∧
        (slotOf t s.cur.core s.cur.slot).pc = l.last + (if l.long then 4 else 2))

/-- The frame of branches, jumps, LOOP and NOP that complete: of the package only the issuing core changes, of its thread only the PC,
the loops with their counters, the pace, and the link register; no flag, no memory (R285, R305, R306, R334). -/
def Obligations.ControlFrame : Prop :=
  ∀ (s s' : State) (srcs : List Reg) (d : Reg) (v pc : Word), s.cur.pops = [] →
    (Takes srcs (some d) s s' →
      OnlyG d s (endGoto 1 pc (putG (wbPoint s' 1) d v s')) ∧
      (∀ h, byteAt (endGoto 1 pc (putG (wbPoint s' 1) d v s')) h = byteAt s h)) ∧
    (Takes srcs none s s' →
      OnlyG 0 s (endGoto 1 pc s') ∧ OnlyG 0 s (endFall 1 s') ∧ (∀ h, byteAt (endGoto 1 pc s') h = byteAt s h) ∧
      (∀ h, byteAt (endFall 1 s') h = byteAt s h))

/-! ### Memory -/

/-- Loads complete where their operands can be taken, the checks of R98 pass and the bytes come (R310 to R315). LD and LD.ACQ write to
G(d) the element, sign-extended for the s formats below 64 bits, else zero-extended; LDV fills the packet of V(d) by the row of its
format, and pushes it where V(d) is a write stream, with no flag (R41, R85); LDX fills e registers with consecutive dwords; LEA gives the offset itself where it lies in the segment; PREF passes.
That the bytes come at once where the move says so is the model's reading (log 23). -/
def Obligations.LoadResults : Prop :=
  ∀ (s s1 s2 s3 : State) (d a : Reg) (sg : SReg) (fmt : Fmt) (disp : BitVec 8) (ps : List Piece) (v : Nat),
    (Takes [a] (some d) s s1 →
      let off : Int := (gval s1 a).toNat + disp.toInt * (Fmt.bytes fmt : Nat)
      let x := ownAccess s1 sg.toNat off (Fmt.bytes fmt) (Fmt.bytes fmt) true false
      let w : Word := match fmt with
        | .s8 => (BitVec.ofNat 8 v).signExtend 64
        | .s16 => (BitVec.ofNat 16 v).signExtend 64
        | .s32 => (BitVec.ofNat 32 v).signExtend 64
        | _ => BitVec.ofNat 64 v
      (Ends (checkAccess x) s1 ps s2 → Ends (loadBytes x ps (.load false ps (.g d fmt))) s2 v s3 →
        exec (.ld d sg a fmt disp) s = .next (writesG 1 d w s3)) ∧
      (Ends (checkAccess x) s1 ps s2 → Ends (loadBytes x ps (.load true ps (.g d fmt))) s2 v s3 →
        exec (.ldAcq d sg a fmt disp) s = .next (writesG 1 d w (closeCombining (threadId x.core x.slot) s3))) ∧
      (0 ≤ off → off < 2 ^ 64 → off + (Fmt.bytes fmt : Nat) ≤ x.seg.limit.toNat →
        x.seg.base.toNat + off + (Fmt.bytes fmt : Nat) ≤ spaceTop x.seg.space →
        exec (.lea d sg a fmt disp) s = .next (writesG 1 d (BitVec.ofInt 64 off) s1))) ∧
    (Takes [a] (some d) s s1 →
      let x := ownAccess s1 0 (gval s1 a).toNat 8 8 true false
      Ends (checkAccess x) s1 ps s2 → Ends (loadBytes x ps (.load false ps (.g d .s64))) s2 v s3 →
        exec (.ldShort d a) s = .next (writesG 1 d (BitVec.ofNat 64 v) s3)) ∧
    (∀ s0, Takes [a] none s s0 → Ends (reserveV d) s0 () s1 →
      let x := packetAccess s1 sg a fmt disp (niFetched fmt (curSlot s1).frm) false
      let y := packetOfBytes fmt (curSlot s1).frm (Fmt.lanes fmt) v
      let note := fun (s : State) => { s with cur := { s.cur with sg := x.sg, addr := x.va } }
      Ends (checkAccess x) s1 ps s2 →
      (findStream s2 s2.cur.core s2.cur.slot d.toNat = none → Ends (loadBytes x ps (.load false ps (.v d fmt []))) (note s2) v s3 →
        exec (.ldv d sg a fmt disp) s = .next (endFall 1 (putV (wbPoint s3 1) d y s3))) ∧
      ∀ p s4 t, Ends (openPush d) s2 (some p) s4 → (slotOf s4 s4.cur.core p.binder).buffered < 8 →
        Ends (loadBytes x ps (.load false ps (.v d fmt p.pieces))) (note s4) v s3 → Ends (p.perform (wbPoint s1 1) y 0) s3 () t →
        exec (.ldv d sg a fmt disp) s = .next (endFall 1 t)) ∧
    (∀ (e : EReg) (cnt : BitVec 4), Takes [a] none s s1 →
      let n := cnt.toNat + 1
      let off : Int := (gval s1 a).toNat + disp.toInt * 8
      let x := { ownAccess s1 sg.toNat off (8 * n) 8 true false with
        spans := (List.range n).map (fun (j : Nat) => (off + 8 * (j : Int), 8)) }
      (slotOf s2 x.core x.slot).stores = [] →
      Ends (checkAccess x) s1 ps s2 → Ends (loadBytes x ps (.load false ps (.e e.toNat n))) s2 v s3 →
        exec (.ldx e cnt sg a disp) s = .next (endFall 1 (putERun e.toNat ((cutBits 64 v n).map (BitVec.ofNat 64)) s3))) ∧
    (Takes [a] none s s1 → exec (.pref sg a) s = .next (endFall 1 s1))

/-- What a load brings from a place of this package with no buffered store of the thread before it: the bytes that stand there,
little-endian, the first piece lowest; and nothing changes but which later loads may combine (R2, R99, R110, R120). A scratchpad load completes (R97 to R100, R310, R311): through a SCRATCH segment with R, at an aligned offset whose bytes lie within
the limit and the scratchpad and outside the message ring, LD writes to G(d) the bytes at base + offset of the issuing core's
scratchpad, extended by its format. Every byte of memory stays as it was.
That the bytes come at once where the move says so is the model's reading (log 23). -/
def Obligations.LoadsReadTheirHomes : Prop :=
  (∀ (s : State) (x : Access) (ps : List Piece) (pend : Pending), (∀ p ∈ ps, p.plain s ∧ readsAhead s x.core p = false) →
     (slotOf s x.core x.slot).stores = [] → s.cur.defer = false →
     ∃ s', Ends (loadBytes x ps pend) s (piecesAt s ps) s' ∧ s' = { s with reads := s'.reads }) ∧
  ∀ (s s1 : State) (d a : Reg) (sg : SReg) (fmt : Fmt) (disp : BitVec 8), Takes [a] (some d) s s1 → fmt.scalar = true →
    let n := Fmt.bytes fmt
    let off : Int := (gval s1 a).toNat + disp.toInt * (n : Nat)
    let seg : Seg := (curSlot s1).sg[sg.toNat]?.getD {}
    let A := seg.base.toNat + off.toNat
    let v := widenG fmt (memRead (curCore s1).scratch A n)
    seg.space = 2 → seg.r = true → 0 ≤ off → off + (n : Nat) ≤ seg.limit.toNat → A + n ≤ 0x3C000 → A % n = 0 →
    A / 64 ∉ (curCore s1).scratchPoison → (curSlot s1).stores = [] →
    ∃ s2, exec (.ld d sg a fmt disp) s = .next (writesG 1 d v s2) ∧ s2 = { s1 with reads := s2.reads, cur := s2.cur } ∧
      s2.cur.pops = s1.cur.pops ∧ s2.cur.core = s1.cur.core ∧ s2.cur.slot = s1.cur.slot ∧ s2.cur.long = s1.cur.long ∧
      ∀ h, byteAt (writesG 1 d v s2) h = byteAt s1 h

/-- The first checks of every access, in the order of R98: the limit and the space (SEGMENT), the segment's R and W (RIGHTS, with the
segment register in AUX and 16 more for a store), what SCRATCH bars (RIGHTS; R99, R100), the alignment (MISALIGN). Each is decided only where
those before it pass, and it leaves the state as it was. That ADDR is the offset also for what SCRATCH bars is the model's reading (log
37). -/
def Obligations.SegmentChecksInOrder : Prop :=
  ∀ (s : State) (x : Access),
    let inside := x.spans.all (inSegment x.seg)
    let mayLoad := !x.load || x.seg.r
    let mayStore := !x.store || x.seg.w
    let barred := x.seg.space == 2 && (x.isAmo || scratchBarred s x)
    (inside = false → Traps (checkAccess x) s ⟨.segment, x.addr, BitVec.ofNat 64 x.sg, x.sg⟩ s) ∧
    (inside = true → mayLoad = false → Traps (checkAccess x) s ⟨.rights, x.addr, BitVec.ofNat 64 x.sg, x.sg⟩ s) ∧
    (inside = true → mayLoad = true → mayStore = false →
      Traps (checkAccess x) s ⟨.rights, x.addr, BitVec.ofNat 64 (x.sg + 16), x.sg⟩ s) ∧
    (inside = true → mayLoad = true → mayStore = true → barred = true →
      Traps (checkAccess x) s ⟨.rights, x.addr, BitVec.ofNat 64 (x.sg + 48), x.sg⟩ s) ∧
    (inside = true → mayLoad = true → mayStore = true → barred = false → x.alignedBy.getD (segAddr x.seg x.off) % x.align ≠ 0 →
      Traps (checkAccess x) s ⟨.misalign, x.addr, BitVec.ofNat 64 x.align, x.sg⟩ s)


/-- Stores complete where their operands can be taken, the checks pass and the store finds its place (R352 to R354). ST and ST.REL
store the low bytes of G(d), cut at the ends of lines; STV the packet of V(d) in the layout of its format, with the flags of its
conversion in FFLAGS; AMOV, in the commons alone, its packet for the bank to combine (R276).
That a store finds its place at once where the move says so is the model's reading (log 23). -/
def Obligations.StoreResults : Prop :=
  ∀ (s s1 s2 s3 : State) (d a : Reg) (sg : SReg) (fmt : Fmt) (disp : BitVec 8) (ps : List Piece),
    (Takes [a, d] none s s1 →
      let off : Int := (gval s1 a).toNat + disp.toInt * (Fmt.bytes fmt : Nat)
      let x := ownAccess s1 sg.toNat off (Fmt.bytes fmt) (Fmt.bytes fmt) false true
      let ws := writesOf ps (gval s1 d).toNat
      Ends (checkAccess x) s1 ps s2 →
      (Ends (storeBytes x (wbPoint s1 1) .plain ws false .store) s2 () s3 → exec (.st d sg a fmt disp) s = .next (endFall 1 s3)) ∧
      (Ends (storeBytes x (wbPoint s1 1) .plain ws true .store) s2 () s3 →
        exec (.stRel d sg a fmt disp) s = .next (endFall 1 s3))) ∧
    (Takes [a, d] none s s1 →
      let x := ownAccess s1 0 (gval s1 a).toNat 8 8 false true
      let ws := writesOf ps (gval s1 d).toNat
      Ends (checkAccess x) s1 ps s2 → Ends (storeBytes x (wbPoint s1 1) .plain ws false .store) s2 () s3 →
        exec (.stShort d a) s = .next (endFall 1 s3)) ∧
    (∀ s0, Takes [a] none s s0 → Ends (openV d) s0 () s1 →
      let x := packetAccess s1 sg a fmt disp (niPlanes fmt) true
      let b := bytesOfPacket fmt (curSlot s1).frm (Fmt.lanes fmt) (vval s1 d)
      let flags := realFlags s1 (Fmt.laneBits fmt) [d] b.2.2
      let ws := writesMasked ps b.1 b.2.1
      Ends (checkAccess x) s1 ps s2 → Ends (checkArith flags) s2 () s2 →
        Ends (storeBytes x (wbPoint s1 1) .plain ws false (.push · (flags.foldl orFlags 0))) s2 () s3 →
        exec (.stv d sg a fmt disp) s = .next (endFall 1 (raiseCur flags s3))) ∧
    (∀ s0 (op : AmovOp) (ty : LaneTy), Takes [a] none s s0 →
      let x := ownAccess s0 sg.toNat (gval s0 a).toNat 64 64 true true
      x.seg.space = 1 → Ends (checkAccess x) s0 ps s2 → Ends (openV d) s2 () s1 →
        Ends (enterStore x.slot (.amov op ty) (writesOf ps (vval s1 d).toNat) false (segAddr x.seg x.off)) s1 () s3 →
        exec (.amov op ty d sg a) s = .next (endFall 1 s3))

/-- A scratchpad store completes (R97 to R100, R352): through a SCRATCH segment with W, at an aligned offset whose bytes lie within the
limit and outside the message ring and the deque, ST leaves for the writeback point one write of the low bytes of G(d) at base +
offset of the issuing core's scratchpad. Until then every byte of memory is as it was; then those n bytes hold the value, and every
other byte is as it was. -/
def Obligations.ScratchStore : Prop :=
  ∀ (s s1 : State) (d a : Reg) (sg : SReg) (fmt : Fmt) (disp : BitVec 8), Takes [a, d] none s s1 → fmt.scalar = true →
    let n := Fmt.bytes fmt
    let off : Int := (gval s1 a).toNat + disp.toInt * (n : Nat)
    let seg : Seg := (curSlot s1).sg[sg.toNat]?.getD {}
    let A := seg.base.toNat + off.toNat
    let w : Wb := ⟨ticksOf s1 s1.cur.core + 7, s1.cur.slot, .scratch A n ((gval s1 d).toNat % 2 ^ (8 * n)) (fullMask n), none⟩
    seg.space = 2 → seg.w = true → 0 ≤ off → off + (n : Nat) ≤ seg.limit.toNat → A + n ≤ 0x3C000 → A % n = 0 →
    (A + n ≤ (curCore s1).dqbase.toNat ∨ (curCore s1).dqlim.toNat ≤ A ∨
      (curCore s1).dqlim.toNat ≤ (curCore s1).dqbase.toNat) →
    ∃ s2, exec (.st d sg a fmt disp) s = .next (endFall 1 (addWb (ticksOf s1 s1.cur.core + 7) w.act s2)) ∧
      s2 = { s1 with cur := s2.cur } ∧ s2.cur.pops = s1.cur.pops ∧ s2.cur.core = s1.cur.core ∧ s2.cur.slot = s1.cur.slot ∧
      (∀ h, byteAt (endFall 1 (addWb (ticksOf s1 s1.cur.core + 7) w.act s2)) h = byteAt s1 h) ∧
      ∀ u : State, Memory.wf (coreOf u s1.cur.core).scratch = true → A / 64 ∉ (coreOf u s1.cur.core).scratchPoison →
        memRead (coreOf (applyWb s1.cur.core u w) s1.cur.core).scratch A n = (gval s1 d).toNat % 2 ^ (8 * n) ∧
        ∀ h, ¬ h.within (.scratch s1.cur.core A) n → byteAt (applyWb s1.cur.core u w) h = byteAt u h

/-- A store of DIE or PKG class completes by entering its thread's buffer, where that has room (R121): entries at its end that stand
for the store's place in program order, one for each die on which a part of it is ordered, and with them each of its writes; a store of
one die makes one entry, with its class and its die. No memory changes, and nothing else but which later loads may combine. With eight
stores in the buffer it waits MEM. A buffered store is performed at its home: where no entry before it holds it back, its bytes are plain
its granule in the commons is still tagged with its estate (R108) and its core is not halted, the bytes its mask selects are written, every byte outside its writes stays as it was, and the entry leaves
the buffer. -/
def Obligations.BufferedStores : Prop :=
  (∀ (s : State) (core slot idx : Nat) (e : StoreEntry) (p : Piece) (data : Nat), s.memOk = true →
    (slotOf s core slot).stores[idx]? = some e → mayPerform ((slotOf s core slot).stores.take idx) e = true →
    clusterOf core ∉ s.halted → e.kind = .plain → e.writes = [⟨p, data, fullMask p.n⟩] → p.plain s →
    (∀ c o, p.home ≠ .scratch c o) → (∀ a, p.home = .commons a → tagOf s (a / 64) = some e.estate) →
    ∃ t, exec (.storeBufferPerform core slot idx) s = .next t ∧ bytesAt t p.home p.n = data % 2 ^ (8 * p.n) ∧
      (∀ h, ¬ h.within p.home p.n → byteAt t h = byteAt s h) ∧
      slotOf t core slot = { slotOf s core slot with
        stores := (slotOf s core slot).stores.take idx ++ (slotOf s core slot).stores.drop (idx + 1) }) ∧
  ∀ (s : State) (x : Access) (due : Nat) (kind : StoreKind) (w : Write) (ws : List Write) (release : Bool)
    (pend : List Write → Pending), x.slot = s.cur.slot → w.piece.home.cls s.cur.core ≠ .core →
    (∀ v ∈ w :: ws, v.piece.home.sys = false) →
    ((curSlot s).buffered < 8 → ∃ s' es, Ends (storeBytes x due kind (w :: ws) release pend) s () s' ∧
      s' = { setCurSlot s { curSlot s with stores := (curSlot s).stores ++ es, storeSeq := (curSlot s).storeSeq + 1 } with
        reads := s'.reads } ∧
      (∀ e ∈ es, e.kind = kind ∧ e.release = release ∧ e.seq = (curSlot s).storeSeq ∧ e.barrier = none ∧ e.ready = true ∧
        ∀ v ∈ e.writes, v ∈ w :: ws ∧ v.piece.die s.cur.core = e.die) ∧
      (∀ v ∈ w :: ws, ∃ e ∈ es, v ∈ e.writes) ∧
      ((∀ v ∈ ws, v.piece.die s.cur.core = w.piece.die s.cur.core) → ∃ e, es = [e] ∧ e.writes = w :: ws ∧
        e.cls = w.piece.cls s.cur.core ∧ e.die = w.piece.die s.cur.core) ∧
      (∀ h, byteAt s' h = byteAt s h)) ∧
    (8 ≤ (curSlot s).buffered → Waits (storeBytes x due kind (w :: ws) release pend) s
      { reason := .mem, peer := w.piece.home.die, key := 8 } .none s)

/-- AMO completes at once where its home is plain, nothing of the thread's buffer and no bound read of its die comes before it, and its access passes (R273 to
R275): G(d) takes the old value, and the memory operand the new one: sum, bitwise result, signed or unsigned lesser or greater, the
new value, or for CAS the new value where the old equals G(d); with F32 codes for FADD, FMIN and FMAX. No other byte changes.
That the answer comes at once where the move says so is the model's reading (log 23). -/
def Obligations.AmoResult : Prop :=
  ∀ (s s1 s2 : State) (op : AmoOp) (ar : Bool) (scope : Scope) (d a b : Reg) (sg : SReg) (p : Piece),
    Takes (if op = .cas then [a, b, d] else [a, b]) (some d) s s1 →
    Ends (checkAccess (ownAccess s1 sg.toNat (gval s1 a).toNat (amoSize op) (amoSize op) true true)) s1 [p] s2 →
    p.plain s2 → s2.memOk = true → p.n = amoSize op → (curSlot s2).stores = [] → readsAhead s2 s1.cur.core p = false → s2.cur.defer = false →
    let old : Nat := bytesAt s2 p.home p.n
    let x : Word := BitVec.ofNat 64 old
    let y := gval s2 b
    let new : Word := match op with
      | .add => x + y | .and => x &&& y | .or => x ||| y | .xor => x ^^^ y
      | .min => if y.toInt < x.toInt then y else x | .max => if x.toInt < y.toInt then y else x
      | .minu => if y.toNat < x.toNat then y else x | .maxu => if x.toNat < y.toNat then y else x
      | .swap => y | .cas => if x = gval s2 d then y else x
      | .fadd => BitVec.ofNat 64 (addF fmtF32 .rne false old (y.toNat % 2 ^ 32)).1
      | .fmin => BitVec.ofNat 64 (minMaxF fmtF32 false false old (y.toNat % 2 ^ 32)).1
      | .fmax => BitVec.ofNat 64 (minMaxF fmtF32 false true old (y.toNat % 2 ^ 32)).1
    ∃ s3, exec (.amo op ar scope d sg a b) s = .next (writesG 1 d x s3) ∧
      bytesAt s3 p.home p.n = new.toNat % 2 ^ (8 * p.n) ∧ (∀ h, ¬ h.within p.home p.n → byteAt s3 h = byteAt s2 h)

/-- FENCE completes (R125, R302): FENCE.ACQ always; FENCE.REL always, each buffered store of its scope becoming a barrier entry; a full
FENCE once no buffered store is of its scope, and it waits MEM until then. From the writeback point of FENCE.ACQ and of a full FENCE of
scope PKG or SYS on, no later load of the thread combines with a read bound before. None of them changes memory or a register. -/
def Obligations.FenceResult : Prop :=
  (∀ (s : State) (c k due : Nat), applyWb c s ⟨due, k, .acquire, none⟩ =
    { s with reads := s.reads.map (fun r => { r with barred := threadId c k :: r.barred }) }) ∧
  ∀ (s : State) (scope : Scope),
    let w := if 2 ≤ Scope.rank scope then addWb (ticksOf s s.cur.core + 7) .acquire s else s
    exec (.fence .acq scope) s = .next (endFall 1 w) ∧
    exec (.fence .rel scope) s = .next (endFall 1 (setCurSlot s { curSlot s with stores := (curSlot s).stores.map (fun e =>
      if Scope.rank e.cls ≤ Scope.rank scope then { e with
        barrier := some (e.barrier.getD (curSlot s).storeSeq)
        fence := if e.barrier.isSome = true ∧ Scope.rank scope ≤ Scope.rank e.fence then e.fence else scope } else e) })) ∧
    ((∀ e ∈ (curSlot s).stores, Scope.rank scope < Scope.rank e.cls) → exec (.fence .full scope) s = .next (endFall 1 w)) ∧
    (∀ e rest, (curSlot s).stores.filter (fun e => Scope.rank e.cls ≤ Scope.rank scope) = e :: rest →
      exec (.fence .full scope) s = .next (takeWait { reason := .mem, peer := e.die, key := (curSlot s).buffered } .none s)) ∧
    (s.cur.pops = [] → ∀ h, byteAt (endFall 1 w) h = byteAt s h ∧
      (slotOf (endFall 1 w) s.cur.core s.cur.slot).g = (curSlot s).g)

/-- PIN and UNPIN complete (R107, R337). PIN of a place that is no line of this package's HBM, or of a space other than GLOBAL, gives
3. Of an HBM line it gives a status that is 0 exactly when the estate pins the line afterwards, at once where it pins it already; any
other status changes nothing. In a frame that the estate is leaving nothing is pinned any more, and the status is 3. UNPIN takes the line from
the estate's pins, where a walk finds its page in HBM, and else does nothing. That PIN is answered at once where the move says so is the
model's reading (log 23), and that UNPIN's checks are those of a read of 64 bytes is its choice (log 52). -/
def Obligations.PinResults : Prop :=
  ∀ (s s1 : State) (d a : Reg) (sg : SReg),
    let x := ownAccess s1 sg.toNat (gval s1 a).toNat 64 64 true false
    let va := segAddr x.seg x.off
    (Takes [a] (some d) s s1 → x.spans.all (inSegment x.seg) = true → x.seg.r = true → va % 64 = 0 →
      (x.seg.space ≠ 0 → exec (.pin d sg a) s = .next (writesG 1 d 3 s1)) ∧
      (x.seg.space = 0 → ∀ p0 p1 size s2, xlate s1 (clusterOf x.core) x.estate va (needs true false false) = (.page p0 p1 size, s2) →
        (∀ q, pteHome p0 p1 size va = .hbm q → q / 64 ∉ s2.hbmPoison → s2.cur.defer = false →
          ((entryOf s2 (parcelFrame (q / 2097152))).leaving = some x.estate → exec (.pin d sg a) s = .next (writesG 1 d 3 s2)) ∧
          ((entryOf s2 (parcelFrame (q / 2097152))).leaving ≠ some x.estate →
          ∃ n s3, exec (.pin d sg a) s = .next (writesG 1 d (BitVec.ofNat 64 n) s3) ∧ n ≤ 2 ∧
            (q / 64 ∈ (estateOf s2 x.estate).pins → n = 0 ∧ s3 = s2) ∧
            (n = 0 ↔ q / 64 ∈ (estateOf s3 x.estate).pins) ∧ (n ≠ 0 → s3 = s2) ∧
            s3 = { s2 with estates := s3.estates })) ∧
        ((∀ q, pteHome p0 p1 size va ≠ .hbm q) → exec (.pin d sg a) s = .next (writesG 1 d 3 s2)))) ∧
    (Takes [a] none s s1 → x.spans.all (inSegment x.seg) = true → x.seg.r = true →
      (x.seg.space ≠ 0 → exec (.unpin sg a) s = .next (endFall 1 s1)) ∧
      (x.seg.space = 0 → ∀ e l p0 p1 ls q, walk s1 x.estate va = (.leaf e l p0 p1, ls) →
        pteHome p0 p1 (pageBytes (pteSize p0)) va = .hbm q →
        exec (.unpin sg a) s = .next (endFall 1 (setEstate s1 x.estate
          { estateOf s1 x.estate with pins := (estateOf s1 x.estate).pins.filter (· != q / 64) }))) ∧
      (x.seg.space = 0 → (∀ e l p0 p1 ls, walk s1 x.estate va ≠ (.leaf e l p0 p1, ls)) →
        exec (.unpin sg a) s = .next (endFall 1 s1)))

/-- A translation that no TLB entry serves and whose walk ends in a leaf with the rights needed (R112, R113): it answers the leaf with
ACCESSED set, and DIRTY for a store, and so the leaf stands in memory, in each of the sixteen entries of a 64 KiB page; every other byte is
as it was. A leaf in a poisoned or a lost line cannot be written, and no byte changes (R110, R240). Without the rights, or without a leaf, no
byte changes; that a refused right leaves ACCESSED unset is the model's reading (log 37). -/
def Obligations.TranslationMarksTheLeaf : Prop :=
  ∀ (s : State) (port est va : Nat) (need : Word), Memory.wf s.hbm = true →
    ((tlbOf s port).find? (fun t => t.estate == est && va / t.size == t.page && (!pteW need || pteDirty t.pte0))) = none →
    (∀ level e p0 p1 ls, walk s est va = (.leaf level e p0 p1, ls) → p0 &&& need = need →
      let p := p0 ||| 0x80 ||| (if pteW need then 0x100 else 0)
      let base := e / 256 * 256
      let whole := fun (l : Nat) => l ∉ s.hbmPoison ∧ (∀ x ∈ s.lostLines, x.1 ≠ l) ∧ l ∉ s.hostHeld
      (xlate s port est va need).1 = .page p p1 (pageBytes (pteSize p0)) ∧
      (pteSize p ≠ 1 → whole (e / 64) → memRead (xlate s port est va need).2.hbm e 8 = p.toNat ∧
        ∀ a, a < e ∨ e + 8 ≤ a → memGet (xlate s port est va need).2.hbm a = memGet s.hbm a) ∧
      (pteSize p ≠ 1 → e / 64 ∉ s.hostHeld → (e / 64 ∈ s.hbmPoison ∨ ∃ x ∈ s.lostLines, x.1 = e / 64) →
        (xlate s port est va need).2.hbm = s.hbm) ∧
      (pteSize p = 1 → (∀ i, i < 16 → whole ((base + 16 * i) / 64)) →
        (∀ i, i < 16 → memRead (xlate s port est va need).2.hbm (base + 16 * i) 8 = p.toNat) ∧
        ∀ a, (∀ i, i < 16 → a < base + 16 * i ∨ base + 16 * i + 8 ≤ a) →
          memGet (xlate s port est va need).2.hbm a = memGet s.hbm a)) ∧
    (∀ level e p0 p1 ls, walk s est va = (.leaf level e p0 p1, ls) → p0 &&& need ≠ need →
      (xlate s port est va need).1 = .page p0 p1 (pageBytes (pteSize p0)) ∧ (xlate s port est va need).2.hbm = s.hbm) ∧
    (∀ level e file ls, walk s est va = (.missing level e file, ls) →
      (xlate s port est va need).1 = .missing level e file ∧ (xlate s port est va need).2.hbm = s.hbm) ∧
    (xlate s port est va need).2.commons = s.commons ∧ (xlate s port est va need).2.host = s.host ∧
    (xlate s port est va need).2.cores = s.cores

/-! ### Vector instructions -/

/-- The vector instructions of two sources and a lane operation complete where their operands can be taken and their result finds its
place: lane i of the result is the operation on lanes i of the sources, with the mode that rm and FRM give, and the flags are those of
the lanes that real elements feed; where the result is pushed, those of its push that such lanes feed, too (R69, R81 to R85, R92, R346, R367). -/
def Obligations.VectorPairResults : Prop :=
  ∀ (s s' u : State) (rm : BitVec 2) (ty : LaneTy) (d a b : Reg), TakesV [a, b] [] d s s' →
    let mode := laneMode ty rm (curFrm s')
    let ends := fun (f : Nat → Nat → Nat × Nat) =>
      let r := (lanesOf ty (vval s' a)).zipWith f (lanesOf ty (vval s' b))
      Ends (endV 1 d (packetOf ty (r.map (·.1))) (realFlags s' ty.width [a, b] (r.map (·.2))) (realBits s')) s' () u
    (ends (addLane ty mode) → exec (.vadd rm ty d a b) s = .next u) ∧
    (ends (subLane ty mode) → exec (.vsub rm ty d a b) s = .next u) ∧
    (ends (mulLane ty mode) → exec (.vmul rm ty d a b) s = .next u) ∧
    (ends (minMaxLane ty false (frmFtz (curFrm s'))) → exec (.vmin ty d a b) s = .next u) ∧
    (ends (minMaxLane ty true (frmFtz (curFrm s'))) → exec (.vmax ty d a b) s = .next u) ∧
    (ends (fun x y => (shlLane ty x y, 0)) → exec (.vshl ty d a b) s = .next u) ∧
    (ends (fun x y => (shrLane ty x y, 0)) → exec (.vshr ty d a b) s = .next u) ∧
    (ends (fun x y => (sraLane ty x y, 0)) → exec (.vsra ty d a b) s = .next u) ∧
    (∀ c, ends (fun x y => (if (cmpLane ty (frmFtz (curFrm s')) c x y).1 then 2 ^ ty.width - 1 else 0,
        (cmpLane ty (frmFtz (curFrm s')) c x y).2)) → exec (.vcmp c ty d a b) s = .next u) ∧
    (Ends (endV 1 d (vval s' a &&& vval s' b) [] (realBits s')) s' () u → exec (.vand ty d a b) s = .next u) ∧
    (Ends (endV 1 d (vval s' a ||| vval s' b) [] (realBits s')) s' () u → exec (.vor ty d a b) s = .next u) ∧
    (Ends (endV 1 d (vval s' a ^^^ vval s' b) [] (realBits s')) s' () u → exec (.vxor ty d a b) s = .next u) ∧
    (Ends (endV 1 d (packetOf ty ((lanesOf ty (vval s' b)).map
        (fun j => (lanesOf ty (vval s' a))[j % ty.lanes]?.getD 0))) []
      (laneBitsMask ty.width ty.lanes (fun i => realLanes s' ty.width [b] i &&
        realLanes s' ty.width [a] (((lanesOf ty (vval s' b))[i]?.getD 0) % ty.lanes)))) s' () u → exec (.vperm ty d a b) s = .next u)

/-- The vector instructions of one source complete in the same way (R93, R94, R366, R369, R372): VABS and VNEG in one turn; VRCP, VRSQ,
VEXP2, VLOG2, VSIN and VCOS in two turns, the last four with the faithful choice of the part (log 1); the reductions put the value of
the tree in lane 0 and 0 in the others, with one flag set for all.
VSIN and VCOS take radians by the model's reading (log 38). -/
def Obligations.VectorSingleResults : Prop :=
  ∀ (s s' u : State) (rm : BitVec 2) (ty : LaneTy) (d a : Reg), TakesV [a] [] d s s' →
    let mode := laneMode ty rm (curFrm s')
    let rnd := roundOf rm (curFrm s')
    let ftz := frmFtz (curFrm s')
    let ends := fun (t : Nat) (f : Nat → Nat × Nat) =>
      let r := (lanesOf ty (vval s' a)).map f
      Ends (endV t d (packetOf ty (r.map (·.1))) (realFlags s' ty.width [a] (r.map (·.2))) (realBits s')) s' () u
    let folds := fun (f : Nat → Nat → Nat × Nat) =>
      Ends (endV 1 d (packetOf ty [(treeReduce f 6 (lanesOf ty (vval s' a))).1]) [(treeReduce f 6 (lanesOf ty (vval s' a))).2]
        (2 ^ 512 - 1)) s' () u
    (ends 1 (absLane ty mode) → exec (.vabs rm ty d a) s = .next u) ∧
    (ends 1 (negLane ty mode) → exec (.vneg rm ty d a) s = .next u) ∧
    (ends 2 (rcpF (floatFmt ty) rnd ftz) → exec (.vrcp rm ty d a) s = .next u) ∧
    (ends 2 (rsqF (floatFmt ty) rnd ftz) → exec (.vrsq rm ty d a) s = .next u) ∧
    (ends 2 (fun x => exp2F (floatFmt ty) rnd ftz (Config.faithfulUp 0 (LaneTy.code ty) x) x) → exec (.vexp2 rm ty d a) s = .next u) ∧
    (ends 2 (fun x => log2F (floatFmt ty) rnd ftz (Config.faithfulUp 1 (LaneTy.code ty) x) x) → exec (.vlog2 rm ty d a) s = .next u) ∧
    (ends 2 (fun x => trigF (floatFmt ty) rnd ftz (Config.faithfulUp 2 (LaneTy.code ty) x) false x) →
      exec (.vsin rm ty d a) s = .next u) ∧
    (ends 2 (fun x => trigF (floatFmt ty) rnd ftz (Config.faithfulUp 3 (LaneTy.code ty) x) true x) →
      exec (.vcos rm ty d a) s = .next u) ∧
    (folds (addLane ty mode) → exec (.vredSum rm ty d a) s = .next u) ∧
    (folds (minMaxLane ty true ftz) → exec (.vredMax ty d a) s = .next u) ∧
    (folds (minMaxLane ty false ftz) → exec (.vredMin ty d a) s = .next u)

/-- The other vector instructions complete (R30, R345, R368, R370, R371, R373): VFMA with one rounding by FRM; VSEL takes a lane of a
where the lane of c is not 0, else of b; VBCAST puts lane g[b] mod n in every lane; VEXT moves one element to G(d); VINS replaces one;
VCVT converts the lanes both types have, narrowing into the top lanes of d and, with .z, under zeros below. -/
def Obligations.VectorOtherResults : Prop :=
  ∀ (s s' u : State) (ty : LaneTy) (d a b c : Reg),
    (TakesV [a, b, c] [] d s s' →
      let ab := (lanesOf ty (vval s' a)).zip (lanesOf ty (vval s' b))
      let lc := lanesOf ty (vval s' c)
      (∀ k, let r := ab.zipWith (fun p z => fmaF (floatFmt ty) (frmRound (curFrm s')) (frmFtz (curFrm s')) k p.1 p.2 z) lc
        Ends (endV 1 d (packetOf ty (r.map (·.1))) (realFlags s' ty.width [a, b, c] (r.map (·.2))) (realBits s')) s' () u →
          exec (.vfma k ty d a b c) s = .next u) ∧
      (Ends (endV 1 d (packetOf ty (ab.zipWith (fun p z => if z = 0 then p.2 else p.1) lc)) [] (realBits s')) s' () u →
        exec (.vsel ty d a b c) s = .next u)) ∧
    (TakesV [a] [b] d s s' → let x := (lanesOf ty (vval s' a))[(gval s' b).toNat % ty.lanes]?.getD 0
      Ends (endV 1 d (packetOf ty (List.replicate ty.lanes x)) []
        (laneBitsMask ty.width ty.lanes (fun _ => realLanes s' ty.width [a] ((gval s' b).toNat % ty.lanes)))) s' () u → exec (.vbcast ty d a b) s = .next u) ∧
    (Ends (do notGarnet; openV a; useG [b] (some d)) s () s' →
      let n := 2 ^ bits (gval s' b) 8 2
      let at' := n * (bits (gval s' b) 0 6 % (64 / n))
      exec (.vext d a b) s = .next (writesG 1 d (BitVec.ofNat 64 ((vval s' a).toNat / 2 ^ (8 * at') % 2 ^ (8 * n))) s')) ∧
    (Ends (do notGarnet; unboundDest d; readable true d; useG [a, b] none) s () s' →
      let n := 2 ^ bits (gval s' b) 8 2
      let at' := n * (bits (gval s' b) 0 6 % (64 / n))
      Ends (endV 1 d (lineMask (vval s' d) at' ((gval s' a).toNat % 2 ^ (8 * n)) (fullMask n)) [] (2 ^ 512 - 1)) s' () u →
        exec (.vins d a b) s = .next u) ∧
    (∀ (rm : BitVec 2) (zero scaled : Bool) (target source : LaneTy),
      Ends (do
        notGarnet
        if source.lanes < target.lanes && !zero then do
          unboundDest d
          readable true d
        openV a
        useG (if scaled then [b] else []) none
        reserveV d) s () s' →
      let k := if scaled then some ((gval s' b).toNat % 65536) else none
      let r := ((lanesOf source (vval s' a)).take (min source.lanes target.lanes)).map
        (cvtLane source target (laneMode target rm (curFrm s')) (frmFtz (curFrm s')) k)
      Ends (endV 1 d (packetOf target (placeLanes source.lanes target.lanes zero (lanesOf target (vval s' d)) (r.map (·.1))))
        (realFlags s' source.width [a] (r.map (·.2)))
        (laneBitsMask target.width target.lanes (fun i => source.lanes ≤ i || realLanes s' source.width [a] i))) s' () u → exec (.vcvt rm zero scaled target source d a b) s = .next u)

/-- The end of a vector instruction whose destination is no stream (R36, R37, R84, R85): with no enabled flag raised, FFLAGS gains the
flags of all lanes, a v register holds the result, a w register that stands for no queue keeps its value until the writeback point for
which one write is left, and no memory, no g, c or e register changes. A lane that raises an enabled flag traps ARITH with the flags of
all lanes in AUX [6:0] and the lowest such lane from bit 8, and leaves the state as it was. An instruction of major 20 to 2C that is issued on Garnet
traps ILLEGAL with nothing changed (R9, R77). -/
def Obligations.VectorWrite : Prop :=
  (∀ (s : State) (t : Nat) (d : Reg) (x : Packet) (flags : List Nat) (fed : Nat), s.cur.pops = [] →
     findStream s s.cur.core s.cur.slot d.toNat = none →
     ((∀ f ∈ flags, f &&& frmTraps (curSlot s).frm = 0) → ∃ u, Ends (endV t d x flags fed) s () u ∧
       (slotOf u s.cur.core s.cur.slot).fflags = (curSlot s).fflags ||| BitVec.ofNat 64 (flags.foldl (· ||| ·) 0) ∧
       (slotOf u s.cur.core s.cur.slot).g = (curSlot s).g ∧ (slotOf u s.cur.core s.cur.slot).e = (curSlot s).e ∧
       (slotOf u s.cur.core s.cur.slot).readyAt = ticksOf s s.cur.core + 8 * t ∧
       OnlyIssuer s u ∧ (∀ h, byteAt u h = byteAt s h) ∧
       (∀ k, k ≠ s.cur.slot → slotOf u s.cur.core k = slotOf s s.cur.core k) ∧
       (d.toNat < 16 → (slotOf u s.cur.core s.cur.slot).v = (curSlot s).v.setIfInBounds d.toNat x ∧
         (coreOf u s.cur.core).wb = (curCore s).wb) ∧
       (16 ≤ d.toNat → (slotOf u s.cur.core s.cur.slot).v = (curSlot s).v) ∧
       (16 ≤ d.toNat → findQueue (curCore s) true (d.toNat - 16) = none → (coreOf u s.cur.core).w = (curCore s).w ∧
         (coreOf u s.cur.core).wb = (curCore s).wb ++ [⟨ticksOf s s.cur.core + 8 * t - 1, s.cur.slot, .w (d.toNat - 16) x, none⟩])) ∧
     (∀ i f, flags[i]? = some f → f &&& frmTraps (curSlot s).frm ≠ 0 →
       (∀ j g, j < i → flags[j]? = some g → g &&& frmTraps (curSlot s).frm = 0) →
       Traps (endV t d x flags fed) s ⟨.arith, 0, BitVec.ofNat 64 (flags.foldl (· ||| ·) 0 + 256 * i), 0⟩ s)) ∧
  ∀ (s : State) (i : Instr), garnet ≤ s.cur.core → i.wellFormed = true → i.isEvent = false → i.isShort = false →
    0x20 ≤ encodeNat i / 2 % 64 → encodeNat i / 2 % 64 ≤ 0x2C →
    ∃ n, 1 ≤ n ∧ n ≤ 2 ∧ exec i s = .next (takeTrapAt n ⟨.illegal, 0, illegalAux s, 0⟩ s)

/-- Integer lanes (R69, R92): a sum, difference or product is the exact one modulo the lane's width without saturation, with no flag;
with saturation it is the exact one where the lane type holds it, else the nearer end of the type's range with SAT. -/
def Obligations.IntegerLanes : Prop :=
  ∀ (ty : LaneTy) (x y : Nat) (m : LaneMode), ty.isFloat = false → x < 2 ^ ty.width → y < 2 ^ ty.width →
    ∀ (f : Nat → Nat → Nat × Nat) (v : Int),
      ((f = addLane ty m ∧ v = laneInt ty x + laneInt ty y) ∨ (f = subLane ty m ∧ v = laneInt ty x - laneInt ty y) ∨
        (f = mulLane ty m ∧ v = laneInt ty x * laneInt ty y)) →
      (m.sat = false → ((f x y).1 : Int) = v % (2 ^ ty.width : Nat) ∧ (f x y).2 = 0) ∧
      (m.sat = true → laneMin ty ≤ v → v ≤ laneMax ty → laneInt ty (f x y).1 = v ∧ (f x y).2 = 0) ∧
      (m.sat = true → v < laneMin ty → laneInt ty (f x y).1 = laneMin ty ∧ (f x y).2 = flagSAT) ∧
      (m.sat = true → laneMax ty < v → laneInt ty (f x y).1 = laneMax ty ∧ (f x y).2 = flagSAT)

/-! ### Bindings -/

/-- SBIND, QBIND and UNBIND complete (R40, R42, R43, R340, R347, R363). SBIND takes the five dwords from e[e] as the descriptor of a
stream at its first element, where the register is not bound, the thread holds fewer than four and the descriptor is valid, the strides
of dimensions not in use left out of account (log 50): it is bound from the writeback point on. QBIND binds a queue of a c or w register from the writeback point
on, where the core has fewer than eight. UNBIND releases a stream of the thread with no push left, or the queue. Each traps STREAM,
with the register field in AUX, where that does not hold; UNBIND waits for pushes to be performed.
When a stream fetches, and that UNBIND of a v register, which no other thread sees, releases it at once, are the model's reading (logs 17,
43). -/
def Obligations.BindingResults : Prop :=
  ∀ (s : State) (d : Reg) (e : EReg), s.cur.core < garnet →
    let traps := takeTrap ⟨.stream, 0, BitVec.ofNat 64 d.toNat, 0⟩ s;
    (let t : Stream := { reg := d.toNat, desc := #v[eval s e.toNat, eval s (e.toNat + 1), eval s (e.toNat + 2), eval s (e.toNat + 3),
        eval s (e.toNat + 4)] };
      (isBoundV s d = false → boundStreams s < 4 → streamOk t = true →
        exec (.sbind d e) s = .next (endFall 1 (addWb (wbPoint s 1) (.bindStream t) s))) ∧
      ((isBoundV s d = true ∨ 4 ≤ boundStreams s ∨ streamOk t = false) → exec (.sbind d e) s = .next traps)) ∧
    (∀ w, let n := d.toNat - 16
      let bound := (w && isBoundV s d) || (findQueue (curCore s) w n).isSome || binding (curCore s) w n
      (16 ≤ d.toNat → bound = false → (∀ b ∈ (curCore s).wb, ∀ w' r, b.act ≠ .bindQueue w' r) → (curCore s).queues.length < 8 →
        exec (.qbind w d) s = .next (endFall 1 (addWb (wbPoint s 1) (.bindQueue w n) s))) ∧
      ((d.toNat < 16 ∨ bound = true ∨ 8 ≤ (curCore s).queues.length) → exec (.qbind w d) s = .next traps)) ∧
    (∀ t, findStream s s.cur.core s.cur.slot d.toNat = some (s.cur.slot, t) →
      (t.isWrite = true → pushesLeft s s.cur.core s.cur.slot d.toNat = false) →
      (d.toNat < 16 → exec (.unbind true d) s = .next (endFall 1 (dropPackets s.cur.core s.cur.slot (· == d.toNat) (setCurSlot s
        { curSlot s with streams := (curSlot s).streams.filter (·.reg != d.toNat) })))) ∧
      (16 ≤ d.toNat → exec (.unbind true d) s = .next (endFall 1 (addWb (wbPoint s 1) (.unbind true (d.toNat - 16)) s)))) ∧
    (∀ t, findStream s s.cur.core s.cur.slot d.toNat = some (s.cur.slot, t) → t.isWrite = true →
      pushesLeft s s.cur.core s.cur.slot d.toNat = true →
      exec (.unbind true d) s = .next (takeWait { reason := .stream, peer := d.toNat, key := d.toNat + 1 } .none s)) ∧
    (∀ k t, findStream s s.cur.core s.cur.slot d.toNat = some (k, t) → k ≠ s.cur.slot → exec (.unbind true d) s = .next traps) ∧
    (∀ v, (v = true → findStream s s.cur.core s.cur.slot d.toNat = none) →
      (16 ≤ d.toNat → (findQueue (curCore s) v (d.toNat - 16)).isSome = true →
        exec (.unbind v d) s = .next (endFall 1 (addWb (wbPoint s 1) (.unbind v (d.toNat - 16)) s))) ∧
      ((d.toNat < 16 ∨ findQueue (curCore s) v (d.toNat - 16) = none) → exec (.unbind v d) s = .next traps))


/-! ### Tiles, the matrix units and the copy engine -/

/-- The seat checks pass (R176, R207) where the register names one of the 2,048 seats, the issuing estate uses the SEAT parcel (and
where the instruction needs it the UNIT parcel), neither is SCRUBBING or RETIRED, the GENERATION the core holds is the parcel's, and
the seat is not suspended; the core then holds the GENERATION. Where one of these fails the instruction traps CAPABILITY. A core that
holds no GENERATION of the seat reads it, and where its reply is still to come the instruction waits MEM and issues again (R176).
That the reply comes at once where the move says so is the model's reading (log 23). -/
def Obligations.SeatChecks : Prop :=
  ∀ (s : State) (b : Word) (unit : Bool),
    let n := b.toNat
    let gen := (entryOf s (parcelSeat n)).gen.toNat
    let ok := decide (n < 2048) && uses s (curEstate s) (parcelSeat n) && !seatBarred s n &&
      (mapFind (curCore s).gens n).getD gen == gen && !(seatOf s (n / 16) (n % 16)).suspended &&
      (!unit || uses s (curEstate s) (parcelUnit (n / 16)))
    let held := setCurCore s { curCore s with gens := mapSet (curCore s).gens n ((mapFind (curCore s).gens n).getD gen) }
    let here := s.cur.defer = false ∨ (mapFind (curCore s).gens n).isSome = true
    (ok = true → here → Ends (checkSeat b unit) s n held ∧ heldGen held n = gen) ∧
    (ok = false → here → ∃ s', Traps (checkSeat b unit) s ⟨.capability, 0, BitVec.ofNat 64 (n % 2048), 0⟩ s' ∧
      s' = { s with cores := s'.cores } ∧ (∀ c, c ≠ s.cur.core → coreOf s' c = coreOf s c) ∧
      coreOf s' s.cur.core = { curCore s with gens := (coreOf s' s.cur.core).gens }) ∧
    (n < 2048 → s.cur.defer = true → mapFind (curCore s).gens n = none →
      Waits (checkSeat b unit) s { reason := .mem, peer := 4, key := 0 } .none held)

/-- MFMT writes the two context dwords and the BINDER of the seat, MZERO clears its accumulators (R208, R214, R325, R333), after the rows
that the ring still holds for the seat (R212, R218), where the checks pass and no drain of the thread from that seat is before them; until the unit, which may be halted, has applied them, the thread
waits MMA. MLOADB and MDRAIN start an engine operation on a tile that is
READY, or EMPTY, and large enough: the tile is DRAINING, or FILLING, and the thread goes on (R210, R213, R324, R327). COPY completes
where its operands are legal, the estate uses the engine, the tile is installed, not FAILED and in the state its side needs, the ranges
pass and the core has fewer than 512 copies in flight (R289, R291): the copy is in flight with its fourteen operands. Whoever finds a
tile READY acquires (R103).
What a COPY releases, and that the unit answers at once where the move says so, are the model's readings (logs 30, 46). -/
def Obligations.EngineInstructionResults : Prop :=
  (∀ (s : State) (e : EReg), s.cur.core < garnet →
    let r := eRun s e 14
    let n := copyTile r
    let t := tileOf (curCore s) n
    let x := curSlot s
    let sg := if copyOut r then copyDseg r else copySseg r
    let seg : Seg := x.sg[sg]?.getD {}
    let o : EngineOp := {
      kind := .copy, core := s.cur.core, slot := s.cur.slot, estate := x.estate, task := x.task, tile := n, regs := r,
      sseg := seg, dseg := seg, after := x.storeSeq, scope := sideScope s.cur.core seg, index := x.index }
    copyIllegal r = false → uses s x.estate (parcelEngine (clusterOf s.cur.core)) = true → t.size ≠ 0 → t.state ≠ .failed →
    Ends (copyRanges r t n sg seg (copyOut r)) s () s → tilePending (curCore s) n = false → copiesOf s s.cur.core < 512 →
    t.state = (if copyOut r then .ready else .empty) →
    exec (.copy e) s = .next (endFall 1 { setTile (observe t s) s.cur.core n
        { t with state := if copyOut r then .draining else .filling } with ops := mapSet s.ops (nextOp s) o })) ∧
  ∀ (s s1 s2 : State) (a b : Reg) (e : EReg) (seat : Nat), s.cur.core < garnet →
    let u := seat / 16
    let i := seat % 16
    let tile := tileOf (curCore s2) (gval s1 a).toNat
    let fits := fun (size : Nat) => (gval s1 a).toNat < 64 ∧ tile.size ≠ 0 ∧ size ≤ tile.size ∧
      tilePending (curCore s2) (gval s1 a).toNat = false
    let now := s.cur.defer = false ∧ u ∉ s2.halted
    let s3 := computeRing u i s2
    (Takes [a] none s s1 → Ends (checkSeat (gval s1 a) false) s1 seat s2 → ctxOk (eval s1 e.toNat) (eval s1 (e.toNat + 1)) = true →
      drainAhead s2 s2.cur.core s2.cur.slot seat = false →
      (now → ∃ acc, exec (.mfmt a e) s = .next (endFall 1 (setSeat s3 u i { seatOf s3 u i with
          ctx0 := eval s1 e.toNat, ctx1 := eval s1 (e.toNat + 1), binder := some (s3.cur.core, (curSlot s3).task), acc := acc })) ∧
        acc = if (seatOf s3 u i).exact = Seat.exact { ctx0 := eval s1 e.toNat, ctx1 := eval s1 (e.toNat + 1) } then (seatOf s3 u i).acc
          else []) ∧
      (¬ now → exec (.mfmt a e) s =
        .next (takeWait (seatWait seat 0) (.seat seat (heldGen s2 seat) (some (eval s1 e.toNat, eval s1 (e.toNat + 1)))) s2))) ∧
    (Takes [b] none s s1 → Ends (checkSeat (gval s1 b) false) s1 seat s2 → drainAhead s2 s2.cur.core s2.cur.slot seat = false →
      (now → exec (.mzero b) s = .next (endFall 1 (setSeat s3 u i { seatOf s3 u i with acc := [] }))) ∧
      (¬ now → exec (.mzero b) s = .next (takeWait (seatWait seat 0) (.seat seat (heldGen s2 seat) none) s2))) ∧
    (Takes [a, b] none s s1 → (eval s1 e.toNat).toNat < 8 → Ends (checkSeat (gval s1 b) true) s1 seat s2 →
      fits 66048 → tile.state = .ready →
      exec (.mloadb a b e) s = .next (startOp .mloadb (gval s1 a).toNat seat [eval s1 e.toNat] .draining (observe tile s2))) ∧
    (Takes [a, b] none s s1 → drainIllegal (eval s1 e.toNat) = false → Ends (checkSeat (gval s1 b) false) s1 seat s2 →
      fits (drainCount (eval s1 e.toNat) * drainRow (drainFmt (eval s1 e.toNat))) → tile.state = .empty →
      exec (.mdrain a b e) s = .next (startOp (.mdrain false) (gval s1 a).toNat seat [eval s1 e.toNat] .filling s2) ∧
      exec (.mdrainClr a b e) s = .next (startOp (.mdrain true) (gval s1 a).toNat seat [eval s1 e.toNat] .filling s2))

/-- MMA whose rows are served at once (R209, R211, R212, R328): where its checks pass, its tile is READY, the thread's earlier stores
are performed (R128), no macro bank of another estate takes part, no row waits in the ring and no byte it reads is poisoned, each of its COUNT rows is added to the row of the seat
from ROW0 on, in order, and the thread falls through; every tile is as it was. Served later, the thread waits MMA with the tile
DRAINING until the unit's events have served the rows; issued again it goes on from the rows it has done (R217).
When rows are read and served is the model's reading (log 46). -/
def Obligations.MatrixRowsAccumulate : Prop :=
  ∀ (s s1 s2 : State) (a b : Reg) (e : EReg) (seat : Nat), s.cur.core < garnet →
    let u := seat / 16
    let i := seat % 16
    let r := eval s1 e.toNat
    let l := eval s1 (e.toNat + 1)
    let n := (gval s1 a).toNat
    let x := seatOf s2 u i
    let t := tileOf (curCore s2) n
    Takes [a, b] none s s1 → mmaIllegal r l = false → Ends (checkSeat (gval s1 b) false) s1 seat s2 →
    x.ka ≠ 0 → (bits l 0 18 = 0 ∨ x.rowBytes ≤ bits l 0 18) → n < 64 → t.size ≠ 0 → mmaBytes x r l ≤ t.size → t.state = .ready →
    tilePending (curCore s2) n = false → drainAhead s2 s2.cur.core s2.cur.slot seat = false →
    let before := (curSlot s1).rows.filter (·.seat == seat)
    let done := (before.map (·.done)).getD 0
    (s.cur.defer = true → (∀ q, before = some q → q.lost = false) →
      exec (.mma a b e) s = .next (takeWait { seatWait seat done with sent := true }
        (.mma n seat r l done (heldGen s2 seat)) (setTile (observe t s2) s2.cur.core n { t with state := .draining }))) ∧
    (s.cur.defer = false → before = none → (curSlot s2).past = false → (curSlot s2).stores = [] →
      s2.halted.contains u = false → s2.halted.contains (clusterOf s.cur.core) = false →
      (∀ q ∈ (unitOf s2 u).ring, q.seat ≠ i) → foreignBank (unitOf s2 u) x (curEstate s2) = false →
      (∀ j, j < mmaCount r → mmaOperand s2 s2.cur.core x n j l ≠ none) →
      ∃ w, exec (.mma a b e) s = .next w ∧
        seatOf w u i = (List.range (mmaCount r)).foldl (fun y j =>
          let o := (mmaOperand s2 s2.cur.core x n j l).getD (0, 0)
          addRow (unitOf s2 u) y (mmaRow0 r + j) o.1 o.2) x ∧
        (∀ u' i', (u', i') ≠ (u, i) → seatOf w u' i' = seatOf s2 u' i') ∧ (∀ k, tileOf (coreOf w s.cur.core) k = tileOf (curCore s2) k) ∧
        (slotOf w s.cur.core s.cur.slot).pc = ((curSlot s).fall (if s.cur.long then 4 else 2)).pc ∧
        (slotOf w s.cur.core s.cur.slot).wait = {} ∧ (slotOf w s.cur.core s.cur.slot).pend = .none ∧
        (slotOf w s.cur.core s.cur.slot).g = (curSlot s).g ∧ ∀ h, byteAt w h = byteAt s h)

/-- One A row of an MMA (R86, R87, R95, R209, R211): each column of a macro that takes part gains the exact dot product of the row's
256 values with the column's, modulo 2^40 in EXACT mode, with two roundings in SCALED mode; every other accumulator of the seat is as
it was, and so are its context and its BINDER. -/
def Obligations.RowAddsDotProducts : Prop :=
  ∀ (un : BerylUnit) (x : Seat) (row bytes sA : Nat),
    let y := addRow un x row bytes sA
    let at' := fun (z : Seat) (k : Nat) => (mapFind z.acc k).getD 0
    y = { x with acc := y.acc } ∧
    (∀ col, col < 1024 → x.macros / 2 ^ (col / 256) % 2 = 1 → let b := bankOf un (2 * (col / 256) + x.bank)
      let sum := ((aValues x bytes).zipWith (· * ·) (bValues x b (col % 256))).sum
      at' y (row * 1024 + col) = accumulate x.exact (at' x (row * 1024 + col)) sum sA (memRead b.bytes (65536 + 2 * (col % 256)) 2) ∧
      (x.exact = true → (at' y (row * 1024 + col) : Int) = (signed40 (at' x (row * 1024 + col)) + sum) % (2 ^ 40 : Nat))) ∧
    (∀ k, (k < row * 1024 ∨ row * 1024 + 1024 ≤ k ∨ x.macros / 2 ^ ((k - row * 1024) / 256) % 2 = 0) → at' y k = at' x k)

/-- TSET and TSTAT complete (R101 to R103, R360, R361). A tile that does not exist, or a tile on Garnet, gives 3; a state field that is
none of 0, 2 and 4, or a transition that is not allowed, 2; an install of a bad entry 1; else 0, and the tile table changes at the
writeback point; a TSET starts from the tile as the TSETs issued before it leave it. Who finds a tile READY or FAILED acquires. While the tile is FILLING or DRAINING, TSET waits TILE. A nonzero state with an entry operand traps ILLEGAL. -/
def Obligations.TileInstructionResults : Prop :=
  ∀ (s s1 : State) (d a b : Reg) (e : EReg),
    let n := (gval s1 a).toNat
    let k := (gval s1 b).toNat
    let t := tileOf (curCore s1) n
    let soon := tileSoon (curCore s1) n
    let ends := fun (status : Nat) (s : State) => endFall 1 (putG (wbPoint s 1) d (BitVec.ofNat 64 status) s)
    let s2 := observe t s1
    (Takes [a, b] (some d) s s1 →
      (k ≠ 0 → e ≠ 0 → exec (.tset d a b e) s = .next (takeTrap ⟨.illegal, 0, illegalAux s1, 0⟩ s1)) ∧
      ((k = 0 ∨ e = 0) →
        ((garnet ≤ s1.cur.core ∨ 63 < n) → exec (.tset d a b e) s = .next (ends 3 s1)) ∧
        (s1.cur.core < garnet → n ≤ 63 →
          ((k = 1 ∨ k = 3 ∨ 4 < k) → exec (.tset d a b e) s = .next (ends 2 s1)) ∧
          ((k = 0 ∨ k = 2 ∨ k = 4) → (t.state = .filling ∨ t.state = .draining) →
            exec (.tset d a b e) s = .next (takeWait { reason := .tile, peer := n, key := 3 } .none s1)) ∧
          (t.state ≠ .filling → t.state ≠ .draining →
            (k = 0 → installed n (eval s1 e.toNat) (eval s1 (e.toNat + 1)) = none → exec (.tset d a b e) s = .next (ends 1 s2)) ∧
            (∀ t', k = 0 → installed n (eval s1 e.toNat) (eval s1 (e.toNat + 1)) = some t' →
              exec (.tset d a b e) s = .next (ends 0 (addWb (wbPoint s1 1) (.tile n t') s2))) ∧
            (k = 2 → soon.size ≠ 0 → soon.state = .empty →
              exec (.tset d a b e) s = .next (ends 0 (addWb (wbPoint s1 1) (.tile n { soon with state := .ready }) s2))) ∧
            (k = 2 → (soon.size = 0 ∨ soon.state ≠ .empty) → exec (.tset d a b e) s = .next (ends 2 s2)) ∧
            (k = 4 → soon.size ≠ 0 → (soon.state = .empty ∨ soon.state = .ready) → exec (.tset d a b e) s =
              .next (ends 0 (addWb (wbPoint s1 1) (.tile n { soon with state := .failed, status := 0x00FF }) s2))) ∧
            (k = 4 → (soon.size = 0 ∨ (soon.state ≠ .empty ∧ soon.state ≠ .ready)) →
              exec (.tset d a b e) s = .next (ends 2 s2)))))) ∧
    (Takes [a] (some d) s s1 →
      ((garnet ≤ s1.cur.core ∨ 63 < n) → exec (.tstat d a) s = .next (writesG 1 d (BitVec.allOnes 64) s1)) ∧
      (s1.cur.core < garnet → n ≤ 63 →
        exec (.tstat d a) s = .next (writesG 1 d (BitVec.ofNat 64 (t.state.toNat + 65536 * (t.status % 65536))) s2)))

/-- The events of the engines and the units complete (R210, R212, R213, R218, R290, R292, R293, R267). A copy's element access moves its
bytes between the tile and memory, and after the last the tile is READY; MLOADB_APPLY gives the bank the tile's bytes and its loader;
MDRAIN_PERFORM writes the converted rows into the tile and raises their flags, and .clr zeroes the rows; MMA_ROW serves a row of a
waiting MMA, whose thread goes on after the last with its tile READY, or applies an MFMT or MZERO that waits; SUSPENDED_ROW puts one into the spill ring; a recalibration changes nothing.
It rests on the model's readings in logs 30, 31 and 46. -/
def Obligations.EngineEvents : Prop :=
  ∀ (s : State) (op : Nat) (o : EngineOp),
    (∀ elem, opOf s op = some o → o.kind = .copy → elem < copyCount o.regs → elem ∉ o.done → released s o = true →
      s.halted.contains (clusterOf o.core) = false → o.token = none → o.failed = none → uses s o.estate (parcelEngine (clusterOf o.core)) = true →
      foreignPlain s o = false → copyGather o.regs = false →
      let z := copySize o.regs
      let s' := flushScratch o.core s
      let t := tileOf (coreOf s' o.core) o.tile
      let memReg := o.reg (if copyOut o.regs then 1 else 0)
      let tileReg := o.reg (if copyOut o.regs then 0 else 1)
      let x := copyAccess o ((memReg.toNat : Int) + z * copyOffset o.regs (if copyOut o.regs then 9 else 5) elem) z (!copyOut o.regs)
      let place : Home := .scratch o.core (t.base + ((tileReg.toNat : Int) +
        z * copyOffset o.regs (if copyOut o.regs then 5 else 9) elem).toNat)
      ∀ ps s1 s2 v, attempt s' o x = (.ok ps, s1) →
        (copyOut o.regs = false → engineLoad op elem o x ps none s1 = (.value v, s2) →
          exec (.copyAccess op elem .home) s = .next (elementDone (storeHome s2 place z v (fullMask z)) op o elem)) ∧
        (copyOut o.regs = true → (∀ p ∈ ps, needsLine s1 p.home true = false) → loadHome s1 place z = .value v →
          performWrites (prepareWrites s1 (writesOf ps v)) o.core o.estate o.task (writesOf ps v) = (.done, s2) →
          exec (.copyAccess op elem .home) s = .next (elementDone s2 op o elem))) ∧
    (∀ elem, o.done.length + 1 = copyCount o.regs →
      elementDone s op o elem = endOp s op { o with done := elem :: o.done, token := none } none) ∧
    ((taskOf s o.task).phase ≠ .aborting →
      tileOf (coreOf (endOp s op o none) o.core) o.tile = { tileOf (coreOf s o.core) o.tile with state := .ready }) ∧
    (opOf s op = some o → o.kind = .mloadb → released s o = true → s.halted.contains (clusterOf o.core) = false → s.halted.contains (o.seat / 16) = false →
      let t := tileOf (coreOf s o.core) o.tile
      scratchPoisoned (coreOf s o.core) t.base 66048 = false → uses s o.estate (parcelUnit (o.seat / 16)) = true →
      seatRefused s o.estate o.seat o.gen = false →
      exec (.mloadbApply op) s = .next (endOp (setUnit s (o.seat / 16) { unitOf s (o.seat / 16) with
        banks := mapSet (unitOf s (o.seat / 16)).banks (2 * bits (o.reg 0) 0 2 + bits (o.reg 0) 2 1)
          { loader := some o.estate, bytes := cutMemory (coreOf s o.core).scratch t.base 66048 } }) op o none)) ∧
    (∀ clear, opOf s op = some o → o.kind = .mdrain clear → released s o = true → s.halted.contains (clusterOf o.core) = false →
      let u := o.seat / 16
      let i := o.seat % 16
      s.halted.contains u = false → drainBefore s op o = false → (seatOf s u i).suspended = false →
      seatRefused s o.estate o.seat o.gen = false →
      let s0 := flushScratch o.core (computeRing u i s)
      let w := drainRows (seatOf s0 u i) (o.reg 0) (.scratch o.core (tileOf (coreOf s o.core) o.tile).base)
        (List.range (drainCount (o.reg 0))) 0 s0
      exec (.mdrainPerform op) s = .next (endOp (raiseIssuer o w.1 (if clear then
        setSeat w.2 u i { seatOf s0 u i with acc := (seatOf s0 u i).acc.filter (fun p =>
          !((List.range (drainCount (o.reg 0))).map (· + drainRow0 (o.reg 0))).contains (p.1 / 1024)) } else w.2)) op o none)) ∧
    (∀ core k tile seat rows layout done gen v, (slotOf s core k).live = true →
      (slotOf s core k).pend = .mma tile seat rows layout done gen → seatRefused s (slotOf s core k).estate seat gen = false →
      let u := seat / 16
      let i := seat % 16
      let x := seatOf s u i
      let y := slotOf s core k
      done < mmaCount rows → mmaOperand s core x tile done layout = some v → s.halted.contains u = false →
      s.halted.contains (clusterOf core) = false → y.stores = [] →
      (x.suspended = false → (∀ q ∈ (unitOf s u).ring, q.seat ≠ i) → foreignBank (unitOf s u) x y.estate = false →
        ∃ t, exec (.mmaRow core k) s = .next t ∧ seatOf t u i = addRow (unitOf s u) x (mmaRow0 rows + done) v.1 v.2 ∧
          (unitOf t u).lastSeat = i ∧ (∀ h, byteAt t h = byteAt s h) ∧
          (done + 1 < mmaCount rows → (slotOf t core k).pend = .mma tile seat rows layout (done + 1) gen ∧
            (∀ m, tileOf (coreOf t core) m = tileOf (coreOf s core) m)) ∧
          (done + 1 = mmaCount rows → y.past = false → (slotOf t core k).pend = .none ∧ (slotOf t core k).wait = {} ∧
            (slotOf t core k).pc = (y.fall (if y.long then 4 else 2)).pc ∧
            tileOf (coreOf t core) tile = { tileOf (coreOf s core) tile with state := .ready } ∧
            (∀ m, m ≠ tile → tileOf (coreOf t core) m = tileOf (coreOf s core) m))) ∧
      (x.suspended = true → (unitOf s u).ring.length < 128 →
        ∃ t, exec (.suspendedRow core k) s = .next t ∧
          (unitOf t u).ring = (unitOf s u).ring ++ [⟨i, mmaRow0 rows + done, y.estate, core, k, y.task, y.index, v.1, v.2⟩] ∧
          seatOf t u i = x ∧ (slotOf t core k).pend = .mma tile seat rows layout (done + 1) gen ∧ ∀ h, byteAt t h = byteAt s h)) ∧
    (∀ core k seat gen ctx, (slotOf s core k).live = true → (slotOf s core k).pend = .seat seat gen ctx →
      s.halted.contains (seat / 16) = false → s.halted.contains (clusterOf core) = false →
      seatRefused s (slotOf s core k).estate seat gen = false → (seatOf s (seat / 16) (seat % 16)).suspended = false →
      exec (.mmaRow core k) s = .next (resume core k (modify (fun s => endReply (applySeat seat ctx s))) s)) ∧
    (∀ unit, exec (.macroRecalibration unit) s = .next s)


/-! ### Tasks, crews and barriers -/

/-- SPAWN (R140 to R143, R351), the end of a thread (R50, R300, R358), YIELD (R200, R378) and the barriers (R49, R282) complete. SPAWN
writes the new task's handle to G(d), or FULL, or NOPLACE; a keeper or courier, a bad entry, key or count, or a timestamp before the
thread's own traps ILLEGAL with 0xF, a malformed plat with its index. TDONE, of a thread that awaits no store, no push to its streams, no
engine operation and no message, and EXIT, of any thread, end the thread at the writeback point; YIELD passes, or with a request pending waits SAVED, and where that is the last the notices of its cores end or the crew is
saved (R172, R200). BAR.ARRIVE goes on and arrives at its writeback point, with the last arrival of the crew the phase completes; BAR.WAIT
goes on outside the phase, BAR where its arrival will complete the phase, and else waits BARRIER.
That SPAWN and the barriers wait for buffered stores is the model's reading (log 45), the fresh handle is a free value (logs 3, 40), and
the model's choices are that entry bits above 47 are dropped (log 53) and that count 0 makes no check of the list (log 63). -/
def Obligations.TaskInstructionResults : Prop :=
  (∀ (s s0 s1 : State) (d : Reg) (e : EReg) (list : Nat), Takes [] (some d) s s0 →
    let entry := eval s0 e.toNat
    let key := eval s0 (e.toNat + 3)
    let count := (eval s0 (e.toNat + 5)).toNat
    let x := curSlot s0
    let bad := isService s0.cur.core s0.cur.slot = true ∨ bits entry 0 1 = 1 ∨ keyOk key = false ∨ 8 < count ∨
      bits key 0 40 < (taskOf s0 x.task).ts
    (bad → exec (.spawn d e) s = .next (takeTrap ⟨.illegal, 0, 0xF, 0⟩ s0)) ∧
    (¬ bad → (count = 0 → list = 0 ∧ s1 = s0) →
      (count ≠ 0 → Ends (loadOperand 0 ((eval s0 (e.toNat + 4)).toNat : Int) (16 * count) 16) s0 list s1) →
      (∀ i, platsOf list count 0 = .error i → exec (.spawn d e) s = .next (takeTrap ⟨.illegal, 0, BitVec.ofNat 64 i, 0⟩ s1)) ∧
      (∀ plats, platsOf list count 0 = .ok plats →
        let t := { taskOfKey x.estate (estateOf s1 x.estate).part entry (eval s0 (e.toNat + 1)) (eval s0 (e.toNat + 2)) key plats with
          parent := x.task }
        let root := if (taskOf s0 x.task).root = 0 then none else some (taskOf s0 x.task).root
        (∀ f rest, x.stores = f :: rest → exec (.spawn d e) s = .next (takeWait { reason := .mem, peer := f.die, key := 1 } .none s1)) ∧
        (x.stores = [] → placeRoom s1 x.estate s1.cur.core t.place t.cluster t.width = false →
          exec (.spawn d e) s = .next (writesG 1 d 0x8000000000000002 s1)) ∧
        (x.stores = [] → placeRoom s1 x.estate s1.cur.core t.place t.cluster t.width = true →
          (∀ s2, createTask s1 s1.cur.core t root (fun s t => pushDeque s t.core t) = (none, s2) →
            exec (.spawn d e) s = .next (writesG 1 d 0x8000000000000001 s2)) ∧
          (∀ h s2, createTask s1 s1.cur.core t root (fun s t => pushDeque s t.core t) = (some h, s2) →
            exec (.spawn d e) s = .next (writesG 1 d (BitVec.ofNat 64 h) s2) ∧ h / 2 ^ 32 = x.estate))))) ∧
  (∀ s : State,
    let c := s.cur.core
    let k := s.cur.slot
    let x := curSlot s
    let saved := setCurSlot (endFall 1 s) { curSlot (endFall 1 s) with wait := { reason := .saved } }
    (isService c k = true → exec .tdone s = .next (takeTrap ⟨.illegal, 0, illegalAux s, 0⟩ s) ∧
      exec .tdoneShort s = .next (takeTrap ⟨.illegal, 0, illegalAux s, 0⟩ s)) ∧
    (isService c k = false → endHeld s c k = true → exec .tdone s = .next (takeWait { reason := .mem, peer := dieOf c, key := 15 } .none s)) ∧
    let ends := fun (b : Bool) => endAt (.ends b) s
    (isService c k = false → endHeld s c k = false → exec .tdone s = .next (ends true) ∧ exec .tdoneShort s = .next (ends true)) ∧
    (exec .exit s = .next (ends false) ∧ exec .exitShort s = .next (ends false)) ∧
    (∀ (u : State) (b : Wb), (coreOf u c).wb = [b] → b.act.onThread = true →
      (b.due < ticksOf u c → flushThreads c u = applyThread c (setCore u c { coreOf u c with wb := [] }) b) ∧
      (ticksOf u c ≤ b.due → flushThreads c u = setCore u c (coreOf u c))) ∧
    (∀ (u : State) (b : Wb) (last : Bool), b.act = .ends last →
      let q := b.slot
      let gone := clearSlot (orphanOps u c q) c q false
      (isKeeper c q = true → applyThread c u b = startKeeper gone c) ∧
      (isCourier c q = true → applyThread c u b = endHandler u c .refused) ∧
      (isService c q = false → (slotOf u c q).task = 0 → applyThread c u b = gone) ∧
      (isService c q = false → (slotOf u c q).task ≠ 0 → applyThread c u b = endThread u c q (if last then .done else .exited))) ∧
    ((x.request = none ∨ isService c k = true) → exec .yield s = .next (endFall 1 s) ∧ exec .yieldShort s = .next (endFall 1 s)) ∧
    (∀ r, x.request = some r → isService c k = false →
      exec .yield s = .next (yielded saved x.task) ∧ exec .yieldShort s = .next (yielded saved x.task) ∧
      (crewRests saved x.task = false → (∀ q ∈ crewSlots saved x.task, (entryOf s (parcelCore q.1)).state ≠ .reclaiming ∧
        (entryOf s (parcelCore q.1)).retiring = false) → yielded saved x.task = saved))) ∧
  ∀ (s : State) (n : BitVec 2),
    let x := curSlot s
    let sent := addWb (wbPoint s 1) (.arrive n.toNat) s
    let waits := fun (s : State) => takeWait { reason := .barrier, peer := n.toNat } .none s
    (x.task = 0 → exec (.bar n) s = .next (takeTrap ⟨.illegal, 0, illegalAux s, 0⟩ s) ∧
      exec (.barArrive n) s = .next (takeTrap ⟨.illegal, 0, illegalAux s, 0⟩ s) ∧
      exec (.barWait n) s = .next (takeTrap ⟨.illegal, 0, illegalAux s, 0⟩ s)) ∧
    (x.task ≠ 0 →
      (inPhase s n.toNat = false → exec (.barWait n) s = .next (endFall 1 s)) ∧
      (inPhase s n.toNat = true → exec (.barWait n) s = .next (waits s)) ∧
      (inPhase s n.toNat = false → (∀ e ∈ x.stores, Scope.le e.cls .die = false) →
        exec (.barArrive n) s = .next (endFall 1 sent) ∧
        (x.barHalf = false → lastToArrive sent n.toNat = true → exec (.bar n) s = .next (endFall 1 sent)) ∧
        (x.barHalf = false → lastToArrive sent n.toNat = false →
          exec (.bar n) s = .next (waits (setCurSlot sent { curSlot sent with barHalf := true })))) ∧
      (x.barHalf = true → inPhase s n.toNat = false → exec (.bar n) s = .next (endFall 1 s))) ∧
    ∀ (u : State) (core : Nat) (b : Wb), b.act = .arrive n.toNat →
      let y := slotOf u core b.slot
      let phase := (taskOf u y.task).barriers[n.toNat]?.getD 0
      let marked := setSlot u core b.slot { y with arrived := y.arrived.setIfInBounds n.toNat (some phase) }
      applyThread core u b = completePhase marked y.task n.toNat ∧
      ((taskOf u y.task).crew.all (· != .saved) = true → crewSlots marked y.task ≠ [] →
        (∀ q ∈ crewSlots marked y.task, q.2.2.arrived[n.toNat]? = some (some phase)) →
        (taskOf (applyThread core u b) y.task).barriers[n.toNat]? = some ((phase + 1) % 65536))

/-- The events of tasks complete (R144, R145, R147, R154 to R156, R158, R201, R205). A core takes the first eligible entry into a shadow
slot; a task takes its admission number and enters its stripes; it starts, or is restored, on the slots that the rules give; a task that
may commit commits; every 64 reference cycles the frontier becomes the least timestamp of the tasks that hold it back, and does not go back; a crew past the
deadline of its request is saved; a frontier task that has waited 4,096 cycles has the latest other task of its cluster aborted.
It rests on the model's readings in logs 26 and 35. -/
def Obligations.TaskEvents : Prop :=
  ∀ (s : State) (core h : Nat),
    (core < garnet → (coreOf s core).shadow.length < 2 → clusterOf core ∉ s.halted → findWork s core = some h →
      ∃ t, exec (.taskTake core) s = .next t ∧ (coreOf t core).shadow = (coreOf s core).shadow.filter (· != h) ++ [h] ∧
        (coreOf t core).deque = (coreOf s core).deque.filter (· != h) ∧
        taskOf t h = { taskOf s h with phase := if (taskOf s h).phase = .saved then .saved else .shadow } ∧
        (∀ k, k ≠ h → taskOf t k = taskOf s k) ∧ ∀ a, byteAt t a = byteAt s a) ∧
    ((mapFind s.tasks h).isSome = true → (taskOf s h).phase = .shadow → isAdmitted (taskOf s h) = false →
      let p := partOf s (taskOf s h).part
      let s1 := match (taskOf s h).admission with
        | none => setPart (setTask s h { taskOf s h with admission := some p.admissions }) (taskOf s h).part
            { p with admissions := p.admissions + 1 }
        | some _ => setTask s h { taskOf s h with stripes := (taskOf s h).stripes + 1 }
      exec (.admission h) s = .next (if isAdmitted (taskOf s1 h) = true then onAdmitted s1 h else s1)) ∧
    (∀ slots, shadowCore s h = some core → startSlots s core h = some slots →
      ((taskOf s h).phase = .shadow → exec (.taskStart h) s = .next (startTask s core h slots) ∧
        (∀ i c k, slots[i]? = some (c, k) → slots.Nodup → let x := slotOf (startTask s core h slots) c k
          x.live = true ∧ x.estate = (taskOf s h).estate ∧ x.task = (taskOf s h).handle ∧ x.index = i ∧
          x.g[1]? = some (taskOf s h).arg0 ∧ x.g[2]? = some (taskOf s h).arg1 ∧ x.g[3]? = some (BitVec.ofNat 64 i) ∧
          x.g[4]? = some (BitVec.ofNat 64 (taskOf s h).width) ∧ x.pc = BitVec.ofNat 64 (taskOf s h).entry.toNat ∧ x.frm = 0 ∧
          x.fflags = 0 ∧ x.loops = [] ∧ x.streams = [] ∧ x.request = none)) ∧
      ((taskOf s h).phase = .saved → (coreOf s core).shadow.contains h = true →
        exec (.restore core h) s = .next (restoreTask s core h slots))) ∧
    ((mapFind s.tasks h).isSome = true → mayCommit s (taskOf s h) = true →
      exec (.taskCommit h) s = .next (commitTask s h) ∧
      ((writtenLines s (taskOf s h)).1 = [] → (writtenLines s (taskOf s h)).2 = s → (∀ o ∈ s.outstanding, o.task ≠ h) →
        mapFind (commitTask s h).tasks h = none)) ∧
    (∀ part, s.cycle % 64 ≠ 0 → exec (.frontierPass part) s = .next s) ∧
    (∀ part m, ((frontierTasks s part).map (·.ts)).min? = some m → s.cycle % 64 = 0 →
      exec (.frontierPass part) s = .next (setPart s part { partOf s part with frontier := max (partOf s part).frontier m }) ∧
      ∀ t ∈ liveTasks s, t.part = part → ¬ (t.phase = .aborting ∧ t.requeue = false) → m ≤ t.ts) ∧
    (∀ p rest, crewSlots s h = p :: rest → (∀ q ∈ crewSlots s h, coreLeaving s q.1 = false ∧ settled s q.1 q.2.1 = true ∧
        clusterOf q.1 ∉ s.halted) →
      ((∃ q ∈ crewSlots s h, q.2.2.request.any (·.source == 2) = true) → ∀ q ∈ crewSlots s h, committing s q.1 = false) →
      (∃ q ∈ crewSlots s h, q.2.2.pastDeadline s.cycle = true) → (taskOf s h).phase = .running →
      exec (.forcedSave h) s = .next (saveCrew s p.1 h false)) ∧
    (∀ since, shadowCore s h = some core → (taskOf s h).waiting = some since →
      ((taskOf s h).phase = .saved ∨ ((taskOf s h).phase = .shadow ∧ mayStart s (taskOf s h) = true)) → (taskOf s h).handle = h →
      atFrontier s h = true → startSlots s core h = none → since + 4096 ≤ s.cycle →
      let victims := (liveTasks s).filter (fun v => runsIn s (clusterOf core) v && !atFrontier s v.handle)
      let s1 := setTask s h { taskOf s h with waiting := some s.cycle }
      exec (.frontierPriority h) s = .next (match victims.foldl laterTask none with
        | some v => abortTasks s1 [v.handle]
        | none => s1))


/-! ### The Cadastre -/

/-- Offers (R170, R271, R296, R303, R316, R375, R380). GIVE, GIVE.wipe and LEND of a HELD parcel by its holder to another estate of the
partition offer it, with status 1. The target's ACCEPT of a gift without .wipe makes it the holder, with status 0 where the leaver has
nothing in flight; of another offer it begins the transfer and waits RECLAIM. DECLINE by the target ends the offer with OUTCOME 2,
WITHDRAW by the holder with OUTCOME 3; without an offer to the caller the status is 5.
It rests on the model's readings in log 25, and that a status comes in the step of issue where the move does not defer is log 23. -/
def Obligations.OfferResults : Prop :=
  ∀ (s s1 : State) (d a b : Reg) (e : EReg),
    let p := (gval s1 a).toNat
    let q := (gval s1 b).toNat
    let me := curEstate s1
    let x := entryOf s1 p
    (Takes [a, b] (some d) s s1 → CadReady s1 p → q < 16384 → q ≠ me → x.holder = me → estateExists s1 q = true →
      ((estateOf s1 q).part = (estateOf s1 me).part ∨ (estateOf s1 me).principal = true) → unofferable s1 p = false →
      ¬ (parcelKind p = 0 ∧ x.inuse = true) → x.state ≠ .retired → lent x = false →
      (x.state = .held →
        exec (.give d a b) s = .next (cadDone d 1 (setEntry s1 p { x with state := .offeredGive, target := some q, wipe := false, term := 0 })) ∧
        exec (.giveWipe d a b) s =
          .next (cadDone d 1 (setEntry s1 p { x with state := .offeredGive, target := some q, wipe := true, term := 0 })) ∧
        (parcelKind p ≠ 0 → parcelKind p ≠ 8 → 3600 ≤ (eval s e.toNat).toNat → (eval s e.toNat).toNat < 2 ^ 48 →
          exec (.lend d a b e) s = .next (cadDone d 1 (setEntry s1 p
            { x with state := .offeredLoan, target := some q, wipe := false, term := (eval s e.toNat).toNat })))) ∧
      (x.state ≠ .held → exec (.give d a b) s = .next (cadDone d 6 s1) ∧ exec (.giveWipe d a b) s = .next (cadDone d 6 s1))) ∧
    (Takes [a] (some d) s s1 → CadReady s1 p → x.state ≠ .retired →
      (offered x = true → x.target = some me →
        exec (.decline d a) s = .next (cadDone d 0 (setEntry s1 p
          { x with state := .held, outcome := 2, target := none, wipe := false, term := 0 })) ∧
        (unofferable s1 p = false →
          (x.state = .offeredGive → x.wipe = false →
            let s2 := beginLeave (setEntry s1 p { x with leaving := some x.holder }) p x.holder
            let s3 := { leaveWork s2 p with cur := s2.cur }
            (leaveReady s2 p x.holder = true → workLeft s3 p = false → s2.cur.defer = false →
              exec (.accept d a) s = .next (cadDone d 0 { endTransfer s3 p with cur := s2.cur })) ∧
            (leaveReady s2 p x.holder = false → exec (.accept d a) s = .next (cadWaits d p false s2)) ∧
            (leaveReady s2 p x.holder = true → workLeft s3 p = true → exec (.accept d a) s = .next (cadWaits d p false s3))) ∧
          (x.state = .offeredGive → x.wipe = true → exec (.accept d a) s = .next (cadWaits d p false (beginLeave (setEntry s1 p
            { x with state := .scrubbing, outcome := 1, holder := me, leaving := some x.holder, after := .hold }) p x.holder))) ∧
          (x.state = .offeredLoan → exec (.accept d a) s = .next (cadWaits d p false (beginLeave (setEntry s1 p
            { x with state := .scrubbing, outcome := 1, deadline := s1.cycle + x.term, leaving := some x.holder, after := .loan })
            p x.holder))))) ∧
      ((offered x = false ∨ x.target ≠ some me) →
        exec (.accept d a) s = .next (cadDone d 5 s1) ∧ exec (.decline d a) s = .next (cadDone d 5 s1)) ∧
      (x.holder = me → offered x = true → exec (.withdraw d a) s = .next (cadDone d 0 (setEntry s1 p
        { x with state := .held, outcome := 3, target := none, wipe := false, term := 0 }))) ∧
      (x.holder = me → x.state = .held → x.outcome = 2 → exec (.withdraw d a) s = .next (cadDone d 4 (setEntry s1 p { x with outcome := 0 }))) ∧
      (x.holder ≠ me → exec (.withdraw d a) s = .next (cadDone d 5 s1)))

/-- The end of a loan (R172, R173, R175, R342, R344). RETURN by the occupant begins the reversion and waits RECLAIM. RECLAIM by the
holder of a parcel it has back has status 0, before the term's end 2; after it the notice begins, with status 3, or, for
reclaim.wait, the wait. At its deadline NOTICE_EXPIRY begins the reversion. SCRUB_COMPLETE waits for what the leaver has in flight, saves
and moves the work of a core, and ends the leaver's part; then it ends the transfer: the entry is what the transfer makes it, with GENERATION one higher and OUTCOME as it
was, and a scrubbed frame reads zero, every other byte of HBM being as it was.
It rests on the model's readings in log 25, and that a status comes in the step of issue where the move does not defer is log 23. -/
def Obligations.LoanResults : Prop :=
  (∀ (s s1 : State) (d a : Reg), Takes [a] (some d) s s1 →
    let p := (gval s1 a).toNat
    let me := curEstate s1
    let x := entryOf s1 p
    CadReady s1 p → x.state ≠ .retired →
    (lent x = true → x.occupant = some me → exec (.cadReturn d a) s = .next (cadWaits d p false (beginReversion s1 p))) ∧
    ((lent x = false ∨ x.occupant ≠ some me) → exec (.cadReturn d a) s = .next (cadDone d 2 s1)) ∧
    (x.holder = me →
      (x.state = .held → exec (.reclaim d a) s = .next (cadDone d 0 s1) ∧ exec (.reclaimWait d a) s = .next (cadDone d 0 s1)) ∧
      (x.state = .onLoan → s1.cycle < x.deadline →
        exec (.reclaim d a) s = .next (cadDone d 2 s1) ∧ exec (.reclaimWait d a) s = .next (cadDone d 2 s1)) ∧
      (x.state = .onLoan → x.deadline ≤ s1.cycle →
        exec (.reclaim d a) s = .next (cadDone d 3 (startNotice s1 s1.cur.core p x 1)) ∧
        exec (.reclaimWait d a) s = .next (cadWaits d p true (startNotice s1 s1.cur.core p x 1))) ∧
      (x.state = .scrubbing → exec (.reclaim d a) s = .next (cadDone d 6 s1) ∧ exec (.reclaimWait d a) s = .next (cadWaits d p true s1)) ∧
      (x.state = .reclaiming → exec (.reclaim d a) s = .next (cadDone d 3 s1) ∧ exec (.reclaimWait d a) s = .next (cadWaits d p true s1)) ∧
      (offered x = true → exec (.reclaim d a) s = .next (cadDone d 6 s1) ∧ exec (.reclaimWait d a) s = .next (cadDone d 6 s1))) ∧
    (x.holder ≠ me → exec (.reclaim d a) s = .next (takeTrap ⟨.notHeld, 0, parcelAux p 6, 0⟩ s1))) ∧
  ∀ (s : State) (p : Nat),
    let x := entryOf s p
    ((x.state = .reclaiming ∨ (x.retiring = true ∧ x.state ≠ .scrubbing)) → x.deadline ≤ s.cycle →
      exec (.noticeExpiry p) s = .next (beginReversion s p)) ∧
    (∀ l, x.leaving = some l → leaveReady s p l = false → exec (.scrubComplete p) s = .next s) ∧
    (∀ l, x.leaving = some l → leaveReady s p l = true →
      let s0 := if parcelKind p = 1 then returnStatus (parcelIndex p) s else s
      let s1 := leaveWork s0 p
      (leaveReady s0 p l = false → exec (.scrubComplete p) s = .next s0) ∧
      (leaveReady s0 p l = true → workLeft s1 p = true → exec (.scrubComplete p) s = .next s1) ∧
      (leaveReady s0 p l = true → workLeft s1 p = false →
        (x.state = .scrubbing → exec (.scrubComplete p) s = .next (endLeave s1 p)) ∧
        (x.state = .offeredGive → exec (.scrubComplete p) s = .next (endTransfer s1 p)))) ∧
    (x.state = .scrubbing → x.leaving = none → scrubReady s p = false → exec (.scrubComplete p) s = .next s) ∧
    (x.state = .scrubbing → x.leaving = none → scrubReady s p = true →
      exec (.scrubComplete p) s = .next (endTransfer s p) ∧ entryOf (endTransfer s p) p = enteredAs x ∧
      (enteredAs x).gen = x.gen + 1 ∧ (enteredAs x).outcome = x.outcome ∧
      (parcelKind p = 4 → ∀ q, byteAt (endTransfer s p) (.hbm q) =
        if q / 2097152 = parcelIndex p then 0 else byteAt s (.hbm q)))

/-- Charters, musters, escheat, surveys and easements complete (R178 to R182, R281, R286, R298, R299, R331, R356). CHARTER of a HELD
ESTATE parcel by its holder with a good image makes the estate exist; of an estate in use, by it or its guarantor, it rewrites the
record. MUSTER by the guarantor sets the muster and sends its record, ANSWER by the estate answers it; ESCHEAT after an unanswered
deadline, once no commit of theirs is in progress, dissolves the estate with all that it guarantees, and waits RECLAIM while one of them has still to leave what it used. SURVEY gives the entry to its own partition and to the principal, else
only the partition. EASE adds an easement, or revokes one, and then ends once what the grant admitted has been performed.
It rests on the model's readings in log 25; that a status comes in the step of issue where the move does not defer is log 23, and that a
second grant like one that stands is another entry, of which a revoke takes one, is the model's choice (log 54). -/
def Obligations.AuthorityResults : Prop :=
  ∀ (s s1 : State) (d a b : Reg) (e : EReg),
    let p := (gval s1 a).toNat
    let me := curEstate s1
    let x := entryOf s1 p
    let id := parcelIndex p
    (Takes [a] (some d) s s1 → CadReady s1 p →
      (∀ image s2, parcelKind p = 0 → Ends (loadOperand 0 (eval s1 e.toNat).toNat 256 8) s1 image s2 → s2.cur.defer = false →
        curEstate s2 = me → entryOf s2 p = x →
        let ds := (cutBits 64 image 32).map (BitVec.ofNat 64)
        imageOk ds = true → eval s2 (e.toNat + 3) = 0 → x.state ≠ .retired →
        (x.inuse = true → (id = me ∨ x.holder = me) → eval s2 (e.toNat + 1) = 0 → eval s2 (e.toNat + 2) = 0 →
          ∀ y, mapFind s2.estates id = some y → exec (.charter d a e) s = .next (cadDone d 0 (setEstate s2 id { y with dwords := ds }))) ∧
        (x.inuse = false → x.state = .held → x.holder = me → eval s2 (e.toNat + 1) = 0 → eval s2 (e.toNat + 2) = 0 →
          exec (.charter d a e) s = .next (cadDone d 0 (setEstate (setEntry s2 p { x with inuse := true }) id
            { part := (estateOf s2 me).part, guarantor := me, dwords := ds })))) ∧
      (parcelKind p = 0 → id ≠ me → x.state ≠ .retired → guarantees s1 me p = true →
        (3600 ≤ (eval s1 e.toNat).toNat → (eval s1 e.toNat).toNat < 2 ^ 48 →
          ((estateOf s1 id).muster = 1 → exec (.muster d a e) s = .next (cadDone d 6 s1)) ∧
          ((estateOf s1 id).muster ≠ 1 → let deadline := s1.cycle + (eval s1 e.toNat).toNat;
            exec (.muster d a e) s = .next (cadDone d 0 (sinkRecord
              (setEstate s1 id { estateOf s1 id with muster := 1, musterDeadline := deadline }) s1.cur.core id
              { kind := 4, addr := BitVec.ofNat 64 deadline, aux := BitVec.ofNat 64 me })))) ∧
        ((estateOf s1 id).muster = 1 → (estateOf s1 id).musterDeadline ≤ s1.cycle →
          let gone := subtree s1 [id] s1.estates.length
          let s2 := dissolve s1 gone me
          (estatesCommit s1 gone = true → exec (.escheat d a) s = .next (takeWait { reason := .mem, peer := 4, key := 0 } .none s1)) ∧
          (estatesCommit s1 gone = false →
            exec (.escheat d a) s = .next (if dissolving s2 then cadWaits d p false s2 else cadDone d 0 s2))) ∧
        (((estateOf s1 id).muster ≠ 1 ∨ s1.cycle < (estateOf s1 id).musterDeadline) → exec (.escheat d a) s = .next (cadDone d 2 s1))) ∧
      (let out := if (estateOf s1 me).principal || entryPart s1 x = (estateOf s1 me).part then entryDwords s1 x
          else [entryPart s1 x % 64 * 2 ^ 42, 0, 0, 0];
        exec (.survey d a e) s = .next (cadDone d 0 (putERun e.toNat (out.map (BitVec.ofNat 64)) s1)))) ∧
    (Takes [] (some d) s s1 → mayBeFirm s1 (curSlot s1).task = true → (curSlot s1).stores = [] → s1.cur.defer = false →
      ((estateOf s1 me).muster = 1 → exec (.answer d) s = .next (cadDone d 0 (setEstate s1 me { estateOf s1 me with muster := 2 }))) ∧
      ((estateOf s1 me).muster ≠ 1 → exec (.answer d) s = .next (cadDone d 5 s1))) ∧
    (Takes [a, b] (some d) s s1 → CadReady s1 p → x.state ≠ .retired →
      let grantee := (gval s1 b).toNat
      let count := (eval s1 e.toNat).toNat
      let w := eval s1 (e.toNat + 1)
      let rights := bits w 0 63
      grantee < 2 ^ 28 → 0 < count → count ≤ 4096 → rights < 32 → easeRights (parcelKind p) ≠ 0 →
      rights &&& easeRights (parcelKind p) = rights → (parcelKind p = 4 ∨ count = 1) → id + count ≤ kindCount (parcelKind p) →
      (∀ i, i < count → easable s1 me (p + i) = true) →
      (bits w 63 1 = 0 → rights ≠ 0 → s1.easements.length < 4096 → exec (.ease d a b e) s = .next (cadDone d 0 { s1 with
        easements := s1.easements ++ [⟨me, grantee, p, count, rights⟩] })) ∧
      (bits w 63 1 = 0 → rights ≠ 0 → 4096 ≤ s1.easements.length → exec (.ease d a b e) s = .next (cadDone d 6 s1)) ∧
      (bits w 63 1 = 1 → (∀ g ∈ s1.easements, ¬ (g.grantor = me ∧ g.grantee = grantee ∧ g.parcel = p ∧ g.count = count)) →
        exec (.ease d a b e) s = .next (cadDone d 5 s1)) ∧
      (∀ g, bits w 63 1 = 1 → g ∈ s1.easements → g.grantor = me → g.grantee = grantee → g.parcel = p → g.count = count →
        ∃ g', g' ∈ s1.easements ∧ g'.grantor = me ∧ g'.grantee = grantee ∧ g'.parcel = p ∧ g'.count = count ∧
          let s2 := { s1 with easements := s1.easements.erase g' }
          (easedOut s2 = false → exec (.ease d a b e) s = .next (cadDone d 0 s2)) ∧
          (easedOut s2 = true → exec (.ease d a b e) s =
            .next (takeWait { reason := .mem, sent := true, peer := 4, key := 0 } (.cad d p (some 0) 0 [] true) s2))))


/-! ### Paging and segments -/

/-- MAPF, UNMAP, WAKE, WAKE.fail, SEGW and SEGR complete (R111 to R117, R320 to R322, R348, R364, R365, R374). MAPF gives the status of
the first check that fails, else it writes the entry, of a 64 KiB page sixteen entries, with its two dwords, a fresh table reading zero,
without poison; UNMAP clears the entry of the page, or of an empty table, of a 64 KiB page all sixteen; both are done at once where no port
has to be waited for, and a leaf replaced or removed is dropped from every port's TLB. The status write is an acquire. WAKE and WAKE.fail
act at the writeback point: an outstanding token of the estate is ended, by WAKE.fail so that every thread that waits on it parks with
PAGE_INVALID; of another token nothing is changed. SEGW writes a segment register from three e registers and SEGR reads one. A port that
has performed its accesses acknowledges a shootdown. That MAPF and UNMAP end in the step of issue where the move does not defer is the
model's reading (log 23). -/
def Obligations.PagingResults : Prop :=
  ∀ (s s1 : State) (d a : Reg) (e : EReg) (k : SReg),
    let p0 := eval s1 e.toNat
    let p1 := eval s1 (e.toNat + 1)
    let va := gval s1 a
    let ends := fun (status : Nat) (s : State) => endTable d status s
    let group := fun (x : Nat) => (List.range 16).map (fun i => x / 256 * 256 + 16 * i)
    let lines := fun (es : List Nat) => (es.map (· / 64)).eraseDups
    let quiet := s1.cur.defer = false ∧ ∀ p, p < 128 → portBusy s1 p = false;
    (Takes [a] (some d) s s1 → mayBeFirm s1 (curSlot s1).task = true → (curSlot s1).stores = [] →
      (∀ n, mapPlan s1 (curEstate s1) va p0 p1 = .status n → exec (.mapf d a e) s = .next (ends n s1)) ∧
      (∀ x pa, mapPlan s1 (curEstate s1) va p0 p1 = .table x pa → quiet →
        let z := zeroTable s1 pa
        let s2 := writePte p0 p1 { z with tables := pa :: z.tables.filter (· != pa) } x
        exec (.mapf d a e) s = .next (ends 0 (shootNow s2 (if pteValid (pteAt s1 x).1 then [x / 64] else [])))) ∧
      (∀ es, mapPlan s1 (curEstate s1) va p0 p1 = .leaf es →
        (pteSize p0 = 1 → ∃ x, es = group x) ∧ (pteSize p0 ≠ 1 → ∃ x, es = [x]) ∧
        (quiet → exec (.mapf d a e) s = .next (ends 0 (shootNow (es.foldl (writePte p0 p1) s1)
          (lines (es.filter (fun x => pteValid (pteAt s1 x).1))))))) ∧
      (bits va 48 16 ≠ 0 → exec (.unmap d a) s = .next (ends 4 s1)) ∧
      (let path := (pathOf s1 (curEstate s1) va.toNat).filter (fun x => pteIsValid x.1 (x.2.2.1, x.2.2.2));
        bits va 48 16 = 0 →
        (path = [] → exec (.unmap d a) s = .next (ends 1 s1)) ∧
        (∀ level x q0 q1, path.getLast? = some (level, x, q0, q1) → quiet →
          (pteSize q0 = 0 ∨ pteSize q0 = 2 → exec (.unmap d a) s = .next (ends 0 (shootNow (writePte 0 0 s1 x) [x / 64]))) ∧
          (pteSize q0 = 1 → exec (.unmap d a) s = .next (ends 0 (shootNow ((group x).foldl (writePte 0 0) s1) (lines (group x))))) ∧
          (pteSize q0 = 3 → tableEmpty s1 (ptePa q0) (level + 1) = false → exec (.unmap d a) s = .next (ends 1 s1)) ∧
          (pteSize q0 = 3 → tableEmpty s1 (ptePa q0) (level + 1) = true → exec (.unmap d a) s = .next (ends 0 (shootNow
            { writePte 0 0 s1 x with tables := s1.tables.filter (· != ptePa q0) } [x / 64])))))) ∧
    (∀ pa, pa % 64 = 0 → Memory.wf s1.hbm = true →
      (∀ i, i < 8192 → memGet (zeroTable s1 pa).hbm (pa + i) = 0) ∧
      (∀ x, x < pa ∨ pa + 8192 ≤ x → memGet (zeroTable s1 pa).hbm x = memGet s1.hbm x) ∧
      ∀ l, pa / 64 ≤ l → l < pa / 64 + 128 → l ∉ (zeroTable s1 pa).hbmPoison) ∧
    (∀ x q0 q1, Memory.wf s1.hbm = true → let t := (group x).foldl (writePte q0 q1) s1
      (∀ y ∈ group x, y / 64 ∉ s1.hbmPoison ∧ (∀ l ∈ s1.lostLines, l.1 ≠ y / 64) ∧ y / 64 ∉ s1.hostHeld) →
      (∀ y ∈ group x, pteAt t y = (q0, q1)) ∧
      ∀ a, (a < x / 256 * 256 ∨ x / 256 * 256 + 256 ≤ a) → memGet t.hbm a = memGet s1.hbm a) ∧
    (Takes [a] none s s1 →
      exec (.wake a) s = .next (endFall 1 (addWb (wbPoint s1 1) (.wake false va.toNat) s1)) ∧
      exec (.wakeFail a) s = .next (endFall 1 (addWb (wbPoint s1 1) (.wake true va.toNat) s1))) ∧
    (∀ (core token : Nat) (fail : Bool) (b : Wb), b.act = .wake fail token →
      let est := (slotOf s core b.slot).estate
      applyThread core s b = wakeToken fail s est token ∧
      ((∀ f ∈ s.faults, ¬ (f.estate = est ∧ f.token = token)) → wakeToken fail s est token = s) ∧
      (∀ f ∈ (wakeToken false s est token).faults, ¬ (f.estate = est ∧ f.token = token)) ∧
      ((∃ f ∈ s.faults, f.estate = est ∧ f.token = token) → (∀ o ∈ s.ops, ¬ (o.2.estate = est ∧ o.2.token = some token)) →
        let m := markSaved true est token { s with faults := s.faults.filter (fun f => !(f.estate == est && f.token == token)) }
        wakeToken true s est token = (joined m est token).foldl (pageFails token) m)) ∧
    (attrsOk (eval s (e.toNat + 2)) = true → exec (.segw k e) s = .next (endFall 1 (setCurSlot s { curSlot s with
      sg := (curSlot s).sg.setIfInBounds k.toNat ⟨eval s e.toNat, eval s (e.toNat + 1), eval s (e.toNat + 2)⟩ }))) ∧
    (attrsOk (eval s (e.toNat + 2)) = false → exec (.segw k e) s = .next (takeTrap ⟨.illegal, 0, illegalAux s, 0⟩ s)) ∧
    (let x : Seg := (curSlot s).sg[k.toNat]?.getD {};
      exec (.segr e k) s = .next (endFall 1 (putERun e.toNat [x.base, x.limit, x.attrs] s))) ∧
    (∀ port j, s.shootdowns.find? (·.port == port) = some j → portBusy s port = false →
      let s2 := { invalidatePort j.line s port with shootdowns := s.shootdowns.filter (· != j) };
      ((∃ i ∈ s2.shootdowns, i.core = j.core ∧ i.slot = j.slot) → exec (.shootdownInvalidate port) s = .next s2) ∧
      (∀ d status, (∀ i ∈ s2.shootdowns, ¬ (i.core = j.core ∧ i.slot = j.slot)) → (slotOf s2 j.core j.slot).pend = .shoot d status →
        exec (.shootdownInvalidate port) s = .next (resume j.core j.slot (replyCall d (BitVec.ofNat 64 status)) s2)) ∧
      ∀ t ∈ tlbOf s2 port, j.line ∉ t.lines)


/-! ### System instructions -/

/-- RDS, WRS and TRAP complete (R39, R84, R143, R188, R191, R341, R359, R376). RDS gives the state register, TRAPREC to the keeper alone;
WRS writes FRM, FFLAGS, WDOG, UIH, UIRET, UIEX and LC0 to LC2 of the thread at once, and WIN, DQBASE and DQLIM of the core at the
writeback point, each where the value is legal; an index outside the table, a read-only one, and an illegal value trap ILLEGAL. TRAP
takes its trap with the code in AUX. SYSC, UINT and NOTIFY complete (R253, R255, R256, R335, R357, R362): the call enters its partition's service queue with a fresh token,
its pointers resolved, and the thread waits SYSC; UINT posts its value to a thread of the estate at the writeback point; NOTIFY writes the mailbox of its vector
and sends the vector's message, or sets its pending bit where it is masked.
The token is a free value (log 3), how a call enters the queue is the model's choice (log 28), and that a thread's own registers are
written at issue, where no other reader sees them before the writeback point, is log 17. -/
def Obligations.StateAndServiceResults : Prop :=
  (∀ (s s1 : State) (d a : Reg) (idx : BitVec 8),
     let n := idx.toNat
     let x := curSlot s1
     let c := curCore s1
     let v := gval s1 a
     let bad := takeTrap ⟨.illegal, 0, illegalAux s, 0⟩ s
     let bad1 := takeTrap ⟨.illegal, 0, illegalAux s1, 0⟩ s1
     (Takes [] (some d) s s1 → (n ≠ 0x0E ∨ isKeeper s.cur.core s.cur.slot = true) →
       ∀ r, stateReg s1 n = some r → exec (.rds d idx) s = .next (writesG 1 d r s1)) ∧
     (stateReg s1 0x03 = some (BitVec.ofNat 64 s1.cycle) ∧ stateReg s1 0x01 = some (BitVec.ofNat 64 x.estate) ∧
       stateReg s1 0x02 = some (BitVec.ofNat 64 (estateOf s1 x.estate).part) ∧ stateReg s1 0x05 = some x.frm ∧
       stateReg s1 0x06 = some x.fflags ∧ stateReg s1 0x08 = some x.wdog ∧ stateReg s1 0x09 = some c.dqbase ∧
       stateReg s1 0x0A = some c.dqlim ∧ stateReg s1 0x0B = some x.uih ∧ stateReg s1 0x0C = some x.uiret ∧
       stateReg s1 0x0D = some c.win ∧ stateReg s1 0x0F = some x.uiex ∧ (∀ k, k < 3 → stateReg s1 (0x10 + k) = x.lc[k]?)) ∧
     ((0x12 < n ∨ (n = 0x0E ∧ isKeeper s.cur.core s.cur.slot = false)) → exec (.rds d idx) s = .next bad) ∧
     ((n < 5 ∨ n = 7 ∨ n = 14 ∨ 0x12 < n) → exec (.wrs idx a) s = .next bad) ∧
     (Takes [a] none s s1 →
       (n = 0x05 → frmOk v = true → exec (.wrs idx a) s = .next (endFall 1 (setCurSlot s1 { x with frm := v }))) ∧
       (n = 0x06 → fflagsOk v = true → exec (.wrs idx a) s = .next (endFall 1 (setCurSlot s1 { x with fflags := v }))) ∧
       (n = 0x08 → exec (.wrs idx a) s = .next (endFall 1 (setCurSlot s1 { x with wdog := v }))) ∧
       (n = 0x0B → v.getLsbD 0 = false → v.toNat < 2 ^ 48 → exec (.wrs idx a) s = .next (endFall 1 (setCurSlot s1 { x with uih := v }))) ∧
       (n = 0x0C → v.getLsbD 0 = false → v.toNat < 2 ^ 48 → exec (.wrs idx a) s = .next (endFall 1 (setCurSlot s1 { x with uiret := v }))) ∧
       (n = 0x0F → exec (.wrs idx a) s = .next (endFall 1 (setCurSlot s1 { x with uiex := v }))) ∧
       (∀ k, k < 3 → n = 0x10 + k → exec (.wrs idx a) s = .next (endFall 1 (setCurSlot s1 { x with lc := x.lc.setIfInBounds k v }))) ∧
       (n = 0x0D → v.toNat < 2 ^ 40 → exec (.wrs idx a) s = .next (endFall 1 (addWb (wbPoint s1 1) (.win v) s1))) ∧
       (c.deque = [] → v.toNat % 64 = 0 → v.toNat < 2 ^ 18 →
         (n = 0x09 → v ≤ c.dqlim → c.dqlim.toNat ≤ 0x3C000 → exec (.wrs idx a) s =
           .next (endFall 1 (addWb (wbPoint s1 1) (.dqbase v) (setCore s1 s1.cur.core { c with dequeNext := 0 })))) ∧
         (n = 0x0A → c.dqbase ≤ v → v.toNat ≤ 0x3C000 → exec (.wrs idx a) s =
           .next (endFall 1 (addWb (wbPoint s1 1) (.dqlim v) (setCore s1 s1.cur.core { c with dequeNext := 0 }))))) ∧
       ((n = 0x05 ∧ frmOk v = false) ∨ (n = 0x06 ∧ fflagsOk v = false) ∨ ((n = 0x0B ∨ n = 0x0C) ∧ (v.getLsbD 0 = true ∨ 2 ^ 48 ≤ v.toNat)) ∨
           (n = 0x0D ∧ 2 ^ 40 ≤ v.toNat) ∨ ((n = 0x09 ∨ n = 0x0A) ∧ (v.toNat % 64 ≠ 0 ∨ 2 ^ 18 ≤ v.toNat)) →
         exec (.wrs idx a) s = .next bad1)) ∧
     (∀ code, exec (.trap code) s = .next (takeTrap ⟨.trap, 0, BitVec.ofNat 64 code.toNat, 0⟩ s))) ∧
  ∀ (s s1 s2 : State) (d a b : Reg) (e : EReg) (args : List Word),
    (Takes [] (some d) s s1 → bits (eval s1 e.toNat) 36 28 = 0 → Ends (syscArgs (eval s1 e.toNat) (List.range 6)) s1 args s2 →
      mayBeFirm s2 (curSlot s2).task = true → (curSlot s2).stores = [] →
      let n := fresh s2 (tokensOf s2)
      exec (.sysc d e) s = .next (takeWait { reason := .sysc, sent := true, peer := n.1 } (.sysc d n.1 none)
        (addService n.2 (estateOf s2 (curEstate s2)).part
          (.call (curEstate s2) n.1 s1.cur.core s1.cur.slot (bits (eval s1 e.toNat) 0 12) args)))) ∧
    (Takes [] (some d) s s1 → bits (eval s1 e.toNat) 36 28 ≠ 0 → exec (.sysc d e) s = .next (takeTrap ⟨.illegal, 0, illegalAux s1, 0⟩ s1)) ∧
    (Takes [a, b] none s s1 →
      (16384 ≤ (gval s1 a).toNat → exec (.uint a b) s = .next (takeTrap ⟨.illegal, 0, illegalAux s1, 0⟩ s1)) ∧
      (64 ≤ (gval s1 a).toNat → exec (.notify a b) s = .next (takeTrap ⟨.illegal, 0, illegalAux s1, 0⟩ s1)) ∧
      (mayBeFirm s1 (curSlot s1).task = true →
        ((gval s1 a).toNat < 16384 → exec (.uint a b) s = .next (endFall 1 (addWb (wbPoint s1 1) (.uint (gval s1 a).toNat (gval s1 b)) s1))) ∧
        (∀ (u : State) (core : Nat) (w : Wb) (thread : Nat) (v : Word), w.act = .uint thread v →
          applyThread core u w = postUint u (slotOf u core w.slot).estate thread v) ∧
        ((gval s1 a).toNat < 64 → (curSlot s1).stores = [] →
          let p := (estateOf s1 (curEstate s1)).part
          ∃ t, exec (.notify a b) s = .next (endFall 1 t) ∧ t = { s1 with parts := t.parts } ∧
            (gval s1 b ≠ 0 → mapFind (partOf t p).mailbox (gval s1 a).toNat = some (gval s1 b)) ∧
            ((partOf s1 p).msix = true → (gval s1 a).toNat ∉ (partOf s1 p).masked →
              (partOf t p).msiSent = (gval s1 a).toNat :: (partOf s1 p).msiSent) ∧
            ((partOf s1 p).msix = true → (gval s1 a).toNat ∈ (partOf s1 p).masked →
              (gval s1 a).toNat ∈ (partOf t p).msiPending ∧ (partOf t p).msiSent = (partOf s1 p).msiSent) ∧
            ∀ q, q ≠ p → partOf t q = partOf s1 q)))

/-- The keeper's instructions (R77, R192, R193, R307 to R309): issued elsewhere they trap ILLEGAL. In the keeper, KREAD gives the state
of a parked slot that the selector names, 0 of a slot that is not parked; KWRITE writes it, and leaves a slot that is not parked as it
was; KRET lets a parked slot issue again, at its PC, after the instruction, or at a given PC, and removes its record from the queue. -/
def Obligations.KeeperInstructionResults : Prop :=
  ∀ (s s1 : State) (d a b : Reg),
    let c := s.cur.core
    let k := (gval s1 a).toNat
    let sel := (gval s1 b).toNat
    let bad := takeTrap ⟨.illegal, 0, illegalAux s, 0⟩ s
    (isKeeper c s.cur.slot = false → exec (.kread d a b) s = .next bad ∧ exec (.kwrite d a b) s = .next bad ∧
      exec (.kret a) s = .next bad ∧ exec (.kretSkip a) s = .next bad ∧ exec (.kretPc a b) s = .next bad) ∧
    (isKeeper c s.cur.slot = true → k < 15 →
      (Takes [a, b] (some d) s s1 →
        (∀ v, selected (curCore s1) k (slotOf s1 c k) sel = some v →
          exec (.kread d a b) s = .next (writesG 1 d (if isParked (slotOf s1 c k) then v else 0) s1)) ∧
        (selected (curCore s1) k (slotOf s1 c k) sel = none → exec (.kread d a b) s = .next (takeTrap ⟨.illegal, 0, illegalAux s1, 0⟩ s1))) ∧
      (Takes [a, b, d] none s s1 → writableAs sel (gval s1 d) = true →
        (isParked (slotOf (endFall 1 s1) c k) = false → exec (.kwrite d a b) s = .next (endFall 1 s1)) ∧
        (isParked (slotOf (endFall 1 s1) c k) = true → sel ≠ 0x108 → exec (.kwrite d a b) s =
          .next (setSlot (endFall 1 s1) c k ((slotOf (endFall 1 s1) c k).select sel (gval s1 d)))) ∧
        (isParked (slotOf (endFall 1 s1) c k) = true → sel = 0x108 → exec (.kwrite d a b) s =
          .next { exitSlot (endFall 1 s1) c k with cur := (endFall 1 s1).cur })) ∧
      (Takes [a] none s s1 → exec (.kret a) s = .next (kretSlot (endFall 1 s1) c k .retry) ∧
        exec (.kretSkip a) s = .next (kretSlot (endFall 1 s1) c k .skip)) ∧
      (Takes [a, b] none s s1 → exec (.kretPc a b) s = .next (kretSlot (endFall 1 s1) c k (.jump (gval s1 b))))) ∧
    (∀ (t : State) (r : TrapRec) (how : Resumption), isParked (slotOf t c k) = true → queuedRecord (coreOf t c) k = some r →
      let x := slotOf t c k
      let y := slotOf (kretSlot t c k how) c k
      y.wait = {} ∧ y.live = true ∧ y.g = x.g ∧ y.e = x.e ∧ y.sg = x.sg ∧ y.v = x.v ∧ y.frm = x.frm ∧ y.lc = x.lc ∧
      y.pc = (match how with
        | .retry => x.pc
        | .skip => x.pc + (if r.long then 4 else 2)
        | .jump pc => pc) ∧
      queuedRecord (coreOf (kretSlot t c k how) c) k = none ∧ (∀ j, j ≠ k → slotOf (kretSlot t c k how) c j = slotOf t c j) ∧
      ∀ h, byteAt (kretSlot t c k how) h = byteAt t h)

/-! ### Messages, and the events of threads -/

/-- AMSG, AMSG.r and AMRET and the events of messages complete (R182, R229 to R231, R278, R279). A message to a core of this package whose
stores hold nothing back is answered by the core at once: status 0 when its record enters the ring, 6 when the ring has no room, 2 when
the core is SCRUBBING or RETIRED; AMSG.r of an accepted message waits AMSG for its handler. AMRET by the courier, at its writeback point,
ends the handler and answers the sender; the courier starts the oldest record's handler. Every other message goes out and its sender waits.
It rests on the model's readings in log 44; that g7 gets an offset in the scratchpad is the model's choice (log 68). -/
def Obligations.MessageResults : Prop :=
  (∀ (s s1 : State) (d a b : Reg) (e : EReg), Takes [a, b] (some d) s s1 →
    let name := gval s1 a
    let sel := gval s1 b
    let argc := bits sel 8 3
    let pkg := bits name 14 14
    let core := bits name 0 10
    let seq := (mapFind s1.seqs pkg).getD 0
    let rec0 := fun (reply : Bool) =>
      RingRec.mk 0 0 (bits sel 0 8) (eRun s1 e argc) (curEstate s1) s1.pkgId.toNat (threadId s1.cur.core s1.cur.slot) seq reply
    let t := { s1 with seqs := mapSet s1.seqs pkg ((seq + 1) % 2 ^ 32) }
    bits name 28 36 = 0 → bits name 10 4 = 0 → bits sel 11 53 = 0 → argc ≤ 4 → mayBeFirm s1 (curSlot s1).task = true →
    (pkg = s1.pkgId.toNat → s1.cur.defer = false → (curSlot s1).stores = [] → clusterOf core ∉ s1.halted →
      (∀ u, deliverMessage t core (rec0 false) = (.accepted, u) → exec (.amsg d a b e) s = .next (writesG 1 d 0 u)) ∧
      (∀ u, deliverMessage t core (rec0 false) = (.busy, u) → exec (.amsg d a b e) s = .next (writesG 1 d 6 u)) ∧
      (∀ u, deliverMessage t core (rec0 false) = (.refused, u) → exec (.amsg d a b e) s = .next (writesG 1 d 2 u)) ∧
      (∀ u, deliverMessage t core (rec0 true) = (.busy, u) → exec (.amsgR d a b e) s = .next (writesG 1 d 6 u)) ∧
      (∀ u, deliverMessage t core (rec0 true) = (.accepted, u) → exec (.amsgR d a b e) s =
        .next (takeWait { reason := .amsg, sent := true, peer := name.toNat } (.amsg d e.toNat true seq) u))) ∧
    (pkg ≠ s1.pkgId.toNat → full1024 s1 pkg = false → (curSlot s1).stores = [] →
      ∃ u, exec (.amsg d a b e) s = .next (takeWait { reason := .amsg, sent := true, peer := name.toNat } (.amsg d e.toNat false seq) u) ∧
        u = { t with outbox := u.outbox, outstanding := u.outstanding } ∧
        u.outbox = (pkg, .amsg seq (fabricName s1 (curEstate s1)) core (threadId s1.cur.core s1.cur.slot) (bits sel 0 8)
          (eRun s1 e argc) false) :: s1.outbox ∧
        u.outstanding = s1.outstanding ++ [({ dst := pkg, seq := seq, thread := threadId s1.cur.core s1.cur.slot } : Outstanding)])) ∧
  (∀ (s : State) (core : Nat) (r : RingRec) (occ : Nat), (entryOf s (parcelCore core)).state = .held → coreEstate s core = some occ →
    r.pkg = s.pkgId.toNat → r.estate = occ →
    (ringFree (coreOf s core) < recordBytes r.args.length → deliverMessage s core r = (.busy, s)) ∧
    (recordBytes r.args.length ≤ ringFree (coreOf s core) → ∃ t, deliverMessage s core r = (.accepted, t) ∧
      (coreOf t core).ring = (coreOf s core).ring ++ [{ r with off := (coreOf s core).ringTail, bytes := recordBytes r.args.length }] ∧
      ∀ c, c ≠ core → coreOf t c = coreOf s c)) ∧
  (∀ (s s1 : State) (a : Reg) (r : RingRec), Takes [a] none s s1 →
    ((isCourier s1.cur.core s1.cur.slot = false ∨ (curSlot s1).handling = none) →
      exec (.amret a) s = .next (takeTrap ⟨.illegal, 0, illegalAux s1, 0⟩ s1)) ∧
    (isCourier s1.cur.core s1.cur.slot = true → (curSlot s1).handling = some r → (curSlot s1).stores = [] →
      exec (.amret a) s = .next (endAt (.amret (gval s1 a)) s1) ∧
      ∀ (u : State) (core : Nat) (b : Wb) (v : Word), b.act = .amret v → applyThread core u b = endHandler u core (.replied v))) ∧
  (∀ (s : State) (core pkg estate thread seq handler : Nat) (args : List Word) (reply : Bool), core < 1024 → args.length ≤ 4 → thread < 16384 →
    pkg ≠ s.pkgId.toNat → clusterOf core ∉ s.halted →
    let out := deliverMessage s core ⟨0, 0, handler, args, estate, pkg, thread, seq, reply⟩
    (storedAnswer s pkg seq = none → behindWindow s pkg seq = false → exec (.amsgArrive core pkg estate thread seq handler args reply) s =
      .next { keepReply out.2 pkg seq (.answer thread out.1) with outbox := (pkg, .answer thread out.1) :: out.2.outbox }) ∧
    (storedAnswer s pkg seq = none → behindWindow s pkg seq = true →
      exec (.amsgArrive core pkg estate thread seq handler args reply) s = .next s) ∧
    (∀ m, storedAnswer s pkg seq = some m → exec (.amsgArrive core pkg estate thread seq handler args reply) s =
      .next { s with outbox := (pkg, m) :: s.outbox })) ∧
  (∀ (s s1 : State) (core est v : Nat) (r : RingRec) (rest : List RingRec), coreEstate s core = some est → (coreOf s core).ring = r :: rest →
    core < garnet → (slotOf s core 14).live = false → (slotOf s core 14).stores = [] → (slotOf s core 14).streams = [] → clusterOf core ∉ s.halted →
    hwRead s core est ((estateOf s est).courierTable + 8 * r.handler) 8 false 2 = (some v, s1) → v % 2 ^ 48 ≠ 0 →
    ∃ t, exec (.courierStart core) s = .next t ∧ let x := slotOf t core 14
      x.live = true ∧ x.estate = est ∧ x.pc = BitVec.ofNat 64 (v % 2 ^ 48) ∧ x.handling = some r ∧
      (∀ i, i < 4 → x.g[i + 1]? = some (r.args[i]?.getD 0)) ∧ x.g[5]? = some (BitVec.ofNat 64 r.sender) ∧
      x.g[6]? = some (BitVec.ofNat 64 r.header) ∧ x.g[7]? = some (BitVec.ofNat 64 r.off) ∧ (coreOf t core).ring = (coreOf s1 core).ring) ∧
  ∀ (s : State) (core slot e seq : Nat) (d : Reg) (answer : Answer) (reply : Bool),
    let x := slotOf s core slot
    let s1 := { s with outstanding := s.outstanding.filter (fun o => !(o.dst == x.wait.peer / 16384 && o.seq == seq)) }
    core ≤ 1024 → clusterOf core ∉ s.halted → x.live = true → x.wait.reason = .amsg → x.wait.peer / 16384 ≠ s.pkgId.toNat → x.pend = .amsg d e reply seq →
      exec (.amsgAnswer core slot answer) s = .next (answerAmsg s1 core slot answer) ∧
      (reply = false → answer = .accepted → answerAmsg s1 core slot answer = resume core slot (replyG d 0) s1) ∧
      (answer = .busy → answerAmsg s1 core slot answer = resume core slot (replyG d 6) s1) ∧
      (answer = .refused → answerAmsg s1 core slot answer = resume core slot (replyG d 2) s1) ∧
      ∀ v, reply = true → answer = .replied v → answerAmsg s1 core slot answer = resume core slot (do
        modify (fun s => putE e v (closeCombining (threadId core slot) s))
        replyG d 0) s1

/-- The events of threads complete (R34, R41, R120, R194, R195, R198, R226, R256, R267). A reply of a home of this package gives a load
its bytes and ends its wait; a gate's refusal traps it at the reply's own time. The watchdog parks a thread whose wait has counted to its limit; a posted
interrupt reaches its thread outside every loop; a fetched packet is last in its stream's buffer. Jasper handles a trap message, a
Jasper that could not handle one forwards it, and a failing Jasper hands its mailbox on.
It rests on the model's readings in logs 27 and 43. -/
def Obligations.ThreadEvents : Prop :=
  ∀ (s : State) (core slot : Nat),
    let x := slotOf s core slot
    (∀ ps d fmt, x.live = true → x.pend = .load false ps (.g d fmt) → x.gaveUp s.cycle = false → s.reads = [] → core ≤ 1024 → clusterOf core ∉ s.halted →
      (∀ p ∈ ps, p.plain s) → d ≠ 0 → d.toNat < 16 →
      ∃ t, exec (.accessReply core slot .home) s = .next t ∧
        (slotOf t core slot).g = x.g.setIfInBounds d.toNat (widenG fmt (piecesAt s ps)) ∧ (slotOf t core slot).wait = {} ∧
        (slotOf t core slot).pend = .none ∧ ∀ h, byteAt t h = byteAt s h) ∧
    (∀ ps dest cause pkg, x.live = true → x.pend = .load false ps dest → x.gaveUp s.cycle = false → x.wait.reason = .remote →
      askedLine s x.pend = none → core ≤ 1024 → clusterOf core ∉ s.halted →
      exec (.accessReply core slot (.gate cause pkg)) s = .next (trapNow ⟨.gate, (replyAccess s core slot).va,
        fabricAux cause false pkg, x.accSg⟩ { s with cur := issueOf s core slot })) ∧
    (x.live = true → counted x.wait.reason = true → x.wdog ≠ 0 → x.wdog.toNat ≤ x.wdCount → clusterOf core ∉ s.halted →
      exec (.watchdog core slot) s = .next (parkSlot { s with
          outstanding := s.outstanding.filter (fun o => o.orphan || o.line.isSome || o.thread != threadId core slot || isMessage s o) }
        core slot { code := .watchdog, aux := BitVec.ofNat 64 (x.wait.reason.toNat + 256 * x.wait.sent.toNat + 65536 * (x.wait.peer % 2 ^ 48)) }
        x.long)) ∧
    (∀ v, x.posted = some v → x.live = true → x.wait.reason = .none → x.pend = .none → x.barHalf = false → x.past = false → x.uih ≠ 0 →
      x.loops = [] → (∀ r, x.rows = some r → r.done = 0 ∧ r.lost = false) → x.readyAt ≤ ticksOf s core → clusterOf core ∉ s.halted →
      exec (.uintDeliver core slot) s = .next (setSlot s core slot { x with
        uiret := x.pc, pc := x.uih, uih := 0, uiex := x.e[15], e := x.e.set 15 v, posted := none })) ∧
    (∀ (reg : Reg) t p s1, x.streams.find? (·.reg == reg.toNat) = some t → t.isWrite = false → nextFetch t < t.count → x.live = true →
      Ends (fetchPacket core slot t (nextFetch t)) { s with cur := { core := core, slot := slot } } p s1 →
      exec (.streamPacketArrival core reg slot) s = .next (setSlot s1 core slot
        (mapStream (slotOf s1 core slot) reg.toNat (fun t => { t with buffer := t.buffer ++ [p.toNat] })))) ∧
    (∀ m, (coreOf s core).toJasper.find? (·.1 == slot) = some m → clusterOf core ∉ s.halted →
      let j := servingJasper s (clusterOf core)
      mapFind (jasperOf s j).mailbox (mailPlace core slot) = none →
      let s1 := setCore s core { coreOf s core with toJasper := (coreOf s core).toJasper.erase m }
      exec (.jasperTrapMessage core slot) s = .next (jasperTakes s1 j ⟨core, slot, m.2⟩)) ∧
    (∀ j m, s.jaspers.find? (fun j => j.2.mailbox.any (fun m => m.2.core == core && m.2.slot == slot)) = some j →
      j.2.mailbox.find? (fun m => m.2.core == core && m.2.slot == slot) = some m →
      let n := nextJasper s j.1 32
      let s1 := setJasper s j.1 { j.2 with mailbox := mapErase j.2.mailbox m.1 }
      mapFind (jasperOf s1 n).mailbox m.1 = none → exec (.jasperForward core slot) s = .next (jasperTakes s1 n m.2)) ∧
    (∀ j m,
      (∀ s2, jasperHandles s m.core m.slot m.record = (true, s2) → jasperTakes s j m = s2) ∧
      (∀ s2, jasperHandles s m.core m.slot m.record = (false, s2) →
        mapFind (jasperOf (jasperTakes s j m) j).mailbox (mailPlace m.core m.slot) =
          some { m with record := { m.record with hops := m.record.hops + 1 } })) ∧
    (∀ cluster, let n := nextJasper (setJasper s cluster { jasperOf s cluster with failed := true, mailbox := [] }) cluster 32
      n ≠ cluster → ∃ t, exec (.jasperFailover cluster) s = .next t ∧ (jasperOf t cluster).failed = true ∧ (jasperOf t cluster).mailbox = [] ∧
        ∀ m ∈ (jasperOf s cluster).mailbox, (mapFind (jasperOf t n).mailbox m.1).isSome = true)


/-! ### Garnet and the host -/

/-- Launch records and commands complete (R146, R178, R195, R225, R235, R244, R247 to R252, R258, R262 to R268). The host's TAIL write
publishes records, and drops them on an overrun; a record's bytes and no read-only register take its writes. A launch record makes a root
task in its estate's overflow ring and its job; a job with no task left has its completion record written. A command at the head of a
queue of the principal has its effect, and its completion record and HEAD follow, with the status that it comes to.
It rests on the model's choices in logs 6, 8 and 28: statuses that the manual does not give are among them. -/
def Obligations.CommandEvents : Prop :=
  ∀ (s : State) (q rec : Nat),
    let x := queueOf s q
    let e := fun s q rec st cad n => endCommand s q rec st cad n
    let takes := fun code => headRecord s q = some rec ∧ bits (recDw rec 0) 56 8 = code ∧ queueUser s q = some 0 ∧ s.boot = .running ∧ recordTurn s q = true
    (∀ fn value, responds s fn q = true → let n := (value % 65536 + 65536 - x.head) % 65536
      (n ≤ 32 → exec (.tailWrite fn q value) s = .next (setQueue s q { x with tail := value % 65536 })) ∧
      (32 < n → exec (.tailWrite fn q value) s = .next (setQueue s q
        { x with
          tail := value % 65536, head := value % 65536, dropped := min 65535 (x.dropped + n), passed := x.busy.isSome }))) ∧
    (∀ fn o (v : Word), responds s fn q = true → o < 4096 → o % 8 = 0 →
      (o < 0x800 → exec (.registerWrite fn (4096 * q + o) v) s = .next (setQueue s q { x with bytes := memWrite x.bytes o v.toNat 8 })) ∧
      (o = 0x800 → exec (.registerWrite fn (4096 * q + o) v) s = .next (writeTail s q v.toNat)) ∧
      (0x800 < o → exec (.registerWrite fn (4096 * q + o) v) s = .next s)) ∧
    (∀ est, headRecord s q = some rec → queueUser s q = some est → bits (recDw rec 0) 56 8 = 0 → s.boot = .running → recordTurn s q = true →
      let j : Job := { estate := est, queue := q, record := (recDw rec 6).toNat, tag := recDw rec 7 }
      (∀ st s1, rootOf s est rec = (.error st, s1) → exec (.launchRecord q) s = .next (takeHead (endJob s1 j st) q)) ∧
      (∀ t s1 h s2, rootOf s est rec = (.ok t, s1) → createTask s1 garnet t none (fun s t => pushRing s garnet t) = (some h, s2) →
        exec (.launchRecord q) s = .next (takeHead { s2 with jobs := mapSet s2.jobs h j } q))) ∧
    (∀ root j, mapFind s.jobs root = some j → (∀ t ∈ liveTasks s, t.root ≠ root) →
      exec (.jobComplete root) s = .next { endJob s j 0 with jobs := mapErase s.jobs root }) ∧
    (takes 1 → let p := opnd rec 1
      let image := hostRead s (opnd rec 2) 256
      let ds := (cutBits 64 image.1 32).map (BitVec.ofNat 64)
      p ≠ 0 → p ≤ 63 → imageOk ds = true → charterPart s 0 true (BitVec.ofNat 64 (0x40 + p)) (BitVec.ofNat 64 (parcelKey p)) ≠ none →
      freeEstates s ≠ [] → ∃ id ∈ freeEstates s,
        let s1 := openPart { image.2 with draws := s.draws + 1 } p id
        exec (.createPartition q) s = .next (e (setEstate (setEntry s1 (parcelEstate id) { entryOf s1 (parcelEstate id) with inuse := true })
          id { part := p, guarantor := 0, dwords := ds }) q rec 0 0 0)) ∧
    (takes 2 → opnd rec 1 ≠ 0 → opnd rec 1 ≤ 63 →
      let ends := fun (t : State) =>
        if dissolving t then setQueue t q { queueOf t q with busy := some rec } else e t q rec 0 0 0
      (x.busy = none → partCommits s (opnd rec 1) = true → exec (.resetPartition q) s = .next s) ∧
      (x.busy = none → partCommits s (opnd rec 1) = false →
        exec (.resetPartition q) s = .next (ends (resetPartition s (opnd rec 1)))) ∧
      (x.busy = some rec → exec (.resetPartition q) s = .next (ends s))) ∧
    (takes 3 → let p := opnd rec 1
      goodParcel p = true → opnd rec 2 = 1 → opnd rec 3 < 16384 → principalGive s p (opnd rec 3) = some 1 →
      exec (.giveToPartition q) s = .next (e (setEntry s p
        { entryOf s p with state := .offeredGive, target := some (opnd rec 3), wipe := false, term := 0 }) q rec 0 1 0)) ∧
    (takes 4 → let p := opnd rec 1
      retirable p = true →
      ((entryOf s p).state = .retired → exec (.retireCore q) s = .next (e s q rec 0 0 0)) ∧
      ((entryOf s p).state ≠ .retired → exec (.retireCore q) s = .next (setQueue (beginRetirement s p) q
        { queueOf (beginRetirement s p) q with busy := some rec }))) ∧
    (takes 5 → opnd rec 1 < 262144 → spareLeft s (opnd rec 1) (opnd rec 2) = true →
      exec (.spareRow q) s = .next (e { s with sparedRows := (opnd rec 1, opnd rec 2) :: s.sparedRows } q rec 0 0 0)) ∧
    (takes 6 → (opnd rec 1 < 8 → exec (.spareLane q) s = .next (e s q rec 0 0 0)) ∧
      (0x10 ≤ opnd rec 1 → opnd rec 1 < 0x18 → opnd rec 2 < 18 →
        exec (.spareLane q) s = .next (e (swapLane s (opnd rec 1 - 0x10) (opnd rec 2)) q rec 0 0 0)) ∧
      (8 ≤ opnd rec 1 → (opnd rec 1 < 0x10 ∨ 0x18 ≤ opnd rec 1 ∨ 18 ≤ opnd rec 2) → exec (.spareLane q) s = .next (e s q rec 1 0 0))) ∧
    (∀ version, takes 7 → (exec (.updateFirmware q false version) s = .next (e s q rec 1 0 0)) ∧
      (opnd rec 2 = 0 → exec (.updateFirmware q true version) s = .next (e s q rec 1 0 0)) ∧
      (opnd rec 2 ≠ 0 → opnd rec 1 + opnd rec 2 ≤ 2 ^ 48 → version < Config.fusedMinimum → exec (.updateFirmware q true version) s = .next (e s q rec 4 0 0)) ∧
      (opnd rec 2 ≠ 0 → opnd rec 1 + opnd rec 2 ≤ 2 ^ 48 → ¬ version < Config.fusedMinimum → ∃ s1, exec (.updateFirmware q true version) s = .next (e (restartPrincipal s1 abandonCommand) q rec 0 0 0) ∧
        s1.current = !s.current ∧ (imageOf s1 (!s.current)).version = version ∧ (imageOf s1 (!s.current)).size = opnd rec 2 ∧
        (imageOf s1 (!s.current)).data = (hostRead s (opnd rec 1) (opnd rec 2)).1 ∧ imageOf s1 s.current = imageOf s s.current)) ∧
    (takes 8 → 8192 ≤ opnd rec 3 → let nonce := hostRead s (opnd rec 1) 32
      exec (.attest q) s = .next (e (hostWrite nonce.2 (opnd rec 2) 8192 (report nonce.2 nonce.1)) q rec 0 0 0)) ∧
    (takes 9 → (lifeStep s.lifeCycle (opnd rec 1) = none → exec (.lifecycle q) s = .next (e s q rec 1 0 0)) ∧
      (∀ l, lifeStep s.lifeCycle (opnd rec 1) = some l → (List.range 64).any (partCommits s) = true → exec (.lifecycle q) s = .next s) ∧
      (∀ l, lifeStep s.lifeCycle (opnd rec 1) = some l → (List.range 64).any (partCommits s) = false → ∃ failed,
        let s0 := (List.range 64).foldl resetPartition s
        let s1 := rebooted { s0 with lifeCycle := l, draws := s0.draws + 1 } true true ⟨s.pkgId, failed⟩
        exec (.lifecycle q) s = .next (setQueue (e s1 q rec 0 0 0) q (queueOf s1 q)) ∧ s1.lifeCycle = l)) ∧
    (takes 0x0A → opnd rec 1 ≤ 3 → 1 ≤ opnd rec 2 → opnd rec 2 ≤ 4 →
      exec (.setChain q) s = .next (e { s with chains := mapSet s.chains (opnd rec 1) (opnd rec 2) } q rec 0 0 0)) ∧
    (takes 0x0B → let t := hostRead s (opnd rec 1) 1024
      domainOk (Config.domainTable t.1) = true → exec (.setDomain q) s = .next (e
        { t.2 with domain := Config.domainTable t.1, lostPackages := [], directory := [], shadows := [] } q rec 0 0 0)) ∧
    (takes 0x0C → 5 ≤ opnd rec 1 → opnd rec 1 ≤ 200 →
      exec (.setTimer q) s = .next (e { s with timer := opnd rec 1, laneThreshold := opnd rec 2 } q rec 0 0 0)) ∧
    (takes 0x0D → let p := opnd rec 1
      parcelKind p = 1 → goodParcel p = true → opnd rec 2 = 1 → (opnd rec 3 = 0 ∨ 3600 ≤ opnd rec 3) → opnd rec 3 < 2 ^ 48 →
      opnd rec 4 ≤ 63 →
      (x.busy = none → let crews := preemptCrews s (opnd rec 4) (opnd rec 3) (parcelIndex p)
        let s1 := crews.foldl (fun s c => requestCrew c.2 2 s c.1) s
        exec (.preempt q) s = .next (setQueue s1 q { queueOf s1 q with busy := some rec, crews := (crews.map (·.1)).eraseDups, saved := 0 })) ∧
      (x.busy = some rec → (∀ h ∈ x.crews, ¬ ((mapFind s.tasks h).isSome = true ∧ (taskOf s h).phase = .running)) →
        exec (.preempt q) s = .next (e s q rec 0 0 x.saved)) ∧
      (x.busy = some rec → (∃ h ∈ x.crews, (mapFind s.tasks h).isSome = true ∧ (taskOf s h).phase = .running) →
        exec (.preempt q) s = .next s)) ∧
    (∀ code, takes code → 0x0E ≤ code → exec (.unknownCommand q) s = .next (e s q rec 5 0 0)) ∧
    (∀ st cad n, (queueOf (e s q rec st cad n) q).head = (if x.passed then x.head else (x.head + 1) % 65536) ∧
      (queueOf (e s q rec st cad n) q).busy = none)

/-- Garnet's service and the host's events complete (R110, R136, R244, R245, R253, R254, R257 to R259, R262, R263, R265, R267). MAPFILE
gives the pages of its range FILE entries and records the mapping, SYNC writes the DIRTY pages back and answers how many, UNMAPFILE does so
and clears the entries, LAUNCHR places a record on a queue that the caller may launch on or traps GATE, an unknown call answers all ones,
and the answer is g[d] of the thread that waits for the call's token. A page of a mapped file is brought, its entry made VALID and its token
woken, or the token fails. The host reads and writes the device memory that it is admitted to through a decoder, takes and grants lines; the
TDISP states move and a tag failure leaves its stream insecure; the attestation report goes to the DOE mailbox; a function-level reset
resets its partition, a boot starts the package from the image that passes, and the loss of power stops it.
It rests on the model's choices in logs 28, 29, 32 and 59. -/
def Obligations.HostEvents : Prop :=
  ∀ (s : State) (core slot fn line : Nat),
    (∀ est token args s1, takeCall s core slot 0x001 = some (est, token, args, s1) →
      let va := (argOf args 1).toNat
      let len := (argOf args 2).toNat
      let rights := bits (argOf args 3) 0 2
      let pool := (argOf args 4).toNat
      let count := (argOf args 5).toNat
      (poolOk s1 est pool count = false → exec (.mapfile core slot) s = .next (endCallWith s1 token 1)) ∧
      (poolOk s1 est pool count = true → (va % 2097152 ≠ 0 ∨ 2 ^ 48 < va + len) →
        exec (.mapfile core slot) s = .next (endCallWith { s1 with draws := s1.draws + 1 } token (Config.freeWord s1.draws))) ∧
      (poolOk s1 est pool count = true → va % 2097152 = 0 → va + len ≤ 2 ^ 48 → quiet s1 est va len = true →
        let s2 := putLeaves s1 est va len (BitVec.ofNat 64 (fileFlags rights))
        exec (.mapfile core slot) s = .next (endCallWith { s2 with mapped := s2.mapped ++
          [⟨est, argOf args 0, va, len, parcelIndex pool, count, [], rights⟩] } token 0)) ∧
      (poolOk s1 est pool count = true → va % 2097152 = 0 → va + len ≤ 2 ^ 48 → quiet s1 est va len = false →
        exec (.mapfile core slot) s = .next s)) ∧
    (∀ est token args s1, takeCall s core slot 0x002 = some (est, token, args, s1) →
      (∀ m, mappingOf s1 est (argOf args 0).toNat = some m → quiet s1 est m.va m.len = true →
        exec (.sync core slot) s = .next (endCallWith (syncMapping s1 m).2 token (BitVec.ofNat 64 (syncMapping s1 m).1))) ∧
      (mappingOf s1 est (argOf args 0).toNat = none → exec (.sync core slot) s = .next (endCallWith s1 token 0))) ∧
    (∀ est token args s1, takeCall s core slot 0x003 = some (est, token, args, s1) →
      (∀ m, mappingOf s1 est (argOf args 0).toNat = some m → quiet s1 est m.va m.len = true →
        let s2 := putLeaves (syncMapping s1 m).2 est m.va m.len 0
        exec (.unmapfile core slot) s = .next (endCallWith { s2 with mapped := s2.mapped.erase m } token 0)) ∧
      (mappingOf s1 est (argOf args 0).toNat = none → exec (.unmapfile core slot) s = .next (endCallWith s1 token 0))) ∧
    (∀ est token args s1 rec s2 reply, takeCall s core slot 0x020 = some (est, token, args, s1) →
      estateRead s1 est (argOf args 1).toNat 64 3 = (some rec, s2) →
      let q := (argOf args 0).toNat % 64
      let pkg := bits (argOf args 0) 14 14
      let name := fabricName s2 est
      let n := (mapFind s2.seqs pkg).getD 0
      let p := placeRecord s2 q rec
      (pkg = s.pkgId.toNat → mayLaunch s2 name q = true → exec (.launchr core slot reply) s =
        .next (endCallWith p.2 token (BitVec.ofNat 64 p.1))) ∧
      (pkg = s.pkgId.toNat → mayLaunch s2 name q = false → exec (.launchr core slot reply) s =
        .next (endCall s2 token (.trap ⟨.gate, 0, fabricAux 1 false pkg, 0⟩))) ∧
      (pkg ≠ s.pkgId.toNat → full1024 s2 pkg = false → exec (.launchr core slot .home) s = .next (endCallWith { s2 with
        seqs := mapSet s2.seqs pkg ((n + 1) % 2 ^ 32), outbox := (pkg, .request n name (.launch q rec)) :: s2.outbox } token 0))) ∧
    (∀ (s : State) q rec, let x := queueOf s q
      let n := (x.tail + 65536 - x.head) % 65536
      (32 ≤ n → placeRecord s q rec = (6, s)) ∧
      (n < 32 → placeRecord s q rec = (0, setQueue s q { x with
        bytes := memWrite x.bytes (64 * (x.tail % 32)) rec 64, tail := (x.tail + 1) % 65536 }))) ∧
    (∀ est token args s1, (∀ p ∈ s.parts, ∀ i ∈ p.2.service, ∀ e t n a, i = .call e t core slot n a → n ∉ [1, 2, 3, 0x20]) →
      takeCall s core slot 0 = some (est, token, args, s1) →
      exec (.unknownCall core slot) s = .next (endCallWith s1 token (BitVec.allOnes 64))) ∧
    (∀ (s : State) c k d token v C x r, clusterOf c ∉ s.halted → (c, C) ∈ s.cores → (k, x) ∈ C.slots → x.live = true → x.pend = .sysc d token r →
      (∀ p ∈ s.cores, ∀ y ∈ p.2.slots, ∀ d' r', y.2.live = true → y.2.pend = .sysc d' token r' → p.1 = c ∧ y.1 = k ∧ y.2 = x) →
      endCallWith s token v = resume c k (replyCall d v) s) ∧
    (∀ c k (d : Reg) v, d ≠ 0 → d.toNat < 16 → clusterOf c ∉ s.halted →
      let x := slotOf (resume c k (replyCall d v) s) c k
      x.g = (slotOf s c k).g.setIfInBounds d.toNat v ∧ x.wait = {} ∧ x.pend = .none) ∧
    (∀ est token page s1, takeItem s est (.file est token) = some s1 →
      (∀ f, s1.faults.find? (fun f => f.estate == est && f.token == token) = some f →
        (mappingOf s1 est f.va = none → exec (.fileFault est token page) s = .next (wakeToken true s1 est token)) ∧
        (∀ m, mappingOf s1 est f.va = some m → nextPage s1 m = none →
          exec (.fileFault est token page) s = .next (wakeToken true s1 est token)) ∧
        (∀ m n, mappingOf s1 est f.va = some m → nextPage s1 m = some n →
          let room := f.level = 4 ∧ uses s1 est (parcelFrame (n / 512)) = true
          512 * m.pool ≤ n ∧ n < 512 * (m.pool + m.count) ∧ (∀ y ∈ s1.mapped, n ∉ y.used) ∧
          (¬ room → exec (.fileFault est token page) s = .next (wakeToken true s1 est token)) ∧
          (room → let pa := 4096 * n
            let s2 := writePage est pa page 64
              { s1 with mapped := s1.mapped.map (fun x => if x == m then { x with used := n :: x.used } else x) }
            exec (.fileFault est token page) s = .next (wakeToken false
              (writePte (BitVec.ofNat 64 (pa + fileFlags m.rights + 1)) 0 s2 f.entry) est token)))) ∧
      (s1.faults.find? (fun f => f.estate == est && f.token == token) = none → exec (.fileFault est token page) s = .next s1)) ∧
    (∀ nonce : BitVec 256, exec (.spdmMeasurement nonce) s = .next { s with doe := report s nonce.toNat }) ∧
    (let x := (partOf s fn).tdisp;
      (x.state = .run →
        let s1 := setPart s fn { partOf s fn with tdisp := { x with state := .error, secure := false, tagFailures := x.tagFailures + 1 } }
        exec (.ideTagFailure fn) s = .next ((s1.ops.filter (fun o => (estateOf s1 o.2.estate).part == fn && readsHost s1 o.2)).foldl
          (fun s o => endOp s o.1 o.2 (some 0x0020)) s1)) ∧
      (x.state ≠ .run → exec (.ideTagFailure fn) s = .next s) ∧
      (s.boot ≠ .running → ∀ dest, exec (.tdispRequest fn dest) s = .next s) ∧
      (fn ≠ 0 → fn < 64 → s.boot = .running →
        (x.state = .configUnlocked → exec (.tdispRequest fn .configLocked) s =
          .next (setPart s fn { partOf s fn with tdisp := { x with state := .configLocked } })) ∧
        (x.state = .configLocked → ∃ keys, exec (.tdispRequest fn .run) s = .next { setPart s fn { partOf s fn with
          tdisp := { x with state := .run, secure := true, keys := keys } } with draws := s.draws + 1 }) ∧
        exec (.tdispRequest fn .configUnlocked) s =
          .next (setPart s fn { partOf s fn with tdisp := { x with state := .configUnlocked, secure := false, keys := 0 } }))) ∧
    (∀ hpa n, (hostPa s fn hpa = none → ∀ w, exec (.hostMemAccess fn hpa n w) s = .next s) ∧
      (s.boot ≠ .running → ∀ w, exec (.hostMemAccess fn hpa n w) s = .next s) ∧
      ∀ pa, hostPa s fn hpa = some pa → pa % 64 + n ≤ 64 → s.boot = .running →
        (hostAdmitted s fn pa false = true → exec (.hostMemAccess fn hpa n none) s =
          .next { s with hostHeld := pa / 64 :: s.hostHeld.filter (· != pa / 64) }) ∧
        (∀ v, hostAdmitted s fn pa true = true → let s1 := storeHome s (.hbm pa) n v (fullMask n)
          exec (.hostMemAccess fn hpa n (some v)) s = .next { s1 with hostHeld := s1.hostHeld.filter (· != pa / 64) } ∧
          (s.memOk = true → ∀ h, ¬ h.within (.hbm pa) n → byteAt s1 h = byteAt s h)) ∧
        (hostAdmitted s fn pa false = false → exec (.hostMemAccess fn hpa n none) s = .next s) ∧
        (hostAdmitted s fn pa true = false → ∀ v, exec (.hostMemAccess fn hpa n (some v)) s = .next s)) ∧
    exec (.backInvalidateResponse line) s = .next { s with hostHeld := s.hostHeld.filter (· != line) } ∧
    exec (.snpcur line) s = .next s ∧
    exec (.hostLineEviction line) s = .next (snoopHost true s line) ∧
    (awaitsGo s line = false → exec (.snpdata line) s = .next (snoopHost false s line) ∧
      exec (.snpinv line none) s = .next (snoopHost true s line) ∧
      ∀ v : Packet, exec (.snpinv line (some v)) s = .next (setHost (snoopHost true s line) (64 * line) 64 v.toNat)) ∧
    (awaitsGo s line = true →
      exec (.snpdata line) s = .next { s with agenda := s.agenda ++ [⟨1, .event (.snpdata line)⟩] } ∧
      ∀ v, exec (.snpinv line v) s = .next { s with agenda := s.agenda ++ [⟨1, .event (.snpinv line v)⟩] }) ∧
    (∀ r, rlcFind s none line = some r →
      let home := if r.state = .m then memWrite s.host (64 * line) r.data.toNat 64 else s.host
      (snoopHost false s line).host = home ∧ (r.state ≠ .i → (rlcFind (snoopHost false s line) none line).map (·.state) = some .s) ∧
      (snoopHost true s line).host = home ∧ rlcFind (snoopHost true s line) none line = none) ∧
    (rlcFind s none line = none → ∀ inv, snoopHost inv s line = s) ∧
    (∀ grant value, let ws := hostWaiters s line
      let writes := fun (w : Nat × Nat) => (slotOf s w.1 w.2).pend.writes
      let served := fun (ws : List (Nat × Nat)) (g : Grant) => ws.foldl (replyWaiter .home) (grantLine s line g value)
      (ws = [] → exec (.goResponse line grant value) s = .next s) ∧
      (ws ≠ [] → (∀ w ∈ ws, writes w = false) → exec (.goResponse line grant value) s = .next (served ws .s)) ∧
      ((∃ w ∈ ws, writes w = true) →
        (grant ≠ .s → exec (.goResponse line grant value) s = .next (served ws grant)) ∧
        (grant = .s → let loads := ws.filter (fun w => !writes w)
          exec (.goResponse line grant value) s = .next (if loads = [] then s else served loads .s))) ∧
      (rlcFind s none line = none → (rlcFind (grantLine s line grant none) none line).map (fun r => (r.state, r.data)) =
        some (if grant = .s then .s else .e, hostData s line))) ∧
    (0 < fn → fn < 64 → partCommits s fn = false → let s1 := resetPartition s fn
      exec (.functionLevelReset fn) s = .next (setPart s1 fn { partOf s1 fn with tdisp := {} })) ∧
    (0 < fn → fn < 64 → partCommits s fn = true →
      exec (.functionLevelReset fn) s = .next { s with agenda := s.agenda ++ [⟨1, .event (.functionLevelReset fn)⟩] }) ∧
    ((List.range 64).any (partCommits s) = false →
      exec (.functionLevelReset 0) s = .next (restartPrincipal ((List.range 64).foldl resetPartition s) abandonCommand)) ∧
    (∀ okA okB links, let t := rebooted s okA okB links
      let passes := fun copy => imagePasses s copy (if copy then okB else okA)
      exec (.boot okA okB links) s = .next t ∧ (t.boot = .running → t.pkgId = links.pkgId ∧
        ∀ p, p < 8 → ((portOf t p).isolated = true ↔ p ∈ links.failed)) ∧ t.host = s.host ∧ t.hbm = [] ∧ t.commons = [] ∧
      t.cores = [] ∧ t.cad = [] ∧ t.estates = State.reset.estates ∧ t.cycle = 0 ∧ t.lifeCycle = s.lifeCycle ∧ t.images = s.images ∧
      (s.cadastreFailed = false → s.lifeCycle ≠ .decommissioned →
        (passes s.current = true → t.boot = .running ∧ t.current = s.current) ∧
        (passes s.current = false → passes (!s.current) = true → t.boot = .running ∧ t.current = !s.current)) ∧
      (s.cadastreFailed = true → t.boot = .recovery) ∧
      (passes false = false → passes true = false → t.boot = .recovery ∧ t.current = s.current)) ∧
    exec .powerLoss s = .next { s with boot := .off }

/-! ### The fabric, the directory and live service -/

/-- The events of the fabric and of live service complete (R11, R14, R110, R223 to R226, R232, R234, R240, R266, R267, R269). A request with no
route is answered with FABRIC_ERROR, to the access, the packet or the copy that it is for, and a packet with a port is held toward it; flits put a port in replay or end it, and the sixteenth
failed replay isolates it, which fails the requests held; a lane with too many corrected errors is replaced, and below 8 lanes the port
goes; a request whose timer ends is sent again, seven times, then its requester traps; a request from another package is performed
once, and its stored reply answers a second one; a refused one changes nothing. Clocks, errors and spares change what the manual says
they change.
It rests on the model's readings in logs 8, 34 and 70. -/
def Obligations.FabricEvents : Prop :=
  ∀ (s : State) (port dst seq : Nat),
    (∀ src d cls,
      (∀ cause, route s dst d = .error cause → exec (.routePacket ⟨src, seq, dst, .req⟩ d) s = .next (refuseRequest cause ⟨src, seq, dst, .req⟩ s) ∧
        (cls ≠ .req → exec (.routePacket ⟨src, seq, dst, cls⟩ d) s = .next s)) ∧
      (∀ p, route s dst d = .port p → ⟨src, seq, dst, cls⟩ ∉ (portOf s p).held → exec (.routePacket ⟨src, seq, dst, cls⟩ d) s =
        .next (setPort s p { portOf s p with held := (portOf s p).held ++ [⟨src, seq, dst, cls⟩] }))) ∧
    (∀ cause src cls, (src ≠ s.pkgId.toNat → refuseRequest cause ⟨src, seq, dst, cls⟩ s = { s with outbox := (src, .error seq cause) :: s.outbox }) ∧
      ∀ o, src = s.pkgId.toNat → s.outstanding.find? (fun o => o.dst == dst && o.seq == seq) = some o →
        refuseRequest cause ⟨src, seq, dst, cls⟩ s = failRequest cause s o) ∧
    (∀ (cause : Nat) (o : Outstanding), o.line = none →
      let s1 := { s with outstanding := s.outstanding.erase o }
      let r : Reply := .fabricError cause s.pkgId.toNat
      (∀ m w, o.packet = none → o.copy = none → o.orphan = false → o.thread ∉ [noThread, stewardThread, scrubThread] →
        (slotsOf o.thread).find? (fun w => waitsFor (slotOf s1 w.1 w.2) o.dst) = some w →
        (∀ a b c d, (slotOf s1 w.1 w.2).pend ≠ .amsg a b c d) → replyTo s1 w.1 w.2 r = some m →
        failRequest cause s o = resume w.1 w.2 m s1) ∧
      (∀ reg, o.packet = some reg → failRequest cause s o = (packetWaiters s1 o.thread reg).foldl (replyWaiter r) s1) ∧
      (∀ op elem eo, o.packet = none → o.copy = some (op, elem) → mapFind s.ops op = some eo → clusterOf eo.core ∉ s.halted →
        failRequest cause s o = { s1 with ops := mapSet s1.ops op { eo with failed := some 0x000D } })) ∧
    (port < 8 → (portOf s port).isolated = false →
      let x := portOf s port
      let less := fun lane => { x with
        goodLanes := x.goodLanes - 1, spares := x.goodLanes - 1 - 16, dead := lane :: x.dead, errors := mapErase x.errors lane,
        inReplay := true, replays := 0 }
      (∀ lanes, exec (.flitReceive port ⟨true, lanes⟩) s =
        .next (lanes.foldl (countErrors port) (setPort s port { x with inReplay := false, replays := 0, held := passOn x.held }))) ∧
      (∀ lanes, (x.inReplay = false → exec (.flitReceive port ⟨false, lanes⟩) s = .next (setPort s port { x with inReplay := true, replays := 0 })) ∧
        (x.inReplay = true → x.replays < 15 →
          exec (.flitReceive port ⟨false, lanes⟩) s = .next (setPort s port { x with replays := x.replays + 1 })) ∧
        (x.inReplay = true → 15 ≤ x.replays → exec (.flitReceive port ⟨false, lanes⟩) s = .next (isolate s port))) ∧
      (∀ lane, lane < 18 → lane ∉ x.dead →
        (8 < x.goodLanes → exec (.laneSwap port lane) s = .next (setPort s port (less lane))) ∧
        (x.goodLanes ≤ 8 → exec (.laneSwap port lane) s = .next (isolate (setPort s port (less lane)) port)) ∧
        (let n := (mapFind x.errors lane).getD 0 + 1;
          (n ≤ s.laneThreshold → countErrors port s lane = setPort s port { x with errors := mapSet x.errors lane n }) ∧
          (s.laneThreshold < n → countErrors port s lane = swapLane s port lane))) ∧
      exec (.portIsolation port) s = .next (isolate s port) ∧
      ((∀ h ∈ x.held, h.cls ≠ .req) → isolate s port =
        { setPort s port { x with isolated := true, inReplay := false, held := [] } with reports := .isolation port :: s.reports })) ∧
    (∀ o m, s.outstanding.find? (fun o => o.dst == dst && o.seq == seq) = some o →
      (∀ p, route s dst 0 = .port p → (portOf s p).inReplay = false) →
      (7 ≤ o.resends → exec (.e2eTimeout dst seq) s = .next (failRequest 3 s o)) ∧
      (o.resends < 7 → sentMessage s dst seq = some m → exec (.e2eTimeout dst seq) s = .next { s with
        outbox := ((match o.line with
          | some l => if o.thread = stewardThread then dst else (stewardOf s l.1 l.2).getD dst
          | none => dst), m) :: s.outbox,
        outstanding := s.outstanding.map (fun p => if p == o then { p with resends := p.resends + 1 } else p) })) ∧
    (∀ src est op, src ≠ s.pkgId.toNat →
      let r := performRequest s (16384 * src + est) seq op
      (∀ m, storedAnswer s src seq = some m → exec (.remoteRequest src seq est op) s = .next (sendReply s src seq m)) ∧
      (storedAnswer s src seq = none → behindWindow s src seq = false → requestHeld s op = false →
        exec (.remoteRequest src seq est op) s = .next (sendReply (keepReply r.2 src seq r.1) src seq r.1))) ∧
    (∀ grantee pa n data mask, gateCheck s grantee pa 1 = none → ∀ v, loadHome s (.hbm pa) n = .value v →
      performRequest s grantee seq (.load pa n) = (.done seq (some v), s) ∧
      (gateCheck s grantee pa 2 = none → meetsLoss s ⟨⟨.hbm pa, n, none⟩, data, mask⟩ = none →
        meetsPoison s ⟨⟨.hbm pa, n, none⟩, data, mask⟩ = false →
        performRequest s grantee seq (.store pa n data mask) = (.done seq none, storeHome s (.hbm pa) n data mask))) ∧
    (∀ grantee pa n data mask c, gateCheck s grantee pa 2 = some c → (performRequest s grantee seq (.store pa n data mask)).2 = s) ∧
    (∀ island freq, island < 16 → 9 ≤ freq → freq ≤ 36 →
      let t := { s with islands := mapSet s.islands island { islandGet s island with freq := freq } }
      (freq < (islandGet s island).freq → exec (.governorThrottle island freq) s = .next t) ∧
      ((islandGet s island).freq < freq → exec (.governorRaise island freq) s = .next t)) ∧
    (∀ pa, pa < 2 ^ 39 → exec (.uncorrectableError pa) s = .next { s with hbmPoison := pa / 64 :: s.hbmPoison.filter (· != pa / 64) } ∧
      exec (.sramError (.hbmLine pa)) s = exec (.uncorrectableError pa) s) ∧
    exec (.sramError .single) s = .next { s with sramErrors := s.sramErrors + 1 } ∧
    (∀ die logical, die < 4 → logical < 80 → let n := (mapFind s.unitErrors (die * 80 + logical)).getD 0 + 1
      let s1 := { s with sramErrors := s.sramErrors + 1 }
      (n < Config.eccThreshold → exec (.sramError (.corrected false die logical)) s =
        .next { s1 with unitErrors := mapSet s.unitErrors (die * 80 + logical) n }) ∧
      (Config.eccThreshold ≤ n → exec (.sramError (.corrected false die logical)) s =
        .next { sliceSwap false die logical s1 with unitErrors := mapErase s.unitErrors (die * 80 + logical) })) ∧
    (∀ core off, core < garnet → off < 2 ^ 18 → exec (.sramError (.scratchLine core off)) s = .next (setCore s core { coreOf s core with
      scratchPoison := off / 64 :: (coreOf s core).scratchPoison.filter (· != off / 64) })) ∧
    (∀ core slot (wide : Bool) (r : Reg), (slotOf s core slot).live = true → r.toNat < 16 → (r ≠ 0 ∨ wide = true) →
      exec (.sramError (.register core slot wide r)) s = .next (setSlot s core slot { slotOf s core slot with
        poison := (wide, r.toNat) :: (slotOf s core slot).poison.filter (· != (wide, r.toNat)) })) ∧
    (∀ core est va task l, l1Find s core est va task = some l →
      exec (.sramError (.l1Line core est va task)) s = .next (l1Set s core { l with poison := true })) ∧
    (∀ pkg l r, rlcFind s pkg l = some r → r.state ≠ .i → exec (.sramError (.rlcData pkg l)) s = .next (rlcSet s { r with poison := true })) ∧
    (∀ p est page, exec (.sramError (.tlb p est page)) s = .next { s with
      tlbs := mapSet s.tlbs p ((tlbOf s p).filter (fun t => !(t.estate == est && t.page == page))) }) ∧
    (∀ a, a < 2 ^ 27 → exec (.sramError (.commonsLine a)) s =
      .next { s with commonsPoison := a / 64 :: s.commonsPoison.filter (· != a / 64) }) ∧
    (∀ both, exec (.sramError (.cadastre both)) s = .next { s with cadastreFailed := s.cadastreFailed || both }) ∧
    (∀ frame row, frame < 262144 → spareLeft s frame row = true →
      exec (.hbmRowSpare frame row) s = .next { s with sparedRows := (frame, row) :: s.sparedRows }) ∧
    (∀ die logical, die < 4 → logical < 80 → (∀ p ∈ s.sliceMap, p.1 / 80 ≠ die) →
      exec (.sliceSwap false die logical) s = .next { s with sliceMap := mapSet s.sliceMap (die * 80 + logical) 80, spareSlices := s.spareSlices - 1 }) ∧
    (∀ die logical, die < 4 → logical < 64 → (∀ p ∈ s.bankMap, p.1 / 64 ≠ die) →
      exec (.sliceSwap true die logical) s = .next { s with bankMap := mapSet s.bankMap (die * 64 + logical) 64, spareBanks := s.spareBanks - 1 })

/-- The events of the coherence directory complete (R236 to R240). At the steward a request under a new number joins its line's queue, and a duplicate is not served again; a GetS of a line
that nobody holds reads home, home's answer grants it E, and the requester's Ack ends the transaction with the entry that R238 gives. A
holder answers a forward, an Inv, a recall with what R238 and R239 say and gives its copy up, or keeps it as O or S; Data with its Acks
completes a request; an evicted owner's line waits in the eviction buffer for its Ack.
It rests on the model's readings in log 33. -/
def Obligations.DirectoryEvents : Prop :=
  ∀ (s : State) (q home line : Nat),
    let me := s.pkgId.toNat
    let w := (stewardOf s home line).getD home
    let got := fun (m : FabricMsg) => { s with outbox := s.outbox.erase (me, m) }
    let quiet := ∀ d ∈ s.directory, d.queue = []
    let entry : DirEntry := { home := home, line := line }
    (∀ seq, isSteward s home line = true → q ≠ me → stewardFull s home = false → behindWindow s q seq = false →
      let kept := keepReply s q seq
      (takenBefore s q seq (.getS seq home line) = false → exec (.gets ⟨q, seq⟩ home line) s =
        .next (serve (kept (.getS seq home line)) home line (.getS q))) ∧
      (takenBefore s q seq (.getM seq home line) = false → exec (.getm ⟨q, seq⟩ home line) s =
        .next (serve (kept (.getM seq home line)) home line (.getM q))) ∧
      (takenBefore s q seq (.upgrade seq home line) = false → exec (.upgrade ⟨q, seq⟩ home line) s =
        .next (serve (kept (.upgrade seq home line)) home line (.upgrade q))) ∧
      (∀ v, takenBefore s q seq (.putM seq home line v) = false → exec (.putm ⟨q, seq⟩ home line v) s =
        .next (servePut (kept (.putM seq home line v)) q home line v false)) ∧
      (∀ v, takenBefore s q seq (.putO seq home line v) = false → exec (.puto ⟨q, seq⟩ home line v) s =
        .next (servePut (kept (.putO seq home line v)) q home line (some v) true)) ∧
      (takenBefore s q seq (.getS seq home line) = true → dirFind s home line = none → exec (.gets ⟨q, seq⟩ home line) s = .next s)) ∧
    (dirFind s home line = none → quiet → stewardFull s home = false →
      ((setWays s home line).length < 16 → homeLost s home = false → serve s home line (.getS q) = stewardRequest home (.readHome line)
        (some (home, line)) (dirSet (dirPut s { entry with queue := [.getS q] }) { entry with busy := some (.getS q) })) ∧
      (∀ v owned, servePut s q home line v owned =
        post q (.putAck home line) (dirPut (dirPut s { entry with queue := [.put q v owned] }) entry))) ∧
    (∀ d v, dirFind s home line = some d → mirrorFull s = false →
      let s1 := { got (.homeData home line (.line v)) with
        outstanding := s.outstanding.filter (fun o => !(o.thread == stewardThread && o.line == some (home, line))) }
      (d.busy = some (.getS q) → exec (.homeReply home line (.line v)) s =
        .next (post q (.data home line (if d.state = .i then .e else .s) (some v) d.acks) s1)) ∧
      ((d.busy = some (.getM q) ∨ d.busy = some (.upgrade q)) →
        exec (.homeReply home line (.line v)) s = .next (post q (.data home line .m (some v) d.acks) s1))) ∧
    (∀ d : DirEntry, d.state = .i → d.after false (.getS q) = { d with state := .em, owner := q, sharers := [], bcast := false }) ∧
    (∀ (d : DirEntry) dirty, d.after dirty (.getM q) = { d with state := .em, owner := q, sharers := [], bcast := false } ∧
      d.after dirty (.upgrade q) = d.after dirty (.getM q)) ∧
    (∀ d : DirEntry, d.state = .em → d.owner ≠ q → d.after true (.getS q) = { d with state := .o, sharers := [q] } ∧
      d.after false (.getS q) = { d with state := .s, sharers := [d.owner, q], owner := 0 }) ∧
    (∀ d r dirty, dirFind s home line = some d → mirrorFull s = false → d.busy = some r → requestOf q r = true → q ≠ me → ownDirty s home line = none →
      (∀ b, (me, FabricMsg.ownerAck home line b) ∉ s.outbox) →
      exec (.completionAck q home line dirty) s = .next (pumpAll (dirSet s { d.after dirty r with busy := none, acks := 0 }))) ∧
    (∀ r, holderLine s home line owns = some r →
      (exec (.fwds q home line) s = .next (post w (.ownerAck home line (r.state != .e)) (post q (.data home line .s (some r.value) 0)
        (rlcSet (got (.fwdS q home line)) { r with state := if r.state = .e then .s else .o })))) ∧
      (∀ acks, exec (.fwdm q home line acks) s = .next (post q (.data home line .m (some r.value) acks)
        (giveUpRest (giveUp (got (.fwdM q home line acks)) r) home line)))) ∧
    (∀ r, rlcFind s (some home) line = some r → r.state ≠ .i →
      exec (.inv q home line) s = .next (post q (.ack home line) (giveUp (got (.inv q home line)) r))) ∧
    (rlcFind s (some home) line = none → exec (.inv q home line) s = .next (post q (.ack home line) (got (.inv q home line)))) ∧
    (∀ r, recalledLine s home line = some r →
      let sent := r.evicting = true ∧ ∃ o ∈ s.outstanding, o.thread = putThread ∧ o.line = some (home, line)
      (sent → exec (.recallLine home line) s = .next (giveUpRest (got (.recallLine home line)) home line)) ∧
      (¬ sent → exec (.recallLine home line) s = .next (sendPut w home line (putOf home line r)
        (giveUpRest (giveUp (got (.recallLine home line)) r) home line)))) ∧
    (∀ r, holderLine s home line owns = some r → recalledLine s home line = some r) ∧
    (holderLine s home line owns = none → recalledLine s home line = holderLine s home line (· != .i)) ∧
    (rlcFind s (some home) line = none → giveUpRest s home line = s) ∧
    (∀ r, rlcFind s (some home) line = some r → r.state ≠ .i → giveUpRest s home line = giveUp s r) ∧
    (∀ (r : RlcLine) n, putOf home line r n = if r.state = .m then .putM n home line (some r.value) else if r.state = .e then
      .putM n home line none else .putO n home line r.value) ∧
    (∀ r grant (v : LineData) acks, rlcFind s (some home) line = some r → r.busy = true →
      let s0 := got (.data home line grant (some v) acks)
      let r1 : RlcLine := { r with data := v.data, poison := v.poison }
      (acks ≤ r.early → lineWaiters s home line = [] → exec (.data home line grant (some v) acks) s = .next (post w (.completion home line)
        { rlcSet s0 { r1 with pkg := r.pkg, state := stateOfGrant grant, busy := false, acks := 0, early := 0, grant := none } with
          outstanding := s.outstanding.filter (fun o => !asksLine home line o) })) ∧
      (r.early < acks → exec (.data home line grant (some v) acks) s =
        .next (rlcSet s0 { r1 with grant := some grant, acks := acks - r.early, early := 0 }))) ∧
    (∀ r, rlcFind s (some home) line = some r → r.busy = true → dirFind s home line = none → mirrorFull s = false →
      (r.grant = none → exec (.invAck home line) s = .next (rlcSet (got (.ack home line)) { r with early := r.early + 1 })) ∧
      (∀ g, r.grant = some g → 1 < r.acks → exec (.invAck home line) s = .next (rlcSet (got (.ack home line)) { r with acks := r.acks - 1 })) ∧
      (∀ g, r.grant = some g → r.acks ≤ 1 → exec (.invAck home line) s = .next (completeLine (got (.ack home line)) r g))) ∧
    (∀ r, rlcFind s (some home) line = some r → r.busy = false →
      ((r.state = .s ∨ r.state = .i) → exec (.coherentEviction home line) s = .next (rlcDrop s (some home) line false)) ∧
      (∀ k, owns r.state = true → stewardOf s home line = some k → full1024 s k = false →
        (∀ x ∈ s.rlc, ¬ (x.pkg = some home ∧ x.line = line ∧ x.evicting = true)) →
        exec (.coherentEviction home line) s =
          .next (sendPut k home line (putOf home line r) (rlcSet (rlcDrop s (some home) line false) { r with evicting := true })))) ∧
    exec (.putAck home line) s = .next (rlcDrop { got (.putAck home line) with
      outstanding := s.outstanding.filter (fun o => !(o.thread == putThread && o.line == some (home, line))) } (some home) line true) ∧
    (∀ pkg, pkg ≠ me → pkg ∉ s.lostPackages → 1 < s.domain.length → pkg ∈ s.domain → s.directory = [] → s.shadows = [] →
      (∀ o ∈ s.outstanding, ¬ (o.thread = stewardThread ∧ o.dst = pkg)) →
      exec (.packageLost pkg) s = .next { s with lostPackages := pkg :: s.lostPackages }) ∧
    (∀ pkg (d : DirEntry), d.busy = none → d.state = .em → d.owner = pkg → homeLost s d.home = false →
      loseEntry pkg s d = stewardRequest d.home (.markLost d.line pkg) (some (d.home, d.line)) (dirSet s { d with
        state := .i, owner := 0, busy := some (.lose pkg), acks := 0, sharers := d.sharers.filter (· != pkg),
        queue := d.queue.filter (fun r => !fromPackage pkg r) }))

/-! ### The machine as a whole -/

/-- Every step keeps every memory in its canonical form: HBM, the commons, host memory, the scratchpads, the launch queues' bytes and
the banks of the matrix units stay sorted by address, with no byte listed that reads as an unlisted one. It holds at reset
(ResetLeaves).
The form is the model's own. -/
def Obligations.MemoriesStayCanonical : Prop := ∀ s t : State, s.memOk = true → step s = .next t → t.memOk = true

end
end

