-- ==== Sys2Proof/Laws/Exec.lean ====
section
/-! SUPPORT. Computations of instructions: how they end, and what the shared frames of the scalar and the vector instructions do. -/

namespace Sys2Proof.Machine

theorem Ends.run_eq {m : Exec α} {s s' : State} {a : α} (h : Ends m s a s') : m.run s = (.ok a, s') := h

/-- A computation followed by another. -/
theorem ends_bind {m : Exec α} {f : α → Exec β} {s s' : State} {a : α} (h : Ends m s a s') :
    (m >>= f).run s = (f a).run s' := by
  have h' : m s = (Except.ok a, s') := h
  change (ExceptT.bind m f) s = (f a) s'
  simp only [ExceptT.bind, ExceptT.mk]
  change (StateT.bind m (ExceptT.bindCont f)) s = _
  simp only [StateT.bind, h']
  rfl

@[simp] theorem ends_pure (a b : α) (s s' : State) : Ends (pure a : Exec α) s b s' ↔ a = b ∧ s = s' := by
  change ((Except.ok a, s) : Except Halt α × State) = (Except.ok b, s') ↔ _
  simp

@[simp] theorem ends_get (s a s' : State) : Ends (get : Exec State) s a s' ↔ s = a ∧ s = s' := by
  change ((Except.ok s, s) : Except Halt State × State) = (Except.ok a, s') ↔ _
  simp

@[simp] theorem ends_set (x s s' : State) (u : PUnit) : Ends (set x : Exec PUnit) s u s' ↔ x = s' := by
  change ((Except.ok _, x) : Except Halt PUnit × State) = (Except.ok _, s') ↔ _
  simp

@[simp] theorem ends_modify (f : State → State) (s s' : State) (u : PUnit) : Ends (modify f : Exec PUnit) s u s' ↔ f s = s' := by
  change ((Except.ok _, f s) : Except Halt PUnit × State) = (Except.ok _, s') ↔ _
  simp

theorem get_run (s : State) : (get : Exec State).run s = (.ok s, s) := rfl

theorem modify_run (f : State → State) (s : State) : (modify f : Exec PUnit).run s = (.ok ⟨⟩, f s) := rfl

theorem set_run (x s : State) : (set x : Exec PUnit).run s = (.ok ⟨⟩, x) := rfl

/-- An instruction that ends answers its state. -/
theorem runAt_of_ends {n : Nat} {m : Exec Unit} {s s' : State} (h : m.run s = (.ok (), s')) : runAt n m s = .next s' := by
  simp [runAt, h]

theorem run_of_ends {m : Exec Unit} {s s' : State} (h : m.run s = (.ok (), s')) : run m s = .next s' := runAt_of_ends h

/-- An instruction that traps takes its trap. -/
theorem run_of_traps {m : Exec Unit} {s s' : State} {t : TrapInfo} (h : m.run s = (.error (.trap t), s')) :
    run m s = .next (takeTrap t s') := by simp [run, runAt, h, takeTrap]

/-- An instruction that waits waits. -/
theorem run_of_waits {m : Exec Unit} {s s' : State} {w : WaitState} {p : Pending} (h : m.run s = (.error (.wait w p), s')) :
    run m s = .next (takeWait w p s') := by simp [run, runAt, h]

/-- Every instruction answers a next state: its own end, its trap or its wait. -/
theorem runAt_next (n : Nat) (m : Exec Unit) (s : State) : ∃ t, runAt n m s = .next t := by
  unfold runAt
  split
  · exact ⟨_, rfl⟩
  · exact ⟨_, rfl⟩
  · exact ⟨_, rfl⟩

theorem run_next (m : Exec Unit) (s : State) : ∃ t, run m s = .next t := runAt_next 1 m s

/-- The scalar instructions once their operands are taken. -/
theorem alu_ends {t : Nat} {srcs : List Reg} {d : Reg} {f : State → Word} {s s' : State} (h : Takes srcs (some d) s s') :
    alu t srcs d f s = .next (writesG t d (f s') s') := by
  refine run_of_ends ?_
  rw [ends_bind h]
  rfl

/-- Every scalar instruction answers a next state. -/
theorem alu_next (t : Nat) (srcs : List Reg) (d : Reg) (f : State → Word) (s : State) : ∃ t', alu t srcs d f s = .next t' :=
  run_next _ _

/-- Every vector instruction answers a next state. -/
theorem vec_next (t : Nat) (vs gs : List Reg) (d : Reg) (f : State → Packet × List Nat) (s : State) :
    ∃ t', vec t vs gs d f s = .next t' := runAt_next _ _ _

end Sys2Proof.Machine
end

