-- ==== Sys2Proof/Laws/State.lean ====
section
/-! SUPPORT. What each field of a state is after an update of one entry of one table: one lemma per field per update. -/

namespace Sys2Proof.Machine

@[simp] theorem setCore_cycle (s : State) (c : Nat) (x : Core) : (setCore s c x).cycle = s.cycle := rfl
@[simp] theorem setCore_islands (s : State) (c : Nat) (x : Core) : (setCore s c x).islands = s.islands := rfl
@[simp] theorem setCore_cores (s : State) (c : Nat) (x : Core) : (setCore s c x).cores = mapSet s.cores c x := rfl
@[simp] theorem setCore_halted (s : State) (c : Nat) (x : Core) : (setCore s c x).halted = s.halted := rfl
@[simp] theorem setCore_hbm (s : State) (c : Nat) (x : Core) : (setCore s c x).hbm = s.hbm := rfl
@[simp] theorem setCore_commons (s : State) (c : Nat) (x : Core) : (setCore s c x).commons = s.commons := rfl
@[simp] theorem setCore_host (s : State) (c : Nat) (x : Core) : (setCore s c x).host = s.host := rfl
@[simp] theorem setCore_hbmPoison (s : State) (c : Nat) (x : Core) : (setCore s c x).hbmPoison = s.hbmPoison := rfl
@[simp] theorem setCore_hostHeld (s : State) (c : Nat) (x : Core) : (setCore s c x).hostHeld = s.hostHeld := rfl
@[simp] theorem setCore_commonsPoison (s : State) (c : Nat) (x : Core) : (setCore s c x).commonsPoison = s.commonsPoison := rfl
@[simp] theorem setCore_lostLines (s : State) (c : Nat) (x : Core) : (setCore s c x).lostLines = s.lostLines := rfl
@[simp] theorem setCore_cad (s : State) (c : Nat) (x : Core) : (setCore s c x).cad = s.cad := rfl
@[simp] theorem setCore_estates (s : State) (c : Nat) (x : Core) : (setCore s c x).estates = s.estates := rfl
@[simp] theorem setCore_parts (s : State) (c : Nat) (x : Core) : (setCore s c x).parts = s.parts := rfl
@[simp] theorem setCore_easements (s : State) (c : Nat) (x : Core) : (setCore s c x).easements = s.easements := rfl
@[simp] theorem setCore_voided (s : State) (c : Nat) (x : Core) : (setCore s c x).voided = s.voided := rfl
@[simp] theorem setCore_tasks (s : State) (c : Nat) (x : Core) : (setCore s c x).tasks = s.tasks := rfl
@[simp] theorem setCore_jobs (s : State) (c : Nat) (x : Core) : (setCore s c x).jobs = s.jobs := rfl
@[simp] theorem setCore_faults (s : State) (c : Nat) (x : Core) : (setCore s c x).faults = s.faults := rfl
@[simp] theorem setCore_tables (s : State) (c : Nat) (x : Core) : (setCore s c x).tables = s.tables := rfl
@[simp] theorem setCore_tlbs (s : State) (c : Nat) (x : Core) : (setCore s c x).tlbs = s.tlbs := rfl
@[simp] theorem setCore_sharers (s : State) (c : Nat) (x : Core) : (setCore s c x).sharers = s.sharers := rfl
@[simp] theorem setCore_shootdowns (s : State) (c : Nat) (x : Core) : (setCore s c x).shootdowns = s.shootdowns := rfl
@[simp] theorem setCore_units (s : State) (c : Nat) (x : Core) : (setCore s c x).units = s.units := rfl
@[simp] theorem setCore_ops (s : State) (c : Nat) (x : Core) : (setCore s c x).ops = s.ops := rfl
@[simp] theorem setCore_queues (s : State) (c : Nat) (x : Core) : (setCore s c x).queues = s.queues := rfl
@[simp] theorem setCore_jaspers (s : State) (c : Nat) (x : Core) : (setCore s c x).jaspers = s.jaspers := rfl
@[simp] theorem setCore_chains (s : State) (c : Nat) (x : Core) : (setCore s c x).chains = s.chains := rfl
@[simp] theorem setCore_mapped (s : State) (c : Nat) (x : Core) : (setCore s c x).mapped = s.mapped := rfl
@[simp] theorem setCore_rlc (s : State) (c : Nat) (x : Core) : (setCore s c x).rlc = s.rlc := rfl
@[simp] theorem setCore_reads (s : State) (c : Nat) (x : Core) : (setCore s c x).reads = s.reads := rfl
@[simp] theorem setCore_directory (s : State) (c : Nat) (x : Core) : (setCore s c x).directory = s.directory := rfl
@[simp] theorem setCore_shadows (s : State) (c : Nat) (x : Core) : (setCore s c x).shadows = s.shadows := rfl
@[simp] theorem setCore_domain (s : State) (c : Nat) (x : Core) : (setCore s c x).domain = s.domain := rfl
@[simp] theorem setCore_lostPackages (s : State) (c : Nat) (x : Core) : (setCore s c x).lostPackages = s.lostPackages := rfl
@[simp] theorem setCore_pkgId (s : State) (c : Nat) (x : Core) : (setCore s c x).pkgId = s.pkgId := rfl
@[simp] theorem setCore_ports (s : State) (c : Nat) (x : Core) : (setCore s c x).ports = s.ports := rfl
@[simp] theorem setCore_seqs (s : State) (c : Nat) (x : Core) : (setCore s c x).seqs = s.seqs := rfl
@[simp] theorem setCore_outstanding (s : State) (c : Nat) (x : Core) : (setCore s c x).outstanding = s.outstanding := rfl
@[simp] theorem setCore_replies (s : State) (c : Nat) (x : Core) : (setCore s c x).replies = s.replies := rfl
@[simp] theorem setCore_outbox (s : State) (c : Nat) (x : Core) : (setCore s c x).outbox = s.outbox := rfl
@[simp] theorem setCore_timer (s : State) (c : Nat) (x : Core) : (setCore s c x).timer = s.timer := rfl
@[simp] theorem setCore_laneThreshold (s : State) (c : Nat) (x : Core) : (setCore s c x).laneThreshold = s.laneThreshold := rfl
@[simp] theorem setCore_boot (s : State) (c : Nat) (x : Core) : (setCore s c x).boot = s.boot := rfl
@[simp] theorem setCore_lifeCycle (s : State) (c : Nat) (x : Core) : (setCore s c x).lifeCycle = s.lifeCycle := rfl
@[simp] theorem setCore_images (s : State) (c : Nat) (x : Core) : (setCore s c x).images = s.images := rfl
@[simp] theorem setCore_current (s : State) (c : Nat) (x : Core) : (setCore s c x).current = s.current := rfl
@[simp] theorem setCore_sliceMap (s : State) (c : Nat) (x : Core) : (setCore s c x).sliceMap = s.sliceMap := rfl
@[simp] theorem setCore_bankMap (s : State) (c : Nat) (x : Core) : (setCore s c x).bankMap = s.bankMap := rfl
@[simp] theorem setCore_spareSlices (s : State) (c : Nat) (x : Core) : (setCore s c x).spareSlices = s.spareSlices := rfl
@[simp] theorem setCore_spareBanks (s : State) (c : Nat) (x : Core) : (setCore s c x).spareBanks = s.spareBanks := rfl
@[simp] theorem setCore_sparedRows (s : State) (c : Nat) (x : Core) : (setCore s c x).sparedRows = s.sparedRows := rfl
@[simp] theorem setCore_sramErrors (s : State) (c : Nat) (x : Core) : (setCore s c x).sramErrors = s.sramErrors := rfl
@[simp] theorem setCore_unitErrors (s : State) (c : Nat) (x : Core) : (setCore s c x).unitErrors = s.unitErrors := rfl
@[simp] theorem setCore_cadastreFailed (s : State) (c : Nat) (x : Core) : (setCore s c x).cadastreFailed = s.cadastreFailed := rfl
@[simp] theorem setCore_doe (s : State) (c : Nat) (x : Core) : (setCore s c x).doe = s.doe := rfl
@[simp] theorem setCore_reports (s : State) (c : Nat) (x : Core) : (setCore s c x).reports = s.reports := rfl
@[simp] theorem setCore_agenda (s : State) (c : Nat) (x : Core) : (setCore s c x).agenda = s.agenda := rfl
@[simp] theorem setCore_cur (s : State) (c : Nat) (x : Core) : (setCore s c x).cur = s.cur := rfl
@[simp] theorem setCore_focus (s : State) (c : Nat) (x : Core) : (setCore s c x).focus = s.focus := rfl
@[simp] theorem setCore_history (s : State) (c : Nat) (x : Core) : (setCore s c x).history = s.history := rfl
@[simp] theorem setCore_draws (s : State) (c : Nat) (x : Core) : (setCore s c x).draws = s.draws := rfl

@[simp] theorem setEstate_cycle (s : State) (e : Nat) (x : Estate) : (setEstate s e x).cycle = s.cycle := rfl
@[simp] theorem setEstate_islands (s : State) (e : Nat) (x : Estate) : (setEstate s e x).islands = s.islands := rfl
@[simp] theorem setEstate_cores (s : State) (e : Nat) (x : Estate) : (setEstate s e x).cores = s.cores := rfl
@[simp] theorem setEstate_halted (s : State) (e : Nat) (x : Estate) : (setEstate s e x).halted = s.halted := rfl
@[simp] theorem setEstate_hbm (s : State) (e : Nat) (x : Estate) : (setEstate s e x).hbm = s.hbm := rfl
@[simp] theorem setEstate_commons (s : State) (e : Nat) (x : Estate) : (setEstate s e x).commons = s.commons := rfl
@[simp] theorem setEstate_host (s : State) (e : Nat) (x : Estate) : (setEstate s e x).host = s.host := rfl
@[simp] theorem setEstate_hbmPoison (s : State) (e : Nat) (x : Estate) : (setEstate s e x).hbmPoison = s.hbmPoison := rfl
@[simp] theorem setEstate_hostHeld (s : State) (e : Nat) (x : Estate) : (setEstate s e x).hostHeld = s.hostHeld := rfl
@[simp] theorem setEstate_commonsPoison (s : State) (e : Nat) (x : Estate) : (setEstate s e x).commonsPoison = s.commonsPoison := rfl
@[simp] theorem setEstate_lostLines (s : State) (e : Nat) (x : Estate) : (setEstate s e x).lostLines = s.lostLines := rfl
@[simp] theorem setEstate_cad (s : State) (e : Nat) (x : Estate) : (setEstate s e x).cad = s.cad := rfl
@[simp] theorem setEstate_estates (s : State) (e : Nat) (x : Estate) : (setEstate s e x).estates = mapSet s.estates e x := rfl
@[simp] theorem setEstate_parts (s : State) (e : Nat) (x : Estate) : (setEstate s e x).parts = s.parts := rfl
@[simp] theorem setEstate_easements (s : State) (e : Nat) (x : Estate) : (setEstate s e x).easements = s.easements := rfl
@[simp] theorem setEstate_voided (s : State) (e : Nat) (x : Estate) : (setEstate s e x).voided = s.voided := rfl
@[simp] theorem setEstate_tasks (s : State) (e : Nat) (x : Estate) : (setEstate s e x).tasks = s.tasks := rfl
@[simp] theorem setEstate_jobs (s : State) (e : Nat) (x : Estate) : (setEstate s e x).jobs = s.jobs := rfl
@[simp] theorem setEstate_faults (s : State) (e : Nat) (x : Estate) : (setEstate s e x).faults = s.faults := rfl
@[simp] theorem setEstate_tables (s : State) (e : Nat) (x : Estate) : (setEstate s e x).tables = s.tables := rfl
@[simp] theorem setEstate_tlbs (s : State) (e : Nat) (x : Estate) : (setEstate s e x).tlbs = s.tlbs := rfl
@[simp] theorem setEstate_sharers (s : State) (e : Nat) (x : Estate) : (setEstate s e x).sharers = s.sharers := rfl
@[simp] theorem setEstate_shootdowns (s : State) (e : Nat) (x : Estate) : (setEstate s e x).shootdowns = s.shootdowns := rfl
@[simp] theorem setEstate_units (s : State) (e : Nat) (x : Estate) : (setEstate s e x).units = s.units := rfl
@[simp] theorem setEstate_ops (s : State) (e : Nat) (x : Estate) : (setEstate s e x).ops = s.ops := rfl
@[simp] theorem setEstate_queues (s : State) (e : Nat) (x : Estate) : (setEstate s e x).queues = s.queues := rfl
@[simp] theorem setEstate_jaspers (s : State) (e : Nat) (x : Estate) : (setEstate s e x).jaspers = s.jaspers := rfl
@[simp] theorem setEstate_chains (s : State) (e : Nat) (x : Estate) : (setEstate s e x).chains = s.chains := rfl
@[simp] theorem setEstate_mapped (s : State) (e : Nat) (x : Estate) : (setEstate s e x).mapped = s.mapped := rfl
@[simp] theorem setEstate_rlc (s : State) (e : Nat) (x : Estate) : (setEstate s e x).rlc = s.rlc := rfl
@[simp] theorem setEstate_reads (s : State) (e : Nat) (x : Estate) : (setEstate s e x).reads = s.reads := rfl
@[simp] theorem setEstate_directory (s : State) (e : Nat) (x : Estate) : (setEstate s e x).directory = s.directory := rfl
@[simp] theorem setEstate_shadows (s : State) (e : Nat) (x : Estate) : (setEstate s e x).shadows = s.shadows := rfl
@[simp] theorem setEstate_domain (s : State) (e : Nat) (x : Estate) : (setEstate s e x).domain = s.domain := rfl
@[simp] theorem setEstate_lostPackages (s : State) (e : Nat) (x : Estate) : (setEstate s e x).lostPackages = s.lostPackages := rfl
@[simp] theorem setEstate_pkgId (s : State) (e : Nat) (x : Estate) : (setEstate s e x).pkgId = s.pkgId := rfl
@[simp] theorem setEstate_ports (s : State) (e : Nat) (x : Estate) : (setEstate s e x).ports = s.ports := rfl
@[simp] theorem setEstate_seqs (s : State) (e : Nat) (x : Estate) : (setEstate s e x).seqs = s.seqs := rfl
@[simp] theorem setEstate_outstanding (s : State) (e : Nat) (x : Estate) : (setEstate s e x).outstanding = s.outstanding := rfl
@[simp] theorem setEstate_replies (s : State) (e : Nat) (x : Estate) : (setEstate s e x).replies = s.replies := rfl
@[simp] theorem setEstate_outbox (s : State) (e : Nat) (x : Estate) : (setEstate s e x).outbox = s.outbox := rfl
@[simp] theorem setEstate_timer (s : State) (e : Nat) (x : Estate) : (setEstate s e x).timer = s.timer := rfl
@[simp] theorem setEstate_laneThreshold (s : State) (e : Nat) (x : Estate) : (setEstate s e x).laneThreshold = s.laneThreshold := rfl
@[simp] theorem setEstate_boot (s : State) (e : Nat) (x : Estate) : (setEstate s e x).boot = s.boot := rfl
@[simp] theorem setEstate_lifeCycle (s : State) (e : Nat) (x : Estate) : (setEstate s e x).lifeCycle = s.lifeCycle := rfl
@[simp] theorem setEstate_images (s : State) (e : Nat) (x : Estate) : (setEstate s e x).images = s.images := rfl
@[simp] theorem setEstate_current (s : State) (e : Nat) (x : Estate) : (setEstate s e x).current = s.current := rfl
@[simp] theorem setEstate_sliceMap (s : State) (e : Nat) (x : Estate) : (setEstate s e x).sliceMap = s.sliceMap := rfl
@[simp] theorem setEstate_bankMap (s : State) (e : Nat) (x : Estate) : (setEstate s e x).bankMap = s.bankMap := rfl
@[simp] theorem setEstate_spareSlices (s : State) (e : Nat) (x : Estate) : (setEstate s e x).spareSlices = s.spareSlices := rfl
@[simp] theorem setEstate_spareBanks (s : State) (e : Nat) (x : Estate) : (setEstate s e x).spareBanks = s.spareBanks := rfl
@[simp] theorem setEstate_sparedRows (s : State) (e : Nat) (x : Estate) : (setEstate s e x).sparedRows = s.sparedRows := rfl
@[simp] theorem setEstate_sramErrors (s : State) (e : Nat) (x : Estate) : (setEstate s e x).sramErrors = s.sramErrors := rfl
@[simp] theorem setEstate_unitErrors (s : State) (e : Nat) (x : Estate) : (setEstate s e x).unitErrors = s.unitErrors := rfl
@[simp] theorem setEstate_cadastreFailed (s : State) (e : Nat) (x : Estate) : (setEstate s e x).cadastreFailed = s.cadastreFailed := rfl
@[simp] theorem setEstate_doe (s : State) (e : Nat) (x : Estate) : (setEstate s e x).doe = s.doe := rfl
@[simp] theorem setEstate_reports (s : State) (e : Nat) (x : Estate) : (setEstate s e x).reports = s.reports := rfl
@[simp] theorem setEstate_agenda (s : State) (e : Nat) (x : Estate) : (setEstate s e x).agenda = s.agenda := rfl
@[simp] theorem setEstate_cur (s : State) (e : Nat) (x : Estate) : (setEstate s e x).cur = s.cur := rfl
@[simp] theorem setEstate_focus (s : State) (e : Nat) (x : Estate) : (setEstate s e x).focus = s.focus := rfl
@[simp] theorem setEstate_history (s : State) (e : Nat) (x : Estate) : (setEstate s e x).history = s.history := rfl
@[simp] theorem setEstate_draws (s : State) (e : Nat) (x : Estate) : (setEstate s e x).draws = s.draws := rfl

@[simp] theorem setPart_cycle (s : State) (p : Nat) (x : Part) : (setPart s p x).cycle = s.cycle := rfl
@[simp] theorem setPart_islands (s : State) (p : Nat) (x : Part) : (setPart s p x).islands = s.islands := rfl
@[simp] theorem setPart_cores (s : State) (p : Nat) (x : Part) : (setPart s p x).cores = s.cores := rfl
@[simp] theorem setPart_halted (s : State) (p : Nat) (x : Part) : (setPart s p x).halted = s.halted := rfl
@[simp] theorem setPart_hbm (s : State) (p : Nat) (x : Part) : (setPart s p x).hbm = s.hbm := rfl
@[simp] theorem setPart_commons (s : State) (p : Nat) (x : Part) : (setPart s p x).commons = s.commons := rfl
@[simp] theorem setPart_host (s : State) (p : Nat) (x : Part) : (setPart s p x).host = s.host := rfl
@[simp] theorem setPart_hbmPoison (s : State) (p : Nat) (x : Part) : (setPart s p x).hbmPoison = s.hbmPoison := rfl
@[simp] theorem setPart_hostHeld (s : State) (p : Nat) (x : Part) : (setPart s p x).hostHeld = s.hostHeld := rfl
@[simp] theorem setPart_commonsPoison (s : State) (p : Nat) (x : Part) : (setPart s p x).commonsPoison = s.commonsPoison := rfl
@[simp] theorem setPart_lostLines (s : State) (p : Nat) (x : Part) : (setPart s p x).lostLines = s.lostLines := rfl
@[simp] theorem setPart_cad (s : State) (p : Nat) (x : Part) : (setPart s p x).cad = s.cad := rfl
@[simp] theorem setPart_estates (s : State) (p : Nat) (x : Part) : (setPart s p x).estates = s.estates := rfl
@[simp] theorem setPart_parts (s : State) (p : Nat) (x : Part) : (setPart s p x).parts = mapSet s.parts p x := rfl
@[simp] theorem setPart_easements (s : State) (p : Nat) (x : Part) : (setPart s p x).easements = s.easements := rfl
@[simp] theorem setPart_voided (s : State) (p : Nat) (x : Part) : (setPart s p x).voided = s.voided := rfl
@[simp] theorem setPart_tasks (s : State) (p : Nat) (x : Part) : (setPart s p x).tasks = s.tasks := rfl
@[simp] theorem setPart_jobs (s : State) (p : Nat) (x : Part) : (setPart s p x).jobs = s.jobs := rfl
@[simp] theorem setPart_faults (s : State) (p : Nat) (x : Part) : (setPart s p x).faults = s.faults := rfl
@[simp] theorem setPart_tables (s : State) (p : Nat) (x : Part) : (setPart s p x).tables = s.tables := rfl
@[simp] theorem setPart_tlbs (s : State) (p : Nat) (x : Part) : (setPart s p x).tlbs = s.tlbs := rfl
@[simp] theorem setPart_sharers (s : State) (p : Nat) (x : Part) : (setPart s p x).sharers = s.sharers := rfl
@[simp] theorem setPart_shootdowns (s : State) (p : Nat) (x : Part) : (setPart s p x).shootdowns = s.shootdowns := rfl
@[simp] theorem setPart_units (s : State) (p : Nat) (x : Part) : (setPart s p x).units = s.units := rfl
@[simp] theorem setPart_ops (s : State) (p : Nat) (x : Part) : (setPart s p x).ops = s.ops := rfl
@[simp] theorem setPart_queues (s : State) (p : Nat) (x : Part) : (setPart s p x).queues = s.queues := rfl
@[simp] theorem setPart_jaspers (s : State) (p : Nat) (x : Part) : (setPart s p x).jaspers = s.jaspers := rfl
@[simp] theorem setPart_chains (s : State) (p : Nat) (x : Part) : (setPart s p x).chains = s.chains := rfl
@[simp] theorem setPart_mapped (s : State) (p : Nat) (x : Part) : (setPart s p x).mapped = s.mapped := rfl
@[simp] theorem setPart_rlc (s : State) (p : Nat) (x : Part) : (setPart s p x).rlc = s.rlc := rfl
@[simp] theorem setPart_reads (s : State) (p : Nat) (x : Part) : (setPart s p x).reads = s.reads := rfl
@[simp] theorem setPart_directory (s : State) (p : Nat) (x : Part) : (setPart s p x).directory = s.directory := rfl
@[simp] theorem setPart_shadows (s : State) (p : Nat) (x : Part) : (setPart s p x).shadows = s.shadows := rfl
@[simp] theorem setPart_domain (s : State) (p : Nat) (x : Part) : (setPart s p x).domain = s.domain := rfl
@[simp] theorem setPart_lostPackages (s : State) (p : Nat) (x : Part) : (setPart s p x).lostPackages = s.lostPackages := rfl
@[simp] theorem setPart_pkgId (s : State) (p : Nat) (x : Part) : (setPart s p x).pkgId = s.pkgId := rfl
@[simp] theorem setPart_ports (s : State) (p : Nat) (x : Part) : (setPart s p x).ports = s.ports := rfl
@[simp] theorem setPart_seqs (s : State) (p : Nat) (x : Part) : (setPart s p x).seqs = s.seqs := rfl
@[simp] theorem setPart_outstanding (s : State) (p : Nat) (x : Part) : (setPart s p x).outstanding = s.outstanding := rfl
@[simp] theorem setPart_replies (s : State) (p : Nat) (x : Part) : (setPart s p x).replies = s.replies := rfl
@[simp] theorem setPart_outbox (s : State) (p : Nat) (x : Part) : (setPart s p x).outbox = s.outbox := rfl
@[simp] theorem setPart_timer (s : State) (p : Nat) (x : Part) : (setPart s p x).timer = s.timer := rfl
@[simp] theorem setPart_laneThreshold (s : State) (p : Nat) (x : Part) : (setPart s p x).laneThreshold = s.laneThreshold := rfl
@[simp] theorem setPart_boot (s : State) (p : Nat) (x : Part) : (setPart s p x).boot = s.boot := rfl
@[simp] theorem setPart_lifeCycle (s : State) (p : Nat) (x : Part) : (setPart s p x).lifeCycle = s.lifeCycle := rfl
@[simp] theorem setPart_images (s : State) (p : Nat) (x : Part) : (setPart s p x).images = s.images := rfl
@[simp] theorem setPart_current (s : State) (p : Nat) (x : Part) : (setPart s p x).current = s.current := rfl
@[simp] theorem setPart_sliceMap (s : State) (p : Nat) (x : Part) : (setPart s p x).sliceMap = s.sliceMap := rfl
@[simp] theorem setPart_bankMap (s : State) (p : Nat) (x : Part) : (setPart s p x).bankMap = s.bankMap := rfl
@[simp] theorem setPart_spareSlices (s : State) (p : Nat) (x : Part) : (setPart s p x).spareSlices = s.spareSlices := rfl
@[simp] theorem setPart_spareBanks (s : State) (p : Nat) (x : Part) : (setPart s p x).spareBanks = s.spareBanks := rfl
@[simp] theorem setPart_sparedRows (s : State) (p : Nat) (x : Part) : (setPart s p x).sparedRows = s.sparedRows := rfl
@[simp] theorem setPart_sramErrors (s : State) (p : Nat) (x : Part) : (setPart s p x).sramErrors = s.sramErrors := rfl
@[simp] theorem setPart_unitErrors (s : State) (p : Nat) (x : Part) : (setPart s p x).unitErrors = s.unitErrors := rfl
@[simp] theorem setPart_cadastreFailed (s : State) (p : Nat) (x : Part) : (setPart s p x).cadastreFailed = s.cadastreFailed := rfl
@[simp] theorem setPart_doe (s : State) (p : Nat) (x : Part) : (setPart s p x).doe = s.doe := rfl
@[simp] theorem setPart_reports (s : State) (p : Nat) (x : Part) : (setPart s p x).reports = s.reports := rfl
@[simp] theorem setPart_agenda (s : State) (p : Nat) (x : Part) : (setPart s p x).agenda = s.agenda := rfl
@[simp] theorem setPart_cur (s : State) (p : Nat) (x : Part) : (setPart s p x).cur = s.cur := rfl
@[simp] theorem setPart_focus (s : State) (p : Nat) (x : Part) : (setPart s p x).focus = s.focus := rfl
@[simp] theorem setPart_history (s : State) (p : Nat) (x : Part) : (setPart s p x).history = s.history := rfl
@[simp] theorem setPart_draws (s : State) (p : Nat) (x : Part) : (setPart s p x).draws = s.draws := rfl

@[simp] theorem setTask_cycle (s : State) (h : Nat) (x : Task) : (setTask s h x).cycle = s.cycle := rfl
@[simp] theorem setTask_islands (s : State) (h : Nat) (x : Task) : (setTask s h x).islands = s.islands := rfl
@[simp] theorem setTask_cores (s : State) (h : Nat) (x : Task) : (setTask s h x).cores = s.cores := rfl
@[simp] theorem setTask_halted (s : State) (h : Nat) (x : Task) : (setTask s h x).halted = s.halted := rfl
@[simp] theorem setTask_hbm (s : State) (h : Nat) (x : Task) : (setTask s h x).hbm = s.hbm := rfl
@[simp] theorem setTask_commons (s : State) (h : Nat) (x : Task) : (setTask s h x).commons = s.commons := rfl
@[simp] theorem setTask_host (s : State) (h : Nat) (x : Task) : (setTask s h x).host = s.host := rfl
@[simp] theorem setTask_hbmPoison (s : State) (h : Nat) (x : Task) : (setTask s h x).hbmPoison = s.hbmPoison := rfl
@[simp] theorem setTask_hostHeld (s : State) (h : Nat) (x : Task) : (setTask s h x).hostHeld = s.hostHeld := rfl
@[simp] theorem setTask_commonsPoison (s : State) (h : Nat) (x : Task) : (setTask s h x).commonsPoison = s.commonsPoison := rfl
@[simp] theorem setTask_lostLines (s : State) (h : Nat) (x : Task) : (setTask s h x).lostLines = s.lostLines := rfl
@[simp] theorem setTask_cad (s : State) (h : Nat) (x : Task) : (setTask s h x).cad = s.cad := rfl
@[simp] theorem setTask_estates (s : State) (h : Nat) (x : Task) : (setTask s h x).estates = s.estates := rfl
@[simp] theorem setTask_parts (s : State) (h : Nat) (x : Task) : (setTask s h x).parts = s.parts := rfl
@[simp] theorem setTask_easements (s : State) (h : Nat) (x : Task) : (setTask s h x).easements = s.easements := rfl
@[simp] theorem setTask_voided (s : State) (h : Nat) (x : Task) : (setTask s h x).voided = s.voided := rfl
@[simp] theorem setTask_tasks (s : State) (h : Nat) (x : Task) : (setTask s h x).tasks = mapSet s.tasks h x := rfl
@[simp] theorem setTask_jobs (s : State) (h : Nat) (x : Task) : (setTask s h x).jobs = s.jobs := rfl
@[simp] theorem setTask_faults (s : State) (h : Nat) (x : Task) : (setTask s h x).faults = s.faults := rfl
@[simp] theorem setTask_tables (s : State) (h : Nat) (x : Task) : (setTask s h x).tables = s.tables := rfl
@[simp] theorem setTask_tlbs (s : State) (h : Nat) (x : Task) : (setTask s h x).tlbs = s.tlbs := rfl
@[simp] theorem setTask_sharers (s : State) (h : Nat) (x : Task) : (setTask s h x).sharers = s.sharers := rfl
@[simp] theorem setTask_shootdowns (s : State) (h : Nat) (x : Task) : (setTask s h x).shootdowns = s.shootdowns := rfl
@[simp] theorem setTask_units (s : State) (h : Nat) (x : Task) : (setTask s h x).units = s.units := rfl
@[simp] theorem setTask_ops (s : State) (h : Nat) (x : Task) : (setTask s h x).ops = s.ops := rfl
@[simp] theorem setTask_queues (s : State) (h : Nat) (x : Task) : (setTask s h x).queues = s.queues := rfl
@[simp] theorem setTask_jaspers (s : State) (h : Nat) (x : Task) : (setTask s h x).jaspers = s.jaspers := rfl
@[simp] theorem setTask_chains (s : State) (h : Nat) (x : Task) : (setTask s h x).chains = s.chains := rfl
@[simp] theorem setTask_mapped (s : State) (h : Nat) (x : Task) : (setTask s h x).mapped = s.mapped := rfl
@[simp] theorem setTask_rlc (s : State) (h : Nat) (x : Task) : (setTask s h x).rlc = s.rlc := rfl
@[simp] theorem setTask_reads (s : State) (h : Nat) (x : Task) : (setTask s h x).reads = s.reads := rfl
@[simp] theorem setTask_directory (s : State) (h : Nat) (x : Task) : (setTask s h x).directory = s.directory := rfl
@[simp] theorem setTask_shadows (s : State) (h : Nat) (x : Task) : (setTask s h x).shadows = s.shadows := rfl
@[simp] theorem setTask_domain (s : State) (h : Nat) (x : Task) : (setTask s h x).domain = s.domain := rfl
@[simp] theorem setTask_lostPackages (s : State) (h : Nat) (x : Task) : (setTask s h x).lostPackages = s.lostPackages := rfl
@[simp] theorem setTask_pkgId (s : State) (h : Nat) (x : Task) : (setTask s h x).pkgId = s.pkgId := rfl
@[simp] theorem setTask_ports (s : State) (h : Nat) (x : Task) : (setTask s h x).ports = s.ports := rfl
@[simp] theorem setTask_seqs (s : State) (h : Nat) (x : Task) : (setTask s h x).seqs = s.seqs := rfl
@[simp] theorem setTask_outstanding (s : State) (h : Nat) (x : Task) : (setTask s h x).outstanding = s.outstanding := rfl
@[simp] theorem setTask_replies (s : State) (h : Nat) (x : Task) : (setTask s h x).replies = s.replies := rfl
@[simp] theorem setTask_outbox (s : State) (h : Nat) (x : Task) : (setTask s h x).outbox = s.outbox := rfl
@[simp] theorem setTask_timer (s : State) (h : Nat) (x : Task) : (setTask s h x).timer = s.timer := rfl
@[simp] theorem setTask_laneThreshold (s : State) (h : Nat) (x : Task) : (setTask s h x).laneThreshold = s.laneThreshold := rfl
@[simp] theorem setTask_boot (s : State) (h : Nat) (x : Task) : (setTask s h x).boot = s.boot := rfl
@[simp] theorem setTask_lifeCycle (s : State) (h : Nat) (x : Task) : (setTask s h x).lifeCycle = s.lifeCycle := rfl
@[simp] theorem setTask_images (s : State) (h : Nat) (x : Task) : (setTask s h x).images = s.images := rfl
@[simp] theorem setTask_current (s : State) (h : Nat) (x : Task) : (setTask s h x).current = s.current := rfl
@[simp] theorem setTask_sliceMap (s : State) (h : Nat) (x : Task) : (setTask s h x).sliceMap = s.sliceMap := rfl
@[simp] theorem setTask_bankMap (s : State) (h : Nat) (x : Task) : (setTask s h x).bankMap = s.bankMap := rfl
@[simp] theorem setTask_spareSlices (s : State) (h : Nat) (x : Task) : (setTask s h x).spareSlices = s.spareSlices := rfl
@[simp] theorem setTask_spareBanks (s : State) (h : Nat) (x : Task) : (setTask s h x).spareBanks = s.spareBanks := rfl
@[simp] theorem setTask_sparedRows (s : State) (h : Nat) (x : Task) : (setTask s h x).sparedRows = s.sparedRows := rfl
@[simp] theorem setTask_sramErrors (s : State) (h : Nat) (x : Task) : (setTask s h x).sramErrors = s.sramErrors := rfl
@[simp] theorem setTask_unitErrors (s : State) (h : Nat) (x : Task) : (setTask s h x).unitErrors = s.unitErrors := rfl
@[simp] theorem setTask_cadastreFailed (s : State) (h : Nat) (x : Task) : (setTask s h x).cadastreFailed = s.cadastreFailed := rfl
@[simp] theorem setTask_doe (s : State) (h : Nat) (x : Task) : (setTask s h x).doe = s.doe := rfl
@[simp] theorem setTask_reports (s : State) (h : Nat) (x : Task) : (setTask s h x).reports = s.reports := rfl
@[simp] theorem setTask_agenda (s : State) (h : Nat) (x : Task) : (setTask s h x).agenda = s.agenda := rfl
@[simp] theorem setTask_cur (s : State) (h : Nat) (x : Task) : (setTask s h x).cur = s.cur := rfl
@[simp] theorem setTask_focus (s : State) (h : Nat) (x : Task) : (setTask s h x).focus = s.focus := rfl
@[simp] theorem setTask_history (s : State) (h : Nat) (x : Task) : (setTask s h x).history = s.history := rfl
@[simp] theorem setTask_draws (s : State) (h : Nat) (x : Task) : (setTask s h x).draws = s.draws := rfl

@[simp] theorem setUnit_cycle (s : State) (u : Nat) (x : BerylUnit) : (setUnit s u x).cycle = s.cycle := rfl
@[simp] theorem setUnit_islands (s : State) (u : Nat) (x : BerylUnit) : (setUnit s u x).islands = s.islands := rfl
@[simp] theorem setUnit_cores (s : State) (u : Nat) (x : BerylUnit) : (setUnit s u x).cores = s.cores := rfl
@[simp] theorem setUnit_halted (s : State) (u : Nat) (x : BerylUnit) : (setUnit s u x).halted = s.halted := rfl
@[simp] theorem setUnit_hbm (s : State) (u : Nat) (x : BerylUnit) : (setUnit s u x).hbm = s.hbm := rfl
@[simp] theorem setUnit_commons (s : State) (u : Nat) (x : BerylUnit) : (setUnit s u x).commons = s.commons := rfl
@[simp] theorem setUnit_host (s : State) (u : Nat) (x : BerylUnit) : (setUnit s u x).host = s.host := rfl
@[simp] theorem setUnit_hbmPoison (s : State) (u : Nat) (x : BerylUnit) : (setUnit s u x).hbmPoison = s.hbmPoison := rfl
@[simp] theorem setUnit_hostHeld (s : State) (u : Nat) (x : BerylUnit) : (setUnit s u x).hostHeld = s.hostHeld := rfl
@[simp] theorem setUnit_commonsPoison (s : State) (u : Nat) (x : BerylUnit) : (setUnit s u x).commonsPoison = s.commonsPoison := rfl
@[simp] theorem setUnit_lostLines (s : State) (u : Nat) (x : BerylUnit) : (setUnit s u x).lostLines = s.lostLines := rfl
@[simp] theorem setUnit_cad (s : State) (u : Nat) (x : BerylUnit) : (setUnit s u x).cad = s.cad := rfl
@[simp] theorem setUnit_estates (s : State) (u : Nat) (x : BerylUnit) : (setUnit s u x).estates = s.estates := rfl
@[simp] theorem setUnit_parts (s : State) (u : Nat) (x : BerylUnit) : (setUnit s u x).parts = s.parts := rfl
@[simp] theorem setUnit_easements (s : State) (u : Nat) (x : BerylUnit) : (setUnit s u x).easements = s.easements := rfl
@[simp] theorem setUnit_voided (s : State) (u : Nat) (x : BerylUnit) : (setUnit s u x).voided = s.voided := rfl
@[simp] theorem setUnit_tasks (s : State) (u : Nat) (x : BerylUnit) : (setUnit s u x).tasks = s.tasks := rfl
@[simp] theorem setUnit_jobs (s : State) (u : Nat) (x : BerylUnit) : (setUnit s u x).jobs = s.jobs := rfl
@[simp] theorem setUnit_faults (s : State) (u : Nat) (x : BerylUnit) : (setUnit s u x).faults = s.faults := rfl
@[simp] theorem setUnit_tables (s : State) (u : Nat) (x : BerylUnit) : (setUnit s u x).tables = s.tables := rfl
@[simp] theorem setUnit_tlbs (s : State) (u : Nat) (x : BerylUnit) : (setUnit s u x).tlbs = s.tlbs := rfl
@[simp] theorem setUnit_sharers (s : State) (u : Nat) (x : BerylUnit) : (setUnit s u x).sharers = s.sharers := rfl
@[simp] theorem setUnit_shootdowns (s : State) (u : Nat) (x : BerylUnit) : (setUnit s u x).shootdowns = s.shootdowns := rfl
@[simp] theorem setUnit_units (s : State) (u : Nat) (x : BerylUnit) : (setUnit s u x).units = mapSet s.units u x := rfl
@[simp] theorem setUnit_ops (s : State) (u : Nat) (x : BerylUnit) : (setUnit s u x).ops = s.ops := rfl
@[simp] theorem setUnit_queues (s : State) (u : Nat) (x : BerylUnit) : (setUnit s u x).queues = s.queues := rfl
@[simp] theorem setUnit_jaspers (s : State) (u : Nat) (x : BerylUnit) : (setUnit s u x).jaspers = s.jaspers := rfl
@[simp] theorem setUnit_chains (s : State) (u : Nat) (x : BerylUnit) : (setUnit s u x).chains = s.chains := rfl
@[simp] theorem setUnit_mapped (s : State) (u : Nat) (x : BerylUnit) : (setUnit s u x).mapped = s.mapped := rfl
@[simp] theorem setUnit_rlc (s : State) (u : Nat) (x : BerylUnit) : (setUnit s u x).rlc = s.rlc := rfl
@[simp] theorem setUnit_reads (s : State) (u : Nat) (x : BerylUnit) : (setUnit s u x).reads = s.reads := rfl
@[simp] theorem setUnit_directory (s : State) (u : Nat) (x : BerylUnit) : (setUnit s u x).directory = s.directory := rfl
@[simp] theorem setUnit_shadows (s : State) (u : Nat) (x : BerylUnit) : (setUnit s u x).shadows = s.shadows := rfl
@[simp] theorem setUnit_domain (s : State) (u : Nat) (x : BerylUnit) : (setUnit s u x).domain = s.domain := rfl
@[simp] theorem setUnit_lostPackages (s : State) (u : Nat) (x : BerylUnit) : (setUnit s u x).lostPackages = s.lostPackages := rfl
@[simp] theorem setUnit_pkgId (s : State) (u : Nat) (x : BerylUnit) : (setUnit s u x).pkgId = s.pkgId := rfl
@[simp] theorem setUnit_ports (s : State) (u : Nat) (x : BerylUnit) : (setUnit s u x).ports = s.ports := rfl
@[simp] theorem setUnit_seqs (s : State) (u : Nat) (x : BerylUnit) : (setUnit s u x).seqs = s.seqs := rfl
@[simp] theorem setUnit_outstanding (s : State) (u : Nat) (x : BerylUnit) : (setUnit s u x).outstanding = s.outstanding := rfl
@[simp] theorem setUnit_replies (s : State) (u : Nat) (x : BerylUnit) : (setUnit s u x).replies = s.replies := rfl
@[simp] theorem setUnit_outbox (s : State) (u : Nat) (x : BerylUnit) : (setUnit s u x).outbox = s.outbox := rfl
@[simp] theorem setUnit_timer (s : State) (u : Nat) (x : BerylUnit) : (setUnit s u x).timer = s.timer := rfl
@[simp] theorem setUnit_laneThreshold (s : State) (u : Nat) (x : BerylUnit) : (setUnit s u x).laneThreshold = s.laneThreshold := rfl
@[simp] theorem setUnit_boot (s : State) (u : Nat) (x : BerylUnit) : (setUnit s u x).boot = s.boot := rfl
@[simp] theorem setUnit_lifeCycle (s : State) (u : Nat) (x : BerylUnit) : (setUnit s u x).lifeCycle = s.lifeCycle := rfl
@[simp] theorem setUnit_images (s : State) (u : Nat) (x : BerylUnit) : (setUnit s u x).images = s.images := rfl
@[simp] theorem setUnit_current (s : State) (u : Nat) (x : BerylUnit) : (setUnit s u x).current = s.current := rfl
@[simp] theorem setUnit_sliceMap (s : State) (u : Nat) (x : BerylUnit) : (setUnit s u x).sliceMap = s.sliceMap := rfl
@[simp] theorem setUnit_bankMap (s : State) (u : Nat) (x : BerylUnit) : (setUnit s u x).bankMap = s.bankMap := rfl
@[simp] theorem setUnit_spareSlices (s : State) (u : Nat) (x : BerylUnit) : (setUnit s u x).spareSlices = s.spareSlices := rfl
@[simp] theorem setUnit_spareBanks (s : State) (u : Nat) (x : BerylUnit) : (setUnit s u x).spareBanks = s.spareBanks := rfl
@[simp] theorem setUnit_sparedRows (s : State) (u : Nat) (x : BerylUnit) : (setUnit s u x).sparedRows = s.sparedRows := rfl
@[simp] theorem setUnit_sramErrors (s : State) (u : Nat) (x : BerylUnit) : (setUnit s u x).sramErrors = s.sramErrors := rfl
@[simp] theorem setUnit_unitErrors (s : State) (u : Nat) (x : BerylUnit) : (setUnit s u x).unitErrors = s.unitErrors := rfl
@[simp] theorem setUnit_cadastreFailed (s : State) (u : Nat) (x : BerylUnit) : (setUnit s u x).cadastreFailed = s.cadastreFailed := rfl
@[simp] theorem setUnit_doe (s : State) (u : Nat) (x : BerylUnit) : (setUnit s u x).doe = s.doe := rfl
@[simp] theorem setUnit_reports (s : State) (u : Nat) (x : BerylUnit) : (setUnit s u x).reports = s.reports := rfl
@[simp] theorem setUnit_agenda (s : State) (u : Nat) (x : BerylUnit) : (setUnit s u x).agenda = s.agenda := rfl
@[simp] theorem setUnit_cur (s : State) (u : Nat) (x : BerylUnit) : (setUnit s u x).cur = s.cur := rfl
@[simp] theorem setUnit_focus (s : State) (u : Nat) (x : BerylUnit) : (setUnit s u x).focus = s.focus := rfl
@[simp] theorem setUnit_history (s : State) (u : Nat) (x : BerylUnit) : (setUnit s u x).history = s.history := rfl
@[simp] theorem setUnit_draws (s : State) (u : Nat) (x : BerylUnit) : (setUnit s u x).draws = s.draws := rfl

@[simp] theorem setQueue_cycle (s : State) (q : Nat) (x : LaunchQueue) : (setQueue s q x).cycle = s.cycle := rfl
@[simp] theorem setQueue_islands (s : State) (q : Nat) (x : LaunchQueue) : (setQueue s q x).islands = s.islands := rfl
@[simp] theorem setQueue_cores (s : State) (q : Nat) (x : LaunchQueue) : (setQueue s q x).cores = s.cores := rfl
@[simp] theorem setQueue_halted (s : State) (q : Nat) (x : LaunchQueue) : (setQueue s q x).halted = s.halted := rfl
@[simp] theorem setQueue_hbm (s : State) (q : Nat) (x : LaunchQueue) : (setQueue s q x).hbm = s.hbm := rfl
@[simp] theorem setQueue_commons (s : State) (q : Nat) (x : LaunchQueue) : (setQueue s q x).commons = s.commons := rfl
@[simp] theorem setQueue_host (s : State) (q : Nat) (x : LaunchQueue) : (setQueue s q x).host = s.host := rfl
@[simp] theorem setQueue_hbmPoison (s : State) (q : Nat) (x : LaunchQueue) : (setQueue s q x).hbmPoison = s.hbmPoison := rfl
@[simp] theorem setQueue_hostHeld (s : State) (q : Nat) (x : LaunchQueue) : (setQueue s q x).hostHeld = s.hostHeld := rfl
@[simp] theorem setQueue_commonsPoison (s : State) (q : Nat) (x : LaunchQueue) : (setQueue s q x).commonsPoison = s.commonsPoison := rfl
@[simp] theorem setQueue_lostLines (s : State) (q : Nat) (x : LaunchQueue) : (setQueue s q x).lostLines = s.lostLines := rfl
@[simp] theorem setQueue_cad (s : State) (q : Nat) (x : LaunchQueue) : (setQueue s q x).cad = s.cad := rfl
@[simp] theorem setQueue_estates (s : State) (q : Nat) (x : LaunchQueue) : (setQueue s q x).estates = s.estates := rfl
@[simp] theorem setQueue_parts (s : State) (q : Nat) (x : LaunchQueue) : (setQueue s q x).parts = s.parts := rfl
@[simp] theorem setQueue_easements (s : State) (q : Nat) (x : LaunchQueue) : (setQueue s q x).easements = s.easements := rfl
@[simp] theorem setQueue_voided (s : State) (q : Nat) (x : LaunchQueue) : (setQueue s q x).voided = s.voided := rfl
@[simp] theorem setQueue_tasks (s : State) (q : Nat) (x : LaunchQueue) : (setQueue s q x).tasks = s.tasks := rfl
@[simp] theorem setQueue_jobs (s : State) (q : Nat) (x : LaunchQueue) : (setQueue s q x).jobs = s.jobs := rfl
@[simp] theorem setQueue_faults (s : State) (q : Nat) (x : LaunchQueue) : (setQueue s q x).faults = s.faults := rfl
@[simp] theorem setQueue_tables (s : State) (q : Nat) (x : LaunchQueue) : (setQueue s q x).tables = s.tables := rfl
@[simp] theorem setQueue_tlbs (s : State) (q : Nat) (x : LaunchQueue) : (setQueue s q x).tlbs = s.tlbs := rfl
@[simp] theorem setQueue_sharers (s : State) (q : Nat) (x : LaunchQueue) : (setQueue s q x).sharers = s.sharers := rfl
@[simp] theorem setQueue_shootdowns (s : State) (q : Nat) (x : LaunchQueue) : (setQueue s q x).shootdowns = s.shootdowns := rfl
@[simp] theorem setQueue_units (s : State) (q : Nat) (x : LaunchQueue) : (setQueue s q x).units = s.units := rfl
@[simp] theorem setQueue_ops (s : State) (q : Nat) (x : LaunchQueue) : (setQueue s q x).ops = s.ops := rfl
@[simp] theorem setQueue_queues (s : State) (q : Nat) (x : LaunchQueue) : (setQueue s q x).queues = mapSet s.queues q x := rfl
@[simp] theorem setQueue_jaspers (s : State) (q : Nat) (x : LaunchQueue) : (setQueue s q x).jaspers = s.jaspers := rfl
@[simp] theorem setQueue_chains (s : State) (q : Nat) (x : LaunchQueue) : (setQueue s q x).chains = s.chains := rfl
@[simp] theorem setQueue_mapped (s : State) (q : Nat) (x : LaunchQueue) : (setQueue s q x).mapped = s.mapped := rfl
@[simp] theorem setQueue_rlc (s : State) (q : Nat) (x : LaunchQueue) : (setQueue s q x).rlc = s.rlc := rfl
@[simp] theorem setQueue_reads (s : State) (q : Nat) (x : LaunchQueue) : (setQueue s q x).reads = s.reads := rfl
@[simp] theorem setQueue_directory (s : State) (q : Nat) (x : LaunchQueue) : (setQueue s q x).directory = s.directory := rfl
@[simp] theorem setQueue_shadows (s : State) (q : Nat) (x : LaunchQueue) : (setQueue s q x).shadows = s.shadows := rfl
@[simp] theorem setQueue_domain (s : State) (q : Nat) (x : LaunchQueue) : (setQueue s q x).domain = s.domain := rfl
@[simp] theorem setQueue_lostPackages (s : State) (q : Nat) (x : LaunchQueue) : (setQueue s q x).lostPackages = s.lostPackages := rfl
@[simp] theorem setQueue_pkgId (s : State) (q : Nat) (x : LaunchQueue) : (setQueue s q x).pkgId = s.pkgId := rfl
@[simp] theorem setQueue_ports (s : State) (q : Nat) (x : LaunchQueue) : (setQueue s q x).ports = s.ports := rfl
@[simp] theorem setQueue_seqs (s : State) (q : Nat) (x : LaunchQueue) : (setQueue s q x).seqs = s.seqs := rfl
@[simp] theorem setQueue_outstanding (s : State) (q : Nat) (x : LaunchQueue) : (setQueue s q x).outstanding = s.outstanding := rfl
@[simp] theorem setQueue_replies (s : State) (q : Nat) (x : LaunchQueue) : (setQueue s q x).replies = s.replies := rfl
@[simp] theorem setQueue_outbox (s : State) (q : Nat) (x : LaunchQueue) : (setQueue s q x).outbox = s.outbox := rfl
@[simp] theorem setQueue_timer (s : State) (q : Nat) (x : LaunchQueue) : (setQueue s q x).timer = s.timer := rfl
@[simp] theorem setQueue_laneThreshold (s : State) (q : Nat) (x : LaunchQueue) : (setQueue s q x).laneThreshold = s.laneThreshold := rfl
@[simp] theorem setQueue_boot (s : State) (q : Nat) (x : LaunchQueue) : (setQueue s q x).boot = s.boot := rfl
@[simp] theorem setQueue_lifeCycle (s : State) (q : Nat) (x : LaunchQueue) : (setQueue s q x).lifeCycle = s.lifeCycle := rfl
@[simp] theorem setQueue_images (s : State) (q : Nat) (x : LaunchQueue) : (setQueue s q x).images = s.images := rfl
@[simp] theorem setQueue_current (s : State) (q : Nat) (x : LaunchQueue) : (setQueue s q x).current = s.current := rfl
@[simp] theorem setQueue_sliceMap (s : State) (q : Nat) (x : LaunchQueue) : (setQueue s q x).sliceMap = s.sliceMap := rfl
@[simp] theorem setQueue_bankMap (s : State) (q : Nat) (x : LaunchQueue) : (setQueue s q x).bankMap = s.bankMap := rfl
@[simp] theorem setQueue_spareSlices (s : State) (q : Nat) (x : LaunchQueue) : (setQueue s q x).spareSlices = s.spareSlices := rfl
@[simp] theorem setQueue_spareBanks (s : State) (q : Nat) (x : LaunchQueue) : (setQueue s q x).spareBanks = s.spareBanks := rfl
@[simp] theorem setQueue_sparedRows (s : State) (q : Nat) (x : LaunchQueue) : (setQueue s q x).sparedRows = s.sparedRows := rfl
@[simp] theorem setQueue_sramErrors (s : State) (q : Nat) (x : LaunchQueue) : (setQueue s q x).sramErrors = s.sramErrors := rfl
@[simp] theorem setQueue_unitErrors (s : State) (q : Nat) (x : LaunchQueue) : (setQueue s q x).unitErrors = s.unitErrors := rfl
@[simp] theorem setQueue_cadastreFailed (s : State) (q : Nat) (x : LaunchQueue) : (setQueue s q x).cadastreFailed = s.cadastreFailed := rfl
@[simp] theorem setQueue_doe (s : State) (q : Nat) (x : LaunchQueue) : (setQueue s q x).doe = s.doe := rfl
@[simp] theorem setQueue_reports (s : State) (q : Nat) (x : LaunchQueue) : (setQueue s q x).reports = s.reports := rfl
@[simp] theorem setQueue_agenda (s : State) (q : Nat) (x : LaunchQueue) : (setQueue s q x).agenda = s.agenda := rfl
@[simp] theorem setQueue_cur (s : State) (q : Nat) (x : LaunchQueue) : (setQueue s q x).cur = s.cur := rfl
@[simp] theorem setQueue_focus (s : State) (q : Nat) (x : LaunchQueue) : (setQueue s q x).focus = s.focus := rfl
@[simp] theorem setQueue_history (s : State) (q : Nat) (x : LaunchQueue) : (setQueue s q x).history = s.history := rfl
@[simp] theorem setQueue_draws (s : State) (q : Nat) (x : LaunchQueue) : (setQueue s q x).draws = s.draws := rfl

@[simp] theorem setEntry_cycle (s : State) (p : Nat) (x : Entry) : (setEntry s p x).cycle = s.cycle := rfl
@[simp] theorem setEntry_islands (s : State) (p : Nat) (x : Entry) : (setEntry s p x).islands = s.islands := rfl
@[simp] theorem setEntry_cores (s : State) (p : Nat) (x : Entry) : (setEntry s p x).cores = s.cores := rfl
@[simp] theorem setEntry_halted (s : State) (p : Nat) (x : Entry) : (setEntry s p x).halted = s.halted := rfl
@[simp] theorem setEntry_hbm (s : State) (p : Nat) (x : Entry) : (setEntry s p x).hbm = s.hbm := rfl
@[simp] theorem setEntry_commons (s : State) (p : Nat) (x : Entry) : (setEntry s p x).commons = s.commons := rfl
@[simp] theorem setEntry_host (s : State) (p : Nat) (x : Entry) : (setEntry s p x).host = s.host := rfl
@[simp] theorem setEntry_hbmPoison (s : State) (p : Nat) (x : Entry) : (setEntry s p x).hbmPoison = s.hbmPoison := rfl
@[simp] theorem setEntry_hostHeld (s : State) (p : Nat) (x : Entry) : (setEntry s p x).hostHeld = s.hostHeld := rfl
@[simp] theorem setEntry_commonsPoison (s : State) (p : Nat) (x : Entry) : (setEntry s p x).commonsPoison = s.commonsPoison := rfl
@[simp] theorem setEntry_lostLines (s : State) (p : Nat) (x : Entry) : (setEntry s p x).lostLines = s.lostLines := rfl
@[simp] theorem setEntry_cad (s : State) (p : Nat) (x : Entry) : (setEntry s p x).cad = mapSet s.cad p x := rfl
@[simp] theorem setEntry_estates (s : State) (p : Nat) (x : Entry) : (setEntry s p x).estates = s.estates := rfl
@[simp] theorem setEntry_parts (s : State) (p : Nat) (x : Entry) : (setEntry s p x).parts = s.parts := rfl
@[simp] theorem setEntry_easements (s : State) (p : Nat) (x : Entry) : (setEntry s p x).easements = s.easements := rfl
@[simp] theorem setEntry_voided (s : State) (p : Nat) (x : Entry) : (setEntry s p x).voided = s.voided := rfl
@[simp] theorem setEntry_tasks (s : State) (p : Nat) (x : Entry) : (setEntry s p x).tasks = s.tasks := rfl
@[simp] theorem setEntry_jobs (s : State) (p : Nat) (x : Entry) : (setEntry s p x).jobs = s.jobs := rfl
@[simp] theorem setEntry_faults (s : State) (p : Nat) (x : Entry) : (setEntry s p x).faults = s.faults := rfl
@[simp] theorem setEntry_tables (s : State) (p : Nat) (x : Entry) : (setEntry s p x).tables = s.tables := rfl
@[simp] theorem setEntry_tlbs (s : State) (p : Nat) (x : Entry) : (setEntry s p x).tlbs = s.tlbs := rfl
@[simp] theorem setEntry_sharers (s : State) (p : Nat) (x : Entry) : (setEntry s p x).sharers = s.sharers := rfl
@[simp] theorem setEntry_shootdowns (s : State) (p : Nat) (x : Entry) : (setEntry s p x).shootdowns = s.shootdowns := rfl
@[simp] theorem setEntry_units (s : State) (p : Nat) (x : Entry) : (setEntry s p x).units = s.units := rfl
@[simp] theorem setEntry_ops (s : State) (p : Nat) (x : Entry) : (setEntry s p x).ops = s.ops := rfl
@[simp] theorem setEntry_queues (s : State) (p : Nat) (x : Entry) : (setEntry s p x).queues = s.queues := rfl
@[simp] theorem setEntry_jaspers (s : State) (p : Nat) (x : Entry) : (setEntry s p x).jaspers = s.jaspers := rfl
@[simp] theorem setEntry_chains (s : State) (p : Nat) (x : Entry) : (setEntry s p x).chains = s.chains := rfl
@[simp] theorem setEntry_mapped (s : State) (p : Nat) (x : Entry) : (setEntry s p x).mapped = s.mapped := rfl
@[simp] theorem setEntry_rlc (s : State) (p : Nat) (x : Entry) : (setEntry s p x).rlc = s.rlc := rfl
@[simp] theorem setEntry_reads (s : State) (p : Nat) (x : Entry) : (setEntry s p x).reads = s.reads := rfl
@[simp] theorem setEntry_directory (s : State) (p : Nat) (x : Entry) : (setEntry s p x).directory = s.directory := rfl
@[simp] theorem setEntry_shadows (s : State) (p : Nat) (x : Entry) : (setEntry s p x).shadows = s.shadows := rfl
@[simp] theorem setEntry_domain (s : State) (p : Nat) (x : Entry) : (setEntry s p x).domain = s.domain := rfl
@[simp] theorem setEntry_lostPackages (s : State) (p : Nat) (x : Entry) : (setEntry s p x).lostPackages = s.lostPackages := rfl
@[simp] theorem setEntry_pkgId (s : State) (p : Nat) (x : Entry) : (setEntry s p x).pkgId = s.pkgId := rfl
@[simp] theorem setEntry_ports (s : State) (p : Nat) (x : Entry) : (setEntry s p x).ports = s.ports := rfl
@[simp] theorem setEntry_seqs (s : State) (p : Nat) (x : Entry) : (setEntry s p x).seqs = s.seqs := rfl
@[simp] theorem setEntry_outstanding (s : State) (p : Nat) (x : Entry) : (setEntry s p x).outstanding = s.outstanding := rfl
@[simp] theorem setEntry_replies (s : State) (p : Nat) (x : Entry) : (setEntry s p x).replies = s.replies := rfl
@[simp] theorem setEntry_outbox (s : State) (p : Nat) (x : Entry) : (setEntry s p x).outbox = s.outbox := rfl
@[simp] theorem setEntry_timer (s : State) (p : Nat) (x : Entry) : (setEntry s p x).timer = s.timer := rfl
@[simp] theorem setEntry_laneThreshold (s : State) (p : Nat) (x : Entry) : (setEntry s p x).laneThreshold = s.laneThreshold := rfl
@[simp] theorem setEntry_boot (s : State) (p : Nat) (x : Entry) : (setEntry s p x).boot = s.boot := rfl
@[simp] theorem setEntry_lifeCycle (s : State) (p : Nat) (x : Entry) : (setEntry s p x).lifeCycle = s.lifeCycle := rfl
@[simp] theorem setEntry_images (s : State) (p : Nat) (x : Entry) : (setEntry s p x).images = s.images := rfl
@[simp] theorem setEntry_current (s : State) (p : Nat) (x : Entry) : (setEntry s p x).current = s.current := rfl
@[simp] theorem setEntry_sliceMap (s : State) (p : Nat) (x : Entry) : (setEntry s p x).sliceMap = s.sliceMap := rfl
@[simp] theorem setEntry_bankMap (s : State) (p : Nat) (x : Entry) : (setEntry s p x).bankMap = s.bankMap := rfl
@[simp] theorem setEntry_spareSlices (s : State) (p : Nat) (x : Entry) : (setEntry s p x).spareSlices = s.spareSlices := rfl
@[simp] theorem setEntry_spareBanks (s : State) (p : Nat) (x : Entry) : (setEntry s p x).spareBanks = s.spareBanks := rfl
@[simp] theorem setEntry_sparedRows (s : State) (p : Nat) (x : Entry) : (setEntry s p x).sparedRows = s.sparedRows := rfl
@[simp] theorem setEntry_sramErrors (s : State) (p : Nat) (x : Entry) : (setEntry s p x).sramErrors = s.sramErrors := rfl
@[simp] theorem setEntry_unitErrors (s : State) (p : Nat) (x : Entry) : (setEntry s p x).unitErrors = s.unitErrors := rfl
@[simp] theorem setEntry_cadastreFailed (s : State) (p : Nat) (x : Entry) : (setEntry s p x).cadastreFailed = s.cadastreFailed := rfl
@[simp] theorem setEntry_doe (s : State) (p : Nat) (x : Entry) : (setEntry s p x).doe = s.doe := rfl
@[simp] theorem setEntry_reports (s : State) (p : Nat) (x : Entry) : (setEntry s p x).reports = s.reports := rfl
@[simp] theorem setEntry_agenda (s : State) (p : Nat) (x : Entry) : (setEntry s p x).agenda = s.agenda := rfl
@[simp] theorem setEntry_cur (s : State) (p : Nat) (x : Entry) : (setEntry s p x).cur = s.cur := rfl
@[simp] theorem setEntry_focus (s : State) (p : Nat) (x : Entry) : (setEntry s p x).focus = s.focus := rfl
@[simp] theorem setEntry_history (s : State) (p : Nat) (x : Entry) : (setEntry s p x).history = s.history := rfl
@[simp] theorem setEntry_draws (s : State) (p : Nat) (x : Entry) : (setEntry s p x).draws = s.draws := rfl

@[simp] theorem setSlot_cycle (s : State) (c k : Nat) (x : Slot) : (setSlot s c k x).cycle = s.cycle := rfl
@[simp] theorem setTile_cycle (s : State) (c t : Nat) (x : Tile) : (setTile s c t x).cycle = s.cycle := rfl
@[simp] theorem setCurSlot_cycle (s : State) (x : Slot) : (setCurSlot s x).cycle = s.cycle := rfl
@[simp] theorem setCurCore_cycle (s : State) (x : Core) : (setCurCore s x).cycle = s.cycle := rfl
@[simp] theorem setSlot_islands (s : State) (c k : Nat) (x : Slot) : (setSlot s c k x).islands = s.islands := rfl
@[simp] theorem setTile_islands (s : State) (c t : Nat) (x : Tile) : (setTile s c t x).islands = s.islands := rfl
@[simp] theorem setCurSlot_islands (s : State) (x : Slot) : (setCurSlot s x).islands = s.islands := rfl
@[simp] theorem setCurCore_islands (s : State) (x : Core) : (setCurCore s x).islands = s.islands := rfl
@[simp] theorem setSlot_halted (s : State) (c k : Nat) (x : Slot) : (setSlot s c k x).halted = s.halted := rfl
@[simp] theorem setTile_halted (s : State) (c t : Nat) (x : Tile) : (setTile s c t x).halted = s.halted := rfl
@[simp] theorem setCurSlot_halted (s : State) (x : Slot) : (setCurSlot s x).halted = s.halted := rfl
@[simp] theorem setCurCore_halted (s : State) (x : Core) : (setCurCore s x).halted = s.halted := rfl
@[simp] theorem setSlot_hbm (s : State) (c k : Nat) (x : Slot) : (setSlot s c k x).hbm = s.hbm := rfl
@[simp] theorem setTile_hbm (s : State) (c t : Nat) (x : Tile) : (setTile s c t x).hbm = s.hbm := rfl
@[simp] theorem setCurSlot_hbm (s : State) (x : Slot) : (setCurSlot s x).hbm = s.hbm := rfl
@[simp] theorem setCurCore_hbm (s : State) (x : Core) : (setCurCore s x).hbm = s.hbm := rfl
@[simp] theorem setSlot_commons (s : State) (c k : Nat) (x : Slot) : (setSlot s c k x).commons = s.commons := rfl
@[simp] theorem setTile_commons (s : State) (c t : Nat) (x : Tile) : (setTile s c t x).commons = s.commons := rfl
@[simp] theorem setCurSlot_commons (s : State) (x : Slot) : (setCurSlot s x).commons = s.commons := rfl
@[simp] theorem setCurCore_commons (s : State) (x : Core) : (setCurCore s x).commons = s.commons := rfl
@[simp] theorem setSlot_host (s : State) (c k : Nat) (x : Slot) : (setSlot s c k x).host = s.host := rfl
@[simp] theorem setTile_host (s : State) (c t : Nat) (x : Tile) : (setTile s c t x).host = s.host := rfl
@[simp] theorem setCurSlot_host (s : State) (x : Slot) : (setCurSlot s x).host = s.host := rfl
@[simp] theorem setCurCore_host (s : State) (x : Core) : (setCurCore s x).host = s.host := rfl
@[simp] theorem setSlot_hbmPoison (s : State) (c k : Nat) (x : Slot) : (setSlot s c k x).hbmPoison = s.hbmPoison := rfl
@[simp] theorem setTile_hbmPoison (s : State) (c t : Nat) (x : Tile) : (setTile s c t x).hbmPoison = s.hbmPoison := rfl
@[simp] theorem setCurSlot_hbmPoison (s : State) (x : Slot) : (setCurSlot s x).hbmPoison = s.hbmPoison := rfl
@[simp] theorem setCurCore_hbmPoison (s : State) (x : Core) : (setCurCore s x).hbmPoison = s.hbmPoison := rfl
@[simp] theorem setSlot_hostHeld (s : State) (c k : Nat) (x : Slot) : (setSlot s c k x).hostHeld = s.hostHeld := rfl
@[simp] theorem setTile_hostHeld (s : State) (c t : Nat) (x : Tile) : (setTile s c t x).hostHeld = s.hostHeld := rfl
@[simp] theorem setCurSlot_hostHeld (s : State) (x : Slot) : (setCurSlot s x).hostHeld = s.hostHeld := rfl
@[simp] theorem setCurCore_hostHeld (s : State) (x : Core) : (setCurCore s x).hostHeld = s.hostHeld := rfl
@[simp] theorem setSlot_commonsPoison (s : State) (c k : Nat) (x : Slot) : (setSlot s c k x).commonsPoison = s.commonsPoison := rfl
@[simp] theorem setTile_commonsPoison (s : State) (c t : Nat) (x : Tile) : (setTile s c t x).commonsPoison = s.commonsPoison := rfl
@[simp] theorem setCurSlot_commonsPoison (s : State) (x : Slot) : (setCurSlot s x).commonsPoison = s.commonsPoison := rfl
@[simp] theorem setCurCore_commonsPoison (s : State) (x : Core) : (setCurCore s x).commonsPoison = s.commonsPoison := rfl
@[simp] theorem setSlot_lostLines (s : State) (c k : Nat) (x : Slot) : (setSlot s c k x).lostLines = s.lostLines := rfl
@[simp] theorem setTile_lostLines (s : State) (c t : Nat) (x : Tile) : (setTile s c t x).lostLines = s.lostLines := rfl
@[simp] theorem setCurSlot_lostLines (s : State) (x : Slot) : (setCurSlot s x).lostLines = s.lostLines := rfl
@[simp] theorem setCurCore_lostLines (s : State) (x : Core) : (setCurCore s x).lostLines = s.lostLines := rfl
@[simp] theorem setSlot_cad (s : State) (c k : Nat) (x : Slot) : (setSlot s c k x).cad = s.cad := rfl
@[simp] theorem setTile_cad (s : State) (c t : Nat) (x : Tile) : (setTile s c t x).cad = s.cad := rfl
@[simp] theorem setCurSlot_cad (s : State) (x : Slot) : (setCurSlot s x).cad = s.cad := rfl
@[simp] theorem setCurCore_cad (s : State) (x : Core) : (setCurCore s x).cad = s.cad := rfl
@[simp] theorem setSlot_estates (s : State) (c k : Nat) (x : Slot) : (setSlot s c k x).estates = s.estates := rfl
@[simp] theorem setTile_estates (s : State) (c t : Nat) (x : Tile) : (setTile s c t x).estates = s.estates := rfl
@[simp] theorem setCurSlot_estates (s : State) (x : Slot) : (setCurSlot s x).estates = s.estates := rfl
@[simp] theorem setCurCore_estates (s : State) (x : Core) : (setCurCore s x).estates = s.estates := rfl
@[simp] theorem setSlot_parts (s : State) (c k : Nat) (x : Slot) : (setSlot s c k x).parts = s.parts := rfl
@[simp] theorem setTile_parts (s : State) (c t : Nat) (x : Tile) : (setTile s c t x).parts = s.parts := rfl
@[simp] theorem setCurSlot_parts (s : State) (x : Slot) : (setCurSlot s x).parts = s.parts := rfl
@[simp] theorem setCurCore_parts (s : State) (x : Core) : (setCurCore s x).parts = s.parts := rfl
@[simp] theorem setSlot_easements (s : State) (c k : Nat) (x : Slot) : (setSlot s c k x).easements = s.easements := rfl
@[simp] theorem setTile_easements (s : State) (c t : Nat) (x : Tile) : (setTile s c t x).easements = s.easements := rfl
@[simp] theorem setCurSlot_easements (s : State) (x : Slot) : (setCurSlot s x).easements = s.easements := rfl
@[simp] theorem setCurCore_easements (s : State) (x : Core) : (setCurCore s x).easements = s.easements := rfl
@[simp] theorem setSlot_voided (s : State) (c k : Nat) (x : Slot) : (setSlot s c k x).voided = s.voided := rfl
@[simp] theorem setTile_voided (s : State) (c t : Nat) (x : Tile) : (setTile s c t x).voided = s.voided := rfl
@[simp] theorem setCurSlot_voided (s : State) (x : Slot) : (setCurSlot s x).voided = s.voided := rfl
@[simp] theorem setCurCore_voided (s : State) (x : Core) : (setCurCore s x).voided = s.voided := rfl
@[simp] theorem setSlot_tasks (s : State) (c k : Nat) (x : Slot) : (setSlot s c k x).tasks = s.tasks := rfl
@[simp] theorem setTile_tasks (s : State) (c t : Nat) (x : Tile) : (setTile s c t x).tasks = s.tasks := rfl
@[simp] theorem setCurSlot_tasks (s : State) (x : Slot) : (setCurSlot s x).tasks = s.tasks := rfl
@[simp] theorem setCurCore_tasks (s : State) (x : Core) : (setCurCore s x).tasks = s.tasks := rfl
@[simp] theorem setSlot_jobs (s : State) (c k : Nat) (x : Slot) : (setSlot s c k x).jobs = s.jobs := rfl
@[simp] theorem setTile_jobs (s : State) (c t : Nat) (x : Tile) : (setTile s c t x).jobs = s.jobs := rfl
@[simp] theorem setCurSlot_jobs (s : State) (x : Slot) : (setCurSlot s x).jobs = s.jobs := rfl
@[simp] theorem setCurCore_jobs (s : State) (x : Core) : (setCurCore s x).jobs = s.jobs := rfl
@[simp] theorem setSlot_faults (s : State) (c k : Nat) (x : Slot) : (setSlot s c k x).faults = s.faults := rfl
@[simp] theorem setTile_faults (s : State) (c t : Nat) (x : Tile) : (setTile s c t x).faults = s.faults := rfl
@[simp] theorem setCurSlot_faults (s : State) (x : Slot) : (setCurSlot s x).faults = s.faults := rfl
@[simp] theorem setCurCore_faults (s : State) (x : Core) : (setCurCore s x).faults = s.faults := rfl
@[simp] theorem setSlot_tables (s : State) (c k : Nat) (x : Slot) : (setSlot s c k x).tables = s.tables := rfl
@[simp] theorem setTile_tables (s : State) (c t : Nat) (x : Tile) : (setTile s c t x).tables = s.tables := rfl
@[simp] theorem setCurSlot_tables (s : State) (x : Slot) : (setCurSlot s x).tables = s.tables := rfl
@[simp] theorem setCurCore_tables (s : State) (x : Core) : (setCurCore s x).tables = s.tables := rfl
@[simp] theorem setSlot_tlbs (s : State) (c k : Nat) (x : Slot) : (setSlot s c k x).tlbs = s.tlbs := rfl
@[simp] theorem setTile_tlbs (s : State) (c t : Nat) (x : Tile) : (setTile s c t x).tlbs = s.tlbs := rfl
@[simp] theorem setCurSlot_tlbs (s : State) (x : Slot) : (setCurSlot s x).tlbs = s.tlbs := rfl
@[simp] theorem setCurCore_tlbs (s : State) (x : Core) : (setCurCore s x).tlbs = s.tlbs := rfl
@[simp] theorem setSlot_sharers (s : State) (c k : Nat) (x : Slot) : (setSlot s c k x).sharers = s.sharers := rfl
@[simp] theorem setTile_sharers (s : State) (c t : Nat) (x : Tile) : (setTile s c t x).sharers = s.sharers := rfl
@[simp] theorem setCurSlot_sharers (s : State) (x : Slot) : (setCurSlot s x).sharers = s.sharers := rfl
@[simp] theorem setCurCore_sharers (s : State) (x : Core) : (setCurCore s x).sharers = s.sharers := rfl
@[simp] theorem setSlot_shootdowns (s : State) (c k : Nat) (x : Slot) : (setSlot s c k x).shootdowns = s.shootdowns := rfl
@[simp] theorem setTile_shootdowns (s : State) (c t : Nat) (x : Tile) : (setTile s c t x).shootdowns = s.shootdowns := rfl
@[simp] theorem setCurSlot_shootdowns (s : State) (x : Slot) : (setCurSlot s x).shootdowns = s.shootdowns := rfl
@[simp] theorem setCurCore_shootdowns (s : State) (x : Core) : (setCurCore s x).shootdowns = s.shootdowns := rfl
@[simp] theorem setSlot_units (s : State) (c k : Nat) (x : Slot) : (setSlot s c k x).units = s.units := rfl
@[simp] theorem setTile_units (s : State) (c t : Nat) (x : Tile) : (setTile s c t x).units = s.units := rfl
@[simp] theorem setCurSlot_units (s : State) (x : Slot) : (setCurSlot s x).units = s.units := rfl
@[simp] theorem setCurCore_units (s : State) (x : Core) : (setCurCore s x).units = s.units := rfl
@[simp] theorem setSlot_ops (s : State) (c k : Nat) (x : Slot) : (setSlot s c k x).ops = s.ops := rfl
@[simp] theorem setTile_ops (s : State) (c t : Nat) (x : Tile) : (setTile s c t x).ops = s.ops := rfl
@[simp] theorem setCurSlot_ops (s : State) (x : Slot) : (setCurSlot s x).ops = s.ops := rfl
@[simp] theorem setCurCore_ops (s : State) (x : Core) : (setCurCore s x).ops = s.ops := rfl
@[simp] theorem setSlot_queues (s : State) (c k : Nat) (x : Slot) : (setSlot s c k x).queues = s.queues := rfl
@[simp] theorem setTile_queues (s : State) (c t : Nat) (x : Tile) : (setTile s c t x).queues = s.queues := rfl
@[simp] theorem setCurSlot_queues (s : State) (x : Slot) : (setCurSlot s x).queues = s.queues := rfl
@[simp] theorem setCurCore_queues (s : State) (x : Core) : (setCurCore s x).queues = s.queues := rfl
@[simp] theorem setSlot_jaspers (s : State) (c k : Nat) (x : Slot) : (setSlot s c k x).jaspers = s.jaspers := rfl
@[simp] theorem setTile_jaspers (s : State) (c t : Nat) (x : Tile) : (setTile s c t x).jaspers = s.jaspers := rfl
@[simp] theorem setCurSlot_jaspers (s : State) (x : Slot) : (setCurSlot s x).jaspers = s.jaspers := rfl
@[simp] theorem setCurCore_jaspers (s : State) (x : Core) : (setCurCore s x).jaspers = s.jaspers := rfl
@[simp] theorem setSlot_chains (s : State) (c k : Nat) (x : Slot) : (setSlot s c k x).chains = s.chains := rfl
@[simp] theorem setTile_chains (s : State) (c t : Nat) (x : Tile) : (setTile s c t x).chains = s.chains := rfl
@[simp] theorem setCurSlot_chains (s : State) (x : Slot) : (setCurSlot s x).chains = s.chains := rfl
@[simp] theorem setCurCore_chains (s : State) (x : Core) : (setCurCore s x).chains = s.chains := rfl
@[simp] theorem setSlot_mapped (s : State) (c k : Nat) (x : Slot) : (setSlot s c k x).mapped = s.mapped := rfl
@[simp] theorem setTile_mapped (s : State) (c t : Nat) (x : Tile) : (setTile s c t x).mapped = s.mapped := rfl
@[simp] theorem setCurSlot_mapped (s : State) (x : Slot) : (setCurSlot s x).mapped = s.mapped := rfl
@[simp] theorem setCurCore_mapped (s : State) (x : Core) : (setCurCore s x).mapped = s.mapped := rfl
@[simp] theorem setSlot_rlc (s : State) (c k : Nat) (x : Slot) : (setSlot s c k x).rlc = s.rlc := rfl
@[simp] theorem setTile_rlc (s : State) (c t : Nat) (x : Tile) : (setTile s c t x).rlc = s.rlc := rfl
@[simp] theorem setCurSlot_rlc (s : State) (x : Slot) : (setCurSlot s x).rlc = s.rlc := rfl
@[simp] theorem setCurCore_rlc (s : State) (x : Core) : (setCurCore s x).rlc = s.rlc := rfl
@[simp] theorem setSlot_reads (s : State) (c k : Nat) (x : Slot) : (setSlot s c k x).reads = s.reads := rfl
@[simp] theorem setTile_reads (s : State) (c t : Nat) (x : Tile) : (setTile s c t x).reads = s.reads := rfl
@[simp] theorem setCurSlot_reads (s : State) (x : Slot) : (setCurSlot s x).reads = s.reads := rfl
@[simp] theorem setCurCore_reads (s : State) (x : Core) : (setCurCore s x).reads = s.reads := rfl
@[simp] theorem setSlot_directory (s : State) (c k : Nat) (x : Slot) : (setSlot s c k x).directory = s.directory := rfl
@[simp] theorem setTile_directory (s : State) (c t : Nat) (x : Tile) : (setTile s c t x).directory = s.directory := rfl
@[simp] theorem setCurSlot_directory (s : State) (x : Slot) : (setCurSlot s x).directory = s.directory := rfl
@[simp] theorem setCurCore_directory (s : State) (x : Core) : (setCurCore s x).directory = s.directory := rfl
@[simp] theorem setSlot_shadows (s : State) (c k : Nat) (x : Slot) : (setSlot s c k x).shadows = s.shadows := rfl
@[simp] theorem setTile_shadows (s : State) (c t : Nat) (x : Tile) : (setTile s c t x).shadows = s.shadows := rfl
@[simp] theorem setCurSlot_shadows (s : State) (x : Slot) : (setCurSlot s x).shadows = s.shadows := rfl
@[simp] theorem setCurCore_shadows (s : State) (x : Core) : (setCurCore s x).shadows = s.shadows := rfl
@[simp] theorem setSlot_domain (s : State) (c k : Nat) (x : Slot) : (setSlot s c k x).domain = s.domain := rfl
@[simp] theorem setTile_domain (s : State) (c t : Nat) (x : Tile) : (setTile s c t x).domain = s.domain := rfl
@[simp] theorem setCurSlot_domain (s : State) (x : Slot) : (setCurSlot s x).domain = s.domain := rfl
@[simp] theorem setCurCore_domain (s : State) (x : Core) : (setCurCore s x).domain = s.domain := rfl
@[simp] theorem setSlot_lostPackages (s : State) (c k : Nat) (x : Slot) : (setSlot s c k x).lostPackages = s.lostPackages := rfl
@[simp] theorem setTile_lostPackages (s : State) (c t : Nat) (x : Tile) : (setTile s c t x).lostPackages = s.lostPackages := rfl
@[simp] theorem setCurSlot_lostPackages (s : State) (x : Slot) : (setCurSlot s x).lostPackages = s.lostPackages := rfl
@[simp] theorem setCurCore_lostPackages (s : State) (x : Core) : (setCurCore s x).lostPackages = s.lostPackages := rfl
@[simp] theorem setSlot_pkgId (s : State) (c k : Nat) (x : Slot) : (setSlot s c k x).pkgId = s.pkgId := rfl
@[simp] theorem setTile_pkgId (s : State) (c t : Nat) (x : Tile) : (setTile s c t x).pkgId = s.pkgId := rfl
@[simp] theorem setCurSlot_pkgId (s : State) (x : Slot) : (setCurSlot s x).pkgId = s.pkgId := rfl
@[simp] theorem setCurCore_pkgId (s : State) (x : Core) : (setCurCore s x).pkgId = s.pkgId := rfl
@[simp] theorem setSlot_ports (s : State) (c k : Nat) (x : Slot) : (setSlot s c k x).ports = s.ports := rfl
@[simp] theorem setTile_ports (s : State) (c t : Nat) (x : Tile) : (setTile s c t x).ports = s.ports := rfl
@[simp] theorem setCurSlot_ports (s : State) (x : Slot) : (setCurSlot s x).ports = s.ports := rfl
@[simp] theorem setCurCore_ports (s : State) (x : Core) : (setCurCore s x).ports = s.ports := rfl
@[simp] theorem setSlot_seqs (s : State) (c k : Nat) (x : Slot) : (setSlot s c k x).seqs = s.seqs := rfl
@[simp] theorem setTile_seqs (s : State) (c t : Nat) (x : Tile) : (setTile s c t x).seqs = s.seqs := rfl
@[simp] theorem setCurSlot_seqs (s : State) (x : Slot) : (setCurSlot s x).seqs = s.seqs := rfl
@[simp] theorem setCurCore_seqs (s : State) (x : Core) : (setCurCore s x).seqs = s.seqs := rfl
@[simp] theorem setSlot_outstanding (s : State) (c k : Nat) (x : Slot) : (setSlot s c k x).outstanding = s.outstanding := rfl
@[simp] theorem setTile_outstanding (s : State) (c t : Nat) (x : Tile) : (setTile s c t x).outstanding = s.outstanding := rfl
@[simp] theorem setCurSlot_outstanding (s : State) (x : Slot) : (setCurSlot s x).outstanding = s.outstanding := rfl
@[simp] theorem setCurCore_outstanding (s : State) (x : Core) : (setCurCore s x).outstanding = s.outstanding := rfl
@[simp] theorem setSlot_replies (s : State) (c k : Nat) (x : Slot) : (setSlot s c k x).replies = s.replies := rfl
@[simp] theorem setTile_replies (s : State) (c t : Nat) (x : Tile) : (setTile s c t x).replies = s.replies := rfl
@[simp] theorem setCurSlot_replies (s : State) (x : Slot) : (setCurSlot s x).replies = s.replies := rfl
@[simp] theorem setCurCore_replies (s : State) (x : Core) : (setCurCore s x).replies = s.replies := rfl
@[simp] theorem setSlot_outbox (s : State) (c k : Nat) (x : Slot) : (setSlot s c k x).outbox = s.outbox := rfl
@[simp] theorem setTile_outbox (s : State) (c t : Nat) (x : Tile) : (setTile s c t x).outbox = s.outbox := rfl
@[simp] theorem setCurSlot_outbox (s : State) (x : Slot) : (setCurSlot s x).outbox = s.outbox := rfl
@[simp] theorem setCurCore_outbox (s : State) (x : Core) : (setCurCore s x).outbox = s.outbox := rfl
@[simp] theorem setSlot_timer (s : State) (c k : Nat) (x : Slot) : (setSlot s c k x).timer = s.timer := rfl
@[simp] theorem setTile_timer (s : State) (c t : Nat) (x : Tile) : (setTile s c t x).timer = s.timer := rfl
@[simp] theorem setCurSlot_timer (s : State) (x : Slot) : (setCurSlot s x).timer = s.timer := rfl
@[simp] theorem setCurCore_timer (s : State) (x : Core) : (setCurCore s x).timer = s.timer := rfl
@[simp] theorem setSlot_laneThreshold (s : State) (c k : Nat) (x : Slot) : (setSlot s c k x).laneThreshold = s.laneThreshold := rfl
@[simp] theorem setTile_laneThreshold (s : State) (c t : Nat) (x : Tile) : (setTile s c t x).laneThreshold = s.laneThreshold := rfl
@[simp] theorem setCurSlot_laneThreshold (s : State) (x : Slot) : (setCurSlot s x).laneThreshold = s.laneThreshold := rfl
@[simp] theorem setCurCore_laneThreshold (s : State) (x : Core) : (setCurCore s x).laneThreshold = s.laneThreshold := rfl
@[simp] theorem setSlot_boot (s : State) (c k : Nat) (x : Slot) : (setSlot s c k x).boot = s.boot := rfl
@[simp] theorem setTile_boot (s : State) (c t : Nat) (x : Tile) : (setTile s c t x).boot = s.boot := rfl
@[simp] theorem setCurSlot_boot (s : State) (x : Slot) : (setCurSlot s x).boot = s.boot := rfl
@[simp] theorem setCurCore_boot (s : State) (x : Core) : (setCurCore s x).boot = s.boot := rfl
@[simp] theorem setSlot_lifeCycle (s : State) (c k : Nat) (x : Slot) : (setSlot s c k x).lifeCycle = s.lifeCycle := rfl
@[simp] theorem setTile_lifeCycle (s : State) (c t : Nat) (x : Tile) : (setTile s c t x).lifeCycle = s.lifeCycle := rfl
@[simp] theorem setCurSlot_lifeCycle (s : State) (x : Slot) : (setCurSlot s x).lifeCycle = s.lifeCycle := rfl
@[simp] theorem setCurCore_lifeCycle (s : State) (x : Core) : (setCurCore s x).lifeCycle = s.lifeCycle := rfl
@[simp] theorem setSlot_images (s : State) (c k : Nat) (x : Slot) : (setSlot s c k x).images = s.images := rfl
@[simp] theorem setTile_images (s : State) (c t : Nat) (x : Tile) : (setTile s c t x).images = s.images := rfl
@[simp] theorem setCurSlot_images (s : State) (x : Slot) : (setCurSlot s x).images = s.images := rfl
@[simp] theorem setCurCore_images (s : State) (x : Core) : (setCurCore s x).images = s.images := rfl
@[simp] theorem setSlot_current (s : State) (c k : Nat) (x : Slot) : (setSlot s c k x).current = s.current := rfl
@[simp] theorem setTile_current (s : State) (c t : Nat) (x : Tile) : (setTile s c t x).current = s.current := rfl
@[simp] theorem setCurSlot_current (s : State) (x : Slot) : (setCurSlot s x).current = s.current := rfl
@[simp] theorem setCurCore_current (s : State) (x : Core) : (setCurCore s x).current = s.current := rfl
@[simp] theorem setSlot_sliceMap (s : State) (c k : Nat) (x : Slot) : (setSlot s c k x).sliceMap = s.sliceMap := rfl
@[simp] theorem setTile_sliceMap (s : State) (c t : Nat) (x : Tile) : (setTile s c t x).sliceMap = s.sliceMap := rfl
@[simp] theorem setCurSlot_sliceMap (s : State) (x : Slot) : (setCurSlot s x).sliceMap = s.sliceMap := rfl
@[simp] theorem setCurCore_sliceMap (s : State) (x : Core) : (setCurCore s x).sliceMap = s.sliceMap := rfl
@[simp] theorem setSlot_bankMap (s : State) (c k : Nat) (x : Slot) : (setSlot s c k x).bankMap = s.bankMap := rfl
@[simp] theorem setTile_bankMap (s : State) (c t : Nat) (x : Tile) : (setTile s c t x).bankMap = s.bankMap := rfl
@[simp] theorem setCurSlot_bankMap (s : State) (x : Slot) : (setCurSlot s x).bankMap = s.bankMap := rfl
@[simp] theorem setCurCore_bankMap (s : State) (x : Core) : (setCurCore s x).bankMap = s.bankMap := rfl
@[simp] theorem setSlot_spareSlices (s : State) (c k : Nat) (x : Slot) : (setSlot s c k x).spareSlices = s.spareSlices := rfl
@[simp] theorem setTile_spareSlices (s : State) (c t : Nat) (x : Tile) : (setTile s c t x).spareSlices = s.spareSlices := rfl
@[simp] theorem setCurSlot_spareSlices (s : State) (x : Slot) : (setCurSlot s x).spareSlices = s.spareSlices := rfl
@[simp] theorem setCurCore_spareSlices (s : State) (x : Core) : (setCurCore s x).spareSlices = s.spareSlices := rfl
@[simp] theorem setSlot_spareBanks (s : State) (c k : Nat) (x : Slot) : (setSlot s c k x).spareBanks = s.spareBanks := rfl
@[simp] theorem setTile_spareBanks (s : State) (c t : Nat) (x : Tile) : (setTile s c t x).spareBanks = s.spareBanks := rfl
@[simp] theorem setCurSlot_spareBanks (s : State) (x : Slot) : (setCurSlot s x).spareBanks = s.spareBanks := rfl
@[simp] theorem setCurCore_spareBanks (s : State) (x : Core) : (setCurCore s x).spareBanks = s.spareBanks := rfl
@[simp] theorem setSlot_sparedRows (s : State) (c k : Nat) (x : Slot) : (setSlot s c k x).sparedRows = s.sparedRows := rfl
@[simp] theorem setTile_sparedRows (s : State) (c t : Nat) (x : Tile) : (setTile s c t x).sparedRows = s.sparedRows := rfl
@[simp] theorem setCurSlot_sparedRows (s : State) (x : Slot) : (setCurSlot s x).sparedRows = s.sparedRows := rfl
@[simp] theorem setCurCore_sparedRows (s : State) (x : Core) : (setCurCore s x).sparedRows = s.sparedRows := rfl
@[simp] theorem setSlot_sramErrors (s : State) (c k : Nat) (x : Slot) : (setSlot s c k x).sramErrors = s.sramErrors := rfl
@[simp] theorem setSlot_unitErrors (s : State) (c k : Nat) (x : Slot) : (setSlot s c k x).unitErrors = s.unitErrors := rfl
@[simp] theorem setTile_sramErrors (s : State) (c t : Nat) (x : Tile) : (setTile s c t x).sramErrors = s.sramErrors := rfl
@[simp] theorem setTile_unitErrors (s : State) (c t : Nat) (x : Tile) : (setTile s c t x).unitErrors = s.unitErrors := rfl
@[simp] theorem setCurSlot_sramErrors (s : State) (x : Slot) : (setCurSlot s x).sramErrors = s.sramErrors := rfl
@[simp] theorem setCurSlot_unitErrors (s : State) (x : Slot) : (setCurSlot s x).unitErrors = s.unitErrors := rfl
@[simp] theorem setCurCore_sramErrors (s : State) (x : Core) : (setCurCore s x).sramErrors = s.sramErrors := rfl
@[simp] theorem setCurCore_unitErrors (s : State) (x : Core) : (setCurCore s x).unitErrors = s.unitErrors := rfl
@[simp] theorem setSlot_cadastreFailed (s : State) (c k : Nat) (x : Slot) : (setSlot s c k x).cadastreFailed = s.cadastreFailed := rfl
@[simp] theorem setTile_cadastreFailed (s : State) (c t : Nat) (x : Tile) : (setTile s c t x).cadastreFailed = s.cadastreFailed := rfl
@[simp] theorem setCurSlot_cadastreFailed (s : State) (x : Slot) : (setCurSlot s x).cadastreFailed = s.cadastreFailed := rfl
@[simp] theorem setCurCore_cadastreFailed (s : State) (x : Core) : (setCurCore s x).cadastreFailed = s.cadastreFailed := rfl
@[simp] theorem setSlot_doe (s : State) (c k : Nat) (x : Slot) : (setSlot s c k x).doe = s.doe := rfl
@[simp] theorem setTile_doe (s : State) (c t : Nat) (x : Tile) : (setTile s c t x).doe = s.doe := rfl
@[simp] theorem setCurSlot_doe (s : State) (x : Slot) : (setCurSlot s x).doe = s.doe := rfl
@[simp] theorem setCurCore_doe (s : State) (x : Core) : (setCurCore s x).doe = s.doe := rfl
@[simp] theorem setSlot_reports (s : State) (c k : Nat) (x : Slot) : (setSlot s c k x).reports = s.reports := rfl
@[simp] theorem setTile_reports (s : State) (c t : Nat) (x : Tile) : (setTile s c t x).reports = s.reports := rfl
@[simp] theorem setCurSlot_reports (s : State) (x : Slot) : (setCurSlot s x).reports = s.reports := rfl
@[simp] theorem setCurCore_reports (s : State) (x : Core) : (setCurCore s x).reports = s.reports := rfl
@[simp] theorem setSlot_agenda (s : State) (c k : Nat) (x : Slot) : (setSlot s c k x).agenda = s.agenda := rfl
@[simp] theorem setTile_agenda (s : State) (c t : Nat) (x : Tile) : (setTile s c t x).agenda = s.agenda := rfl
@[simp] theorem setCurSlot_agenda (s : State) (x : Slot) : (setCurSlot s x).agenda = s.agenda := rfl
@[simp] theorem setCurCore_agenda (s : State) (x : Core) : (setCurCore s x).agenda = s.agenda := rfl
@[simp] theorem setSlot_cur (s : State) (c k : Nat) (x : Slot) : (setSlot s c k x).cur = s.cur := rfl
@[simp] theorem setTile_cur (s : State) (c t : Nat) (x : Tile) : (setTile s c t x).cur = s.cur := rfl
@[simp] theorem setCurSlot_cur (s : State) (x : Slot) : (setCurSlot s x).cur = s.cur := rfl
@[simp] theorem setCurCore_cur (s : State) (x : Core) : (setCurCore s x).cur = s.cur := rfl
@[simp] theorem setSlot_focus (s : State) (c k : Nat) (x : Slot) : (setSlot s c k x).focus = s.focus := rfl
@[simp] theorem setTile_focus (s : State) (c t : Nat) (x : Tile) : (setTile s c t x).focus = s.focus := rfl
@[simp] theorem setCurSlot_focus (s : State) (x : Slot) : (setCurSlot s x).focus = s.focus := rfl
@[simp] theorem setCurCore_focus (s : State) (x : Core) : (setCurCore s x).focus = s.focus := rfl
@[simp] theorem setSlot_history (s : State) (c k : Nat) (x : Slot) : (setSlot s c k x).history = s.history := rfl
@[simp] theorem setTile_history (s : State) (c t : Nat) (x : Tile) : (setTile s c t x).history = s.history := rfl
@[simp] theorem setCurSlot_history (s : State) (x : Slot) : (setCurSlot s x).history = s.history := rfl
@[simp] theorem setCurCore_history (s : State) (x : Core) : (setCurCore s x).history = s.history := rfl
@[simp] theorem setSlot_draws (s : State) (c k : Nat) (x : Slot) : (setSlot s c k x).draws = s.draws := rfl
@[simp] theorem setTile_draws (s : State) (c t : Nat) (x : Tile) : (setTile s c t x).draws = s.draws := rfl
@[simp] theorem setCurSlot_draws (s : State) (x : Slot) : (setCurSlot s x).draws = s.draws := rfl
@[simp] theorem setCurCore_draws (s : State) (x : Core) : (setCurCore s x).draws = s.draws := rfl

end Sys2Proof.Machine
end

