-- ==== Sys2Proof/Laws/Maps.lean ====
section
/-! SUPPORT. The laws of sparse maps and of the parts of a state read through them. -/

namespace Sys2Proof.Machine

/-- What a map holds at a key after that key is set. -/
@[simp] theorem mapFind_mapSet_self (m : Map β) (k : Nat) (b : β) : mapFind (mapSet m k b) k = some b := by
  induction m with
  | nil => simp [mapSet, mapFind]
  | cons p r ih =>
    obtain ⟨j, x⟩ := p
    simp only [mapSet]
    split
    · simp [mapFind]
    · split
      · simp [mapFind]
      · next h1 h2 => simp [mapFind, Ne.symm h2, ih]

/-- Setting a key leaves the others alone. -/
theorem mapFind_mapSet_of_ne (m : Map β) {k j : Nat} (b : β) (h : j ≠ k) : mapFind (mapSet m k b) j = mapFind m j := by
  induction m with
  | nil => simp [mapSet, mapFind, Ne.symm h]
  | cons p r ih =>
    obtain ⟨i, x⟩ := p
    simp only [mapSet]
    split
    · simp [mapFind, Ne.symm h]
    · split
      · next h1 h2 => subst h2; simp [mapFind, Ne.symm h]
      · simp [mapFind, ih]

@[simp] theorem coreOf_setCore_self (s : State) (c : Nat) (x : Core) : coreOf (setCore s c x) c = x := by
  simp [coreOf]

theorem coreOf_setCore_of_ne (s : State) {c c' : Nat} (x : Core) (h : c' ≠ c) : coreOf (setCore s c x) c' = coreOf s c' := by
  simp [coreOf, mapFind_mapSet_of_ne _ _ h]

@[simp] theorem slotOf_setSlot_self (s : State) (c k : Nat) (x : Slot) : slotOf (setSlot s c k x) c k = x := by
  simp [slotOf, setSlot]

theorem slotOf_setSlot_of_ne (s : State) {c k k' : Nat} (x : Slot) (h : k' ≠ k) :
    slotOf (setSlot s c k x) c k' = slotOf s c k' := by
  simp [slotOf, setSlot, mapFind_mapSet_of_ne _ _ h]

theorem slotOf_setSlot_other_core (s : State) {c c' : Nat} (k k' : Nat) (x : Slot) (h : c' ≠ c) :
    slotOf (setSlot s c k x) c' k' = slotOf s c' k' := by
  simp [slotOf, setSlot, coreOf_setCore_of_ne _ _ h]

@[simp] theorem estateOf_setEstate_self (s : State) (e : Nat) (x : Estate) : estateOf (setEstate s e x) e = x := by
  simp [estateOf]

@[simp] theorem partOf_setPart_self (s : State) (p : Nat) (x : Part) : partOf (setPart s p x) p = x := by simp [partOf]

@[simp] theorem taskOf_setTask_self (s : State) (h : Nat) (x : Task) : taskOf (setTask s h x) h = x := by simp [taskOf]

@[simp] theorem unitOf_setUnit_self (s : State) (u : Nat) (x : BerylUnit) : unitOf (setUnit s u x) u = x := by simp [unitOf]

@[simp] theorem queueOf_setQueue_self (s : State) (q : Nat) (x : LaunchQueue) : queueOf (setQueue s q x) q = x := by
  simp [queueOf]

@[simp] theorem entryOf_setEntry_self (s : State) (p : Nat) (x : Entry) : entryOf (setEntry s p x) p = x := by
  simp [entryOf]

theorem entryOf_setEntry_of_ne (s : State) {p p' : Nat} (x : Entry) (h : p' ≠ p) :
    entryOf (setEntry s p x) p' = entryOf s p' := by
  simp [entryOf, mapFind_mapSet_of_ne _ _ h]

@[simp] theorem curSlot_setCurSlot (s : State) (x : Slot) : curSlot (setCurSlot s x) = x := by
  simp [curSlot, setCurSlot]

@[simp] theorem curCore_setCurCore (s : State) (x : Core) : curCore (setCurCore s x) = x := by
  simp [curCore, setCurCore]

end Sys2Proof.Machine
end

