-- ==== Sys2Proof/Laws/Memory.lean ====
section
/-! SUPPORT. Memories: their canonical form in plain words, every operation keeps it, and a read after a write. -/

namespace Sys2Proof.Machine

/-- The canonical form says: addresses rise and no byte listed is 0. -/
theorem Memory.wf_iff (m : Memory) :
    Memory.wf m = true ↔ m.Pairwise (fun p q => p.1 < q.1) ∧ ∀ p ∈ m, p.2 ≠ 0 := by
  fun_induction Memory.wf m with
  | case1 => simp
  | case2 a b => simp
  | case3 a b a' b' r ih =>
    simp only [Bool.and_eq_true, ih, bne_iff_ne, decide_eq_true_eq, List.pairwise_cons, List.mem_cons,
      forall_eq_or_imp, Prod.forall]
    constructor
    · rintro ⟨⟨hb, ha⟩, ⟨h1, h2⟩, h3, h4⟩
      exact ⟨⟨⟨ha, fun x y hx => ha.trans (h1 x y hx)⟩, h1, h2⟩, hb, h3, h4⟩
    · rintro ⟨⟨⟨ha, _⟩, h1, h2⟩, hb, h3, h4⟩
      exact ⟨⟨hb, ha⟩, ⟨h1, h2⟩, h3, h4⟩

/-- Every cell of a memory after a write is an old one or the one written. -/
theorem mem_memSet (m : Memory) (a : Nat) (b : Byte) (p : Host.Cell) (h : p ∈ memSet m a b) :
    p ∈ m ∨ (p = (a, b) ∧ b ≠ 0) := by
  fun_induction memSet m a b with
  | case1 => simp_all
  | case2 => simp_all
  | case3 => simp_all
  | case4 => simp only [List.mem_cons] at h ⊢; tauto
  | case5 => simp only [List.mem_cons] at h ⊢; tauto
  | case6 => simp only [List.mem_cons] at h ⊢; tauto
  | case7 j x r h1 h2 ih => simp only [List.mem_cons] at h ⊢; rcases h with h | h <;> [tauto; (have := ih h; tauto)]

/-- A write keeps the canonical form. -/
theorem memSet_wf (m : Memory) (a : Nat) (b : Byte) (h : Memory.wf m = true) : Memory.wf (memSet m a b) = true := by
  rw [Memory.wf_iff] at h ⊢
  obtain ⟨h1, h2⟩ := h
  refine ⟨?_, fun p hp => ?_⟩
  · fun_induction memSet m a b with
    | case1 => simp
    | case2 => simp
    | case3 => exact h1
    | case4 j x r h3 hb =>
      refine List.pairwise_cons.2 ⟨fun p hp => ?_, h1⟩
      rcases List.mem_cons.1 hp with hp | hp
      · subst hp; exact h3
      · exact lt_trans h3 ((List.pairwise_cons.1 h1).1 p hp)
    | case5 => exact (List.pairwise_cons.1 h1).2
    | case6 => exact List.pairwise_cons.2 (List.pairwise_cons.1 h1)
    | case7 j x r h3 h4 ih =>
      refine List.pairwise_cons.2 ⟨fun p hp => ?_, ih (List.pairwise_cons.1 h1).2 (fun p hp => h2 p (List.mem_cons_of_mem _ hp))⟩
      rcases mem_memSet r a b p hp with hp | ⟨hp, _⟩
      · exact (List.pairwise_cons.1 h1).1 p hp
      · subst hp; change j < a; omega
  · rcases mem_memSet m a b p hp with hp | ⟨hp, hb⟩
    · exact h2 p hp
    · subst hp; exact hb

theorem memWrite_wf (n : Nat) : ∀ (m : Memory) (a v : Nat), Memory.wf m = true → Memory.wf (memWrite m a v n) = true := by
  induction n with
  | zero => exact fun m a v h => h
  | succ n ih => exact fun m a v h => ih _ _ _ (memSet_wf _ _ _ h)

theorem memMask_wf (n : Nat) : ∀ (m : Memory) (a v k : Nat), Memory.wf m = true → Memory.wf (memMask m a v k n) = true := by
  induction n with
  | zero => exact fun m a v k h => h
  | succ n ih => exact fun m a v k h => ih _ _ _ _ (memSet_wf _ _ _ h)

theorem zeroFill_wf (m : Memory) (a n : Nat) (h : Memory.wf m = true) : Memory.wf (zeroFill m a n) = true := by
  rw [Memory.wf_iff] at h ⊢
  exact ⟨h.1.sublist List.filter_sublist, fun p hp => h.2 p (List.mem_of_mem_filter hp)⟩

theorem cutMemory_wf (m : Memory) (a n : Nat) (h : Memory.wf m = true) : Memory.wf (cutMemory m a n) = true := by
  rw [Memory.wf_iff] at h ⊢
  refine ⟨?_, fun p hp => ?_⟩
  · refine List.pairwise_map.2 ((h.1.sublist List.filter_sublist).imp_of_mem ?_)
    intro x y hx hy hxy
    simp only [List.mem_filter, Bool.and_eq_true, decide_eq_true_eq] at hx hy
    change x.1 - a < y.1 - a
    omega
  · simp only [cutMemory, List.mem_map, List.mem_filter] at hp
    obtain ⟨q, ⟨hq, -⟩, rfl⟩ := hp
    exact h.2 q hq

/-- A byte that lies below every listed address reads 0. -/
theorem memGet_of_lt (m : Memory) (a : Nat) (h : ∀ p ∈ m, a < p.1) : memGet m a = 0 := by
  induction m with
  | nil => rfl
  | cons p r ih =>
    obtain ⟨j, x⟩ := p
    have h1 : a < j := h (j, x) List.mem_cons_self
    simp only [memGet]
    rw [if_neg (by omega)]
    exact ih fun p hp => h p (List.mem_cons_of_mem _ hp)

/-- A read after a write to the same place. -/
theorem memGet_memSet_self (m : Memory) (a : Nat) (b : Byte) (h : Memory.wf m = true) : memGet (memSet m a b) a = b := by
  have h1 := ((Memory.wf_iff m).1 h).1
  clear h
  fun_induction memSet m a b with
  | case1 => subst_vars; rfl
  | case2 => simp [memGet]
  | case3 j x r h3 =>
    subst_vars
    refine memGet_of_lt _ _ fun p hp => ?_
    rcases List.mem_cons.1 hp with hp | hp
    · subst hp; exact h3
    · exact lt_trans h3 ((List.pairwise_cons.1 h1).1 p hp)
  | case4 => simp [memGet]
  | case5 x r hn =>
    subst_vars
    exact memGet_of_lt _ _ fun p hp => (List.pairwise_cons.1 h1).1 p hp
  | case6 => simp [memGet]
  | case7 j x r h3 h4 ih =>
    simp only [memGet]
    rw [if_neg (by omega)]
    exact ih (List.pairwise_cons.1 h1).2

/-- A write leaves every other place alone. -/
theorem memGet_memSet_of_ne (m : Memory) {a a' : Nat} (b : Byte) (h : Memory.wf m = true) (hne : a' ≠ a) :
    memGet (memSet m a b) a' = memGet m a' := by
  have h1 := ((Memory.wf_iff m).1 h).1
  clear h
  fun_induction memSet m a b with
  | case1 => rfl
  | case2 => simp [memGet, Ne.symm hne]
  | case3 => rfl
  | case4 => simp [memGet, Ne.symm hne]
  | case5 => simp [memGet, Ne.symm hne]
  | case6 => simp [memGet, Ne.symm hne]
  | case7 j x r h3 h4 ih =>
    simp only [memGet]
    rw [ih (List.pairwise_cons.1 h1).2]

/-- Outside the bytes written, a wide write changes nothing. -/
theorem memGet_memWrite_of_out (n : Nat) : ∀ (m : Memory) (a v x : Nat), Memory.wf m = true → (x < a ∨ a + n ≤ x) →
    memGet (memWrite m a v n) x = memGet m x := by
  induction n with
  | zero => exact fun m a v x h hx => rfl
  | succ n ih =>
    intro m a v x h hx
    rw [memWrite, ih _ _ _ _ (memSet_wf _ _ _ h) (by omega), memGet_memSet_of_ne _ _ h (by omega)]

theorem memGet_memMask_of_out (n : Nat) : ∀ (m : Memory) (a v k x : Nat), Memory.wf m = true → (x < a ∨ a + n ≤ x) →
    memGet (memMask m a v k n) x = memGet m x := by
  induction n with
  | zero => exact fun m a v k x h hx => rfl
  | succ n ih =>
    intro m a v k x h hx
    rw [memMask, ih _ _ _ _ _ (memSet_wf _ _ _ h) (by omega), memGet_memSet_of_ne _ _ h (by omega)]

/-- A wide read after a wide write of the same bytes. -/
theorem memRead_memWrite_self (n : Nat) : ∀ (m : Memory) (a v : Nat), Memory.wf m = true →
    memRead (memWrite m a v n) a n = v % 256 ^ n := by
  induction n with
  | zero => intro m a v _; simp [memRead, Nat.mod_one]
  | succ n ih =>
    intro m a v h
    rw [memWrite, memRead, ih _ _ _ (memSet_wf _ _ _ h),
      memGet_memWrite_of_out _ _ _ _ _ (memSet_wf _ _ _ h) (by omega), memGet_memSet_self _ _ _ h,
      BitVec.toNat_ofNat, show 256 ^ (n + 1) = 256 * 256 ^ n from Nat.pow_succ', Nat.mod_mul]

end Sys2Proof.Machine
end

