-- ==== Sys2Proof/Tests/Slice0.lean ====
section
/-! SUPPORT. The model's own tests: ill-formed terms, words of the reference, single steps with values worked out from the manual, and
for each statement with hypotheses a witness: a small concrete state and operands that meet them. Values come from the manual's examples
and tables, or by hand from its rules. -/

namespace Sys2Proof

set_option maxRecDepth 65536

/-! ### Terms that stand for no word (R60 to R75) -/

theorem test_loop_register_with_immediate : Instr.wellFormed (.loop 5 0 true 12 3) = false := by decide
theorem test_loop_count_with_register : Instr.wellFormed (.loop 5 0 false 12 3) = false := by decide
theorem test_lea_packet_format : Instr.wellFormed (.lea 5 0 1 .ni8 0) = false := by decide
theorem test_ld_packet_format : Instr.wellFormed (.ld 5 0 1 .f16w 0) = false := by decide
theorem test_ldAcq_packet_format : Instr.wellFormed (.ldAcq 5 0 1 .s8w 0) = false := by decide
theorem test_st_packet_format : Instr.wellFormed (.st 5 0 1 .bf16w 0) = false := by decide
theorem test_stRel_packet_format : Instr.wellFormed (.stRel 5 0 1 .ni16 0) = false := by decide
theorem test_ldx_run_past_e15 : Instr.wellFormed (.ldx 12 4 0 1 0) = false := by decide
theorem test_amo_core_scope : Instr.wellFormed (.amo .add false .core 4 0 5 6) = false := by decide
theorem test_amov_and_float : Instr.wellFormed (.amov .and .f32 4 0 5) = false := by decide
theorem test_vadd_integer_rounding : Instr.wellFormed (.vadd 2 .s32 1 2 3) = false := by decide
theorem test_vsub_integer_rounding : Instr.wellFormed (.vsub 3 .z8 1 2 3) = false := by decide
theorem test_vmul_integer_rounding : Instr.wellFormed (.vmul 2 .s16 1 2 3) = false := by decide
theorem test_vredSum_integer_rounding : Instr.wellFormed (.vredSum 2 .s32 1 2) = false := by decide
theorem test_vabs_float_mode : Instr.wellFormed (.vabs 1 .f32 1 2) = false := by decide
theorem test_vabs_unsigned : Instr.wellFormed (.vabs 0 .z32 1 2) = false := by decide
theorem test_vneg_unsigned : Instr.wellFormed (.vneg 0 .z8 1 2) = false := by decide
theorem test_vrcp_integer : Instr.wellFormed (.vrcp 0 .s32 1 2) = false := by decide
theorem test_vrsq_integer : Instr.wellFormed (.vrsq 0 .s16 1 2) = false := by decide
theorem test_vexp2_integer : Instr.wellFormed (.vexp2 0 .z32 1 2) = false := by decide
theorem test_vlog2_integer : Instr.wellFormed (.vlog2 0 .s8 1 2) = false := by decide
theorem test_vsin_integer : Instr.wellFormed (.vsin 0 .s32 1 2) = false := by decide
theorem test_vcos_integer : Instr.wellFormed (.vcos 0 .s32 1 2) = false := by decide
theorem test_vshl_float : Instr.wellFormed (.vshl .f32 1 2 3) = false := by decide
theorem test_vshr_float : Instr.wellFormed (.vshr .bf16 1 2 3) = false := by decide
theorem test_vsra_float : Instr.wellFormed (.vsra .f16 1 2 3) = false := by decide
theorem test_vfma_integer : Instr.wellFormed (.vfma .fma .s32 1 2 3 4) = false := by decide
theorem test_vcmp_unordered_integer : Instr.wellFormed (.vcmp .unord .s32 1 2 3) = false := by decide
theorem test_vcvt_same_type : Instr.wellFormed (.vcvt 0 false false .f32 .f32 1 2 0) = false := by decide
theorem test_vcvt_scale_register_unused : Instr.wellFormed (.vcvt 0 false false .f32 .s32 1 2 3) = false := by decide
theorem test_vcvt_zero_when_widening : Instr.wellFormed (.vcvt 0 true false .f32 .bf16 1 2 0) = false := by decide
theorem test_sbind_run_past_e15 : Instr.wellFormed (.sbind 0 12) = false := by decide
theorem test_mfmt_run_past_e15 : Instr.wellFormed (.mfmt 5 15) = false := by decide
theorem test_mma_run_past_e15 : Instr.wellFormed (.mma 7 5 15) = false := by decide
theorem test_tset_run_past_e15 : Instr.wellFormed (.tset 1 2 0 15) = false := by decide
theorem test_mapf_run_past_e15 : Instr.wellFormed (.mapf 5 6 15) = false := by decide
theorem test_ease_run_past_e15 : Instr.wellFormed (.ease 5 6 7 15) = false := by decide
theorem test_segw_run_past_e15 : Instr.wellFormed (.segw 1 14) = false := by decide
theorem test_segr_run_past_e15 : Instr.wellFormed (.segr 14 1) = false := by decide
theorem test_charter_run_past_e15 : Instr.wellFormed (.charter 5 6 13) = false := by decide
theorem test_survey_run_past_e15 : Instr.wellFormed (.survey 5 6 13) = false := by decide
theorem test_amsg_run_past_e15 : Instr.wellFormed (.amsg 5 6 7 13) = false := by decide
theorem test_amsgR_run_past_e15 : Instr.wellFormed (.amsgR 5 6 7 13) = false := by decide
theorem test_spawn_run_past_e15 : Instr.wellFormed (.spawn 5 11) = false := by decide
theorem test_copy_run_past_e15 : Instr.wellFormed (.copy 3) = false := by decide

/-! ### Words of the reference: every encoded row once, from the examples of files 20 to 22 -/

theorem test_decode_1 :
    decodeTableWord 32 0x040062E5 = some (.accept 5 6) ∧
    decodeTableWord 32 0x000A4183 = some (.add 3 4 5) ∧
    decodeTableWord 32 0xFFFE5285 = some (.addi 5 5 32767) ∧
    decodeTableWord 16 0x1C64 = some (.addShort 3 7) ∧
    decodeTableWord 16 0xFD10 = some (.addiShort 8 63) ∧
    decodeTableWord 32 0x00960631 = some (.amo .add false .die 12 2 0 11) ∧
    decodeTableWord 32 0x728C5231 = some (.amo .cas true .pkg 4 2 5 6) ∧
    decodeTableWord 32 0x14CC5231 = some (.amo .fadd false .die 4 3 5 6) ∧
    decodeTableWord 32 0x00045133 = some (.amov .add .f32 2 2 5) ∧
    decodeTableWord 32 0x0400506B = some (.amret 5) ∧
    decodeTableWord 32 0x000E62EB = some (.amsg 5 6 7 0) ∧
    decodeTableWord 32 0x400E62EB = some (.amsgR 5 6 7 0) := by decide

theorem test_decode_2 :
    decodeTableWord 32 0x024A4183 = some (.and 3 4 5) ∧
    decodeTableWord 32 0x000E8407 = some (.andi 8 8 7) ∧
    decodeTableWord 16 0x1068 = some (.andShort 3 4) ∧
    decodeTableWord 32 0x240002E5 = some (.answer 5) ∧
    decodeTableWord 32 0x04000063 = some (.bar 0) ∧
    decodeTableWord 32 0x08040063 = some (.barArrive 2) ∧
    decodeTableWord 32 0x0C020063 = some (.barWait 1) ∧
    decodeTableWord 32 0x064E6283 = some (.bfi 5 6 7) ∧
    decodeTableWord 32 0x060F1483 = some (.bfx 9 17 7) ∧
    decodeTableWord 32 0xFFA44193 = some (.br .lt 3 4 4090) ∧
    decodeTableWord 16 0x695A = some (.bnezShort 10 26) ∧
    decodeTableWord 32 0x1C0062E5 = some (.charter 5 6 0) := by decide

theorem test_decode_3 :
    decodeTableWord 32 0x04C04183 = some (.clz 3 4) ∧
    decodeTableWord 32 0x258A4183 = some (.cmp .lt 3 4 5) ∧
    decodeTableWord 32 0x0000005B = some (.copy 0) ∧
    decodeTableWord 32 0x05004183 = some (.ctz 3 4) ∧
    decodeTableWord 32 0x080062E5 = some (.decline 5 6) ∧
    decodeTableWord 32 0x01528383 = some (.div 7 8 9) ∧
    decodeTableWord 32 0x01928383 = some (.divu 7 8 9) ∧
    decodeTableWord 32 0x308E62E5 = some (.ease 5 6 7 2) ∧
    decodeTableWord 32 0x280062E5 = some (.escheat 5 6) ∧
    decodeTableWord 32 0x000E62E5 = some (.give 5 6 7) ∧
    decodeTableWord 32 0x400620E5 = some (.giveWipe 1 2 3) ∧
    decodeTableWord 32 0x00064717 = some (.jal 14 100) := by decide

theorem test_decode_4 :
    decodeTableWord 32 0x00005719 = some (.jr 14 5) ∧
    decodeTableWord 16 0x381C = some (.jrShort 14) ∧
    decodeTableWord 16 0x95DC = some (.jalShort 14 5) ∧
    decodeTableWord 32 0x100C12E9 = some (.kread 5 1 6) ∧
    decodeTableWord 32 0x0C001069 = some (.kret 1) ∧
    decodeTableWord 32 0x4C001069 = some (.kretSkip 1) ∧
    decodeTableWord 32 0x8C0C1069 = some (.kretPc 1 6) ∧
    decodeTableWord 32 0x140C1069 = some (.kwrite 0 1 6) ∧
    decodeTableWord 32 0x004063A1 = some (.ld 7 0 6 .s32 0) ∧
    decodeTableWord 32 0x001093A1 = some (.ld 7 0 9 .z8 0) ∧
    decodeTableWord 16 0x18F6 = some (.ldShort 7 6) ∧
    decodeTableWord 32 0x106012A3 = some (.ldAcq 5 0 1 .s64 16) := by decide

theorem test_decode_5 :
    decodeTableWord 32 0x02923129 = some (.ldv 2 1 3 .f32 2) ∧
    decodeTableWord 32 0x0240142D = some (.ldx 8 4 0 1 2) ∧
    decodeTableWord 32 0x00A0102D = some (.ldx 0 10 0 1 0) ∧
    decodeTableWord 32 0x03426291 = some (.lea 5 1 6 .s32 3) ∧
    decodeTableWord 32 0x100E62E5 = some (.lend 5 6 7 0) ∧
    decodeTableWord 32 0x0000448F = some (.lih 9 4) ∧
    decodeTableWord 32 0x0006029B = some (.loop 5 0 false 12 0) ∧
    decodeTableWord 32 0x0802C01B = some (.loop 0 0 true 5 8) ∧
    decodeTableWord 32 0x000062E7 = some (.mapf 5 6 0) ∧
    decodeTableWord 32 0x040A4183 = some (.max 3 4 5) ∧
    decodeTableWord 32 0x048A4183 = some (.maxu 3 4 5) ∧
    decodeTableWord 32 0x038A8057 = some (.mdrain 8 5 14) := by decide

theorem test_decode_6 :
    decodeTableWord 32 0x40CA8057 = some (.mdrainClr 8 5 3) ∧
    decodeTableWord 32 0x00005051 = some (.mfmt 5 0) ∧
    decodeTableWord 32 0x03CA4183 = some (.min 3 4 5) ∧
    decodeTableWord 32 0x044A4183 = some (.minu 3 4 5) ∧
    decodeTableWord 32 0x004A6053 = some (.mloadb 6 5 1) ∧
    decodeTableWord 32 0x008A7055 = some (.mma 7 5 2) ∧
    decodeTableWord 16 0x1622 = some (.movShort 17 5) ∧
    decodeTableWord 32 0x02805883 = some (.or 17 5 0) ∧
    decodeTableWord 16 0x0DEE = some (.moviShort 15 3) ∧
    decodeTableWord 32 0x00865303 = some (.mul 6 5 3) ∧
    decodeTableWord 32 0x00C65303 = some (.mulh 6 5 3) ∧
    decodeTableWord 32 0x01065303 = some (.mulhu 6 5 3) := by decide

theorem test_decode_7 :
    decodeTableWord 32 0x200062E5 = some (.muster 5 6 0) ∧
    decodeTableWord 32 0x0200702F = some (.mvx 8 7) ∧
    decodeTableWord 32 0x040007AF = some (.mxv 15 0) ∧
    decodeTableWord 32 0x000A0059 = some (.mzero 5) ∧
    decodeTableWord 32 0x200C5069 = some (.notify 5 6) ∧
    decodeTableWord 16 0x390A = some (.orShort 8 14) ∧
    decodeTableWord 32 0x02406309 = some (.ori 6 6 288) ∧
    decodeTableWord 32 0x104062B7 = some (.pin 5 1 6) ∧
    decodeTableWord 32 0x10806037 = some (.unpin 1 6) ∧
    decodeTableWord 32 0x05404183 = some (.popc 3 4) ∧
    decodeTableWord 32 0x00006037 = some (.pref 0 6) ∧
    decodeTableWord 32 0x040008CD = some (.qbind false 17) := by decide

theorem test_decode_8 :
    decodeTableWord 32 0x4400094D = some (.qbind true 18) ∧
    decodeTableWord 32 0x00080469 = some (.rds 8 4) ∧
    decodeTableWord 32 0x180062E5 = some (.reclaim 5 6) ∧
    decodeTableWord 32 0x580062E5 = some (.reclaimWait 5 6) ∧
    decodeTableWord 32 0x01D28383 = some (.rem 7 8 9) ∧
    decodeTableWord 32 0x02128383 = some (.remu 7 8 9) ∧
    decodeTableWord 32 0x140062E5 = some (.cadReturn 5 6) ∧
    decodeTableWord 32 0x0200004D = some (.sbind 0 8) ∧
    decodeTableWord 32 0x0D0000E7 = some (.segw 1 4) ∧
    decodeTableWord 32 0x10007067 = some (.segr 0 7) ∧
    decodeTableWord 32 0x05CA4183 = some (.sel 3 4 5) ∧
    decodeTableWord 32 0x030A4183 = some (.shl 3 4 5) := by decide

theorem test_decode_9 :
    decodeTableWord 32 0x034A4183 = some (.shr 3 4 5) ∧
    decodeTableWord 32 0x038A4183 = some (.sra 3 4 5) ∧
    decodeTableWord 32 0x000C128D = some (.shli 5 1 6) ∧
    decodeTableWord 32 0x008C528D = some (.shri 5 5 6) ∧
    decodeTableWord 32 0x017E418D = some (.srai 3 4 63) ∧
    decodeTableWord 16 0xC1D2 = some (.shliShort 14 48) ∧
    decodeTableWord 16 0x18B4 = some (.shriShort 5 6) ∧
    decodeTableWord 32 0x000007E1 = some (.spawn 15 0) ∧
    decodeTableWord 32 0x05623225 = some (.st 4 1 3 .s64 5) ∧
    decodeTableWord 32 0x0052E425 = some (.st 8 1 14 .z32 0) ∧
    decodeTableWord 32 0x206012A7 = some (.stRel 5 0 1 .s64 32) ∧
    decodeTableWord 16 0x9856 = some (.stShort 2 6) := by decide

theorem test_decode_10 :
    decodeTableWord 32 0x00C2922B = some (.stv 4 1 9 .ni8 0) ∧
    decodeTableWord 32 0x004A4183 = some (.sub 3 4 5) ∧
    decodeTableWord 16 0x1C66 = some (.subShort 3 7) ∧
    decodeTableWord 32 0x2C0062E5 = some (.survey 5 6 0) ∧
    decodeTableWord 32 0x180000E9 = some (.sysc 1 0) ∧
    decodeTableWord 32 0x08540069 = some (.trap 42) ∧
    decodeTableWord 32 0x0400B55D = some (.tset 10 11 0 0) ∧
    decodeTableWord 32 0x0418B55D = some (.tset 10 11 12 0) ∧
    decodeTableWord 32 0x0000655D = some (.tstat 10 6) ∧
    decodeTableWord 32 0x1C0C5069 = some (.uint 5 6) ∧
    decodeTableWord 32 0x4800004D = some (.unbind true 0) ∧
    decodeTableWord 32 0x080008CD = some (.unbind false 17) := by decide

theorem test_decode_11 :
    decodeTableWord 32 0x040062E7 = some (.unmap 5 6) ∧
    decodeTableWord 32 0x014020C1 = some (.vabs 0 .f32 1 2) ∧
    decodeTableWord 32 0x618020C1 = some (.vneg 1 .s16 1 2) ∧
    decodeTableWord 32 0x000620C1 = some (.vadd 0 .f32 1 2 3) ∧
    decodeTableWord 32 0x880620C1 = some (.vadd 2 .bf16 1 2 3) ∧
    decodeTableWord 32 0x680620C1 = some (.vadd 1 .s8 1 2 3) ∧
    decodeTableWord 32 0x004620C1 = some (.vsub 0 .f32 1 2 3) ∧
    decodeTableWord 32 0x00861241 = some (.vmul 0 .f32 4 1 3) ∧
    decodeTableWord 32 0x334620C1 = some (.vand .z32 1 2 3) ∧
    decodeTableWord 32 0x338620C1 = some (.vor .z32 1 2 3) ∧
    decodeTableWord 32 0x33C620C1 = some (.vxor .z32 1 2 3) ∧
    decodeTableWord 32 0x04C620C1 = some (.vbcast .f32 1 2 3) := by decide

theorem test_decode_12 :
    decodeTableWord 32 0x008620C7 = some (.vcmp .lt .f32 1 2 3) ∧
    decodeTableWord 32 0x5A0C024B = some (.vcvt 1 false true .s8 .f32 4 0 6) ∧
    decodeTableWord 32 0x120C114B = some (.vcvt 0 false true .bf16 .f32 2 1 6) ∧
    decodeTableWord 32 0x00C020CB = some (.vcvt 0 false false .f32 .s32 1 2 0) ∧
    decodeTableWord 32 0x004041CB = some (.vcvt 0 false false .f32 .bf16 3 4 0) ∧
    decodeTableWord 32 0x024020C1 = some (.vexp2 0 .f32 1 2) ∧
    decodeTableWord 32 0x028020C1 = some (.vlog2 0 .f32 1 2) ∧
    decodeTableWord 32 0x01C051C1 = some (.vrcp 0 .f32 3 5) ∧
    decodeTableWord 32 0x020020C1 = some (.vrsq 0 .f32 1 2) ∧
    decodeTableWord 32 0x02C020C1 = some (.vsin 0 .f32 1 2) ∧
    decodeTableWord 32 0x030020C1 = some (.vcos 0 .f32 1 2) ∧
    decodeTableWord 32 0x000C22C9 = some (.vext 5 2 6) := by decide

theorem test_decode_13 :
    decodeTableWord 32 0x040C5149 = some (.vins 2 5 6) ∧
    decodeTableWord 32 0x012620C3 = some (.vfma .fma .f32 1 2 19 4) ∧
    decodeTableWord 32 0xC90620C3 = some (.vfma .nfms .bf16 1 2 3 4) ∧
    decodeTableWord 32 0x010620C1 = some (.vmax .f32 1 2 3) ∧
    decodeTableWord 32 0x18C620C1 = some (.vmin .s32 1 2 3) ∧
    decodeTableWord 32 0x2D0620C1 = some (.vperm .s8 1 2 3) ∧
    decodeTableWord 32 0x054020C1 = some (.vredSum 0 .f32 1 2) ∧
    decodeTableWord 32 0x1D8020C1 = some (.vredMax .s32 1 2) ∧
    decodeTableWord 32 0x190620C5 = some (.vsel .s32 1 2 3 4) ∧
    decodeTableWord 32 0x1C0620C1 = some (.vshl .s32 1 2 3) ∧
    decodeTableWord 32 0x344620C1 = some (.vshr .z32 1 2 3) ∧
    decodeTableWord 32 0x1C8620C1 = some (.vsra .s32 1 2 3) := by decide

theorem test_decode_14 :
    decodeTableWord 32 0x08006067 = some (.wake 6) ∧
    decodeTableWord 32 0x48006067 = some (.wakeFail 6) ∧
    decodeTableWord 32 0x0C0062E5 = some (.withdraw 5 6) ∧
    decodeTableWord 32 0x041AF069 = some (.wrs 13 15) ∧
    decodeTableWord 32 0x02CA4183 = some (.xor 3 4 5) ∧
    decodeTableWord 32 0x0002528B = some (.xori 5 5 1) ∧
    decodeTableWord 16 0x1C6C = some (.xorShort 3 7) ∧
    decodeTableWord 32 0x2C000069 = some .lexit ∧
    decodeTableWord 16 0x009E = some .lexitShort ∧
    decodeTableWord 32 0x30000069 = some .nop ∧
    decodeTableWord 16 0x001E = some .nopShort ∧
    decodeTableWord 32 0x1DC020C1 = some (.vredMin .s32 1 2) := by decide

theorem test_decode_15 :
    decodeTableWord 16 0x6958 = some (.beqzShort 10 26) ∧
    decodeTableWord 32 0x02C00035 = some (.fence .rel .sys) ∧
    decodeTableWord 32 0x00000063 = some .tdone ∧
    decodeTableWord 16 0x007E = some .tdoneShort ∧
    decodeTableWord 32 0x28000069 = some .exit ∧
    decodeTableWord 16 0x005E = some .exitShort ∧
    decodeTableWord 32 0x24000069 = some .yield ∧
    decodeTableWord 16 0x003E = some .yieldShort := by decide

/-- Reserved words: a halfword 0, a long word of a reserved major, fmt 15 of LD, a run of e registers past e15 (R54, R58, R59, R64). -/
theorem test_decode_none :
    decodeTableWord 16 0 = none ∧ decodeTableWord 32 0x15 = none ∧ decodeTableWord 32 0x00F063A1 = none ∧
    decodeTableWord 32 0x0380005B = none := by decide

namespace Machine

/-! ### How a claim about a state is evaluated -/

/-- A computation ends with a in t. -/
def ends [DecidableEq α] (m : Exec α) (s : State) (a : α) (t : State) : Bool :=
  match m.run s with
  | (.ok b, u) => decide (b = a) && decide (u = t)
  | _ => false

theorem ends_of [DecidableEq α] {m : Exec α} {s t : State} {a : α} (h : ends m s a t = true) : Ends m s a t := by
  unfold ends at h; unfold Ends
  split at h
  · next b u e => simp only [Bool.and_eq_true, decide_eq_true_eq] at h; rw [e, h.1, h.2]
  · exact absurd h (by decide)

/-- An outcome is a given next state. -/
def isNext (o : Host.Outcome State Fault Refusal) (t : State) : Bool :=
  match o with
  | .next u => decide (u = t)
  | _ => false

theorem next_of {o : Host.Outcome State Fault Refusal} {t : State} (h : isNext o t = true) : o = .next t := by
  unfold isNext at h
  split at h
  · rw [of_decide_eq_true h]
  · exact absurd h (by decide)

/-- Something of the next state. -/
def after (f : State → α) (o : Host.Outcome State Fault Refusal) : Option α :=
  match o with
  | .next t => some (f t)
  | _ => none

/-- Why a computation waits, and what it leaves pending, if it waits. -/
def waitOf (m : Exec α) (s : State) : Option (Reason × Pending) :=
  match m.run s with
  | (.error (.wait w p), _) => some (w.reason, p)
  | _ => none

/-- The code of the trap of a computation, if it traps. -/
def trapOf (m : Exec α) (s : State) : Option TrapCode :=
  match m.run s with
  | (.error (.trap t), _) => some t.code
  | _ => none

/-! ### Small states -/

/-- A work thread of core 0 slot 0 issues, its task at the frontier, with values in some of its g registers. -/
def wG (gs : List (Nat × Word)) : State :=
  let s := placeWord State.reset 0
  let x := slotOf s 0 0
  setSlot { s with cur := {}, agenda := [] } 0 0 { x with g := gs.foldl (fun v p => v.setIfInBounds p.1 p.2) x.g }

/-- The thread changed. -/
def State.thread (s : State) (f : Slot → Slot) : State := setSlot s 0 0 (f (slotOf s 0 0))

/-- Its core changed. -/
def State.core0 (s : State) (f : Core → Core) : State := setCore s 0 (f (coreOf s 0))

/-- Values in e registers. -/
def State.es (s : State) (vs : List (Nat × Word)) : State :=
  s.thread (fun x => { x with e := vs.foldl (fun v p => v.setIfInBounds p.1 p.2) x.e })

/-- A value in a v register. -/
def State.vr (s : State) (n : Nat) (p : Packet) : State := s.thread (fun x => { x with v := x.v.setIfInBounds n p })

/-- A segment register. -/
def State.seg (s : State) (n : Nat) (g : Seg) : State := s.thread (fun x => { x with sg := x.sg.setIfInBounds n g })

/-- A g register of the thread after a step. -/
def gAfter (n : Nat) (o : Host.Outcome State Fault Refusal) : Option Word := (after (fun t => (slotOf t 0 0).g[n]?) o).join

/-- The pending effects of core 0 reach their writeback points. -/
def landed (s : State) : State := applyWbs 0 (fun _ => true) s

/-- Sixteen cycles pass, and what comes due in core 0 with them. -/
def past (s : State) : State := clearPushed 0 (flushThreads 0 (flushWb 0 (advance0 16 s)))

/-- The code, the AUX and the ADDR of the record that an instruction's trap puts, at its writeback point, into the keeper queue or leaves
for Jasper, if it takes one. -/
def trapAfter (o : Host.Outcome State Fault Refusal) : Option (Nat × Word × Word) :=
  (after (fun t => let c := coreOf (landed t) 0; ((c.keeperQueue ++ c.toJasper).head?).map (fun r => (r.2.code, r.2.aux, r.2.addr))) o).join

/-! ### Scalar instructions: values by hand from R91 and the reference -/

theorem test_add_wraps : gAfter 3 (exec (.add 3 4 5) (wG [(4, BitVec.allOnes 64), (5, 2)])) = some 1 := by decide
theorem test_addi_sign : gAfter 3 (exec (.addi 3 4 0x7FFF) (wG [(4, 5)])) = some 4 := by decide
theorem test_add_g0_discards : gAfter 0 (exec (.add 0 4 5) (wG [(4, 1), (5, 2)])) = some 0 := by decide
theorem test_sub_borrows : gAfter 3 (exec (.sub 3 4 5) (wG [(4, 1), (5, 2)])) = some (BitVec.allOnes 64) := by decide
theorem test_subShort : gAfter 3 (exec (.subShort 3 7) (wG [(3, 9), (7, 4)])) = some 5 := by decide
theorem test_andi_zero_extends : gAfter 3 (exec (.andi 3 4 0x7FFF) (wG [(4, BitVec.allOnes 64)])) = some 0x7FFF := by decide
theorem test_xori : gAfter 3 (exec (.xori 3 4 1) (wG [(4, 1)])) = some 0 := by decide
theorem test_ori : gAfter 6 (exec (.ori 6 6 0x120) (wG [(6, 1)])) = some 0x121 := by decide
theorem test_mulh : gAfter 3 (exec (.mulh 3 4 5) (wG [(4, BitVec.allOnes 64), (5, 1)])) = some (BitVec.allOnes 64) := by decide
theorem test_mulhu : gAfter 3 (exec (.mulhu 3 4 5) (wG [(4, BitVec.allOnes 64), (5, 2)])) = some 1 := by decide
theorem test_div_truncates : gAfter 3 (exec (.div 3 4 5) (wG [(4, BitVec.ofInt 64 (-7)), (5, 2)])) = some (BitVec.ofInt 64 (-3)) := by decide
theorem test_div_overflow :
    gAfter 3 (exec (.div 3 4 5) (wG [(4, BitVec.intMin 64), (5, BitVec.allOnes 64)])) = some (BitVec.intMin 64) := by decide
theorem test_divu_by_zero : gAfter 3 (exec (.divu 3 4 5) (wG [(4, 7)])) = some (BitVec.allOnes 64) := by decide
theorem test_rem_sign : gAfter 3 (exec (.rem 3 4 5) (wG [(4, BitVec.ofInt 64 (-7)), (5, 2)])) = some (BitVec.ofInt 64 (-1)) := by decide
theorem test_remu_by_zero : gAfter 3 (exec (.remu 3 4 5) (wG [(4, 7)])) = some 7 := by decide
theorem test_max_signed : gAfter 3 (exec (.max 3 4 5) (wG [(4, BitVec.allOnes 64), (5, 1)])) = some 1 := by decide
theorem test_maxu_unsigned : gAfter 3 (exec (.maxu 3 4 5) (wG [(4, BitVec.allOnes 64), (5, 1)])) = some (BitVec.allOnes 64) := by decide
theorem test_shl_modulo_64 : gAfter 3 (exec (.shl 3 4 5) (wG [(4, 1), (5, 65)])) = some 2 := by decide
theorem test_sra_copies_sign : gAfter 3 (exec (.sra 3 4 5) (wG [(4, BitVec.intMin 64), (5, 63)])) = some (BitVec.allOnes 64) := by decide
theorem test_srai : gAfter 3 (exec (.srai 3 4 63) (wG [(4, BitVec.intMin 64)])) = some (BitVec.allOnes 64) := by decide
theorem test_lih : gAfter 11 (exec (.lih 11 0x7D34) (wG [])) = some 0x3E9A0000 := by decide
theorem test_lih_negative : gAfter 3 (exec (.lih 3 0xFFFFF) (wG [])) = some (BitVec.ofInt 64 (-32768)) := by decide
/-- The example of R287. -/
theorem test_clz : gAfter 3 (exec (.clz 3 4) (wG [(4, 0x10000)])) = some 47 := by decide
theorem test_ctz_zero : gAfter 3 (exec (.ctz 3 4) (wG [])) = some 64 := by decide
theorem test_popc : gAfter 3 (exec (.popc 3 4) (wG [(4, 0xF0F)])) = some 8 := by decide
theorem test_cmp_lt_signed : gAfter 3 (exec (.cmp .lt 3 4 5) (wG [(4, BitVec.allOnes 64), (5, 0)])) = some 1 := by decide
theorem test_cmp_ltu : gAfter 3 (exec (.cmp .ltu 3 4 5) (wG [(4, BitVec.allOnes 64), (5, 0)])) = some 0 := by decide
theorem test_sel : gAfter 3 (exec (.sel 3 4 5) (wG [(3, 0), (4, 1), (5, 2)])) = some 2 := by decide
theorem test_bfx : gAfter 3 (exec (.bfx 3 4 5) (wG [(4, 0xABCD), (5, 0x804)])) = some 0xBC := by decide
theorem test_bfx_len_zero_cut : gAfter 3 (exec (.bfx 3 4 5) (wG [(4, 0xABCD0), (5, 0x0010)])) = some 0xA := by decide
theorem test_bfi : gAfter 3 (exec (.bfi 3 4 5) (wG [(3, 0xFFFF), (4, 0x12), (5, 0x804)])) = some 0xF12F := by decide
theorem test_moviShort : gAfter 3 (exec (.moviShort 3 63) (wG [])) = some (BitVec.allOnes 64) := by decide
theorem test_mvx : after (fun t => (slotOf t 0 0).e[8]?) (exec (.mvx 8 7) (wG [(7, 9)])) = some (some 9) := by decide
theorem test_mxv : gAfter 15 (exec (.mxv 15 2) ((wG []).es [(2, 77)])) = some 77 := by decide

/-! Witnesses of the scalar statements: the operands can be taken; each form of operand fields once. -/

theorem witness_takes_two : Takes [4, 5] (some 3) (wG [(4, 5), (5, 7)]) (wG [(4, 5), (5, 7)]) := ends_of (by decide)
theorem witness_takes_three : Takes [3, 4, 5] (some 3) (wG [(4, 5), (5, 7)]) (wG [(4, 5), (5, 7)]) := ends_of (by decide)
theorem witness_takes_one : Takes [4] (some 3) (wG [(4, 5)]) (wG [(4, 5)]) := ends_of (by decide)
theorem witness_takes_same : Takes [3, 4] (some 3) (wG [(4, 5)]) (wG [(4, 5)]) := ends_of (by decide)
theorem witness_takes_dest : Takes [3] (some 3) (wG [(3, 5)]) (wG [(3, 5)]) := ends_of (by decide)
theorem witness_takes_none : Takes [] (some 3) (wG []) (wG []) := ends_of (by decide)
theorem witness_takes_source : Takes [4] none (wG [(4, 5)]) (wG [(4, 5)]) := ends_of (by decide)
theorem witness_scalar_completes :
    exec (.add 3 4 5) (wG [(4, 5), (5, 7)]) = .next (writesG 1 3 12 (wG [(4, 5), (5, 7)])) := next_of (by decide)
theorem witness_division_completes :
    exec (.rem 3 4 5) (wG [(4, 5), (5, 3)]) = .next (writesG 4 3 2 (wG [(4, 5), (5, 3)])) := next_of (by decide)

/-- A core whose c1 is bound to a queue with one entry, filled or not. -/
def queued (v : Option Nat) : State := (wG []).core0 (fun c => { c with queues := [{ wide := false, reg := 1, entries := [⟨0, v⟩], ticket := 1 }] })

theorem witness_queue_pops_once :
    findQueue (curCore (queued (some 9))) false 1 = some { wide := false, reg := 1, entries := [⟨0, some 9⟩], ticket := 1 } ∧
    gAfter 3 (exec (.add 3 17 17) (queued (some 9))) = some 18 ∧
    after (fun t => (coreOf t 0).queues.map (·.entries)) (exec (.add 3 17 17) (queued (some 9))) = some [[]] := by decide
theorem witness_queue_waits :
    after (fun t => ((slotOf t 0 0).wait.reason, (slotOf t 0 0).wait.peer)) (exec (.add 3 17 17) (queued none)) = some (.qempty, 17) ∧
    after (fun t => (coreOf t 0).queues) (exec (.add 3 17 17) (queued none)) = some (coreOf (queued none) 0).queues := by decide
theorem witness_register_write :
    (wG []).cur.pops = [] ∧ after (fun t => ((coreOf t 0).wb, (slotOf t 0 0).pc, (slotOf t 0 0).readyAt)) (exec (.add 17 4 5) (wG [(4, 1)])) =
      some ([⟨7, 0, .c 1 1, none⟩], 4, 8) := by decide
theorem witness_queue_push :
    after (fun t => ((coreOf t 0).queues.map (·.entries), (coreOf t 0).wb)) (exec (.add 17 4 5) ((wG [(4, 1)]).core0 (fun c =>
      { c with queues := [{ wide := false, reg := 1 }] }))) = some ([[⟨0, none⟩]], [⟨7, 0, .fill false 1 0 1, none⟩]) := by decide
/-- Two writebacks of one cycle, in both orders (R37). -/
theorem witness_same_cycle_writebacks :
    (let s := (wG []).core0 (fun c => { c with wb := [⟨7, 3, .c 1 5, none⟩, ⟨7, 9, .c 1 6, none⟩] })
     let t := { s with islands := [(0, { ticks := 8 })] }
     7 < ticksOf t 0 ∧ (coreOf (flushWb 0 t) 0).c[1]? = some 6) ∧
    (let s := (wG []).core0 (fun c => { c with wb := [⟨7, 9, .c 1 6, none⟩, ⟨7, 3, .c 1 5, none⟩] })
     let t := { s with islands := [(0, { ticks := 8 })] }
     (coreOf (flushWb 0 t) 0).c[1]? = some 6) := by decide
/-- g5 is poisoned: an instruction that reads it traps, and one that writes it does not. -/
theorem witness_poisoned_register :
    let s := (wG [(4, 1)]).thread (fun x => { x with poison := [(false, 5)] })
    findQueue (curCore s) false 1 = none ∧ isPoisoned s false 5 = true ∧ isPoisoned s false 4 = false ∧
    trapOf (useG [5] none) s = some .memPoison ∧
    after (fun t => ((slotOf t 0 0).g[5]?, (slotOf t 0 0).poison)) (exec (.add 5 4 4) s) = some (some 2, []) := by decide
theorem witness_unary_field :
    (1 : BitVec 5) ≠ 0 ∧ decodeTableWord 32 (encodeNat (.clz 3 4) + 1 * 2 ^ 17) = none ∧
    decodeTableWord 32 (encodeNat (.popc 3 4) + 31 * 2 ^ 17) = none := by decide
/-! ### Steps, issue, traps and waits -/

/-- The reset state with ADD g3, g4, g5 (0x000A4183) placed: the very next step fetches and runs it. -/
theorem test_step_runs_placed_word :
    after (fun t => ((slotOf t 0 0).pc, (slotOf t 0 0).g[3]?, t.agenda)) (step (State.reset.withFetchWord 32 0x000A4183)) =
      some (4, some 0, []) := by decide
theorem test_step_runs_placed_short_word :
    after (fun t => (slotOf t 0 0).pc) (step (State.reset.withFetchWord 16 0x1C64)) = some 2 := by decide
/-- Core 0 with threads in some slots. -/
def live (ks : List Nat) : State := (wG []).core0 (fun c => { c with slots := ks.map (fun k => (k, placedThread)) })

/-- The state in which the agenda's first move is made. -/
def moved (s : State) : State := settle { s with agenda := s.agenda.tail }

theorem witness_step_runs_decoded :
    let s := State.reset.withFetchWord 32 0x000A4183
    powerless s = false ∧ s.agenda = [⟨0, .issue 0 false⟩] ∧ forced (moved s) = none ∧ coreRuns (moved s) 0 = true ∧
      pick (moved s) 0 = some 0 ∧ deliverable (moved s) 0 0 = false := by decide
theorem witness_step_fetches_long :
    let s1 := issueFrom (moved (State.reset.withFetchWord 32 0x000A4183)) 0 0 false
    let s2 := ((fetchHalf (slotOf s1 0 0).pc).run (setWord 0 false s1)).2
    ((fetchHalf (slotOf s1 0 0).pc).run (setWord 0 false s1)).1.toOption = some 0x4183 ∧
    ((fetchHalf ((slotOf s1 0 0).pc + 2)).run (setWord 0x4183 true s2)).1.toOption = some 0x000A := by decide
theorem witness_step_decodes :
    (match decode (leBytes 2 0x4183 ++ leBytes 2 0x000A) with
      | .ok (i, n) => decide (i = .add 3 4 5 ∧ n = 4)
      | .error _ => false) = true ∧
    (match decode (leBytes 2 0x1C64) with
      | .ok (i, n) => decide (i = .addShort 3 7 ∧ n = 2)
      | .error _ => false) = true := by decide
theorem witness_step_fetches_short :
    let s1 := issueFrom (moved (State.reset.withFetchWord 16 0x1C64)) 0 0 false
    ((fetchHalf (slotOf s1 0 0).pc).run (setWord 0 false s1)).1.toOption = some 0x1C64 := by decide
theorem witness_step_event :
    let s := { State.reset with agenda := [⟨0, .event (.sramError .single)⟩] }
    powerless s = false ∧ forced (moved s) = none ∧ isEvent (.sramError .single) = true ∧
      after (fun t => (t.sramErrors, t.agenda)) (step s) = some (1, []) := by decide
theorem witness_step_time_passes :
    let s := { State.reset with agenda := [⟨3, .event (.sramError .single)⟩] }
    forced (moved s) = none ∧ readyCores (moved s) = [] ∧
      after (fun t => (t.cycle, t.sramErrors, t.agenda)) (step s) = some (1, 0, [⟨2, .event (.sramError .single)⟩]) := by decide
theorem witness_step_issues_first :
    let s := { live [0] with agenda := [⟨1, .idle⟩] }
    forced (moved s) = none ∧ readyCores (moved s) = [0] := by decide
theorem witness_power_fault :
    powerless { State.reset with boot := .off } = true ∧ after id (step { State.reset with boot := .off }) = none := by decide

theorem witness_issue_keeper_first : ready (live [0, 14, 15]) 0 15 = true ∧ budget (live [0, 14, 15]) 0 = true ∧
    pick (live [0, 14, 15]) 0 = some 15 := by decide
theorem witness_issue_courier : ready (live [0, 14]) 0 15 = false ∧ ready (live [0, 14]) 0 14 = true ∧ pick (live [0, 14]) 0 = some 14 := by decide
theorem witness_issue_round : (coreOf (live [2, 5]) 0).lastWork = 13 ∧ pick (live [2, 5]) 0 = some 2 ∧
    pick ((live [2, 5]).core0 (fun c => { c with lastWork := 2 })) 0 = some 5 ∧
    pick ((live [2, 5]).core0 (fun c => { c with lastWork := 5 })) 0 = some 2 := by decide
theorem witness_issue_budget : budget ((live [0, 15]).core0 (fun c => { c with service := [0, 0] })) 0 = false ∧
    pick ((live [0, 15]).core0 (fun c => { c with service := [0, 0] })) 0 = some 0 := by decide
theorem witness_issue_none : pick (live []) 0 = none ∧ (issue (live []) 0 false).1 = none := by decide
theorem witness_issue_past_deadline :
    ready ((live [0]).thread (fun x => { x with request := some ⟨0, 0⟩ })) 0 0 = false ∧
    ready ((live [0]).thread (fun x => { x with request := some ⟨1, 0⟩ })) 0 0 = true := by decide

/-- The estate has a keeper at offset 0x40. -/
def kept (s : State) : State := setEstate s 0 { estateOf s 0 with dwords := (List.replicate 32 (0 : Word)).set 12 0x40 }

theorem witness_trap_parks :
    (estateOf (kept (wG [])) 0).keeperEntry = 0x40 ∧ (curSlot (kept (wG []))).pend = .none ∧ (curSlot (kept (wG []))).held = [] ∧
    after (fun t => (((coreOf t 0).keeperQueue.map (fun r => (r.1, r.2.code, r.2.kind))), (slotOf t 0 0).wait.reason,
      (slotOf t 0 15).pc)) (exec (.trap 0x2A) (kept (wG []))) = some ([], .none, 0) ∧
    after (fun t => ((coreOf t 0).wb, (slotOf t 0 0).readyAt)) (exec (.trap 0x2A) (kept (wG []))) =
      some ([⟨7, 0, .park ⟨.trap, 0, 0x2A, 0⟩ true, none⟩], 8) := by decide
theorem witness_trap_lands :
    after (fun t0 => let t := landed t0; (((coreOf t 0).keeperQueue.map (fun r => (r.1, r.2.code, r.2.kind))), (slotOf t 0 0).wait.reason,
      (slotOf t 0 15).pc)) (exec (.trap 0x2A) (kept (wG []))) = some ([(0, 0x10, 1)], .parked, 0x40) := by decide
theorem witness_keeper_starts :
    let s := (kept (wG [])).core0 (fun c => { c with keeperQueue := [(0, { code := 0x10 })] })
    (slotOf s 0 15).live = false ∧ (slotOf s 0 15).streams = [] ∧ (coreOf s 0).keeperHeld = false ∧
    (slotOf (startKeeper s 0) 0 15).g[2]? = some 0x10 := by decide
theorem witness_keeper_faults :
    let s := { (kept (live [15])) with cur := { core := 0, slot := 15 } }
    (curSlot s).pend = .none ∧ (curSlot s).held = [] ∧
    after (fun t0 => let t := landed t0; ((coreOf t 0).toJasper.map (fun r => (r.1, r.2.code, r.2.aux)), (slotOf t 0 15).live)) (exec (.trap 1) s) =
      some ([(15, 0x17, 0x10)], false) := by decide
theorem test_undecodable_word :
    trapAfter (exec .undecodableWord { wG [] with cur := { word := 0x15, long := true } }) = some (1, 0x100000015, 0) := by decide
theorem witness_fetch_traps :
    let s := (wG []).seg 7 { limit := 0, attrs := 0x16 }
    trapAfter (exec .fetchFault s) = some (2, 7, 0) := by decide

/-! ### Control flow -/

theorem test_br_taken : after (fun t => (slotOf t 0 0).pc) (exec (.br .lt 3 4 0xFFA) ((wG [(3, 1), (4, 2)]).thread (fun x => { x with pc := 32 }))) =
    some 20 := by decide
theorem test_beqz_falls : after (fun t => (slotOf t 0 0).pc) (exec (.beqzShort 8 26) { wG [(8, 1)] with cur := { long := false } }) = some 2 := by decide
theorem test_jal_links : gAfter 14 (exec (.jal 14 100) (wG [])) = some 4 ∧
    after (fun t => (slotOf t 0 0).pc) (exec (.jal 14 100) (wG [])) = some 200 := by decide
theorem test_jr_odd_traps : trapAfter (exec (.jr 14 5) (wG [(5, 0x41)])) = some (4, 2, 0) := by decide
theorem test_jrShort : after (fun t => ((slotOf t 0 0).pc, (slotOf t 0 0).g[14]?)) (exec (.jrShort 14) (wG [(14, 0x40)])) = some (0x40, some 0x40) := by decide

/-- Loop 0 and loop 1 with one `last` at 12, and their counters. -/
def looping (a b : Word) : State := (wG []).thread (fun x =>
  { x with pc := 12, lc := (x.lc.set 0 a).set 1 b, loops := [⟨4, 6, true⟩, ⟨8, 4, true⟩] })

theorem test_loop_shared_last_counts_outward :
    after (fun t => ((slotOf t 0 0).pc, (slotOf t 0 0).lc[0]?, (slotOf t 0 0).lc[1]?)) (exec .nop (looping 2 1)) = some (4, some 1, some 0) := by decide
theorem test_loop_inner_repeats :
    after (fun t => ((slotOf t 0 0).pc, (slotOf t 0 0).lc[0]?, (slotOf t 0 0).lc[1]?)) (exec .nop (looping 2 3)) = some (8, some 2, some 2) := by decide
theorem test_lexit_shared_last :
    after (fun t => ((slotOf t 0 0).pc, (slotOf t 0 0).loops.length, (slotOf t 0 0).lc[1]?)) (exec .lexit (looping 2 3)) =
      some (4, 1, some 3) := by decide
theorem test_lexit_without_loop : trapAfter (exec .lexit (wG [])) = some (20, 0, 0) := by decide
theorem witness_loops_count : (curSlot (looping 2 1)).loops = [⟨4, 6, true⟩] ++ [⟨8, 4, true⟩] ∧ (looping 2 1).cur.pops = [] := by decide
theorem witness_goto_ends_loops :
    after (fun t => ((slotOf t 0 0).loops.length, (slotOf t 0 0).lc[0]?)) (exec (.jr 0 5) ((looping 2 1).thread (fun x =>
      { x with g := x.g.set 5 0x100 }))) = some (0, some 2) := by decide

/-- LOOP 0, g5 at offset 0 with a body of two NOPs: `last` at 8. -/
def loopHead (n : Word) : State :=
  (wG [(5, n)]).core0 (fun c => { c with scratch := memWrite (memWrite c.scratch 4 0x30000069 4) 8 0x30000069 4 })

theorem witness_loop_body : ends (readBody (curPc (loopHead 3) + 4) 2 512 0 0) (loopHead 3) (some (2, true))
    ((readBody (curPc (loopHead 3) + 4) 2 512 0 0).run (loopHead 3)).2 = true := by decide +kernel
theorem witness_loop_starts :
    after (fun t => ((slotOf t 0 0).loops, (slotOf t 0 0).lc[0]?, (slotOf t 0 0).pc)) (exec (.loop 5 0 false 4 0) (loopHead 3)) =
      some ([⟨4, 4, true⟩], some 3, 4) := by decide +kernel
theorem witness_loop_count_zero :
    after (fun t => ((slotOf t 0 0).loops, (slotOf t 0 0).lc[0]?, (slotOf t 0 0).pc)) (exec (.loop 5 0 false 4 0) (loopHead 0)) =
      some ([], some 0, 12) := by decide +kernel
theorem witness_loop_traps : trapAfter (exec (.loop 5 3 false 4 0) (loopHead 3)) = some (20, 0, 0) ∧
    trapAfter (exec (.loop 5 1 false 4 0) (loopHead 3)) = some (20, 0, 0) ∧ trapAfter (exec (.loop 5 0 false 1 0) (loopHead 3)) = some (20, 0, 0) := by decide
theorem witness_branch_operands : Takes [3, 4] none (wG [(3, 1)]) (wG [(3, 1)]) ∧ Takes [8, 0] none (wG [(8, 1)]) (wG [(8, 1)]) :=
  ⟨ends_of (by decide), ends_of (by decide)⟩
theorem witness_jump_operands : Takes [5] (some 14) (wG [(5, 0x40)]) (wG [(5, 0x40)]) ∧ (gval (wG [(5, 0x40)]) 5).getLsbD 0 = false ∧
    (gval (wG [(5, 0x41)]) 5).getLsbD 0 = true ∧ Takes [5] (some 0) (wG [(5, 0x41)]) (wG [(5, 0x41)]) :=
  ⟨ends_of (by decide), by decide, by decide, ends_of (by decide)⟩

/-! ### Waits that leave the instruction undone -/

theorem witness_waits_unchanged :
    waitOf (useG [17] (some 3)) (queued none) = some (.qempty, .none) ∧
    waitOf firm (setTask (wG []) 1 { taskOf (wG []) 1 with ts := 5 }) = some (.firm, .none) ∧
    waitOf (awaitRoom 0 0) ((wG []).thread (fun x => { x with
      stores := (List.range 8).map (fun i => { seq := i, cls := .die, die := 0, kind := .plain, writes := [], release := false }) })) = some (.mem, .none) ∧
    waitOf (awaitEntries 0 (·.release)) ((wG []).thread (fun x => { x with
      stores := [{ seq := 0, cls := .die, die := 0, kind := .plain, writes := [], release := true }] })) = some (.mem, .none) ∧
    waitOf (awaitTile 5 1) ((wG []).core0 (fun c => { c with tiles := mapSet c.tiles 5 { state := .filling, size := 64 } })) = some (.tile, .none) ∧
    Pending.reissues .none = true ∧ Pending.reissues (.packet 2 [] 0) = true ∧ Pending.reissues (.operand []) = true ∧
    Pending.reissues (.fetch 0 ⟨.remote 3 0, 2, none⟩) = true := by decide
/-- A keeper that has started in this cycle gives way to a lower slot of the same cycle. -/
theorem witness_keeper_restarts :
    let s := (kept (wG [])).core0 (fun c => { c with keeperQueue := [(3, { code := 0x10 })] })
    let t := startKeeper s 0
    (slotOf t 0 15).live = true ∧ keeperFresh t 0 = true ∧
    ((coreOf (queueRecord t 0 1 { code := 4 }) 0).keeperQueue.map (·.1), (slotOf (queueRecord t 0 1 { code := 4 }) 0 15).g[1]?) = ([1, 3], some 1) := by decide
/-! ### Memory -/

/-- Estate 0 with tables at PA 0, 0x2000, 0x4000, 0x6000: VA 0x1000 is an OPEN page of HBM at PA 0x100000 with R and W, VA 0x2000 one
with R alone at 0x101000, VA 0x3000 a page of host memory. sg1 covers GLOBAL, sg2 the commons, sg3 the scratchpad, each with R and W. -/
def mapped (s : State) : State :=
  let w := fun (m : Memory) (a : Nat) (v : Nat) => memWrite m a v 16
  let s := s.seg 1 { limit := 0x10000, attrs := 0x0C }
  let s := s.seg 2 { limit := 0x10000, attrs := 0x0D }
  let s := s.seg 3 { limit := 0x10000, attrs := 0x0E }
  let m := w (w (w s.hbm 0 0x2601) 0x2000 0x4601) 0x4000 0x6601
  let m := w (w (w m 0x6010 0x100017) 0x6020 0x101013) 0x6030 (0x2000000000017 + 2 ^ 64)
  { s with hbm := m }

/-- One thread with a place in g6, a value in g5, and eight bytes at PA 0x100000. -/
def mem (va : Word) : State :=
  let s := mapped (wG [(5, 0x1122334455667788), (6, va)])
  { s with hbm := memWrite s.hbm 0x100000 0xFFEEDDCCBBAA9988 8 }

theorem test_ld_global : gAfter 3 (exec (.ld 3 1 6 .s64 0) (mem 0x1000)) = some 0xFFEEDDCCBBAA9988 := by decide
theorem test_ld_sign_extends : gAfter 3 (exec (.ld 3 1 6 .s32 1) (mem 0x1000)) = some 0xFFFFFFFFFFEEDDCC := by decide
theorem test_ld_zero_extends : gAfter 3 (exec (.ld 3 1 6 .z8 0) (mem 0x1000)) = some 0x88 := by decide
theorem test_ld_misaligned_traps : trapAfter (exec (.ld 3 1 6 .s64 0) (mem 0x1004)) = some (4, 8, 0x1004) := by decide
theorem test_ld_limit_traps : trapAfter (exec (.ld 3 1 6 .s64 0) (mem 0xFFFC)) = some (2, 1, 0xFFFC) := by decide
/-- The estate has no pager queue, so the fault cannot be recorded (R115). -/
theorem test_ld_missing_page_without_pager : trapAfter (exec (.ld 3 1 6 .s64 0) (mem 0x5000)) = some (21, 0, 0x5000) := by decide
theorem test_st_rights_trap : (trapAfter (exec (.st 5 1 6 .s64 0) (mem 0x2000))).map (·.1) = some 3 := by decide
theorem test_st_enters_buffer : after (fun t => ((slotOf t 0 0).stores.map (fun e => (e.cls, e.writes.map (·.data))), memRead t.hbm 0x100000 8))
    (exec (.st 5 1 6 .z16 0) (mem 0x1000)) = some ([(.die, [0x7788])], 0xFFEEDDCCBBAA9988) := by decide
theorem test_lea : gAfter 5 (exec (.lea 5 1 6 .s32 3) (mem 0x1000)) = some 0x100C := by decide
theorem test_ldx : after (fun t => ((slotOf t 0 0).e[2]?, (slotOf t 0 0).e[3]?)) (exec (.ldx 2 1 1 6 0) (mem 0x1000)) =
    some (some 0xFFEEDDCCBBAA9988, some 0) := by decide
theorem test_amo_add : after (fun t => ((slotOf t 0 0).g[3]?, memRead t.hbm 0x100000 8)) (exec (.amo .add false .die 3 1 6 5) (mem 0x1000)) =
    some (some 0xFFEEDDCCBBAA9988, 0x1111111111111110) := by decide
theorem test_amo_cas_fails : after (fun t => ((slotOf t 0 0).g[3]?, memRead t.hbm 0x100000 8)) (exec (.amo .cas false .die 3 1 6 5) (mem 0x1000)) =
    some (some 0xFFEEDDCCBBAA9988, 0xFFEEDDCCBBAA9988) := by decide
theorem test_pref_passes : after (fun t => (slotOf t 0 0).pc) (exec (.pref 1 6) (mem 0x5000)) = some 4 := by decide
theorem test_pin_scratch : gAfter 5 (exec (.pin 5 3 6) (mem 0x1000)) = some 3 := by decide

/-- The access and its pieces once the checks have passed. -/
def tried (s : State) (x : Access) : Option (List Piece) × State :=
  match (checkAccess x).run s with
  | (.ok ps, t) => (some ps, t)
  | (.error _, t) => (none, t)

def acc (s : State) (n : Nat) (load store : Bool) : Access := ownAccess s 1 (gval s 6).toNat n n load store

theorem witness_load :
    let s := mem 0x1000
    ends (useG [6] (some 3)) s () s = true ∧ (tried s (acc s 8 true false)).1 = some [⟨.hbm 0x100000, 8, none⟩] ∧
    ends (loadBytes (acc s 8 true false) [⟨.hbm 0x100000, 8, none⟩] .none) (tried s (acc s 8 true false)).2 0xFFEEDDCCBBAA9988
      ((loadBytes (acc s 8 true false) [⟨.hbm 0x100000, 8, none⟩] .none).run (tried s (acc s 8 true false)).2).2 = true := by decide
theorem witness_load_completes :
    gAfter 3 (exec (.ldAcq 3 1 6 .s64 0) (mem 0x1000)) = some 0xFFEEDDCCBBAA9988 ∧
    gAfter 3 (exec (.ldShort 3 6) ((mem 0x1000).seg 0 { limit := 0x10000, attrs := 0x0C })) = some 0xFFEEDDCCBBAA9988 := by decide
theorem witness_ldv :
    ends (reserveV 2) (mem 0x1000) () (mem 0x1000) = true ∧
    after (fun t => ((slotOf t 0 0).v[2]?).map (fun p => p.toNat % 2 ^ 64)) (exec (.ldv 2 1 6 .f32 0) (mem 0x1000)) =
      some (some 0xFFEEDDCCBBAA9988) := by decide
theorem witness_plain_pieces :
    let s := mem 0x1000
    let p : Piece := ⟨.hbm 0x100000, 8, none⟩
    p.plat = none ∧ needsLine s p.home true = false ∧ s.hbmPoison = [] ∧ s.lostLines = [] ∧ readsAhead s 0 p = false ∧
      (slotOf s 0 0).stores = [] ∧ s.cur.defer = false ∧ s.memOk = true := by decide
theorem witness_segment_limit : trapAfter (exec (.ld 3 1 6 .s64 0) (mem 0x10000)) = some (2, 1, 0x10000) := by decide
theorem witness_segment_rights :
    trapAfter (exec (.ld 3 1 6 .s64 0) ((mem 0x1000).seg 1 { limit := 0x10000, attrs := 0x08 })) = some (3, 1, 0x1000) ∧
    trapAfter (exec (.st 3 1 6 .s64 0) ((mem 0x1000).seg 1 { limit := 0x10000, attrs := 0x04 })) = some (3, 17, 0x1000) ∧
    (trapAfter (exec (.amo .add false .die 3 3 6 5) (mem 0x1000))).map (·.1) = some 3 := by decide

/-- The scratchpad with eight bytes at 0x1000. -/
def scr : State := (mem 0x1000).core0 (fun c => { c with scratch := memWrite c.scratch 0x1000 0x8877665544332211 8 })

theorem witness_scratch_load :
    ends (useG [6] (some 3)) scr () scr = true ∧ ((curSlot scr).sg[3]?.getD ({} : Seg)).space = 2 ∧ ((curSlot scr).sg[3]?.getD ({} : Seg)).r = true ∧
    gAfter 3 (exec (.ld 3 3 6 .s16 0) scr) = some 0x2211 := by decide
theorem witness_scratch_store :
    ends (useG [6, 5] none) scr () scr = true ∧ ((curSlot scr).sg[3]?.getD ({} : Seg)).w = true ∧ (curCore scr).dqlim.toNat ≤ 0x1000 ∧
    after (fun t => ((coreOf t 0).wb, memRead (coreOf t 0).scratch 0x1000 2)) (exec (.st 5 3 6 .z16 0) scr) =
      some ([⟨7, 0, .scratch 0x1000 2 0x7788 0xFFFF, none⟩], 0x2211) ∧
    memRead (coreOf (applyWb 0 scr ⟨7, 0, .scratch 0x1000 2 0x7788 0xFFFF, none⟩) 0).scratch 0x1000 8 = 0x8877665544337788 := by decide
theorem witness_scratch_deque : (trapAfter (exec (.st 5 3 6 .z16 0) (scr.core0 (fun c => { c with dqbase := 0x1000, dqlim := 0x2000 })))).map (·.1) =
    some 3 := by decide

/-- A thread with n stores in its buffer, all to PA 0x100000. -/
def storing (n : Nat) : State := (mem 0x1000).thread (fun x => { x with
  stores := (List.range n).map (fun i => { seq := i, cls := .die, die := 0, kind := .plain, writes := [⟨⟨.hbm 0x100000, 2, none⟩, 0x1234, 0xFFFF⟩], release := false }),
  storeSeq := n })

theorem witness_store_enters :
    (storing 7).cur.slot = 0 ∧ Home.cls 0 (.hbm 0x100000) = .die ∧ (curSlot (storing 7)).stores.length = 7 ∧
    after (fun t => (slotOf t 0 0).stores.length) (exec (.st 5 1 6 .z16 0) (storing 7)) = some 8 := by decide
theorem witness_store_waits :
    (curSlot (storing 8)).stores.length = 8 ∧
    after (fun t => ((slotOf t 0 0).stores.length, (slotOf t 0 0).wait.reason)) (exec (.st 5 1 6 .z16 0) (storing 8)) = some (8, .mem) := by decide
theorem witness_store_performs :
    (storing 1).memOk = true ∧ ((slotOf (storing 1) 0 0).stores[0]?.any (mayPerform [])) = true ∧
    after (fun t => (memRead t.hbm 0x100000 8, (slotOf t 0 0).stores.length)) (exec (.storeBufferPerform 0 0 0) (storing 1)) =
      some (0xFFEEDDCCBBAA1234, 0) := by decide
theorem witness_store_release :
    after (fun t => (slotOf t 0 0).stores.map (·.release)) (exec (.stRel 5 1 6 .z16 0) (mem 0x1000)) = some [true] ∧
    after (fun t => (slotOf t 0 0).stores.length) (exec (.stShort 5 6) ((mem 0x1000).seg 0 { limit := 0x10000, attrs := 0x0C })) = some 1 ∧
    after (fun t => (slotOf t 0 0).stores.length) (exec (.stv 2 1 6 .f32 0) (mem 0x1000)) = some 1 := by decide
theorem witness_amov :
    after (fun t => (slotOf t 0 0).stores.map (·.kind)) (exec (.amov .add .f32 2 2 6) (mem 0x1000)) = some [.amov .add .f32] := by decide
theorem witness_amov_checks :
    let s := mem 0x1000
    let x := ownAccess s 2 0x1000 64 64 true true
    ends (useG [6] none) s () s = true ∧ x.seg.space = 1 ∧ (tried s x).1 = some [⟨.commons 0x1000, 64, none⟩] ∧
    ends (openV 2) (tried s x).2 () (tried s x).2 = true := by decide
/-- A store of the commons, buffered, in a granule tagged with its estate; and one that the tag no longer admits. -/
theorem witness_commons_store_performs :
    let e : StoreEntry := { seq := 0, cls := .die, die := 0, kind := .plain, writes := [⟨⟨.commons 0x1000, 2, none⟩, 0x1234, 0xFFFF⟩], release := false }
    let s := (mem 0x1000).thread (fun x => { x with stores := [e] })
    tagOf s (0x1000 / 64) = some e.estate ∧ mayPerform [] e = true ∧ clusterOf 0 ∉ s.halted ∧ s.memOk = true ∧
    after (fun t => (memRead t.commons 0x1000 2, (slotOf t 0 0).stores.length)) (exec (.storeBufferPerform 0 0 0) s) = some (0x1234, 0) := by decide
theorem witness_amo :
    ends (useG [6, 5] (some 3)) (mem 0x1000) () (mem 0x1000) = true ∧
    (tried (mem 0x1000) (ownAccess (mem 0x1000) 1 0x1000 (amoSize .add) (amoSize .add) true true)).1 = some [⟨.hbm 0x100000, 8, none⟩] := by decide
theorem witness_amo_cas : ends (useG [6, 5, 3] (some 3)) (mem 0x1000) () (mem 0x1000) = true ∧
    after (fun t => memRead t.hbm 0x100000 8) (exec (.amo .cas true .sys 3 1 6 5) ((mem 0x1000).thread (fun x =>
      { x with g := x.g.set 3 0xFFEEDDCCBBAA9988 }))) = some 0x1122334455667788 := by decide
theorem witness_fence_passes :
    after (fun t => (slotOf t 0 0).pc) (exec (.fence .full .core) (storing 2)) = some 4 ∧
    after (fun t => (slotOf t 0 0).stores.map (·.barrier)) (exec (.fence .rel .sys) (storing 1)) = some [some 1] := by decide
theorem witness_fence_waits :
    ((curSlot (storing 2)).stores.filter (fun e => Scope.rank e.cls ≤ Scope.rank .pkg)).length = 2 ∧
    after (fun t => ((slotOf t 0 0).wait.reason, (slotOf t 0 0).wait.key)) (exec (.fence .full .pkg) (storing 2)) = some (.mem, 2) := by decide
theorem witness_pin :
    let s := mem 0x1000
    (acc s 64 true false).spans.all (inSegment (acc s 64 true false).seg) = true ∧ (acc s 64 true false).seg.r = true ∧
    (xlate s 0 0 0x1000 (needs true false false)).1 = .page 0x100097 0 4096 ∧ pteHome 0x100097 0 4096 0x1000 = .hbm 0x100000 ∧
    after (fun t => ((slotOf t 0 0).g[3]?, (estateOf t 0).pins)) (exec (.pin 3 1 6) (setEstate s 0 { estateOf s 0 with pins := [0x4000] })) =
      some (some 0, [0x4000]) := by decide
theorem witness_unpin :
    let s := mem 0x1000
    after (fun t => (estateOf t 0).pins) (exec (.unpin 1 6) (setEstate s 0 { estateOf s 0 with pins := [0x4000, 7] })) = some [7] ∧
    after (fun t => (estateOf t 0).pins) (exec (.unpin 1 6) (setEstate (mem 0x5000) 0 { estateOf s 0 with pins := [7] })) = some [7] ∧
    after (fun t => (slotOf t 0 0).pc) (exec (.unpin 3 6) s) = some 4 := by decide
/-- The estate is leaving the frame. -/
theorem witness_pin_leaving :
    let s := setEntry (mem 0x1000) (parcelFrame 0) { entryOf (mem 0x1000) (parcelFrame 0) with leaving := some 0 }
    (xlate s 0 0 0x1000 (needs true false false)).1 = .page 0x100097 0 4096 ∧ s.cur.defer = false ∧ gAfter 3 (exec (.pin 3 1 6) s) = some 3 := by decide
theorem witness_pin_elsewhere : gAfter 3 (exec (.pin 3 1 6) (mem 0x3000)) = some 3 := by decide

/-! ### Translation -/

theorem witness_translation :
    let s := mapped (wG [])
    Memory.wf s.hbm = true ∧ tlbOf s 0 = [] ∧ (walk s 0 0x1008).1 = .leaf 4 0x6010 0x100017 0 ∧
    (xlate s 0 0 0x1008 (needs true true false)).1 = .page 0x100197 0 4096 ∧
    memRead (xlate s 0 0 0x1008 (needs true true false)).2.hbm 0x6010 8 = 0x100197 := by decide
theorem witness_translation_rights :
    let s := mapped (wG [])
    (walk s 0 0x2000).1 = .leaf 4 0x6020 0x101013 0 ∧ (0x101013 : Word) &&& needs false true false ≠ needs false true false ∧
    (xlate s 0 0 0x2000 (needs false true false)).1 = .page 0x101013 0 4096 := by decide
theorem witness_translation_missing :
    (walk (mapped (wG [])) 0 0x5000).1 = .missing 4 0x6050 false ∧ (walk (mapped (wG [])) 0 0x8000000000).1 = .missing 1 0x10 false := by decide
/-- The leaf's line is poisoned, or lost: nothing is written. -/
theorem witness_translation_unwritable :
    let s := { mapped (wG []) with hbmPoison := [0x6010 / 64] }
    let t := { mapped (wG []) with lostLines := [(0x6010 / 64, 3)] }
    (walk s 0 0x1008).1 = .leaf 4 0x6010 0x100017 0 ∧ (walk t 0 0x1008).1 = .leaf 4 0x6010 0x100017 0 ∧ 0x6010 / 64 ∉ s.hostHeld ∧
    memRead (xlate s 0 0 0x1008 (needs true true false)).2.hbm 0x6010 8 = 0x100017 ∧
    memRead (xlate t 0 0 0x1008 (needs true true false)).2.hbm 0x6010 8 = 0x100017 := by decide
/-- A 64 KiB page at VA 0x20000: its sixteen entries stay identical (R113). -/
theorem witness_translation_64k :
    let s := mapped (wG [])
    let s := { s with hbm := (List.range 16).foldl (fun m i => memWrite m (0x6200 + 16 * i) 0x200217 16) s.hbm }
    (walk s 0 0x20000).1 = .leaf 4 0x6200 0x200217 0 ∧
    memRead (xlate s 0 0 0x2F000 (needs true false false)).2.hbm 0x6200 8 = 0x200297 ∧
    memRead (xlate s 0 0 0x2F000 (needs true false false)).2.hbm 0x62F0 8 = 0x200297 := by decide

/-! ### Vector instructions -/

/-- The same value in every lane of a type. -/
def splat (ty : LaneTy) (n : Nat) : Packet := packetOf ty (List.replicate ty.lanes n)

/-- v1, v2 and v3 hold given packets. -/
def vecs (a b c : Packet) : State := (((wG [(6, 0x4040)]).vr 1 a).vr 2 b).vr 3 c

/-- Lane 0, by type, of a v register after a step. -/
def lane0 (ty : LaneTy) (n : Nat) (o : Host.Outcome State Fault Refusal) : Option Nat :=
  (after (fun t => ((slotOf t 0 0).v[n]?).map (fun p => p.toNat % 2 ^ ty.width)) o).join

theorem test_vadd_f32 : lane0 .f32 4 (exec (.vadd 0 .f32 4 1 2) (vecs (splat .f32 0x3F800000) (splat .f32 0x40000000) 0)) = some 0x40400000 := by decide
theorem test_vadd_saturates : lane0 .s8 4 (exec (.vadd 1 .s8 4 1 2) (vecs (splat .s8 0x7F) (splat .s8 1) 0)) = some 0x7F ∧
    after (fun t => (slotOf t 0 0).fflags) (exec (.vadd 1 .s8 4 1 2) (vecs (splat .s8 0x7F) (splat .s8 1) 0)) = some 0x20 := by decide
theorem test_vsub_wraps : lane0 .z8 4 (exec (.vsub 0 .z8 4 1 2) (vecs 0 (splat .z8 1) 0)) = some 0xFF := by decide
theorem test_vmul_low_half : lane0 .s16 4 (exec (.vmul 0 .s16 4 1 2) (vecs (splat .s16 0x4000) (splat .s16 4) 0)) = some 0 := by decide
theorem test_vmin_signed : lane0 .s32 4 (exec (.vmin .s32 4 1 2) (vecs (splat .s32 0xFFFFFFFF) (splat .s32 1) 0)) = some 0xFFFFFFFF := by decide
theorem test_vmax_f32 : lane0 .f32 4 (exec (.vmax .f32 4 1 2) (vecs (splat .f32 0xBF800000) (splat .f32 0x3F800000) 0)) = some 0x3F800000 := by decide
theorem test_vabs_most_negative : lane0 .s8 4 (exec (.vabs 1 .s8 4 1) (vecs (splat .s8 0x80) 0 0)) = some 0x7F := by decide
theorem test_vneg_f32 : lane0 .f32 4 (exec (.vneg 0 .f32 4 1) (vecs 0 0 0)) = some 0x80000000 := by decide
/-- The example after R92: VRCP of 3.0. -/
theorem test_vrcp_three : lane0 .f32 4 (exec (.vrcp 0 .f32 4 1) (vecs (splat .f32 0x40400000) 0 0)) = some 0x3EAAAAAB := by decide
/-- The same example: one rounding of x / 3. -/
theorem test_vcvt_scaled :
    lane0 .bf16 2 (exec (.vcvt 0 false true .bf16 .f32 2 1 6) (vecs (splat .f32 0x40423FFF) 0 0)) = some 0 ∧
    after (fun t => (((slotOf t 0 0).v[2]?).map (fun p => p.toNat / 2 ^ 496))) (exec (.vcvt 0 false true .bf16 .f32 2 1 6)
      (vecs (splat .f32 0x40423FFF) 0 0)) = some (some 0x3F81) := by decide
theorem test_vrsq_four : lane0 .f32 4 (exec (.vrsq 0 .f32 4 1) (vecs (splat .f32 0x40800000) 0 0)) = some 0x3F000000 := by decide
theorem test_vexp2_exact : lane0 .f32 4 (exec (.vexp2 0 .f32 4 1) (vecs (splat .f32 0x40400000) 0 0)) = some 0x41000000 := by decide
theorem test_vlog2_exact : lane0 .f32 4 (exec (.vlog2 0 .f32 4 1) (vecs (splat .f32 0x41000000) 0 0)) = some 0x40400000 := by decide
theorem test_vand : lane0 .z32 4 (exec (.vand .z32 4 1 2) (vecs (splat .z32 0xFF00) (splat .z32 0x0FF0) 0)) = some 0x0F00 := by decide
theorem test_vxor : lane0 .z32 4 (exec (.vxor .z32 4 1 2) (vecs (splat .z32 0xFF00) (splat .z32 0x0FF0) 0)) = some 0xF0F0 := by decide
theorem test_vshl_full_width : lane0 .s32 4 (exec (.vshl .s32 4 1 2) (vecs (splat .s32 1) (splat .s32 32) 0)) = some 0 := by decide
theorem test_vsra_full_width : lane0 .s32 4 (exec (.vsra .s32 4 1 2) (vecs (splat .s32 0x80000000) (splat .s32 40) 0)) = some 0xFFFFFFFF := by decide
theorem test_vbcast : lane0 .f32 4 (exec (.vbcast .f32 4 1 6) (vecs (packetOf .f32 [5, 6]) 0 0)) = some 5 := by decide
theorem test_vperm : lane0 .s32 4 (exec (.vperm .s32 4 1 2) (vecs (packetOf .s32 [5, 6, 7]) (splat .s32 18) 0)) = some 7 := by decide
/-- The example of R94. -/
theorem test_vredSum_tree :
    lane0 .f32 4 (exec (.vredSum 0 .f32 4 1) (vecs (packetOf .f32 (0x4B800000 :: List.replicate 15 0x3F800000)) 0 0)) = some 0x4B800007 := by decide
theorem test_vredMax : lane0 .s32 4 (exec (.vredMax .s32 4 1) (vecs (packetOf .s32 [1, 9, 0xFFFFFFFF]) 0 0)) = some 9 := by decide
theorem test_vfma : lane0 .f32 4 (exec (.vfma .fma .f32 4 1 2 3) (vecs (splat .f32 0x40000000) (splat .f32 0x40400000) (splat .f32 0x3F800000))) =
    some 0x40E00000 := by decide
theorem test_vsel_minus_zero : lane0 .f32 4 (exec (.vsel .f32 4 1 2 3) (vecs (splat .f32 1) (splat .f32 2) (splat .f32 0x80000000))) = some 1 := by decide
theorem test_vcmp : lane0 .f32 4 (exec (.vcmp .unord .f32 4 1 2) (vecs (splat .f32 0x7FC00000) 0 0)) = some 0xFFFFFFFF := by decide
theorem test_vext : gAfter 5 (exec (.vext 5 1 6) ((vecs (packetOf .s32 [5, 6, 7]) 0 0).thread (fun x => { x with g := x.g.set 6 0x201 }))) = some 6 := by decide
theorem test_vins : lane0 .z32 1 (exec (.vins 1 6 7) ((vecs 0 0 0).thread (fun x => { x with g := (x.g.set 6 0xABCD).set 7 0x001 }))) = some 0xCD00 := by decide
/-- R30: widening takes the low lanes. -/
theorem test_vcvt_widens : lane0 .f32 4 (exec (.vcvt 0 false false .f32 .bf16 4 1 0) (vecs (splat .bf16 0x3F81) 0 0)) = some 0x3F810000 := by decide
theorem test_vector_on_garnet : trapAfter (exec (.vadd 0 .f32 4 1 2) (vecs 0 0 0)) = none ∧
    after (fun t => (slotOf t 1024 0).pc) (exec (.vadd 0 .f32 4 1 2) { vecs 0 0 0 with cur := { core := 1024 } }) = some 0 := by decide

theorem witness_vector_operands : TakesV [1, 2] [] 4 (vecs 1 2 3) (vecs 1 2 3) ∧ TakesV [1] [] 4 (vecs 1 2 3) (vecs 1 2 3) ∧
    TakesV [1, 2, 3] [] 4 (vecs 1 2 3) (vecs 1 2 3) ∧ TakesV [1] [6] 4 (vecs 1 2 3) (vecs 1 2 3) :=
  ⟨ends_of (by decide), ends_of (by decide), ends_of (by decide), ends_of (by decide)⟩
theorem witness_vector_ends : ∃ u, Ends (endV 1 4 (splat .f32 7) [] 0) (vecs 1 2 3) () u := ⟨_, ends_of (t := ((endV 1 4 (splat .f32 7) [] 0).run (vecs 1 2 3)).2) (by decide)⟩
theorem witness_vector_flag_traps :
    let s := (vecs (splat .f32 0x7F800000) (splat .f32 0xFF800000) 0).thread (fun x => { x with frm := 0x100 })
    frmTraps (curSlot s).frm ≠ 0 ∧ (findStream s 0 0 4).isNone = true ∧
    (trapAfter (exec (.vadd 0 .f32 4 1 2) s)).map (fun r => (r.1, r.2.1)) = some (7, 1) := by decide
theorem witness_vector_w_register :
    after (fun t => (coreOf t 0).wb.map (·.due)) (exec (.vand .z32 20 1 2) (vecs 1 1 0)) = some [7] := by decide
theorem witness_vext_operands : ∃ t, Ends (do notGarnet; openV 1; useG [6] (some 5)) (vecs 1 2 3) () t :=
  ⟨vecs 1 2 3, ends_of (by decide)⟩
theorem witness_vins_operands : ∃ t, Ends (do notGarnet; unboundDest 1; readable true 1; useG [6, 7] none) (vecs 1 2 3) () t :=
  ⟨vecs 1 2 3, ends_of (by decide)⟩
theorem witness_vcvt_operands :
    ∃ t, Ends (do notGarnet; (if LaneTy.f32.lanes < LaneTy.bf16.lanes && !false then (do unboundDest 2; readable true 2) else pure ()); openV 1; useG [6] none; reserveV 2) (vecs 1 2 3) () t :=
  ⟨vecs 1 2 3, ends_of (by decide)⟩
theorem witness_integer_lanes : LaneTy.isFloat .s8 = false ∧ laneMin .s8 = -128 ∧ laneMax .s8 = 127 ∧ laneMin .z8 = 0 ∧ laneMax .z8 = 255 := by decide
theorem witness_garnet_vector : garnet ≤ ({ vecs 0 0 0 with cur := { core := 1024 } } : State).cur.core ∧
    Instr.wellFormed (.sbind 0 8) = true ∧ encodeNat (.sbind 0 8) / 2 % 64 = 0x26 ∧ encodeNat (.copy 0) / 2 % 64 = 0x2D ∧
    encodeNat (.vadd 0 .f32 1 2 3) / 2 % 64 = 0x20 ∧ encodeNat (.mzero 5) / 2 % 64 = 0x2C := by decide

/-! ### Bindings -/

/-- e8 to e12: a read stream over sg1 of four F32 packets from offset 0x1000: dword 1 has sg 1, fmt f32 (9) and one dimension. -/
def described (s : State) (write : Nat) : State := s.es [(8, 0x1000), (9, BitVec.ofNat 64 (1 + 8 * 9 + 128 * write)), (10, 64), (11, 1), (12, 0)]

theorem witness_sbind :
    let s := described (mapped (wG [])) 0
    isBoundV s 2 = false ∧ boundStreams s = 0 ∧ streamOk { reg := 2, desc := #v[eval s 8, eval s 9, eval s 10, eval s 11, eval s 12] } = true ∧
    after (fun t => ((slotOf t 0 0).streams.length, (slotOf (landed t) 0 0).streams.map (·.reg))) (exec (.sbind 2 8) s) = some (0, [2]) ∧
    after (fun t => (coreOf t 0).wb.length) (exec (.sbind 18 8) s) = some 1 := by decide
theorem witness_sbind_traps :
    let s := described (mapped (wG [])) 0
    (trapAfter (exec (.sbind 2 8) (s.es [(9, 0x8000)]))).map (fun r => (r.1, r.2.1)) = some (19, 2) := by decide
theorem witness_qbind :
    after (fun t => (coreOf t 0).wb.map (·.act)) (exec (.qbind false 17) (wG [])) = some [.bindQueue false 1] ∧
    (trapAfter (exec (.qbind false 3) (wG []))).map (fun r => (r.1, r.2.1)) = some (19, 3) ∧
    (trapAfter (exec (.qbind false 17) (queued none))).map (fun r => (r.1, r.2.1)) = some (19, 17) := by decide

/-- A stream of v2, or of w2, bound by slot k. -/
def streaming (reg k : Nat) (write : Nat) : State :=
  let s := described (mapped (wG [])) write
  setSlot s 0 k { slotOf s 0 k with live := true, streams := [{ reg := reg, desc := #v[eval s 8, eval s 9, eval s 10, eval s 11, eval s 12] }] }

theorem witness_unbind :
    (findStream (streaming 2 0 0) 0 0 2).map (·.1) = some 0 ∧ after (fun t => (slotOf t 0 0).streams) (exec (.unbind true 2) (streaming 2 0 0)) = some [] ∧
    (findStream (streaming 18 0 0) 0 0 18).map (·.1) = some 0 ∧
    after (fun t => (coreOf t 0).wb.map (·.act)) (exec (.unbind true 18) (streaming 18 0 0)) = some [.unbind true 2] ∧
    (findStream (streaming 18 3 0) 0 0 18).map (·.1) = some 3 ∧ (trapAfter (exec (.unbind true 18) (streaming 18 3 0))).map (·.1) = some 19 ∧
    after (fun t => (coreOf t 0).wb.map (·.act)) (exec (.unbind false 17) (queued none)) = some [.unbind false 1] ∧
    (trapAfter (exec (.unbind false 17) (wG []))).map (·.1) = some 19 := by decide
theorem witness_unbind_waits :
    let s := (streaming 2 0 1).thread (fun x => { x with
      stores := [{ seq := 0, cls := .die, die := 0, kind := .plain, writes := [], release := false, stream := some 2 }] })
    (findStream s 0 0 2).map (fun p => p.2.isWrite) = some true ∧ pushesLeft s 0 0 2 = true ∧
    after (fun t => (slotOf t 0 0).wait.reason) (exec (.unbind true 2) s) = some .stream := by decide
/-- A load into a write stream pushes the packet that it brings (R41). -/
theorem witness_ldv_push :
    let s := (streaming 2 0 1).thread (fun x => { x with g := x.g.set 6 0x1000 })
    (findStream s 0 0 2).map (fun p => p.2.isWrite) = some true ∧ (slotOf s 0 0).buffered < 8 ∧
    after (fun t => ((slotOf t 0 0).stores.map (fun e => (e.stream, e.ready, e.cls)), (slotOf t 0 0).pc)) (exec (.ldv 2 1 6 .f32 0) s) =
      some ([(some 2, true, .die)], 4) := by decide +kernel
/-! ### Tiles, the matrix units and the copy engine -/

/-- Tile 5 of core 0 covers 65,536 bytes and more of the scratchpad from 0, in a state; a row of an A operand stands at 0 whose element
0 is 3 (planes 0 and 1) and the seat 17 (unit 1, index 1) has KA = KB = 8, macro 0, EXACT. -/
def tiled (st : TileState) : State :=
  let s := wG [(5, 5), (6, 17), (7, 0)]
  let s := s.core0 (fun c => { c with tiles := mapSet c.tiles 5 { state := st, size := 66048 }, scratch := [(48, 1), (56, 1)] })
  let s := s.es [(4, 0x10808), (5, 0), (6, 0), (7, 0)]
  setSeat s 1 1 { ctx0 := 0x10808 }

theorem witness_seat_passes :
    let s := tiled .ready
    uses s 0 (parcelSeat 17) = true ∧ seatBarred s 17 = false ∧ (entryOf s (parcelSeat 17)).gen.toNat = 0 ∧
    ends (checkSeat 17 true) s 17 (setCurCore s { curCore s with gens := mapSet (curCore s).gens 17 0 }) = true := by decide
theorem witness_seat_traps :
    (trapAfter (exec (.mzero 6) ((tiled .ready).thread (fun x => { x with g := x.g.set 6 2048 })))).map (fun r => (r.1, r.2.1)) = some (10, 0) ∧
    (trapAfter (exec (.mzero 6) ((tiled .ready).core0 (fun c => { c with gens := mapSet c.gens 17 1 })))).map (fun r => (r.1, r.2.1)) =
      some (10, 17) := by decide
theorem witness_mfmt :
    ctxOk 0x10808 0 = true ∧ drainAhead (tiled .ready) 0 0 17 = false ∧
    after (fun t => ((seatOf t 1 1).ctx0, (seatOf t 1 1).binder.isSome)) (exec (.mfmt 6 4) (tiled .ready)) = some (0x10808, true) ∧
    trapAfter (exec (.mfmt 6 5) (tiled .ready)) ≠ none := by decide
theorem test_mzero : after (fun t => (seatOf t 1 1).acc) (exec (.mzero 6) (setSeat (tiled .ready) 1 1 { acc := [(0, 7)] })) = some [] := by decide
theorem test_mloadb : after (fun t => ((tileOf (coreOf t 0) 5).state, t.ops.map (fun p => (p.2.kind, p.2.seat))))
    (exec (.mloadb 5 6 6) (tiled .ready)) = some (.draining, [(.mloadb, 17)]) := by decide
theorem test_mloadb_small_tile : (trapAfter (exec (.mloadb 5 6 6) ((tiled .ready).core0 (fun c => { c with
    tiles := mapSet c.tiles 5 { state := .ready, size := 66047 } })))).isSome = true := by decide
theorem test_mdrain : after (fun t => ((tileOf (coreOf t 0) 5).state, t.ops.map (fun p => p.2.kind))) (exec (.mdrain 5 6 6) (tiled .empty)) =
    some (.filling, [.mdrain false]) ∧
    after (fun t => t.ops.map (fun p => p.2.kind)) (exec (.mdrainClr 5 6 6) (tiled .empty)) = some [.mdrain true] := by decide
/-- R86, R87: planes 0 and 1 of element 0 stand at bytes 56 and 48 of the block, the top plane of weight −128 at byte 0. -/
theorem test_dot_product :
    (aValues { ctx0 := 0x10808 } (memRead [(48, 1), (56, 1)] 0 256)).head? = some 3 ∧
    (bValues { ctx0 := 0x10808 } { bytes := [(0, 1)] } 0).head? = some (-128) ∧
    dot [3, 5] [-128, 2] = -374 ∧ accumulate true 0 (-384) 0 0 = 2 ^ 40 - 384 := by decide
theorem test_accumulate_scaled : accumulate false 0x3F800000 3 0x3F80 0x4000 = 0x40E00000 := by decide
theorem witness_seat_waits :
    let s := { tiled .ready with cur := { defer := true } }
    mapFind (curCore s).gens 17 = none ∧
    after (fun t => ((slotOf t 0 0).wait.reason, (slotOf t 0 0).pend, mapFind (coreOf t 0).gens 17)) (exec (.mzero 6) s) =
      some (.mem, .none, some 0) ∧
    after (fun t => ((slotOf t 0 0).wait.reason, (slotOf t 0 0).pend))
      (exec (.mzero 6) (s.core0 (fun c => { c with gens := [(17, 0)] }))) = some (.mma, .seat 17 0 none) := by decide
theorem witness_seat_applied :
    let s := (after id (exec (.mfmt 6 4) ({ tiled .ready with cur := { defer := true } }.core0 (fun c => { c with gens := [(17, 0)] })))).getD State.reset
    (slotOf s 0 0).pend = .seat 17 0 (some (0x10808, 0)) ∧ s.halted = [] ∧ seatRefused s 0 17 0 = false ∧ (seatOf s 1 1).suspended = false ∧
    after (fun t => ((seatOf t 1 1).ctx0, (slotOf t 0 0).pend, (slotOf t 0 0).wait.reason)) (exec (.mmaRow 0 0) (setSeat s 1 1 {})) =
      some (0x10808, .none, .none) := by decide
theorem witness_mma :
    let s := tiled .ready
    mmaIllegal 0 0 = false ∧ (seatOf s 1 1).ka = 8 ∧ mmaBytes (seatOf s 1 1) 0 0 = 256 ∧ tilePending (curCore s) 5 = false ∧
    (curSlot s).rows = none ∧ drainAhead s 0 0 17 = false ∧ (curSlot s).past = false ∧ (curSlot s).stores = [] ∧ s.halted = [] ∧ (unitOf s 1).ring = [] ∧
    foreignBank (unitOf s 1) (seatOf s 1 1) 0 = false ∧ (mmaOperand s 0 (seatOf s 1 1) 5 0 0).isSome = true ∧ mmaCount 0 = 1 := by decide
theorem witness_mma_later :
    let s := { tiled .ready with cur := { defer := true } }.core0 (fun c => { c with gens := [(17, 0)] })
    after (fun t => ((slotOf t 0 0).wait.reason, (slotOf t 0 0).pend, (tileOf (coreOf t 0) 5).state)) (exec (.mma 5 6 6) s) =
      some (.mma, .mma 5 17 0 0 0 0, .draining) := by decide
theorem witness_row_columns : ({ ctx0 := 0x10808 } : Seat).macros / 2 ^ (3 / 256) % 2 = 1 ∧ ({ ctx0 := 0x10808 } : Seat).macros / 2 ^ (300 / 256) % 2 = 0 ∧
    ({ ctx0 := 0x10808 } : Seat).exact = true := by decide

/-- The install word: tile 5, 4,096 bytes at 64. -/
theorem test_tset_install :
    installed 5 (BitVec.ofNat 64 (64 + 4096 * 2 ^ 18 + 5 * 2 ^ 48)) 0 = some { size := 4096, base := 64 } ∧
    after (fun t => (coreOf t 0).wb.map (·.act)) (exec (.tset 8 5 7 2) ((tiled .failed).es [(2, BitVec.ofNat 64 (64 + 4096 * 2 ^ 18 + 5 * 2 ^ 48))])) =
      some [.tile 5 { size := 4096, base := 64 }] := by decide
theorem witness_tset :
    let r := fun (st : TileState) (k : Word) => (tiled st).thread (fun x => { x with g := x.g.set 7 k })
    gAfter 8 (exec (.tset 8 5 7 0) (r .empty 1)) = some 2 ∧ gAfter 8 (exec (.tset 8 5 7 0) (r .empty 0)) = some 1 ∧
    gAfter 8 (exec (.tset 8 6 7 0) (r .empty 2)) = some 2 ∧ gAfter 8 (exec (.tset 8 5 7 0) (r .empty 2)) = some 0 ∧
    gAfter 8 (exec (.tset 8 5 7 0) (r .failed 4)) = some 2 ∧ gAfter 8 (exec (.tset 8 5 7 0) (r .ready 4)) = some 0 ∧
    after (fun t => (slotOf t 0 0).wait.reason) (exec (.tset 8 5 7 0) (r .filling 2)) = some .tile ∧
    (trapAfter (exec (.tset 8 5 7 4) (r .empty 2))).map (·.1) = some 1 ∧
    after (fun t => (slotOf t 1024 0).g[8]?) (exec (.tset 8 5 7 0) (setSlot { State.reset with agenda := [], cur := { core := 1024 } } 1024 0
      { slotOf (r .empty 0) 0 0 with live := true })) = some (some 3) := by decide
/-- A TSET issued before it is on its way: this one finds the tile as that one leaves it. -/
theorem witness_tset_pending :
    let s := ((tiled .empty).thread (fun x => { x with g := x.g.set 7 2 })).core0 (fun c => { c with
      wb := [⟨7, 3, .tile 5 { state := .ready, size := 66048 }, none⟩] })
    (tileOf (curCore s) 5).state = .empty ∧ (tileSoon (curCore s) 5).state = .ready ∧
    after (fun t => ((slotOf t 0 0).g[8]?, (coreOf t 0).wb.length)) (exec (.tset 8 5 7 0) s) = some (some 2, 1) ∧
    after (fun t => ((slotOf t 0 0).g[8]?, (coreOf t 0).wb.length)) (exec (.tset 8 5 7 0) (s.thread (fun x => { x with g := x.g.set 7 4 }))) =
      some (some 0, 2) := by decide
theorem test_tstat : gAfter 8 (exec (.tstat 8 5) ((tiled .failed).core0 (fun c => { c with
    tiles := mapSet c.tiles 5 { state := .failed, size := 64, status := 0xFF } }))) = some 0xFF0004 ∧
    gAfter 8 (exec (.tstat 8 6) ((tiled .ready).thread (fun x => { x with g := x.g.set 6 64 }))) = some (BitVec.allOnes 64) := by decide

/-- e0 to e13 of a copy of eight bytes between tile 5 and sg1: out of the tile (TSIDE = 1, DSEG = 1) or into it (SSEG = 1), elements
of one byte, one dimension. The memory side is at offset 0x1000. -/
def copying (out : Bool) : State :=
  let s := mapped (tiled (if out then .ready else .empty))
  s.es ([(0, if out then 0 else 0x1000), (1, if out then 0x1000 else 0), (2, if out then BitVec.ofNat 64 (8 + 8192 + 5 * 16384) else BitVec.ofNat 64 (1 + 5 * 16384)),
    (3, 8), (4, 0), (5, 1), (6, 0), (7, 0), (8, 0), (9, 1), (10, 0), (11, 0), (12, 0), (13, 0)] : List (Nat × Word))

theorem witness_copy_in :
    let s := copying false
    let r := eRun s 0 14
    copyIllegal r = false ∧ copyTile r = 5 ∧ copyOut r = false ∧ copyCount r = 8 ∧ uses s 0 (parcelEngine 0) = true ∧
    ends (copyRanges r (tileOf (curCore s) 5) 5 1 ((curSlot s).sg[1]?.getD ({} : Seg)) false) s () s = true ∧ copiesOf s 0 < 512 ∧
    after (fun t => ((tileOf (coreOf t 0) 5).state, t.ops.map (fun p => (p.2.kind, p.2.done)))) (exec (.copy 0) s) =
      some (.filling, [(.copy, [])]) := by decide
theorem witness_copy_out :
    after (fun t => (tileOf (coreOf t 0) 5).state) (exec (.copy 0) (copying true)) = some .draining := by decide

/-- The copy in flight, and the next state. -/
def copied (out : Bool) : State := (after id (exec (.copy 0) (copying out))).getD State.reset

theorem witness_copy_element_in :
    let s := copied false
    let o := (opOf s 1).getD { kind := .copy, core := 9, slot := 0, estate := 0, task := 0, tile := 0, regs := [] }
    let s := { s with hbm := memWrite s.hbm 0x100000 0xAB 1 }
    o.core = 0 ∧ o.token = none ∧ o.failed = none ∧ foreignPlain s o = false ∧ released s o = true ∧ copyGather o.regs = false ∧ o.asked = [] ∧
    (match (attempt s o (copyAccess o 0x1000 1 true)).1 with
      | .ok ps => ps == [⟨.hbm 0x100000, 1, none⟩]
      | _ => false) = true ∧
    after (fun t => (memRead (coreOf t 0).scratch 0 1, (opOf t 1).map (·.done))) (exec (.copyAccess 1 0 .home) s) = some (0xAB, some [0]) := by decide
theorem witness_copy_element_out :
    let s := (copied true).core0 (fun c => { c with scratch := [(0, 0x77)] })
    after (fun t => (memRead t.hbm 0x100000 1, (opOf t 1).map (·.done))) (exec (.copyAccess 1 0 .home) s) = some (0x77, some [0]) := by decide
theorem witness_copy_ends :
    let s := copied false
    let o := (opOf s 1).getD { kind := .copy, core := 9, slot := 0, estate := 0, task := 0, tile := 0, regs := [] }
    let s := { s with ops := mapSet s.ops 1 { o with done := [0, 1, 2, 3, 4, 5, 6] } }
    (taskOf s o.task).phase ≠ .aborting ∧
    after (fun t => ((tileOf (coreOf t 0) 5).state, (opOf t 1).isSome)) (exec (.copyAccess 1 7 .home) s) = some (.ready, false) := by decide

theorem witness_mloadb_apply :
    let s := (after id (exec (.mloadb 5 6 6) (tiled .ready))).getD State.reset
    (opOf s 1).any (released s) = true ∧ scratchPoisoned (coreOf s 0) 0 66048 = false ∧ seatRefused s 0 17 0 = false ∧ uses s 0 (parcelUnit 1) = true ∧
    after (fun t => ((bankOf (unitOf t 1) 0), (tileOf (coreOf t 0) 5).state)) (exec (.mloadbApply 1) s) =
      some ({ loader := some 0, bytes := [(48, 1), (56, 1)] }, .ready) := by decide
theorem witness_mdrain_perform :
    let s := (after id (exec (.mdrainClr 5 6 6) (setSeat (tiled .empty) 1 1 { ctx0 := 0x10808, acc := [(0, 7), (1024, 9)] }))).getD State.reset
    let o := (opOf s 1).getD { kind := .copy, core := 9, slot := 0, estate := 0, task := 0, tile := 0, regs := [] }
    s.halted = [] ∧ released s o = true ∧ drainBefore s 1 o = false ∧ (seatOf s 1 1).suspended = false ∧ seatRefused s 0 o.seat o.gen = false ∧ o.kind = .mdrain true := by decide
/-- R213: EXACT accumulators to F32 codes. -/
theorem test_drain_element : drainElem true 0 0 7 = (0x40E00000, 0) ∧ drainElem true 3 0 (2 ^ 40 - 1) = (0xFFFFFFFF, 0) ∧
    drainElem true 4 0x3F80 200 = (127, 0x20) := by decide
/-- An MDRAIN waits while a store of its thread that came before it stands in the store buffer (R128). -/
theorem witness_mdrain_held :
    let s := (after id (exec (.mdrain 5 6 6) ((tiled .empty).thread (fun x => { x with
      stores := [{ seq := 0, cls := .die, die := 0, kind := .plain, writes := [], release := false }], storeSeq := 1 })))).getD State.reset
    (opOf s 1).any (released s) = false ∧ after (fun t => (tileOf (coreOf t 0) 5).state) (exec (.mdrainPerform 1) s) = some .filling := by decide
/-- The last row of an MMA: the tile is READY and the thread goes on. -/
theorem witness_mma_last_row :
    let s := (after id (exec (.mma 5 6 6) ({ tiled .ready with cur := { defer := true } }.core0 (fun c => { c with gens := [(17, 0)] })))).getD State.reset
    (slotOf s 0 0).pend = .mma 5 17 0 0 0 0 ∧ mmaCount 0 = 0 + 1 ∧ (slotOf s 0 0).past = false ∧ (slotOf s 0 0).stores = [] ∧ s.halted = [] ∧
    (mmaOperand s 0 (seatOf s 1 1) 5 0 0).isSome = true ∧ (unitOf s 1).ring = [] ∧
    after (fun t => ((slotOf t 0 0).pend, (slotOf t 0 0).wait.reason, (slotOf t 0 0).pc, (tileOf (coreOf t 0) 5).state)) (exec (.mmaRow 0 0) s) =
      some (.none, .none, 4, .ready) := by decide
theorem witness_mma_row :
    let s := (after id (exec (.mma 5 6 6) ({ (tiled .ready).es [(6, 8)] with cur := { defer := true } }.core0 (fun c => { c with gens := [(17, 0)] })))).getD State.reset
    (slotOf s 0 0).live = true ∧ (slotOf s 0 0).pend = .mma 5 17 8 0 0 0 ∧ seatRefused s 0 17 0 = false ∧ mmaCount 8 = 2 ∧ (mmaOperand s 0 (seatOf s 1 1) 5 0 0).isSome = true ∧
    (seatOf s 1 1).suspended = false ∧ foreignBank (unitOf s 1) (seatOf s 1 1) 0 = false ∧ (unitOf s 1).ring.length < 128 ∧
    after (fun t => ((unitOf t 1).ring.map (fun q => (q.seat, q.row)), (slotOf t 0 0).pend))
      (exec (.suspendedRow 0 0) (setSeat s 1 1 { seatOf s 1 1 with suspended := true })) = some ([(1, 0)], .mma 5 17 8 0 1 0) := by decide
/-! ### Tasks -/

/-- The estate has a spill area of one page at VA 0x1000: a ring of 16 descriptors, then task records. e0 to e5 of a spawn: entry 0x40,
arguments 7 and 8, timestamp 3, width 1, place LOCAL, no plats. Core 0 has a deque of four descriptors. -/
def spawning : State :=
  let s := mapped (wG [])
  let s := setEstate s 0 { estateOf s 0 with dwords := ((List.replicate 32 (0 : Word)).set 10 0x1000).set 11 0x1000 }
  (s.core0 (fun c => { c with dqbase := 0x8000, dqlim := 0x8100 })).es [(0, 0x40), (1, 7), (2, 8), (3, 3), (4, 0), (5, 0)]

theorem witness_spawn :
    keyOk 3 = true ∧ (curSlot spawning).stores = [] ∧ placeRoom spawning 0 0 0 0 1 = true ∧ (taskOf spawning 1).ts = 0 ∧
    after (fun t => ((coreOf t 0).deque.length, (slotOf t 0 0).pc)) (exec (.spawn 3 0) spawning) = some (1, 4) := by decide
theorem witness_spawn_full :
    gAfter 3 (exec (.spawn 3 0) (setEstate spawning 0 { estateOf spawning 0 with dwords := [] })) = some 0x8000000000000001 := by decide
theorem witness_spawn_noplace :
    placeRoom spawning 0 0 3 5 1 = true ∧ placeRoom (setEntry spawning (parcelCore 8) { holder := 2 }) 0 0 3 1 112 = false ∧
    gAfter 3 (exec (.spawn 3 0) ((setEntry spawning (parcelCore 8) { holder := 2 }).es [(3, 0x01036F0000000003)])) = some 0x8000000000000002 := by decide
theorem witness_spawn_traps :
    trapAfter (exec (.spawn 3 0) (spawning.es [(0, 0x41)])) = some (1, 0xF, 0) ∧
    trapAfter (exec (.spawn 3 0) { spawning with cur := { slot := 15 } }) ≠ none ∧
    after (fun t => (slotOf t 0 0).wait.reason) (exec (.spawn 3 0) (spawning.thread (fun x => { x with
      stores := [{ seq := 0, cls := .die, die := 0, kind := .plain, writes := [], release := false }] }))) = some .mem := by decide
theorem witness_spawn_plats :
    let s := { (spawning.es [(4, 0x1100), (5, 1)]) with hbm := memWrite spawning.hbm 0x100100 (0x4000 + 2 ^ 64 * 2 + 2 ^ 96) 16 }
    let s := s.seg 0 { limit := 0x10000, attrs := 0x04 }
    (platsOf (0x4000 + 2 ^ 64 * 2 + 2 ^ 96) 1 0).toOption = some [⟨0x4000, 2, .write⟩] ∧
    after (fun t => (coreOf t 0).deque.length) (exec (.spawn 3 0) s) = some 1 ∧
    trapAfter (exec (.spawn 3 0) { s with hbm := memWrite s.hbm 0x100100 1 16 }) = some (1, 0, 0) := by decide

theorem witness_tdone :
    endHeld (wG []) 0 0 = false ∧ after (fun t => ((slotOf t 0 0).live, (slotOf (past t) 0 0).live, (taskOf (past t) 1).phase)) (exec .tdone (wG [])) = some (true, false, .finished) ∧
    (trapAfter (exec .tdone { live [14] with cur := { slot := 14 } })).map (·.1) = some 1 ∧
    after (fun t => (slotOf t 0 0).wait.reason) (exec .tdone ((wG []).thread (fun x => { x with
      stores := [{ seq := 0, cls := .die, die := 0, kind := .plain, writes := [⟨⟨.hbm 0x100000, 2, some 0⟩, 0, 0⟩], release := false }] }))) = some .mem := by decide
theorem witness_exit :
    after (fun t => ((slotOf t 0 0).live, (slotOf (past t) 0 0).live, mapFind (past t).tasks 1)) (exec .exit (wG [])) = some (true, false, none) ∧
    after (fun t => (slotOf (past t) 0 15).live) (exec .exitShort { live [15] with cur := { slot := 15 } }) = some false := by decide
theorem witness_yield :
    after (fun t => (slotOf t 0 0).pc) (exec .yield (wG [])) = some 4 ∧
    after (fun t => (slotOf t 0 0).wait.reason) (exec .yieldShort ((wG []).thread (fun x => { x with task := 0, request := some ⟨5, 0⟩ }))) =
      some .saved := by decide
/-- The other thread of the crew runs on: the first to yield waits, and nothing else happens. -/
theorem witness_yield_waits :
    let s := (live [0, 1]).thread (fun x => { x with request := some ⟨5, 0⟩ })
    let saved := setCurSlot (endFall 1 s) { curSlot (endFall 1 s) with wait := { reason := .saved } }
    isService 0 0 = false ∧ (curSlot s).request = some ⟨5, 0⟩ ∧ crewRests saved (curSlot s).task = false ∧
    (crewSlots saved (curSlot s).task).map (fun q => (q.1, q.2.1)) = [(0, 0), (0, 1)] ∧
    (entryOf s (parcelCore 0)).state ≠ .reclaiming ∧ (entryOf s (parcelCore 0)).retiring = false ∧
    after (fun t => ((slotOf t 0 0).wait.reason, (slotOf t 0 1).live)) (exec .yield s) = some (.saved, true) := by decide
theorem witness_bar :
    (curSlot (wG [])).task = 1 ∧ inPhase (wG []) 2 = false ∧ (taskOf (wG []) 1).crew = [.running 0 0] ∧ crewSlots (wG []) 1 ≠ [] ∧
    after (fun t => ((slotOf t 0 0).pc, (taskOf (past t) 1).barriers[2]?)) (exec (.bar 2) (wG [])) = some (4, some 1) ∧
    after (fun t => ((slotOf t 0 0).pc, (taskOf (past t) 1).barriers[2]?)) (exec (.barArrive 2) (wG [])) = some (4, some 1) ∧
    after (fun t => (slotOf t 0 0).pc) (exec (.barWait 2) (wG [])) = some 4 := by decide
/-- Two threads of one crew: the first to arrive waits. -/
theorem witness_bar_waits :
    after (fun t => ((slotOf t 0 0).wait.reason, (slotOf t 0 0).barHalf)) (exec (.bar 2) (live [0, 1])) = some (.barrier, true) ∧
    after (fun t => (slotOf t 0 0).wait.reason) (exec (.barWait 2) ((after past (exec (.barArrive 2) (live [0, 1]))).getD State.reset)) = some .barrier ∧
    (trapAfter (exec (.bar 2) ((wG []).thread (fun x => { x with task := 0 })))).map (·.1) = some 1 := by decide

/-- A task with handle 2 waits in the deque of core 0. -/
def spawned : State := setTask (spawning.core0 (fun c => { c with deque := [2] })) 2
  { entry := 0x40, arg0 := 7, arg1 := 8, ts := 3, handle := 2, parent := 1, root := 1 }

theorem witness_task_take :
    clusterOf 0 ∉ spawned.halted ∧ findWork spawned 0 = some 2 ∧
    after (fun t => ((coreOf t 0).shadow, (coreOf t 0).deque, (taskOf t 2).phase)) (exec (.taskTake 0) spawned) =
      some ([2], [], .shadow) := by decide

/-- Then in a shadow slot, and admitted. -/
def shadowed : State := (after id (exec (.taskTake 0) spawned)).getD State.reset
def admitted : State := (after id (exec (.admission 2) shadowed)).getD State.reset

theorem witness_admission :
    (taskOf shadowed 2).phase = .shadow ∧ isAdmitted (taskOf shadowed 2) = false ∧ isAdmitted (taskOf admitted 2) = true ∧
    (taskOf admitted 2).admission = some 0 := by decide
theorem witness_task_start :
    shadowCore admitted 2 = some 0 ∧ startSlots admitted 0 2 = some [(0, 1)] ∧ ([(0, 1)] : List (Nat × Nat)).Nodup ∧
    after (fun t => ((slotOf t 0 1).g[1]?, (slotOf t 0 1).g[4]?, (slotOf t 0 1).pc, (taskOf t 2).phase)) (exec (.taskStart 2) admitted) =
      some (some 7, some 1, 0x40, .running) := by decide
theorem witness_restore :
    let s := setTask admitted 2 { taskOf admitted 2 with phase := .saved }
    startSlots s 0 2 = some [(0, 1)] ∧ (coreOf s 0).shadow.contains 2 = true := by decide
theorem witness_commit :
    let s := (after past (exec .tdone (wG []))).getD State.reset
    mayCommit s (taskOf s 1) = true ∧ (writtenLines s (taskOf s 1)).1 = [] ∧ (writtenLines s (taskOf s 1)).2 = s ∧
    s.outstanding.all (fun o => o.task != 1) = true ∧ after (fun t => mapFind t.tasks 1) (exec (.taskCommit 1) s) = some none := by decide
theorem witness_frontier :
    let s := { spawned with tasks := mapErase spawned.tasks 1 }
    ((frontierTasks s 0).map (·.ts)).min? = some 3 ∧ s.cycle % 64 = 0 ∧
    after (fun t => (partOf t 0).frontier) (exec (.frontierPass 0) { s with cycle := 63 }) = some 0 ∧
    after (fun t => (partOf t 0).frontier) (exec (.frontierPass 0) s) = some 3 := by decide
theorem witness_forced_save :
    let s := (spawning.thread (fun x => { x with request := some ⟨0, 0⟩ }))
    (crewSlots s 1).map (fun q => (q.1, q.2.1)) = [(0, 0)] ∧ coreLeaving s 0 = false ∧ settled s 0 0 = true ∧ clusterOf 0 ∉ s.halted ∧ (curSlot s).pastDeadline s.cycle = true ∧
      (taskOf s 1).phase = .running := by decide
theorem witness_frontier_priority :
    let s := setPart { (after id (exec (.admission 2) (shadowed.core0 (fun c => { c with slots := (List.range 14).map (fun k => (k, { placedThread with task := 9 })) })))).getD State.reset
      with cycle := 5000 } 0 { partOf spawned 0 with frontier := 3, admissions := 1 }
    let s := setTask { s with tasks := mapErase s.tasks 1 } 2 { taskOf s 2 with waiting := some 0, parent := 0, width := 112 }
    shadowCore s 2 = some 0 ∧ (taskOf s 2).phase = .shadow ∧ atFrontier s 2 = true ∧ mayStart s (taskOf s 2) = true ∧
      startSlots s 0 2 = none ∧ 0 + 4096 ≤ s.cycle ∧
      atFrontier (setTask s 2 { taskOf s 2 with phase := .saved }) 2 = true ∧
      startSlots (setTask s 2 { taskOf s 2 with phase := .saved }) 0 2 = none := by decide
/-- The effect of EXIT waits for its writeback point. -/
theorem witness_effects_due :
    let s := (wG []).core0 (fun c => { c with wb := [⟨7, 0, .ends false, none⟩] })
    let t := { s with islands := [(0, { ticks := 8 })] }
    (coreOf s 0).wb = [⟨7, 0, .ends false, none⟩] ∧ (WbAct.ends false).onThread = true ∧ 7 < ticksOf t 0 ∧ ticksOf s 0 ≤ 7 ∧
    (slotOf (flushThreads 0 t) 0 0).live = false ∧ (slotOf (flushThreads 0 s) 0 0).live = true ∧
    (slotOf t 0 0).task ≠ 0 ∧ isService 0 0 = false ∧ isKeeper 0 15 = true ∧ isCourier 0 14 = true := by decide
theorem witness_last_to_arrive :
    let sent := fun (s : State) => addWb (wbPoint s 1) (.arrive 2) s
    lastToArrive (sent (wG [])) 2 = true ∧ lastToArrive (sent (live [0, 1])) 2 = false ∧ (curSlot (wG [])).barHalf = false ∧
    (curSlot (wG [])).task ≠ 0 ∧ (curSlot (wG [])).stores = [] := by decide
/-- The second of two threads arrives: the phase completes. -/
theorem witness_phase_completes :
    let s := setSlot (live [0, 1]) 0 1 { slotOf (live [0, 1]) 0 1 with arrived := (slotOf (live [0, 1]) 0 1).arrived.setIfInBounds 2 (some 0) }
    (taskOf s 1).crew.all (· != .saved) = true ∧ crewSlots s 1 ≠ [] ∧ (taskOf s 1).barriers[2]? = some 0 ∧
    (taskOf (applyThread 0 s ⟨7, 0, .arrive 2, none⟩) 1).barriers[2]? = some 1 := by decide
theorem witness_forced_save_principal :
    let s := spawning.thread (fun x => { x with request := some ⟨0, 2⟩ })
    (crewSlots s 1).any (fun q => q.2.2.request.any (·.source == 2)) = true ∧ committing s 0 = false ∧ (curSlot s).pastDeadline s.cycle = true := by decide
/-! ### The Cadastre -/

/-- g5 names parcel p, g6 holds b; estate 2 exists in the same partition; parcel p has an entry. -/
def cad (p : Nat) (x : Entry) (b : Word) : State :=
  setEstate (setEntry (mapped (wG [(5, BitVec.ofNat 64 p), (6, b)])) p x) 2 {}

/-- The status in g3, and the entry of parcel p. -/
def cadAfter (p : Nat) (o : Host.Outcome State Fault Refusal) : Option (Nat × Entry) :=
  after (fun t => (((slotOf t 0 0).g[3]?.getD 0).toNat, entryOf t p)) o

theorem witness_cad_ready : CadReady (cad (parcelFrame 9) {} 2) (parcelFrame 9) ∧ estateExists (cad (parcelFrame 9) {} 2) 2 = true ∧
    unofferable (cad (parcelFrame 9) {} 2) (parcelFrame 9) = false ∧ CadReady (cad 3 {} 2) 3 := by
  refine ⟨⟨by decide, by decide, by decide, by decide, by decide⟩, by decide, by decide, ⟨by decide, by decide, by decide, by decide, by decide⟩⟩
theorem witness_give :
    cadAfter (parcelFrame 9) (exec (.give 3 5 6) (cad (parcelFrame 9) {} 2)) = some (1, { state := .offeredGive, target := some 2 }) ∧
    cadAfter (parcelFrame 9) (exec (.giveWipe 3 5 6) (cad (parcelFrame 9) {} 2)) = some (1, { state := .offeredGive, target := some 2, wipe := true }) ∧
    cadAfter (parcelFrame 9) (exec (.give 3 5 6) (cad (parcelFrame 9) { state := .offeredLoan } 2)) = some (6, { state := .offeredLoan }) ∧
    cadAfter (parcelFrame 9) (exec (.giveWipe 3 5 6) (cad (parcelFrame 9) { state := .offeredLoan } 2)) = some (6, { state := .offeredLoan }) := by decide
theorem witness_give_traps :
    (trapAfter (exec (.give 3 5 6) (cad (parcelFrame 9) { holder := 2 } 2))).map (·.1) = some 8 ∧
    (trapAfter (exec (.give 3 5 6) (cad (parcelFrame 9) {} 0))).map (·.1) = some 9 := by decide
theorem witness_lend :
    cadAfter (parcelFrame 9) (exec (.lend 3 5 6 8) ((cad (parcelFrame 9) {} 2).es [(8, 3600)])) =
      some (1, { state := .offeredLoan, target := some 2, term := 3600 }) := by decide
theorem witness_accept :
    let p := parcelSeat 9
    let s := cad p { state := .offeredGive, target := some 0, holder := 2 } 0
    leaveReady (beginLeave (setEntry s p { entryOf s p with leaving := some 2 }) p 2) p 2 = true ∧
    cadAfter p (exec (.accept 3 5) s) = some (0, { outcome := 1, gen := 1 }) ∧
    after (fun t => (slotOf t 0 0).wait.reason) (exec (.accept 3 5) (cad p { state := .offeredGive, target := some 0, holder := 2, wipe := true } 0)) =
      some .reclaim ∧
    after (fun t => (entryOf t p).after) (exec (.accept 3 5) (cad p { state := .offeredLoan, target := some 0, holder := 2, term := 3600 } 0)) =
      some .loan ∧
    cadAfter p (exec (.accept 3 5) (cad p {} 0)) = some (5, {}) := by decide
theorem witness_decline :
    cadAfter (parcelFrame 9) (exec (.decline 3 5) (cad (parcelFrame 9) { state := .offeredGive, target := some 0, holder := 2 } 0)) =
      some (0, { outcome := 2, holder := 2 }) ∧
    cadAfter (parcelFrame 9) (exec (.decline 3 5) (cad (parcelFrame 9) {} 0)) = some (5, {}) := by decide
theorem witness_withdraw :
    cadAfter (parcelFrame 9) (exec (.withdraw 3 5) (cad (parcelFrame 9) { state := .offeredGive, target := some 2 } 0)) = some (0, { outcome := 3 }) ∧
    cadAfter (parcelFrame 9) (exec (.withdraw 3 5) (cad (parcelFrame 9) { outcome := 2 } 0)) = some (4, {}) ∧
    cadAfter (parcelFrame 9) (exec (.withdraw 3 5) (cad (parcelFrame 9) { holder := 2 } 0)) = some (5, { holder := 2 }) := by decide
theorem witness_return :
    after (fun t => ((slotOf t 0 0).wait.reason, (entryOf t (parcelSeat 9)).state))
      (exec (.cadReturn 3 5) (cad (parcelSeat 9) { state := .onLoan, occupant := some 0, holder := 2, lender := some 2 } 0)) =
      some (.reclaim, .scrubbing) ∧
    (cadAfter (parcelSeat 9) (exec (.cadReturn 3 5) (cad (parcelSeat 9) {} 0))).map (·.1) = some 2 := by decide
theorem witness_reclaim :
    let p := parcelFrame 9
    let loan : Entry := { state := .onLoan, occupant := some 2, lender := some 0, deadline := 10 }
    (cadAfter p (exec (.reclaim 3 5) (cad p {} 0))).map (·.1) = some 0 ∧ (cadAfter p (exec (.reclaim 3 5) (cad p loan 0))).map (·.1) = some 2 ∧
    (cadAfter p (exec (.reclaim 3 5) { cad p loan 0 with cycle := 10 })).map (fun r => (r.1, r.2.state)) = some (3, .reclaiming) ∧
    after (fun t => (slotOf t 0 0).wait.reason) (exec (.reclaimWait 3 5) { cad p loan 0 with cycle := 10 }) = some .reclaim ∧
    (cadAfter p (exec (.reclaim 3 5) (cad p { loan with state := .reclaiming } 0))).map (·.1) = some 3 ∧
    (cadAfter p (exec (.reclaim 3 5) (cad p { state := .offeredGive, target := some 2 } 0))).map (·.1) = some 6 ∧
    (trapAfter (exec (.reclaim 3 5) (cad p { holder := 2 } 0))).map (·.1) = some 8 := by decide
theorem witness_notice_expiry :
    let p := parcelSeat 9
    let s := { cad p { state := .reclaiming, occupant := some 2, lender := some 0, deadline := 10 } 0 with cycle := 10 }
    (entryOf s p).state = .reclaiming ∧ (entryOf s p).deadline ≤ s.cycle ∧
    after (fun t => (entryOf t p).state) (exec (.noticeExpiry p) s) = some .scrubbing := by decide
theorem witness_scrub :
    let p := parcelFrame 9
    let s := setEntry { cad p {} 0 with hbm := [(2097152 * 9, 5), (2097152 * 10, 6)] } p { state := .scrubbing, gen := 4 }
    after (fun t => (t.hbm, entryOf t p)) (exec (.scrubComplete p) s) = some ([(2097152 * 10, 6)], { gen := 5 }) := by decide
theorem witness_scrub_gift :
    let p := parcelSeat 9
    let s := cad p { state := .offeredGive, target := some 2, leaving := some 0 } 0
    leaveReady s p 0 = true ∧ after (fun t => (entryOf t p).holder) (exec (.scrubComplete p) s) = some 2 := by decide

/-- An image at VA 0x1000 through sg0: notice 3,600, the rest 0; g5 names ESTATE parcel 3. -/
def image (inuse : Bool) : State :=
  let s := (cad 3 { inuse := inuse } 0).seg 0 { limit := 0x10000, attrs := 0x04 }
  { (s.es [(8, 0x1000), (9, 0), (10, 0), (11, 0)]) with hbm := memWrite s.hbm 0x100008 3600 8 }

theorem witness_charter :
    imageOk ((cutBits 64 (3600 * 2 ^ 64) 32).map (BitVec.ofNat 64)) = true ∧
    after (fun t => (((slotOf t 0 0).g[3]?), (entryOf t 3).inuse, (estateOf t 3).notice, (estateOf t 3).guarantor)) (exec (.charter 3 5 8) (image false)) =
      some (some 0, true, 3600, 0) ∧
    after (fun t => (((slotOf t 0 0).g[3]?), (estateOf t 3).notice)) (exec (.charter 3 5 8) (setEstate (image true) 3 {})) = some (some 0, 3600) := by decide
theorem witness_charter_traps :
    (trapAfter (exec (.charter 3 5 8) ((image false).es [(11, 1)]))).map (fun r => (r.1, r.2.1)) = some (9, 3 + 4 * 2 ^ 32) := by decide
theorem witness_muster :
    let s := (setEstate (cad 3 { inuse := true } 0) 3 {}).es [(8, 3600)]
    guarantees s 0 3 = true ∧ (estateOf s 3).muster ≠ 1 ∧
    after (fun t => ((slotOf t 0 0).g[3]?, (estateOf t 3).muster, (estateOf t 3).musterDeadline)) (exec (.muster 3 5 8) s) = some (some 0, 1, 3600) ∧
    gAfter 3 (exec (.muster 3 5 8) (setEstate s 3 { muster := 1 })) = some 6 := by decide
theorem witness_escheat :
    let s := setEstate (cad 3 { inuse := true } 0) 3 { muster := 1, musterDeadline := 0 }
    after (fun t => ((slotOf t 0 0).g[3]?, mapFind t.estates 3, (entryOf t 3).inuse)) (exec (.escheat 3 5) s) = some (some 0, none, false) ∧
    gAfter 3 (exec (.escheat 3 5) (setEstate s 3 { muster := 2 })) = some 2 := by decide
theorem witness_answer :
    let s := cad 3 {} 0
    mayBeFirm s 1 = true ∧
    after (fun t => ((slotOf t 0 0).g[3]?, (estateOf t 0).muster)) (exec (.answer 3) (setEstate s 0 { estateOf s 0 with muster := 1 })) = some (some 0, 2) ∧
    gAfter 3 (exec (.answer 3) s) = some 5 := by decide
/-- R167: HOLDER in bits 13:0, STATE in bits 58:56, the target in bits 41:28 with its flag in bit 59. -/
theorem test_survey :
    after (fun t => ((slotOf t 0 0).g[3]?, (slotOf t 0 0).e[8]?)) (exec (.survey 3 5 8) (cad (parcelFrame 9) { state := .offeredGive, target := some 2, holder := 5 } 0)) =
      some (some 0, some (BitVec.ofNat 64 (2 ^ 59 + 2 ^ 56 + 2 * 2 ^ 28 + 5))) := by decide
theorem witness_ease :
    let p := parcelFrame 9
    let s := (cad p {} 2).es [(8, 2), (9, 3)]
    easable s 0 p = true ∧ easable s 0 (p + 1) = true ∧ (3 : Nat) &&& easeRights 4 = 3 ∧ s.easements.length < 4096 ∧
    after (fun t => ((slotOf t 0 0).g[3]?, t.easements)) (exec (.ease 3 5 6 8) s) = some (some 0, [⟨0, 2, p, 2, 3⟩]) ∧
    after (fun t => ((slotOf t 0 0).g[3]?, t.easements)) (exec (.ease 3 5 6 8) { s.es [(9, 0x8000000000000000)] with easements := [⟨0, 2, p, 2, 3⟩] }) =
      some (some 0, []) ∧
    gAfter 3 (exec (.ease 3 5 6 8) (s.es [(9, 0x8000000000000000)])) = some 5 := by decide
theorem witness_ease_full :
    ({ cad (parcelFrame 9) {} 2 with easements := List.replicate 4096 ⟨0, 3, parcelFrame 9, 1, 1⟩ } : State).easements.length = 4096 := by
  rw [List.length_replicate]
/-- What the leaver has in flight keeps a transfer back: a queue's command in progress. -/
theorem witness_scrub_waits :
    let p := parcelQueue 0
    let s := cad p { state := .scrubbing, leaving := some 0 } 0
    leaveReady { s with queues := [(0, { busy := some 5 })] } p 0 = false ∧ leaveReady s p 0 = true ∧
    after (fun t => (entryOf t p).state) (exec (.scrubComplete p) { s with queues := [(0, { busy := some 5 })] }) = some .scrubbing ∧
    after (fun t => ((entryOf t p).state, (entryOf t p).leaving)) (exec (.scrubComplete p) s) = some (.scrubbing, none) := by decide
theorem witness_retiring :
    let p := parcelSeat 9
    let s := { cad p { retiring := true, deadline := 10 } 0 with cycle := 10 }
    (entryOf s p).retiring = true ∧ (entryOf s p).deadline ≤ s.cycle ∧
    after (fun t => ((entryOf t p).state, (entryOf t p).after)) (exec (.noticeExpiry p) s) = some (.scrubbing, .retire) := by decide
theorem witness_reclaim_scrubbing :
    let p := parcelFrame 9
    let s := cad p { state := .scrubbing } 0
    gAfter 3 (exec (.reclaim 3 5) s) = some 6 ∧ after (fun t => (slotOf t 0 0).wait.reason) (exec (.reclaimWait 3 5) s) = some .reclaim ∧
    after (fun t => (slotOf t 0 0).wait.reason) (exec (.reclaimWait 3 5) (cad p { state := .reclaiming } 0)) = some .reclaim ∧
    gAfter 3 (exec (.reclaimWait 3 5) (cad p { state := .offeredGive, target := some 2 } 0)) = some 6 := by decide
/-- The dissolved estate still leaves a frame of its own: ESCHEAT waits. -/
theorem witness_escheat_waits :
    let s := setEntry (setEstate (cad 3 { inuse := true } 0) 3 { muster := 1, musterDeadline := 0 }) (parcelFrame 9) { holder := 3 }
    dissolving (dissolve s (subtree s [3] s.estates.length) 0) = true ∧
    after (fun t => (slotOf t 0 0).wait.reason) (exec (.escheat 3 5) s) = some .reclaim := by decide
/-- The work of another estate on core 8: one thread of task 9; the estate's spill area has no page. -/
def working (p : Nat) (x : Entry) : State :=
  setSlot (setTask (setEstate (cad p x 0) 2 { dwords := ((List.replicate 32 (0 : Word)).set 10 0x5000).set 11 0x1000 }) 9 { estate := 2, handle := 9, phase := .running, crew := [.running 8 0], core := 8, ts := 0 }) 8 0
    { placedThread with estate := 2, task := 9 }

theorem witness_accept_waits :
    let q := parcelQueue 0
    let s := cad q { state := .offeredGive, target := some 0, holder := 2 } 0
    let s := { s with queues := [(0, { busy := some 5 })] }
    leaveReady (beginLeave (setEntry s q { entryOf s q with leaving := some 2 }) q 2) q 2 = false ∧
    after (fun t => ((slotOf t 0 0).wait.reason, (entryOf t q).holder)) (exec (.accept 3 5) s) = some (.reclaim, 2) := by decide
/-- A crew that cannot be saved parks first: it is still there. -/
theorem witness_accept_work_left :
    let p := parcelCore 8
    let s := working p { state := .offeredGive, target := some 0, holder := 2 }
    let s2 := beginLeave (setEntry s p { entryOf s p with leaving := some 2 }) p 2
    leaveReady s2 p 2 = true ∧ workLeft (leaveWork s2 p) p = true ∧ s2.cur.defer = false ∧
    after (fun t => ((slotOf t 0 0).wait.reason, (slotOf t 8 0).wait.reason)) (exec (.accept 3 5) s) = some (.reclaim, .parked) := by decide
theorem witness_scrub_work_left :
    let p := parcelCore 8
    let s := working p { state := .scrubbing, holder := 2, leaving := some 2 }
    leaveReady s p 2 = true ∧ leaveReady (returnStatus 8 s) p 2 = true ∧ workLeft (leaveWork (returnStatus 8 s) p) p = true ∧
    after (fun t => ((entryOf t p).leaving, (slotOf t 8 0).wait.reason)) (exec (.scrubComplete p) s) = some (some 2, .parked) := by decide
/-- The status of a RETURN of the own core goes to a c register: the save waits for its writeback point. -/
theorem witness_scrub_status_first :
    let p := parcelCore 8
    let s := working p { state := .scrubbing, holder := 2, leaving := some 2 }
    let s := setSlot s 8 0 { slotOf s 8 0 with wait := { reason := .reclaim, sent := true }, pend := .cad 17 p none 0 [] false }
    leaveReady s p 2 = true ∧ leaveReady (returnStatus 8 s) p 2 = false ∧
    after (fun t => ((slotOf t 8 0).live, (coreOf t 8).wb.length)) (exec (.scrubComplete p) s) = some (true, 1) := by decide
/-- The host still holds a line of the frame. -/
theorem witness_scrub_not_ready :
    let p := parcelFrame 9
    let s := { cad p { state := .scrubbing } 0 with hostHeld := [2097152 * 9 / 64] }
    scrubReady s p = false ∧ scrubReady { s with hostHeld := [] } p = true ∧
    after (fun t => (entryOf t p).state) (exec (.scrubComplete p) s) = some .scrubbing := by decide
theorem witness_escheat_commits :
    let s := setEstate (cad 3 { inuse := true } 0) 3 { muster := 1, musterDeadline := 0 }
    let t := setTask s 9 { estate := 3, handle := 9, phase := .finished, sent := [0x4000] }
    estatesCommit s [3] = false ∧ estatesCommit t [3] = true ∧
    after (fun t => ((slotOf t 0 0).wait.reason, (slotOf t 0 0).wait.sent, (mapFind t.estates 3).isSome)) (exec (.escheat 3 5) t) =
      some (.mem, false, true) := by decide
/-- An access that the grant admitted is still on its way: REVOKE waits for it. -/
theorem witness_revoke_waits :
    let p := parcelFrame 9
    let s := { (cad p {} 2).es [(8, 2), (9, 0x8000000000000000)] with easements := [⟨0, 0, p, 2, 3⟩] }
    let s := setSlot s 1 0 { placedThread with pend := .load false [⟨.remote 0 (2097152 * 9), 8, none⟩] (.g 3 .s64), wait := { reason := .remote, sent := true } }
    easedOut s = false ∧ easedOut { s with easements := [] } = true ∧ easedOut { cad p {} 2 with easements := [] } = false ∧
    after (fun t => ((slotOf t 0 0).wait.reason, (slotOf t 0 0).wait.sent, t.easements)) (exec (.ease 3 5 6 8) (s.thread (fun x => { x with g := x.g.set 6 0 }))) =
      some (.mem, true, []) := by decide
/-! ### Paging and segments -/

/-- g5 is a VA and e8, e9 the two dwords of an entry: an OPEN page of HBM at PA 0x200000, in another frame than the tables, with R and W. -/
def paging (va : Word) : State := (mapped (wG [(5, va)])).es [(8, 0x200017), (9, 0)]

theorem witness_mapf :
    let s := paging 0x5000
    mapPlan s 0 0x5000 0x200017 0 = .leaf [0x6050] ∧ s.cur.defer = false ∧ mayBeFirm s 1 = true ∧
    after (fun t => ((slotOf t 0 0).g[3]?, memRead t.hbm 0x6050 8)) (exec (.mapf 3 5 8) s) = some (some 0, 0x200017) := by decide
theorem witness_ports_quiet : ∀ p, p < 128 → portBusy (paging 0x5000) p = false := by decide
theorem witness_mapf_statuses :
    gAfter 3 (exec (.mapf 3 5 8) ((paging 0x5000).es [(8, 0x200016)])) = some 4 ∧
    gAfter 3 (exec (.mapf 3 5 8) (paging 0x8000000000)) = some 1 ∧
    gAfter 3 (exec (.mapf 3 5 8) (setEntry (paging 0x5000) (parcelFrame 1) { holder := 2 })) = some 2 ∧
    gAfter 3 (exec (.mapf 3 5 8) ((paging 0x5000).es [(8, 0x102017)])) = some 3 ∧
    gAfter 3 (exec (.mapf 3 5 8) ((paging 0x5000).es [(8, 0x2217)])) = some 4 := by decide
theorem witness_mapf_table :
    mapPlan { paging 0 with hbm := [] } 0 0 0x602601 0 = .table 0 0x602000 := by decide
theorem witness_zero_table :
    let s := { paging 0 with hbmPoison := [0x18080] }
    0x602000 % 64 = 0 ∧ Memory.wf s.hbm = true ∧ (zeroTable s 0x602000).hbmPoison = [] := by decide
theorem witness_unmap :
    let s := paging 0x1000
    (pathOf s 0 0x1000).getLast? = some (4, 0x6010, 0x100017, 0) ∧
    after (fun t => ((slotOf t 0 0).g[3]?, memRead t.hbm 0x6010 8)) (exec (.unmap 3 5) s) = some (some 0, 0) ∧
    gAfter 3 (exec (.unmap 3 5) (paging 0x8000000000)) = some 1 ∧ gAfter 3 (exec (.unmap 3 5) (paging 0x1000000000000)) = some 4 := by decide

/-- A 64 KiB page at VA 0x20000: sixteen entries. -/
theorem witness_mapf_64k :
    let s := (paging 0x20000).es [(8, 0x200217), (9, 0)]
    let es := (List.range 16).map (fun i => 0x6200 / 256 * 256 + 16 * i)
    mapPlan s 0 0x20000 0x200217 0 = .leaf es ∧ pteSize 0x200217 = 1 ∧
    after (fun t => ((slotOf t 0 0).g[3]?, memRead t.hbm 0x6200 8, memRead t.hbm 0x62F0 8)) (exec (.mapf 3 5 8) s) =
      some (some 0, 0x200217, 0x200217) ∧
    (let t := { s with hbm := es.foldl (fun m e => memWrite m e 0x200217 16) s.hbm }
     (pathOf t 0 0x20000).getLast? = some (4, 0x6200, 0x200217, 0) ∧ Memory.wf t.hbm = true ∧ t.hbmPoison = [] ∧ t.lostLines = [] ∧ t.hostHeld = [] ∧
     after (fun t => ((slotOf t 0 0).g[3]?, memRead t.hbm 0x6200 8, memRead t.hbm 0x62F0 8)) (exec (.unmap 3 5) t) = some (some 0, 0, 0)) := by decide

/-- The thread has a page fault outstanding with token 7. -/
def faulting : State := { paging 7 with faults := [{ estate := 0, token := 7, entry := 0, level := 4, va := 0x5000, kind := 0, thread := 0, time := 0, file := false, recorded := true }] }

theorem witness_wake :
    after (fun t => (t.faults.length, (past t).faults)) (exec (.wake 5) faulting) = some (1, []) ∧ after (fun t => (past t).faults.length) (exec (.wake 6) faulting) = some 1 := by decide
theorem witness_wake_fail :
    let s := setSlot faulting 0 1 { placedThread with wait := { reason := .page, peer := 7 } }
    s.faults.any (fun f => f.estate == curEstate s && f.token == 7) = true ∧ s.ops = [] ∧
    (joined s 0 7).map (fun q => (q.1, q.2.1)) = [(0, 1)] ∧ after (fun t => (slotOf (past t) 0 1).wait.reason) (exec (.wakeFail 5) s) = some .parked ∧ after (fun t => (past t).faults) (exec (.wakeFail 5) s) = some [] := by decide
theorem witness_segw :
    attrsOk 0x0C = true ∧ attrsOk 0x20 = false ∧
    after (fun t => (slotOf t 0 0).sg[4]?) (exec (.segw 4 8) ((wG []).es [(8, 0x1000), (9, 0x2000), (10, 0x0C)])) =
      some (some { base := 0x1000, limit := 0x2000, attrs := 0x0C }) ∧
    trapAfter (exec (.segw 4 8) ((wG []).es [(10, 0x20)])) ≠ none := by decide
theorem test_segr : after (fun t => ((slotOf t 0 0).e[8]?, (slotOf t 0 0).e[9]?, (slotOf t 0 0).e[10]?)) (exec (.segr 8 7) (wG [])) =
    some (some 0, some 0x1000, some 0x16) := by decide
theorem witness_shootdown :
    let s := { (wG []).thread (fun x => { x with pend := .shoot 3 0, wait := { reason := .mem } }) with
      shootdowns := [{ port := 5, line := 0x181, core := 0, slot := 0 }], tlbs := [(5, [])] }
    portBusy s 5 = false ∧ after (fun t => ((slotOf t 0 0).wait.reason, (slotOf t 0 0).pc, t.shootdowns)) (exec (.shootdownInvalidate 5) s) =
      some (.none, 4, []) ∧
    after (fun t => ((slotOf t 0 0).wait.reason, t.shootdowns.length)) (exec (.shootdownInvalidate 5) { s with
      shootdowns := s.shootdowns ++ [{ port := 6, line := 0x181, core := 0, slot := 0 }] }) = some (.mem, 1) := by decide
/-! ### System instructions and the keeper -/

theorem witness_rds :
    gAfter 3 (exec (.rds 3 0x03) { wG [] with cycle := 77 }) = some 77 ∧ gAfter 3 (exec (.rds 3 0x08) (wG [])) = some 0x100000000 ∧
    gAfter 3 (exec (.rds 3 0x0D) (wG [])) = some 0x8000000000 ∧
    (trapAfter (exec (.rds 3 0x0E) (wG []))).map (·.1) = some 1 ∧ (trapAfter (exec (.rds 3 0x13) (wG []))).map (·.1) = some 1 := by decide
theorem witness_wrs :
    let w := fun (n : BitVec 8) (v : Word) => exec (.wrs n 5) (wG [(5, v)])
    frmOk 0x100 = true ∧ fflagsOk 3 = true ∧ after (fun t => (slotOf t 0 0).frm) (w 0x05 0x100) = some 0x100 ∧
    after (fun t => (slotOf t 0 0).fflags) (w 0x06 3) = some 3 ∧ after (fun t => (slotOf t 0 0).wdog) (w 0x08 9) = some 9 ∧
    after (fun t => (slotOf t 0 0).uih) (w 0x0B 0x40) = some 0x40 ∧ after (fun t => (slotOf t 0 0).uiret) (w 0x0C 0x42) = some 0x42 ∧
    after (fun t => (slotOf t 0 0).uiex) (w 0x0F 5) = some 5 ∧ after (fun t => (slotOf t 0 0).lc[1]?) (w 0x11 6) = some (some 6) ∧
    after (fun t => (coreOf t 0).wb.map (·.act)) (w 0x0D 7) = some [.win 7] ∧
    after (fun t => (coreOf t 0).wb.map (·.act)) (w 0x09 0) = some [.dqbase 0] ∧
    after (fun t => (coreOf t 0).wb.map (·.act)) (w 0x0A 0x100) = some [.dqlim 0x100] := by decide
theorem witness_wrs_traps :
    let w := fun (n : BitVec 8) (v : Word) => (trapAfter (exec (.wrs n 5) (wG [(5, v)]))).map (·.1)
    w 0x03 0 = some 1 ∧ w 0x05 0x800000000000 = some 1 ∧ frmOk 0x800000000000 = false ∧ w 0x06 0x80 = some 1 ∧ fflagsOk 0x80 = false ∧ w 0x0B 1 = some 1 ∧
    w 0x0D 0x10000000000 = some 1 ∧ w 0x0A 0x20 = some 1 ∧ w 0x0A 0x40000 = some 1 := by decide
theorem test_trap : trapAfter (exec (.trap 0x2A) (wG [])) = some (0x10, 0x2A, 0) := by decide

theorem witness_sysc :
    let s := (wG [(1, 0x77)]).es [(0, 5)]
    bits (eval s 0) 36 28 = 0 ∧ ends (syscArgs (eval s 0) (List.range 6)) s [0x77, 0, 0, 0, 0, 0] s = true ∧
    after (fun t => ((slotOf t 0 0).wait.reason, (partOf t 0).service.length)) (exec (.sysc 3 0) s) = some (.sysc, 1) ∧
    (trapAfter (exec (.sysc 3 0) (s.es [(0, 0x1000000000)]))).map (·.1) = some 1 := by decide
theorem witness_uint :
    let s := setSlot (wG [(5, 1), (6, 0x99)]) 0 1 placedThread
    after (fun t => ((slotOf t 0 1).posted, (slotOf (past t) 0 1).posted, (slotOf t 0 0).pc)) (exec (.uint 5 6) s) = some (none, some 0x99, 4) ∧
    (trapAfter (exec (.uint 5 6) (wG [(5, 16384)]))).map (·.1) = some 1 := by decide
theorem witness_notify :
    let s := wG [(5, 2), (6, 0x99)]
    (partOf s 0).msix = true ∧ 2 ∉ (partOf s 0).masked ∧
    after (fun t => ((partOf t 0).msiSent, mapFind (partOf t 0).mailbox 2)) (exec (.notify 5 6) s) = some ([2], some 0x99) ∧
    after (fun t => ((partOf t 0).msiSent, (partOf t 0).msiPending)) (exec (.notify 5 6) (setPart s 0 { partOf s 0 with masked := [2] })) =
      some ([], [2]) ∧
    (trapAfter (exec (.notify 5 6) (wG [(5, 64)]))).map (·.1) = some 1 := by decide

/-- The keeper of core 0 runs beside slot 0 parked for TRAP 1: g1 of the keeper names slot 0, g2 holds a selector, g3 a value. -/
def keeping (sel v : Word) : State :=
  let s := ((live [0, 15]).core0 (fun c => { c with keeperQueue := [(0, { code := 0x10, long := true })] }))
  let s := setSlot s 0 0 { slotOf s 0 0 with wait := { reason := .parked }, g := (slotOf s 0 0).g.set 7 0x55, pc := 8 }
  { (setSlot s 0 15 { slotOf s 0 15 with task := 0, g := ((slotOf s 0 15).g.set 2 sel).set 3 v }) with cur := { slot := 15 } }

theorem witness_kread :
    isKeeper 0 15 = true ∧ isParked (slotOf (keeping 7 0) 0 0) = true ∧ selected (curCore (keeping 7 0)) 0 (slotOf (keeping 7 0) 0 0) 7 = some 0x55 ∧
    after (fun t => (slotOf t 0 15).g[4]?) (exec (.kread 4 1 2) (keeping 7 0)) = some (some 0x55) ∧
    after (fun t => (slotOf t 0 15).g[4]?) (exec (.kread 4 1 2) (setSlot (keeping 7 0) 0 0 placedThread)) = some (some 0) ∧
    selected (curCore (keeping 7 0)) 0 (slotOf (keeping 7 0) 0 0) 0xFFFF = none := by decide
theorem witness_kwrite :
    writableAs 7 0x66 = true ∧ after (fun t => (slotOf t 0 0).g[7]?) (exec (.kwrite 3 1 2) (keeping 7 0x66)) = some (some 0x66) ∧
    after (fun t => (slotOf t 0 0).g[7]?) (exec (.kwrite 3 1 2) (setSlot (keeping 7 0x66) 0 0 placedThread)) = some (some 0) := by decide
theorem witness_kwrite_exit :
    writableAs 0x108 1 = true ∧ after (fun t => (slotOf t 0 0).live) (exec (.kwrite 3 1 2) (keeping 0x108 1)) = some false := by decide
theorem witness_kret :
    queuedRecord (coreOf (keeping 0 0) 0) 0 = some { code := 0x10, long := true } ∧
    after (fun t => ((slotOf t 0 0).pc, (slotOf t 0 0).wait.reason, (coreOf t 0).keeperQueue)) (exec (.kret 1) (keeping 0 0)) = some (8, .none, []) ∧
    after (fun t => (slotOf t 0 0).pc) (exec (.kretSkip 1) (keeping 0 0)) = some 12 ∧
    after (fun t => (slotOf t 0 0).pc) (exec (.kretPc 1 3) (keeping 0 0x40)) = some 0x40 := by decide
theorem witness_keeper_only : (trapAfter (exec (.kret 1) (wG []))).map (·.1) = some 1 ∧ (trapAfter (exec (.kread 4 1 2) (wG []))).map (·.1) = some 1 := by decide
theorem witness_state_register_outside :
    (0x12 : Nat) < (0x13 : BitVec 8).toNat ∧ (trapAfter (exec (.rds 3 0x13) { live [15] with cur := { slot := 15 } })).map (·.1) = some 0x17 ∧
    (trapAfter (exec (.rds 3 0x0E) (wG []))).map (·.1) = some 1 := by decide
/-! ### Messages and the events of threads -/

/-- g5 names core 1 of this package, g6 handler 4 with one argument, in e8. -/
def sending : State := (mapped (wG [(5, 1), (6, 0x104)])).es [(8, 0xAB)]

theorem witness_amsg :
    let s := sending
    bits (gval s 5) 28 36 = 0 ∧ bits (gval s 6) 8 3 = 1 ∧ mayBeFirm s 1 = true ∧ (curSlot s).stores = [] ∧
    after (fun t => ((slotOf t 0 0).g[3]?, (coreOf t 1).ring.map (fun r => (r.handler, r.args, r.off, r.bytes)))) (exec (.amsg 3 5 6 8) s) =
      some (some 0, [(4, [0xAB], 0x3C000, 32)]) ∧
    after (fun t => ((slotOf t 0 0).wait.reason, (coreOf t 1).ring.length)) (exec (.amsgR 3 5 6 8) s) = some (.amsg, 1) := by decide
theorem witness_amsg_refused :
    gAfter 3 (exec (.amsg 3 5 6 8) (setEntry sending (parcelCore 1) { state := .scrubbing })) = some 2 ∧
    (let full := setCore sending 1 { ring := [⟨0x3C000, 16384, 4, [], 0, 0, 0, 0, false⟩] }
     gAfter 3 (exec (.amsg 3 5 6 8) full) = some 6 ∧ gAfter 3 (exec (.amsgR 3 5 6 8) full) = some 6) := by decide
theorem witness_amsg_remote :
    let s := sending.thread (fun x => { x with g := x.g.set 5 (1 + 3 * 16384) })
    full1024 s 3 = false ∧ fabricName s (curEstate s) = 0 ∧ after (fun t => (t.outbox, (slotOf t 0 0).wait.reason)) (exec (.amsg 3 5 6 8) s) =
      some ([(3, .amsg 0 0 1 0 4 [0xAB] false)], .amsg) := by decide
theorem witness_deliver :
    (entryOf sending (parcelCore 1)).state = .held ∧ coreEstate sending 1 = some 0 ∧ ringFree (coreOf sending 1) = 16384 ∧ recordBytes 4 = 48 := by decide
theorem witness_amret :
    let r : RingRec := ⟨0x3C000, 32, 4, [0xAB], 0, 0, 0, 0, true⟩
    let s := (live [0, 14]).core0 (fun c => { c with ring := [r] })
    let s := setSlot s 0 0 { slotOf s 0 0 with wait := { reason := .amsg, sent := true, peer := 0 }, pend := .amsg 3 8 true 0 }
    let s := { (setSlot s 0 14 { slotOf s 0 14 with task := 0, handling := some r, g := (slotOf s 0 14).g.set 5 0x99 }) with cur := { slot := 14 } }
    isCourier 0 14 = true ∧ (curSlot s).handling = some r ∧
    after (fun t => ((slotOf (past t) 0 14).live, (coreOf (past t) 0).ring, (slotOf (past t) 0 0).g[3]?, (slotOf (past t) 0 0).e[8]?)) (exec (.amret 5) s) =
      some (false, [], some 0, some 0x99) ∧
    (trapAfter (exec (.amret 5) (wG []))).map (·.1) = some 1 := by decide
theorem witness_amsg_arrive :
    let s := setEntry (wG []) (parcelCore 1) {}
    storedAnswer s 3 9 = none ∧
    after (fun t => (t.outbox, t.replies)) (exec (.amsgArrive 1 3 5 17 9 4 [] false) s) = some ([(3, .answer 17 .gate)], [(3, 9, .answer 17 .gate)]) ∧
    after (fun t => ((coreOf t 1).ring.length, t.outbox)) (exec (.amsgArrive 1 3 5 17 9 4 [] false) { s with
      easements := [⟨0, 3 * 16384 + 5, parcelCore 1, 1, 8⟩] }) = some (1, [(3, .answer 17 .accepted)]) ∧
    after (fun t => ((coreOf t 1).ring.length, t.outbox)) (exec (.amsgArrive 1 3 5 17 9 4 [] false) { s with
      replies := [(3, 9, .answer 17 .accepted)] }) = some (0, [(3, .answer 17 .accepted)]) := by decide
/-- A message behind the last 1,024 of its source is dropped. -/
theorem witness_amsg_behind :
    let s := { wG [] with replies := List.replicate 1024 (3, 100, .answer 17 .accepted) }
    storedAnswer s 3 50 = none ∧ behindWindow s 3 50 = true ∧ behindWindow s 3 101 = false := by decide +kernel
/-- The courier table stands at VA 0x1000; the entry of handler 4 is 0x80. -/
theorem witness_courier :
    let s := sending
    let s := setEstate s 0 { estateOf s 0 with dwords := (List.replicate 32 (0 : Word)).set 13 0x1000 }
    let s := { s.core0 (fun c => { c with ring := [⟨0x3C000, 32, 4, [0xAB], 0, 0, 17, 0, false⟩] }) with hbm := memWrite s.hbm 0x100020 0x80 8 }
    coreEstate s 0 = some 0 ∧ (slotOf s 0 14).live = false ∧ (slotOf s 0 14).stores = [] ∧ (slotOf s 0 14).streams = [] ∧ clusterOf 0 ∉ s.halted ∧ (hwRead s 0 0 0x1020 8 false 2).1 = some 0x80 ∧
    after (fun t => ((slotOf t 0 14).pc, (slotOf t 0 14).g[1]?, (slotOf t 0 14).g[6]?)) (exec (.courierStart 0) s) =
      some (0x80, some 0xAB, some 0x104) := by decide
theorem witness_amsg_answer :
    let s := (wG []).thread (fun x => { x with wait := { reason := .amsg, sent := true, peer := 3 * 16384 + 1 }, pend := .amsg 3 8 false 7 })
    after (fun t => ((slotOf t 0 0).wait.reason, (slotOf t 0 0).g[3]?, (slotOf t 0 0).pc)) (exec (.amsgAnswer 0 0 .accepted) s) =
      some (.none, some 0, 4) := by decide
theorem witness_amsg_answers :
    let s := fun reply => (wG []).thread (fun x => { x with wait := { reason := .amsg, sent := true, peer := 3 * 16384 + 1 }, pend := .amsg 3 8 reply 7 })
    gAfter 3 (exec (.amsgAnswer 0 0 .busy) (s false)) = some 6 ∧ gAfter 3 (exec (.amsgAnswer 0 0 .refused) (s false)) = some 2 ∧
    after (fun t => ((slotOf t 0 0).g[3]?, (slotOf t 0 0).e[8]?)) (exec (.amsgAnswer 0 0 (.replied 0x77)) (s true)) = some (some 0, some 0x77) := by decide

/-- The thread waits for a load of eight bytes of HBM at PA 0x100000 into g3. -/
def loading : State := (mem 0x1000).thread (fun x => { x with
  wait := { reason := .mem, sent := true }, pend := .load false [⟨.hbm 0x100000, 8, none⟩] (.g 3 .s64) })

theorem witness_access_reply :
    (slotOf loading 0 0).live = true ∧ (slotOf loading 0 0).gaveUp loading.cycle = false ∧ loading.reads = [] ∧ loading.halted = [] ∧
    after (fun t => ((slotOf t 0 0).g[3]?, (slotOf t 0 0).wait.reason)) (exec (.accessReply 0 0 .home) loading) = some (some 0xFFEEDDCCBBAA9988, .none) := by decide
theorem witness_access_gate :
    let s := (mem 0x1000).thread (fun x => { x with wait := { reason := .remote, sent := true, peer := 3 }, pend := .load false [⟨.remote 3 0x40, 8, none⟩] (.g 3 .s64) })
    askedLine s (slotOf s 0 0).pend = none ∧ (slotOf s 0 0).gaveUp s.cycle = false ∧ (trapAfter (exec (.accessReply 0 0 (.gate 5 3)) s)).map (·.1) = some 0x0E := by decide
theorem witness_watchdog :
    let s := kept ((wG []).thread (fun x => { x with wait := { reason := .mem }, wdog := 10, wdCount := 10 }))
    counted .mem = true ∧ after (fun t => ((slotOf t 0 0).wait.reason, (coreOf t 0).keeperQueue.map (fun r => (r.2.code, r.2.aux)))) (exec (.watchdog 0 0) s) =
      some (.parked, [(0x0F, 1)]) := by decide
theorem witness_uint_deliver :
    let s := (wG []).thread (fun x => { x with posted := some 0x99, uih := 0x40, pc := 8 })
    after (fun t => ((slotOf t 0 0).pc, (slotOf t 0 0).uiret, (slotOf t 0 0).uih, (slotOf t 0 0).e[15]?)) (exec (.uintDeliver 0 0) s) =
      some (0x40, 8, 0, some 0x99) := by decide
theorem witness_stream_packet :
    let s := streaming 2 0 0
    (match (slotOf s 0 0).streams.find? (·.reg == 2) with
      | some t => !t.isWrite && decide (nextFetch t < t.count) && (match (fetchPacket 0 0 t (nextFetch t)).run { s with cur := {} } with
        | (.ok _, _) => true
        | _ => false)
      | none => false) = true ∧
    after (fun t => (slotOf t 0 0).streams.map (·.buffer.length)) (exec (.streamPacketArrival 0 2 0) s) = some [1] := by decide

/-- A trap record waits for Jasper; the fault sink is empty, so that the record is dropped. -/
def escalating : State := setSlot ((live [0]).core0 (fun c => { c with toJasper := [(0, { code := 0x10 })] })) 0 0
  { placedThread with wait := { reason := .parked } }

theorem witness_jasper :
    servingJasper escalating 0 = 0 ∧ mailPlace 0 0 = 0 ∧ mapFind (jasperOf escalating 0).mailbox 0 = none ∧ clusterOf 0 ∉ escalating.halted ∧
    (jasperHandles (escalating.core0 (fun c => { c with toJasper := [] })) 0 0 { code := 0x10 }).1 = true ∧
    after (fun t => ((coreOf t 0).toJasper, (estateOf t 0).sinkLost)) (exec (.jasperTrapMessage 0 0) escalating) = some ([], 1) := by decide
/-- Where the sink cannot be translated, the record stays in the mailbox and goes on. -/
theorem witness_jasper_forward :
    let s := setEstate escalating 0 { estateOf escalating 0 with dwords := ((List.replicate 32 (0 : Word)).set 3 0x5000).set 4 64 }
    (jasperHandles (s.core0 (fun c => { c with toJasper := [] })) 0 0 { code := 0x10 }).1 = false ∧
    after (fun t => (mapFind (jasperOf t 0).mailbox 0).map (·.record.hops)) (exec (.jasperTrapMessage 0 0) s) = some (some 1) := by decide
theorem witness_jasper_forward_next :
    let s := setEstate escalating 0 { estateOf escalating 0 with dwords := ((List.replicate 32 (0 : Word)).set 3 0x5000).set 4 64 }
    let s := setJasper s 0 { mailbox := [(0, ⟨0, 0, { code := 0x10 }⟩)] }
    nextJasper s 0 32 = 1 ∧ after (fun t => ((mapFind (jasperOf t 1).mailbox 0).map (·.record.hops), (jasperOf t 0).mailbox.length)) (exec (.jasperForward 0 0) s) =
      some (some 1, 0) := by decide
theorem witness_jasper_failover :
    let s := setJasper escalating 0 { mailbox := [(0, ⟨0, 0, { code := 0x10, hops := 1 }⟩)] }
    after (fun t => ((jasperOf t 0).failed, (mapFind (jasperOf t 1).mailbox 0).isSome)) (exec (.jasperFailover 0) s) = some (true, true) := by decide
/-! ### Commands and the host. Clauses whose premise turns on an opaque constant of Config (the fused minimum version, the spare rows
of a bank, the reading of a membership table) have no concrete witness. -/

/-- Queue 0 holds one record: a code and its operands from dword 1. -/
def commanded (s : State) (code : Nat) (ops : List Nat) : State :=
  setQueue s 0 { tail := 1, bytes := memWrite [] 0 (dwordsNat ((code * 2 ^ 56) :: ops)) 64 }

/-- HEAD of queue 0 and something else afterwards. -/
def headAfter (f : State → α) (o : Host.Outcome State Fault Refusal) : Option (Nat × α) := after (fun t => ((queueOf t 0).head, f t)) o

theorem witness_command :
    let s := commanded (wG []) 0x0A [1, 3]
    (headRecord s 0).map (fun r => (bits (recDw r 0) 56 8, opnd r 1, opnd r 2)) = some (0x0A, 1, 3) ∧ queueUser s 0 = some 0 ∧ s.boot = .running ∧ recordTurn s 0 = true := by decide
/-- With an item of the service queue that it serves and its turn, the slot's record waits (R249). -/
theorem test_record_turn :
    let s := setPart (wG []) 0 { partOf (wG []) 0 with service := [.call 0 4 0 0 9 []] }
    recordTurn (setQueue s 0 { turn := true }) 0 = false ∧ recordTurn s 0 = true := by decide
theorem witness_tail_write :
    responds (wG []) 0 0 = true ∧ headAfter (fun t => ((queueOf t 0).tail, (queueOf t 0).dropped)) (exec (.tailWrite 0 0 3) (wG [])) = some (0, 3, 0) ∧
    headAfter (fun t => ((queueOf t 0).tail, (queueOf t 0).dropped)) (exec (.tailWrite 0 0 33) (wG [])) = some (33, 33, 33) := by decide
theorem witness_bar0_write :
    headAfter (fun t => (queueOf t 0).bytes) (exec (.registerWrite 0 8 0x1234) (wG [])) = some (0, [(8, 0x34), (9, 0x12)]) ∧
    headAfter (fun t => (queueOf t 0).tail) (exec (.registerWrite 0 0x800 2) (wG [])) = some (0, 2) := by decide
/-- Place ANY (2) of timestamp 3: key 0x0002000000000003. -/
theorem witness_launch_record :
    let s := setEstate (mapped (wG [])) 0 { estateOf (wG []) 0 with dwords := ((List.replicate 32 (0 : Word)).set 10 0x1000).set 11 0x1000 }
    let s := setQueue s 0 { tail := 1, bytes := memWrite [] 0 (dwordsNat [0x40, 7, 8, 0x0002000000000003, 0, 0]) 64 }
    recordTurn s 0 = true ∧ bits (recDw ((headRecord s 0).getD 0) 0) 56 8 = 0 ∧
    (match rootOf s 0 ((headRecord s 0).getD 0) with
      | (.ok t, s1) => t.entry == 0x40 && t.ts == 3 && (createTask s1 garnet t none (fun s t => pushRing s garnet t)).1.isSome
      | (.error _, _) => false) = true := by decide
theorem witness_launch_refused :
    let s := setQueue (wG []) 0 { tail := 1, bytes := memWrite [] 0 (dwordsNat [0x41]) 64 }
    (rootOf s 0 ((headRecord s 0).getD 0)).1.toOption = none ∧ headAfter (fun t => t.jobs.length) (exec (.launchRecord 0) s) = some (1, 0) := by decide
theorem witness_job_complete :
    let s := { wG [] with jobs := [(9, { estate := 0, queue := 0, record := 0, tag := 0 })] }
    (∀ t ∈ liveTasks s, t.root ≠ 9) ∧ after (fun t => t.jobs) (exec (.jobComplete 9) s) = some [] := by decide

/-- An image at host address 0x1000. -/
def hostImage : State := { wG [] with host := memWrite [] 0x1008 3600 8 }

theorem witness_create_partition :
    let s := commanded hostImage 1 [5, 0x1000]
    let r := (headRecord s 0).getD 0
    opnd r 1 = 5 ∧ imageOk ((cutBits 64 (hostRead s (opnd r 2) 256).1 32).map (BitVec.ofNat 64)) = true ∧
    charterPart s 0 true (BitVec.ofNat 64 0x45) (BitVec.ofNat 64 (parcelKey 5)) = some (some 5) := by decide
theorem witness_free_estates : freeEstates hostImage ≠ [] :=
  List.ne_nil_of_mem (a := 1) (by
    unfold freeEstates
    rw [List.mem_filter]
    exact ⟨List.mem_range.2 (by omega), by decide⟩)
theorem witness_reset_partition :
    let s := setEstate (setPart (commanded (wG []) 2 [5]) 5 { inuse := true, first := 2 }) 2 { part := 5 }
    headAfter (fun t => (mapFind t.estates 2, (partOf t 5).inuse)) (exec (.resetPartition 0) s) = some (1, none, false) := by decide
/-- A task of the partition is in the midst of its commit: the reset waits. Then the estate still has a frame to leave: it goes on. -/
theorem witness_reset_waits :
    let s := setEstate (setPart (commanded (wG []) 2 [5]) 5 { inuse := true, first := 2 }) 2 { part := 5 }
    let t := setTask s 9 { estate := 2, handle := 9, phase := .finished, sent := [0x4000] }
    let u := setEntry s (parcelFrame 9) { holder := 2 }
    let v := (after id (exec (.resetPartition 0) u)).getD State.reset
    partCommits s 5 = false ∧ partCommits t 5 = true ∧ (queueOf t 0).busy = none ∧
    headAfter (fun t => (mapFind t.estates 2).isSome) (exec (.resetPartition 0) t) = some (0, true) ∧
    dissolving (resetPartition u 5) = true ∧ (queueOf v 0).head = 0 ∧ (queueOf v 0).busy = headRecord u 0 ∧ recordTurn v 0 = true ∧
    headAfter (fun t => (queueOf t 0).busy) (exec (.resetPartition 0) v) = some (0, headRecord u 0) ∧
    headAfter (fun t => (queueOf t 0).busy) (exec (.resetPartition 0) { v with cad := [] }) = some (1, none) := by decide
theorem witness_lifecycle_waits :
    let s := setEstate (setPart (commanded (wG []) 9 [1]) 5 { inuse := true, first := 2 }) 2 { part := 5 }
    let t := setTask s 9 { estate := 2, handle := 9, phase := .finished, sent := [0x4000] }
    lifeStep t.lifeCycle 1 = some .provisioned ∧ (List.range 64).any (partCommits t) = true ∧ (List.range 64).any (partCommits s) = false ∧
    headAfter (fun t => t.lifeCycle) (exec (.lifecycle 0) t) = some (0, .deployed) := by decide
theorem witness_give_to_partition :
    let p := parcelSeat 9
    let s := setEstate (setPart (commanded (wG []) 3 [p, 1, 2]) 5 { inuse := true, first := 2 }) 2 { part := 5 }
    goodParcel p = true ∧ principalGive s p 2 = some 1 ∧
    headAfter (fun t => ((entryOf t p).state, (entryOf t p).target)) (exec (.giveToPartition 0) s) = some (1, .offeredGive, some 2) := by decide
theorem witness_retire_core :
    let p := parcelCore 9
    retirable p = true ∧
    headAfter (fun _ => 0) (exec (.retireCore 0) (setEntry (commanded (wG []) 4 [p]) p { state := .retired })) = some (1, 0) ∧
    (entryOf (wG []) p).state ≠ .retired ∧
    headAfter (fun t => ((queueOf t 0).busy.isSome, (entryOf t p).state)) (exec (.retireCore 0) (commanded (wG []) 4 [p])) =
      some (0, true, ParcelState.scrubbing) := by decide
theorem witness_spare_lane :
    headAfter (fun _ => 0) (exec (.spareLane 0) (commanded (wG []) 6 [3])) = some (1, 0) ∧
    headAfter (fun t => (portOf t 2).goodLanes) (exec (.spareLane 0) (commanded (wG []) 6 [0x12])) = some (1, 17) ∧
    headAfter (fun t => (portOf t 2).goodLanes) (exec (.spareLane 0) (commanded (wG []) 6 [0x12, 18])) = some (1, 18) := by decide
theorem witness_update_refused : headAfter (fun t => t.current) (exec (.updateFirmware 0 false 3) (commanded (wG []) 7 [])) = some (1, false) := by decide
theorem witness_attest : headAfter (fun _ => 0) (exec (.attest 0) (commanded (wG []) 8 [0, 0, 8191])) = some (1, 0) := by decide
theorem witness_lifecycle :
    lifeStep .deployed 2 = none ∧ lifeStep .deployed 1 = some .provisioned ∧
    headAfter (fun t => t.lifeCycle) (exec (.lifecycle 0) (commanded (wG []) 9 [2])) = some (1, .deployed) := by decide
theorem witness_set_chain : headAfter (fun t => mapFind t.chains 1) (exec (.setChain 0) (commanded (wG []) 0x0A [1, 3])) = some (1, some 3) := by decide
theorem witness_set_timer : headAfter (fun t => (t.timer, t.laneThreshold)) (exec (.setTimer 0) (commanded (wG []) 0x0C [50, 9])) = some (1, 50, 9) := by decide
theorem witness_preempt :
    let s := commanded (wG []) 0x0D [parcelCore 0, 1, 3600, 0]
    preemptCrews s 0 3600 0 = [(1, 3600)] ∧
    let r := headRecord s 0
    headAfter (fun t => ((queueOf t 0).busy, (queueOf t 0).crews, (slotOf t 0 0).request.map (·.deadline))) (exec (.preempt 0) s) =
      some (0, r, [1], some 3600) ∧
    headAfter (fun t => (queueOf t 0).busy) (exec (.preempt 0) (setQueue s 0 { queueOf s 0 with busy := r })) = some (1, none) ∧
    headAfter (fun t => (queueOf t 0).busy) (exec (.preempt 0) (setQueue s 0 { queueOf s 0 with busy := r, crews := [1] })) = some (0, r) := by decide
/-- An overrun passes over the slot of a command in progress: its end moves HEAD no more (R248). -/
theorem witness_passed :
    let s := setQueue (commanded (wG []) 0x0D [parcelCore 0, 1, 3600, 0]) 0 { tail := 1, busy := some 5 }
    (queueOf ((after id (exec (.tailWrite 0 0 40) s)).getD s) 0).passed = true ∧
    (queueOf (endCommand ((after id (exec (.tailWrite 0 0 40) s)).getD s) 0 5 0 0 0) 0).head = 40 := by decide
theorem witness_unknown_command : headAfter (fun _ => 0) (exec (.unknownCommand 0) (commanded (wG []) 0x0E [])) = some (1, 0) := by decide
/-- The completion record of a command: TAG 5 with bit 63, the status, and the cycle. -/
theorem test_completion_record :
    headAfter (fun t => (memRead t.host 0x2000 8, memRead t.host 0x2008 8, memRead t.host 0x2018 8))
      (exec (.unknownCommand 0) { commanded (wG []) 0x0E [0, 0, 0, 0, 0, 0x2000, 5] with cycle := 77 }) = some (1, 2 ^ 63 + 5, 5, 77) := by decide

/-- A call of the thread that waits for Garnet, with token 4. -/
def calling (n : Nat) (args : List Word) : State :=
  let s := (mapped (wG [])).thread (fun x => { x with wait := { reason := .sysc, sent := true, peer := 4 }, pend := .sysc 3 4 none })
  setPart s 0 { partOf s 0 with service := [.call 0 4 0 0 n args] }

theorem witness_calls :
    (takeCall (calling 1 []) 0 0 1).map (fun c => (c.1, c.2.1)) = some (0, 4) ∧
    after (fun t => ((slotOf t 0 0).g[3]?, t.mapped.length)) (exec (.mapfile 0 0) (calling 1 [7, 0x200000, 4096, 3, BitVec.ofNat 64 (parcelFrame 9), 1])) =
      some (some 0, 1) ∧
    after (fun t => (slotOf t 0 0).g[3]?) (exec (.mapfile 0 0) (calling 1 [7, 0, 0, 0, 5, 0])) = some (some 1) ∧
    after (fun t => (slotOf t 0 0).g[3]?) (exec (.sync 0 0) (calling 2 [0])) = some (some 0) ∧
    after (fun t => ((slotOf t 0 0).g[3]?, (slotOf t 0 0).pc)) (exec (.unknownCall 0 0) (calling 0x99 [])) = some (some (BitVec.allOnes 64), 4) := by decide
theorem witness_sync_mapping :
    let s := { calling 2 [0x1000] with mapped := [⟨0, 7, 0x1000, 4096, 9, 1, [], 3⟩] }
    after (fun t => (slotOf t 0 0).g[3]?) (exec (.sync 0 0) { s with hbm := memWrite s.hbm 0x6010 0x100157 8 }) = some (some 1) ∧
    after (fun t => (t.mapped, memRead t.hbm 0x6010 8)) (exec (.unmapfile 0 0) { calling 3 [0x1000] with mapped := [⟨0, 7, 0x1000, 4096, 9, 1, [], 3⟩] }) =
      some ([], 0) := by decide
/-- The pool is one frame that the estate uses; the pages of the range are used by no port. -/
theorem witness_mapfile :
    let s := calling 1 []
    poolOk s 0 (parcelFrame 9) 1 = true ∧ poolOk s 0 5 0 = false ∧ 0x1000 % 2097152 ≠ 0 ∧ quiet s 0 0x200000 4096 = true ∧
    mappingOf s 0 0x1000 = none ∧ (takeCall (calling 3 []) 0 0 3).isSome = true := by decide
/-- A thread of the cluster has an access to the range still to be performed: the call waits. -/
theorem witness_mapfile_waits :
    let s := calling 1 [7, 0, 4096, 3, BitVec.ofNat 64 (parcelFrame 9), 1]
    let s := setSlot { s with sharers := [(0x6000 / 64, 1)] } 1 0 { placedThread with
      pend := .load false [⟨.hbm 0x100000, 8, none⟩] (.g 3 .s64), wait := { reason := .mem, sent := true } }
    quiet s 0 0 4096 = false ∧ poolOk s 0 (parcelFrame 9) 1 = true ∧
    after (fun t => ((slotOf t 0 0).wait.reason, t.mapped.length)) (exec (.mapfile 0 0) s) = some (.sysc, 0) := by decide
theorem witness_launchr :
    let s := { calling 0x20 [5, 0x1000] with easements := [⟨0, 0, parcelQueue 5, 1, 16⟩] }
    fabricName s 0 = 0 ∧ (estateRead s 0 0x1000 64 3).1 = some 0 ∧ mayLaunch s (fabricName s 0) 5 = true ∧
    after (fun t => ((slotOf t 0 0).g[3]?, (queueOf t 5).tail)) (exec (.launchr 0 0 .home) s) = some (some 0, 1) ∧
    mayLaunch (calling 0x20 [5, 0x1000]) 0 5 = false ∧
    (trapAfter (exec (.launchr 0 0 .home) (calling 0x20 [5, 0x1000]))).map (·.1) = some 0x0E ∧
    full1024 s 3 = false ∧
    after (fun t => ((slotOf t 0 0).g[3]?, t.outbox)) (exec (.launchr 0 0 .home) (calling 0x20 [5 + 3 * 16384, 0x1000])) =
      some (some 0, [(3, .request 0 0 (.launch 5 0))]) := by decide
theorem witness_place_record :
    (placeRecord (setQueue (wG []) 5 { tail := 32 }) 5 0).1 = 6 ∧ (placeRecord (wG []) 5 7).1 = 0 := by decide
theorem witness_file_fault :
    let s := setPart { mapped (wG []) with
      mapped := [⟨0, 7, 0x5000, 4096, 9, 1, [], 3⟩],
      faults := [{ estate := 0, token := 4, entry := 0x6050, level := 4, va := 0x5000, kind := 0, thread := 0, time := 0, file := true, recorded := true }] } 0
      { partOf (wG []) 0 with service := [.file 0 4] }
    nextItem s 0 = some (.file 0 4) ∧ mappingOf s 0 0x5000 = some ⟨0, 7, 0x5000, 4096, 9, 1, [], 3⟩ ∧ uses s 0 (parcelFrame 9) = true ∧
    (takeItem s 0 (.file 0 4)).isSome = true ∧ after (fun t => t.faults) (exec (.fileFault 0 4 []) { s with mapped := [] }) = some [] ∧
    after (fun t => t.parts.map (·.2.service)) (exec (.fileFault 0 4 []) { s with faults := [] }) = some [[]] := by decide
/-- The first page of the pool has been used; and all of them have. -/
theorem witness_next_page :
    let m : Mapped := ⟨0, 7, 0x5000, 4096, 9, 1, [4608], 3⟩
    nextPage { wG [] with mapped := [m] } m = some 4609 ∧ parcelFrame (4609 / 512) = parcelFrame 9 := by decide
theorem witness_pool_exhausted :
    let m : Mapped := ⟨0, 7, 0x5000, 4096, 9, 0, [], 3⟩
    nextPage { wG [] with mapped := [m] } m = none := by decide
theorem witness_not_running :
    let s := { wG [] with boot := .recovery }
    s.boot ≠ .running ∧ after (fun t => (partOf t 5).tdisp.state) (exec (.tdispRequest 5 .configLocked) s) = some .configUnlocked ∧
    after (fun t => t.hostHeld) (exec (.hostMemAccess 0 (2 ^ 40 + 0x100000) 8 none)
      (setPart s 0 { partOf s 0 with decoders := [(2 ^ 40, 0, 1)] })) = some [] := by decide
theorem witness_tdisp :
    after (fun t => (partOf t 5).tdisp.state) (exec (.tdispRequest 5 .configLocked) (wG [])) = some .configLocked ∧
    after (fun t => ((partOf t 5).tdisp.state, (partOf t 5).tdisp.secure)) (exec (.tdispRequest 5 .run) (setPart (wG []) 5 { tdisp := { state := .configLocked } })) =
      some (.run, true) ∧
    after (fun t => (partOf t 5).tdisp.state) (exec (.ideTagFailure 5) (setPart (wG []) 5 { tdisp := { state := .run } })) = some .error ∧
    after (fun t => (partOf t 5).tdisp.state) (exec (.tdispRequest 5 .configUnlocked) (setPart (wG []) 5 { tdisp := { state := .error } })) =
      some .configUnlocked := by decide
/-- The decoder of the principal's function maps host address 2 ^ 40 onto the first frame of HBM. -/
theorem witness_host_access :
    let s := setPart (wG []) 0 { partOf (wG []) 0 with decoders := [(2 ^ 40, 0, 1)] }
    let u := setPart (wG []) 5 { inuse := true, first := 2, decoders := [(2 ^ 40, 0, 1)] }
    hostPa s 0 (2 ^ 40 + 0x100000) = some 0x100000 ∧ hostPa s 0 0x100000 = none ∧ s.memOk = true ∧
    hostAdmitted s 0 0x100000 true = true ∧ hostAdmitted s 0 0x100000 false = true ∧
    hostAdmitted u 5 0x100000 true = false ∧ hostAdmitted u 5 0x100000 false = false ∧
    after (fun t => t.hostHeld) (exec (.hostMemAccess 0 (2 ^ 40 + 0x100000) 8 none) s) = some [0x4000] ∧
    after (fun t => (t.hbm, t.hostHeld)) (exec (.hostMemAccess 0 (2 ^ 40 + 0x100000) 1 (some 9)) { s with hostHeld := [0x4000] }) =
      some ([(0x100000, 9)], []) := by decide
theorem witness_host_snoops :
    let s := { wG [] with rlc := [{ pkg := none, line := 2, state := .m, data := 0x77 }] }
    rlcFind s none 2 = some { pkg := none, line := 2, state := .m, data := 0x77 } ∧ rlcFind s none 3 = none ∧
    after (fun t => (t.host, t.rlc.map (·.state))) (exec (.snpdata 2) s) = some ([(128, 0x77)], [.s]) ∧
    after (fun t => (t.host, t.rlc)) (exec (.snpinv 2 none) s) = some ([(128, 0x77)], []) ∧
    after (fun t => (t.host, t.rlc)) (exec (.hostLineEviction 2) s) = some ([(128, 0x77)], []) := by decide
theorem witness_go_response :
    let s := { (wG []).thread (fun x => { x with wait := { reason := .mem, sent := true }, pend := .load false [⟨.host 0x80, 8, none⟩] (.g 3 .s64) }) with
      host := [(0x80, 0x99)] }
    hostWaiters s 2 = [(0, 0)] ∧ hostWaiters s 3 = [] ∧ rlcFind s none 2 = none ∧ after (fun t => ((slotOf t 0 0).g[3]?, t.rlc.map (·.state))) (exec (.goResponse 2 .e none) s) = some (some 0x99, [.s]) := by decide
/-- A store waits for the line, and a load: a grant of M serves both, a grant of S the load alone; a snoop waits for the GO. -/
theorem witness_go_store :
    let w : Write := ⟨⟨.host 0x80, 8, none⟩, 7, 2 ^ 64 - 1⟩
    let s := (wG []).thread (fun x => { x with wait := { reason := .mem, sent := true }, pend := .store [w] })
    let s2 := setSlot s 0 1 { placedThread with wait := { reason := .mem, sent := true }, pend := .load false [⟨.host 0x80, 8, none⟩] (.g 3 .s64) }
    hostWaiters s 2 = [(0, 0)] ∧ (slotOf s 0 0).pend.writes = true ∧ (slotOf s2 0 1).pend.writes = false ∧ awaitsGo s 2 = true ∧ awaitsGo (wG []) 2 = false ∧
    after (fun t => ((slotOf t 0 0).wait.reason, t.rlc.map (·.state))) (exec (.goResponse 2 .m none) s) = some (.none, [.m]) ∧
    after (fun t => ((slotOf t 0 0).wait.reason, t.rlc)) (exec (.goResponse 2 .s none) s) = some (.mem, []) ∧
    after (fun t => ((slotOf t 0 0).wait.reason, (slotOf t 0 1).wait.reason, t.rlc.map (·.state))) (exec (.goResponse 2 .s none) s2) =
      some (.mem, .none, [.s]) ∧
    after (fun t => t.agenda) (exec (.snpdata 2) s) = some [⟨1, .event (.snpdata 2)⟩] ∧
    after (fun t => t.agenda) (exec (.snpinv 2 none) s) = some [⟨1, .event (.snpinv 2 none)⟩] := by decide
theorem witness_function_reset_waits :
    let s := setEstate (setPart (wG []) 5 { inuse := true, first := 2 }) 2 { part := 5 }
    let t := setTask s 9 { estate := 2, handle := 9, phase := .finished, sent := [0x4000] }
    partCommits s 5 = false ∧ partCommits t 5 = true ∧ (List.range 64).any (partCommits s) = false ∧
    after (fun t => (t.agenda, (mapFind t.estates 2).isSome)) (exec (.functionLevelReset 5) t) = some ([⟨1, .event (.functionLevelReset 5)⟩], true) := by decide
theorem witness_function_reset : after (fun t => (partOf t 5).tdisp.state) (exec (.functionLevelReset 5) (setPart (wG []) 5 { tdisp := { state := .run } })) =
    some .configUnlocked := by decide
theorem witness_boot :
    imagePasses (wG []) false false = false ∧ imagePasses (wG []) true false = false ∧
    after (fun t => (t.pkgId, t.boot, t.cores, t.estates.length)) (exec (.boot false false ⟨7, []⟩) (wG [])) = some (State.reset.pkgId, .recovery, [], State.reset.estates.length) ∧
    after (fun t => t.boot) (exec (.boot true true ⟨7, []⟩) { wG [] with cadastreFailed := true }) = some .recovery := by decide
/-! ### The fabric, the directory and live service. Clauses that turn on the fabric's size or on the set of a directory line, opaque
constants of Config, have no concrete witness. -/

/-- The thread waits for a load from package 20,000, which the fabric has not (R223). -/
def nowhere : State :=
  { (wG []).thread (fun x => { x with wait := { reason := .remote, sent := true, peer := 20000 }, pend := .load false [⟨.remote 20000 0x40, 8, none⟩] (.g 3 .s64) }) with
    outstanding := [{ dst := 20000, seq := 0, thread := 0 }], outbox := [(20000, .request 0 0 (.load 0x40 8))] }

theorem witness_route_packet :
    route nowhere 20000 0 = .error 2 ∧ waitsFor (slotOf nowhere 0 0) 20000 = true ∧
    (replyTo { nowhere with outstanding := [] } 0 0 (.fabricError 2 0)).isSome = true ∧
    (trapAfter (exec (.routePacket ⟨0, 0, 20000, .req⟩ 0) nowhere)).map (·.1) = some 0x0D ∧
    after (fun t => t.outbox.head?) (exec (.routePacket ⟨7, 5, 20000, .req⟩ 0) nowhere) = some (some (7, .error 5 2)) ∧
    after (fun t => t.outbox.length) (exec (.routePacket ⟨7, 5, 20000, .rsp⟩ 0) nowhere) = some 1 := by decide
/-- The failure of a request for a stream's packet reaches every thread that waits for that packet, of one for a copy's element the copy. -/
theorem witness_failures :
    let s := setSlot (streaming 2 0 0) 0 0 { slotOf (streaming 2 0 0) 0 0 with
      wait := { reason := .remote, sent := true, peer := 3 }, pend := .packet 2 [⟨.remote 3 0x40, 64, none⟩] 0 }
    let o : Outstanding := { dst := 3, seq := 1, thread := 0, packet := some 2 }
    packetWaiters s 0 2 = [(0, 0)] ∧
    ((coreOf (landed (failRequest 3 s o)) 0).keeperQueue ++ (coreOf (landed (failRequest 3 s o)) 0).toJasper).map (·.2.code) = [0x0D] ∧
    (let c := copied false
     let p : Outstanding := { dst := 3, seq := 1, thread := 0, copy := some (1, 0) }
     (mapFind c.ops 1).any (fun o => !c.halted.contains (clusterOf o.core)) = true ∧
     (mapFind (failRequest 3 c p).ops 1).map (·.failed) = some (some 0x000D)) ∧
    (let u : Outstanding := { dst := 20000, seq := 0, thread := 0 }
     u.thread ∉ [noThread, stewardThread, scrubThread] ∧
     (slotsOf u.thread).find? (fun w => waitsFor (slotOf nowhere w.1 w.2) u.dst) = some (0, 0)) := by decide
theorem witness_flits :
    let p := fun (x : FabricPort) => { setPort (wG []) 3 x with laneThreshold := 1 }
    after (fun t => portOf t 3) (exec (.flitReceive 3 ⟨true, []⟩) (p { inReplay := true, replays := 9 })) = some {} ∧
    after (fun t => portOf t 3) (exec (.flitReceive 3 ⟨true, [5]⟩) (p {})) = some { errors := [(5, 1)] } ∧
    after (fun t => portOf t 3) (exec (.flitReceive 3 ⟨true, [5]⟩) (p { errors := [(5, 1)] })) =
      some { goodLanes := 17, spares := 1, dead := [5], inReplay := true } ∧
    after (fun t => portOf t 3) (exec (.flitReceive 3 ⟨false, []⟩) (p {})) = some { inReplay := true } ∧
    after (fun t => portOf t 3) (exec (.flitReceive 3 ⟨false, []⟩) (p { inReplay := true, replays := 14 })) = some { inReplay := true, replays := 15 } ∧
    after (fun t => (portOf t 3, t.reports)) (exec (.flitReceive 3 ⟨false, []⟩) (p { inReplay := true, replays := 15 })) =
      some ({ isolated := true, replays := 15 }, [.isolation 3]) ∧
    after (fun t => (portOf t 3).isolated) (exec (.portIsolation 3) (p {})) = some true := by decide
/-- The requests held toward an isolated port are answered, the other packets are discarded. -/
theorem test_isolation_answers :
    let s := setPort (wG []) 3 { held := [⟨7, 5, 9, .req⟩, ⟨7, 6, 9, .rsp⟩] }
    after (fun t => ((portOf t 3).held, t.outbox)) (exec (.portIsolation 3) s) = some ([], [(7, .error 5 1)]) := by decide
theorem witness_lane_swap :
    let p := fun (x : FabricPort) => setPort (wG []) 3 x
    after (fun t => portOf t 3) (exec (.laneSwap 3 5) (p {})) = some { goodLanes := 17, spares := 1, dead := [5], inReplay := true } ∧
    after (fun t => (portOf t 3).isolated) (exec (.laneSwap 3 5) (p { goodLanes := 8, spares := 0 })) = some true := by decide
theorem witness_timeout :
    (match route nowhere 20000 0 with
      | .port _ => false
      | _ => true) = true ∧ sentMessage nowhere 20000 0 = some (.request 0 0 (.load 0x40 8)) ∧
    after (fun t => (t.outbox.length, t.outstanding.map (·.resends))) (exec (.e2eTimeout 20000 0) nowhere) = some (2, [1]) ∧
    (trapAfter (exec (.e2eTimeout 20000 0) { nowhere with outstanding := [{ dst := 20000, seq := 0, resends := 7, thread := 0 }] })).map (·.1) =
      some 0x0D := by decide

/-- Estate 5 of package 3 may read and write frame 0. -/
def eased : State := { mem 0x1000 with easements := [⟨0, 3 * 16384 + 5, parcelFrame 0, 1, 3⟩] }

theorem witness_remote_request :
    storedAnswer eased 3 9 = none ∧ behindWindow eased 3 9 = false ∧ requestHeld eased (.store 0x100000 8 7 (2 ^ 64 - 1)) = false ∧
    gateCheck eased (3 * 16384 + 5) 0x100000 1 = none ∧ gateCheck eased (3 * 16384 + 5) 0x100000 2 = none ∧
    gateCheck eased (3 * 16384 + 6) 0x100000 2 = some 1 ∧
    after (fun t => t.outbox) (exec (.remoteRequest 3 9 5 (.load 0x100000 8)) eased) = some [(3, .done 9 (some 0xFFEEDDCCBBAA9988))] ∧
    after (fun t => (memRead t.hbm 0x100000 8, t.replies.length)) (exec (.remoteRequest 3 9 5 (.store 0x100000 8 7 (2 ^ 64 - 1))) eased) = some (7, 1) ∧
    after (fun t => (memRead t.hbm 0x100000 8, t.outbox)) (exec (.remoteRequest 3 9 5 (.store 0x100000 8 7 (2 ^ 64 - 1))) { eased with
      replies := [(3, 9, .done 9 none)] }) = some (0xFFEEDDCCBBAA9988, [(3, .done 9 none)]) := by decide
theorem witness_remote_parts :
    loadHome eased (.hbm 0x100000) 8 = .value 0xFFEEDDCCBBAA9988 ∧ meetsLoss eased ⟨⟨.hbm 0x100000, 8, none⟩, 7, 2 ^ 64 - 1⟩ = none ∧
    meetsPoison eased ⟨⟨.hbm 0x100000, 8, none⟩, 7, 2 ^ 64 - 1⟩ = false := by decide
theorem witness_governor :
    (islandGet (wG []) 2).freq = 36 ∧
    after (fun t => (islandGet t 2).freq) (exec (.governorThrottle 2 20) (wG [])) = some 20 ∧
    after (fun t => (islandGet t 2).freq) (exec (.governorRaise 2 30) { wG [] with islands := [(2, { freq := 20 })] }) = some 30 := by decide
theorem test_sram_error :
    after (fun t => t.hbmPoison) (exec (.uncorrectableError 0x100040) (wG [])) = some [0x4001] ∧
    after (fun t => t.commonsPoison) (exec (.sramError (.commonsLine 128)) (wG [])) = some [2] ∧
    after (fun t => t.cadastreFailed) (exec (.sramError (.cadastre true)) (wG [])) = some true := by decide
theorem witness_sram_targets :
    after (fun t => (coreOf t 0).scratchPoison) (exec (.sramError (.scratchLine 0 0x1040)) (wG [])) = some [0x41] ∧
    (slotOf (wG []) 0 0).live = true ∧ after (fun t => (slotOf t 0 0).poison) (exec (.sramError (.register 0 0 false 5)) (wG [])) = some [(false, 5)] ∧
    (let s := (wG []).core0 (fun c => { c with l1 := [{ estate := 0, va := 0x1000, task := 1, data := 0, written := 0, filled := true }] })
     (l1Find s 0 0 0x1000 1).isSome = true ∧ after (fun t => (coreOf t 0).l1.map (·.poison)) (exec (.sramError (.l1Line 0 0 0x1000 1)) s) = some [true]) ∧
    (let s := { wG [] with rlc := [{ pkg := some 3, line := 2, state := .s, data := 0x77 }] }
     (rlcFind s (some 3) 2).isSome = true ∧ after (fun t => t.rlc.map (·.poison)) (exec (.sramError (.rlcData (some 3) 2)) s) = some [true]) := by decide
theorem witness_slice_swap :
    (∀ p ∈ (wG []).sliceMap, p.1 / 80 ≠ 1) ∧
    after (fun t => (mapFind t.sliceMap 85, t.spareSlices)) (exec (.sliceSwap false 1 5) (wG [])) = some (some 80, 15) ∧
    after (fun t => (mapFind t.bankMap 69, t.spareBanks)) (exec (.sliceSwap true 1 5) (wG [])) = some (some 64, 7) := by decide

/-- R266: the first bytes of SLICEMAP are the identity, byte 80 is 0xFF; after the swap of slice 5 of die 0, byte 5 names unit 80. -/
theorem test_status_block :
    barRead (wG []) 0 0x50000 = 0x0706050403020100 ∧ cairnRead (wG []) 0x40050 % 256 = 0xFF ∧
    after (fun t => barRead t 0 0x50000) (exec (.sliceSwap false 0 5) (wG [])) = some 0x0706500403020100 ∧
    barRead (wG []) 5 0x1000 = 2 ^ 64 - 1 := by decide

/-- Package 0 is the one member of its domain. -/
def directing : State := { wG [] with domain := [0] }
def dirty2 : LineData := { data := 0x77 }

theorem witness_steward : isSteward directing 0 2 = true ∧ stewardOf directing 0 2 = some 0 ∧ dirFind directing 0 2 = none ∧
    setWays directing 0 2 = [] ∧ homeLost directing 0 = false ∧ stewardFull directing 0 = false ∧ mirrorFull directing = false ∧
    behindWindow directing 3 7 = false ∧ takenBefore directing 3 7 (.getS 7 0 2) = false ∧ directing.directory = [] := by decide
/-- A duplicate of a request already served is not served again. -/
theorem witness_duplicate :
    let s := { directing with replies := [(3, 7, .getS 7 0 2)] }
    takenBefore s 3 7 (.getS 7 0 2) = true ∧ after (fun t => (t.directory, t.outbox)) (exec (.gets ⟨3, 7⟩ 0 2) s) = some ([], []) := by decide
theorem witness_gets :
    after (fun t => (t.directory.map (fun d => (d.state, d.busy)), t.outbox)) (exec (.gets ⟨3, 7⟩ 0 2) { directing with
      directory := [{ home := 0, line := 2, state := .s, sharers := [5] }] }) = some ([(.s, some (.getS 3))], [(0, .request 0 0 (.readHome 2))]) ∧
    after (fun t => t.outbox) (exec (.gets ⟨3, 7⟩ 0 2) { directing with directory := [{ home := 0, line := 2, state := .em, owner := 5 }] }) =
      some [(5, .fwdS 3 0 2)] := by decide
theorem witness_put : after (fun t => (t.directory, t.outbox)) (exec (.putm ⟨3, 7⟩ 0 2 (some dirty2)) directing) = some ([], [(3, .putAck 0 2)]) ∧
    after (fun t => t.outbox) (exec (.puto ⟨3, 7⟩ 0 2 dirty2) directing) = some [(3, .putAck 0 2)] := by decide
theorem witness_home_reply :
    let s := { directing with directory := [{ home := 0, line := 2, busy := some (.getS 3) }] }
    (dirFind s 0 2).map (·.busy) = some (some (.getS 3)) ∧
    after (fun t => t.outbox) (exec (.homeReply 0 2 (.line dirty2)) s) = some [(3, .data 0 2 .e (some dirty2) 0)] ∧
    after (fun t => t.outbox) (exec (.homeReply 0 2 (.line dirty2)) { s with directory := [{ home := 0, line := 2, busy := some (.getM 3) }] }) =
      some [(3, .data 0 2 .m (some dirty2) 0)] := by decide
theorem test_getm_upgrade :
    after (fun t => t.outbox) (exec (.getm ⟨3, 7⟩ 0 2) { directing with directory := [{ home := 0, line := 2, state := .em, owner := 5 }] }) =
      some [(5, .fwdM 3 0 2 0)] ∧
    after (fun t => t.outbox) (exec (.upgrade ⟨3, 7⟩ 0 2) { directing with directory := [{ home := 0, line := 2, state := .s, sharers := [3] }] }) =
      some [(3, .data 0 2 .m none 0)] := by decide
theorem witness_completion :
    let s := { directing with directory := [{ home := 0, line := 2, busy := some (.getS 3) }] }
    requestOf 3 (.getS 3) = true ∧ ownDirty s 0 2 = none ∧
    after (fun t => t.directory.map (fun d => (d.state, d.owner, d.busy))) (exec (.completionAck 3 0 2 false) s) = some [(.em, 3, none)] := by decide

/-- A copy of line 2 of home 3, in the cache. -/
def holding (st : LineState) (busy : Bool) : State :=
  { wG [] with domain := [3], rlc := [{ pkg := some 3, line := 2, state := st, data := 0x77, busy := busy }] }

theorem witness_holders :
    (holderLine (holding .e false) 3 2 owns).isSome = true ∧
    after (fun t => (t.rlc.map (·.state), t.outbox)) (exec (.fwds 5 3 2) (holding .e false)) =
      some ([.s], [(3, .ownerAck 3 2 false), (5, .data 3 2 .s (some dirty2) 0)]) ∧
    after (fun t => t.rlc.map (·.state)) (exec (.fwds 5 3 2) (holding .m false)) = some [.o] ∧
    after (fun t => (t.rlc, t.outbox)) (exec (.fwdm 5 3 2 1) (holding .m false)) = some ([], [(5, .data 3 2 .m (some dirty2) 1)]) ∧
    after (fun t => (t.rlc, t.outbox)) (exec (.inv 5 3 2) (holding .s false)) = some ([], [(5, .ack 3 2)]) ∧
    after (fun t => t.outbox) (exec (.inv 5 3 2) (wG [])) = some [(5, .ack 3 2)] ∧
    after (fun t => (t.rlc, t.outbox)) (exec (.recallLine 3 2) (holding .o false)) = some ([], [(3, .putO 0 3 2 dirty2)]) := by decide
theorem witness_data :
    lineWaiters (holding .i true) 3 2 = [] ∧
    after (fun t => (t.rlc.map (fun r => (r.state, r.busy)), t.outbox)) (exec (.data 3 2 .m (some dirty2) 0) (holding .i true)) =
      some ([(.m, false)], [(3, .completion 3 2)]) ∧
    after (fun t => t.rlc.map (fun r => (r.acks, r.grant))) (exec (.data 3 2 .m (some dirty2) 2) (holding .i true)) = some [(2, some .m)] := by decide
theorem witness_inv_ack :
    dirFind (holding .i true) 3 2 = none ∧
    after (fun t => t.rlc.map (·.early)) (exec (.invAck 3 2) (holding .i true)) = some [1] ∧
    (let s := { holding .i true with rlc := [{ pkg := some 3, line := 2, busy := true, acks := 2, grant := some .m }] }
     after (fun t => t.rlc.map (·.acks)) (exec (.invAck 3 2) s) = some [1] ∧
     after (fun t => t.rlc.map (·.state)) (exec (.invAck 3 2) ((after id (exec (.invAck 3 2) s)).getD State.reset)) = some [.m]) := by decide
theorem witness_eviction :
    after (fun t => t.rlc) (exec (.coherentEviction 3 2) (holding .s false)) = some [] ∧
    stewardOf (holding .m false) 3 2 = some 3 ∧
    after (fun t => (t.rlc.map (·.evicting), t.outbox)) (exec (.coherentEviction 3 2) (holding .m false)) =
      some ([true], [(3, .putM 0 3 2 (some dirty2))]) ∧
    after (fun t => t.rlc) (exec (.putAck 3 2) ((after id (exec (.coherentEviction 3 2) (holding .m false))).getD State.reset)) = some [] := by decide
/-- The owner has evicted its copy and reads the line again: the other copy goes too. -/
theorem witness_give_up_rest :
    let s := { wG [] with domain := [3], rlc := [{ pkg := some 3, line := 2, state := .s, data := 0x77 },
      { pkg := some 3, line := 2, state := .o, data := 0x77, evicting := true }] }
    (rlcFind s (some 3) 2).map (·.state) = some .s ∧ (giveUpRest s 3 2).rlc.map (·.evicting) = [true] ∧
    (holderLine s 3 2 owns).map (·.state) = some .o ∧ (holderLine { s with rlc := s.rlc.take 1 } 3 2 owns).isNone = true ∧
    after (fun t => t.rlc.map (fun r => (r.state, r.evicting))) (exec (.recallLine 3 2) s) = some [(.i, true)] ∧
    after (fun t => (t.rlc.map (fun r => (r.state, r.evicting)), t.outbox)) (exec (.recallLine 3 2) { s with
      outstanding := [{ dst := 3, seq := 0, thread := putThread, line := some (3, 2) }] }) = some ([(.o, true)], []) ∧
    rlcFind (wG []) (some 3) 2 = none := by decide
/-- Package 5, which owned the line, is lost: home is told before anything else. -/
theorem witness_lose_entry :
    let d : DirEntry := { home := 0, line := 2, state := .em, owner := 5 }
    let s := { directing with directory := [d] }
    homeLost s 0 = false ∧ (dirFind (loseEntry 5 s d) 0 2).map (fun d => (d.state, d.busy)) = some (.i, some (.lose 5)) ∧
    (loseEntry 5 s d).outbox = [(0, .request 0 0 (.markLost 2 5))] := by decide
theorem witness_package_lost :
    let s := { wG [] with domain := [0, 3] }
    3 ≠ s.pkgId.toNat ∧ 3 ∉ s.lostPackages ∧ 1 < s.domain.length ∧ 3 ∈ s.domain ∧ s.directory = [] ∧ s.shadows = [] ∧ s.outstanding = [] := by decide

/-! ### The invariant -/

theorem witness_memories_canonical :
    State.reset.memOk = true ∧ (State.reset.withFetchWord 32 0x000A4183).memOk = true ∧
    after State.memOk (step (State.reset.withFetchWord 32 0x000A4183)) = some true := by decide

end Machine

end Sys2Proof
end

section
/-! SUPPORT. What decodes, and O2. -/

namespace Sys2Proof

/-! ### Words by their lowest bit (R54): a short form's is 0, a long one's is 1 -/

theorem wS2_even (sop d a m : Nat) : wS2 sop d a m % 2 = 0 := by simp only [wS2]; omega
theorem wSI_even (sop d imm : Nat) : wSI sop d imm % 2 = 0 := by simp only [wSI]; omega
theorem wRR_odd (major d a b fn q : Nat) : wRR major d a b fn q % 2 = 1 := by simp only [wRR]; omega
theorem wRI_odd (major d a imm : Nat) : wRI major d a imm % 2 = 1 := by simp only [wRI]; omega
theorem wSHI_odd (kind d a sh : Nat) : wSHI kind d a sh % 2 = 1 := by simp only [wSHI]; omega
theorem wUI_odd (major d imm : Nat) : wUI major d imm % 2 = 1 := by simp only [wUI]; omega
theorem wBC_odd (a b cc off : Nat) : wBC a b cc off % 2 = 1 := by simp only [wBC]; omega
theorem wLP_odd (a level ci endoff cnt : Nat) : wLP a level ci endoff cnt % 2 = 1 := by simp only [wLP]; omega
theorem wMM_odd (major d a sg fmt disp : Nat) : wMM major d a sg fmt disp % 2 = 1 := by simp only [wMM]; omega
theorem wAMO_odd (d a b sg op ar scope : Nat) : wAMO d a b sg op ar scope % 2 = 1 := by simp only [wAMO]; omega
theorem wAMOV_odd (v a sg ty op : Nat) : wAMOV v a sg ty op % 2 = 1 := by simp only [wAMOV]; omega
theorem wXE_odd (major fn d a b e : Nat) : wXE major fn d a b e % 2 = 1 := by simp only [wXE]; omega
theorem wImm8_odd (fn d a imm : Nat) : wImm8 fn d a imm % 2 = 1 := by simp only [wImm8]; omega
theorem wVV_odd (major d a b f5 ty rm : Nat) : wVV major d a b f5 ty rm % 2 = 1 := by simp only [wVV]; omega
theorem wVC_odd (d a b source target scaled z rm : Nat) : wVC d a b source target scaled z rm % 2 = 1 := by
  simp only [wVC]; omega

/- The model's equation for encodeNat is used whole: one equation for each of its cases is slow to make. -/

/-- An event of the machine has no word, and its place among the encodings is 0 (R54). -/
theorem encodeNat_of_isEvent {i : Instr} (h : i.isEvent = true) : i.isShort = false ∧ encodeNat i = 0 := by
  cases i <;> cases h <;> exact ⟨rfl, rfl⟩

theorem encodeNat_even_of_isShort {i : Instr} (h : i.isShort = true) : encodeNat i % 2 = 0 := by
  cases i <;> cases h <;> simp only [encodeNat.eq_def, wS2_even, wSI_even]

theorem encodeNat_odd_of_long {i : Instr} (he : i.isEvent = false) (hs : i.isShort = false) : encodeNat i % 2 = 1 := by
  cases i <;> cases he <;> cases hs <;>
    simp only [encodeNat.eq_def, wRR_odd, wRI_odd, wSHI_odd, wUI_odd, wBC_odd, wLP_odd, wMM_odd, wAMO_odd, wAMOV_odd, wXE_odd,
      wImm8_odd, wVV_odd, wVC_odd]

/-- An even word that is not 0 is a short form's. -/
theorem short_of_encodeNat_even {i : Instr} (h0 : encodeNat i ≠ 0) (h : encodeNat i % 2 = 0) :
    i.isEvent = false ∧ i.isShort = true := by
  have he : i.isEvent = false := Bool.eq_false_iff.2 fun he => h0 (encodeNat_of_isEvent he).2
  refine ⟨he, Bool.of_not_eq_false fun hs => ?_⟩
  have := encodeNat_odd_of_long he hs
  omega

/-- An odd word is a long instruction's. -/
theorem long_of_encodeNat_odd {i : Instr} (h : encodeNat i % 2 = 1) : i.isEvent = false ∧ i.isShort = false := by
  refine ⟨Bool.eq_false_iff.2 fun he => ?_, Bool.eq_false_iff.2 fun hs => ?_⟩
  · have := (encodeNat_of_isEvent he).2
    omega
  · have := encodeNat_even_of_isShort hs
    omega

/-- The bytes of a number that is given by its bytes (R2). -/
theorem leBytes_leNat (bs : List Byte) : leBytes bs.length (leNat bs) = bs := by
  induction bs with
  | nil => rfl
  | cons b bs ih =>
    have hlow : BitVec.ofNat 8 (b.toNat + 256 * leNat bs) = b := by
      apply BitVec.eq_of_toNat_eq
      have := b.isLt
      simp only [BitVec.toNat_ofNat]
      omega
    have hrest : (b.toNat + 256 * leNat bs) / 256 = leNat bs := by
      have := b.isLt
      omega
    rw [List.length_cons, leNat, leBytes, hlow, hrest, ih]

/-- What the check of R79 lets through. -/
theorem checked_eq_ok {w : Nat} {i j : Instr} (h : checked w i = .ok j) : j.wellFormed = true ∧ encodeNat j = w := by
  rw [checked] at h
  split at h
  · next hok =>
    obtain rfl := Except.ok.inj h
    simpa using hok
  · simp at h

theorem decodeShort_eq_ok {h : Nat} {i : Instr} (hd : decodeShort h = .ok i) :
    h ≠ 0 ∧ i.wellFormed = true ∧ encodeNat i = h := by
  rw [decodeShort] at hd
  split at hd
  · simp at hd
  · next h0 =>
    split at hd
    · exact ⟨h0, checked_eq_ok hd⟩
    · simp at hd

theorem decodeLong_eq_ok {w : Nat} {i : Instr} (hd : decodeLong w = .ok i) : i.wellFormed = true ∧ encodeNat i = w := by
  rw [decodeLong] at hd
  split at hd
  · split at hd
    · exact checked_eq_ok hd
    · simp at hd
  · simp at hd

/-- What a decoder answers, with its length put beside it. -/
theorem map_length_eq_ok {r : Except DecodeError Instr} {i : Instr} {k n : Nat} (h : r.map (·, k) = .ok (i, n)) :
    r = .ok i ∧ k = n := by
  cases r with
  | error e => simp [Except.map] at h
  | ok j => simpa [Except.map] using h

/-- Bytes whose number is the word of a well-formed instruction, of the length that the instruction has, are its encoding. -/
theorem encode_of_word {i : Instr} {bs : List Byte} (hlen : bs.length = if i.isShort then 2 else 4)
    (hword : encodeNat i = leNat bs) : bs = encode i := by
  rw [encode, ← hlen, hword, leBytes_leNat]

/-- An even halfword that decodes is the encoding of a short form (R54, R75). -/
theorem encode_of_decodeShort {i : Instr} {b0 b1 : Byte} (heven : b0.toNat % 2 = 0)
    (h : decodeShort (leNat [b0, b1]) = .ok i) :
    i.wellFormed = true ∧ i.isEvent = false ∧ i.isShort = true ∧ [b0, b1] = encode i := by
  obtain ⟨h0, hwf, hword⟩ := decodeShort_eq_ok h
  have hpar : encodeNat i % 2 = 0 := by
    simp only [hword, leNat]
    omega
  obtain ⟨hev, hs⟩ := short_of_encodeNat_even (hword ▸ h0) hpar
  exact ⟨hwf, hev, hs, encode_of_word (by simp [hs]) hword⟩

/-- An odd word that decodes is the encoding of a long instruction (R54, R57). -/
theorem encode_of_decodeLong {i : Instr} {b0 b1 b2 b3 : Byte} (hodd : b0.toNat % 2 ≠ 0)
    (h : decodeLong (leNat [b0, b1, b2, b3]) = .ok i) :
    i.wellFormed = true ∧ i.isEvent = false ∧ i.isShort = false ∧ [b0, b1, b2, b3] = encode i := by
  obtain ⟨hwf, hword⟩ := decodeLong_eq_ok h
  have hpar : encodeNat i % 2 = 1 := by
    simp only [hword, leNat]
    omega
  obtain ⟨hev, hs⟩ := long_of_encodeNat_odd hpar
  exact ⟨hwf, hev, hs, encode_of_word (by simp [hs]) hword⟩

/-- Settles O2: R79's check compares the word with the encoding, and its lowest bit tells the length (R54). -/
theorem decodedBytesAreTheEncoding : Obligations.DecodedBytesAreTheEncoding := by
  unfold Obligations.DecodedBytesAreTheEncoding
  intro bs i n h
  rw [decode.eq_def] at h
  split at h
  · split at h
    · next heven =>
      obtain ⟨hd, rfl⟩ := map_length_eq_ok h
      obtain ⟨hwf, hev, hs, hbytes⟩ := encode_of_decodeShort heven hd
      exact ⟨hwf, hev, by simp [hs], by simpa using hbytes⟩
    · next hodd =>
      split at h
      · obtain ⟨hd, rfl⟩ := map_length_eq_ok h
        obtain ⟨hwf, hev, hs, hbytes⟩ := encode_of_decodeLong hodd hd
        exact ⟨hwf, hev, by simp [hs], by simpa using hbytes⟩
      · simp at h
  · simp at h

end Sys2Proof
end

section
/-! SUPPORT. How a sequence of computations ends, traps or waits, by how its parts do. -/

namespace Sys2Proof.Machine

/-- A sequence runs its first part and goes on only where that part has ended. -/
theorem run_bind (m : Exec α) (f : α → Exec β) (s : State) :
    (m >>= f).run s = match m.run s with
      | (.ok a, t) => (f a).run t
      | (.error e, t) => (.error e, t) := by
  change (StateT.bind m (ExceptT.bindCont f)) s = match m s with
    | (.ok a, t) => f a t
    | (.error e, t) => (.error e, t)
  simp only [StateT.bind]
  rcases m s with ⟨_ | _, t⟩ <;> rfl

/-- Two results of a run are the same when outcome and state are. -/
theorem run_result_inj {r r' : Except Halt α} {s s' : State} :
    @Eq (Id (Except Halt α × State)) (r, s) (r', s') ↔ r = r' ∧ s = s' := Prod.mk_inj

theorem ends_bind_iff {m : Exec α} {f : α → Exec β} {s s' : State} {b : β} :
    Ends (m >>= f) s b s' ↔ ∃ a t, Ends m s a t ∧ Ends (f a) t b s' := by
  simp only [Ends, run_bind]
  rcases m.run s with ⟨e | a, t⟩ <;> simp [run_result_inj, and_assoc]

@[simp] theorem ends_map_iff {m : Exec α} {g : α → β} {s s' : State} {b : β} :
    Ends (g <$> m) s b s' ↔ ∃ a, Ends m s a s' ∧ g a = b := by
  rw [map_eq_pure_bind, ends_bind_iff]
  constructor
  · rintro ⟨a, t, h, hb⟩
    obtain ⟨rfl, rfl⟩ := (ends_pure ..).1 hb
    exact ⟨a, h, rfl⟩
  · rintro ⟨a, h, rfl⟩
    exact ⟨a, s', h, by simp⟩

theorem waits_bind_iff {m : Exec α} {f : α → Exec β} {s s' : State} {w : WaitState} {p : Pending} :
    Waits (m >>= f) s w p s' ↔ Waits m s w p s' ∨ ∃ a t, Ends m s a t ∧ Waits (f a) t w p s' := by
  simp only [Waits, Ends, run_bind]
  rcases m.run s with ⟨e | a, t⟩ <;> simp [run_result_inj, and_assoc]

theorem traps_bind_iff {m : Exec α} {f : α → Exec β} {s s' : State} {x : TrapInfo} :
    Traps (m >>= f) s x s' ↔ Traps m s x s' ∨ ∃ a t, Ends m s a t ∧ Traps (f a) t x s' := by
  simp only [Traps, Ends, run_bind]
  rcases m.run s with ⟨e | a, t⟩ <;> simp [run_result_inj, and_assoc]

@[simp] theorem waits_pure (a : α) (s s' : State) (w : WaitState) (p : Pending) : ¬ Waits (pure a : Exec α) s w p s' := by
  change ¬ ((Except.ok a, s) : Except Halt α × State) = _
  simp

@[simp] theorem waits_get (s s' : State) (w : WaitState) (p : Pending) : ¬ Waits (get : Exec State) s w p s' := by
  simp [Waits, get_run, run_result_inj]

@[simp] theorem waits_modify (f : State → State) (s s' : State) (w : WaitState) (p : Pending) :
    ¬ Waits (modify f : Exec PUnit) s w p s' := by
  simp [Waits, modify_run, run_result_inj]

@[simp] theorem waits_waitFor (s s' : State) (w w' : WaitState) (p p' : Pending) :
    Waits (waitFor w p : Exec α) s w' p' s' ↔ (w = w' ∧ p = p') ∧ s = s' := by
  change ((Except.error (.wait w p), s) : Except Halt α × State) = (Except.error (.wait w' p'), s') ↔ _
  simp

@[simp] theorem ends_waitFor (s s' : State) (w : WaitState) (p : Pending) (a : α) :
    ¬ Ends (waitFor w p : Exec α) s a s' := by
  change ¬ ((Except.error (.wait w p), s) : Except Halt α × State) = (Except.ok a, s')
  simp

@[simp] theorem waits_trapWith (c : TrapCode) (addr aux : Word) (sg : Nat) (s s' : State) (w : WaitState) (p : Pending) :
    ¬ Waits (trapWith c addr aux sg : Exec α) s w p s' := by
  change ¬ ((Except.error (.trap _), s) : Except Halt α × State) = (Except.error (.wait w p), s')
  simp

@[simp] theorem ends_trapWith (c : TrapCode) (addr aux : Word) (sg : Nat) (s s' : State) (a : α) :
    ¬ Ends (trapWith c addr aux sg : Exec α) s a s' := by
  change ¬ ((Except.error (.trap _), s) : Except Halt α × State) = (Except.ok a, s')
  simp

@[simp] theorem traps_trapWith (c : TrapCode) (addr aux : Word) (sg : Nat) (s s' : State) (x : TrapInfo) :
    Traps (trapWith c addr aux sg : Exec α) s x s' ↔ ⟨c, addr, aux, sg⟩ = x ∧ s = s' := by
  change ((Except.error (.trap _), s) : Except Halt α × State) = (Except.error (.trap x), s') ↔ _
  simp

end Sys2Proof.Machine
end

section
/-! SUPPORT. What taking the scalar operands does: it only records pops of queues (R5, R42). -/

namespace Sys2Proof.Machine

/-- t is s after the instruction being issued has recorded some pops of queues, and nothing else. -/
def PopsQueues (s t : State) : Prop :=
  ∃ ps : List Popped, t = { s with cur := { s.cur with pops := s.cur.pops ++ ps } } ∧ ∀ p ∈ ps, p.next = 0

theorem PopsQueues.refl (s : State) : PopsQueues s s := ⟨[], by simp, by simp⟩

theorem PopsQueues.trans {s t u : State} (h : PopsQueues s t) (h' : PopsQueues t u) : PopsQueues s u := by
  obtain ⟨ps, rfl, hps⟩ := h
  obtain ⟨qs, rfl, hqs⟩ := h'
  exact ⟨ps ++ qs, by simp, fun p hp => (List.mem_append.1 hp).elim (hps p) (hqs p)⟩

theorem PopsQueues.eq_of_cur {s t : State} (h : PopsQueues s t) : t = { s with cur := t.cur } := by
  obtain ⟨ps, rfl, -⟩ := h
  rfl

/-- popQueue takes nothing from a register that stands for no queue, or whose entry is taken already. -/
theorem popQueue_of_none {s : State} {wide : Bool} {r : Reg}
    (h : findQueue (curCore s) wide (r.toNat - 16) = none ∨ (popped s wide r.toNat).isSome) :
    Ends (popQueue wide r) s () s := by
  simp only [popQueue, ends_bind_iff, ends_get]
  refine ⟨s, s, ⟨rfl, rfl⟩, ?_⟩
  split
  · simp_all
  · simp

/-- The record of a pop of v from the queue that a register stands for. -/
def queuePop (s : State) (wide : Bool) (r : Reg) (v : Nat) : Popped :=
  { reg := r.toNat, wide := wide, value := v, binder := s.cur.slot, bits := 512 }

/-- The pop of a queue's oldest entry. -/
theorem popQueue_of_filled {s : State} {wide : Bool} {r : Reg} {q : Queue} {e : QueueEntry} {rest : List QueueEntry} {v : Nat}
    (hq : findQueue (curCore s) wide (r.toNat - 16) = some q) (hp : popped s wide r.toNat = none)
    (he : q.entries = e :: rest) (hv : e.value = some v) :
    Ends (popQueue wide r) s () (addPop (queuePop s wide r v) s) := by
  obtain ⟨n, val⟩ := e
  subst hv
  simp [popQueue, queuePop, ends_bind_iff, hq, hp, he]

/-- A queue whose oldest entry is not there makes the reader wait QEMPTY. -/
theorem popQueue_of_empty {s : State} {wide : Bool} {r : Reg} {q : Queue}
    (hq : findQueue (curCore s) wide (r.toNat - 16) = some q) (hp : popped s wide r.toNat = none)
    (he : ∀ e rest, q.entries = e :: rest → e.value = none) :
    Waits (popQueue wide r) s { reason := .qempty, peer := r.toNat, key := wide.toNat } .none s := by
  simp only [popQueue, waits_bind_iff, ends_get]
  refine .inr ⟨s, s, ⟨rfl, rfl⟩, ?_⟩
  simp only [hq, hp]
  split
  · next h => simpa using he _ _ h
  · simp [regPeer]

theorem popQueue_ends {s s' : State} {wide : Bool} {r : Reg} {u : Unit} (h : Ends (popQueue wide r) s u s') : PopsQueues s s' := by
  simp only [popQueue, ends_bind_iff, ends_get] at h
  obtain ⟨_, _, ⟨rfl, rfl⟩, h⟩ := h
  split at h
  · split at h
    · simp only [ends_modify] at h
      exact ⟨_, h.symm, by simp⟩
    · simp at h
  · obtain ⟨-, rfl⟩ := (ends_pure ..).1 h
    exact .refl _

theorem popQueue_waits {s s' : State} {wide : Bool} {r : Reg} {w : WaitState} {p : Pending} (h : Waits (popQueue wide r) s w p s') :
    p = .none ∧ s' = s ∧ w.reason = .qempty := by
  simp only [popQueue, waits_bind_iff, ends_get, waits_get, false_or] at h
  obtain ⟨_, _, ⟨rfl, rfl⟩, h⟩ := h
  split at h
  · split at h
    · simp at h
    · obtain ⟨⟨rfl, rfl⟩, rfl⟩ := (waits_waitFor ..).1 h
      exact ⟨rfl, rfl, rfl⟩
  · simp at h

/-- A read of a register that is not poisoned ends, and changes nothing. -/
theorem readable_ends_iff {s s' : State} {wide : Bool} {r : Reg} {u : Unit} :
    Ends (readable wide r) s u s' ↔ isPoisoned s wide r = false ∧ s = s' := by
  simp only [readable, ends_bind_iff, ends_get]
  constructor
  · rintro ⟨_, _, ⟨rfl, rfl⟩, h⟩
    split at h <;> simp_all
  · rintro ⟨h, rfl⟩
    exact ⟨s, s, ⟨rfl, rfl⟩, by simp [h]⟩

theorem readable_traps {s : State} {wide : Bool} {r : Reg} (h : isPoisoned s wide r = true) :
    Traps (readable wide r) s ⟨.memPoison, 0, 0, 0⟩ s := by
  simp [readable, traps_bind_iff, h]

theorem not_readable_waits {s s' : State} {wide : Bool} {r : Reg} {w : WaitState} {p : Pending} :
    ¬ Waits (readable wide r) s w p s' := by
  simp only [readable, waits_bind_iff, ends_get, waits_get, false_or]
  rintro ⟨_, _, ⟨rfl, rfl⟩, h⟩
  split at h <;> simp at h

/-- What taking the entry of one source field is: a pop where the field is a shared register, and the read. -/
theorem popQueues_cons (wide : Bool) (r : Reg) (rs : List Reg) :
    popQueues wide (r :: rs) =
      ((if 16 ≤ r.toNat then popQueue wide r else pure ()) >>= fun _ => readable wide r >>= fun _ => popQueues wide rs) := by
  rw [popQueues]
  split <;> rfl

theorem popQueues_ends {wide : Bool} {rs : List Reg} {s s' : State} {u : Unit} (h : Ends (popQueues wide rs) s u s') :
    PopsQueues s s' := by
  induction rs generalizing s with
  | nil =>
    obtain ⟨-, rfl⟩ := (ends_pure ..).1 h
    exact .refl _
  | cons r rs ih =>
    simp only [popQueues_cons, ends_bind_iff, readable_ends_iff] at h
    obtain ⟨_, t, hpop, _, _, ⟨-, rfl⟩, hrest⟩ := h
    refine PopsQueues.trans ?_ (ih hrest)
    split at hpop
    · exact popQueue_ends hpop
    · obtain ⟨-, rfl⟩ := (ends_pure ..).1 hpop
      exact .refl _

theorem popQueues_waits {wide : Bool} {rs : List Reg} {s s' : State} {w : WaitState} {p : Pending}
    (h : Waits (popQueues wide rs) s w p s') : p = .none ∧ PopsQueues s s' ∧ w.reason = .qempty := by
  induction rs generalizing s with
  | nil => simp [popQueues] at h
  | cons r rs ih =>
    simp only [popQueues_cons, waits_bind_iff, readable_ends_iff, not_readable_waits, false_or] at h
    rcases h with h | ⟨_, t, hpop, _, _, ⟨-, rfl⟩, hrest⟩
    · split at h
      · obtain ⟨hp, rfl, hw⟩ := popQueue_waits h
        exact ⟨hp, .refl _, hw⟩
      · simp at h
    · obtain ⟨hp, hs, hw⟩ := ih hrest
      refine ⟨hp, PopsQueues.trans ?_ hs, hw⟩
      split at hpop
      · exact popQueue_ends hpop
      · obtain ⟨-, rfl⟩ := (ends_pure ..).1 hpop
        exact .refl _

theorem reserveQueue_ends {wide : Bool} {r : Reg} {s s' : State} {u : Unit} (h : Ends (reserveQueue wide r) s u s') : s' = s := by
  simp only [reserveQueue, ends_bind_iff, ends_get] at h
  obtain ⟨_, _, ⟨rfl, rfl⟩, h⟩ := h
  split at h
  · split at h <;> simp_all
  · simp_all

theorem reserveQueue_waits {wide : Bool} {r : Reg} {s s' : State} {w : WaitState} {p : Pending}
    (h : Waits (reserveQueue wide r) s w p s') : p = .none ∧ s' = s ∧ w.reason = .qfull := by
  simp only [reserveQueue, waits_bind_iff, ends_get, waits_get, false_or] at h
  obtain ⟨_, _, ⟨rfl, rfl⟩, h⟩ := h
  split at h
  · split at h
    · obtain ⟨⟨rfl, rfl⟩, rfl⟩ := (waits_waitFor ..).1 h
      exact ⟨rfl, rfl, rfl⟩
    · simp at h
  · simp at h

theorem reserveQueue_of_none {wide : Bool} {r : Reg} {s : State} (h : findQueue (curCore s) wide (r.toNat - 16) = none) :
    Ends (reserveQueue wide r) s () s := by
  simp [reserveQueue, ends_bind_iff, h]

/-- The part of useG after the pops: room for the result. -/
theorem useG_eq (srcs : List Reg) (dst : Option Reg) :
    useG srcs dst = (popQueues false srcs >>= fun _ => match dst with
      | some d => if 16 ≤ d.toNat then reserveQueue false d else pure ()
      | none => pure ()) := by
  cases dst <;> rfl

/-- Operands that are taken leave everything as it was but the pops of queues recorded. -/
theorem Takes.popsQueues {srcs : List Reg} {dst : Option Reg} {s s' : State} (h : Takes srcs dst s s') : PopsQueues s s' := by
  simp only [Takes, useG_eq, ends_bind_iff] at h
  obtain ⟨_, t, hpops, hroom⟩ := h
  have hst : t = s' := by
    split at hroom
    · split at hroom
      · exact (reserveQueue_ends hroom).symm
      · simpa using hroom
    · simpa using hroom
  exact hst ▸ popQueues_ends hpops

/-- The wait for scalar operands or for the room of a result (R42). -/
theorem useG_waits {srcs : List Reg} {dst : Option Reg} {s s' : State} {w : WaitState} {p : Pending}
    (h : Waits (useG srcs dst) s w p s') : p = .none ∧ PopsQueues s s' ∧ (w.reason = .qempty ∨ w.reason = .qfull) := by
  simp only [useG_eq, waits_bind_iff] at h
  rcases h with h | ⟨_, t, hpops, hroom⟩
  · obtain ⟨hp, hs, hw⟩ := popQueues_waits h
    exact ⟨hp, hs, .inl hw⟩
  · split at hroom
    · split at hroom
      · obtain ⟨hp, rfl, hw⟩ := reserveQueue_waits hroom
        exact ⟨hp, popQueues_ends hpops, .inr hw⟩
      · simp at hroom
    · simp at hroom

end Sys2Proof.Machine
end

section
/-! SUPPORT. Reads of scalar operands, and O15. -/

namespace Sys2Proof.Machine

theorem popped_of_pops_nil {s : State} (h : s.cur.pops = []) (wide : Bool) (r : Nat) : popped s wide r = none := by
  simp [popped, h]

/-- The first pop of an instruction is the one recorded for its register. -/
theorem popped_queuePop {s : State} (h : s.cur.pops = []) (wide : Bool) (r : Reg) (v : Nat) :
    popped (addPop (queuePop s wide r v) s) wide r.toNat = some (queuePop s wide r v) := by
  simp [popped, addPop, queuePop, h]

@[simp] theorem gval_zero (s : State) : gval s 0 = 0 := by simp [gval]

theorem gval_own (s : State) {r : Reg} (h0 : r ≠ 0) (h : r.toNat < 16) :
    gval s r = (curSlot s).g[r.toNat]?.getD 0 := by
  rw [gval, if_neg h0, if_pos h]

/-- A shared register reads what the instruction has popped for it (R41). -/
theorem gval_of_popped {s : State} {r : Reg} {p : Popped} (h : 16 ≤ r.toNat) (hp : popped s false r.toNat = some p) :
    gval s r = BitVec.ofNat 64 p.value := by
  have h0 : r ≠ 0 := by rintro rfl; simp at h
  rw [gval, if_neg h0, if_neg (by omega), hp]

/-- A shared register for which nothing is popped reads what it holds (R36). -/
theorem gval_of_not_popped {s : State} {r : Reg} (h : 16 ≤ r.toNat) (hp : popped s false r.toNat = none) :
    gval s r = (curCore s).c[r.toNat - 16]?.getD 0 := by
  have h0 : r ≠ 0 := by rintro rfl; simp at h
  rw [gval, if_neg h0, if_neg (by omega), hp]

/-- A register that the instruction has popped is not read as such. -/
theorem isPoisoned_of_popped {s : State} {wide : Bool} {r : Reg} {p : Popped} (h : popped s wide r.toNat = some p) :
    isPoisoned s wide r = false := by
  simp [isPoisoned, h]

/-- The pop of one source field, where the field names no bound queue or one whose entry is taken. -/
theorem popField_of_none {s : State} {wide : Bool} {r : Reg}
    (h : 16 ≤ r.toNat → findQueue (curCore s) wide (r.toNat - 16) = none ∨ (popped s wide r.toNat).isSome) :
    Ends (if 16 ≤ r.toNat then popQueue wide r else pure ()) s () s := by
  split
  · next hr => exact popQueue_of_none (h hr)
  · simp

/-- One source field more: its pop, its read, and the others. -/
theorem popQueues_cons_ends {wide : Bool} {r : Reg} {rs : List Reg} {s t u : State}
    (hpop : Ends (if 16 ≤ r.toNat then popQueue wide r else pure ()) s () t) (hread : isPoisoned t wide r = false)
    (hrest : Ends (popQueues wide rs) t () u) : Ends (popQueues wide (r :: rs)) s () u := by
  simp only [popQueues_cons, ends_bind_iff, readable_ends_iff]
  exact ⟨_, t, hpop, (), t, ⟨hread, rfl⟩, hrest⟩

theorem popQueues_nil_ends (wide : Bool) (s : State) : Ends (popQueues wide []) s () s := by simp [popQueues]

theorem popQueues_of_unbound {wide : Bool} {s : State} {rs : List Reg}
    (hq : ∀ r ∈ rs, 16 ≤ r.toNat → findQueue (curCore s) wide (r.toNat - 16) = none)
    (hp : ∀ r ∈ rs, isPoisoned s wide r = false) : Ends (popQueues wide rs) s () s := by
  induction rs with
  | nil => exact popQueues_nil_ends wide s
  | cons r rs ih =>
    have hpop := popField_of_none fun h => .inl (hq r List.mem_cons_self h)
    exact popQueues_cons_ends hpop (hp r List.mem_cons_self)
      (ih (fun r hr => hq r (List.mem_cons_of_mem _ hr)) fun r hr => hp r (List.mem_cons_of_mem _ hr))

/-- Operands without a bound queue and without poison are taken, and nothing changes (R5, R36). -/
theorem takes_of_unbound {s : State} {srcs : List Reg} {dst : Option Reg}
    (hq : ∀ r, (r ∈ srcs ∨ dst = some r) → 16 ≤ r.toNat → findQueue (curCore s) false (r.toNat - 16) = none)
    (hp : ∀ r ∈ srcs, isPoisoned s false r = false) : Takes srcs dst s s := by
  have hpops := popQueues_of_unbound (fun r hr => hq r (.inl hr)) hp
  simp only [Takes, useG_eq, ends_bind_iff]
  refine ⟨(), s, hpops, ?_⟩
  split
  · next d =>
    split
    · next hd => exact reserveQueue_of_none (hq d (.inr rfl) hd)
    · simp
  · simp

/-- Two fields that name one bound queue take its oldest entry once (R42). -/
theorem takes_twice_of_filled {s : State} {r : Reg} {q : Queue} {e : QueueEntry} {rest : List QueueEntry} {v : Nat}
    (hpops : s.cur.pops = []) (hr : 16 ≤ r.toNat) (hq : findQueue (curCore s) false (r.toNat - 16) = some q)
    (he : q.entries = e :: rest) (hv : e.value = some v) :
    Takes [r, r] none s (addPop (queuePop s false r v) s) := by
  have hpop := popQueue_of_filled hq (popped_of_pops_nil hpops ..) he hv
  have hdone := popped_queuePop hpops false r v
  have hread := isPoisoned_of_popped hdone
  have hagain := popQueue_of_none (.inr (Option.isSome_of_eq_some hdone))
  simp only [Takes, useG_eq, ends_bind_iff]
  refine ⟨(), _, popQueues_cons_ends (by rwa [if_pos hr]) hread (popQueues_cons_ends (by rwa [if_pos hr]) hread
    (popQueues_nil_ends ..)), by simp⟩

theorem useG_waits_of_empty {s : State} {r : Reg} {q : Queue} (hpops : s.cur.pops = []) (hr : 16 ≤ r.toNat)
    (hq : findQueue (curCore s) false (r.toNat - 16) = some q) (he : ∀ e rest, q.entries = e :: rest → e.value = none) :
    Waits (useG [r] none) s { reason := .qempty, peer := r.toNat, key := 0 } .none s := by
  have hwait := popQueue_of_empty hq (popped_of_pops_nil hpops ..) he
  simp only [useG_eq, popQueues_cons, if_pos hr, waits_bind_iff]
  exact .inl (.inl hwait)

theorem useG_traps_of_poisoned {s : State} {r : Reg}
    (hq : 16 ≤ r.toNat → findQueue (curCore s) false (r.toNat - 16) = none) (hp : isPoisoned s false r = true) :
    Traps (useG [r] none) s ⟨.memPoison, 0, 0, 0⟩ s := by
  have hpop := popField_of_none fun h => .inl (hq h)
  simp only [useG_eq, popQueues_cons, traps_bind_iff]
  exact .inl (.inr ⟨(), s, hpop, .inl (readable_traps hp)⟩)

/-- Settles O15: the pops of useG are those of its source fields, one field after the other. -/
theorem operandsTaken : Obligations.OperandsTaken := by
  unfold Obligations.OperandsTaken
  intro s srcs dst hpops
  have hheld : ∀ r : Reg, 16 ≤ r.toNat → gval s r = (curCore s).c[r.toNat - 16]?.getD 0 :=
    fun r hr => gval_of_not_popped hr (popped_of_pops_nil hpops ..)
  refine ⟨fun hq hp => ⟨takes_of_unbound hq hp, gval_zero s, fun r => gval_own s, hheld⟩,
    fun r q hr hq => ⟨fun e rest v he hv => ?_, fun he => ?_, fun r hq hp => useG_traps_of_poisoned hq hp⟩⟩
  · refine ⟨_, takes_twice_of_filled hpops hr hq he hv, ?_, ?_, rfl⟩
    · exact gval_of_popped hr (popped_queuePop hpops false r v)
    · simp [addPop, hpops]
  · refine useG_waits_of_empty hpops hr hq fun e rest h => ?_
    rcases he with he | ⟨e', rest', he, hv⟩
    · simp [he] at h
    · obtain ⟨rfl, -⟩ := List.cons.inj (he.symm.trans h)
      exact hv

end Sys2Proof.Machine
end

section
/-! SUPPORT. What an update of one slot leaves alone, and O10. -/

namespace Sys2Proof.Machine

@[simp] theorem coreOf_setSlot_self (s : State) (c k : Nat) (x : Slot) :
    coreOf (setSlot s c k x) c = { coreOf s c with slots := mapSet (coreOf s c).slots k x } := by
  simp [setSlot]

theorem coreOf_setSlot_of_ne (s : State) {c c' : Nat} (k : Nat) (x : Slot) (h : c' ≠ c) :
    coreOf (setSlot s c k x) c' = coreOf s c' := by
  simp [setSlot, coreOf_setCore_of_ne _ _ h]

/-- The state with the pops of the instruction being issued replaced. -/
def withPops (s : State) (ps : List Popped) : State := { s with cur := { s.cur with pops := ps } }

/-- The slot of a thread that waits and will issue its instruction again (R5, R33). -/
def reissueSlot (w : WaitState) (p : Pending) (s : State) : Slot :=
  { curSlot s with
    wait := w, pend := p, readyAt := ticksOf s s.cur.core + 8, word := s.cur.word, long := s.cur.long, accSg := s.cur.sg,
    accAddr := s.cur.addr, fetched := if p = .none then [] else (curSlot s).fetched }

theorem takeWait_of_reissues {w : WaitState} {p : Pending} {s : State} (h : p.reissues = true) :
    takeWait w p s = setSlot (withPops s []) s.cur.core s.cur.slot (reissueSlot w p s) := by
  rw [takeWait, if_pos h]
  rfl

theorem firm_waits {s s' : State} {w : WaitState} {p : Pending} (h : Waits firm s w p s') : p = .none ∧ s' = s := by
  simp only [firm, waits_bind_iff, ends_get, waits_get, false_or] at h
  obtain ⟨_, _, ⟨rfl, rfl⟩, h⟩ := h
  split at h
  · simp at h
  · obtain ⟨⟨-, rfl⟩, rfl⟩ := (waits_waitFor ..).1 h
    exact ⟨rfl, rfl⟩

theorem awaitRoom_waits {s s' : State} {slot die : Nat} {w : WaitState} {p : Pending} (h : Waits (awaitRoom slot die) s w p s') :
    p = .none ∧ s' = s := by
  simp only [awaitRoom, waits_bind_iff, ends_get, waits_get, false_or] at h
  obtain ⟨_, _, ⟨rfl, rfl⟩, h⟩ := h
  split at h
  · obtain ⟨⟨-, rfl⟩, rfl⟩ := (waits_waitFor ..).1 h
    exact ⟨rfl, rfl⟩
  · simp at h

theorem awaitEntries_waits {s s' : State} {slot : Nat} {f : StoreEntry → Bool} {w : WaitState} {p : Pending}
    (h : Waits (awaitEntries slot f) s w p s') : p = .none ∧ s' = s := by
  simp only [awaitEntries, waits_bind_iff, ends_get, waits_get, false_or] at h
  obtain ⟨_, _, ⟨rfl, rfl⟩, h⟩ := h
  split at h
  · obtain ⟨⟨-, rfl⟩, rfl⟩ := (waits_waitFor ..).1 h
    exact ⟨rfl, rfl⟩
  · simp at h

/-- The acquire of a tile that is READY or FAILED comes only once the wait for it is over (R102, R103). -/
theorem awaitTile_waits {s s' : State} {n need : Nat} {w : WaitState} {p : Pending} (h : Waits (awaitTile n need) s w p s') :
    p = .none ∧ s' = s := by
  simp only [awaitTile, waits_bind_iff, ends_get, waits_get, false_or] at h
  obtain ⟨_, _, ⟨rfl, rfl⟩, h⟩ := h
  split at h
  · simp only [tileWait, waits_bind_iff, ends_waitFor, waits_waitFor, false_and, exists_false, or_false] at h
    obtain ⟨⟨-, rfl⟩, rfl⟩ := h
    exact ⟨rfl, rfl⟩
  · simp at h

/-- Settles O10: a wait comes before the first effect of its instruction, and a wait that re-issues writes one slot. -/
theorem waitLeavesState : Obligations.WaitLeavesState := by
  unfold Obligations.WaitLeavesState
  refine ⟨fun s s' w p srcs dst h => ?_, fun s s' w p slot n need f h => ?_, fun s w p hp => ?_⟩
  · obtain ⟨hp, hs, hw⟩ := useG_waits h
    exact ⟨hp, hs.eq_of_cur, hw⟩
  · rcases h with h | h | h | h
    · exact firm_waits h
    · exact awaitRoom_waits h
    · exact awaitEntries_waits h
    · exact awaitTile_waits h
  · simp only [takeWait_of_reissues hp]
    refine ⟨rfl, fun c hc => coreOf_setSlot_of_ne _ _ _ hc, ?_, fun k hk => slotOf_setSlot_of_ne _ _ hk, slotOf_setSlot_self ..⟩
    rw [coreOf_setSlot_self]
    rfl

end Sys2Proof.Machine
end

section
/-! SUPPORT. The bytes of memory through the ends of instructions: no register write and no pop changes one. -/

namespace Sys2Proof.Machine

theorem byteAt_setCore {s : State} {c : Nat} {x : Core} (hx : x.scratch = (coreOf s c).scratch) (h : Home) :
    byteAt (setCore s c x) h = byteAt s h := by
  cases h with
  | scratch c' o =>
    by_cases hc : c' = c
    · subst hc
      simp [byteAt, hx]
    · simp [byteAt, coreOf_setCore_of_ne _ _ hc]
  | _ => rfl

@[simp] theorem byteAt_setSlot (s : State) (c k : Nat) (x : Slot) (h : Home) : byteAt (setSlot s c k x) h = byteAt s h :=
  byteAt_setCore (by rfl) h

@[simp] theorem byteAt_setCurSlot (s : State) (x : Slot) (h : Home) : byteAt (setCurSlot s x) h = byteAt s h :=
  byteAt_setSlot ..

theorem byteAt_withCur (s : State) (i : Issue) (h : Home) : byteAt { s with cur := i } h = byteAt s h := by
  cases h <;> rfl

theorem byteAt_withReads (s : State) (rs : List BoundRead) (h : Home) : byteAt { s with reads := rs } h = byteAt s h := by
  cases h <;> rfl

@[simp] theorem byteAt_addWb (s : State) (due : Nat) (a : WbAct) (r : Option Nat) (h : Home) :
    byteAt (addWb due a s r) h = byteAt s h :=
  byteAt_setCore (by rfl) h

@[simp] theorem byteAt_pushQueue (s : State) (due : Nat) (wide : Bool) (r : Nat) (q : Queue) (v : Nat) (h : Home) :
    byteAt (pushQueue due wide r q v s) h = byteAt s h :=
  (byteAt_addWb ..).trans (byteAt_setCore (by rfl) h)

@[simp] theorem byteAt_commitPop (core : Nat) (s : State) (p : Popped) (h : Home) : byteAt (commitPop core s p) h = byteAt s h := by
  rw [commitPop]
  split
  · exact byteAt_setCore (by rfl) h
  · exact byteAt_setSlot ..

theorem byteAt_foldl_commitPop (core : Nat) (ps : List Popped) (s : State) (h : Home) :
    byteAt (ps.foldl (commitPop core) s) h = byteAt s h := by
  induction ps generalizing s with
  | nil => rfl
  | cons p ps ih => exact (ih _).trans (byteAt_commitPop ..)

@[simp] theorem byteAt_commitPops (s : State) (h : Home) : byteAt (commitPops s) h = byteAt s h :=
  (byteAt_withCur ..).trans (byteAt_foldl_commitPop ..)

@[simp] theorem byteAt_putG (s : State) (due : Nat) (d : Reg) (v : Word) (h : Home) : byteAt (putG due d v s) h = byteAt s h := by
  rw [putG]
  split
  · rfl
  · split
    · exact byteAt_setCurSlot ..
    · split
      · exact byteAt_pushQueue ..
      · exact byteAt_addWb ..

@[simp] theorem byteAt_putE (s : State) (i : Nat) (v : Word) (h : Home) : byteAt (putE i v s) h = byteAt s h := byteAt_setCurSlot ..

@[simp] theorem byteAt_endFall (s : State) (t : Nat) (h : Home) : byteAt (endFall t s) h = byteAt s h :=
  (byteAt_setCurSlot ..).trans (byteAt_commitPops ..)

/-- A scalar result changes no byte of memory (R6). -/
theorem byteAt_writesG (s : State) (t : Nat) (d : Reg) (v : Word) (h : Home) : byteAt (writesG t d v s) h = byteAt s h :=
  (byteAt_endFall ..).trans (byteAt_putG ..)

theorem PopsQueues.byteAt_eq {s t : State} (hp : PopsQueues s t) (h : Home) : byteAt t h = byteAt s h := by
  rw [hp.eq_of_cur, byteAt_withCur]

end Sys2Proof.Machine
end

section
/-! SUPPORT. The frame of an instruction that ends: of the package only the issuing core, of its threads only the issuing one. -/

namespace Sys2Proof.Machine

/-- Of the package nothing changes but slots, queues and pending writebacks of the issuing core, and of its slots only the issuing
one; the same slot goes on issuing. -/
def IssueFrame (s t : State) : Prop :=
  OnlyIssuer s t ∧ (∀ k, k ≠ s.cur.slot → slotOf t s.cur.core k = slotOf s s.cur.core k) ∧
    t.cur.core = s.cur.core ∧ t.cur.slot = s.cur.slot

/-- The same, and the issuing slot is as it was. -/
def QueueFrame (s t : State) : Prop := IssueFrame s t ∧ slotOf t s.cur.core s.cur.slot = slotOf s s.cur.core s.cur.slot

theorem IssueFrame.core_eq {s t : State} (h : IssueFrame s t) : t.cur.core = s.cur.core := by
  obtain ⟨-, -, hc, -⟩ := h
  exact hc

theorem IssueFrame.slot_eq {s t : State} (h : IssueFrame s t) : t.cur.slot = s.cur.slot := by
  obtain ⟨-, -, -, hk⟩ := h
  exact hk

theorem IssueFrame.refl (s : State) : IssueFrame s s := ⟨⟨rfl, fun _ _ => rfl, rfl⟩, fun _ _ => rfl, rfl, rfl⟩

theorem OnlyCores.trans {s t u : State} (h : OnlyCores s t) (h' : OnlyCores t u) : OnlyCores s u := by
  have ht : t = { s with cores := t.cores, cur := t.cur } := h
  exact Eq.trans h' (by rw [ht])

theorem IssueFrame.trans {s t u : State} (h : IssueFrame s t) (h' : IssueFrame t u) : IssueFrame s u := by
  obtain ⟨⟨hpkg, hcores, hcore⟩, hslots, hc, hk⟩ := h
  obtain ⟨⟨hpkg', hcores', hcore'⟩, hslots', hc', hk'⟩ := h'
  rw [hc] at hcores' hcore' hslots' hc'
  rw [hk] at hslots' hk'
  refine ⟨⟨hpkg.trans hpkg', fun c hne => (hcores' c hne).trans (hcores c hne), ?_⟩,
    fun k hne => (hslots' k hne).trans (hslots k hne), hc', hk'⟩
  exact hcore'.trans (by rw [hcore])

theorem QueueFrame.refl (s : State) : QueueFrame s s := ⟨.refl s, rfl⟩

theorem QueueFrame.trans {s t u : State} (h : QueueFrame s t) (h' : QueueFrame t u) : QueueFrame s u := by
  obtain ⟨hf, hs⟩ := h
  obtain ⟨hf', hs'⟩ := h'
  rw [hf.core_eq, hf.slot_eq] at hs'
  exact ⟨hf.trans hf', hs'.trans hs⟩

/-- The issuing core with other queues and writebacks. -/
theorem queueFrame_setCore (s : State) (qs : List Queue) (wb : List Wb) :
    QueueFrame s (setCore s s.cur.core { coreOf s s.cur.core with queues := qs, wb := wb }) := by
  refine ⟨⟨⟨rfl, fun c hc => coreOf_setCore_of_ne _ _ hc, ?_⟩, fun k _ => ?_, rfl, rfl⟩, ?_⟩
  · rw [coreOf_setCore_self]
  · simp [slotOf]
  · simp [slotOf]

theorem issueFrame_setCurSlot (s : State) (x : Slot) : IssueFrame s (setCurSlot s x) := by
  refine ⟨⟨rfl, fun c hc => coreOf_setSlot_of_ne _ _ _ hc, ?_⟩, fun k hk => slotOf_setSlot_of_ne _ _ hk, rfl, rfl⟩
  rw [setCurSlot, coreOf_setSlot_self]

theorem queueFrame_withPops (s : State) (ps : List Popped) : QueueFrame s (withPops s ps) :=
  ⟨⟨⟨rfl, fun _ _ => rfl, rfl⟩, fun _ _ => rfl, rfl, rfl⟩, rfl⟩

theorem PopsQueues.queueFrame {s t : State} (h : PopsQueues s t) : QueueFrame s t := by
  obtain ⟨ps, rfl, -⟩ := h
  exact queueFrame_withPops ..

/-- A pop of a queue frees its entry there (R42). -/
theorem queueFrame_commitPop {s : State} {p : Popped} (h : p.next = 0) : QueueFrame s (commitPop s.cur.core s p) := by
  rw [commitPop, if_pos h]
  exact queueFrame_setCore ..

theorem queueFrame_foldl_commitPop {ps : List Popped} {s : State} (h : ∀ p ∈ ps, p.next = 0) :
    QueueFrame s (ps.foldl (commitPop s.cur.core) s) := by
  induction ps generalizing s with
  | nil => exact .refl s
  | cons p ps ih =>
    have hp := queueFrame_commitPop (s := s) (h p List.mem_cons_self)
    have hrest := ih (s := commitPop s.cur.core s p) fun q hq => h q (List.mem_cons_of_mem _ hq)
    rw [hp.1.core_eq] at hrest
    exact hp.trans hrest

theorem queueFrame_commitPops {s : State} (h : ∀ p ∈ s.cur.pops, p.next = 0) : QueueFrame s (commitPops s) :=
  (queueFrame_foldl_commitPop h).trans (queueFrame_withPops ..)

/-- A result that goes to g0 or to a shared register leaves the slot as it was. -/
theorem queueFrame_putG {s : State} {due : Nat} {d : Reg} {v : Word} (h : d = 0 ∨ ¬ d.toNat < 16) :
    QueueFrame s (putG due d v s) := by
  rw [putG]
  split
  · exact .refl s
  · next h0 =>
    rw [if_neg (h.resolve_left h0)]
    split
    · exact (queueFrame_setCore s _ _).trans (queueFrame_setCore (setCurCore s _) _ _)
    · exact queueFrame_setCore ..

/-- A slot after the write of a g register (R36, R110). -/
def slotPutG (d : Reg) (v : Word) (x : Slot) : Slot :=
  if d = 0 ∨ ¬ d.toNat < 16 then x else { x.clean false d.toNat with g := x.g.setIfInBounds d.toNat v }

theorem putG_own (s : State) {due : Nat} {d : Reg} {v : Word} (h : ¬ (d = 0 ∨ ¬ d.toNat < 16)) :
    putG due d v s = setCurSlot s (slotPutG d v (curSlot s)) := by
  rw [slotPutG, if_neg h, putG, if_neg fun h0 => h (.inl h0), if_pos (by tauto)]

theorem putG_frame (s : State) (due : Nat) (d : Reg) (v : Word) :
    IssueFrame s (putG due d v s) ∧
      slotOf (putG due d v s) s.cur.core s.cur.slot = slotPutG d v (curSlot s) := by
  by_cases h : d = 0 ∨ ¬ d.toNat < 16
  · obtain ⟨hf, hs⟩ := queueFrame_putG (s := s) (due := due) (v := v) h
    exact ⟨hf, by rw [hs, slotPutG, if_pos h, curSlot]⟩
  · rw [putG_own s h]
    exact ⟨issueFrame_setCurSlot .., slotOf_setSlot_self ..⟩

@[simp] theorem putG_cur (s : State) (due : Nat) (d : Reg) (v : Word) : (putG due d v s).cur = s.cur := by
  rw [putG]
  split
  · rfl
  · split
    · rfl
    · split <;> rfl

/-- The slot of an instruction that has ended and falls through. -/
theorem endFall_frame {s : State} (t : Nat) (h : ∀ p ∈ s.cur.pops, p.next = 0) :
    IssueFrame s (endFall t s) ∧ slotOf (endFall t s) s.cur.core s.cur.slot =
      paced (commitPops s) t ((curSlot s).fall (curLen (commitPops s))) := by
  obtain ⟨hf, hs⟩ := queueFrame_commitPops h
  have hc := hf.core_eq
  have hk := hf.slot_eq
  have hcur : curSlot (commitPops s) = curSlot s := by rw [curSlot, hc, hk, hs, curSlot]
  refine ⟨hf.trans (issueFrame_setCurSlot ..), ?_⟩
  rw [endFall, hcur, setCurSlot, hc, hk, slotOf_setSlot_self]

end Sys2Proof.Machine
end

section
/-! SUPPORT. The frame of the scalar instructions, and O17. -/

namespace Sys2Proof.Machine

/-- An instruction that began without pops has popped queues only. -/
theorem PopsQueues.next_eq_zero {s t : State} (h : PopsQueues s t) (h0 : s.cur.pops = []) : ∀ p ∈ t.cur.pops, p.next = 0 := by
  obtain ⟨ps, rfl, hps⟩ := h
  simpa [h0] using hps

@[simp] theorem putE_cur (i : Nat) (v : Word) (s : State) : (putE i v s).cur = s.cur := rfl

@[simp] theorem endFall_pops (t : Nat) (s : State) : (endFall t s).cur.pops = [] := rfl

/-- The end of a scalar instruction: its frame, and the slot of its thread (R33, R36, R46). -/
theorem writesG_frame {s : State} (t : Nat) (d : Reg) (v : Word) (h : ∀ p ∈ s.cur.pops, p.next = 0) :
    IssueFrame s (writesG t d v s) ∧ ∃ u n, slotOf (writesG t d v s) s.cur.core s.cur.slot =
      paced u t ((slotPutG d v (curSlot s)).fall n) := by
  obtain ⟨hf, hs⟩ := putG_frame s (wbPoint s t) d v
  obtain ⟨hf', hs'⟩ := endFall_frame (s := putG (wbPoint s t) d v s) t (by simpa using h)
  rw [putG_cur] at hs'
  refine ⟨hf.trans hf', commitPops (putG (wbPoint s t) d v s), curLen (commitPops (putG (wbPoint s t) d v s)), ?_⟩
  rw [writesG, hs', ← hs, curSlot, putG_cur]

theorem slotPutG_g_of_ne {d r : Reg} (v : Word) (x : Slot) (h : r ≠ d) : (slotPutG d v x).g[r.toNat]? = x.g[r.toNat]? := by
  rw [slotPutG]
  split
  · rfl
  · have hne : d.toNat ≠ r.toNat := fun he => h (BitVec.eq_of_toNat_eq he.symm)
    simp [hne]

theorem mem_slotPutG_poison {d : Reg} (v : Word) (x : Slot) {y : Bool × Nat} (h : y ≠ (false, d.toNat)) :
    y ∈ (slotPutG d v x).poison ↔ y ∈ x.poison := by
  rw [slotPutG]
  split
  · rfl
  · simp [Slot.clean, h]

@[simp] theorem slotPutG_fflags (d : Reg) (v : Word) (x : Slot) : (slotPutG d v x).fflags = x.fflags := by
  rw [slotPutG]
  split <;> rfl

/-- Where only the issuing slot has changed, and it as by a scalar result, the change is that of OnlyG. -/
theorem onlyG_of_issueFrame {s t u : State} {d : Reg} {v : Word} {k n : Nat} (h : IssueFrame s t)
    (hx : slotOf t s.cur.core s.cur.slot = paced u k ((slotPutG d v (curSlot s)).fall n)) : OnlyG d s t := by
  obtain ⟨hissuer, hslots, -, -⟩ := h
  refine ⟨hissuer, hslots, fun r hr => ?_, fun y hy => ?_, ?_⟩
  · rw [hx]
    exact slotPutG_g_of_ne v _ hr
  · rw [hx]
    exact mem_slotPutG_poison v _ hy
  · rw [hx, slotPutG]
    split <;> rfl

/-- A frame may begin before the pops of the instruction. -/
theorem IssueFrame.of_pops {s s' t : State} (hp : PopsQueues s s') (h : IssueFrame s' t) : IssueFrame s t :=
  hp.queueFrame.1.trans h

theorem PopsQueues.curSlot_eq {s t : State} (h : PopsQueues s t) : curSlot t = curSlot s := by
  obtain ⟨ps, rfl, -⟩ := h
  rfl

theorem PopsQueues.issuer_eq {s t : State} (h : PopsQueues s t) : t.cur.core = s.cur.core ∧ t.cur.slot = s.cur.slot := by
  obtain ⟨ps, rfl, -⟩ := h
  exact ⟨rfl, rfl⟩

/-- The scalar instruction from its issue on: its frame, and what becomes of its slot. -/
theorem scalar_frame {s s' : State} (t : Nat) {srcs : List Reg} {d : Reg} (v : Word) (h0 : s.cur.pops = [])
    (ht : Takes srcs (some d) s s') :
    OnlyG d s (writesG t d v s') ∧ (slotOf (writesG t d v s') s.cur.core s.cur.slot).fflags = (curSlot s).fflags := by
  have hp := ht.popsQueues
  obtain ⟨hc, hk⟩ := hp.issuer_eq
  obtain ⟨hf, u, n, hx⟩ := writesG_frame t d v (hp.next_eq_zero h0)
  rw [hc, hk, hp.curSlot_eq] at hx
  exact ⟨onlyG_of_issueFrame (hf.of_pops hp) hx, by rw [hx]; exact slotPutG_fflags ..⟩

/-- MVX from its issue on: its frame, and what becomes of its slot (R330). -/
theorem mvx_frame {s s' : State} {a : Reg} (i : Nat) (v : Word) (h0 : s.cur.pops = []) (ht : Takes [a] none s s') :
    IssueFrame s (endFall 1 (putE i v s')) ∧ ∃ u n, slotOf (endFall 1 (putE i v s')) s.cur.core s.cur.slot =
      paced u 1 (({ curSlot s with e := (curSlot s).e.setIfInBounds i v } : Slot).fall n) := by
  have hp := ht.popsQueues
  obtain ⟨hc, hk⟩ := hp.issuer_eq
  have hput : IssueFrame s' (putE i v s') := issueFrame_setCurSlot ..
  obtain ⟨hf, hx⟩ := endFall_frame (s := putE i v s') 1 (hp.next_eq_zero h0)
  refine ⟨(hput.trans hf).of_pops hp, commitPops (putE i v s'), curLen (commitPops (putE i v s')), ?_⟩
  rw [putE_cur, hc, hk] at hx
  rw [hx, putE, curSlot_setCurSlot, hp.curSlot_eq]

/-- Settles O17: pops and results write queues, writebacks and the issuing slot only. -/
theorem scalarFrame : Obligations.ScalarFrame := by
  unfold Obligations.ScalarFrame
  intro s s' t srcs d v h0 ht
  obtain ⟨honly, hflags⟩ := scalar_frame t v h0 ht
  refine ⟨honly, fun h => (byteAt_writesG ..).trans (ht.popsQueues.byteAt_eq h), hflags, endFall_pops .., ?_⟩
  intro e a s'' hta
  obtain ⟨⟨hissuer, hslots, -, -⟩, u, n, hx⟩ := mvx_frame e.toNat (gval s'' a) h0 hta
  refine ⟨hissuer, hslots, fun h => ?_, ?_⟩
  · rw [byteAt_endFall, byteAt_putE, hta.popsQueues.byteAt_eq]
  · rw [hx]
    exact ⟨rfl, rfl, rfl, rfl, rfl⟩

end Sys2Proof.Machine
end

section
/-! SUPPORT. Loads from places of this package, and O25. -/

namespace Sys2Proof.Machine

/-! ### The bytes at a plain place -/

/-- A plain piece is here: no request goes out for it. -/
theorem Piece.plain.absent_eq {s : State} {p : Piece} (h : p.plain s) (x : Access) : absent s x p = false := by
  obtain ⟨-, -, hhome⟩ := h
  obtain ⟨home, n, plat⟩ := p
  cases home with
  | scratch | commons | hbm => simp [absent, needsLine]
  | host | remote | coherent => exact hhome.elim

/-- A line that home has not lost (R240). -/
theorem lostAt_hbm_of_forall {s : State} {q : Nat} (h : ∀ l ∈ s.lostLines, l.1 ≠ q / 64) : lostAt s (.hbm q) = none := by
  simpa [lostAt] using h

/-- A plain piece is served at its home by the bytes that stand there (R99, R110, R120). -/
theorem Piece.plain.servePiece_eq {s : State} {p : Piece} (h : p.plain s) (x : Access) :
    servePiece s x p = (.value (bytesAt s p.home p.n), s) := by
  obtain ⟨hplat, -, hhome⟩ := h
  obtain ⟨home, n, plat⟩ := p
  cases home with
  | scratch c o => simp_all [servePiece, prepare, loadHome, bytesAt]
  | commons a => simp_all [servePiece, prepare, loadHome, bytesAt]
  | hbm q => simp_all [servePiece, prepare, loadHome, lostAt_hbm_of_forall hhome.2, bytesAt]
  | host | remote | coherent => exact hhome.elim

theorem servePieces_of_plain {s : State} {ps : List Piece} (x : Access) (h : ∀ p ∈ ps, p.plain s) :
    Ends (servePieces x ps) s (some (piecesAt s ps)) s := by
  induction ps with
  | nil => simp [servePieces, piecesAt]
  | cons p ps ih =>
    have hp := (h p List.mem_cons_self).servePiece_eq x
    have hps := ih fun q hq => h q (List.mem_cons_of_mem _ hq)
    simp only [servePieces, ends_bind_iff, ends_get, ends_set]
    refine ⟨s, s, ⟨rfl, rfl⟩, ⟨⟩, s, by rw [hp], ?_⟩
    simp only [hp, servedTrap, ends_pure]
    refine ⟨(), s, ⟨trivial, rfl⟩, ?_⟩
    simp only [ends_bind_iff]
    refine ⟨_, s, hps, ?_⟩
    simp [piecesAt, Nat.shiftLeft_eq]

theorem awaitLimit_nil (s : State) : Ends (awaitLimit []) s () s := by simp [awaitLimit]

theorem requestPieces_of_plain {s : State} {ps : List Piece} (x : Access) (h : ∀ p ∈ ps, p.plain s) :
    Ends (requestPieces x ps) s () s := by
  have hout : ps.filter (absent s x) = [] := by
    simpa using fun p hp => (h p hp).absent_eq x
  simp only [requestPieces, ends_bind_iff, ends_get]
  refine ⟨s, s, ⟨rfl, rfl⟩, (), s, ?_⟩
  rw [hout]
  exact ⟨awaitLimit_nil s, by simp [askPieces]⟩

/-- A load of plain pieces, with nothing buffered before it, brings their bytes: beyond the scratchpad where its move answers at once
and no bound read is ahead (R34, R120, R122). -/
theorem loadBytes_of_plain {s : State} {x : Access} {ps : List Piece} (pend : Pending) (hp : ∀ p ∈ ps, p.plain s)
    (hst : (slotOf s x.core x.slot).stores = [])
    (hfar : (∀ p ∈ ps, p.home.cls x.core = .core) ∨ (s.cur.defer = false ∧ ∀ p ∈ ps, readsAhead s x.core p = false)) :
    Ends (loadBytes x ps pend) s (piecesAt s ps) (barLines (threadId x.core x.slot) (ps.map (·.home.line)) s) := by
  have hserve := servePieces_of_plain x hp
  have hforward : forward (slotOf s x.core x.slot).stores ps = .none := by simp [forward, hst]
  simp only [loadBytes, ends_bind_iff, ends_get]
  refine ⟨s, s, ⟨rfl, rfl⟩, ?_⟩
  simp only [hforward]
  split
  · next p hfind =>
    obtain ⟨hdefer, hahead⟩ := hfar.resolve_left fun hall => by
      simpa [hall p (List.mem_of_find?_eq_some hfind)] using List.find?_some hfind
    have hgo : (s.cur.defer || ps.any fun q => readsAhead s x.core q || absent s x q) = false := by
      simpa [hdefer] using fun q hq => ⟨hahead q hq, (hp q hq).absent_eq x⟩
    simp only [ends_bind_iff]
    refine ⟨(), s, requestPieces_of_plain x hp, ?_⟩
    simp only [hgo, Bool.false_eq_true, if_false, ends_bind_iff]
    exact ⟨_, s, hserve, by simp⟩
  · simp only [ends_bind_iff]
    exact ⟨_, s, hserve, by simp⟩

/-! ### The checks of a scratchpad access (R98 to R100) -/

/-- Steps 1 to 3 of R98 pass. -/
theorem checkSegment_of_ok {s : State} {x : Access} (hin : x.spans.all (inSegment x.seg) = true)
    (hr : (x.load && !x.seg.r) = false) (hw : (x.store && !x.seg.w) = false)
    (hbar : (decide (x.seg.space = 2) && (x.isAmo || scratchBarred s x)) = false)
    (hal : x.alignedBy.getD (segAddr x.seg x.off) % x.align = 0) : Ends (checkSegment x) s () s := by
  simp only [checkSegment, ends_bind_iff, ends_get]
  refine ⟨s, s, ⟨rfl, rfl⟩, ?_⟩
  simp [hin, hr, hw, hbar, hal]

theorem checkReach_of_scratch {s : State} (x : Access) (c : Nat) (rs : List (Nat × Nat)) :
    Ends (checkReach x (rs.map fun r => ⟨.scratch c r.1, r.2, none⟩)) s () s := by
  induction rs with
  | nil => simp [checkReach]
  | cons r rs ih =>
    simp only [List.map_cons, checkReach, ends_bind_iff, ends_get]
    exact ⟨s, s, ⟨rfl, rfl⟩, ih⟩

theorem checkPlats_of_scratch {s : State} (x : Access) (c : Nat) (rs : List (Nat × Nat)) :
    Ends (checkPlats x (rs.map fun r => ⟨.scratch c r.1, r.2, none⟩)) s () s := by
  simp [checkPlats, List.filterMap_map]

/-- The state once the checks of an access have passed: its segment register and address are noted (R190). -/
def withAccess (s : State) (x : Access) : State := { s with cur := { s.cur with sg := x.sg, addr := x.va } }

/-- After its first checks an access to the scratchpad that is no AMO passes. -/
theorem checkAccess_of_scratch {s : State} {x : Access} (hseg : Ends (checkSegment x) s () s) (hspace : x.seg.space = 2)
    (hamo : x.isAmo = false) :
    Ends (checkAccess x) s (x.runs.map fun r => ⟨.scratch x.core r.1, r.2, none⟩) (withAccess s x) := by
  have hfirm : (x.runs.map fun r => (⟨.scratch x.core r.1, r.2, none⟩ : Piece)).any (firmAccess x) = false := by
    simp [firmAccess, hamo]
  have hplats := checkPlats_of_scratch (s := s) x x.core x.runs
  have hreach := checkReach_of_scratch (s := s) x x.core x.runs
  simp only [checkAccess, ends_bind_iff]
  refine ⟨(), s, hseg, ?_⟩
  simp only [hspace, ends_bind_iff, ends_pure]
  refine ⟨_, s, ⟨rfl, rfl⟩, (), s, hplats, ?_⟩
  simp only [show ¬ (2 : Nat) = 1 by decide, if_false, ends_bind_iff, ends_get]
  refine ⟨s, s, ⟨rfl, rfl⟩, ?_⟩
  simp only [hfirm, Bool.false_and, Bool.false_eq_true, if_false, ends_bind_iff]
  exact ⟨(), s, hreach, ⟨⟩, withAccess s x, by simp [withAccess], by simp⟩

/-- An element at a multiple of its size lies in one line. -/
theorem lineSpan_of_aligned {a : Nat} {f : Fmt} (h : a % Fmt.bytes f = 0) : lineSpan a (Fmt.bytes f) = Fmt.bytes f := by
  cases f <;> simp only [Fmt.bytes, lineSpan] at h ⊢ <;> omega

theorem Fmt.bytes_pos (f : Fmt) : 0 < Fmt.bytes f := by cases f <;> decide

theorem cutLines_of_aligned {a : Nat} {f : Fmt} (h : a % Fmt.bytes f = 0) (fuel : Nat) :
    cutLines a (Fmt.bytes f) (fuel + 1) = [(a, Fmt.bytes f)] := by
  have h0 : Fmt.bytes f ≠ 0 := (Fmt.bytes_pos f).ne'
  cases fuel <;> simp [cutLines, lineSpan_of_aligned h, h0]

/-- A range that ends where another begins does not meet it. -/
theorem not_rangesMeet_of_le {a n b m : Nat} (h : a + n ≤ b) : rangesMeet a n b m = false := by
  simp only [rangesMeet, decide_eq_false_iff_not]
  omega

/-- n bytes at an offset of a segment that a load may read in the scratchpad: inside the segment, which gives R, below the message
ring, at a multiple of n (R97 to R100). -/
structure ScratchReadable (seg : Seg) (off : Int) (n : Nat) : Prop where
  space : seg.space = 2
  right : seg.r = true
  nonneg : 0 ≤ off
  limit : off + n ≤ seg.limit.toNat
  ring : segAddr seg off + n ≤ 0x3C000
  aligned : segAddr seg off % n = 0

/-- The segment register of the issuing thread. -/
def curSeg (s : State) (sg : Nat) : Seg := (curSlot s).sg[sg]?.getD {}

/-- The access of LD (R310). -/
def loadAccess (s : State) (sg : Nat) (off : Int) (n : Nat) : Access := ownAccess s sg off n n true false

@[simp] theorem loadAccess_seg (s : State) (sg : Nat) (off : Int) (n : Nat) : (loadAccess s sg off n).seg = curSeg s sg := rfl
@[simp] theorem loadAccess_core (s : State) (sg : Nat) (off : Int) (n : Nat) : (loadAccess s sg off n).core = s.cur.core := rfl
@[simp] theorem loadAccess_spans (s : State) (sg : Nat) (off : Int) (n : Nat) : (loadAccess s sg off n).spans = [(off, n)] := rfl
@[simp] theorem loadAccess_load (s : State) (sg : Nat) (off : Int) (n : Nat) : (loadAccess s sg off n).load = true := rfl
@[simp] theorem loadAccess_store (s : State) (sg : Nat) (off : Int) (n : Nat) : (loadAccess s sg off n).store = false := rfl
@[simp] theorem loadAccess_isAmo (s : State) (sg : Nat) (off : Int) (n : Nat) : (loadAccess s sg off n).isAmo = false := rfl

theorem ScratchReadable.inSegment_eq {seg : Seg} {off : Int} {n : Nat} (h : ScratchReadable seg off n) :
    inSegment seg (off, n) = true := by
  obtain ⟨hspace, -, h0, hlimit, hring, -⟩ := h
  have hbits := seg.limit.isLt
  simp only [segAddr] at hring
  simp only [inSegment, hspace, spaceTop, Bool.and_eq_true, decide_eq_true_eq]
  omega

theorem ScratchReadable.not_barred {s : State} {sg : Nat} {off : Int} {n : Nat} (h : ScratchReadable (curSeg s sg) off n) :
    scratchBarred s (loadAccess s sg off n) = false := by
  simp [scratchBarred, not_rangesMeet_of_le h.ring]

/-- The checks of a scratchpad load pass, and it is one piece. -/
theorem checkAccess_of_scratchReadable {s : State} {sg : Nat} {off : Int} {f : Fmt}
    (h : ScratchReadable (curSeg s sg) off (Fmt.bytes f)) :
    Ends (checkAccess (loadAccess s sg off (Fmt.bytes f))) s
      [⟨.scratch s.cur.core (segAddr (curSeg s sg) off), Fmt.bytes f, none⟩] (withAccess s (loadAccess s sg off (Fmt.bytes f))) := by
  have hruns : (loadAccess s sg off (Fmt.bytes f)).runs = [(segAddr (curSeg s sg) off, Fmt.bytes f)] := by
    simp [Access.runs, cutLines_of_aligned h.aligned]
  have hseg : Ends (checkSegment (loadAccess s sg off (Fmt.bytes f))) s () s :=
    checkSegment_of_ok (by simp [h.inSegment_eq]) (by simp [h.right]) (by simp) (by simp [h.not_barred]) h.aligned
  have hcheck := checkAccess_of_scratch hseg h.space rfl
  rwa [hruns] at hcheck

/-- LD once its operands are taken, its checks are passed and its bytes have come (R311). -/
theorem execLd_of_ends {s s1 s2 s3 : State} {d a : Reg} {sg : SReg} {f : Fmt} {disp : BitVec 8} {ps : List Piece} {v : Nat}
    (ht : Takes [a] (some d) s s1)
    (hc : Ends (checkAccess (loadAccess s1 sg.toNat (effective s1 a disp (Fmt.bytes f)) (Fmt.bytes f))) s1 ps s2)
    (hl : Ends (loadBytes (loadAccess s1 sg.toNat (effective s1 a disp (Fmt.bytes f)) (Fmt.bytes f)) ps
      (.load false ps (.g d f))) s2 v s3) :
    exec (.ld d sg a f disp) s = .next (writesG 1 d (widenG f v) s3) := by
  have hend : Ends (loadScalar false d sg a f disp) s () (writesG 1 d (widenG f v) s3) := by
    simp only [loadScalar, ends_bind_iff, ends_get]
    refine ⟨(), s1, ht, s1, s1, ⟨rfl, rfl⟩, ps, s2, hc, v, s3, hl, ?_⟩
    simp [writesG]
  exact run_of_ends hend

/-- The bytes of memory after the checks of an access and its load. -/
theorem byteAt_barLines_withAccess (s : State) (x : Access) (n : Nat) (ls : List Home) (h : Home) :
    byteAt (barLines n ls (withAccess s x)) h = byteAt s h :=
  (byteAt_withReads ..).trans (byteAt_withCur ..)

/-- Settles O25: the pieces of a load of this package's plain places are all here, and a scratchpad element is one such piece. -/
theorem loadsReadTheirHomes : Obligations.LoadsReadTheirHomes := by
  unfold Obligations.LoadsReadTheirHomes
  refine ⟨fun s x ps pend hp hst hdefer => ?_, ?_⟩
  · exact ⟨_, loadBytes_of_plain pend (fun p h => (hp p h).1) hst (.inr ⟨hdefer, fun p h => (hp p h).2⟩), rfl⟩
  · intro s s1 d a sg f disp ht _ n off seg A v hspace hr h0 hlimit hring hal hpoison hst
    have hread : ScratchReadable (curSeg s1 sg.toNat) off n := ⟨hspace, hr, h0, hlimit, hring, hal⟩
    have hplain : ∀ p ∈ [(⟨.scratch s1.cur.core A, n, none⟩ : Piece)], p.plain (withAccess s1 (loadAccess s1 sg.toNat off n)) := by
      simp only [List.mem_singleton, forall_eq]
      exact ⟨rfl, rfl, hpoison⟩
    have hload := loadBytes_of_plain (x := loadAccess s1 sg.toNat off n) (.load false [⟨.scratch s1.cur.core A, n, none⟩] (.g d f))
      hplain hst (.inl (by simp [Home.cls]))
    have hv : piecesAt (withAccess s1 (loadAccess s1 sg.toNat off n)) [⟨.scratch s1.cur.core A, n, none⟩] =
        memRead (curCore s1).scratch A n := by
      simp only [piecesAt, Nat.zero_mul, Nat.add_zero]
      rfl
    rw [hv] at hload
    exact ⟨_, execLd_of_ends ht (checkAccess_of_scratchReadable hread) hload, rfl, rfl, rfl, rfl, rfl,
      fun h => (byteAt_writesG ..).trans (byteAt_barLines_withAccess ..)⟩

end Sys2Proof.Machine
end

section
/-! SUPPORT. The fabric: packets at the router, requests that fail, and what becomes of a port (R223, R224, R232, R234). -/

namespace Sys2Proof.Machine

/-! ### Packets at the router -/

theorem execRoutePacket_of_error {s : State} {packet : Transit} {d cause : Nat} (h : route s packet.dst d = .error cause) :
    execRoutePacket packet d s = .next (if packet.cls = .req then refuseRequest cause packet s else s) := by
  rw [execRoutePacket, h]

theorem execRoutePacket_of_port {s : State} {packet : Transit} {d p : Nat} (h : route s packet.dst d = .port p)
    (hnew : packet ∉ (portOf s p).held) :
    execRoutePacket packet d s = .next (setPort s p { portOf s p with held := (portOf s p).held ++ [packet] }) := by
  simp [execRoutePacket, h, hnew]

/-! ### Requests that fail -/

/-- A request of another package is answered with an error. -/
theorem refuseRequest_of_other {s : State} (cause : Nat) (packet : Transit) (h : packet.src ≠ s.pkgId.toNat) :
    refuseRequest cause packet s = { s with outbox := (packet.src, .error packet.seq cause) :: s.outbox } :=
  if_neg h

/-- A request of this package fails. -/
theorem refuseRequest_of_own {s : State} {packet : Transit} {o : Outstanding} (cause : Nat) (h : packet.src = s.pkgId.toNat)
    (ho : s.outstanding.find? (fun o => o.dst == packet.dst && o.seq == packet.seq) = some o) :
    refuseRequest cause packet s = failRequest cause s o := by
  rw [refuseRequest, if_pos h, ho]

/-- A reply that can come now lets its thread go on. -/
theorem replyWaiter_of_replyTo {s : State} {w : Nat × Nat} {r : Reply} {m : Exec Unit} (h : replyTo s w.1 w.2 r = some m) :
    replyWaiter r s w = resume w.1 w.2 m s := by
  rw [replyWaiter, h]

/-- A thread that waits for no message takes the failure as the reply to its access. -/
theorem failThread_of_access {s : State} {w : Nat × Nat} (cause : Nat)
    (h : ∀ a b c d, (slotOf s w.1 w.2).pend ≠ .amsg a b c d) :
    failThread cause s w = replyWaiter (.fabricError cause s.pkgId.toNat) s w := by
  rw [failThread]
  split
  · next hp => exact absurd hp (h _ _ _ _)
  · rfl

/-- The failed request of an engine operation is the operation's failure (R293). -/
theorem failedLate_of_copy {s : State} {o : Outstanding} {op elem : Nat} {eo : EngineOp} (r : Reply) (hc : o.copy = some (op, elem))
    (hop : mapFind s.ops op = some eo) (hrun : clusterOf eo.core ∉ s.halted) :
    failedLate s o r = { s with ops := mapSet s.ops op { eo with failed := replyStatus r } } := by
  simp [failedLate, hc, hop, hrun]

section
variable {s : State} {o : Outstanding} (cause : Nat) (hline : o.line = none)
include hline

/-- A thread's access: its reply is the failure. -/
theorem failRequest_of_access {w : Nat × Nat} (hpacket : o.packet = none) (hcopy : o.copy = none) (horphan : o.orphan = false)
    (hthread : o.thread ∉ [noThread, stewardThread, scrubThread])
    (hwaits : (slotsOf o.thread).find?
      (fun w => waitsFor (slotOf { s with outstanding := s.outstanding.erase o } w.1 w.2) o.dst) = some w) :
    failRequest cause s o = failThread cause { s with outstanding := s.outstanding.erase o } w := by
  simp only [List.mem_cons, List.not_mem_nil, or_false, not_or] at hthread
  obtain ⟨hnone, hsteward, hscrub⟩ := hthread
  simp [failRequest, hline, hpacket, hcopy, horphan, hnone, hsteward, hscrub, hwaits]

/-- A stream's packet: the failure is the reply to every instruction that waits for it. -/
theorem failRequest_of_packet {reg : Nat} (hpacket : o.packet = some reg) :
    failRequest cause s o = (packetWaiters { s with outstanding := s.outstanding.erase o } o.thread reg).foldl
      (replyWaiter (.fabricError cause s.pkgId.toNat)) { s with outstanding := s.outstanding.erase o } := by
  simp [failRequest, hline, hpacket]

/-- A copy: its operation has the failure. -/
theorem failRequest_of_copy (hpacket : o.packet = none) (hcopy : o.copy.isSome = true) :
    failRequest cause s o =
      failedLate { s with outstanding := s.outstanding.erase o } o (.fabricError cause s.pkgId.toNat) := by
  simp [failRequest, hline, hpacket, hcopy]

end

/-! ### Ports -/

/-- A port that has lost a lane: its link retrains, and what spares there are is what it has beyond 16 lanes (R234). -/
def FabricPort.withoutLane (x : FabricPort) (lane : Nat) : FabricPort :=
  { x with
    goodLanes := x.goodLanes - 1, spares := x.goodLanes - 1 - 16, dead := lane :: x.dead, errors := mapErase x.errors lane,
    inReplay := true, replays := 0 }

/-- A port that holds no request is isolated: nothing fails (R232). -/
theorem isolate_of_no_request {s : State} {port : Nat} (h : ∀ t ∈ (portOf s port).held, t.cls ≠ .req) :
    isolate s port = { setPort s port { portOf s port with isolated := true, inReplay := false, held := [] } with
      reports := .isolation port :: s.reports } := by
  have hnone : (portOf s port).held.filter (fun t => t.cls = .req) = [] := by simpa using h
  rw [isolate, hnone]
  rfl

section
variable {s : State} {port : Nat} (hin : (portOf s port).isolated = false)
include hin

/-- A lane that a port loses is gone, and below 8 lanes the port goes (R234). -/
theorem swapLane_of_lane {lane : Nat} (hlane : lane < 18) (halive : lane ∉ (portOf s port).dead) :
    swapLane s port lane =
      let s1 := setPort s port ((portOf s port).withoutLane lane)
      if (portOf s port).goodLanes ≤ 8 then isolate s1 port else s1 := by
  have hlost : (portOf s port).goodLanes - 1 < 8 ↔ (portOf s port).goodLanes ≤ 8 := by omega
  simp [swapLane, FabricPort.withoutLane, hin, halive, hlane, hlost]

theorem execLaneSwap_of_lane {lane : Nat} (hport : port < 8) (hlane : lane < 18) (halive : lane ∉ (portOf s port).dead) :
    execLaneSwap port lane s =
      let s1 := setPort s port ((portOf s port).withoutLane lane)
      .next (if (portOf s port).goodLanes ≤ 8 then isolate s1 port else s1) := by
  rw [execLaneSwap, if_pos hport, swapLane_of_lane hin hlane halive]

theorem execPortIsolation_of_port (hport : port < 8) : execPortIsolation port s = .next (isolate s port) := by
  simp [execPortIsolation, hport, hin]

/-- A flit that is acknowledged ends a replay and passes a packet on (R223, R224). -/
theorem execFlitReceive_of_ok (hport : port < 8) (lanes : List Nat) :
    execFlitReceive port ⟨true, lanes⟩ s = .next (lanes.foldl (countErrors port)
      (setPort s port { portOf s port with inReplay := false, replays := 0, held := passOn (portOf s port).held })) := by
  simp [execFlitReceive, hin, Nat.not_le.2 hport]

/-- A flit that is refused starts a replay, is one more failed replay, or is the last (R224). -/
theorem execFlitReceive_of_refused (hport : port < 8) (lanes : List Nat) :
    execFlitReceive port ⟨false, lanes⟩ s = .next (
      if (portOf s port).inReplay = false then setPort s port { portOf s port with inReplay := true, replays := 0 }
      else if 15 ≤ (portOf s port).replays then isolate s port
      else setPort s port { portOf s port with replays := (portOf s port).replays + 1 }) := by
  cases hreplay : (portOf s port).inReplay with
  | false => simp [execFlitReceive, hin, hreplay, Nat.not_le.2 hport]
  | true =>
    by_cases hlast : 15 ≤ (portOf s port).replays
    · simp [execFlitReceive, hin, hreplay, hlast, Nat.not_le.2 hport]
    · simp [execFlitReceive, hin, hreplay, hlast, Nat.not_le.2 hport]

end

/-- A corrected error of a lane in use is counted, and past the threshold the lane is replaced (R234). -/
theorem countErrors_of_lane {s : State} {port lane : Nat} (hlane : lane < 18) (halive : lane ∉ (portOf s port).dead) :
    countErrors port s lane =
      let n := (mapFind (portOf s port).errors lane).getD 0 + 1
      if s.laneThreshold < n then swapLane s port lane
      else setPort s port { portOf s port with errors := mapSet (portOf s port).errors lane n } := by
  simp [countErrors, halive, Nat.not_le.2 hlane]

end Sys2Proof.Machine
end

section
/-! SUPPORT. The fabric: the end-to-end timer and the requests of other packages (R225, R226). -/

namespace Sys2Proof.Machine

/-! ### The end-to-end timer -/

/-- The package that a resend goes to: for a coherence request the steward of the day (R240). -/
def resendTo (s : State) (o : Outstanding) (dst : Nat) : Nat :=
  match o.line with
  | some l => if o.thread = stewardThread then dst else (stewardOf s l.1 l.2).getD dst
  | none => dst

/-- The timer of a request whose link is not in replay ends: the request is sent again, or its requester traps. -/
theorem execE2eTimeout_of_request {s : State} {dst seq : Nat} {o : Outstanding}
    (ho : s.outstanding.find? (fun o => o.dst == dst && o.seq == seq) = some o)
    (hlink : ∀ p, route s dst 0 = .port p → (portOf s p).inReplay = false) :
    execE2eTimeout dst seq s = if 7 ≤ o.resends then .next (failRequest 3 s o) else
      let s1 := { s with outstanding := s.outstanding.map (fun p => if p == o then { p with resends := p.resends + 1 } else p) }
      match sentMessage s dst seq with
      | some m => .next { s1 with outbox := (resendTo s o dst, m) :: s1.outbox }
      | none => .next s1 := by
  rw [execE2eTimeout, ho]
  cases hroute : route s dst 0 with
  | port p => simp only [hlink p hroute]; rfl
  | error cause => rfl
  | here => rfl

/-! ### Requests of other packages -/

theorem unsend_of_other {s : State} {src : Nat} (m : FabricMsg) (h : src ≠ s.pkgId.toNat) : unsend s m src = s := if_neg h

section
variable {s : State} {src seq : Nat} (est : Nat) {op : RemoteOp} (hsrc : src ≠ s.pkgId.toNat)
include hsrc

/-- A duplicate gets the reply that was kept (R225). -/
theorem execRemoteRequest_of_stored {m : FabricMsg} (h : storedAnswer s src seq = some m) :
    execRemoteRequest src seq est op s = .next (sendReply s src seq m) := by
  rw [execRemoteRequest, unsend_of_other _ hsrc, h]

/-- A new request is performed, and its reply is kept and sent (R225). -/
theorem execRemoteRequest_of_new (h : storedAnswer s src seq = none) (hwindow : behindWindow s src seq = false)
    (hheld : requestHeld s op = false) :
    execRemoteRequest src seq est op s =
      let r := performRequest s (16384 * src + est) seq op
      .next (sendReply (keepReply r.2 src seq r.1) src seq r.1) := by
  simp [execRemoteRequest, unsend_of_other _ hsrc, h, hwindow, hheld]

end

theorem gateReply_of_pass {s : State} {grantee pa right : Nat} (seq : Nat) (h : gateCheck s grantee pa right = none) :
    gateReply s grantee seq pa right = none := by
  rw [gateReply, h]

theorem gateReply_of_refused {s : State} {grantee pa right c : Nat} (seq : Nat) (h : gateCheck s grantee pa right = some c) :
    gateReply s grantee seq pa right = some (if c = 1 && wasAdmitted s grantee pa then .error seq 4 else .gate seq c) := by
  rw [gateReply, h]

theorem performRequest_load_of_value {s : State} {grantee pa n v : Nat} (seq : Nat) (hgate : gateCheck s grantee pa 1 = none)
    (hload : loadHome s (.hbm pa) n = .value v) : performRequest s grantee seq (.load pa n) = (.done seq (some v), s) := by
  rw [performRequest, gateReply_of_pass seq hgate, hload]
  rfl

theorem performRequest_store_of_pass {s : State} {grantee pa n data mask : Nat} (seq : Nat)
    (hgate : gateCheck s grantee pa 2 = none) (hloss : meetsLoss s ⟨⟨.hbm pa, n, none⟩, data, mask⟩ = none)
    (hpoison : meetsPoison s ⟨⟨.hbm pa, n, none⟩, data, mask⟩ = false) :
    performRequest s grantee seq (.store pa n data mask) = (.done seq none, storeHome s (.hbm pa) n data mask) := by
  simp [performRequest, gateReply_of_pass seq hgate, hloss, hpoison]

/-- A store that the gate refuses changes nothing (R226). -/
theorem performRequest_store_of_refused {s : State} {grantee pa c : Nat} (seq n data mask : Nat)
    (hgate : gateCheck s grantee pa 2 = some c) : (performRequest s grantee seq (.store pa n data mask)).2 = s := by
  rw [performRequest, gateReply_of_refused seq hgate]

end Sys2Proof.Machine
end

section
/-! SUPPORT. Live service: clocks, errors and spares (R11, R14, R110, R267, R269), and O58. -/

namespace Sys2Proof.Machine

/-! ### Clocks -/

section
variable {s : State} {island freq : Nat} (hisland : island < 16) (hlow : 9 ≤ freq) (hhigh : freq ≤ 36)
include hisland hlow hhigh

theorem execGovernorThrottle_of_lower (h : freq < (islandGet s island).freq) :
    execGovernorThrottle island freq s = .next (setFreq s island freq) := by
  simp [execGovernorThrottle, freqOk, hisland, hlow, hhigh, h]

theorem execGovernorRaise_of_higher (h : (islandGet s island).freq < freq) :
    execGovernorRaise island freq s = .next (setFreq s island freq) := by
  simp [execGovernorRaise, freqOk, hisland, hlow, hhigh, h]

end

/-! ### Errors -/

theorem execUncorrectableError_of_lt (s : State) {pa : Nat} (h : pa < 2 ^ 39) :
    execUncorrectableError pa s = .next (poisonHbm s pa) := if_pos h

/-- A corrected error of an L2 slice is counted, and at the threshold the slice moves to a spare (R267, R269). -/
theorem countUnit_of_slice (s : State) {die logical : Nat} (hdie : die < 4) (hslice : logical < 80) :
    countUnit false die logical s =
      let s1 := { s with sramErrors := s.sramErrors + 1 }
      let n := (mapFind s.unitErrors (die * 80 + logical)).getD 0 + 1
      if Config.eccThreshold ≤ n then
        { sliceSwap false die logical s1 with unitErrors := mapErase s.unitErrors (die * 80 + logical) }
      else { s1 with unitErrors := mapSet s.unitErrors (die * 80 + logical) n } := by
  simp [countUnit, Nat.not_le.2 hdie, Nat.not_le.2 hslice]

theorem execSramError_commonsLine_of_lt (s : State) {a : Nat} (h : a < 2 ^ 27) :
    execSramError (.commonsLine a) s =
      .next { s with commonsPoison := a / 64 :: s.commonsPoison.filter (· != a / 64) } := if_pos h

theorem execSramError_scratchLine_of_lt (s : State) {core off : Nat} (hcore : core < garnet) (hoff : off < 2 ^ 18) :
    execSramError (.scratchLine core off) s = .next (setCore s core { coreOf s core with
      scratchPoison := off / 64 :: (coreOf s core).scratchPoison.filter (· != off / 64) }) :=
  if_pos (by simp only [hcore, hoff, decide_true, Bool.and_self])

/-- A register of a live thread, g0 apart, is poisoned (R269). -/
theorem execSramError_register_of_live {s : State} {core slot : Nat} {wide : Bool} {r : Reg} (hlive : (slotOf s core slot).live = true)
    (hr : r.toNat < 16) (hnotZero : r ≠ 0 ∨ wide = true) :
    execSramError (.register core slot wide r) s = .next (setSlot s core slot { slotOf s core slot with
      poison := (wide, r.toNat) :: (slotOf s core slot).poison.filter (· != (wide, r.toNat)) }) := by
  have hwritable : ¬ (r.toNat = 0 ∧ wide = false) := by
    rintro ⟨h0, rfl⟩
    exact hnotZero.elim (fun h => h (BitVec.eq_of_toNat_eq h0)) (by simp)
  simp [execSramError, hlive, hr, hwritable]

theorem execSramError_l1Line_of_find {s : State} {core est va task : Nat} {l : L1Line} (h : l1Find s core est va task = some l) :
    execSramError (.l1Line core est va task) s = .next (l1Set s core { l with poison := true }) := by
  simp only [execSramError, h]

theorem execSramError_rlcData_of_find {s : State} {pkg : Option Nat} {line : Nat} {r : RlcLine} (h : rlcFind s pkg line = some r)
    (hvalid : r.state ≠ .i) : execSramError (.rlcData pkg line) s = .next (rlcSet s { r with poison := true }) := by
  simp only [execSramError, h, if_neg hvalid]

/-! ### Spares -/

theorem execHbmRowSpare_of_spareLeft {s : State} {frame row : Nat} (hframe : frame < 262144) (h : spareLeft s frame row = true) :
    execHbmRowSpare frame row s = .next (spareRow s frame row) := by
  simp [execHbmRowSpare, hframe, h]

/-- A die none of whose units has moved has no entry in the map. -/
theorem filter_die_eq_nil {m : Map Nat} {count die : Nat} (h : ∀ p ∈ m, p.1 / count ≠ die) :
    m.filter (fun p => p.1 / count == die) = [] := by
  simpa using h

/-- The first slice of a die to move takes its first spare (R8). -/
theorem sliceSwap_first_slice {s : State} {die logical : Nat} (hdie : die < 4) (hslice : logical < 80)
    (hfirst : ∀ p ∈ s.sliceMap, p.1 / 80 ≠ die) :
    sliceSwap false die logical s =
      { s with sliceMap := mapSet s.sliceMap (die * 80 + logical) 80, spareSlices := s.spareSlices - 1 } := by
  simp [sliceSwap, filter_die_eq_nil hfirst, Nat.not_le.2 hdie, Nat.not_le.2 hslice]

/-- The first commons bank of a die to move takes its first spare (R8). -/
theorem sliceSwap_first_bank {s : State} {die logical : Nat} (hdie : die < 4) (hbank : logical < 64)
    (hfirst : ∀ p ∈ s.bankMap, p.1 / 64 ≠ die) :
    sliceSwap true die logical s =
      { s with bankMap := mapSet s.bankMap (die * 64 + logical) 64, spareBanks := s.spareBanks - 1 } := by
  simp [sliceSwap, filter_die_eq_nil hfirst, Nat.not_le.2 hdie, Nat.not_le.2 hbank]

/-- Settles O58: one clause for each event, by what its operation does in the case at hand. -/
theorem fabricEvents : Obligations.FabricEvents := by
  unfold Obligations.FabricEvents
  intro s port dst seq
  refine ⟨?route, ?refuse, ?fail, ?port, ?timer, ?remote, ?served, ?refused, ?clock, ?uncorrectable, rfl, ?corrected, ?scratch,
    ?register, ?l1, ?rlc, fun _ _ _ => rfl, ?commons, fun _ => rfl, ?row, ?slice, ?bank⟩
  case route =>
    refine fun src d cls => ⟨fun cause h => ⟨execRoutePacket_of_error h, fun hcls => ?_⟩, fun p h hnew => execRoutePacket_of_port h hnew⟩
    exact (execRoutePacket_of_error h).trans (congrArg _ (if_neg hcls))
  case refuse =>
    exact fun cause src cls => ⟨refuseRequest_of_other cause ⟨src, seq, dst, cls⟩,
      fun o hown ho => refuseRequest_of_own cause hown ho⟩
  case fail =>
    intro cause o hline
    refine ⟨fun m w hpacket hcopy horphan hthread hwaits hpend hreply => ?_, fun reg => failRequest_of_packet cause hline,
      fun op elem eo hpacket hcopy hop hrun => ?_⟩
    · rw [failRequest_of_access cause hline hpacket hcopy horphan hthread hwaits, failThread_of_access cause hpend]
      exact replyWaiter_of_replyTo hreply
    · rw [failRequest_of_copy cause hline hpacket (by simp [hcopy])]
      exact failedLate_of_copy _ hcopy hop hrun
  case port =>
    intro hport hin
    refine ⟨execFlitReceive_of_ok hin hport, fun lanes => ?_, fun lane hlane halive => ⟨?_, ?_, ?_⟩, execPortIsolation_of_port hin hport,
      isolate_of_no_request⟩
    · have hrefused := execFlitReceive_of_refused hin hport lanes
      refine ⟨fun hr => hrefused.trans ?_, fun hr hn => hrefused.trans ?_, fun hr hn => hrefused.trans ?_⟩
      · rw [if_pos hr]
      · rw [if_neg (by simp [hr]), if_neg (Nat.not_le.2 hn)]
      · rw [if_neg (by simp [hr]), if_pos hn]
    · exact fun hgood => (execLaneSwap_of_lane hin hport hlane halive).trans (congrArg _ (if_neg (Nat.not_le.2 hgood)))
    · exact fun hfew => (execLaneSwap_of_lane hin hport hlane halive).trans (congrArg _ (if_pos hfew))
    · exact ⟨fun hn => (countErrors_of_lane hlane halive).trans (if_neg (Nat.not_lt.2 hn)),
        fun hn => (countErrors_of_lane hlane halive).trans (if_pos hn)⟩
  case timer =>
    intro o m ho hlink
    refine ⟨fun hlast => (execE2eTimeout_of_request ho hlink).trans (if_pos hlast), fun hmore hsent => ?_⟩
    refine (execE2eTimeout_of_request ho hlink).trans ((if_neg (Nat.not_le.2 hmore)).trans ?_)
    rw [hsent]
    rfl
  case remote =>
    exact fun src est op hsrc => ⟨fun m => execRemoteRequest_of_stored est hsrc, execRemoteRequest_of_new est hsrc⟩
  case served =>
    exact fun grantee pa n data mask hload v hv => ⟨performRequest_load_of_value seq hload hv, performRequest_store_of_pass seq⟩
  case refused => exact fun grantee pa n data mask c => performRequest_store_of_refused seq n data mask
  case clock =>
    exact fun island freq hisland hlow hhigh =>
      ⟨execGovernorThrottle_of_lower hisland hlow hhigh, execGovernorRaise_of_higher hisland hlow hhigh⟩
  case uncorrectable => exact fun pa hpa => ⟨execUncorrectableError_of_lt s hpa, rfl⟩
  case corrected =>
    intro die logical hdie hslice
    have hcount := countUnit_of_slice s hdie hslice
    exact ⟨fun hn => congrArg _ (hcount.trans (if_neg (Nat.not_le.2 hn))), fun hn => congrArg _ (hcount.trans (if_pos hn))⟩
  case scratch => exact fun core off => execSramError_scratchLine_of_lt s
  case register => exact fun core slot wide r => execSramError_register_of_live
  case l1 => exact fun core est va task l => execSramError_l1Line_of_find
  case rlc => exact fun pkg l r => execSramError_rlcData_of_find
  case commons => exact fun a => execSramError_commonsLine_of_lt s
  case row => exact fun frame row => execHbmRowSpare_of_spareLeft
  case slice => exact fun die logical hdie hslice hfirst => congrArg _ (sliceSwap_first_slice hdie hslice hfirst)
  case bank => exact fun die logical hdie hbank hfirst => congrArg _ (sliceSwap_first_bank hdie hbank hfirst)

end Sys2Proof.Machine
end

section
/-! SUPPORT. Vector instructions whose operands are taken and whose result finds its place (R41, R345), and O36. -/

namespace Sys2Proof.Machine

/-! ### Operands, then what the instruction does with them -/

/-- An instruction that takes its operands and then does g with the state as it stands ends as g does from what the taking leaves. -/
theorem runAt_operands_of_ends {n : Nat} {operands : Exec Unit} {g : State → Exec Unit} {s s' u : State}
    (htakes : Ends operands s () s') (hend : Ends (g s') s' () u) :
    runAt n (operands >>= fun _ => get >>= g) s = .next u :=
  runAt_of_ends (ends_bind_iff.2 ⟨(), s', htakes, ends_bind_iff.2 ⟨s', s', (ends_get ..).2 ⟨rfl, rfl⟩, hend⟩⟩)

/-- The frame of the vector instructions (R345): once the operands are taken, the instruction is its end. -/
theorem vecFed_of_takes {t : Nat} {vs gs : List Reg} {d : Reg} {fed : State → Nat} {f : State → Packet × List Nat} {s s' u : State}
    (htakes : TakesV vs gs d s s') (hend : Ends (endV t d (f s').1 (f s').2 (fed s')) s' () u) :
    vecFed t vs gs d fed f s = .next u := by
  have h := runAt_operands_of_ends (n := t) (g := fun s => endV t d (f s).1 (f s).2 (fed s)) htakes hend
  simpa only [vecFed, bind_assoc] using h

/-! ### VEXT and VINS -/

/-- The bytes that a lane selector names (R370). -/
theorem lineBytes_laneSelect (x : Packet) (sel : Word) :
    lineBytes x (laneSelect sel).1 (laneSelect sel).2 =
      x.toNat / 2 ^ (8 * (2 ^ bits sel 8 2 * (bits sel 0 6 % (64 / 2 ^ bits sel 8 2)))) % 2 ^ (8 * 2 ^ bits sel 8 2) := by
  rw [lineBytes, Nat.shiftRight_eq_div_pow]
  rfl

theorem execVext_of_takes {d a b : Reg} {s s' : State} (htakes : Ends (do notGarnet; openV a; useG [b] (some d)) s () s') :
    execVext d a b s =
      .next (writesG 1 d (BitVec.ofNat 64 (lineBytes (vval s' a) (laneSelect (gval s' b)).1 (laneSelect (gval s' b)).2)) s') := by
  simp only [ends_bind_iff] at htakes
  obtain ⟨_, t₁, hcore, _, t₂, ha, hb⟩ := htakes
  exact run_of_ends (ends_bind_iff.2 ⟨_, t₁, hcore, ends_bind_iff.2 ⟨_, t₂, ha, ends_bind_iff.2 ⟨_, s', hb,
    (ends_modify ..).2 rfl⟩⟩⟩)

/-- VINS from its operands taken to its end (R370). -/
def insertElement (d a b : Reg) (s : State) : Exec Unit :=
  let p := laneSelect (gval s b)
  endV 1 d (lineMask (vval s d) p.1 ((gval s a).toNat % 2 ^ (8 * p.2)) (fullMask p.2)) [] (2 ^ 512 - 1)

theorem execVins_eq (d a b : Reg) : execVins d a b =
    run ((do notGarnet; unboundDest d; readable true d; useG [a, b] none) >>= fun _ => get >>= insertElement d a b) := by
  simp only [execVins, bind_assoc]
  rfl

/-! ### VCVT -/

/-- The operands of VCVT: a narrowing conversion without .z reads d, too (R30, R368). -/
def cvtOperands (zero scaled : Bool) (target source : LaneTy) (d a b : Reg) : Exec Unit := do
  if source.lanes < target.lanes && !zero then do
    unboundDest d
    readable true d
  openV a
  useG (if scaled then [b] else []) none
  reserveV d

/-- VCVT from its operands taken to its end (R89, R368). -/
def convertLanes (rm : BitVec 2) (zero scaled : Bool) (target source : LaneTy) (d a b : Reg) (s : State) : Exec Unit :=
  let k := if scaled then some ((gval s b).toNat % 65536) else none
  let r := ((lanesOf source (vval s a)).take (min source.lanes target.lanes)).map
    (cvtLane source target (laneMode target rm (curFrm s)) (frmFtz (curFrm s)) k)
  endV 1 d (packetOf target (placeLanes source.lanes target.lanes zero (lanesOf target (vval s d)) (r.map (·.1))))
    (realFlags s source.width [a] (r.map (·.2)))
    (laneBitsMask target.width target.lanes (fun i => source.lanes ≤ i || realLanes s source.width [a] i))

theorem execVcvt_eq (rm : BitVec 2) (zero scaled : Bool) (target source : LaneTy) (d a b : Reg) :
    execVcvt rm zero scaled target source d a b = run ((notGarnet >>= fun _ => cvtOperands zero scaled target source d a b) >>=
      fun _ => get >>= convertLanes rm zero scaled target source d a b) := by
  simp only [execVcvt, cvtOperands, bind_assoc, apply_ite_left bind]
  rfl

/-- Settles O36: VFMA, VSEL and VBCAST in the frame of the vector instructions, the others by their own operands and their ends. -/
theorem vectorOtherResults : Obligations.VectorOtherResults := by
  unfold Obligations.VectorOtherResults
  intro s s' u ty d a b c
  refine ⟨fun htakes => ⟨fun k hend => ?vfma, fun hend => ?vsel⟩, fun htakes hend => ?vbcast, fun htakes => ?vext,
    fun htakes hend => ?vins, fun rm zero scaled target source htakes hend => ?vcvt⟩
  case vfma => exact vecFed_of_takes htakes hend
  case vsel => exact vecFed_of_takes htakes hend
  case vbcast => exact vecFed_of_takes htakes hend
  case vext => exact (execVext_of_takes htakes).trans (by rw [lineBytes_laneSelect])
  case vins => exact (congrFun (execVins_eq d a b) s).trans (runAt_operands_of_ends htakes hend)
  case vcvt => exact (congrFun (execVcvt_eq rm zero scaled target source d a b) s).trans (runAt_operands_of_ends htakes hend)

end Sys2Proof.Machine
end

section
/-! SUPPORT. Words the scalar instructions compute, in the terms of the reference, and O12. -/

namespace Sys2Proof.Machine

/-! ### Words -/

/-- A shift amount is the low six bits of its register (R350). -/
theorem toNat_extractLsb'_six (y : Word) : (y.extractLsb' 0 6).toNat = y.toNat % 64 := by simp

/-- Bits 127 to 64 of a product are its floor quotient by 2^64, signed or not. -/
theorem ofInt_toInt_ediv_eq_extractLsb' (z : BitVec 128) : BitVec.ofInt 64 (z.toInt / 2 ^ 64) = z.extractLsb' 64 64 := by
  refine BitVec.eq_of_toNat_eq ?_
  rw [BitVec.toNat_ofInt, BitVec.extractLsb'_toNat, Nat.shiftRight_eq_div_pow, BitVec.toInt_eq_toNat_cond]
  split <;> omega

/-- The signed product of two words fits 128 bits. -/
theorem toInt_signExtend_mul_signExtend (x y : Word) : (x.signExtend 128 * y.signExtend 128).toInt = x.toInt * y.toInt := by
  have hx := x.le_toInt
  have hx' := x.toInt_lt
  have hy := y.le_toInt
  have hy' := y.toInt_lt
  rw [BitVec.toInt_mul, BitVec.toInt_signExtend_of_le (by omega), BitVec.toInt_signExtend_of_le (by omega)]
  norm_num at hx hx' hy hy'
  exact Int.bmod_eq_of_le (by norm_num; nlinarith) (by norm_num; nlinarith)

/-- MULH's half of the product (R330). -/
theorem mulHigh_eq_extractLsb' (x y : Word) : mulHigh x y = (x.signExtend 128 * y.signExtend 128).extractLsb' 64 64 := by
  rw [← ofInt_toInt_ediv_eq_extractLsb', toInt_signExtend_mul_signExtend, mulHigh]

/-- MULHU's half of the product (R330). -/
theorem mulHighU_eq_extractLsb' (x y : Word) : mulHighU x y = (x.setWidth 128 * y.setWidth 128).extractLsb' 64 64 := by
  have hlt : x.toNat * y.toNat < 2 ^ 64 * 2 ^ 64 := Nat.mul_lt_mul'' x.isLt y.isLt
  refine BitVec.eq_of_toNat_eq ?_
  rw [mulHighU, BitVec.toNat_ofNat, BitVec.extractLsb'_toNat, BitVec.toNat_mul, BitVec.toNat_setWidth, BitVec.toNat_setWidth,
    Nat.mod_eq_of_lt (a := x.toNat) (by omega), Nat.mod_eq_of_lt (a := y.toNat) (by omega), Nat.shiftRight_eq_div_pow,
    Nat.mod_eq_of_lt (b := 2 ^ 128) (by omega)]

/-- The strict and the weak comparison choose alike where equal keys are of equal values (R323, R326). -/
theorem ite_lt_eq_ite_le {α β : Type} [LinearOrder α] {x y : α} {a b : β} (h : x = y → a = b) :
    (if x < y then a else b) = if x ≤ y then a else b := by
  rcases lt_trichotomy x y with hlt | heq | hgt
  · rw [if_pos hlt, if_pos hlt.le]
  · rw [h heq, ite_self, ite_self]
  · rw [if_neg hgt.not_gt, if_neg hgt.not_ge]

/-- MIN and MAX choose by the signed comparison (R323, R326). -/
theorem ite_slt_eq_ite_le {x y a b : Word} (h : x = y → a = b) : (if x.slt y then a else b) = if x.toInt ≤ y.toInt then a else b := by
  simp only [BitVec.slt, decide_eq_true_eq]
  exact ite_lt_eq_ite_le fun he => h (BitVec.toInt_inj.1 he)

/-- MINU and MAXU choose by the unsigned comparison (R323, R326). -/
theorem ite_ult_eq_ite_le {x y a b : Word} (h : x = y → a = b) : (if x.ult y then a else b) = if x.toNat ≤ y.toNat then a else b := by
  simp only [BitVec.ult, decide_eq_true_eq]
  exact ite_lt_eq_ite_le fun he => h (BitVec.eq_of_toNat_eq he)

/-- LIH's immediate, sign-extended and shifted (R318). -/
theorem signExtend_shiftLeft_fifteen (imm : BitVec 20) :
    (imm.signExtend 64 <<< 15 : Word) = BitVec.ofInt 64 (imm.toInt * 2 ^ 15) := by
  rw [BitVec.ofInt_mul, BitVec.shiftLeft_eq_mul_twoPow]
  rfl

/-! The conditions as comparisons (R60, R62). -/

theorem condHolds_eq (x y : Word) : condHolds .eq x y = decide (x = y) := rfl
theorem condHolds_ne (x y : Word) : condHolds .ne x y = !decide (x = y) := rfl
theorem condHolds_lt (x y : Word) : condHolds .lt x y = decide (x.toInt < y.toInt) := rfl
theorem condHolds_ge (x y : Word) : condHolds .ge x y = !decide (x.toInt < y.toInt) := rfl
theorem condHolds_ltu (x y : Word) : condHolds .ltu x y = decide (x.toNat < y.toNat) := rfl
theorem condHolds_geu (x y : Word) : condHolds .geu x y = !decide (x.toNat < y.toNat) := rfl

theorem ite_not_decide {α : Type} {p : Prop} [Decidable p] (a b : α) : (if (!decide p) = true then a else b) = if p then b else a := by
  by_cases h : p <;> simp [h]

/-! ### The scalar instructions -/

/-- A row of the table in the shape of the scalar arithmetic writes the value of its function (R270). -/
theorem exec_writesG_of_alu {i : Instr} {t : Nat} {srcs : List Reg} {d : Reg} {f : State → Word} {s s' : State} {v : Word}
    (hrow : exec i s = alu t srcs d f s) (ht : Takes srcs (some d) s s') (hv : f s' = v) :
    exec i s = .next (writesG t d v s') := by
  rw [hrow, alu_ends ht, hv]

/-- MVX writes no g register (R332). -/
theorem execMvx_of_takes {e : EReg} {a : Reg} {s s' : State} (ht : Takes [a] none s s') :
    exec (.mvx e a) s = .next (endFall 1 (putE e.toNat (gval s' a) s')) :=
  run_of_ends (ends_bind_iff.2 ⟨(), s', ht, (ends_modify ..).2 rfl⟩)

/-- Settles O12: each row is the shared scalar shape with its own function, whose value is the reference's. -/
theorem scalarResults : Obligations.ScalarResults := by
  unfold Obligations.ScalarResults
  intro s s' d a b
  refine ⟨fun ht => ?rr, fun ht => ?sel, fun ht imm sh => ?imm, fun ht => ?short, fun ht sh => ?shortImm, fun ht imm i e => ?noSource,
    fun e ht => execMvx_of_takes ht⟩
  case rr =>
    have row {i : Instr} {f : State → Word} {v : Word} (hrow : exec i s = alu 1 [a, b] d f s) (hv : f s' = v) :
        exec i s = .next (writesG 1 d v s') := exec_writesG_of_alu hrow ht hv
    exact ⟨row rfl rfl, row rfl rfl, row rfl rfl, row rfl rfl, row rfl rfl, row rfl rfl,
      row rfl (mulHigh_eq_extractLsb' ..), row rfl (mulHighU_eq_extractLsb' ..),
      row rfl (by rw [toNat_extractLsb'_six]), row rfl (by rw [toNat_extractLsb'_six]), row rfl (by rw [toNat_extractLsb'_six]),
      row rfl (ite_slt_eq_ite_le id), row rfl (ite_slt_eq_ite_le Eq.symm),
      row rfl (ite_ult_eq_ite_le id), row rfl (ite_ult_eq_ite_le Eq.symm),
      row rfl (by simp only [condHolds_eq, decide_eq_true_eq]), row rfl (by rw [condHolds_ne, ite_not_decide]),
      row rfl (by simp only [condHolds_lt, decide_eq_true_eq]), row rfl (by rw [condHolds_ge, ite_not_decide]),
      row rfl (by simp only [condHolds_ltu, decide_eq_true_eq]), row rfl (by rw [condHolds_geu, ite_not_decide])⟩
  case sel => exact exec_writesG_of_alu rfl ht rfl
  case imm =>
    refine ⟨?_, ?_, ?_, ?_, ?_, ?_, ?_, ?_⟩ <;> exact exec_writesG_of_alu rfl ht rfl
  case short => refine ⟨?_, ?_, ?_, ?_, ?_⟩ <;> exact exec_writesG_of_alu rfl ht rfl
  case shortImm => refine ⟨?_, ?_, ?_⟩ <;> exact exec_writesG_of_alu rfl ht rfl
  case noSource =>
    exact ⟨exec_writesG_of_alu rfl ht (signExtend_shiftLeft_fifteen imm), exec_writesG_of_alu rfl ht rfl, exec_writesG_of_alu rfl ht rfl⟩
end Sys2Proof.Machine
end

section
/-! SUPPORT. The divisions, and O13. -/

namespace Sys2Proof.Machine

/-- The signed quotient truncates toward zero wherever it fits (R91, R297). -/
theorem toInt_divS {x y : Word} (h0 : y ≠ 0) (h : ¬ (x = BitVec.intMin 64 ∧ y = BitVec.allOnes 64)) :
    (divS x y).toInt = x.toInt.tdiv y.toInt := by
  rw [divS, if_neg h0]
  refine BitVec.toInt_sdiv_of_ne_or_ne x y ?_
  simpa only [not_and_or, ← BitVec.neg_one_eq_allOnes] using h

/-- The one signed quotient that does not fit is the dividend itself (R91). -/
theorem divS_intMin_allOnes : divS (BitVec.intMin 64) (BitVec.allOnes 64) = BitVec.intMin 64 := by decide

theorem remS_intMin_allOnes : remS (BitVec.intMin 64) (BitVec.allOnes 64) = 0 := by decide

/-- Settles O13: each division is the scalar shape in four turns, and its value is the quotient or the remainder of R91. -/
theorem divisionResults : Obligations.DivisionResults := by
  unfold Obligations.DivisionResults
  intro s s' d a b ht
  refine ⟨divS (gval s' a) (gval s' b), remS (gval s' a) (gval s' b), divU (gval s' a) (gval s' b), remU (gval s' a) (gval s' b),
    exec_writesG_of_alu rfl ht rfl, exec_writesG_of_alu rfl ht rfl, exec_writesG_of_alu rfl ht rfl, exec_writesG_of_alu rfl ht rfl,
    fun h0 => ?byZero, fun h0 => ⟨?_, ?_, ?_, ?overflow, toInt_divS h0⟩⟩
  case byZero => exact ⟨if_pos h0, if_pos h0, if_pos h0, if_pos h0⟩
  case overflow =>
    rintro ⟨hx, hy⟩
    rw [hx, hy]
    exact ⟨divS_intMin_allOnes, remS_intMin_allOnes⟩
  · rw [divU, if_neg h0, BitVec.toNat_udiv]
  · rw [remU, if_neg h0, BitVec.toNat_umod]
  · rw [remS, if_neg h0, BitVec.toInt_srem]

end Sys2Proof.Machine
end

section
/-! SUPPORT. The end of an instruction that has popped nothing: its slot, its pending writebacks and its queues; and O16. -/

namespace Sys2Proof.Machine

/-! ### The end of an instruction without pops -/

theorem commitPops_of_nil {s : State} (h : s.cur.pops = []) : commitPops s = s := by
  simp only [commitPops, h, List.foldl_nil]
  rw [← h]

theorem endFall_of_nil {s : State} (t : Nat) (h : s.cur.pops = []) :
    endFall t s = setCurSlot s (paced s t ((curSlot s).fall (curLen s))) := by
  rw [endFall, commitPops_of_nil h]

theorem endGoto_of_nil {s : State} (t : Nat) (pc : Word) (h : s.cur.pops = []) :
    endGoto t pc s = setCurSlot s (paced s t ((curSlot s).goto pc)) := by
  rw [endGoto, commitPops_of_nil h]

/-- The write of a slot of the issuing core leaves everything else of the core. -/
@[simp] theorem coreOf_setCurSlot (s : State) (x : Slot) :
    coreOf (setCurSlot s x) s.cur.core = { curCore s with slots := mapSet (curCore s).slots s.cur.slot x } :=
  coreOf_setSlot_self ..

@[simp] theorem slotOf_setCurSlot (s : State) (x : Slot) : slotOf (setCurSlot s x) s.cur.core s.cur.slot = x :=
  slotOf_setSlot_self ..

/-- An instruction at which no loop ends goes on behind itself (R46). -/
theorem Slot.fall_of_no_last {x : Slot} {n : Nat} (h : ∀ l ∈ x.loops, l.last ≠ x.pc) :
    x.fall n = { x with pc := x.pc + BitVec.ofNat 64 n } := by
  have hcount : countLoops x.pc (x.pc + BitVec.ofNat 64 n) x.lc x.loops.reverse =
      (x.pc + BitVec.ofNat 64 n, x.loops.reverse, x.lc) := by
    rcases hl : x.loops.reverse with _ | ⟨l, outer⟩
    · rfl
    · have hne : l.last ≠ x.pc := h l (List.mem_reverse.1 (hl ▸ List.mem_cons_self))
      rw [countLoops, if_neg hne]
  rw [Slot.fall, hcount, List.reverse_reverse]

@[simp] theorem slotPutG_pc (d : Reg) (v : Word) (x : Slot) : (slotPutG d v x).pc = x.pc := by
  rw [slotPutG]
  split <;> rfl

@[simp] theorem slotPutG_loops (d : Reg) (v : Word) (x : Slot) : (slotPutG d v x).loops = x.loops := by
  rw [slotPutG]
  split <;> rfl

theorem slotPutG_zero (v : Word) (x : Slot) : slotPutG 0 v x = x := if_pos (.inl rfl)

/-- A g register reads what was written to it (R36). -/
theorem slotPutG_g_self {d : Reg} (v : Word) (x : Slot) (h0 : d ≠ 0) (h : d.toNat < 16) :
    (slotPutG d v x).g[d.toNat]? = some v := by
  rw [slotPutG, if_neg (by tauto)]
  simp [h]

@[simp] theorem ticksOf_setCore (s : State) (c core : Nat) (x : Core) : ticksOf (setCore s c x) core = ticksOf s core := rfl

@[simp] theorem ticksOf_setSlot (s : State) (c k core : Nat) (x : Slot) : ticksOf (setSlot s c k x) core = ticksOf s core := rfl

@[simp] theorem ticksOf_putG (s : State) (due : Nat) (d : Reg) (v : Word) (core : Nat) :
    ticksOf (putG due d v s) core = ticksOf s core := by
  obtain ⟨⟨⟨hpkg, -, -⟩, -, -, -⟩, -⟩ := putG_frame s due d v
  rw [OnlyCores] at hpkg
  rw [hpkg]
  rfl

/-- The slot of a scalar instruction that has popped nothing, once it has ended (R33, R36, R46). -/
theorem slotOf_writesG {s : State} (t : Nat) (d : Reg) (v : Word) (h : s.cur.pops = []) :
    slotOf (writesG t d v s) s.cur.core s.cur.slot = paced s t ((slotPutG d v (curSlot s)).fall (curLen s)) := by
  obtain ⟨-, hs⟩ := putG_frame s (wbPoint s t) d v
  have hcur := putG_cur s (wbPoint s t) d v
  rw [writesG, endFall_of_nil t (by rw [hcur, h])]
  simp only [setCurSlot, curSlot, curLen, hcur, slotOf_setSlot_self, hs, paced, ticksOf_putG]

/-- The rest of its core is as the result left it. -/
theorem coreOf_writesG {s : State} (t : Nat) (d : Reg) (v : Word) (h : s.cur.pops = []) :
    ∃ slots, coreOf (writesG t d v s) s.cur.core = { coreOf (putG (wbPoint s t) d v s) s.cur.core with slots := slots } := by
  have hcur := putG_cur s (wbPoint s t) d v
  rw [writesG, endFall_of_nil t (by rw [hcur, h]), setCurSlot, hcur, coreOf_setSlot_self]
  exact ⟨_, rfl⟩

/-! ### Results that go to a shared register (R37, R42) -/

theorem putG_shared_of_none {s : State} {due : Nat} {d : Reg} {v : Word} (hd : 16 ≤ d.toNat)
    (hq : findQueue (curCore s) false (d.toNat - 16) = none) : putG due d v s = addWb due (.c (d.toNat - 16) v) s := by
  have h0 : d ≠ 0 := by rintro rfl; simp at hd
  rw [putG, if_neg h0, if_neg (by omega), hq]

theorem putG_shared_of_queue {s : State} {due : Nat} {d : Reg} {v : Word} {q : Queue} (hd : 16 ≤ d.toNat)
    (hq : findQueue (curCore s) false (d.toNat - 16) = some q) :
    putG due d v s = pushQueue due false (d.toNat - 16) q v.toNat s := by
  have h0 : d ≠ 0 := by rintro rfl; simp at hd
  rw [putG, if_neg h0, if_neg (by omega), hq]

/-- A result that nobody else sees leaves no writeback. -/
theorem putG_low_wb {s : State} {due : Nat} {d : Reg} {v : Word} (hd : d.toNat < 16) :
    (coreOf (putG due d v s) s.cur.core).wb = (curCore s).wb := by
  by_cases h0 : d = 0
  · rw [putG, if_pos h0, curCore]
  · rw [putG_own s (by tauto)]
    simp

@[simp] theorem coreOf_addWb (s : State) (due : Nat) (a : WbAct) (r : Option Nat) :
    coreOf (addWb due a s r) s.cur.core = { curCore s with wb := (curCore s).wb ++ [⟨due, s.cur.slot, a, r⟩] } :=
  coreOf_setCore_self ..

theorem curCore_pushQueue (s : State) (due : Nat) (wide : Bool) (r : Nat) (q : Queue) (v : Nat) :
    coreOf (pushQueue due wide r q v s) s.cur.core = { curCore s with
      queues := (curCore s).queues.map (fun x => if x.wide == wide && x.reg == r then
        { q with entries := q.entries ++ [⟨q.ticket, none⟩], ticket := q.ticket + 1 } else x)
      wb := (curCore s).wb ++ [⟨due, s.cur.slot, .fill wide r q.ticket v, none⟩] } := by
  rw [pushQueue]
  refine (coreOf_addWb (setCurCore s _) ..).trans ?_
  rw [curCore_setCurCore]
  rfl

/-- A queue that a register stands for is found under that register. -/
theorem findQueue_eq_some {c : Core} {wide : Bool} {r : Nat} {q : Queue} (h : findQueue c wide r = some q) :
    (q.wide == wide && q.reg == r) = true := by
  simpa using List.find?_some h

/-- A queue that takes the place of the one a register stands for, under the same register, is what it stands for. -/
theorem findQueue_map_replace {c : Core} {wide : Bool} {r : Nat} {q q' : Queue} (h : findQueue c wide r = some q)
    (hq' : (q'.wide == wide && q'.reg == r) = true) :
    findQueue { c with queues := c.queues.map fun x => if x.wide == wide && x.reg == r then q' else x } wide r = some q' := by
  have hp : ((fun x : Queue => x.wide == wide && x.reg == r) ∘ fun x => if x.wide == wide && x.reg == r then q' else x) =
      fun x => x.wide == wide && x.reg == r := by
    funext x
    by_cases hx : (x.wide == wide && x.reg == r) = true
    · rw [Function.comp_apply, if_pos hx, hx, hq']
    · rw [Function.comp_apply, if_neg hx]
  have hfind : c.queues.find? (fun x => x.wide == wide && x.reg == r) = some q := h
  simp only [findQueue, List.find?_map, hp, hfind, Option.map_some, if_pos (findQueue_eq_some h)]

/-- A push reserves the next entry of its queue (R42). -/
theorem findQueue_pushQueue {s : State} {due : Nat} {wide : Bool} {r : Nat} {q : Queue} {v : Nat}
    (h : findQueue (curCore s) wide r = some q) :
    findQueue (coreOf (pushQueue due wide r q v s) s.cur.core) wide r =
      some { q with entries := q.entries ++ [⟨q.ticket, none⟩], ticket := q.ticket + 1 } := by
  rw [curCore_pushQueue]
  have hreg := findQueue_eq_some h
  exact findQueue_map_replace h hreg

/-! ### Writebacks in one cycle (R37) -/

/-- Of two effects of one cycle the lower slot's comes first, in whichever order they were issued. -/
theorem insertWb_pair {a b : Wb} (hdue : a.due = b.due) (hslot : a.slot < b.slot) :
    insertWb b [a] = [a, b] ∧ insertWb a [b] = [a, b] := by
  constructor
  · simp [insertWb, hdue, hslot.not_gt]
  · simp [insertWb, hdue, hslot]

/-- Two effects of one cycle that are all that is due are applied in the order of their slots. -/
theorem applyWbs_of_pair {s : State} {core : Nat} {p : Wb → Bool} {a b : Wb} (hdue : a.due = b.due) (hslot : a.slot < b.slot)
    (ha : p a = true) (hb : p b = true) (hwb : (coreOf s core).wb = [a, b] ∨ (coreOf s core).wb = [b, a]) :
    applyWbs core p s = applyWb core (applyWb core (setCore s core { coreOf s core with wb := [] }) a) b := by
  obtain ⟨hab, hba⟩ := insertWb_pair hdue hslot
  rcases hwb with hwb | hwb
  · simp only [applyWbs, hwb, List.filter_cons, ha, hb, if_true, List.filter_nil, List.foldl_cons, List.foldl_nil, Bool.not_true]
    rw [insertWb, hab]
    rfl
  · simp only [applyWbs, hwb, List.filter_cons, ha, hb, if_true, List.filter_nil, List.foldl_cons, List.foldl_nil, Bool.not_true]
    rw [insertWb, hba]
    rfl

/-- A c register reads what its writeback has written (R37). -/
theorem applyWb_c_self (core : Nat) (s : State) {r : Nat} (due k : Nat) (v : Word) (st : Option Nat) (hr : r < 16) :
    (coreOf (applyWb core s ⟨due, k, .c r v, st⟩) core).c[r]? = some v := by
  rw [applyWb, coreOf_setCore_self]
  simp [hr]

/-- A register write is due from the cycle after its writeback point on (R37). -/
theorem isDue_c {now due : Nat} (k r : Nat) (v : Word) (st : Option Nat) (h : due < now) :
    Wb.isDue now ⟨due, k, .c r v, st⟩ = true := by simp [Wb.isDue, WbAct.onThread, h]

/-- Settles O16: the end of the instruction by the register field of its result, and two writebacks of one cycle in slot order. -/
theorem registerWrite : Obligations.RegisterWrite := by
  unfold Obligations.RegisterWrite
  refine ⟨fun s c r i j due x y hr hij hdue hwb => ?_, fun s t d v hpops => ?_⟩
  · rw [flushWb, applyWbs_of_pair (a := ⟨due, i, .c r x, none⟩) (b := ⟨due, j, .c r y, none⟩) rfl hij (isDue_c i r x none hdue)
      (isDue_c j r y none hdue) hwb]
    exact applyWb_c_self c _ due j y none hr
  · obtain ⟨slots, hcore⟩ := coreOf_writesG t d v hpops
    rw [slotOf_writesG t d v hpops, hcore]
    refine ⟨fun hlast => ?pc, rfl, fun h0 hd => ⟨slotPutG_g_self v _ h0 hd, putG_low_wb hd⟩, fun h0 => ?zero,
      fun hd hq => ?reg, fun q hd hq => ?queue⟩
    case pc =>
      rw [Slot.fall_of_no_last (by simpa using hlast)]
      simp [paced, curLen, apply_ite]
    case zero =>
      subst h0
      rw [slotPutG_zero]
      exact ⟨rfl, putG_low_wb (by decide)⟩
    case reg =>
      rw [putG_shared_of_none hd hq, coreOf_addWb]
      exact ⟨rfl, rfl⟩
    case queue =>
      rw [putG_shared_of_queue hd hq]
      refine ⟨findQueue_pushQueue hq, ?_⟩
      rw [curCore_pushQueue]
      rfl

end Sys2Proof.Machine
end

section
/-! SUPPORT. The loops: how they count, what a jump ends, how LOOP starts one (R45, R46, R319); O20 and O21. -/

namespace Sys2Proof.Machine

/-! ### Counting, and going to a target (R46) -/

/-- The first element that takeWhile leaves fails its test. -/
theorem getElem?_length_takeWhile {α : Type} {p : α → Bool} {l : List α} {x : α} (h : l[(l.takeWhile p).length]? = some x) :
    p x = false := by
  have hrest : (l.dropWhile p).head? = some x := by
    have hsplit : (l.takeWhile p ++ l.dropWhile p)[(l.takeWhile p).length]? = some x := by
      rwa [List.takeWhile_append_dropWhile]
    rwa [List.getElem?_append_right le_rfl, Nat.sub_self, ← List.head?_eq_getElem?] at hsplit
  have hfirst := List.head?_dropWhile_not p l
  rw [hrest] at hfirst
  exact hfirst

/-- A jump leaves the loops that hold its target, from the outermost inward (R46). -/
theorem slotOf_endGoto {s : State} (t : Nat) (pc : Word) (h : s.cur.pops = []) :
    slotOf (endGoto t pc s) s.cur.core s.cur.slot = paced s t ((curSlot s).goto pc) := by
  rw [endGoto_of_nil t pc h, slotOf_setCurSlot]

/-- Settles O20: countLoops by the innermost loop, and the loops that a target leaves as a prefix of those there were. -/
theorem loopsCount : Obligations.LoopsCount := by
  unfold Obligations.LoopsCount
  refine ⟨fun last seq lc l outer _ => ⟨fun hne => ?_, fun heq hn => ?_, fun heq hn => ?_, rfl⟩, fun s t pc hpops => ?_⟩
  · rw [countLoops, if_neg hne]
  · rw [countLoops, if_pos heq]
    exact if_neg (BitVec.not_le.2 hn)
  · rw [countLoops, if_pos heq]
    exact if_pos hn
  · rw [slotOf_endGoto t pc hpops]
    exact ⟨rfl, rfl, List.takeWhile_prefix _, fun l hl => List.mem_takeWhile_imp (p := (LoopState.holds · pc)) hl,
      fun l hl => getElem?_length_takeWhile (p := (LoopState.holds · pc)) hl⟩

/-! ### What committing the pops of an instruction leaves of a slot (R41, R42) -/

@[simp] theorem commitPop_cur (core : Nat) (s : State) (p : Popped) : (commitPop core s p).cur = s.cur := by
  rw [commitPop]
  split <;> rfl

/-- A pop moves a queue, or a stream of the thread that bound it. -/
theorem slotOf_commitPop (core : Nat) (s : State) (p : Popped) (k : Nat) :
    ∃ streams, slotOf (commitPop core s p) core k = { slotOf s core k with streams := streams } := by
  rw [commitPop]
  split
  · refine ⟨(slotOf s core k).streams, ?_⟩
    simp [slotOf, mapQueue]
  · by_cases hk : k = p.binder
    · subst hk
      rw [slotOf_setSlot_self]
      exact ⟨_, rfl⟩
    · rw [slotOf_setSlot_of_ne _ _ hk]
      exact ⟨_, rfl⟩

theorem slotOf_foldl_commitPop (core : Nat) (ps : List Popped) (s : State) (k : Nat) :
    ∃ streams, slotOf (ps.foldl (commitPop core) s) core k = { slotOf s core k with streams := streams } := by
  induction ps generalizing s with
  | nil => exact ⟨_, rfl⟩
  | cons p ps ih =>
    obtain ⟨streams, h⟩ := ih (commitPop core s p)
    obtain ⟨_, hp⟩ := slotOf_commitPop core s p k
    exact ⟨streams, by rw [List.foldl_cons, h, hp]⟩

theorem foldl_commitPop_cur (core : Nat) (ps : List Popped) (s : State) : (ps.foldl (commitPop core) s).cur = s.cur := by
  induction ps generalizing s with
  | nil => rfl
  | cons p ps ih => rw [List.foldl_cons, ih, commitPop_cur]

theorem commitPops_cur (s : State) : (commitPops s).cur = { s.cur with pops := [] } := by
  rw [commitPops, foldl_commitPop_cur]

theorem slotOf_commitPops (s : State) (k : Nat) :
    ∃ streams, slotOf (commitPops s) s.cur.core k = { slotOf s s.cur.core k with streams := streams } :=
  slotOf_foldl_commitPop ..

/-! ### Computations that read and write the state, and that choose -/

theorem run_get_bind {α : Type} (f : State → Exec α) (s : State) : ((get : Exec State) >>= f).run s = (f s).run s :=
  ends_bind ((ends_get ..).2 ⟨rfl, rfl⟩)

theorem run_modify_bind {α : Type} (g : State → State) (f : PUnit → Exec α) (s : State) :
    ((modify g : Exec PUnit) >>= f).run s = (f ⟨⟩).run (g s) :=
  ends_bind ((ends_modify ..).2 rfl)

theorem run_ite_of_pos {α : Type} {c : Prop} [Decidable c] {m n : Exec α} {s : State} (h : c) :
    (if c then m else n).run s = m.run s := by rw [if_pos h]

theorem run_ite_of_neg {α : Type} {c : Prop} [Decidable c] {m n : Exec α} {s : State} (h : ¬ c) :
    (if c then m else n).run s = n.run s := by rw [if_neg h]

/-! ### LOOP (R45, R319) -/

/-- What LOOP does once its body is read and its count taken: a count of 0 goes on behind `last` (R319). -/
def enterLoop (l : LoopState) (depth : Nat) (v : Word) (s : State) : State :=
  if v = 0 then
    let s' := commitPops s
    setCurSlot s' (paced s' 1 { curSlot s' with
      lc := (curSlot s).lc.setIfInBounds depth 0, pc := l.last + (if l.long then 4 else 2) })
  else endFall 1 (setCurSlot s { curSlot s with
    loops := (curSlot s).loops ++ [l], lc := (curSlot s).lc.setIfInBounds depth v })

/-- A level that is not the depth, or none at all, or an end inside LOOP itself (R319). -/
def badLoop (level : BitVec 2) (endoff : BitVec 9) (depth : Nat) : Bool :=
  level = 3 || level.toNat ≠ depth || endoff.toNat < 2

theorem execLoop_of_bad {a : Reg} {level : BitVec 2} {ci : Bool} {endoff : BitVec 9} {cnt : BitVec 8} {s : State}
    (h : badLoop level endoff (curSlot s).loops.length = true) :
    execLoop a level ci endoff cnt s = .next (takeTrap ⟨.loop, 0, 0, 0⟩ s) := by
  refine run_of_traps ?_
  rw [run_get_bind]
  exact if_pos h ▸ rfl

theorem execLoop_of_body {a : Reg} {level : BitVec 2} {ci : Bool} {endoff : BitVec 9} {cnt : BitVec 8} {s0 s1 s' : State} {count : Nat}
    {long : Bool} (h : badLoop level endoff (curSlot s0).loops.length = false)
    (hbody : Ends (readBody (curPc s0 + 4) (endoff.toNat - 2) 512 0 0) s0 (some (count, long)) s1) (hcount : count ≤ 256)
    (houter : ∀ l, (curSlot s0).loops.getLast? = some l → ¬ l.last < LoopState.last ⟨curPc s0 + 4, endoff.toNat, long⟩)
    (htakes : Takes (if ci then [] else [a]) none s1 s') :
    execLoop a level ci endoff cnt s0 = .next (enterLoop ⟨curPc s0 + 4, endoff.toNat, long⟩ (curSlot s0).loops.length
      (if ci then cnt.setWidth 64 else gval s' a) s') := by
  have hrest : (useG (if ci then [] else [a]) none >>= fun _ => modify fun s => enterLoop ⟨curPc s0 + 4, endoff.toNat, long⟩
      (curSlot s0).loops.length (if ci then BitVec.ofNat 64 cnt.toNat else gval s a) s : Exec Unit).run s1 =
      (.ok (), enterLoop ⟨curPc s0 + 4, endoff.toNat, long⟩ (curSlot s0).loops.length
        (if ci then cnt.setWidth 64 else gval s' a) s') := by
    rw [ends_bind htakes, BitVec.ofNat_toNat]
    rfl
  refine run_of_ends ?_
  rw [run_get_bind]
  refine (run_ite_of_neg (ne_true_of_eq_false h)).trans ?_
  rw [ends_bind hbody]
  refine (run_ite_of_neg hcount.not_gt).trans ?_
  rw [ends_bind ((ends_pure ..).2 ⟨rfl, rfl⟩)]
  rcases hlast : (curSlot s0).loops.getLast? with _ | outer
  · exact hrest
  · exact (run_ite_of_neg (houter outer hlast)).trans hrest

/-- A count of 0 sets the counter to 0 and goes on behind `last`; the loops there are stay (R319). -/
theorem slotOf_enterLoop_zero (l : LoopState) (depth : Nat) (s : State) :
    ∃ x, slotOf (enterLoop l depth 0 s) s.cur.core s.cur.slot = x ∧ x.pc = l.last + (if l.long then 4 else 2) ∧
      x.loops = (curSlot s).loops ∧ x.lc = (curSlot s).lc.setIfInBounds depth 0 := by
  have hcur := commitPops_cur s
  obtain ⟨streams, hslot⟩ := slotOf_commitPops s s.cur.slot
  rw [enterLoop, if_pos rfl]
  simp only [setCurSlot, curSlot, hcur, slotOf_setSlot_self]
  exact ⟨_, rfl, rfl, by rw [paced, hslot], rfl⟩

/-- Settles O21: LOOP answers enterLoop once its checks have passed. -/
theorem loopStarts : Obligations.LoopStarts := by
  unfold Obligations.LoopStarts
  intro s s1 s' a level ci endoff cnt count long
  refine ⟨fun h => execLoop_of_bad (by simpa [badLoop, or_assoc] using h), fun hlevel hdepth hend hbody hcount houter htakes => ?_⟩
  have hgood : badLoop level endoff (curSlot s).loops.length = false := by
    simp only [badLoop, Bool.or_eq_false_iff, decide_eq_false_iff_not]
    exact ⟨⟨hlevel, not_not.2 hdepth⟩, hend.not_gt⟩
  have hexec := execLoop_of_body (cnt := cnt) hgood hbody hcount houter htakes
  rw [← hdepth] at hexec
  refine ⟨fun hv => hexec.trans (congrArg _ (if_neg hv)), fun hv => ⟨_, hexec, ?_⟩⟩
  obtain ⟨x, hx, hpc, hloops, hlc⟩ := slotOf_enterLoop_zero ⟨curPc s + 4, endoff.toNat, long⟩ level.toNat s'
  rw [show (if ci then cnt.setWidth 64 else gval s' a) = 0 from hv, hx]
  exact ⟨hpc, hloops, hlc⟩

end Sys2Proof.Machine
end

section
/-! SUPPORT. Which slot issues, and when a cycle passes (R32, R35, R201); O6. -/

namespace Sys2Proof.Machine

/-! ### The slot that issues (R32) -/

/-- The work slots of a compute core, from the one after the last that issued, with wrap-around. -/
def workOrder (last : Nat) : List Nat := (List.range 14).map fun i => (last + 1 + i) % 14

theorem lt_of_mem_workOrder {last k : Nat} (h : k ∈ workOrder last) : k < 14 := by
  obtain ⟨i, -, rfl⟩ := List.mem_map.1 h
  exact Nat.mod_lt _ (by decide)

theorem pick_of_keeper {s : State} {c : Nat} (hc : c < garnet) (hb : budget s c = true) (hk : ready s c 15 = true) :
    pick s c = some 15 := by simp [pick, hc, hb, hk]

theorem pick_of_courier {s : State} {c : Nat} (hc : c < garnet) (hb : budget s c = true) (hk : ready s c 15 = false)
    (hr : ready s c 14 = true) : pick s c = some 14 := by simp [pick, hc, hb, hk, hr]

theorem pick_of_work {s : State} {c : Nat} (hc : c < garnet)
    (h : budget s c = false ∨ (ready s c 15 = false ∧ ready s c 14 = false)) :
    pick s c = (workOrder (coreOf s c).lastWork).find? (ready s c) := by
  rcases h with hb | ⟨hk, hr⟩
  · simp [pick, workOrder, hc, hb]
  · simp [pick, workOrder, hc, hk, hr]

/-- The first ready work slot in the order of R32. -/
theorem find?_workOrder_of_first {last n : Nat} {p : Nat → Bool} (hn : n < 14) (h : p ((last + 1 + n) % 14) = true)
    (hfirst : ∀ j, j < n → p ((last + 1 + j) % 14) = false) : (workOrder last).find? p = some ((last + 1 + n) % 14) := by
  have hrange : (List.range 14).find? (p ∘ fun i => (last + 1 + i) % 14) = some n :=
    List.find?_range_eq_some.2 ⟨h, List.mem_range.2 hn, fun j hj => by simp [hfirst j hj]⟩
  rw [workOrder, List.find?_map, hrange, Option.map_some]

/-- Two issues of the keeper and the courier in the last 16 cycles use up the budget (R32). -/
theorem budget_of_two {s : State} {c t u : Nat} (h : (coreOf s c).service = [t, u]) (ht : ticksOf s c < t + 16)
    (hu : ticksOf s c < u + 16) : budget s c = false := by simp [budget, h, ht, hu]

/-- A thread may issue until the deadline of its request (R201). -/
theorem pastDeadline_eq_false_iff (x : Slot) (cycle : Nat) :
    x.pastDeadline cycle = false ↔ ∀ r, x.request = some r → cycle < r.deadline := by
  rcases h : x.request with _ | r <;> simp [Slot.pastDeadline, h]

/-- What makes a slot of a compute core ready (R32, R201). -/
theorem ready_iff {s : State} {c k : Nat} (hc : c < garnet) (hk : k < 16) :
    ready s c k = true ↔ (slotOf s c k).live = true ∧ (slotOf s c k).wait.reason = .none ∧ (slotOf s c k).readyAt ≤ ticksOf s c ∧
      (k < 14 → ∀ r, (slotOf s c k).request = some r → s.cycle < r.deadline) := by
  have hservice : isService c k = true ↔ ¬ k < 14 := by
    simp only [isService, isKeeper, isCourier, hc, decide_true, Bool.true_and, Bool.or_eq_true, beq_iff_eq]
    omega
  simp only [ready, Bool.and_eq_true, Bool.or_eq_true, beq_iff_eq, decide_eq_true_eq, hservice, Bool.not_eq_true',
    pastDeadline_eq_false_iff, and_assoc, imp_iff_not_or]

theorem issue_of_pick_none {s : State} {c : Nat} (h : pick s c = none) (defer : Bool) : issue s c defer = (none, s) := by
  rw [issue, h]
  split <;> rfl

/-! ### A move that lets time pass (R32, R35) -/

theorem next_of_agenda {s : State} {m : Move} {rest : List Move} (h : s.agenda = m :: rest) : next s = agendaMove s m rest := by
  rw [next, h]

/-- A core that takes part and picks no slot is no ready core. -/
theorem pick_eq_none_of_readyCores {s : State} {c : Nat} (h : readyCores s = []) (hc : c ∈ s.cores.map (·.1))
    (hruns : coreRuns s c = true) : pick s c = none := by
  have hnot := List.filter_eq_nil_iff.1 h c hc
  simpa [hruns] using hnot

/-- Settles O6: pick by its three branches, and a move's time by the cores that are ready. -/
theorem issueOrder : Obligations.IssueOrder := by
  unfold Obligations.IssueOrder
  refine ⟨fun s s1 dt m rest hag hs1 hforced => ⟨fun c cs hcores => ?issues, fun hcores => ⟨?passes, fun c => pick_eq_none_of_readyCores hcores⟩⟩,
    fun s c hc _ => ⟨fun t u k hservice ht hu hpick => ?budget, pick_of_keeper hc, pick_of_courier hc, fun h => ?work,
      fun k => ready_iff hc, issue_of_pick_none, rfl, fun _ => rfl⟩⟩
  case issues =>
    subst hs1
    simp only [next_of_agenda hag, agendaMove, hforced, hcores, List.head?_cons, hag]
  case passes =>
    subst hs1
    simp only [next_of_agenda hag, agendaMove, hforced, hcores, List.head?_nil]
  case budget =>
    rw [pick_of_work hc (.inl (budget_of_two hservice ht hu))] at hpick
    exact lt_of_mem_workOrder (List.mem_of_find?_eq_some hpick)
  case work =>
    rw [pick_of_work hc h]
    exact ⟨fun n => find?_workOrder_of_first,
      fun hnone => List.find?_eq_none.2 fun k hk => by simp [hnone k (lt_of_mem_workOrder hk)]⟩

end Sys2Proof.Machine
end

section
/-! SUPPORT. The instruction at the PC of the slot that issues, and the event that is due (R32, R54 to R56, log 16); O4. -/

namespace Sys2Proof.Machine

/-! ### What two halfwords decode to (R54) -/

/-- Two bytes that decode are a short form, by an even halfword. -/
theorem decodeShort_of_decode {lo : Nat} {i : Instr} (hlo : lo < 65536) (h : decode (leBytes 2 lo) = .ok (i, 2)) :
    lo % 2 = 0 ∧ decodeShort lo = .ok i := by
  have hnum : leNat [BitVec.ofNat 8 lo, BitVec.ofNat 8 (lo / 256)] = lo := by
    simp only [leNat, BitVec.toNat_ofNat]
    omega
  simp only [leBytes, decode, hnum] at h
  split at h
  · next heven =>
    obtain ⟨hd, -⟩ := map_length_eq_ok h
    exact ⟨by simp only [BitVec.toNat_ofNat] at heven; omega, hd⟩
  · simp at h

/-- Four bytes whose first halfword is odd decode as a long form. -/
theorem decodeLong_of_decode {lo hi : Nat} {i : Instr} (hlo : lo < 65536) (hhi : hi < 65536) (hodd : lo % 2 = 1)
    (h : decode (leBytes 2 lo ++ leBytes 2 hi) = .ok (i, 4)) : decodeLong (lo + 65536 * hi) = .ok i := by
  have hnum : leNat [BitVec.ofNat 8 lo, BitVec.ofNat 8 (lo / 256), BitVec.ofNat 8 hi, BitVec.ofNat 8 (hi / 256)] =
      lo + 65536 * hi := by
    simp only [leNat, BitVec.toNat_ofNat]
    omega
  have hbit : ¬ (BitVec.ofNat 8 lo).toNat % 2 = 0 := by
    simp only [BitVec.toNat_ofNat]
    omega
  simp only [leBytes, List.cons_append, List.nil_append, decode, if_neg hbit, hnum] at h
  exact (map_length_eq_ok h).1

/-! ### Fetching (R54 to R56) -/

theorem fetchInstr_of_short {s s2 : State} {lo : Nat} {i : Instr}
    (hfetch : Ends (fetchHalf (curSlot s).pc) (setWord 0 false s) lo s2) (heven : lo % 2 = 0) (hd : decodeShort lo = .ok i) :
    Ends fetchInstr s (some i) (setWord lo false s2) := by
  simp only [Ends, fetchInstr]
  rw [run_get_bind, run_modify_bind, ends_bind hfetch, run_ite_of_pos heven,
    run_modify_bind, hd]
  rfl

theorem fetchInstr_of_long {s s2 s3 : State} {lo hi : Nat} {i : Instr}
    (hfetch : Ends (fetchHalf (curSlot s).pc) (setWord 0 false s) lo s2) (hodd : lo % 2 = 1)
    (hfetch' : Ends (fetchHalf ((curSlot s).pc + 2)) (setWord lo true s2) hi s3) (hd : decodeLong (lo + 65536 * hi) = .ok i) :
    Ends fetchInstr s (some i) (setWord (lo + 65536 * hi) true s3) := by
  simp only [Ends, fetchInstr]
  rw [run_get_bind, run_modify_bind, ends_bind hfetch,
    run_ite_of_neg (by omega), run_modify_bind, ends_bind hfetch', run_modify_bind, hd]
  rfl

/-! ### A step -/

theorem step_of_next {s s1 : State} {i : Instr} (hpower : powerless s = false) (h : next s = (some i, s1)) : step s = exec i s1 := by
  rw [step, if_neg (ne_true_of_eq_false hpower), h]

/-- The move of an event that nothing forced comes before (log 16). -/
theorem next_of_event {s : State} {i : Instr} {rest : List Move} (hag : s.agenda = ⟨0, .event i⟩ :: rest)
    (hforced : forced (settle { s with agenda := rest }) = none) (hev : Machine.isEvent i = true) :
    next s = (some i, settle { s with agenda := rest }) := by
  rw [next_of_agenda hag, agendaMove]
  simp only [hforced, hev, if_true]

/-- The move of a core that issues (log 16). -/
theorem next_of_issue {s : State} {core : Nat} {defer : Bool} {rest : List Move} (hag : s.agenda = ⟨0, .issue core defer⟩ :: rest)
    (hforced : forced (settle { s with agenda := rest }) = none) : next s = issue (settle { s with agenda := rest }) core defer := by
  rw [next_of_agenda hag, agendaMove]
  simp only [hforced]

/-- A core that takes part issues what it fetches at the PC of the slot that R32 picks. -/
theorem issue_of_fetch {s s2 : State} {core k : Nat} {defer : Bool} {i : Instr} (hruns : coreRuns s core = true)
    (hpick : pick s core = some k) (huint : deliverable s core k = false)
    (hfetch : Ends fetchInstr (issueFrom s core k defer) (some i) s2) : issue s core defer = (some i, s2) := by
  rw [issue, hruns, hpick]
  simp only [Bool.not_true, Bool.false_eq_true, if_false, huint, hfetch.run_eq]

/-- Settles O4: the agenda's move is the core's issue or the event, and the issue is what the fetch decodes. -/
theorem stepRunsDecoded : Obligations.StepRunsDecoded := by
  unfold Obligations.StepRunsDecoded
  refine ⟨fun s s1 i rest hpower hag hs1 hforced hev => ?_,
    fun s s1 s2 core k lo defer rest hpower hag hs1 hforced hruns hpick huint hlo => ?_⟩
  · subst hs1
    exact step_of_next hpower (next_of_event hag hforced hev)
  · subst hs1
    have hstep {i : Instr} {u : State} (hfetch : Ends fetchInstr (issueFrom _ core k defer) (some i) u) : step s = exec i u :=
      step_of_next hpower ((next_of_issue hag hforced).trans (issue_of_fetch hruns hpick huint hfetch))
    refine ⟨fun i hbound hd => ?_, fun i hi s3 hbound hbound' hodd hhi hd => ?_⟩
    · obtain ⟨heven, hshort⟩ := decodeShort_of_decode hbound hd
      exact hstep (fetchInstr_of_short hlo heven hshort)
    · exact hstep (fetchInstr_of_long hlo hodd hhi (decodeLong_of_decode hbound hbound' hodd hd))

end Sys2Proof.Machine
end

section
/-! SUPPORT. What reset leaves, table by table (R39, R167, R179, R183, R225, R247, R262); O7. -/

namespace Sys2Proof.Machine

theorem coreOf_reset (c : Nat) : coreOf State.reset c = {} := rfl

theorem slotOf_reset (c k : Nat) : slotOf State.reset c k = {} := rfl

/-- The principal holds every parcel, and only estate 0 is in use (R167, R183). -/
theorem entryOf_reset (p : Nat) : entryOf State.reset p = { inuse := p == 0 } := rfl

theorem estateOf_reset_zero : estateOf State.reset 0 = { principal := true, dwords := principalDwords } := rfl

/-- Partition 0 alone exists (R178). -/
theorem partOf_reset_inuse (p : Nat) : (partOf State.reset p).inuse = decide (p = 0) := by
  rcases Nat.eq_zero_or_pos p with rfl | hp
  · rfl
  · have hfind : mapFind State.reset.parts p = none := if_neg hp.ne
    rw [partOf, hfind, decide_eq_false hp.ne']
    rfl

theorem seatOf_reset (u x : Nat) : seatOf State.reset u x = {} := rfl

theorem queueOf_reset (q : Nat) : queueOf State.reset q = {} := rfl

/-- Settles O7: every table but those of estates and partitions is empty, and its entries read as their defaults. -/
theorem resetLeaves : Obligations.ResetLeaves := by
  unfold Obligations.ResetLeaves
  refine ⟨rfl, fun a => ⟨rfl, rfl⟩, rfl, rfl, fun c a => ?scratch, fun c t => ?tile, fun p => ?entry, fun e _ => ?estate, ?principal,
    ?notice, ?wdog, partOf_reset_inuse, fun c k => ?slot, fun c => ?core, fun u x => ?seat, fun q => ?queue, rfl, rfl, rfl⟩
  case scratch =>
    rw [coreOf_reset]
    exact ⟨rfl, rfl⟩
  case tile => rw [coreOf_reset]; rfl
  case entry =>
    rw [entryOf_reset]
    exact ⟨rfl, rfl, rfl, rfl, rfl, rfl, rfl⟩
  case estate =>
    rw [entryOf_reset]
    rfl
  case principal => rw [estateOf_reset_zero]
  case notice => decide
  case wdog => decide
  case slot =>
    rw [slotOf_reset]
    exact ⟨rfl, rfl, rfl, rfl, rfl, rfl, rfl, rfl⟩
  case core =>
    rw [coreOf_reset]
    exact ⟨rfl, rfl, rfl, rfl, rfl⟩
  case seat =>
    rw [seatOf_reset]
    exact ⟨rfl, rfl, rfl⟩
  case queue =>
    rw [queueOf_reset]
    exact ⟨rfl, rfl, rfl⟩

end Sys2Proof.Machine
end

section
/-! SUPPORT. Taking a trap: the writeback it leaves, the parking of its thread, and its record's place in the keeper queue (R33, R189 to
R191); O8. -/

namespace Sys2Proof.Machine

/-! ### States that differ in slots of one core -/

/-- t differs from s, in what parking looks at, by no more than the slots of core c that p holds for. -/
structure OnlySlots (c : Nat) (p : Nat → Prop) (s t : State) : Prop where
  islands : t.islands = s.islands
  estates : t.estates = s.estates
  cad : t.cad = s.cad
  tasks : t.tasks = s.tasks
  cores : ∀ d, d ≠ c → coreOf t d = coreOf s d
  core : coreOf t c = { coreOf s c with slots := (coreOf t c).slots }
  slots : ∀ k, ¬ p k → slotOf t c k = slotOf s c k
  bytes : ∀ h, byteAt t h = byteAt s h

namespace OnlySlots

variable {c : Nat} {p q : Nat → Prop} {s t u : State}

theorem refl (c : Nat) (p : Nat → Prop) (s : State) : OnlySlots c p s s :=
  ⟨rfl, rfl, rfl, rfl, fun _ _ => rfl, rfl, fun _ _ => rfl, fun _ => rfl⟩

theorem symm (h : OnlySlots c p s t) : OnlySlots c p t s :=
  ⟨h.islands.symm, h.estates.symm, h.cad.symm, h.tasks.symm, fun d hd => (h.cores d hd).symm, by rw [h.core],
    fun k hk => (h.slots k hk).symm, fun a => (h.bytes a).symm⟩

theorem trans (h : OnlySlots c p s t) (h' : OnlySlots c p t u) : OnlySlots c p s u :=
  ⟨h'.islands.trans h.islands, h'.estates.trans h.estates, h'.cad.trans h.cad, h'.tasks.trans h.tasks,
    fun d hd => (h'.cores d hd).trans (h.cores d hd), by rw [h'.core, h.core],
    fun k hk => (h'.slots k hk).trans (h.slots k hk), fun a => (h'.bytes a).trans (h.bytes a)⟩

theorem mono (h : OnlySlots c p s t) (hpq : ∀ k, p k → q k) : OnlySlots c q s t :=
  { h with slots := fun k hk => h.slots k fun hp => hk (hpq k hp) }

theorem setSlot (s : State) (c k : Nat) (x : Slot) : OnlySlots c (· = k) s (setSlot s c k x) where
  islands := rfl
  estates := rfl
  cad := rfl
  tasks := rfl
  cores d hd := coreOf_setSlot_of_ne _ _ _ hd
  core := by rw [coreOf_setSlot_self]
  slots k' hk := slotOf_setSlot_of_ne _ _ hk
  bytes a := byteAt_setSlot ..

theorem withReads (c : Nat) (p : Nat → Prop) (s : State) (rs : List BoundRead) : OnlySlots c p s { s with reads := rs } :=
  ⟨rfl, rfl, rfl, rfl, fun _ _ => rfl, rfl, fun _ _ => rfl, byteAt_withReads s rs⟩

theorem ticks_eq (h : OnlySlots c p s t) (core : Nat) : ticksOf t core = ticksOf s core := by
  simp only [ticksOf, islandGet, h.islands]

theorem estateOf_eq (h : OnlySlots c p s t) (e : Nat) : estateOf t e = estateOf s e := by
  simp only [estateOf, h.estates]

theorem keeperEstate_eq (h : OnlySlots c p s t) (r : TrapRec) : keeperEstate t c r = keeperEstate s c r := by
  simp only [keeperEstate, coreEstate, userOf, entryOf, h.cad]

theorem keeperQueue_eq (h : OnlySlots c p s t) : (coreOf t c).keeperQueue = (coreOf s c).keeperQueue := by
  rw [h.core]

theorem keeperHeld_eq (h : OnlySlots c p s t) : (coreOf t c).keeperHeld = (coreOf s c).keeperHeld := by
  rw [h.core]

end OnlySlots

/-! ### The keeper that starts (R191) -/

/-- Starting the keeper writes the keeper slot alone. -/
theorem onlySlots_startKeeper (s : State) (c : Nat) : OnlySlots c (· = 15) s (startKeeper s c) := by
  rw [startKeeper]
  split
  · exact .refl ..
  · split
    · exact .refl ..
    · exact .setSlot ..

theorem onlySlots_withoutKeeper (s : State) (c : Nat) : OnlySlots c (· = 15) s (withoutKeeper s c) := .setSlot ..

/-- What the keeper starts as does not look at the other slots of its core. -/
theorem slotOf_startKeeper_congr {c : Nat} {p : Nat → Prop} {s t : State} (h : OnlySlots c p s t)
    (h15 : slotOf t c 15 = slotOf s c 15) : slotOf (startKeeper t c) c 15 = slotOf (startKeeper s c) c 15 := by
  simp only [startKeeper, h.keeperQueue_eq, h.keeperHeld_eq, h15, h.keeperEstate_eq, h.estateOf_eq, h.ticks_eq, handlerSlot]
  split
  · exact h15
  · split
    · exact h15
    · rw [slotOf_setSlot_self, slotOf_setSlot_self]

theorem keeperFresh_congr {c k : Nat} {s t : State} (h : OnlySlots c (· = k) s t) (hk : k ≠ 15) :
    keeperFresh t c = keeperFresh s c := by
  have h15 := h.slots 15 hk.symm
  have hwithout : OnlySlots c (fun j => j = k ∨ j = 15) (withoutKeeper s c) (withoutKeeper t c) :=
    ((onlySlots_withoutKeeper s c).symm.mono fun _ => .inr).trans
      ((h.mono fun _ => .inl).trans ((onlySlots_withoutKeeper t c).mono fun _ => .inr))
  have hstart := slotOf_startKeeper_congr hwithout (by simp only [withoutKeeper, slotOf_setSlot_self, h15])
  simp only [keeperFresh, h15, hstart]

/-! ### A record enters the keeper queue (R189, R191) -/

/-- Whether a record of the queue comes after one of slot k and time n that enters: of one cycle, and of a higher slot. -/
def comesAfter (n k : Nat) (x : Nat × TrapRec) : Bool := x.2.time == n && decide (k < x.1)

/-- The queue of a core whose estate has a keeper, once a record has entered; it is the head that a running keeper serves. -/
def entered (s : State) (c k : Nat) (r : TrapRec) : List (Nat × TrapRec) :=
  let n := if c < garnet && (slotOf s c 15).live && !keeperFresh s c then 1 else 0
  (coreOf s c).keeperQueue.take n ++ insertRecord k r ((coreOf s c).keeperQueue.drop n)

/-- A record that enters the keeper queue changes that queue, and the keeper slot where the keeper starts. -/
theorem queueRecord_of_keeper {s : State} {c : Nat} (k : Nat) {r : TrapRec} (h : (estateOf s (keeperEstate s c r)).keeperEntry ≠ 0) :
    OnlySlots c (· = 15) (setCore s c { coreOf s c with keeperQueue := entered s c k r }) (queueRecord s c k r) := by
  have hentry : ¬ (c < garnet && (estateOf s (keeperEstate s c r)).keeperEntry == 0) = true := by simp [h]
  rw [queueRecord]
  simp only [if_neg hentry]
  split
  · exact (onlySlots_withoutKeeper _ c).trans (onlySlots_startKeeper _ c)
  · split
    · exact onlySlots_startKeeper _ c
    · exact .refl ..

theorem comesAfter_eq_true_iff {n k : Nat} {x : Nat × TrapRec} : comesAfter n k x = true ↔ x.2.time = n ∧ k < x.1 := by
  simp [comesAfter]

theorem insertRecord_eq (k : Nat) (r : TrapRec) (q : List (Nat × TrapRec)) :
    insertRecord k r q =
      q.takeWhile (fun x => !comesAfter r.time k x) ++ (k, r) :: q.dropWhile (fun x => !comesAfter r.time k x) := by
  have hdrop : q.drop (q.takeWhile fun x => !comesAfter r.time k x).length = q.dropWhile fun x => !comesAfter r.time k x := by
    have hleft := List.drop_left (l₁ := q.takeWhile fun x => !comesAfter r.time k x) (l₂ := q.dropWhile fun x => !comesAfter r.time k x)
    rwa [List.takeWhile_append_dropWhile] at hleft
  rw [← hdrop]
  rfl

/-- The record stands before those of its cycle with higher slots that no keeper serves, and behind the others. -/
theorem entered_split (s : State) (c k : Nat) (r : TrapRec) (hc : c < garnet) :
    ∃ pre post, (coreOf s c).keeperQueue = pre ++ post ∧ entered s c k r = pre ++ (k, r) :: post ∧
      (∀ x ∈ post.head?, x.2.time = r.time ∧ k < x.1) ∧
      (∀ x ∈ pre.drop (if (slotOf s c 15).live && !keeperFresh s c then 1 else 0), ¬ (x.2.time = r.time ∧ k < x.1)) := by
  set n := if (slotOf s c 15).live && !keeperFresh s c then 1 else 0 with hn
  set q := (coreOf s c).keeperQueue with hq
  refine ⟨q.take n ++ (q.drop n).takeWhile (fun x => !comesAfter r.time k x), (q.drop n).dropWhile (fun x => !comesAfter r.time k x),
    ?_, ?_, fun x hx => ?_, fun x hx => ?_⟩
  · rw [List.append_assoc, List.takeWhile_append_dropWhile, List.take_append_drop]
  · rw [entered, insertRecord_eq, List.append_assoc]
    simp only [hc, decide_true, Bool.true_and, ← hn, ← hq]
  · have hfirst := List.head?_dropWhile_not (fun x => !comesAfter r.time k x) (q.drop n)
    rw [Option.mem_def.1 hx] at hfirst
    exact comesAfter_eq_true_iff.1 (by simpa using hfirst)
  · rw [List.drop_append, List.drop_take_self, List.nil_append] at hx
    have hbefore := List.mem_takeWhile_imp (List.mem_of_mem_drop hx)
    exact fun hafter => by simp [comesAfter_eq_true_iff.2 hafter] at hbefore

/-! ### Parking (R189, R190) -/

/-- A parked thread that waited for nothing (R197). -/
def parkedSlot (x : Slot) : Slot := { x with wait := { reason := .parked }, fetched := [], ticket := none, past := false }

/-- A thread that waits for nothing has popped and reserved nothing to give back (R42). -/
theorem returnHeld_of_idle {s : State} {c k : Nat} (hpend : (slotOf s c k).pend = .none) (hheld : (slotOf s c k).held = []) :
    OnlySlots c (· = k) s (returnHeld s c k) ∧ slotOf (returnHeld s c k) c k = { slotOf s c k with ticket := none } := by
  rw [returnHeld]
  simp only [hpend, hheld, List.reverse_nil, List.foldl_nil, reservedReg, Pending.reg, Option.map_none, landImage, Slot.rowsLeft]
  rcases (slotOf s c k).ticket with _ | t <;>
    exact ⟨(OnlySlots.setSlot s c k _).trans (.withReads ..), (slotOf_setSlot_self ..).trans (by rw [← hpend, ← hheld])⟩

/-- Parking such a thread writes its slot, and then enters the record. -/
theorem parkSlot_of_idle {s : State} {c k : Nat} (t : TrapInfo) (long : Bool) (hk : k ≠ 15) (hpend : (slotOf s c k).pend = .none)
    (hheld : (slotOf s c k).held = []) :
    ∃ s', OnlySlots c (· = k) s s' ∧ slotOf s' c k = parkedSlot (slotOf s c k) ∧
      parkSlot s c k t long = queueRecord s' c k (trapRecord s c k t long) := by
  obtain ⟨hreturned, hslot⟩ := returnHeld_of_idle hpend hheld
  have hkeeper : ¬ isKeeper c k = true := by simp [isKeeper, hk]
  have hpeer : (slotOf s c k).parkedPeer t = 0 := by rw [Slot.parkedPeer, hpend]
  have hpark : OnlySlots c (· = k) s (setSlot (returnHeld s c k) c k (parkedSlot (slotOf s c k))) :=
    hreturned.trans (.setSlot ..)
  refine ⟨_, hpark, slotOf_setSlot_self .., ?_⟩
  simp only [parkSlot, if_neg hkeeper, hslot, hpeer]
  rfl

/-! ### The writeback of a trap (R33, R189) -/

/-- A trap leaves one writeback and the pace of its thread (R33). -/
theorem takeTrapAt_frame (n : Nat) (t : TrapInfo) (s : State) :
    IssueFrame s (takeTrapAt n t s) ∧ (coreOf (takeTrapAt n t s) s.cur.core).queues = (curCore s).queues ∧
      slotOf (takeTrapAt n t s) s.cur.core s.cur.slot = { curSlot s with readyAt := ticksOf s s.cur.core + 8 * n } ∧
      (∀ h, byteAt (takeTrapAt n t s) h = byteAt s h) ∧
      (coreOf (takeTrapAt n t s) s.cur.core).wb =
        (curCore s).wb ++ [⟨ticksOf s s.cur.core + 8 * n - 1, s.cur.slot, .park t s.cur.long, none⟩] := by
  let u := setCurSlot (withPops s []) { curSlot s with readyAt := ticksOf s s.cur.core + 8 * n }
  have hpace : IssueFrame s u := (queueFrame_withPops s []).1.trans (issueFrame_setCurSlot ..)
  have hwb : QueueFrame u (takeTrapAt n t s) := queueFrame_setCore u ..
  have hcore : coreOf (takeTrapAt n t s) s.cur.core = { curCore u with
      wb := (curCore u).wb ++ [⟨ticksOf s s.cur.core + 8 * n - 1, s.cur.slot, .park t s.cur.long, none⟩] } := coreOf_setCore_self ..
  have hu : curCore u = { curCore s with slots := (curCore u).slots } := by
    rw [show curCore u = _ from coreOf_setCurSlot (withPops s []) _]
    rfl
  refine ⟨hpace.trans hwb.1, ?_, hwb.2.trans (slotOf_setCurSlot ..), fun h => ?_, ?_⟩
  · rw [hcore, hu]
  · exact (byteAt_setCore (s := u) (by rfl) h).trans ((byteAt_setCurSlot ..).trans (byteAt_withCur ..))
  · rw [hcore, hu]

/-- A trap is due at its writeback point (R189). -/
theorem isDue_park (now due k : Nat) (t : TrapInfo) (long : Bool) :
    Wb.isDue now ⟨due, k, .park t long, none⟩ = decide (due ≤ now) := by
  rw [Bool.eq_iff_iff]
  simp [Wb.isDue, WbAct.onThread, le_iff_lt_or_eq]

/-- Settles O8: the trap leaves a writeback, and the writeback parks the thread and enters its record. -/
theorem trapParksAndRecords : Obligations.TrapParksAndRecords := by
  unfold Obligations.TrapParksAndRecords
  refine ⟨fun s n t => ?_, fun s c k due now t long => ⟨isDue_park .., fun hc hk hentry hpend hheld => ?_⟩⟩
  · obtain ⟨⟨hissuer, hslots, -, -⟩, hqueues, hslot, hbytes, hwb⟩ := takeTrapAt_frame n t s
    exact ⟨rfl, hissuer, hqueues, hslot, hslots, hbytes, hwb⟩
  · obtain ⟨s', hidle, hparked, hpark⟩ := parkSlot_of_idle t long hk hpend hheld
    set r := trapRecord s c k t long with hr
    have hkeeper : (estateOf s' (keeperEstate s' c r)).keeperEntry ≠ 0 := by
      rwa [hidle.keeperEstate_eq, hidle.estateOf_eq]
    have hqueue := queueRecord_of_keeper k hkeeper
    obtain ⟨pre, post, hsplit, hentered, hbehind, hbefore⟩ := entered_split s' c k r hc
    rw [hidle.keeperQueue_eq] at hsplit
    rw [keeperFresh_congr hidle hk, hidle.slots 15 (Ne.symm hk)] at hbefore
    have hu : applyWb c s ⟨due, k, .park t long, none⟩ = queueRecord s' c k r := hpark
    simp only [hu]
    refine ⟨r, pre, post, hsplit, ?_, hbehind, hbefore, rfl, rfl, rfl, rfl, rfl, rfl, rfl, rfl, rfl, rfl, rfl, rfl, rfl, rfl, ?_, ?_, ?_, ?_, ?_⟩
    · rw [hqueue.keeperQueue_eq, coreOf_setCore_self, hentered]
    · rw [hqueue.slots k hk, slotOf, coreOf_setCore_self]
      exact hparked
    · exact fun h => (hqueue.bytes h).trans ((byteAt_setCore (by rfl) h).trans (hidle.bytes h))
    · exact hqueue.cad.trans hidle.cad
    · exact hqueue.tasks.trans hidle.tasks
    · exact fun d hd => (hqueue.cores d hd).trans ((coreOf_setCore_of_ne _ _ hd).trans (hidle.cores d hd))

end Sys2Proof.Machine
end

section
/-! SUPPORT. An MMA on Garnet whose slot still holds another MMA in progress; refutes O37. -/

namespace Sys2Proof.Machine

/-- A slot of Garnet that issues with an MMA pending, one of an older GENERATION (R176), none of whose rows is done. -/
def garnetMma : State :=
  { setSlot {} garnet 0 { pend := .mma 0 0 0 0 0 1 } with cur := { core := garnet } }

/-- MMA goes on to its rows after its own trap, finds the pending one there, and ends it by CAPABILITY (R207). -/
theorem pend_after_mma_garnetMma :
    (match exec (.mma 0 0 0) garnetMma with
      | .next t => some (slotOf t garnetMma.cur.core garnetMma.cur.slot).pend
      | _ => none) = some .none := by decide

/-- A trap leaves what its slot has pending until the writeback point (R33). -/
theorem pend_takeTrapAt (n : Nat) (t : TrapInfo) (s : State) :
    (slotOf (takeTrapAt n t s) s.cur.core s.cur.slot).pend = (curSlot s).pend := by
  obtain ⟨-, -, hslot, -⟩ := takeTrapAt_frame n t s
  rw [hslot]

/-- Refutes O37: its last clause speaks of every state, and an MMA that Garnet issues while its slot has an MMA pending traps ILLEGAL and
then also serves the pending one, whose slot changes at once. -/
theorem not_vectorWrite : ¬ Obligations.VectorWrite := by
  unfold Obligations.VectorWrite
  rintro ⟨-, h⟩
  obtain ⟨n, -, -, hexec⟩ := h garnetMma (.mma 0 0 0) (by decide) (by decide) (by decide) (by decide) (by decide) (by decide)
  have hpend := pend_after_mma_garnetMma
  simp only [hexec, pend_takeTrapAt] at hpend
  revert hpend
  decide

end Sys2Proof.Machine
end

section
/-! SUPPORT. Binding and releasing registers (R40, R42, R43, R340, R347, R363); O39. -/

namespace Sys2Proof.Machine

theorem notGarnet_of_lt {s : State} (h : s.cur.core < garnet) : Ends notGarnet s () s := by
  simp only [Ends, notGarnet, run_get_bind]
  rw [run_ite_of_neg (by omega)]
  rfl

/-- The trap of a register field that cannot be bound or released (R188). -/
theorem traps_streamTrap {α : Type} (d : Reg) (s : State) :
    Traps (streamTrap d : Exec α) s ⟨.stream, 0, BitVec.ofNat 64 d.toNat, 0⟩ s := rfl

/-- A check that fails traps before what follows. -/
theorem traps_ite_streamTrap {α : Type} {c : Prop} [Decidable c] {d : Reg} {s : State} {f : α → Exec Unit} {m : Exec Unit} (h : c) :
    Traps (if c then streamTrap d >>= f else m) s ⟨.stream, 0, BitVec.ofNat 64 d.toNat, 0⟩ s := by
  rw [if_pos h]
  exact traps_bind_iff.2 (.inl (traps_streamTrap d s))

/-- The state in which a check of the register field has trapped STREAM. -/
def streamTrapped (s : State) (d : Reg) : State := takeTrap ⟨.stream, 0, BitVec.ofNat 64 d.toNat, 0⟩ s

/-- The bindings of queues that a core's writebacks hold. -/
def queuesOnTheWay (c : Core) : List Wb :=
  c.wb.filter fun b => match b.act with
    | .bindQueue _ _ => true
    | _ => false

theorem queuesOnTheWay_of_none {c : Core} (h : ∀ b ∈ c.wb, ∀ w r, b.act ≠ .bindQueue w r) : queuesOnTheWay c = [] := by
  refine List.filter_eq_nil_iff.2 fun b hb => ?_
  split
  next w r hact => exact absurd hact (h b hb w r)
  next => simp

/-! ### SBIND (R40, R347) -/

/-- The stream that SBIND makes of the five dwords from e[e]. -/
def newStream (s : State) (d : Reg) (e : EReg) : Stream :=
  { reg := d.toNat, desc := #v[eval s e.toNat, eval s (e.toNat + 1), eval s (e.toNat + 2), eval s (e.toNat + 3), eval s (e.toNat + 4)] }

section
variable {s : State} {d : Reg} {e : EReg} (hcore : s.cur.core < garnet)
include hcore

theorem execSbind_of_free (hbound : isBoundV s d = false) (hfew : boundStreams s < 4) (hok : streamOk (newStream s d e) = true) :
    execSbind d e s = .next (endFall 1 (addWb (wbPoint s 1) (.bindStream (newStream s d e)) s)) := by
  have hchecks : ¬ (isBoundV s d || 4 ≤ boundStreams s || !streamOk (newStream s d e)) = true := by
    simp [hbound, hok, hfew]
  refine run_of_ends ?_
  rw [ends_bind (notGarnet_of_lt hcore), run_get_bind]
  exact (run_ite_of_neg hchecks).trans rfl

theorem execSbind_of_refused (h : isBoundV s d = true ∨ 4 ≤ boundStreams s ∨ streamOk (newStream s d e) = false) :
    execSbind d e s = .next (streamTrapped s d) := by
  have hchecks : (isBoundV s d || 4 ≤ boundStreams s || !streamOk (newStream s d e)) = true := by
    rcases h with h | h | h <;> simp [h]
  refine run_of_traps (traps_bind_iff.2 (.inr ⟨_, _, notGarnet_of_lt hcore, ?_⟩))
  rw [Traps, run_get_bind]
  exact traps_ite_streamTrap hchecks

/-! ### QBIND (R42, R340) -/

/-- Whether the register that QBIND names is bound, or a binding of it is on its way. -/
def qbindTaken (s : State) (w : Bool) (d : Reg) : Bool :=
  (w && isBoundV s d) || (findQueue (curCore s) w (d.toNat - 16)).isSome || binding (curCore s) w (d.toNat - 16)

theorem execQbind_of_free {w : Bool} (hd : 16 ≤ d.toNat) (hfree : qbindTaken s w d = false)
    (hnone : ∀ b ∈ (curCore s).wb, ∀ w' r, b.act ≠ .bindQueue w' r) (hfew : (curCore s).queues.length < 8) :
    execQbind w d s = .next (endFall 1 (addWb (wbPoint s 1) (.bindQueue w (d.toNat - 16)) s)) := by
  have hchecks : ¬ (qbindTaken s w d || 8 ≤ (curCore s).queues.length + (queuesOnTheWay (curCore s)).length) = true := by
    simp [hfree, queuesOnTheWay_of_none hnone, hfew]
  refine run_of_ends ?_
  rw [ends_bind (notGarnet_of_lt hcore), run_get_bind]
  exact (run_ite_of_neg (by omega)).trans ((run_ite_of_neg hchecks).trans rfl)

theorem execQbind_of_refused {w : Bool} (h : d.toNat < 16 ∨ qbindTaken s w d = true ∨ 8 ≤ (curCore s).queues.length) :
    execQbind w d s = .next (streamTrapped s d) := by
  refine run_of_traps (traps_bind_iff.2 (.inr ⟨_, _, notGarnet_of_lt hcore, ?_⟩))
  rw [Traps, run_get_bind]
  by_cases hd : d.toNat < 16
  · exact traps_ite_streamTrap hd
  · refine (run_ite_of_neg hd).trans (traps_ite_streamTrap ?_)
    rcases h with h | h | h
    · exact absurd h hd
    · rw [show ((w && isBoundV s d) || (findQueue (curCore s) w (d.toNat - 16)).isSome
        || binding (curCore s) w (d.toNat - 16)) = true from h]
      rfl
    · rw [Bool.or_eq_true, decide_eq_true_eq]
      exact .inr (h.trans (Nat.le_add_right _ _))

/-! ### UNBIND (R43, R363) -/

section
variable {t : Stream} (hfind : findStream s s.cur.core s.cur.slot d.toNat = some (s.cur.slot, t))
include hfind

theorem execUnbind_of_own (hdone : t.isWrite = true → pushesLeft s s.cur.core s.cur.slot d.toNat = false) :
    execUnbind true d s = .next (if d.toNat < 16 then
        endFall 1 (dropPackets s.cur.core s.cur.slot (· == d.toNat) (setCurSlot s
          { curSlot s with streams := (curSlot s).streams.filter (·.reg != d.toNat) }))
      else endFall 1 (addWb (wbPoint s 1) (.unbind true (d.toNat - 16)) s)) := by
  have hpushes : ¬ (t.isWrite && pushesLeft s s.cur.core s.cur.slot d.toNat) = true := by
    intro h
    obtain ⟨hw, hl⟩ := Bool.and_eq_true_iff.1 h
    exact Bool.false_ne_true ((hdone hw).symm.trans hl)
  refine run_of_ends ?_
  rw [ends_bind (notGarnet_of_lt hcore), run_get_bind]
  simp only [hfind, if_true]
  refine (run_ite_of_neg (by simp)).trans ((run_ite_of_neg hpushes).trans ?_)
  split <;> rfl

theorem execUnbind_of_pushes (hw : t.isWrite = true) (hleft : pushesLeft s s.cur.core s.cur.slot d.toNat = true) :
    execUnbind true d s = .next (takeWait { reason := .stream, peer := d.toNat, key := d.toNat + 1 } .none s) := by
  refine run_of_waits (waits_bind_iff.2 (.inr ⟨_, _, notGarnet_of_lt hcore, ?_⟩))
  simp only [Waits, run_get_bind, hfind, if_true]
  refine (run_ite_of_neg (by simp)).trans ((run_ite_of_pos (by simp [hw, hleft])).trans rfl)

end

theorem execUnbind_of_other {t : Stream} {k : Nat} (hfind : findStream s s.cur.core s.cur.slot d.toNat = some (k, t))
    (hk : k ≠ s.cur.slot) : execUnbind true d s = .next (streamTrapped s d) := by
  refine run_of_traps (traps_bind_iff.2 (.inr ⟨_, _, notGarnet_of_lt hcore, ?_⟩))
  simp only [Traps, run_get_bind, hfind, if_true]
  exact traps_ite_streamTrap hk

section
variable {v : Bool} (hnone : v = true → findStream s s.cur.core s.cur.slot d.toNat = none)
include hnone

theorem execUnbind_of_queue (hd : 16 ≤ d.toNat) (hqueue : (findQueue (curCore s) v (d.toNat - 16)).isSome = true) :
    execUnbind v d s = .next (endFall 1 (addWb (wbPoint s 1) (.unbind v (d.toNat - 16)) s)) := by
  have hstream : (if v then findStream s s.cur.core s.cur.slot d.toNat else none) = none := by
    split
    next h => exact hnone h
    next => rfl
  refine run_of_ends ?_
  rw [ends_bind (notGarnet_of_lt hcore), run_get_bind]
  simp only [hstream]
  exact (run_ite_of_neg (by simp [Option.isSome_iff_ne_none.1 hqueue, hd])).trans rfl

theorem execUnbind_of_no_queue (h : d.toNat < 16 ∨ findQueue (curCore s) v (d.toNat - 16) = none) :
    execUnbind v d s = .next (streamTrapped s d) := by
  have hstream : (if v then findStream s s.cur.core s.cur.slot d.toNat else none) = none := by
    split
    next h => exact hnone h
    next => rfl
  refine run_of_traps (traps_bind_iff.2 (.inr ⟨_, _, notGarnet_of_lt hcore, ?_⟩))
  simp only [Traps, run_get_bind, hstream]
  exact traps_ite_streamTrap (by rcases h with h | h <;> simp [h])

end

end

/-- Settles O39: each instruction makes its checks in order on the state at issue, and only then leaves its writeback. -/
theorem bindingResults : Obligations.BindingResults := by
  intro s d e hcore
  refine ⟨⟨execSbind_of_free hcore, execSbind_of_refused hcore⟩,
    fun w => ⟨execQbind_of_free hcore, execQbind_of_refused hcore⟩, fun t hfind hdone => ⟨fun hd => ?_, fun hd => ?_⟩,
    fun t => execUnbind_of_pushes hcore, fun k t => execUnbind_of_other hcore,
    fun v hnone => ⟨execUnbind_of_queue hcore hnone, execUnbind_of_no_queue hcore hnone⟩⟩
  · exact (execUnbind_of_own hcore hfind hdone).trans (by rw [if_pos hd])
  · exact (execUnbind_of_own hcore hfind hdone).trans (by rw [if_neg (by omega)])

end Sys2Proof.Machine
end

section
/-! SUPPORT. State registers, SYSC, UINT and NOTIFY (R39, R253, R255, R256, R335, R341, R357, R362, R376); O52. -/

namespace Sys2Proof.Machine

/-- The state in which the instruction has trapped ILLEGAL (R56). -/
def illegalTrapped (s : State) : State := takeTrap ⟨.illegal, 0, illegalAux s, 0⟩ s

theorem traps_illegal {α : Type} (s : State) : Traps (illegal : Exec α) s ⟨.illegal, 0, illegalAux s, 0⟩ s := rfl

/-- A check that fails traps before what follows. -/
theorem traps_ite_illegal {α β : Type} {c : Prop} [Decidable c] {s : State} {f : α → Exec β} {m : Exec β} (h : c) :
    Traps (if c then illegal >>= f else m) s ⟨.illegal, 0, illegalAux s, 0⟩ s := by
  rw [if_pos h]
  exact traps_bind_iff.2 (.inl (traps_illegal s))

theorem ends_firm_of_frontier {s : State} (h : mayBeFirm s (curSlot s).task = true) : Ends firm s () s := by
  simp only [Ends, firm, run_get_bind, h, if_true]
  rfl

theorem ends_emptyBuffer_of_nil {s : State} (h : (curSlot s).stores = []) : Ends emptyBuffer s () s := by
  simp only [Ends, emptyBuffer, run_get_bind, h]
  rfl

/-! ### RDS (R341) -/

/-- The table's indices are the 19 of R39, whatever the state. -/
theorem stateReg_isNone (s : State) (n : Nat) : (stateReg s n).isNone = decide (0x12 < n) := by
  unfold stateReg
  split <;> simp_all
  omega

theorem stateReg_counter (s : State) {k : Nat} (hk : k < 3) : stateReg s (0x10 + k) = (curSlot s).lc[k]? := by
  match k, hk with
  | 0, _ => rfl
  | 1, _ => rfl
  | 2, _ => rfl

/-- Whether RDS may not read the register: no index of the table, or TRAPREC outside the keeper. -/
def rdsRefused (s : State) (idx : BitVec 8) : Bool :=
  (stateReg s idx.toNat).isNone || (idx == 0x0E && !isKeeper s.cur.core s.cur.slot)

theorem rdsRefused_iff (s : State) (idx : BitVec 8) :
    rdsRefused s idx = true ↔ 0x12 < idx.toNat ∨ (idx.toNat = 0x0E ∧ isKeeper s.cur.core s.cur.slot = false) := by
  have hidx : idx = 14#8 ↔ idx.toNat = 14 := BitVec.toNat_inj.symm
  simp [rdsRefused, stateReg_isNone, hidx]

theorem execRds_of_refused {s : State} {d : Reg} {idx : BitVec 8} (h : rdsRefused s idx = true) :
    execRds d idx s = .next (illegalTrapped s) := by
  refine run_of_traps ?_
  rw [run_get_bind]
  exact traps_ite_illegal h

theorem execRds_of_takes {s s1 : State} {d : Reg} {idx : BitVec 8} {r : Word} (h : rdsRefused s idx = false)
    (ht : Takes [] (some d) s s1) (hr : stateReg s1 idx.toNat = some r) : execRds d idx s = .next (writesG 1 d r s1) := by
  refine run_of_ends ?_
  rw [run_get_bind]
  refine (run_ite_of_neg (ne_true_of_eq_false h)).trans ?_
  rw [ends_bind ht]
  refine (ends_modify ..).2 ?_
  rw [hr]
  rfl

/-! ### WRS (R376) -/

/-- The indices that WRS refuses: the read-only registers, and those outside the table. -/
def notWritable (n : Nat) : Bool := n < 5 || n == 7 || n == 14 || 0x12 < n

/-- What WRS does with the value v of its operand; c is the issuing core. -/
def writeState (n : Nat) (v : Word) (c : Core) : Exec Unit :=
  match n with
  | 0x05 => if frmOk v then putState (fun x => { x with frm := v }) else illegal
  | 0x06 => if fflagsOk v then putState (fun x => { x with fflags := v }) else illegal
  | 0x08 => putState (fun x => { x with wdog := v })
  | 0x09 => writeDeque v v c.dqlim .dqbase
  | 0x0A => writeDeque v c.dqbase v .dqlim
  | 0x0B => if offsetOk v then putState (fun x => { x with uih := v }) else illegal
  | 0x0C => if offsetOk v then putState (fun x => { x with uiret := v }) else illegal
  | 0x0D => do
    if 2 ^ 40 ≤ v.toNat then illegal
    modify (fun s => endFall 1 (addWb (wbPoint s 1) (.win v) s))
  | 0x0F => putState (fun x => { x with uiex := v })
  | _ => putState (fun x => { x with lc := x.lc.setIfInBounds (n - 0x10) v })

/-- WRS checks its index, takes its operand, and writes the register. -/
theorem execWrs_eq (idx : BitVec 8) (a : Reg) : execWrs idx a = run (do
    if notWritable idx.toNat then illegal
    useG [a] none
    let s ← get
    writeState idx.toNat (gval s a) (curCore s)) := rfl

theorem execWrs_of_index {s : State} {idx : BitVec 8} {a : Reg} (h : notWritable idx.toNat = true) :
    execWrs idx a s = .next (illegalTrapped s) := by
  rw [execWrs_eq]
  exact run_of_traps (traps_ite_illegal h)

section
variable {s s1 : State} {idx : BitVec 8} {a : Reg} {n : Nat} (hn : idx.toNat = n) (hidx : notWritable n = false) (ht : Takes [a] none s s1)
include hn hidx ht

theorem execWrs_of_ends {t : State} (h : Ends (writeState n (gval s1 a) (curCore s1)) s1 () t) : execWrs idx a s = .next t := by
  subst hn
  rw [execWrs_eq]
  refine run_of_ends ((run_ite_of_neg (ne_true_of_eq_false hidx)).trans ?_)
  rw [ends_bind ht, run_get_bind]
  exact h

theorem execWrs_of_illegal
    (h : Traps (writeState n (gval s1 a) (curCore s1)) s1 ⟨.illegal, 0, illegalAux s1, 0⟩ s1) :
    execWrs idx a s = .next (illegalTrapped s1) := by
  subst hn
  rw [execWrs_eq]
  refine run_of_traps ((run_ite_of_neg (ne_true_of_eq_false hidx)).trans ?_)
  rw [ends_bind ht, run_get_bind]
  exact h

end

theorem ends_putState (f : Slot → Slot) (s : State) : Ends (putState f) s () (endFall 1 (setCurSlot s (f (curSlot s)))) :=
  (ends_modify ..).2 rfl

/-- A register of the thread that holds legal values only (R376). -/
theorem ends_putState_of_legal {c : Prop} [Decidable c] (h : c) (f : Slot → Slot) (s : State) :
    Ends (if c then putState f else illegal) s () (endFall 1 (setCurSlot s (f (curSlot s)))) := by
  rw [if_pos h]
  exact ends_putState f s

theorem traps_of_not_legal {c : Prop} [Decidable c] (h : ¬ c) (m : Exec Unit) (s : State) :
    Traps (if c then m else illegal) s ⟨.illegal, 0, illegalAux s, 0⟩ s := by
  rw [if_neg h]
  exact traps_illegal s

theorem offsetOk_iff (v : Word) : offsetOk v = true ↔ v.getLsbD 0 = false ∧ v.toNat < 2 ^ 48 := by
  simp [offsetOk, BitVec.getLsbD, Nat.testBit_zero]

/-- The empty deque has nothing to move, and its limits change (R143). -/
theorem ends_writeDeque_of_empty {v base lim : Word} {act : Word → WbAct} {s : State} (hempty : (curCore s).deque = [])
    (hv : v.toNat % 64 = 0) (hlt : v.toNat < 2 ^ 18) (hle : base ≤ lim) (hlim : lim.toNat ≤ 0x3C000) :
    Ends (writeDeque v base lim act) s ()
      (endFall 1 (addWb (wbPoint s 1) (act v) (setCore s s.cur.core { curCore s with dequeNext := 0 }))) := by
  have hchecks : ¬ (decide (v.toNat % 64 ≠ 0) || decide (2 ^ 18 ≤ v.toNat) || decide (lim < base) || decide (0x3C000 < lim.toNat)) = true := by
    simp only [Bool.or_eq_true, decide_eq_true_eq, not_or, not_not, not_le, not_lt]
    exact ⟨⟨⟨hv, hlt⟩, BitVec.not_lt.2 hle⟩, hlim⟩
  have hmoved : emptyDeque s.cur.core (coreOf s s.cur.core).deque.length s = (true, s) := by
    rw [show (coreOf s s.cur.core).deque = [] from hempty]
    simp [emptyDeque, show (coreOf s s.cur.core).deque = [] from hempty]
  refine (run_ite_of_neg hchecks).trans ?_
  rw [run_get_bind]
  simp only [hmoved]
  rfl

theorem traps_writeDeque {v base lim : Word} {act : Word → WbAct} {s : State} (h : v.toNat % 64 ≠ 0 ∨ 2 ^ 18 ≤ v.toNat) :
    Traps (writeDeque v base lim act) s ⟨.illegal, 0, illegalAux s, 0⟩ s := by
  refine traps_ite_illegal ?_
  simp only [Bool.or_eq_true, decide_eq_true_eq]
  exact .inl (.inl h)

/-! ### SYSC (R253, R357) -/

section
variable {s s1 : State} {d : Reg} {e : EReg} (ht : Takes [] (some d) s s1)
include ht

theorem execSysc_of_bad_desc (hdesc : bits (eval s1 e.toNat) 36 28 ≠ 0) : execSysc d e s = .next (illegalTrapped s1) := by
  refine run_of_traps ?_
  rw [ends_bind ht, run_get_bind]
  exact traps_ite_illegal hdesc

theorem execSysc_of_args {s2 : State} {args : List Word} (hdesc : bits (eval s1 e.toNat) 36 28 = 0)
    (hargs : Ends (syscArgs (eval s1 e.toNat) (List.range 6)) s1 args s2) (hfirm : mayBeFirm s2 (curSlot s2).task = true)
    (hstores : (curSlot s2).stores = []) :
    let n := fresh s2 (tokensOf s2)
    execSysc d e s = .next (takeWait { reason := .sysc, sent := true, peer := n.1 } (.sysc d n.1 none)
      (addService n.2 (estateOf s2 (curEstate s2)).part
        (.call (curEstate s2) n.1 s1.cur.core s1.cur.slot (bits (eval s1 e.toNat) 0 12) args))) := by
  refine run_of_waits ?_
  rw [ends_bind ht, run_get_bind]
  refine (run_ite_of_neg (not_not_intro hdesc)).trans ?_
  rw [ends_bind hargs, ends_bind (ends_firm_of_frontier hfirm), ends_bind (ends_emptyBuffer_of_nil hstores), run_get_bind]
  rfl

end

/-! ### UINT and NOTIFY (R255, R256, R335, R362) -/

section
variable {s s1 : State} {a b : Reg} (ht : Takes [a, b] none s s1)
include ht

theorem execUint_of_large (h : 16384 ≤ (gval s1 a).toNat) : execUint a b s = .next (illegalTrapped s1) := by
  refine run_of_traps ?_
  rw [ends_bind ht, run_get_bind]
  exact traps_ite_illegal h

theorem execUint_of_thread (h : (gval s1 a).toNat < 16384) (hfirm : mayBeFirm s1 (curSlot s1).task = true) :
    execUint a b s = .next (endFall 1 (addWb (wbPoint s1 1) (.uint (gval s1 a).toNat (gval s1 b)) s1)) := by
  refine run_of_ends ?_
  rw [ends_bind ht, run_get_bind]
  refine (run_ite_of_neg h.not_ge).trans ?_
  rw [ends_bind (ends_firm_of_frontier hfirm), run_get_bind]
  rfl

theorem execNotify_of_large (h : 64 ≤ (gval s1 a).toNat) : execNotify a b s = .next (illegalTrapped s1) := by
  refine run_of_traps ?_
  rw [ends_bind ht, run_get_bind]
  exact traps_ite_illegal h

theorem execNotify_of_vector (h : (gval s1 a).toNat < 64) (hfirm : mayBeFirm s1 (curSlot s1).task = true)
    (hstores : (curSlot s1).stores = []) :
    execNotify a b s = .next (endFall 1 (sendMsi s1 (estateOf s1 (curEstate s1)).part (gval s1 a).toNat (gval s1 b))) := by
  refine run_of_ends ?_
  rw [ends_bind ht, run_get_bind]
  refine (run_ite_of_neg h.not_ge).trans ?_
  rw [ends_bind (ends_firm_of_frontier hfirm), ends_bind (ends_emptyBuffer_of_nil hstores), run_get_bind]
  rfl

end

theorem applyThread_uint {w : Wb} {thread : Nat} {v : Word} (h : w.act = .uint thread v) (u : State) (core : Nat) :
    applyThread core u w = postUint u (slotOf u core w.slot).estate thread v := by
  simp only [applyThread, h]

theorem partOf_sendMsi_of_ne (s : State) {p q : Nat} (vector : Nat) (v : Word) (h : q ≠ p) :
    partOf (sendMsi s p vector v) q = partOf s q := by
  simp [sendMsi, setPart, partOf, mapFind_mapSet_of_ne _ _ h]

theorem mailbox_sendMsi (s : State) (p vector : Nat) {v : Word} (hv : v ≠ 0) :
    mapFind (partOf (sendMsi s p vector v) p).mailbox vector = some v := by
  simp only [sendMsi, partOf_setPart_self, hv, if_false]
  split
  · exact mapFind_mapSet_self ..
  · split <;> exact mapFind_mapSet_self ..

section
variable {s : State} {p vector : Nat} (hmsix : (partOf s p).msix = true) (v : Word)
include hmsix

theorem msiSent_sendMsi_of_unmasked (h : vector ∉ (partOf s p).masked) :
    (partOf (sendMsi s p vector v) p).msiSent = vector :: (partOf s p).msiSent := by
  simp [sendMsi, hmsix, h]

theorem msiPending_sendMsi_of_masked (h : vector ∈ (partOf s p).masked) :
    vector ∈ (partOf (sendMsi s p vector v) p).msiPending ∧ (partOf (sendMsi s p vector v) p).msiSent = (partOf s p).msiSent := by
  simp [sendMsi, hmsix, h]

end

theorem stateRegister_values (s : State) :
    let x := curSlot s
    let c := curCore s
    stateReg s 0x03 = some (BitVec.ofNat 64 s.cycle) ∧ stateReg s 0x01 = some (BitVec.ofNat 64 x.estate) ∧
      stateReg s 0x02 = some (BitVec.ofNat 64 (estateOf s x.estate).part) ∧ stateReg s 0x05 = some x.frm ∧
      stateReg s 0x06 = some x.fflags ∧ stateReg s 0x08 = some x.wdog ∧ stateReg s 0x09 = some c.dqbase ∧
      stateReg s 0x0A = some c.dqlim ∧ stateReg s 0x0B = some x.uih ∧ stateReg s 0x0C = some x.uiret ∧
      stateReg s 0x0D = some c.win ∧ stateReg s 0x0F = some x.uiex ∧ (∀ k, k < 3 → stateReg s (0x10 + k) = x.lc[k]?) :=
  ⟨rfl, rfl, rfl, rfl, rfl, rfl, rfl, rfl, rfl, rfl, rfl, rfl, fun _ => stateReg_counter s⟩

/-- What WRS does with its operand, register by register (R376). -/
theorem execWrs_results {s s1 : State} {idx : BitVec 8} {a : Reg} (ht : Takes [a] none s s1) :
    let n := idx.toNat
    let x := curSlot s1
    let c := curCore s1
    let v := gval s1 a
    (n = 0x05 → frmOk v = true → execWrs idx a s = .next (endFall 1 (setCurSlot s1 { x with frm := v }))) ∧
      (n = 0x06 → fflagsOk v = true → execWrs idx a s = .next (endFall 1 (setCurSlot s1 { x with fflags := v }))) ∧
      (n = 0x08 → execWrs idx a s = .next (endFall 1 (setCurSlot s1 { x with wdog := v }))) ∧
      (n = 0x0B → v.getLsbD 0 = false → v.toNat < 2 ^ 48 → execWrs idx a s = .next (endFall 1 (setCurSlot s1 { x with uih := v }))) ∧
      (n = 0x0C → v.getLsbD 0 = false → v.toNat < 2 ^ 48 → execWrs idx a s = .next (endFall 1 (setCurSlot s1 { x with uiret := v }))) ∧
      (n = 0x0F → execWrs idx a s = .next (endFall 1 (setCurSlot s1 { x with uiex := v }))) ∧
      (∀ k, k < 3 → n = 0x10 + k → execWrs idx a s = .next (endFall 1 (setCurSlot s1 { x with lc := x.lc.setIfInBounds k v }))) ∧
      (n = 0x0D → v.toNat < 2 ^ 40 → execWrs idx a s = .next (endFall 1 (addWb (wbPoint s1 1) (.win v) s1))) ∧
      (c.deque = [] → v.toNat % 64 = 0 → v.toNat < 2 ^ 18 →
        (n = 0x09 → v ≤ c.dqlim → c.dqlim.toNat ≤ 0x3C000 → execWrs idx a s =
          .next (endFall 1 (addWb (wbPoint s1 1) (.dqbase v) (setCore s1 s1.cur.core { c with dequeNext := 0 })))) ∧
        (n = 0x0A → c.dqbase ≤ v → v.toNat ≤ 0x3C000 → execWrs idx a s =
          .next (endFall 1 (addWb (wbPoint s1 1) (.dqlim v) (setCore s1 s1.cur.core { c with dequeNext := 0 }))))) := by
  refine ⟨fun hn h => ?_, fun hn h => ?_, fun hn => ?_, fun hn h0 h48 => ?_, fun hn h0 h48 => ?_, fun hn => ?_, fun k hk hn => ?_,
    fun hn h => ?_, fun hempty hmod hlt => ⟨fun hn hle hlim => ?_, fun hn hle hlim => ?_⟩⟩
  · exact execWrs_of_ends hn rfl ht (ends_putState_of_legal h (fun x => { x with frm := gval s1 a }) s1)
  · exact execWrs_of_ends hn rfl ht (ends_putState_of_legal h (fun x => { x with fflags := gval s1 a }) s1)
  · exact execWrs_of_ends hn rfl ht (ends_putState (fun x => { x with wdog := gval s1 a }) s1)
  · exact execWrs_of_ends hn rfl ht (ends_putState_of_legal ((offsetOk_iff _).2 ⟨h0, h48⟩) (fun x => { x with uih := gval s1 a }) s1)
  · exact execWrs_of_ends hn rfl ht (ends_putState_of_legal ((offsetOk_iff _).2 ⟨h0, h48⟩) (fun x => { x with uiret := gval s1 a }) s1)
  · exact execWrs_of_ends hn rfl ht (ends_putState (fun x => { x with uiex := gval s1 a }) s1)
  · match k, hk with
    | 0, _ | 1, _ | 2, _ => exact execWrs_of_ends hn rfl ht (ends_putState (fun x => { x with lc := x.lc.setIfInBounds _ (gval s1 a) }) s1)
  · exact execWrs_of_ends hn rfl ht ((run_ite_of_neg h.not_ge).trans rfl)
  · exact execWrs_of_ends hn rfl ht (ends_writeDeque_of_empty hempty hmod hlt hle hlim)
  · exact execWrs_of_ends hn rfl ht (ends_writeDeque_of_empty hempty hmod hlt hle hlim)

/-- The values that WRS refuses (R39, R84, R376). -/
theorem execWrs_of_illegal_value {s s1 : State} {idx : BitVec 8} {a : Reg} (ht : Takes [a] none s s1)
    (h : let n := idx.toNat
      let v := gval s1 a
      (n = 0x05 ∧ frmOk v = false) ∨ (n = 0x06 ∧ fflagsOk v = false) ∨ ((n = 0x0B ∨ n = 0x0C) ∧ (v.getLsbD 0 = true ∨ 2 ^ 48 ≤ v.toNat)) ∨
        (n = 0x0D ∧ 2 ^ 40 ≤ v.toNat) ∨ ((n = 0x09 ∨ n = 0x0A) ∧ (v.toNat % 64 ≠ 0 ∨ 2 ^ 18 ≤ v.toNat))) :
    execWrs idx a s = .next (illegalTrapped s1) := by
  rcases h with ⟨hn, h⟩ | ⟨hn, h⟩ | ⟨hn, h⟩ | ⟨hn, h⟩ | ⟨hn, h⟩
  · exact execWrs_of_illegal hn rfl ht (traps_of_not_legal (ne_true_of_eq_false h) _ s1)
  · exact execWrs_of_illegal hn rfl ht (traps_of_not_legal (ne_true_of_eq_false h) _ s1)
  · have hbad : ¬ offsetOk (gval s1 a) = true := by
      rw [offsetOk_iff, not_and_or, Bool.not_eq_false, not_lt]
      exact h
    rcases hn with hn | hn <;> exact execWrs_of_illegal hn rfl ht (traps_of_not_legal hbad _ s1)
  · exact execWrs_of_illegal hn rfl ht (traps_ite_illegal h)
  · rcases hn with hn | hn <;> exact execWrs_of_illegal hn rfl ht (traps_writeDeque h)

/-- Settles O52: the checks come before the operand is taken, those of the value after it, and each write is one shared shape. -/
theorem stateAndServiceResults : Obligations.StateAndServiceResults := by
  refine ⟨fun s s1 d a idx => ⟨fun ht hkeeper r hr => ?_, stateRegister_values s1, fun h => ?_, fun h => ?_, fun ht => ?_, fun code => rfl⟩,
    fun s s1 s2 d a b e args => ⟨fun ht hdesc hargs hfirm hstores => execSysc_of_args ht hdesc hargs hfirm hstores,
      execSysc_of_bad_desc, fun ht => ⟨execUint_of_large ht, execNotify_of_large ht,
        fun hfirm => ⟨fun h => execUint_of_thread ht h hfirm, fun u core w thread v h => applyThread_uint h u core,
          fun h hstores => ⟨_, execNotify_of_vector ht h hfirm hstores, rfl, fun hv => mailbox_sendMsi s1 _ _ hv, fun hmsix =>
            msiSent_sendMsi_of_unmasked hmsix _, fun hmsix => msiPending_sendMsi_of_masked hmsix _, fun q => partOf_sendMsi_of_ne s1 _ _⟩⟩⟩⟩⟩
  · refine execRds_of_takes (Bool.eq_false_iff.2 fun h => ?_) ht hr
    rcases (rdsRefused_iff s idx).1 h with hidx | ⟨hidx, hnot⟩
    · have := stateReg_isNone s1 idx.toNat
      simp [hr, hidx] at this
    · rcases hkeeper with hne | hk
      · exact hne hidx
      · exact Bool.false_ne_true (hnot.symm.trans hk)
  · exact execRds_of_refused ((rdsRefused_iff s idx).2 h)
  · refine execWrs_of_index ?_
    rcases h with h | h | h | h <;> simp [notWritable, h]
  · obtain ⟨hfrm, hflags, hwdog, huih, huiret, huiex, hlc, hwin, hdeque⟩ := execWrs_results ht
    exact ⟨hfrm, hflags, hwdog, huih, huiret, huiex, hlc, hwin, hdeque, execWrs_of_illegal_value ht⟩

end Sys2Proof.Machine
end

section
/-! SUPPORT. The reply to a load, and what it leaves (R34, R120); the Jasper chain (R194, R195, R267); O55. -/

namespace Sys2Proof.Machine

/-! ### Pieces at their reply (R120) -/

/-- With no line bound, plain pieces are served where they stand. -/
theorem replyPieces_of_plain {s : State} {ps : List Piece} (x : Access) (bits : Nat) (hreads : s.reads = []) (h : ∀ p ∈ ps, p.plain s) :
    Ends (replyPieces x ps bits) s (piecesAt s ps) s := by
  induction ps with
  | nil => simp [replyPieces, piecesAt]
  | cons p ps ih =>
    have hp := h p List.mem_cons_self
    have hbound : boundLine s x.core x.slot p.home = none := by simp [boundLine, hreads]
    rw [Ends, replyPieces, run_get_bind]
    refine (run_ite_of_neg (ne_true_of_eq_false (hp.absent_eq x))).trans ?_
    simp only [hbound, hp.servePiece_eq x]
    change (replyPieces x ps bits >>= fun rest => pure (bytesAt s p.home p.n + rest <<< (8 * p.n))).run s = _
    rw [ends_bind (ih fun q hq => h q (List.mem_cons_of_mem _ hq)), piecesAt, Nat.shiftLeft_eq]
    rfl

theorem Piece.plain.withCur {s : State} {p : Piece} (h : p.plain s) (i : Issue) : p.plain { s with cur := i } := h

theorem piecesAt_withCur (s : State) (i : Issue) (ps : List Piece) : piecesAt { s with cur := i } ps = piecesAt s ps := by
  induction ps with
  | nil => rfl
  | cons p ps ih =>
    rw [piecesAt, piecesAt, ih]
    cases p.home <;> rfl

/-- The reply of a load of plain pieces: their bytes go on. -/
theorem loadReply_of_plain {s s' : State} {core k : Nat} {ps : List Piece} {f : Nat → Exec Unit} (hreads : s.reads = [])
    (h : ∀ p ∈ ps, p.plain s) (hf : Ends (f (piecesAt s ps)) (barLines (threadId core k) (ps.map (·.home.line)) s) () s') :
    Ends (loadReply core k false ps 0 f) s () s' := by
  rw [Ends, loadReply, run_get_bind, ends_bind (replyPieces_of_plain _ 0 hreads h), run_modify_bind]
  exact hf

/-! ### The end of a reply (R34) -/

@[simp] theorem Slot.fall_g (x : Slot) (len : Nat) : (x.fall len).g = x.g := rfl

/-- A result for a register g1 to g15. -/
theorem deliverG_of_low {d : Reg} (h0 : d ≠ 0) (hlow : d.toNat < 16) (v : Word) (s : State) :
    deliverG d v s = setCurSlot s { (curSlot s).clean false d.toNat with g := (curSlot s).g.setIfInBounds d.toNat v } := by
  rw [deliverG]
  exact (if_neg h0).trans (if_pos hlow)

/-- The slot whose instruction its reply has ended: registers as they were, no wait, nothing pending. -/
theorem slotOf_endReply (s : State) :
    (slotOf (endReply s) s.cur.core s.cur.slot).g = (curSlot s).g ∧ (slotOf (endReply s) s.cur.core s.cur.slot).wait = {} ∧
      (slotOf (endReply s) s.cur.core s.cur.slot).pend = .none := by
  have h : slotOf (endReply s) s.cur.core s.cur.slot = curSlot (endReply s) := rfl
  rw [h, endReply, curSlot_setCurSlot]
  refine ⟨?_, rfl, rfl⟩
  dsimp only
  split <;> rfl

theorem byteAt_endReply (s : State) (h : Home) : byteAt (endReply s) h = byteAt s h := by
  rw [endReply, byteAt_setCurSlot]
  cases h <;> rfl

/-! ### What waits goes on (R34, R195) -/

section
variable {s : State} {core k : Nat} (hrun : clusterOf core ∉ s.halted)
include hrun

theorem resume_of_ends {m : Exec Unit} {t : State} (h : Ends m { s with cur := issueOf s core k } () t) : resume core k m s = t := by
  rw [resume, if_neg (by simpa using hrun), h]

theorem resume_of_traps {m : Exec Unit} {i : TrapInfo} {t : State} (h : Traps m { s with cur := issueOf s core k } i t) :
    resume core k m s = trapNow i t := by
  rw [resume, if_neg (by simpa using hrun), h]

/-- A reply that can come now lets the instruction go on. -/
theorem execAccessReply_of_replyTo {r : Reply} {m : Exec Unit} (hcore : core ≤ 1024) (hlive : (slotOf s core k).live = true)
    (hgave : (slotOf s core k).gaveUp s.cycle = false)
    (hline : (if replyFails r then askedLine s (slotOf s core k).pend else none) = none) (h : replyTo s core k r = some m) :
    execAccessReply core k r s = .next (resume core k m s) := by
  have hgoes : ((slotOf s core k).live && !(slotOf s core k).gaveUp s.cycle) = true := by simp [hlive, hgave]
  rw [execAccessReply, if_neg hcore.not_gt, if_neg (by simpa using hrun), if_pos hgoes, hline]
  simp only [h]
  rfl

end

/-- The home's reply to a load whose pieces are all here, with no read bound before it. -/
theorem replyTo_home_of_load {s : State} {core k : Nat} {acquire : Bool} {ps : List Piece} {d : Reg} {f : Fmt}
    (hpend : (slotOf s core k).pend = .load acquire ps (.g d f)) (hreads : s.reads = []) (h : ∀ p ∈ ps, p.plain s) :
    replyTo s core k .home = some (loadReply core k acquire ps 0 (deliver · (.g d f))) := by
  have hhere : piecesHere s (replyAccess s core k) ps false = true := by
    simpa [piecesHere] using fun p hp => (h p hp).absent_eq _
  have hfirst : notFirst s core k ps = false := by simp [notFirst, hreads]
  simp only [replyTo, hpend, hhere, hfirst]
  rfl

/-- A gate's refusal of a load that waits for another package (R226). -/
theorem replyTo_gate_of_load {s : State} {core k cause pkg : Nat} {acquire : Bool} {ps : List Piece} {dest : Dest}
    (hpend : (slotOf s core k).pend = .load acquire ps dest) (hwait : (slotOf s core k).wait.reason = .remote) :
    replyTo s core k (.gate cause pkg) =
      some (replyTrap (replyAccess s core k) (replyAccess s core k).va false (.gate cause pkg)) := by
  simp only [replyTo, hpend, hwait]
  rfl

/-- A load's reply from a home of this package brings its bytes, and ends the wait. -/
theorem execAccessReply_home_of_load {s : State} {core slot : Nat} {ps : List Piece} {d : Reg} {f : Fmt} (hcore : core ≤ 1024)
    (hrun : clusterOf core ∉ s.halted) (hlive : (slotOf s core slot).live = true) (hgave : (slotOf s core slot).gaveUp s.cycle = false)
    (hpend : (slotOf s core slot).pend = .load false ps (.g d f)) (hreads : s.reads = []) (h : ∀ p ∈ ps, p.plain s) (h0 : d ≠ 0)
    (hlow : d.toNat < 16) :
    ∃ t, execAccessReply core slot .home s = .next t ∧
      (slotOf t core slot).g = (slotOf s core slot).g.setIfInBounds d.toNat (widenG f (piecesAt s ps)) ∧ (slotOf t core slot).wait = {} ∧
      (slotOf t core slot).pend = .none ∧ ∀ h, byteAt t h = byteAt s h := by
  let u := barLines (threadId core slot) (ps.map (·.home.line)) { s with cur := issueOf s core slot }
  let w := deliverG d (widenG f (piecesAt s ps)) u
  have hw : w = setCurSlot u _ := deliverG_of_low h0 hlow _ u
  have hend : Ends (loadReply core slot false ps 0 (deliver · (.g d f))) { s with cur := issueOf s core slot } () (endReply w) := by
    refine loadReply_of_plain hreads (fun p hp => (h p hp).withCur _) ?_
    rw [piecesAt_withCur]
    rfl
  obtain ⟨hg, hwait, hnone⟩ := slotOf_endReply w
  have hcur : w.cur = issueOf s core slot := by rw [hw]; rfl
  rw [hcur] at hg hwait hnone
  refine ⟨_, execAccessReply_of_replyTo hrun hcore hlive hgave rfl (replyTo_home_of_load hpend hreads h), ?_⟩
  rw [resume_of_ends hrun hend]
  refine ⟨hg.trans ?_, hwait, hnone, fun h => ?_⟩
  · rw [hw, curSlot_setCurSlot]
    rfl
  · rw [byteAt_endReply, hw, byteAt_setCurSlot]
    exact (byteAt_withReads ..).trans (byteAt_withCur ..)

/-! ### The watchdog, user interrupts and stream packets (R41, R198, R256) -/

theorem execWatchdog_of_expired {s : State} {core slot : Nat} (h : expired s core slot = true) :
    execWatchdog core slot s =
      let x := slotOf s core slot
      .next (parkSlot { s with
          outstanding := s.outstanding.filter (fun o => o.orphan || o.line.isSome || o.thread != threadId core slot || isMessage s o) }
        core slot { code := .watchdog, aux := BitVec.ofNat 64 (x.wait.reason.toNat + 256 * x.wait.sent.toNat + 65536 * (x.wait.peer % 2 ^ 48)) }
        x.long) :=
  if_pos h

theorem execUintDeliver_of_deliverable {s : State} {core slot : Nat} {v : Word} (hv : (slotOf s core slot).posted = some v)
    (h : deliverable s core slot = true) :
    execUintDeliver core slot s =
      let x := slotOf s core slot
      .next (setSlot s core slot { x with uiret := x.pc, pc := x.uih, uih := 0, uiex := x.e[15], e := x.e.set 15 v, posted := none }) := by
  simp only [execUintDeliver, hv]
  exact if_pos h

theorem execStreamPacketArrival_of_ends {s s1 : State} {core slot : Nat} {reg : Reg} {t : Stream} {p : Packet}
    (hfind : (slotOf s core slot).streams.find? (·.reg == reg.toNat) = some t) (hread : t.isWrite = false) (hmore : nextFetch t < t.count)
    (hlive : (slotOf s core slot).live = true)
    (h : Ends (fetchPacket core slot t (nextFetch t)) { s with cur := { core := core, slot := slot } } p s1) :
    execStreamPacketArrival core reg slot s = .next (setSlot s1 core slot
      (mapStream (slotOf s1 core slot) reg.toNat (fun t => { t with buffer := t.buffer ++ [p.toNat] }))) := by
  have hgoes : ¬ (t.isWrite || t.count ≤ nextFetch t || !(slotOf s core slot).live) = true := by simp [hread, hmore, hlive]
  simp only [execStreamPacketArrival, hfind]
  rw [if_neg hgoes, h]

/-! ### The Jasper chain (R194, R195, R267) -/

@[simp] theorem jasperOf_setJasper_self (s : State) (j : Nat) (x : Jasper) : jasperOf (setJasper s j x) j = x := by
  simp [jasperOf, setJasper]

theorem jasperOf_setJasper_of_ne (s : State) {j j' : Nat} (x : Jasper) (h : j' ≠ j) : jasperOf (setJasper s j x) j' = jasperOf s j' := by
  simp [jasperOf, setJasper, mapFind_mapSet_of_ne _ _ h]

theorem execJasperTrapMessage_of_free {s : State} {core slot : Nat} {m : Nat × TrapRec}
    (hfind : (coreOf s core).toJasper.find? (·.1 == slot) = some m) (hrun : clusterOf core ∉ s.halted)
    (hfree : mapFind (jasperOf s (servingJasper s (clusterOf core))).mailbox (mailPlace core slot) = none) :
    execJasperTrapMessage core slot s =
      .next (jasperTakes (setCore s core { coreOf s core with toJasper := (coreOf s core).toJasper.erase m })
        (servingJasper s (clusterOf core)) ⟨core, slot, m.2⟩) := by
  simp [execJasperTrapMessage, hfind, hrun, hfree]

theorem execJasperForward_of_free {s : State} {core slot : Nat} {j : Nat × Jasper} {m : Nat × Mail}
    (hj : s.jaspers.find? (fun j => j.2.mailbox.any (fun m => m.2.core == core && m.2.slot == slot)) = some j)
    (hm : j.2.mailbox.find? (fun m => m.2.core == core && m.2.slot == slot) = some m)
    (hfree : mapFind (jasperOf (setJasper s j.1 { j.2 with mailbox := mapErase j.2.mailbox m.1 }) (nextJasper s j.1 32)).mailbox m.1 = none) :
    execJasperForward core slot s = .next (jasperTakes (setJasper s j.1 { j.2 with mailbox := mapErase j.2.mailbox m.1 })
      (nextJasper s j.1 32) m.2) := by
  simp [execJasperForward, hj, hm, hfree]

section
variable {s s2 : State} {m : Mail} (j : Nat)

theorem jasperTakes_of_handled (h : jasperHandles s m.core m.slot m.record = (true, s2)) : jasperTakes s j m = s2 := by
  rw [jasperTakes, h]

/-- What Jasper cannot handle stays in the mailbox, one hop older. -/
theorem mailbox_jasperTakes_of_kept (h : jasperHandles s m.core m.slot m.record = (false, s2)) :
    mapFind (jasperOf (jasperTakes s j m) j).mailbox (mailPlace m.core m.slot) =
      some { m with record := { m.record with hops := m.record.hops + 1 } } := by
  rw [jasperTakes, h]
  simp only [jasperOf_setJasper_self, mapFind_mapSet_self]

end

/-- A message that moves into mailbox n leaves every other Jasper as it was. -/
theorem jasperOf_passMail_of_ne (s : State) (m : Nat × Mail) {n j : Nat} (h : j ≠ n) : jasperOf (passMail n s m) j = jasperOf s j := by
  rw [passMail]
  split
  · rfl
  · exact jasperOf_setJasper_of_ne s _ h

/-- Its place in mailbox n is taken from then on. -/
theorem mailbox_passMail_self (n : Nat) (s : State) (m : Nat × Mail) :
    (mapFind (jasperOf (passMail n s m) n).mailbox m.1).isSome = true := by
  rw [passMail]
  split
  next h => exact h
  next => simp

/-- A place that is taken stays taken. -/
theorem mailbox_passMail_of_isSome {n k : Nat} {s : State} (m : Nat × Mail) (h : (mapFind (jasperOf s n).mailbox k).isSome = true) :
    (mapFind (jasperOf (passMail n s m) n).mailbox k).isSome = true := by
  rw [passMail]
  split
  · exact h
  · by_cases hk : k = m.1
    · simp [hk]
    · simpa [mapFind_mapSet_of_ne _ _ hk] using h

theorem jasperOf_foldl_passMail_of_ne {n j : Nat} (h : j ≠ n) (ms : List (Nat × Mail)) (s : State) :
    jasperOf (ms.foldl (passMail n) s) j = jasperOf s j := by
  induction ms generalizing s with
  | nil => rfl
  | cons m ms ih => exact (ih _).trans (jasperOf_passMail_of_ne s m h)

theorem mailbox_foldl_passMail_of_isSome {n k : Nat} (ms : List (Nat × Mail)) {s : State}
    (h : (mapFind (jasperOf s n).mailbox k).isSome = true) :
    (mapFind (jasperOf (ms.foldl (passMail n) s) n).mailbox k).isSome = true := by
  induction ms generalizing s with
  | nil => exact h
  | cons m ms ih => exact ih (mailbox_passMail_of_isSome m h)

/-- Every place of the mailbox that is passed on is taken in the next. -/
theorem mailbox_foldl_passMail_of_mem {n : Nat} {ms : List (Nat × Mail)} {m : Nat × Mail} (h : m ∈ ms) (s : State) :
    (mapFind (jasperOf (ms.foldl (passMail n) s) n).mailbox m.1).isSome = true := by
  induction ms generalizing s with
  | nil => exact absurd h List.not_mem_nil
  | cons p ms ih =>
    rcases List.mem_cons.1 h with rfl | h
    · exact mailbox_foldl_passMail_of_isSome ms (mailbox_passMail_self n s m)
    · exact ih h _

/-- Settles O55: one clause for each event, by what its operation does in the case at hand. -/
theorem threadEvents : Obligations.ThreadEvents := by
  intro s core slot
  refine ⟨fun ps d f hlive hpend hgave hreads hcore hrun h h0 hlow => ?load, fun ps dest cause pkg hlive hpend hgave hwait hline hcore hrun => ?gate,
    fun hlive hcounted hlimit hcount hrun => ?watchdog, ?uint, fun reg t p s1 hfind hread hmore hlive hfetch =>
      execStreamPacketArrival_of_ends hfind hread hmore hlive hfetch, fun m => execJasperTrapMessage_of_free, fun j m => execJasperForward_of_free,
    fun j m => ⟨fun s2 => jasperTakes_of_handled j, fun s2 => mailbox_jasperTakes_of_kept j⟩, fun cluster hnext => ?failover⟩
  case load => exact execAccessReply_home_of_load hcore hrun hlive hgave hpend hreads h h0 hlow
  case gate =>
    have htrap : Traps (replyTrap (replyAccess s core slot) (replyAccess s core slot).va false (.gate cause pkg))
        { s with cur := issueOf s core slot } ⟨.gate, (replyAccess s core slot).va, fabricAux cause false pkg, (slotOf s core slot).accSg⟩
        { s with cur := issueOf s core slot } := rfl
    refine (execAccessReply_of_replyTo (r := .gate cause pkg) hrun hcore hlive hgave hline (replyTo_gate_of_load hpend hwait)).trans ?_
    rw [resume_of_traps hrun htrap]
  case watchdog =>
    refine execWatchdog_of_expired ?_
    simp only [expired, hlive, hcounted, bne_iff_ne.2 hlimit, hcount, hrun, List.contains_eq_mem, decide_true, decide_false,
      Bool.not_false, Bool.and_self]
  case uint =>
    intro v hv hlive hwait hpend hbar hpast huih hloops hrows hready hrun
    refine execUintDeliver_of_deliverable hv ?_
    have hdone : (slotOf s core slot).rows.all (fun r => r.done == 0 && !r.lost) = true := by
      rw [Option.all_eq_true]
      intro r hr
      simp [hrows r hr]
    simp only [deliverable, hv, hlive, hwait, hpend, hbar, hpast, bne_iff_ne.2 huih, hloops, hready, hrun, hdone, Option.isSome_some,
      List.isEmpty_nil, List.contains_eq_mem, beq_self_eq_true, decide_true, decide_false, Bool.not_false, Bool.and_self]
  case failover =>
    refine ⟨_, rfl, ?_, ?_, fun m hm => mailbox_foldl_passMail_of_mem hm _⟩
    · rw [jasperOf_foldl_passMail_of_ne hnext.symm, jasperOf_setJasper_self]
    · rw [jasperOf_foldl_passMail_of_ne hnext.symm, jasperOf_setJasper_self]

end Sys2Proof.Machine
end

section
/-! SUPPORT. The fields of the layouts and how far their words reach (R54, R57, R75). -/

namespace Sys2Proof

/-- The n bits of w from p up are those of x. -/
theorem fld_eq_ofNat {n p w x : Nat} (h : w / p % 2 ^ n = x % 2 ^ n) : fld n p w = .ofNat n x :=
  BitVec.eq_of_toNat_eq (by simpa only [fld, BitVec.toNat_ofNat] using h)

section
variable {major kind d a b e fn f5 q imm sh cc off level ci endoff cnt sg fmt disp op ar scope ty rm
  source target scaled z sop m : Nat}

theorem wRR_fields (hM : major < 64) (hd : d < 32) (ha : a < 32) (hb : b < 32) (hfn : fn < 64) (hq : q < 16) :
    let w := wRR major d a b fn q
    w / 2 % 64 = major ∧ fld 5 128 w = .ofNat 5 d ∧ fld 5 4096 w = .ofNat 5 a ∧ fld 5 131072 w = .ofNat 5 b ∧
      w / 4194304 % 64 = fn ∧ w / 268435456 % 16 = q ∧ fld 3 268435456 w = .ofNat 3 q := by
  simp only [wRR]
  refine ⟨?_, fld_eq_ofNat ?_, fld_eq_ofNat ?_, fld_eq_ofNat ?_, ?_, ?_, fld_eq_ofNat ?_⟩ <;> omega

theorem wRI_fields (hM : major < 64) (hd : d < 32) (ha : a < 32) :
    let w := wRI major d a imm
    w / 2 % 64 = major ∧ fld 5 128 w = .ofNat 5 d ∧ fld 5 4096 w = .ofNat 5 a ∧ fld 15 131072 w = .ofNat 15 imm := by
  simp only [wRI]
  refine ⟨?_, fld_eq_ofNat ?_, fld_eq_ofNat ?_, fld_eq_ofNat ?_⟩ <;> omega

theorem wSHI_fields (hd : d < 32) (ha : a < 32) (hsh : sh < 64) (hk : kind < 4) :
    let w := wSHI kind d a sh
    w / 2 % 64 = 6 ∧ fld 5 128 w = .ofNat 5 d ∧ fld 5 4096 w = .ofNat 5 a ∧ fld 6 131072 w = .ofNat 6 sh ∧
      w / 8388608 % 4 = kind := by
  simp only [wSHI]
  refine ⟨?_, fld_eq_ofNat ?_, fld_eq_ofNat ?_, fld_eq_ofNat ?_, ?_⟩ <;> omega

theorem wUI_fields (hM : major < 64) (hd : d < 32) :
    let w := wUI major d imm
    w / 2 % 64 = major ∧ fld 5 128 w = .ofNat 5 d ∧ fld 20 4096 w = .ofNat 20 imm := by
  simp only [wUI]
  refine ⟨?_, fld_eq_ofNat ?_, fld_eq_ofNat ?_⟩ <;> omega

theorem wBC_fields (ha : a < 32) (hb : b < 32) (hcc : cc < 8) :
    let w := wBC a b cc off
    w / 2 % 64 = 9 ∧ fld 5 128 w = .ofNat 5 a ∧ fld 5 4096 w = .ofNat 5 b ∧ w / 131072 % 8 = cc ∧
      fld 12 1048576 w = .ofNat 12 off := by
  simp only [wBC]
  refine ⟨?_, fld_eq_ofNat ?_, fld_eq_ofNat ?_, ?_, fld_eq_ofNat ?_⟩ <;> omega

theorem wLP_fields (ha : a < 32) (hl : level < 4) (hci : ci < 2) (hend : endoff < 512) :
    let w := wLP a level ci endoff cnt
    w / 2 % 64 = 13 ∧ fld 5 128 w = .ofNat 5 a ∧ fld 2 4096 w = .ofNat 2 level ∧ w / 16384 % 2 = ci ∧
      fld 9 32768 w = .ofNat 9 endoff ∧ fld 8 16777216 w = .ofNat 8 cnt := by
  simp only [wLP]
  refine ⟨?_, fld_eq_ofNat ?_, fld_eq_ofNat ?_, ?_, fld_eq_ofNat ?_, fld_eq_ofNat ?_⟩ <;> omega

theorem wMM_fields (hM : major < 64) (hd : d < 32) (ha : a < 32) (hsg : sg < 8) (hf : fmt < 16) :
    let w := wMM major d a sg fmt disp
    w / 2 % 64 = major ∧ fld 5 128 w = .ofNat 5 d ∧ fld 4 128 w = .ofNat 4 d ∧ fld 5 4096 w = .ofNat 5 a ∧
      fld 3 131072 w = .ofNat 3 sg ∧ w / 1048576 % 16 = fmt ∧ fld 4 1048576 w = .ofNat 4 fmt ∧ fld 8 16777216 w = .ofNat 8 disp := by
  simp only [wMM]
  refine ⟨?_, fld_eq_ofNat ?_, fld_eq_ofNat ?_, fld_eq_ofNat ?_, fld_eq_ofNat ?_, ?_, fld_eq_ofNat ?_, fld_eq_ofNat ?_⟩ <;> omega

theorem wAMO_fields (hd : d < 32) (ha : a < 32) (hb : b < 32) (hsg : sg < 8) (hop : op < 16) (har : ar < 2) (hsc : scope < 4) :
    let w := wAMO d a b sg op ar scope
    w / 2 % 64 = 24 ∧ fld 5 128 w = .ofNat 5 d ∧ fld 5 4096 w = .ofNat 5 a ∧ fld 5 131072 w = .ofNat 5 b ∧
      fld 3 4194304 w = .ofNat 3 sg ∧ w / 33554432 % 16 = op ∧ w / 536870912 % 2 = ar ∧ w / 1073741824 % 4 = scope := by
  simp only [wAMO]
  refine ⟨?_, fld_eq_ofNat ?_, fld_eq_ofNat ?_, fld_eq_ofNat ?_, fld_eq_ofNat ?_, ?_, ?_, ?_⟩ <;> omega

theorem wAMOV_fields (hd : d < 32) (ha : a < 32) (hsg : sg < 8) (hty : ty < 8) (hop : op < 16) :
    let w := wAMOV d a sg ty op
    w / 2 % 64 = 25 ∧ fld 5 128 w = .ofNat 5 d ∧ fld 5 4096 w = .ofNat 5 a ∧ fld 3 131072 w = .ofNat 3 sg ∧
      w / 1048576 % 8 = ty ∧ w / 8388608 % 16 = op := by
  simp only [wAMOV]
  refine ⟨?_, fld_eq_ofNat ?_, fld_eq_ofNat ?_, fld_eq_ofNat ?_, ?_, ?_⟩ <;> omega

theorem wXE_fields (hM : major < 64) (hfn : fn < 64) (hd : d < 32) (ha : a < 32) (hb : b < 32) (he : e < 16) :
    let w := wXE major fn d a b e
    w / 2 % 64 = major ∧ w / 67108864 % 64 = fn ∧ fld 5 128 w = .ofNat 5 d ∧ fld 5 4096 w = .ofNat 5 a ∧
      fld 5 131072 w = .ofNat 5 b ∧ fld 4 4194304 w = .ofNat 4 e := by
  simp only [wXE]
  refine ⟨?_, ?_, fld_eq_ofNat ?_, fld_eq_ofNat ?_, fld_eq_ofNat ?_, fld_eq_ofNat ?_⟩ <;> omega

theorem wImm8_fields (hfn : fn < 64) (hd : d < 32) (ha : a < 32) (himm : imm < 256) :
    let w := wImm8 fn d a imm
    w / 2 % 64 = 52 ∧ w / 67108864 % 64 = fn ∧ fld 5 128 w = .ofNat 5 d ∧ fld 5 4096 w = .ofNat 5 a ∧
      fld 8 131072 w = .ofNat 8 imm := by
  simp only [wImm8]
  refine ⟨?_, ?_, fld_eq_ofNat ?_, fld_eq_ofNat ?_, fld_eq_ofNat ?_⟩ <;> omega

theorem wVV_fields (hM : major < 64) (hd : d < 32) (ha : a < 32) (hb : b < 32) (hf : f5 < 32) (hty : ty < 8) :
    let w := wVV major d a b f5 ty rm
    w / 2 % 64 = major ∧ fld 5 128 w = .ofNat 5 d ∧ fld 5 4096 w = .ofNat 5 a ∧ fld 5 131072 w = .ofNat 5 b ∧
      w / 4194304 % 32 = f5 ∧ fld 5 4194304 w = .ofNat 5 f5 ∧ w / 134217728 % 8 = ty ∧ fld 2 1073741824 w = .ofNat 2 rm := by
  simp only [wVV]
  refine ⟨?_, fld_eq_ofNat ?_, fld_eq_ofNat ?_, fld_eq_ofNat ?_, ?_, fld_eq_ofNat ?_, ?_, fld_eq_ofNat ?_⟩ <;> omega

theorem wVC_fields (hd : d < 32) (ha : a < 32) (hb : b < 32) (hs : source < 8) (ht : target < 8) (hsc : scaled < 2) (hz : z < 2) :
    let w := wVC d a b source target scaled z rm
    w / 2 % 64 = 37 ∧ fld 5 128 w = .ofNat 5 d ∧ fld 5 4096 w = .ofNat 5 a ∧ fld 5 131072 w = .ofNat 5 b ∧
      w / 4194304 % 8 = source ∧ w / 33554432 % 8 = target ∧ w / 268435456 % 2 = scaled ∧
      w / 536870912 % 2 = z ∧ fld 2 1073741824 w = .ofNat 2 rm := by
  simp only [wVC]
  refine ⟨?_, fld_eq_ofNat ?_, fld_eq_ofNat ?_, fld_eq_ofNat ?_, ?_, ?_, ?_, ?_, fld_eq_ofNat ?_⟩ <;> omega

theorem wS2_fields (hs : sop < 16) (hd : d < 32) (ha : a < 32) (hm : m < 2) :
    let h := wS2 sop d a m
    h / 2 % 16 = sop ∧ fld 5 32 h = .ofNat 5 d ∧ fld 5 1024 h = .ofNat 5 a ∧ h / 32768 % 2 = m := by
  simp only [wS2]
  refine ⟨?_, fld_eq_ofNat ?_, fld_eq_ofNat ?_, ?_⟩ <;> omega

theorem wSI_fields (hs : sop < 16) (hd : d < 32) :
    let h := wSI sop d imm
    h / 2 % 16 = sop ∧ fld 5 32 h = .ofNat 5 d ∧ fld 6 1024 h = .ofNat 6 imm := by
  simp only [wSI]
  refine ⟨?_, fld_eq_ofNat ?_, fld_eq_ofNat ?_⟩ <;> omega

/-! A word has 32 bits, a short form 16 (R54). -/

theorem wRR_lt (hM : major < 64) (hd : d < 32) (ha : a < 32) (hb : b < 32) (hfn : fn < 64) (hq : q < 16) :
    wRR major d a b fn q < 4294967296 := by simp only [wRR]; omega
theorem wRI_lt (hM : major < 64) (hd : d < 32) (ha : a < 32) (hi : imm < 32768) : wRI major d a imm < 4294967296 := by
  simp only [wRI]; omega
theorem wSHI_lt (hd : d < 32) (ha : a < 32) (hsh : sh < 64) (hk : kind < 4) : wSHI kind d a sh < 4294967296 := by
  simp only [wSHI]; omega
theorem wUI_lt (hM : major < 64) (hd : d < 32) (hi : imm < 1048576) : wUI major d imm < 4294967296 := by simp only [wUI]; omega
theorem wBC_lt (ha : a < 32) (hb : b < 32) (hcc : cc < 8) (ho : off < 4096) : wBC a b cc off < 4294967296 := by simp only [wBC]; omega
theorem wLP_lt (ha : a < 32) (hl : level < 4) (hci : ci < 2) (he : endoff < 512) (hc : cnt < 256) :
    wLP a level ci endoff cnt < 4294967296 := by simp only [wLP]; omega
theorem wMM_lt (hM : major < 64) (hd : d < 32) (ha : a < 32) (hsg : sg < 8) (hf : fmt < 16) (hp : disp < 256) :
    wMM major d a sg fmt disp < 4294967296 := by simp only [wMM]; omega
theorem wAMO_lt (hd : d < 32) (ha : a < 32) (hb : b < 32) (hsg : sg < 8) (hop : op < 16) (har : ar < 2) (hsc : scope < 4) :
    wAMO d a b sg op ar scope < 4294967296 := by simp only [wAMO]; omega
theorem wAMOV_lt (hd : d < 32) (ha : a < 32) (hsg : sg < 8) (hty : ty < 8) (hop : op < 16) : wAMOV d a sg ty op < 4294967296 := by
  simp only [wAMOV]; omega
theorem wXE_lt (hM : major < 64) (hfn : fn < 64) (hd : d < 32) (ha : a < 32) (hb : b < 32) (he : e < 16) :
    wXE major fn d a b e < 4294967296 := by simp only [wXE]; omega
theorem wImm8_lt (hfn : fn < 64) (hd : d < 32) (ha : a < 32) (hi : imm < 256) : wImm8 fn d a imm < 4294967296 := by
  simp only [wImm8]; omega
theorem wVV_lt (hM : major < 64) (hd : d < 32) (ha : a < 32) (hb : b < 32) (hf : f5 < 32) (hty : ty < 8) (hrm : rm < 4) :
    wVV major d a b f5 ty rm < 4294967296 := by simp only [wVV]; omega
theorem wVC_lt (hd : d < 32) (ha : a < 32) (hb : b < 32) (hs : source < 8) (ht : target < 8) (hsc : scaled < 2) (hz : z < 2)
    (hrm : rm < 4) :    wVC d a b source target scaled z rm < 4294967296 := by simp only [wVC]; omega
theorem wS2_lt (hs : sop < 16) (hd : d < 32) (ha : a < 32) (hm : m < 2) : wS2 sop d a m < 65536 := by simp only [wS2]; omega
theorem wSI_lt (hs : sop < 16) (hd : d < 32) (hi : imm < 64) : wSI sop d imm < 65536 := by simp only [wSI]; omega

end

end Sys2Proof
end

section
/-! SUPPORT. What is encoded decodes back (R54 to R79); O1 and O3. -/

namespace Sys2Proof

section
variable {d a b e fn f5 q imm sh cc off level ci endoff cnt sg fmt disp op ar scope ty rm source target scaled z major : Nat}

/-! ### The instruction that a long word's major and selectors choose (R59 to R74) -/

theorem pickLong_alu (hd : d < 32) (ha : a < 32) (hb : b < 32) (hfn : fn < 64) (hq : q < 16) :
    pickLong (wRR 0x01 d a b fn q) = pickAlu fn (.ofNat 5 d) (.ofNat 5 a) (.ofNat 5 b) q := by
  simp [pickLong, wRR_fields, hd, ha, hb, hfn, hq]

theorem pickLong_immediate (hd : d < 32) (ha : a < 32) :
    pickLong (wRI 0x02 d a imm) = some (.addi (.ofNat 5 d) (.ofNat 5 a) (.ofNat 15 imm)) ∧
    pickLong (wRI 0x03 d a imm) = some (.andi (.ofNat 5 d) (.ofNat 5 a) (.ofNat 15 imm)) ∧
    pickLong (wRI 0x04 d a imm) = some (.ori (.ofNat 5 d) (.ofNat 5 a) (.ofNat 15 imm)) ∧
    pickLong (wRI 0x05 d a imm) = some (.xori (.ofNat 5 d) (.ofNat 5 a) (.ofNat 15 imm)) := by
  refine ⟨?_, ?_, ?_, ?_⟩ <;> simp [pickLong, wRI_fields, hd, ha]

theorem pickLong_shift (hd : d < 32) (ha : a < 32) (hsh : sh < 64) :
    pickLong (wSHI 0 d a sh) = some (.shli (.ofNat 5 d) (.ofNat 5 a) (.ofNat 6 sh)) ∧
    pickLong (wSHI 1 d a sh) = some (.shri (.ofNat 5 d) (.ofNat 5 a) (.ofNat 6 sh)) ∧
    pickLong (wSHI 2 d a sh) = some (.srai (.ofNat 5 d) (.ofNat 5 a) (.ofNat 6 sh)) := by
  refine ⟨?_, ?_, ?_⟩ <;> simp [pickLong, wSHI_fields, hd, ha, hsh]

theorem pickLong_upper (hd : d < 32) :
    pickLong (wUI 0x07 d imm) = some (.lih (.ofNat 5 d) (.ofNat 20 imm)) ∧
    pickLong (wUI 0x0B d imm) = some (.jal (.ofNat 5 d) (.ofNat 20 imm)) := by
  refine ⟨?_, ?_⟩ <;> simp [pickLong, wUI_fields, hd]

theorem pickLong_branch (ha : a < 32) (hb : b < 32) (hcc : cc < 8) :
    pickLong (wBC a b cc off) = (Cond.ofCode cc).map (Instr.br · (.ofNat 5 a) (.ofNat 5 b) (.ofNat 12 off)) := by
  simp [pickLong, wBC_fields, ha, hb, hcc]

theorem pickLong_jr (hd : d < 32) (ha : a < 32) : pickLong (wRR 0x0C d a 0 0 0) = some (.jr (.ofNat 5 d) (.ofNat 5 a)) := by
  simp [pickLong, wRR_fields, hd, ha]

theorem pickLong_loop (ha : a < 32) (hl : level < 4) (hci : ci < 2) (hend : endoff < 512) :
    pickLong (wLP a level ci endoff cnt) =
      some (.loop (.ofNat 5 a) (.ofNat 2 level) (ci == 1) (.ofNat 9 endoff) (.ofNat 8 cnt)) := by
  simp [pickLong, wLP_fields, ha, hl, hci, hend]

theorem pickLong_memory (hd : d < 32) (ha : a < 32) (hsg : sg < 8) (hf : fmt < 16) :
    pickLong (wMM 0x08 d a sg fmt disp) =
      (Fmt.ofCode fmt).map (Instr.lea (.ofNat 5 d) (.ofNat 3 sg) (.ofNat 5 a) · (.ofNat 8 disp)) ∧
    pickLong (wMM 0x10 d a sg fmt disp) =
      (Fmt.ofCode fmt).map (Instr.ld (.ofNat 5 d) (.ofNat 3 sg) (.ofNat 5 a) · (.ofNat 8 disp)) ∧
    pickLong (wMM 0x11 d a sg fmt disp) =
      (Fmt.ofCode fmt).map (Instr.ldAcq (.ofNat 5 d) (.ofNat 3 sg) (.ofNat 5 a) · (.ofNat 8 disp)) ∧
    pickLong (wMM 0x12 d a sg fmt disp) =
      (Fmt.ofCode fmt).map (Instr.st (.ofNat 5 d) (.ofNat 3 sg) (.ofNat 5 a) · (.ofNat 8 disp)) ∧
    pickLong (wMM 0x13 d a sg fmt disp) =
      (Fmt.ofCode fmt).map (Instr.stRel (.ofNat 5 d) (.ofNat 3 sg) (.ofNat 5 a) · (.ofNat 8 disp)) ∧
    pickLong (wMM 0x14 d a sg fmt disp) =
      (Fmt.ofCode fmt).map (Instr.ldv (.ofNat 5 d) (.ofNat 3 sg) (.ofNat 5 a) · (.ofNat 8 disp)) ∧
    pickLong (wMM 0x15 d a sg fmt disp) =
      (Fmt.ofCode fmt).map (Instr.stv (.ofNat 5 d) (.ofNat 3 sg) (.ofNat 5 a) · (.ofNat 8 disp)) ∧
    pickLong (wMM 0x16 d a sg fmt disp) =
      some (.ldx (.ofNat 4 d) (.ofNat 4 fmt) (.ofNat 3 sg) (.ofNat 5 a) (.ofNat 8 disp)) := by
  refine ⟨?_, ?_, ?_, ?_, ?_, ?_, ?_, ?_⟩ <;> simp [pickLong, wMM_fields, hd, ha, hsg, hf]

theorem pickLong_amo (hd : d < 32) (ha : a < 32) (hb : b < 32) (hsg : sg < 8) (hop : op < 16) (har : ar < 2) (hsc : scope < 4) :
    pickLong (wAMO d a b sg op ar scope) = (AmoOp.ofCode op).bind fun o => (Scope.amoOfCode scope).map fun sc =>
      .amo o (ar == 1) sc (.ofNat 5 d) (.ofNat 3 sg) (.ofNat 5 a) (.ofNat 5 b) := by
  simp [pickLong, wAMO_fields, hd, ha, hb, hsg, hop, har, hsc]

theorem pickLong_amov (hd : d < 32) (ha : a < 32) (hsg : sg < 8) (hty : ty < 8) (hop : op < 16) :
    pickLong (wAMOV d a sg ty op) =
      (AmovOp.ofCode op).map (Instr.amov · (LaneTy.ofCode ty) (.ofNat 5 d) (.ofNat 3 sg) (.ofNat 5 a)) := by
  simp [pickLong, wAMOV_fields, hd, ha, hsg, hty, hop]

theorem pickLong_fence (hfn : fn < 64) :
    pickLong (wRR 0x1A 0 0 0 fn 0) = (FenceKind.ofCode (fn / 4)).map (Instr.fence · (Scope.ofCode (fn % 4))) := by
  simp [pickLong, wRR_fields, hfn]

theorem pickLong_cache (hd : d < 32) (ha : a < 32) (hq : q < 16) :
    pickLong (wRR 0x1B d a 0 0 q) = some (.pref (.ofNat 3 q) (.ofNat 5 a)) ∧
    pickLong (wRR 0x1B d a 0 1 q) = some (.pin (.ofNat 5 d) (.ofNat 3 q) (.ofNat 5 a)) ∧
    pickLong (wRR 0x1B d a 0 2 q) = some (.unpin (.ofNat 3 q) (.ofNat 5 a)) := by
  refine ⟨?_, ?_, ?_⟩ <;> simp [pickLong, wRR_fields, hd, ha, hq]

theorem pickLong_vector (hd : d < 32) (ha : a < 32) (hb : b < 32) (hf : f5 < 32) (hty : ty < 8) :
    pickLong (wVV 0x20 d a b f5 ty rm) =
      pickVec f5 (.ofNat 2 rm) (LaneTy.ofCode ty) (.ofNat 5 d) (.ofNat 5 a) (.ofNat 5 b) ∧
    pickLong (wVV 0x21 d a b f5 ty rm) =
      some (.vfma (FmaKind.ofCode (rm % 4)) (LaneTy.ofCode ty) (.ofNat 5 d) (.ofNat 5 a) (.ofNat 5 b) (.ofNat 5 f5)) ∧
    pickLong (wVV 0x22 d a b f5 ty rm) =
      some (.vsel (LaneTy.ofCode ty) (.ofNat 5 d) (.ofNat 5 a) (.ofNat 5 b) (.ofNat 5 f5)) ∧
    pickLong (wVV 0x23 d a b f5 ty rm) =
      some (.vcmp (VCond.ofCode (f5 % 8)) (LaneTy.ofCode ty) (.ofNat 5 d) (.ofNat 5 a) (.ofNat 5 b)) := by
  refine ⟨?_, ?_, ?_, ?_⟩ <;> simp [pickLong, wVV_fields, hd, ha, hb, hf, hty]

theorem pickLong_convert (hd : d < 32) (ha : a < 32) (hb : b < 32) (hs : source < 8) (ht : target < 8) (hsc : scaled < 2)
    (hz : z < 2) :
    pickLong (wVC d a b source target scaled z rm) = some (.vcvt (.ofNat 2 rm) (z == 1) (scaled == 1) (LaneTy.ofCode target)
      (LaneTy.ofCode source) (.ofNat 5 d) (.ofNat 5 a) (.ofNat 5 b)) := by
  simp [pickLong, wVC_fields, hd, ha, hb, hs, ht, hsc, hz]

theorem pickLong_cadastre (hfn : fn < 64) (hd : d < 32) (ha : a < 32) (hb : b < 32) (he : e < 16) :
    pickLong (wXE 0x32 fn d a b e) = pickCad fn (.ofNat 5 d) (.ofNat 5 a) (.ofNat 5 b) (.ofNat 4 e) := by
  simp [pickLong, wXE_fields, hfn, hd, ha, hb, he]

/-- imm8 overlays b and e: a row of major 34 reads either it or them (R74). -/
theorem pickLong_system (hfn : fn < 64) (hd : d < 32) (ha : a < 32) (hb : b < 32) (he : e < 16) :
    pickLong (wXE 0x34 fn d a b e) =
      pickSys fn (.ofNat 5 d) (.ofNat 5 a) (.ofNat 5 b) (.ofNat 4 e) (fld 8 131072 (wXE 0x34 fn d a b e)) := by
  simp [pickLong, wXE_fields, hfn, hd, ha, hb, he]

theorem pickLong_imm8 (hfn : fn < 64) (hd : d < 32) (ha : a < 32) (himm : imm < 256) :
    pickLong (wImm8 fn d a imm) = pickSys fn (.ofNat 5 d) (.ofNat 5 a) (fld 5 131072 (wImm8 fn d a imm))
      (fld 4 4194304 (wImm8 fn d a imm)) (.ofNat 8 imm) := by
  simp [pickLong, wImm8_fields, hfn, hd, ha, himm]

/-- The XE majors that pickXE decides: those of R59 in that layout but 32 and 34. -/
def isPlainXE (major : Nat) : Bool :=
  [0x17, 0x24, 0x26, 0x28, 0x29, 0x2A, 0x2B, 0x2C, 0x2D, 0x2E, 0x30, 0x31, 0x33, 0x35].contains major

theorem pickLong_xe (hM : isPlainXE major = true) (hfn : fn < 64) (hd : d < 32) (ha : a < 32) (hb : b < 32) (he : e < 16) :
    pickLong (wXE major fn d a b e) = pickXE major fn (.ofNat 5 d) (.ofNat 5 a) (.ofNat 5 b) (.ofNat 4 e) := by
  simp only [isPlainXE, List.contains_eq_mem, decide_eq_true_eq, List.mem_cons, List.not_mem_nil, or_false] at hM
  rcases hM with rfl | rfl | rfl | rfl | rfl | rfl | rfl | rfl | rfl | rfl | rfl | rfl | rfl | rfl <;>
    simp [pickLong, wXE_fields, hfn, hd, ha, hb, he]

end

/-! ### Fields and codes -/

/-- A field of n bits is below every bound that its width fits. -/
theorem toNat_lt_of_pow_le {n m : Nat} (x : BitVec n) (h : 2 ^ n ≤ m) : x.toNat < m := x.isLt.trans_le h

@[simp] theorem LaneTy.code_lt (ty : LaneTy) : ty.code < 8 := by cases ty <;> decide
@[simp] theorem Fmt.code_lt (f : Fmt) : f.code < 16 := by cases f <;> decide
@[simp] theorem AmoOp.code_lt (op : AmoOp) : op.code < 16 := by cases op <;> decide
@[simp] theorem AmovOp.code_lt (op : AmovOp) : op.code < 16 := by cases op <;> decide
@[simp] theorem FmaKind.code_lt (k : FmaKind) : k.code < 4 := by cases k <;> decide
@[simp] theorem Scope.code_sub_one_lt (sc : Scope) : sc.code - 1 < 4 := by cases sc <;> decide
@[simp] theorem fenceCode_lt (k : FenceKind) (sc : Scope) : 4 * k.code + sc.code < 64 := by cases k <;> cases sc <;> decide

/-! The conditions stand in fields of several widths. -/

@[simp] theorem Cond.code_lt {n : Nat} (c : Cond) (h : 8 ≤ n) : c.code < n := Nat.lt_of_lt_of_le (by cases c <;> decide) h
@[simp] theorem VCond.code_lt {n : Nat} (c : VCond) (h : 8 ≤ n) : c.code < n := Nat.lt_of_lt_of_le (by cases c <;> decide) h

@[simp] theorem LaneTy.ofCode_code (ty : LaneTy) : LaneTy.ofCode ty.code = ty := by cases ty <;> rfl
@[simp] theorem Fmt.ofCode_code (f : Fmt) : Fmt.ofCode f.code = some f := by cases f <;> rfl
@[simp] theorem Cond.ofCode_code (c : Cond) : Cond.ofCode c.code = some c := by cases c <;> rfl
@[simp] theorem VCond.ofCode_code (c : VCond) : VCond.ofCode c.code = c := by cases c <;> rfl
@[simp] theorem AmoOp.ofCode_code (op : AmoOp) : AmoOp.ofCode op.code = some op := by cases op <;> rfl
@[simp] theorem AmovOp.ofCode_code (op : AmovOp) : AmovOp.ofCode op.code = some op := by cases op <;> rfl
@[simp] theorem FmaKind.ofCode_code (k : FmaKind) : FmaKind.ofCode k.code = k := by cases k <;> rfl
@[simp] theorem FenceKind.ofCode_fenceCode (k : FenceKind) (sc : Scope) : FenceKind.ofCode ((4 * k.code + sc.code) / 4) = some k := by
  cases k <;> cases sc <;> rfl
@[simp] theorem Scope.ofCode_code (sc : Scope) : Scope.ofCode (sc.code % 4) = sc := by cases sc <;> rfl

/-- AMO has no scope CORE (R65). -/
theorem Scope.amoOfCode_code {sc : Scope} (h : sc ≠ .core) : Scope.amoOfCode (sc.code - 1) = some sc := by
  cases sc
  case core => exact absurd rfl h
  all_goals rfl

/-! ### The decoder's choice on an encoding -/

theorem pickShort_encodeNat {i : Instr} (hs : i.isShort = true) : pickShort (encodeNat i) = some i := by
  cases i <;> cases hs <;> simp [encodeNat.eq_def, pickShort, wS2_fields, wSI_fields, toNat_lt_of_pow_le]

/-- Each row by the lemma of its major and the table of that major; AMO needs its scope rule, QBIND and UNBIND one row for each of
their two forms. -/
theorem pickLong_encodeNat {i : Instr} (hwf : i.wellFormed = true) (he : i.isEvent = false) (hs : i.isShort = false) :
    pickLong (encodeNat i) = some i := by
  cases i <;> cases he <;> cases hs
  case amo op ar sc d sg a b =>
    have hsc : sc ≠ .core := by simpa [Instr.wellFormed] using hwf
    simp [encodeNat.eq_def, pickLong_amo, toNat_lt_of_pow_le, Bool.toNat_le, Scope.amoOfCode_code hsc]
  case qbind w d | unbind w d =>
    cases w <;> simp [encodeNat.eq_def, pickLong_xe, isPlainXE, pickXE, toNat_lt_of_pow_le]
  all_goals
    clear hwf
    simp [encodeNat.eq_def, toNat_lt_of_pow_le, Bool.toNat_le, Nat.mod_eq_of_lt, pickLong_alu, pickLong_immediate, pickLong_shift,
      pickLong_upper, pickLong_branch, pickLong_jr, pickLong_loop, pickLong_memory, pickLong_amov, pickLong_fence, pickLong_cache,
      pickLong_vector, pickLong_convert, pickLong_cadastre, pickLong_system, pickLong_imm8, pickLong_xe, isPlainXE, pickAlu,
      pickVec, pickCad, pickSys, pickXE]

theorem encodeNat_lt_of_isShort {i : Instr} (hs : i.isShort = true) : encodeNat i < 65536 := by
  cases i <;> cases hs <;> simp [encodeNat.eq_def, wS2_lt, wSI_lt, toNat_lt_of_pow_le]

theorem encodeNat_lt_of_long {i : Instr} (he : i.isEvent = false) (hs : i.isShort = false) : encodeNat i < 4294967296 := by
  cases i <;> cases he <;> cases hs
  case qbind w d | unbind w d => cases w <;> simp [encodeNat.eq_def, wXE_lt, toNat_lt_of_pow_le]
  all_goals
    simp [encodeNat.eq_def, toNat_lt_of_pow_le, Bool.toNat_le, wRR_lt, wRI_lt, wSHI_lt, wUI_lt, wBC_lt, wLP_lt, wMM_lt, wAMO_lt,
      wAMOV_lt, wXE_lt, wImm8_lt, wVV_lt, wVC_lt]

theorem majorListed_of_pickXE {m fn : Nat} {d a b : Reg} {e : EReg} {i : Instr} (h : pickXE m fn d a b e = some i) :
    majorListed m = true := by
  rw [pickXE.eq_def] at h
  split at h
  case h_33 => simp at h
  all_goals rfl

theorem majorListed_of_pickLong {w : Nat} {i : Instr} (h : pickLong w = some i) : majorListed (w / 2 % 64) = true := by
  simp only [pickLong] at h
  split at h
  case h_31 => exact majorListed_of_pickXE h
  all_goals next hmajor => exact congrArg majorListed hmajor

/-! ### Bytes, words and O1 -/

/-- A number is given back by its bytes (R2). -/
theorem leNat_leBytes {n x : Nat} (h : x < 256 ^ n) : leNat (leBytes n x) = x := by
  induction n generalizing x with
  | zero => simp_all [leBytes, leNat]
  | succ n ih =>
    have hrest : leNat (leBytes n (x / 256)) = x / 256 := ih (by omega)
    simp only [leBytes, leNat, hrest, BitVec.toNat_ofNat]
    omega

theorem decode_leBytes_two {h : Nat} (rest : List Byte) (heven : h % 2 = 0) (hlt : h < 65536) :
    decode (leBytes 2 h ++ rest) = (decodeShort h).map (·, 2) := by
  have hlow : (BitVec.ofNat 8 h).toNat % 2 = 0 := by simp only [BitVec.toNat_ofNat]; omega
  change (if (BitVec.ofNat 8 h).toNat % 2 = 0 then (decodeShort (leNat (leBytes 2 h))).map (·, 2) else _) = _
  rw [if_pos hlow, leNat_leBytes hlt]

theorem decode_leBytes_four {w : Nat} (rest : List Byte) (hodd : w % 2 = 1) (hlt : w < 4294967296) :
    decode (leBytes 4 w ++ rest) = (decodeLong w).map (·, 4) := by
  have hlow : ¬ (BitVec.ofNat 8 w).toNat % 2 = 0 := by simp only [BitVec.toNat_ofNat]; omega
  change (if (BitVec.ofNat 8 w).toNat % 2 = 0 then _ else (decodeLong (leNat (leBytes 4 w))).map (·, 4)) = _
  rw [if_neg hlow, leNat_leBytes hlt]

theorem checked_encodeNat {i : Instr} (hwf : i.wellFormed = true) : checked (encodeNat i) i = .ok i := by simp [checked, hwf]

theorem decodeShort_encodeNat {i : Instr} (hwf : i.wellFormed = true) (hs : i.isShort = true) :
    decodeShort (encodeNat i) = .ok i := by
  have hpick := pickShort_encodeNat hs
  have h0 : encodeNat i ≠ 0 := fun h0 => by simp [h0, pickShort] at hpick
  rw [decodeShort, if_neg h0, hpick]
  exact checked_encodeNat hwf

theorem decodeLong_encodeNat {i : Instr} (hwf : i.wellFormed = true) (he : i.isEvent = false) (hs : i.isShort = false) :
    decodeLong (encodeNat i) = .ok i := by
  have hpick := pickLong_encodeNat hwf he hs
  rw [decodeLong, if_pos (majorListed_of_pickLong hpick), hpick]
  exact checked_encodeNat hwf

/-- The bytes of a word that encodes an instruction decode to it, whatever follows them. -/
theorem decode_encode_append {i : Instr} (rest : List Byte) (hwf : i.wellFormed = true) (he : i.isEvent = false) :
    decode (encode i ++ rest) = .ok (i, if i.isShort then 2 else 4) := by
  rcases hs : i.isShort
  · simp only [encode, hs, Bool.false_eq_true, if_false]
    rw [decode_leBytes_four rest (encodeNat_odd_of_long he hs) (encodeNat_lt_of_long he hs), decodeLong_encodeNat hwf he hs]
    rfl
  · simp only [encode, hs, if_true]
    rw [decode_leBytes_two rest (encodeNat_even_of_isShort hs) (encodeNat_lt_of_isShort hs), decodeShort_encodeNat hwf hs]
    rfl

/-- Settles O1: an encoding's lowest bit tells its length (R54), its fields choose the instruction again, and R79's check passes. -/
theorem decodeOfEncode : Obligations.DecodeOfEncode := by
  unfold Obligations.DecodeOfEncode
  intro i rest hwf he
  exact decode_encode_append rest hwf he

/-- A word of the table that is the encoding of a long instruction. -/
theorem decodeTableWord_of_long {i : Instr} {w : Nat} (hw : encodeNat i = w) (hwf : i.wellFormed = true) (he : i.isEvent = false)
    (hs : i.isShort = false) : decodeTableWord 32 w = some i := by
  subst hw
  have hdec : decode (leBytes 4 (encodeNat i)) = .ok (i, 4) := by simpa [encode, hs] using decode_encode_append [] hwf he
  have hword : encodeNat i % 2 ^ 32 = encodeNat i := Nat.mod_eq_of_lt (encodeNat_lt_of_long he hs)
  rw [decodeTableWord, hword, hdec]

/-- Settles O3: each long word is the encoding of its instruction; the short form and the words that are none are decoded. -/
theorem referenceWords : Obligations.ReferenceWords := by
  unfold Obligations.ReferenceWords
  have hshort : decodeTableWord 16 0x1C64 = some (.addShort 3 7) := by decide
  have hzero : decodeTableWord 16 0 = none := by decide
  have hreserved : decodeTableWord 32 0x15 = none := by decide
  refine ⟨?_, hshort, ?_, ?_, ?_, ?_, ?_, ?_, ?_, ?_, ?_, ?_, ?_, ?_, ?_, ?_, ?_, ?_, hzero, hreserved⟩ <;>
    exact decodeTableWord_of_long rfl rfl rfl rfl

end Sys2Proof
end

section
/-! SUPPORT. Words that do not decode and code that cannot be fetched (R55, R56), and O11. -/

namespace Sys2Proof.Machine

/-- The word stands below bit 32 of AUX, and its length in bit 32. -/
theorem illegalAux_eq_or (s : State) :
    illegalAux s = BitVec.ofNat 64 (s.cur.word % 2 ^ 32) ||| (if s.cur.long then 0x100000000 else 0) := by
  rw [illegalAux]
  cases s.cur.long with
  | false => simp
  | true =>
    have hor : 4294967296 + s.cur.word % 2 ^ 32 = 4294967296 ||| s.cur.word % 2 ^ 32 :=
      Nat.two_pow_add_eq_or_of_lt (i := 32) (Nat.mod_lt _ (by decide)) 1
    rw [Bool.toNat_true, Nat.mul_one, Nat.add_comm, hor, BitVec.ofNat_or, BitVec.or_comm]
    rfl

/-- Settles O11: the one row traps at once, and the other goes no further than its fetch. -/
theorem undecodableWordTraps : Obligations.UndecodableWordTraps := by
  unfold Obligations.UndecodableWordTraps
  intro s
  refine ⟨run_of_traps (traps_illegal s), illegalAux_eq_or s, fun t s' h => ?_, fun w p s' h => ?_⟩
  · exact run_of_traps (traps_bind_iff.2 (.inl h))
  · exact run_of_waits (waits_bind_iff.2 (.inl h))

end Sys2Proof.Machine
end

section
/-! SUPPORT. Branches (R62, R285), and O18. -/

namespace Sys2Proof.Machine

/-- A branch offset counts halfwords (R62). -/
theorem target_toInt {n : Nat} (s : State) (off : BitVec n) : target s off.toInt = curPc s + off.signExtend 64 * 2 := by
  rw [target, BitVec.ofInt_mul, BitVec.mul_comm]
  rfl

/-- A branch whose operands are taken goes to its target where its condition holds, else on. -/
theorem branch_of_takes {cc : Cond} {a b : Reg} {n : Nat} {off : BitVec n} {s s' : State} (ht : Takes [a, b] none s s') :
    run (branch cc a b off.toInt) s =
      .next (if condHolds cc (gval s' a) (gval s' b) then endGoto 1 (curPc s' + off.signExtend 64 * 2) s' else endFall 1 s') := by
  rw [← target_toInt]
  exact run_of_ends (ends_bind_iff.2 ⟨(), s', ht, (ends_modify ..).2 rfl⟩)

/-- Settles O18: each row is the shared branch with its condition, and NOP has no operands to take. -/
theorem branchResults : Obligations.BranchResults := by
  unfold Obligations.BranchResults
  intro s s' a b d off o6
  refine ⟨fun ht => ⟨?eq, ?ne, ?lt, ?ge, ?ltu, ?geu⟩, fun ht => ⟨?eqz, ?nez⟩, rfl, rfl⟩
  case eq => exact (branch_of_takes ht).trans (by simp only [condHolds_eq, decide_eq_true_eq])
  case ne => exact (branch_of_takes ht).trans (by rw [condHolds_ne, ite_not_decide])
  case lt => exact (branch_of_takes ht).trans (by simp only [condHolds_lt, decide_eq_true_eq])
  case ge => exact (branch_of_takes ht).trans (by rw [condHolds_ge, ite_not_decide])
  case ltu => exact (branch_of_takes ht).trans (by simp only [condHolds_ltu, decide_eq_true_eq])
  case geu => exact (branch_of_takes ht).trans (by rw [condHolds_geu, ite_not_decide])
  case eqz => exact (branch_of_takes ht).trans (by simp only [gval_zero, condHolds_eq, decide_eq_true_eq])
  case nez => exact (branch_of_takes ht).trans (by rw [gval_zero, condHolds_ne, ite_not_decide])

end Sys2Proof.Machine
end

section
/-! SUPPORT. The vector instructions of two sources, and O34. -/

namespace Sys2Proof.Machine

/-- Settles O34: each row is the shared frame of the vector instructions with its own packet function. -/
theorem vectorPairResults : Obligations.VectorPairResults := by
  unfold Obligations.VectorPairResults
  intro s s' u rm ty d a b ht
  have row {fed : State → Nat} {f : State → Packet × List Nat} (hend : Ends (endV 1 d (f s').1 (f s').2 (fed s')) s' () u) :
      vecFed 1 [a, b] [] d fed f s = .next u := vecFed_of_takes ht hend
  exact ⟨fun h => row h, fun h => row h, fun h => row h, fun h => row h, fun h => row h, fun h => row h, fun h => row h,
    fun h => row h, fun c h => row h, fun h => row h, fun h => row h, fun h => row h, fun h => row h⟩

end Sys2Proof.Machine
end

section
/-! SUPPORT. Integer lanes (R69, R92), and O38. -/

namespace Sys2Proof.Machine

theorem coe_laneCode (ty : LaneTy) (v : Int) : (laneCode ty v : Int) = v % (2 ^ ty.width : Nat) :=
  Int.toNat_of_nonneg (Int.emod_nonneg _ (by positivity))

theorem laneInt_eq_ite (ty : LaneTy) (x : Nat) :
    laneInt ty x = if ty.isSigned = true ∧ 2 ^ (ty.width - 1) ≤ x then (x : Int) - (2 ^ ty.width : Nat) else x := by
  simp only [laneInt, Bool.and_eq_true, decide_eq_true_eq]

/-- A value that an integer lane type holds is that of its code. -/
theorem laneInt_laneCode {ty : LaneTy} {v : Int} (hty : ty.isFloat = false) (hmin : laneMin ty ≤ v) (hmax : v ≤ laneMax ty) :
    laneInt ty (laneCode ty v) = v := by
  have hcode := coe_laneCode ty v
  rw [laneInt_eq_ite]
  cases ty <;> cases hty <;> simp [laneMin, laneMax, LaneTy.isSigned, LaneTy.width] at * <;> omega

theorem laneMin_le_laneMax (ty : LaneTy) : laneMin ty ≤ laneMax ty := by cases ty <;> decide

section
variable {ty : LaneTy} {m : LaneMode} {x y : Nat} (hty : ty.isFloat = false)
include hty

theorem addLane_of_integer : addLane ty m x y = intLane ty m.sat (laneInt ty x + laneInt ty y) := by simp [addLane, hty]
theorem subLane_of_integer : subLane ty m x y = intLane ty m.sat (laneInt ty x - laneInt ty y) := by simp [subLane, hty]
theorem mulLane_of_integer : mulLane ty m x y = intLane ty m.sat (laneInt ty x * laneInt ty y) := by simp [mulLane, hty]

end

/-- Settles O38: the three operations are one exact result, wrapped or saturated. -/
theorem integerLanes : Obligations.IntegerLanes := by
  unfold Obligations.IntegerLanes
  intro ty x y m hty _ _ f v hf
  have hlane : f x y = intLane ty m.sat v := by
    rcases hf with ⟨rfl, rfl⟩ | ⟨rfl, rfl⟩ | ⟨rfl, rfl⟩
    · exact addLane_of_integer hty
    · exact subLane_of_integer hty
    · exact mulLane_of_integer hty
  have hle := laneMin_le_laneMax ty
  rw [hlane]
  refine ⟨fun hsat => ?wrap, fun hsat hmin hmax => ?exact, fun hsat hlow => ?low, fun hsat hhigh => ?high⟩
  case wrap => simp [intLane, hsat, coe_laneCode]
  case exact => simp [intLane, hsat, hmin.not_gt, hmax.not_gt, laneInt_laneCode hty hmin hmax]
  case low => simp [intLane, hsat, hlow, laneInt_laneCode hty le_rfl hle]
  case high =>
    have hmin : ¬ v < laneMin ty := by omega
    simp [intLane, hsat, hmin, hhigh, laneInt_laneCode hty hle le_rfl]

end Sys2Proof.Machine
end

section
/-! SUPPORT. The keeper's instructions (R77, R192, R193, R307 to R309), and O53. -/

namespace Sys2Proof.Machine

/-! ### The keeper, its operands and the slot it serves -/

theorem traps_keeperOnly {s : State} (h : isKeeper s.cur.core s.cur.slot = false) :
    Traps keeperOnly s ⟨.illegal, 0, illegalAux s, 0⟩ s := by
  refine (run_get_bind _ s).trans ((run_ite_of_pos ?_).trans (traps_illegal s))
  simp [h]

theorem ends_keeperOnly {s : State} (h : isKeeper s.cur.core s.cur.slot = true) : Ends keeperOnly s () s := by
  refine (run_get_bind _ s).trans ((run_ite_of_neg ?_).trans rfl)
  simp [h]

theorem ends_servedSlot {a : Word} (h : a.toNat < 15) (s : State) : Ends (servedSlot a) s a.toNat s := by
  rw [servedSlot, if_neg (by omega)]
  rfl

/-- An instruction of the keeper: it takes its operands, then does g with the slot that g[a] names. -/
def keeperInstr (srcs : List Reg) (dst : Option Reg) (a : Reg) (g : State → Nat → Exec Unit) : Exec Unit := do
  keeperOnly
  useG srcs dst
  let s ← get
  let k ← servedSlot (gval s a)
  g s k

section
variable {srcs : List Reg} {dst : Option Reg} {a : Reg} {g : State → Nat → Exec Unit} {s s1 : State}

theorem keeperInstr_of_elsewhere (h : isKeeper s.cur.core s.cur.slot = false) :
    run (keeperInstr srcs dst a g) s = .next (illegalTrapped s) :=
  run_of_traps (traps_bind_iff.2 (.inl (traps_keeperOnly h)))

theorem keeperInstr_run (h : isKeeper s.cur.core s.cur.slot = true) (hk : (gval s1 a).toNat < 15) (ht : Takes srcs dst s s1) :
    (keeperInstr srcs dst a g).run s = (g s1 (gval s1 a).toNat).run s1 := by
  rw [keeperInstr, ends_bind (ends_keeperOnly h), ends_bind ht, run_get_bind, ends_bind (ends_servedSlot hk s1)]

end

/-! ### KREAD (R307) -/

/-- KREAD's read of slot k. -/
def readSelected (d b : Reg) (s : State) (k : Nat) : Exec Unit :=
  match selected (curCore s) k (slotOf s s.cur.core k) (gval s b).toNat with
  | none => illegal
  | some v => set (writesG 1 d (if isParked (slotOf s s.cur.core k) then v else 0) s)

theorem execKread_eq (d a b : Reg) : execKread d a b = run (keeperInstr [a, b] (some d) a (readSelected d b)) := rfl

theorem ends_readSelected {d b : Reg} {s : State} {k : Nat} {v : Word}
    (h : selected (curCore s) k (slotOf s s.cur.core k) (gval s b).toNat = some v) :
    Ends (readSelected d b s k) s () (writesG 1 d (if isParked (slotOf s s.cur.core k) then v else 0) s) := by
  rw [readSelected, h]
  rfl

theorem traps_readSelected {d b : Reg} {s : State} {k : Nat}
    (h : selected (curCore s) k (slotOf s s.cur.core k) (gval s b).toNat = none) :
    Traps (readSelected d b s k) s ⟨.illegal, 0, illegalAux s, 0⟩ s := by
  rw [readSelected, h]
  exact traps_illegal s

/-! ### KWRITE (R309) -/

/-- KWRITE's write of slot k. -/
def writeSelected (d b : Reg) (s : State) (k : Nat) : Exec Unit := do
  if !writableAs (gval s b).toNat (gval s d) then illegal
  let u := endFall 1 s
  if !isParked (slotOf u s.cur.core k) then set u
  else if (gval s b).toNat = 0x108 then set { exitSlot u s.cur.core k with cur := u.cur }
  else set (setSlot u s.cur.core k ((slotOf u s.cur.core k).select (gval s b).toNat (gval s d)))

theorem execKwrite_eq (d a b : Reg) : execKwrite d a b = run (keeperInstr [a, b, d] none a (writeSelected d b)) := rfl

section
variable {d b : Reg} {s : State} {k : Nat} (hw : writableAs (gval s b).toNat (gval s d) = true)
include hw

theorem ends_writeSelected_of_not_parked (hp : isParked (slotOf (endFall 1 s) s.cur.core k) = false) :
    Ends (writeSelected d b s k) s () (endFall 1 s) :=
  (run_ite_of_neg (by simp [hw])).trans ((run_ite_of_pos (by simp [hp])).trans rfl)

theorem ends_writeSelected_of_end (hp : isParked (slotOf (endFall 1 s) s.cur.core k) = true) (hsel : (gval s b).toNat = 0x108) :
    Ends (writeSelected d b s k) s () { exitSlot (endFall 1 s) s.cur.core k with cur := (endFall 1 s).cur } :=
  (run_ite_of_neg (by simp [hw])).trans ((run_ite_of_neg (by simp [hp])).trans ((run_ite_of_pos hsel).trans rfl))

theorem ends_writeSelected_of_parked (hp : isParked (slotOf (endFall 1 s) s.cur.core k) = true) (hsel : (gval s b).toNat ≠ 0x108) :
    Ends (writeSelected d b s k) s ()
      (setSlot (endFall 1 s) s.cur.core k ((slotOf (endFall 1 s) s.cur.core k).select (gval s b).toNat (gval s d))) :=
  (run_ite_of_neg (by simp [hw])).trans ((run_ite_of_neg (by simp [hp])).trans ((run_ite_of_neg hsel).trans rfl))

end

/-! ### KRET (R193, R308) -/

theorem kret_eq (a : Reg) (srcs : List Reg) (how : State → Resumption) :
    kret a srcs how = keeperInstr srcs none a (fun s k => set (kretSlot (endFall 1 s) s.cur.core k (how s))) := rfl

theorem kret_of_takes {a : Reg} {srcs : List Reg} {how : State → Resumption} {s s1 : State}
    (h : isKeeper s.cur.core s.cur.slot = true) (hk : (gval s1 a).toNat < 15) (ht : Takes srcs none s s1) :
    run (kret a srcs how) s = .next (kretSlot (endFall 1 s1) s.cur.core (gval s1 a).toNat (how s1)) := by
  obtain ⟨hcore, -⟩ := ht.popsQueues.issuer_eq
  rw [kret_eq, ← hcore]
  exact run_of_ends ((keeperInstr_run h hk ht).trans ((ends_set ..).2 rfl))

/-- A parked thread as KRET lets it issue again: its record r says how long its instruction is (R193). -/
def resumedSlot (s : State) (c k : Nat) (r : TrapRec) (how : Resumption) : Slot :=
  { (slotOf s c k).resumeAt r.long how with wait := {}, readyAt := ticksOf s c + 8, barHalf := false }

theorem queuedRecord_dropRecords (c : Core) (k : Nat) : queuedRecord (dropRecords c k) k = none := by
  simp [queuedRecord, dropRecords]

theorem slotOf_dropRecords (s : State) (c k j : Nat) : slotOf (setCore s c (dropRecords (coreOf s c) k)) c j = slotOf s c j := by
  rw [slotOf, coreOf_setCore_self]
  rfl

section
variable {s : State} {c k : Nat} {r : TrapRec} (how : Resumption) (hp : isParked (slotOf s c k) = true)
  (hr : queuedRecord (coreOf s c) k = some r)
include hp hr

theorem kretSlot_of_parked :
    kretSlot s c k how = setSlot (setCore s c (dropRecords (coreOf s c) k)) c k (resumedSlot s c k r how) := by
  simp only [kretSlot, hp, hr, slotOf_dropRecords, if_true, Option.map_some, Option.getD_some]
  rfl

theorem slotOf_kretSlot_self : slotOf (kretSlot s c k how) c k = resumedSlot s c k r how := by
  rw [kretSlot_of_parked how hp hr, slotOf_setSlot_self]

theorem slotOf_kretSlot_of_ne {j : Nat} (hj : j ≠ k) : slotOf (kretSlot s c k how) c j = slotOf s c j := by
  rw [kretSlot_of_parked how hp hr, slotOf_setSlot_of_ne _ _ hj, slotOf_dropRecords]

theorem queuedRecord_kretSlot : queuedRecord (coreOf (kretSlot s c k how) c) k = none := by
  rw [kretSlot_of_parked how hp hr, coreOf_setSlot_self, coreOf_setCore_self]
  exact queuedRecord_dropRecords _ _

theorem byteAt_kretSlot (h : Home) : byteAt (kretSlot s c k how) h = byteAt s h := by
  rw [kretSlot_of_parked how hp hr, byteAt_setSlot]
  exact byteAt_setCore (by rfl) h

end

/-- Settles O53: the keeper's instructions share one frame, and KRET of a parked slot writes that slot and the core's keeper queue. -/
theorem keeperInstructionResults : Obligations.KeeperInstructionResults := by
  unfold Obligations.KeeperInstructionResults
  intro s s1 d a b
  refine ⟨fun h => ?elsewhere, fun h hk => ⟨fun ht => ?kread, fun ht hw => ?kwrite, fun ht => ?kret, fun ht => ?kretPc⟩,
    fun t r how hp hr => ?resumed⟩
  case elsewhere =>
    exact ⟨keeperInstr_of_elsewhere h, keeperInstr_of_elsewhere h, keeperInstr_of_elsewhere h, keeperInstr_of_elsewhere h,
      keeperInstr_of_elsewhere h⟩
  case kread =>
    obtain ⟨hcore, -⟩ := ht.popsQueues.issuer_eq
    rw [← hcore]
    exact ⟨fun v hv => run_of_ends ((keeperInstr_run h hk ht).trans (ends_readSelected hv)),
      fun hv => run_of_traps ((keeperInstr_run h hk ht).trans (traps_readSelected hv))⟩
  case kwrite =>
    obtain ⟨hcore, -⟩ := ht.popsQueues.issuer_eq
    rw [← hcore]
    have writes {u : State} (hend : Ends (writeSelected d b s1 (gval s1 a).toNat) s1 () u) : exec (.kwrite d a b) s = .next u :=
      run_of_ends ((keeperInstr_run h hk ht).trans hend)
    exact ⟨fun hp => writes (ends_writeSelected_of_not_parked hw hp),
      fun hp hsel => writes (ends_writeSelected_of_parked hw hp hsel),
      fun hp hsel => writes (ends_writeSelected_of_end hw hp hsel)⟩
  case kret => exact ⟨kret_of_takes h hk ht, kret_of_takes h hk ht⟩
  case kretPc => exact kret_of_takes h hk ht
  case resumed =>
    intro x y
    have hy : y = resumedSlot t s.cur.core (gval s1 a).toNat r how := slotOf_kretSlot_self how hp hr
    have hlive : x.live = true := (Bool.and_eq_true_iff.1 hp).1
    rw [hy]
    refine ⟨rfl, hlive, rfl, rfl, rfl, rfl, rfl, rfl, ?pc, queuedRecord_kretSlot how hp hr,
      fun j hj => slotOf_kretSlot_of_ne how hp hr hj, byteAt_kretSlot how hp hr⟩
    case pc => cases how <;> rfl

end Sys2Proof.Machine
end

section
/-! SUPPORT. The vector instructions of one source and the reductions, and O35. -/

namespace Sys2Proof.Machine

section
variable {s s' u : State} {ty : LaneTy} {d a : Reg} (ht : TakesV [a] [] d s s')
include ht

/-- An instruction of one source is its lane operation on the lanes of that source, then its end (R345). -/
theorem vec1_of_takes {t : Nat} {f : State → Nat → Nat × Nat}
    (hend : Ends (endV t d (mapLanes ty (f s') (vval s' a)).1 (realFlags s' ty.width [a] (mapLanes ty (f s') (vval s' a)).2)
      (realBits s')) s' () u) :
    vec1 t ty d a f s = .next u :=
  vecFed_of_takes ht hend

/-- A reduction is the tree over the lanes of its source, then its end in one turn (R94, R372). -/
theorem vecRed_of_takes {f : State → Nat → Nat → Nat × Nat}
    (hend : Ends (endV 1 d (packetOf ty [(treeReduce (f s') 6 (lanesOf ty (vval s' a))).1])
      [(treeReduce (f s') 6 (lanesOf ty (vval s' a))).2] (2 ^ 512 - 1)) s' () u) :
    vecRed ty d a f s = .next u :=
  vecFed_of_takes ht hend

end

/-- Settles O35: each row is the frame of one source or of a reduction, with its own lane operation. -/
theorem vectorSingleResults : Obligations.VectorSingleResults := by
  unfold Obligations.VectorSingleResults
  intro s s' u rm ty d a ht
  refine ⟨?abs, ?neg, ?rcp, ?rsq, ?exp2, ?log2, ?sin, ?cos, ?sum, ?max, ?min⟩
  case abs => exact fun hend => vec1_of_takes ht hend
  case neg => exact fun hend => vec1_of_takes ht hend
  case rcp => exact fun hend => vec1_of_takes ht hend
  case rsq => exact fun hend => vec1_of_takes ht hend
  case exp2 => exact fun hend => vec1_of_takes ht hend
  case log2 => exact fun hend => vec1_of_takes ht hend
  case sin => exact fun hend => vec1_of_takes ht hend
  case cos => exact fun hend => vec1_of_takes ht hend
  case sum => exact fun hend => vecRed_of_takes ht hend
  case max => exact fun hend => vecRed_of_takes ht hend
  case min => exact fun hend => vecRed_of_takes ht hend

end Sys2Proof.Machine
end

section
/-! SUPPORT. The accumulators of a seat over one A row (R95, R209, R211), and O43. -/

namespace Sys2Proof.Machine

/-! ### Accumulators -/

/-- An erased key is unlisted. -/
@[simp] theorem mapFind_mapErase_self (m : Map β) (k : Nat) : mapFind (mapErase m k) k = none := by
  induction m with
  | nil => rfl
  | cons p r ih =>
    obtain ⟨j, b⟩ := p
    by_cases hj : j = k
    · rw [mapErase, List.filter_cons_of_neg (by simp [hj])]
      exact ih
    · rw [mapErase, List.filter_cons_of_pos (by simp [hj]), mapFind, if_neg hj]
      exact ih

/-- Erasing a key leaves the others alone. -/
theorem mapFind_mapErase_of_ne (m : Map β) {k j : Nat} (h : j ≠ k) : mapFind (mapErase m k) j = mapFind m j := by
  induction m with
  | nil => rfl
  | cons p r ih =>
    obtain ⟨i, b⟩ := p
    by_cases hi : i = k
    · have hij : i ≠ j := fun hij => h (hij.symm.trans hi)
      rw [mapErase, List.filter_cons_of_neg (by simp [hi]), mapFind, if_neg hij]
      exact ih
    · rw [mapErase, List.filter_cons_of_pos (by simp [hi]), mapFind, mapFind]
      exact congrArg (fun x => if i = j then some b else x) ih

/-- An accumulator of a seat's sub-tile, 0 where none is listed. -/
def accAt (m : Map Nat) (k : Nat) : Nat := (mapFind m k).getD 0

@[simp] theorem accAt_setAcc_self (m : Map Nat) (k v : Nat) : accAt (setAcc m k v) k = v := by
  rw [accAt, setAcc]
  split
  · next hv => simp [hv]
  · simp

theorem accAt_setAcc_of_ne (m : Map Nat) {k j : Nat} (v : Nat) (h : j ≠ k) : accAt (setAcc m k v) j = accAt m j := by
  rw [accAt, setAcc]
  split
  · rw [mapFind_mapErase_of_ne m h, accAt]
  · rw [mapFind_mapSet_of_ne m v h, accAt]

/-! ### The dot product and its accumulation -/

/-- The dot product is the sum of the products of corresponding values. -/
theorem dot_eq_sum_zipWith (as bs : List Int) : dot as bs = (as.zipWith (· * ·) bs).sum := by
  induction as generalizing bs with
  | nil => rfl
  | cons a as ih =>
    cases bs with
    | nil => rfl
    | cons b bs => rw [dot, ih, List.zipWith_cons_cons, List.sum_cons]

/-- In EXACT mode the accumulator gains the sum modulo 2^40 (R95). -/
theorem coe_accumulate_exact (acc : Nat) (sum : Int) (sA sB : Nat) :
    (accumulate true acc sum sA sB : Int) = (signed40 acc + sum) % (2 ^ 40 : Nat) :=
  Int.toNat_of_nonneg (Int.emod_nonneg _ (by decide))

/-! ### One A row -/

/-- The columns of the macros that take part (R208, R211). -/
def rowColumns (x : Seat) : List Nat := (List.range 1024).filter (fun col => x.macros / 2 ^ (col / 256) % 2 == 1)

theorem mem_rowColumns {x : Seat} {col : Nat} : col ∈ rowColumns x ↔ col < 1024 ∧ x.macros / 2 ^ (col / 256) % 2 = 1 := by
  simp [rowColumns]

theorem nodup_rowColumns (x : Seat) : (rowColumns x).Nodup := List.nodup_range.filter _

/-- What an A row makes of one column's accumulator (R211). -/
def columnValue (un : BerylUnit) (x : Seat) (bytes sA col acc : Nat) : Nat :=
  let b := bankOf un (2 * (col / 256) + x.bank)
  accumulate x.exact acc (dot (aValues x bytes) (bValues x b (col % 256))) sA (memRead b.bytes (65536 + 2 * (col % 256)) 2)

theorem columnValue_eq (un : BerylUnit) (x : Seat) (bytes sA col acc : Nat) :
    columnValue un x bytes sA col acc =
      accumulate x.exact acc ((aValues x bytes).zipWith (· * ·) (bValues x (bankOf un (2 * (col / 256) + x.bank)) (col % 256))).sum sA
        (memRead (bankOf un (2 * (col / 256) + x.bank)).bytes (65536 + 2 * (col % 256)) 2) := by
  rw [columnValue, dot_eq_sum_zipWith]

/-- The accumulators after one column. -/
def addColumn (un : BerylUnit) (x : Seat) (row bytes sA : Nat) (m : Map Nat) (col : Nat) : Map Nat :=
  setAcc m (row * 1024 + col) (columnValue un x bytes sA col (accAt m (row * 1024 + col)))

section
variable (un : BerylUnit) (x : Seat) (row bytes sA : Nat)

/-- A row takes its columns one by one, and changes nothing else of its seat. -/
theorem addRow_eq :
    addRow un x row bytes sA = { x with acc := (rowColumns x).foldl (addColumn un x row bytes sA) x.acc } := by
  rw [addRow]
  rfl

theorem acc_addRow : (addRow un x row bytes sA).acc = (rowColumns x).foldl (addColumn un x row bytes sA) x.acc := by
  rw [addRow_eq]

theorem addRow_frame : addRow un x row bytes sA = { x with acc := (addRow un x row bytes sA).acc } := by
  rw [acc_addRow, addRow_eq]

/-- Columns leave every accumulator alone that is none of theirs. -/
theorem accAt_foldl_addColumn_of_ne {cols : List Nat} {k : Nat} (hk : ∀ col ∈ cols, k ≠ row * 1024 + col) (m : Map Nat) :
    accAt (cols.foldl (addColumn un x row bytes sA) m) k = accAt m k := by
  induction cols generalizing m with
  | nil => rfl
  | cons c cols ih =>
    obtain ⟨hc, hcols⟩ := List.forall_mem_cons.1 hk
    rw [List.foldl_cons, ih hcols, addColumn, accAt_setAcc_of_ne _ _ hc]

/-- Each column adds to its own accumulator, as the row found it. -/
theorem accAt_foldl_addColumn_of_mem {cols : List Nat} {col : Nat} (hnd : cols.Nodup) (hcol : col ∈ cols) (m : Map Nat) :
    accAt (cols.foldl (addColumn un x row bytes sA) m) (row * 1024 + col) =
      columnValue un x bytes sA col (accAt m (row * 1024 + col)) := by
  induction cols generalizing m with
  | nil => cases hcol
  | cons c cols ih =>
    obtain ⟨hc, hcols⟩ := List.nodup_cons.1 hnd
    rw [List.foldl_cons]
    by_cases heq : col = c
    · subst heq
      have hothers : ∀ j ∈ cols, row * 1024 + col ≠ row * 1024 + j := by
        intro j hj hkey
        exact hc (Nat.add_left_cancel hkey ▸ hj)
      rw [accAt_foldl_addColumn_of_ne un x row bytes sA hothers, addColumn, accAt_setAcc_self]
    · have hkey : row * 1024 + col ≠ row * 1024 + c := fun h => heq (Nat.add_left_cancel h)
      rw [ih hcols (List.mem_of_ne_of_mem heq hcol), addColumn, accAt_setAcc_of_ne _ _ hkey]

/-- A column that takes part gains what its column of the bank and the row give. -/
theorem accAt_addRow_of_mem {col : Nat} (hcol : col ∈ rowColumns x) :
    accAt (addRow un x row bytes sA).acc (row * 1024 + col) = columnValue un x bytes sA col (accAt x.acc (row * 1024 + col)) := by
  rw [acc_addRow, accAt_foldl_addColumn_of_mem un x row bytes sA (nodup_rowColumns x) hcol]

/-- Every accumulator outside the columns that take part is as it was. -/
theorem accAt_addRow_of_ne {k : Nat} (hk : ∀ col ∈ rowColumns x, k ≠ row * 1024 + col) :
    accAt (addRow un x row bytes sA).acc k = accAt x.acc k := by
  rw [acc_addRow, accAt_foldl_addColumn_of_ne un x row bytes sA hk]

end

/-- Settles O43: a row is a fold over its columns, which are distinct, so that each accumulator is written once at most. -/
theorem rowAddsDotProducts : Obligations.RowAddsDotProducts := by
  unfold Obligations.RowAddsDotProducts
  intro un x row bytes sA y at'
  refine ⟨addRow_frame un x row bytes sA, fun col hlt hmacro => ?taking, fun k hk => ?others⟩
  case taking =>
    intro b sum
    have hvalue : at' y (row * 1024 + col) =
        accumulate x.exact (at' x (row * 1024 + col)) sum sA (memRead b.bytes (65536 + 2 * (col % 256)) 2) :=
      (accAt_addRow_of_mem un x row bytes sA (mem_rowColumns.2 ⟨hlt, hmacro⟩)).trans (columnValue_eq ..)
    exact ⟨hvalue, fun hexact => by rw [hvalue, hexact, coe_accumulate_exact]⟩
  case others =>
    refine accAt_addRow_of_ne un x row bytes sA fun col hcol hkey => ?_
    obtain ⟨hlt, hmacro⟩ := mem_rowColumns.1 hcol
    subst hkey
    rw [Nat.add_sub_cancel_left] at hk
    omega

end Sys2Proof.Machine
end

section
/-! SUPPORT. A check of an access that fails, and one that passes; O26. -/

namespace Sys2Proof.Machine

/-- A check that fails traps before what follows. -/
theorem traps_ite_trapWith {α β : Type} {c : Prop} [Decidable c] {code : TrapCode} {addr aux : Word} {sg : Nat} {s : State}
    {f : α → Exec β} {m : Exec β} (h : c) :
    Traps (if c then trapWith code addr aux sg >>= f else m) s ⟨code, addr, aux, sg⟩ s := by
  rw [if_pos h]
  exact traps_bind_iff.2 (.inl ((traps_trapWith ..).2 ⟨rfl, rfl⟩))

/-- A check that passes leaves the trap to what follows. -/
theorem traps_ite_of_neg {α : Type} {c : Prop} [Decidable c] {m n : Exec α} {s s' : State} {t : TrapInfo} (h : ¬ c)
    (hn : Traps n s t s') : Traps (if c then m else n) s t s' := (run_ite_of_neg h).trans hn

theorem traps_get_bind {α : Type} {f : State → Exec α} {s s' : State} {t : TrapInfo} (h : Traps (f s) s t s') :
    Traps ((get : Exec State) >>= f) s t s' := (run_get_bind f s).trans h

theorem checkAccess_traps_of_checkSegment {x : Access} {s s' : State} {t : TrapInfo} (h : Traps (checkSegment x) s t s') :
    Traps (checkAccess x) s t s' := traps_bind_iff.2 (.inl h)

/-- Settles O26: each check of R98 is one branch of `checkSegment`, decided where the branches before it are not taken. -/
theorem segmentChecksInOrder : Obligations.SegmentChecksInOrder := by
  unfold Obligations.SegmentChecksInOrder
  intro s x inside mayLoad mayStore barred
  have hload : (x.load && !x.seg.r) = !mayLoad := by simp [mayLoad]
  have hstore : (x.store && !x.seg.w) = !mayStore := by simp [mayStore]
  have hbarred : (decide (x.seg.space = 2) && (x.isAmo || scratchBarred s x)) = barred := rfl
  refine ⟨fun h1 => ?limit, fun h1 h2 => ?read, fun h1 h2 h3 => ?write, fun h1 h2 h3 h4 => ?scratch, fun h1 h2 h3 h4 h5 => ?align⟩ <;>
    refine checkAccess_traps_of_checkSegment (traps_get_bind ?_) <;>
    rw [hload, hstore, hbarred, show x.spans.all (inSegment x.seg) = inside from rfl, h1]
  case limit => exact traps_ite_trapWith rfl
  case read => exact traps_ite_of_neg (by simp) (traps_ite_trapWith (by rw [h2]; rfl))
  case write => exact traps_ite_of_neg (by simp) (traps_ite_of_neg (by simp [h2]) (traps_ite_trapWith (by rw [h3]; rfl)))
  case scratch =>
    exact traps_ite_of_neg (by simp) (traps_ite_of_neg (by simp [h2]) (traps_ite_of_neg (by simp [h3]) (traps_ite_trapWith h4)))
  case align =>
    refine traps_ite_of_neg (by simp) (traps_ite_of_neg (by simp [h2]) (traps_ite_of_neg (by simp [h3])
      (traps_ite_of_neg (by simp [h4]) ?_)))
    rw [if_pos h5]
    exact (traps_trapWith ..).2 ⟨rfl, rfl⟩
end Sys2Proof.Machine
end

section
/-! SUPPORT. Actions that end, one after the other, and the loads as such chains; O24. -/

namespace Sys2Proof.Machine

theorem Ends.bind {α β : Type} {m : Exec α} {f : α → Exec β} {s t u : State} {a : α} {b : β} (h : Ends m s a t)
    (hf : Ends (f a) t b u) : Ends (m >>= f) s b u := (ends_bind h).trans hf

theorem ends_get_bind {β : Type} {f : State → Exec β} {s u : State} {b : β} (h : Ends (f s) s b u) :
    Ends ((get : Exec State) >>= f) s b u := (run_get_bind f s).trans h

theorem ends_modify_bind {β : Type} {g : State → State} {f : PUnit → Exec β} {s u : State} {b : β} (h : Ends (f ⟨⟩) (g s) b u) :
    Ends ((modify g : Exec PUnit) >>= f) s b u := (run_modify_bind g f s).trans h

theorem ends_ite_of_neg {α : Type} {c : Prop} [Decidable c] {m n : Exec α} {s u : State} {a : α} (h : ¬ c) (hn : Ends n s a u) :
    Ends (if c then m else n) s a u := (run_ite_of_neg h).trans hn

theorem ends_ite_of_pos {α : Type} {c : Prop} [Decidable c] {m n : Exec α} {s u : State} {a : α} (h : c) (hm : Ends m s a u) :
    Ends (if c then m else n) s a u := (run_ite_of_pos h).trans hm

theorem ends_tryCatch {α : Type} {m : Exec α} {s t : State} {a : α} (h : Ends m s a t) (f : Halt → Exec α) :
    Ends (tryCatch m f) s a t := by
  have h' : m s = (Except.ok a, t) := h
  simp only [Ends, tryCatch, tryCatchThe, MonadExceptOf.tryCatch, ExceptT.tryCatch, ExceptT.run, ExceptT.mk]
  change StateT.bind m _ s = _
  simp only [StateT.bind, h']
  rfl

theorem ends_awaitRoom_of_room {s : State} {slot die : Nat} (h : (slotOf s s.cur.core slot).buffered < 8) :
    Ends (awaitRoom slot die) s () s := ends_get_bind (ends_ite_of_neg h.not_ge rfl)

theorem widenG_eq (f : Fmt) (v : Nat) : widenG f v = match f with
        | .s8 => (BitVec.ofNat 8 v).signExtend 64
        | .s16 => (BitVec.ofNat 16 v).signExtend 64
        | .s32 => (BitVec.ofNat 32 v).signExtend 64
        | _ => BitVec.ofNat 64 v := by cases f <;> rfl

theorem effective_zero (s : State) (a : Reg) (n : Nat) : effective s a 0 n = (gval s a).toNat := by
  simp [effective]

section
variable {s s1 s2 s3 : State} {d a : Reg} {sg : SReg} {f : Fmt} {disp : BitVec 8} {ps : List Piece} {v : Nat}

theorem loadScalar_ends {acquire : Bool}
    (ht : Takes [a] (some d) s s1)
    (hc : Ends (checkAccess (loadAccess s1 sg.toNat (effective s1 a disp (Fmt.bytes f)) (Fmt.bytes f))) s1 ps s2)
    (hl : Ends (loadBytes (loadAccess s1 sg.toNat (effective s1 a disp (Fmt.bytes f)) (Fmt.bytes f)) ps
      (.load acquire ps (.g d f))) s2 v s3) :
    Ends (loadScalar acquire d sg a f disp) s () (writesG 1 d (widenG f v)
      (if acquire then closeCombining (threadId s1.cur.core s1.cur.slot) s3 else s3)) := by
  refine ht.bind (ends_get_bind (hc.bind (hl.bind ?_)))
  cases acquire <;> rfl

theorem execLea_of_inside (ht : Takes [a] (some d) s s1)
    (h : inSegment (curSeg s1 sg.toNat) (effective s1 a disp (Fmt.bytes f), Fmt.bytes f) = true) :
    execLea d sg a f disp s = .next (writesG 1 d (BitVec.ofInt 64 (effective s1 a disp (Fmt.bytes f))) s1) := by
  refine run_of_ends (ht.bind (ends_get_bind (ends_ite_of_neg ?_ rfl)))
  rw [show inSegment (ownAccess s1 _ _ _ _ _ _).seg _ = true from h]
  decide

theorem execPref_of_takes (ht : Takes [a] none s s1) : execPref sg a s = .next (endFall 1 s1) :=
  run_of_ends (ht.bind rfl)

theorem execLdv_of_register {s0 : State} {x : Access} (ht : Takes [a] none s s0) (hr : Ends (reserveV d) s0 () s1)
    (hx : packetAccess s1 sg a f disp (niFetched f (curSlot s1).frm) false = x) (hc : Ends (checkAccess x) s1 ps s2)
    (hn : findStream s2 s2.cur.core s2.cur.slot d.toNat = none)
    (hl : Ends (loadBytes x ps (.load false ps (.v d f []))) (withAccess s2 x) v s3) :
    execLdv d sg a f disp s = .next (endFall 1 (putV (wbPoint s3 1) d (packetOfBytes f (curSlot s1).frm (Fmt.lanes f) v) s3)) := by
  subst hx
  have hopen : Ends (openPush d) s2 none s2 := ends_get_bind (by rw [hn]; rfl)
  exact run_of_ends (ht.bind (hr.bind (ends_get_bind (hc.bind (hopen.bind (ends_modify_bind ((ends_tryCatch hl _).bind rfl)))))))

theorem execLdv_of_stream {s0 s4 t : State} {x : Access} {p : Push} (ht : Takes [a] none s s0) (hr : Ends (reserveV d) s0 () s1)
    (hx : packetAccess s1 sg a f disp (niFetched f (curSlot s1).frm) false = x) (hc : Ends (checkAccess x) s1 ps s2)
    (hopen : Ends (openPush d) s2 (some p) s4) (hroom : (slotOf s4 s4.cur.core p.binder).buffered < 8)
    (hl : Ends (loadBytes x ps (.load false ps (.v d f p.pieces))) (withAccess s4 x) v s3)
    (hp : Ends (p.perform (wbPoint s1 1) (packetOfBytes f (curSlot s1).frm (Fmt.lanes f) v) 0) s3 () t) :
    execLdv d sg a f disp s = .next (endFall 1 t) := by
  subst hx
  have hawait : Ends (awaitRoom p.binder 0)
      (withAccess s4 (packetAccess s1 sg a f disp (niFetched f (curSlot s1).frm) false)) () _ := ends_awaitRoom_of_room hroom
  exact run_of_ends (ht.bind (hr.bind (ends_get_bind (hc.bind (hopen.bind (ends_modify_bind (hawait.bind
    ((ends_tryCatch hl _).bind (hp.bind rfl)))))))))

/-- The access of LDX (R314): n dwords, each a run of its own. -/
def dwordsAccess (s : State) (sg : Nat) (off : Int) (n : Nat) : Access :=
  { ownAccess s sg off (8 * n) 8 true false with spans := (List.range n).map (fun (j : Nat) => (off + 8 * (j : Int), 8)) }

theorem execLdx_of_ends {e : EReg} {cnt : BitVec 4} {x : Access} (ht : Takes [a] none s s1)
    (hx : dwordsAccess s1 sg.toNat (effective s1 a disp 8) (cnt.toNat + 1) = x) (hst : (slotOf s2 x.core x.slot).stores = [])
    (hc : Ends (checkAccess x) s1 ps s2) (hl : Ends (loadBytes x ps (.load false ps (.e e.toNat (cnt.toNat + 1)))) s2 v s3) :
    execLdx e cnt sg a disp s =
      .next (endFall 1 (putERun e.toNat ((cutBits 64 v (cnt.toNat + 1)).map (BitVec.ofNat 64)) s3)) := by
  subst hx
  have hnone : ps.all (fun p => forward [] [p] == .none) = true := by simp [forward]
  have hdwords : Ends (execLdx.loadDwords e (dwordsAccess s1 sg.toNat (effective s1 a disp 8) (cnt.toNat + 1)) ps (cnt.toNat + 1)) s2
      (cutBits 64 v (cnt.toNat + 1)) s3 :=
    ends_get_bind (ends_ite_of_pos (by rw [hst]; exact hnone) (hl.bind rfl))
  exact run_of_ends (ht.bind (ends_get_bind (hc.bind (hdwords.bind rfl))))

end

/-- Settles O24: each load is its operand, the checks and the bytes one after the other, and its write follows. -/
theorem loadResults : Obligations.LoadResults := by
  unfold Obligations.LoadResults
  intro s s1 s2 s3 d a sg f disp ps v
  refine ⟨fun ht => ⟨fun hc hl => ?ld, fun hc hl => ?acq, fun h0 h64 hlim htop => ?lea⟩, fun ht hc hl => ?short,
    fun s0 ht hr hc => ⟨fun hn hl => ?register, fun p s4 t ho hroom hl hp => ?stream⟩, fun e cnt ht hst hc hl => ?ldx, fun ht => ?pref⟩
  case ld => exact (run_of_ends (loadScalar_ends ht hc hl)).trans (by rw [widenG_eq]; rfl)
  case acq => exact (run_of_ends (loadScalar_ends ht hc hl)).trans (by rw [widenG_eq]; rfl)
  case lea => exact execLea_of_inside ht (by simpa [inSegment, and_assoc] using ⟨h0, h64, hlim, htop⟩)
  case short =>
    rw [← effective_zero s1 a 8] at hc hl
    exact run_of_ends (loadScalar_ends ht hc hl)
  case register => exact execLdv_of_register ht hr rfl hc hn hl
  case stream => exact execLdv_of_stream ht hr rfl hc ho hroom hl hp
  case ldx => exact execLdx_of_ends ht rfl hst hc hl
  case pref => exact execPref_of_takes (sg := sg) ht

end Sys2Proof.Machine
end

section
/-! SUPPORT. A scratchpad store behind a buffered store that a FENCE has marked; refutes O28. -/

namespace Sys2Proof.Machine

/-- A thread with a scratchpad segment of 256 bytes, whose buffer still holds a store of DIE class that a FENCE.REL has marked (R125). -/
def fencedScratch : State :=
  setSlot {} 0 0 {
    sg := Vector.replicate 8 { limit := 256, attrs := 0x0E }
    stores := [{ seq := 0, cls := .die, die := 0, kind := .plain, writes := [⟨⟨.hbm 0x100000, 8, none⟩, 0, fullMask 8⟩], release := false,
                 barrier := some 1, fence := .sys }] }

/-- A scratchpad store waits MEM for the store that the FENCE has put before it (R125, R131 note 2). -/
theorem wait_after_st_fencedScratch :
    (match exec (.st 1 0 2 .s64 0) fencedScratch with
      | .next t => some (curSlot t).wait.reason
      | _ => none) = some .mem := by decide

theorem takes_fencedScratch : Takes [2, 1] none fencedScratch fencedScratch :=
  takes_of_unbound (by decide) (by decide)

/-- An instruction that ends leaves its thread waiting for nothing. -/
theorem wait_endFall (n : Nat) (s : State) : (curSlot (endFall n s)).wait = {} := by
  rw [endFall, curSlot_setCurSlot]
  rfl

/-- Refutes O28: the statement supposes nothing about the buffer of the thread, and a buffered store that a FENCE has put before every later
access holds back a scratchpad store too, which waits MEM. -/
theorem not_scratchStore : ¬ Obligations.ScratchStore := by
  unfold Obligations.ScratchStore
  intro h
  obtain ⟨s2, hexec, -⟩ := h fencedScratch fencedScratch 1 2 0 .s64 0 takes_fencedScratch rfl (by decide) (by decide) (by decide) (by decide)
    (by decide) (by decide) (by decide)
  have hwait := wait_after_st_fencedScratch
  simp only [hexec, wait_endFall] at hwait
  revert hwait
  decide
end Sys2Proof.Machine
end

section
/-! SUPPORT. TSET and TSTAT, check by check (R101 to R103, R360, R361); O44. -/

namespace Sys2Proof.Machine

section
variable {α β : Type} {m : Exec α} {f : α → Exec β} {s s' t : State} {a : α} {w : WaitState} {p : Pending}

theorem Ends.bind_traps {i : TrapInfo} (h : Ends m s a t) (hf : Traps (f a) t i s') : Traps (m >>= f) s i s' :=
  traps_bind_iff.2 (.inr ⟨a, t, h, hf⟩)

theorem Ends.bind_waits (h : Ends m s a t) (hf : Waits (f a) t w p s') : Waits (m >>= f) s w p s' :=
  waits_bind_iff.2 (.inr ⟨a, t, h, hf⟩)

theorem Waits.bind (h : Waits m s w p s') (f : α → Exec β) : Waits (m >>= f) s w p s' := waits_bind_iff.2 (.inl h)

theorem waits_get_bind {f : State → Exec α} (h : Waits (f s) s w p s') : Waits ((get : Exec State) >>= f) s w p s' :=
  (run_get_bind f s).trans h

theorem waits_ite_of_neg {c : Prop} [Decidable c] {n : Exec α} (h : ¬ c) (hn : Waits n s w p s') :
    Waits (if c then m else n) s w p s' := (run_ite_of_neg h).trans hn

theorem waits_ite_of_pos {c : Prop} [Decidable c] {n : Exec α} (h : c) (hm : Waits m s w p s') :
    Waits (if c then m else n) s w p s' := (run_ite_of_pos h).trans hm
end

/-- The end of a TSET (R102): its status is what g[d] gets. -/
def endsStatus (d : Reg) (status : Nat) (s : State) : State := endFall 1 (putG (wbPoint s 1) d (BitVec.ofNat 64 status) s)

theorem tileWaitOver_needIdle (c : Core) (n : Nat) :
    tileWaitOver c n needIdle = true ↔ (tileOf c n).state ≠ .filling ∧ (tileOf c n).state ≠ .draining := by
  simp [tileWaitOver]

theorem awaitTile_ends {s : State} {n need : Nat} (h : tileWaitOver (curCore s) n need = true) :
    Ends (awaitTile n need) s () (observe (tileOf (curCore s) n) s) :=
  ends_get_bind (ends_ite_of_neg (by simp [h]) rfl)

theorem awaitTile_waits_of_not_over {s : State} {n need : Nat} (h : tileWaitOver (curCore s) n need = false) :
    Waits (awaitTile n need) s { reason := .tile, peer := n, key := need } .none s :=
  waits_get_bind (waits_ite_of_pos (by simp [h]) rfl)

/-- Acquiring moves no writeback point. -/
theorem wbPoint_observe (t : Tile) (s : State) (n : Nat) : wbPoint (observe t s) n = wbPoint s n := by
  rw [observe]
  split <;> rfl

theorem tset_install_bad {n : Nat} {t : Tile} {d0 d1 : Word} (h : installed n d0 d1 = none) : tset n 0 t d0 d1 = (1, none) := by
  simp [tset, h]

theorem tset_install {n : Nat} {t t' : Tile} {d0 d1 : Word} (h : installed n d0 d1 = some t') :
    tset n 0 t d0 d1 = (0, some t') := by simp [tset, h]

theorem tset_ready (n : Nat) (t : Tile) (d0 d1 : Word) :
    tset n 2 t d0 d1 = if t.size ≠ 0 ∧ t.state = .empty then (0, some { t with state := .ready }) else (2, none) := rfl

theorem tset_failed (n : Nat) (t : Tile) (d0 d1 : Word) :
    tset n 4 t d0 d1 = if t.size ≠ 0 ∧ (t.state = .empty ∨ t.state = .ready) then
      (0, some { t with state := .failed, status := 0x00FF }) else (2, none) := rfl

section
variable {s s1 : State} {d a b : Reg} {e : EReg}

theorem execTset_of_entry (ht : Takes [a, b] (some d) s s1) (h0 : (gval s1 b).toNat ≠ 0) (he : e ≠ 0) :
    execTset d a b e s = .next (takeTrap ⟨.illegal, 0, illegalAux s1, 0⟩ s1) :=
  run_of_traps (ht.bind_traps (traps_get_bind (traps_ite_illegal ⟨h0, he⟩)))

section
variable (ht : Takes [a, b] (some d) s s1) (he : (gval s1 b).toNat = 0 ∨ e = 0)
include ht he

theorem execTset_of_no_tile (hn : garnet ≤ s1.cur.core ∨ 63 < (gval s1 a).toNat) :
    execTset d a b e s = .next (endsStatus d 3 s1) :=
  run_of_ends (ht.bind (ends_get_bind (ends_ite_of_neg (by tauto) (ends_ite_of_pos (by simpa using hn) rfl))))

variable (hc : s1.cur.core < garnet) (hn : (gval s1 a).toNat ≤ 63)
include hc hn

theorem execTset_of_bad_state (hk : (gval s1 b).toNat = 1 ∨ (gval s1 b).toNat = 3 ∨ 4 < (gval s1 b).toNat) :
    execTset d a b e s = .next (endsStatus d 2 s1) :=
  run_of_ends (ht.bind (ends_get_bind (ends_ite_of_neg (by tauto) (ends_ite_of_neg (by simp; omega)
    (ends_ite_of_pos (by simpa [or_assoc] using hk) rfl)))))

variable {k : Nat} (hb : (gval s1 b).toNat = k) (hk : k = 0 ∨ k = 2 ∨ k = 4)
include hb hk

theorem execTset_waits (hw : tileWaitOver (curCore s1) (gval s1 a).toNat needIdle = false) :
    execTset d a b e s = .next (takeWait { reason := .tile, peer := (gval s1 a).toNat, key := 3 } .none s1) :=
  run_of_waits (ht.bind_waits (waits_get_bind (waits_ite_of_neg (by tauto) (waits_ite_of_neg (by simp; omega)
    (waits_ite_of_neg (by simp; omega) ((awaitTile_waits_of_not_over hw).bind _))))))

variable (hw : tileWaitOver (curCore s1) (gval s1 a).toNat needIdle = true)
include hw

theorem execTset_of_unchanged {status : Nat}
    (hr : tset (gval s1 a).toNat k (tileSoon (curCore s1) (gval s1 a).toNat) (eval s1 e.toNat) (eval s1 (e.toNat + 1)) = (status, none)) :
    execTset d a b e s = .next (endsStatus d status (observe (tileOf (curCore s1) (gval s1 a).toNat) s1)) := by
  subst hb
  refine run_of_ends (ht.bind (ends_get_bind (ends_ite_of_neg (by tauto) (ends_ite_of_neg (by simp; omega)
    (ends_ite_of_neg (by simp; omega) ((awaitTile_ends hw).bind ?_))))))
  rw [hr]
  rfl

theorem execTset_of_changed {t' : Tile}
    (hr : tset (gval s1 a).toNat k (tileSoon (curCore s1) (gval s1 a).toNat) (eval s1 e.toNat) (eval s1 (e.toNat + 1)) = (0, some t')) :
    execTset d a b e s = .next (endsStatus d 0
      (addWb (wbPoint s1 1) (.tile (gval s1 a).toNat t') (observe (tileOf (curCore s1) (gval s1 a).toNat) s1))) := by
  subst hb
  refine run_of_ends (ht.bind (ends_get_bind (ends_ite_of_neg (by tauto) (ends_ite_of_neg (by simp; omega)
    (ends_ite_of_neg (by simp; omega) ((awaitTile_ends hw).bind ?_))))))
  rw [hr, ← wbPoint_observe (tileOf (curCore s1) (gval s1 a).toNat)]
  rfl

end

theorem execTstat_of_no_tile (ht : Takes [a] (some d) s s1) (hn : garnet ≤ s1.cur.core ∨ 63 < (gval s1 a).toNat) :
    execTstat d a s = .next (writesG 1 d (BitVec.allOnes 64) s1) :=
  run_of_ends (ht.bind ((ends_modify ..).2 (if_pos (by simpa using hn))))

theorem execTstat_of_tile (ht : Takes [a] (some d) s s1) (hc : s1.cur.core < garnet) (hn : (gval s1 a).toNat ≤ 63) :
    execTstat d a s = .next (writesG 1 d (tileOf (curCore s1) (gval s1 a).toNat).word
      (observe (tileOf (curCore s1) (gval s1 a).toNat) s1)) := by
  refine run_of_ends (ht.bind ((ends_modify ..).2 ?_))
  rw [if_neg (by simp; omega), writesG, wbPoint_observe]

end

/-- Settles O44: TSET makes its checks in order and then does what `tset` says; TSTAT reads the tile at issue. -/
theorem tileInstructionResults : Obligations.TileInstructionResults := by
  unfold Obligations.TileInstructionResults
  intro s s1 d a b e n k t soon ends s2
  refine ⟨fun ht => ⟨fun hk he => execTset_of_entry ht hk he, fun he => ⟨fun hn => execTset_of_no_tile ht he hn, fun hc hn =>
    ⟨fun hk => execTset_of_bad_state ht he hc hn hk, fun hk hbusy => ?waits, fun h1 h3 => ?idle⟩⟩⟩,
    fun ht => ⟨fun hn => execTstat_of_no_tile ht hn, fun hc hn => execTstat_of_tile ht hc hn⟩⟩
  case waits =>
    refine execTset_waits ht he hc hn rfl hk ?_
    rw [← Bool.not_eq_true, tileWaitOver_needIdle]
    tauto
  case idle =>
    have hw := (tileWaitOver_needIdle (curCore s1) n).2 ⟨h1, h3⟩
    have hunchanged := fun {status k} hk hk' => execTset_of_unchanged (k := k) (status := status) ht he hc hn hk hk' hw
    have hchanged := fun {t' k} hk hk' => execTset_of_changed (k := k) (t' := t') ht he hc hn hk hk' hw
    exact ⟨fun hk hbad => hunchanged hk (.inl rfl) (tset_install_bad hbad),
      fun t' hk hgood => hchanged hk (.inl rfl) (tset_install hgood),
      fun hk hs he' => hchanged hk (.inr (.inl rfl)) ((tset_ready ..).trans (if_pos ⟨hs, he'⟩)),
      fun hk hno => hunchanged hk (.inr (.inl rfl)) ((tset_ready ..).trans (if_neg (by tauto))),
      fun hk hs he' => hchanged hk (.inr (.inr rfl)) ((tset_failed ..).trans (if_pos ⟨hs, he'⟩)),
      fun hk hno => hunchanged hk (.inr (.inr rfl)) ((tset_failed ..).trans (if_neg (by tauto)))⟩
end Sys2Proof.Machine
end

section
/-! SUPPORT. PIN and UNPIN (R107, R337); O32. -/

namespace Sys2Proof.Machine

theorem parcelOf_line (q : Nat) : 64 * (q / 64) / 2097152 = q / 2097152 := by omega

section
variable {s : State} {est q : Nat}

theorem pinLine_of_leaving (h : (entryOf s (parcelFrame (q / 2097152))).leaving = some est) : pinLine s est (q / 64) = (3, s) := by
  simp [pinLine, parcelOf_line, h]

/-- PIN of a line whose frame the estate is not leaving (R107). -/
theorem pinLine_cases (h : (entryOf s (parcelFrame (q / 2097152))).leaving ≠ some est) :
    (q / 64 ∈ (estateOf s est).pins ∧ pinLine s est (q / 64) = (0, s)) ∨
    (q / 64 ∉ (estateOf s est).pins ∧ (pinLine s est (q / 64) = (1, s) ∨ pinLine s est (q / 64) = (2, s) ∨
      pinLine s est (q / 64) = (0, setEstate s est { estateOf s est with pins := (estateOf s est).pins ++ [q / 64] }))) := by
  by_cases hp : q / 64 ∈ (estateOf s est).pins
  · exact .inl ⟨hp, by simp [pinLine, parcelOf_line, h, hp]⟩
  · refine .inr ⟨hp, ?_⟩
    rw [pinLine, parcelOf_line, if_neg (by simpa using h), if_neg (by simpa using hp)]
    dsimp only
    split
    next => exact .inl rfl
    next =>
      split
      next => exact .inr (.inl rfl)
      next => exact .inr (.inr rfl)
end

theorem ends_set_bind {β : Type} {f : PUnit → Exec β} {s t u : State} {b : β} (h : Ends (f ⟨⟩) t b u) :
    Ends ((set t : Exec PUnit) >>= f) s b u := ((ends_set ..).2 rfl : Ends (set t : Exec PUnit) s ⟨⟩ t).bind h

section
variable {s s1 : State} {d a : Reg} {sg : SReg} {x : Access}
variable (hx : ownAccess s1 sg.toNat (gval s1 a).toNat 64 64 true false = x)
variable (hin : x.spans.all (inSegment x.seg) = true) (hr : x.seg.r = true)
include hx hin hr

section
variable (ht : Takes [a] (some d) s s1) (hal : segAddr x.seg x.off % 64 = 0)
include ht hal

theorem execPin_of_space (hsp : x.seg.space ≠ 0) : execPin d sg a s = .next (writesG 1 d 3 s1) := by
  subst hx
  exact run_of_ends (ht.bind (ends_get_bind (ends_ite_of_neg (by simp only [hin]; decide) (ends_ite_of_neg (by simp [hr])
    (ends_ite_of_neg (not_not.2 hal) (ends_ite_of_pos hsp rfl))))))

section
variable (hsp : x.seg.space = 0) {p0 p1 : Word} {size : Nat} {s2 : State}
variable (hw : xlate s1 (clusterOf x.core) x.estate (segAddr x.seg x.off) (needs true false false) = (.page p0 p1 size, s2))
include hsp hw

theorem execPin_of_line {q : Nat} (hq : pteHome p0 p1 size (segAddr x.seg x.off) = .hbm q) (hp : q / 64 ∉ s2.hbmPoison)
    (hd : s2.cur.defer = false) :
    execPin d sg a s = .next (writesG 1 d (BitVec.ofNat 64 (pinLine s2 x.estate (q / 64)).1) (pinLine s2 x.estate (q / 64)).2) := by
  subst hx
  refine run_of_ends (ht.bind (ends_get_bind (ends_ite_of_neg (by simp only [hin]; decide) (ends_ite_of_neg (by simp [hr])
    (ends_ite_of_neg (not_not.2 hal) (ends_ite_of_neg (not_not.2 hsp) ?_))))))
  rw [hw]
  refine ends_set_bind ?_
  dsimp only
  rw [hq]
  exact ends_get_bind (ends_ite_of_neg (by simpa using hp) (ends_ite_of_neg (by simp [hd]) rfl))

theorem execPin_of_no_line (hq : ∀ q, pteHome p0 p1 size (segAddr x.seg x.off) ≠ .hbm q) :
    execPin d sg a s = .next (writesG 1 d 3 s2) := by
  subst hx
  refine run_of_ends (ht.bind (ends_get_bind (ends_ite_of_neg (by simp only [hin]; decide) (ends_ite_of_neg (by simp [hr])
    (ends_ite_of_neg (not_not.2 hal) (ends_ite_of_neg (not_not.2 hsp) ?_))))))
  rw [hw]
  refine ends_set_bind (Ends.bind rfl ?_)
  dsimp only
  split
  · next q hhome => exact absurd (Option.some.inj hhome) (hq q)
  · rfl
end
end

section
variable (ht : Takes [a] none s s1)
include ht

theorem execUnpin_of_space (hsp : x.seg.space ≠ 0) : execUnpin sg a s = .next (endFall 1 s1) := by
  subst hx
  exact run_of_ends (ht.bind (ends_get_bind (ends_ite_of_neg (by simp only [hin]; decide) (ends_ite_of_neg (by simp [hr])
    (ends_ite_of_neg hsp rfl)))))

theorem execUnpin_of_line (hsp : x.seg.space = 0) {level e q : Nat} {p0 p1 : Word} {ls : List Nat}
    (hw : walk s1 x.estate (segAddr x.seg x.off) = (.leaf level e p0 p1, ls))
    (hq : pteHome p0 p1 (pageBytes (pteSize p0)) (segAddr x.seg x.off) = .hbm q) :
    execUnpin sg a s = .next (endFall 1 (setEstate s1 x.estate
      { estateOf s1 x.estate with pins := (estateOf s1 x.estate).pins.filter (· != q / 64) })) := by
  subst hx
  refine run_of_ends (ht.bind (ends_get_bind (ends_ite_of_neg (by simp only [hin]; decide) (ends_ite_of_neg (by simp [hr])
    (ends_ite_of_pos hsp ?_)))))
  rw [hw]
  dsimp only
  rw [hq]
  rfl

theorem execUnpin_of_missing (hsp : x.seg.space = 0)
    (hw : ∀ level e p0 p1 ls, walk s1 x.estate (segAddr x.seg x.off) ≠ (.leaf level e p0 p1, ls)) :
    execUnpin sg a s = .next (endFall 1 s1) := by
  subst hx
  refine run_of_ends (ht.bind (ends_get_bind (ends_ite_of_neg (by simp only [hin]; decide) (ends_ite_of_neg (by simp [hr])
    (ends_ite_of_pos hsp ?_)))))
  split
  · next level e p0 p1 ls hwalk => exact absurd hwalk (hw level e p0 p1 ls)
  · rfl
end
end

/-- Settles O32: PIN does what `pinLine` says where a line is found, and UNPIN what its walk says. -/
theorem pinResults : Obligations.PinResults := by
  unfold Obligations.PinResults
  intro s s1 d a sg x va
  refine ⟨fun ht hin hr hal => ⟨execPin_of_space rfl hin hr ht hal, fun hsp p0 p1 size s2 hw => ⟨fun q hq hp hd => ?_,
    execPin_of_no_line rfl hin hr ht hal hsp hw⟩⟩, fun ht hin hr => ⟨execUnpin_of_space rfl hin hr ht,
    fun hsp e l p0 p1 ls q hw => execUnpin_of_line rfl hin hr ht hsp hw, fun hsp hw => execUnpin_of_missing rfl hin hr ht hsp hw⟩⟩
  have hpin := execPin_of_line rfl hin hr ht hal hsp hw hq hp hd
  refine ⟨fun hl => ?_, fun hl => ⟨_, _, hpin, ?_⟩⟩
  · rw [pinLine_of_leaving hl] at hpin
    exact hpin
  · rcases pinLine_cases hl with ⟨hmem, h⟩ | ⟨hmem, h | h | h⟩
      <;> rw [h]
    · simp [hmem]
    · simp [hmem]
    · simp [hmem]
    · exact ⟨by simp, by simp [hmem], by simp [estateOf_setEstate_self], by simp, rfl⟩
end Sys2Proof.Machine
end

section
/-! SUPPORT. Stores into lines of HBM of this package, and the leaf that a translation marks (R110, R112, R113, R240, R245); O33. -/

namespace Sys2Proof.Machine

theorem fullMask_succ_low (n : Nat) : BitVec.ofNat 8 (fullMask (n + 1)) = BitVec.allOnes 8 := by
  apply BitVec.eq_of_toNat_eq
  have : 2 ^ (8 * (n + 1)) = 256 * 2 ^ (8 * n) := by rw [show 8 * (n + 1) = 8 + 8 * n by ring, pow_add]; rfl
  have hpos := Nat.two_pow_pos (8 * n)
  rw [BitVec.toNat_ofNat, fullMask, this]
  simp
  omega

theorem fullMask_succ_div (n : Nat) : fullMask (n + 1) / 256 = fullMask n := by
  have : 2 ^ (8 * (n + 1)) = 256 * 2 ^ (8 * n) := by rw [show 8 * (n + 1) = 8 + 8 * n by ring, pow_add]; rfl
  have hpos := Nat.two_pow_pos (8 * n)
  rw [fullMask, fullMask, this]
  omega

theorem memMask_fullMask (n : Nat) : ∀ (m : Memory) (a v : Nat), memMask m a v (fullMask n) n = memWrite m a v n := by
  induction n with
  | zero => exact fun m a v => rfl
  | succ n ih =>
    intro m a v
    rw [memMask, memWrite, fullMask_succ_low, fullMask_succ_div, ih, BitVec.not_allOnes, BitVec.and_zero, BitVec.zero_or,
      BitVec.and_allOnes]

/-- The state but for what a store into HBM of this package can change. -/
def State.withoutHbm (s : State) : State :=
  { s with hbm := [], hbmPoison := [], lostLines := [], hostHeld := [], history := [], draws := 0 }

theorem withoutHbm_storeHome (s : State) (p n v k : Nat) : (storeHome s (.hbm p) n v k).withoutHbm = s.withoutHbm := by
  rw [storeHome]
  split <;> rfl

theorem withoutHbm_invalidateHost (s : State) (line : Nat) : (invalidateHost s line).withoutHbm = s.withoutHbm := by
  rw [invalidateHost]
  split
  · rfl
  · dsimp only
    split
    · exact withoutHbm_storeHome ..
    · rfl

theorem withoutHbm_storeOwn (s : State) (p n v : Nat) : (storeOwn s p n v).withoutHbm = s.withoutHbm :=
  (withoutHbm_storeHome ..).trans (withoutHbm_invalidateHost ..)

theorem withoutHbm_foldl {α : Type} {f : State → α → State} (hf : ∀ s a, (f s a).withoutHbm = s.withoutHbm) (l : List α) :
    ∀ s, (l.foldl f s).withoutHbm = s.withoutHbm := by
  induction l with
  | nil => exact fun s => rfl
  | cons a l ih => exact fun s => (ih _).trans (hf s a)

/-- A line of HBM that a store into a part of it can write: not poisoned, not lost, and not with the host (R110, R240, R245). -/
def WholeLine (s : State) (l : Nat) : Prop := l ∉ s.hbmPoison ∧ (∀ x ∈ s.lostLines, x.1 ≠ l) ∧ l ∉ s.hostHeld

theorem invalidateHost_of_not_held {s : State} {l : Nat} (h : l ∉ s.hostHeld) : invalidateHost s l = s := by
  rw [invalidateHost, if_pos (by simpa using h)]

theorem storeOwn_of_whole {s : State} {a : Nat} (h : WholeLine s (a / 64)) (n v : Nat) : storeOwn s a n v =
    { s with
      hbm := memWrite s.hbm a v n, hbmPoison := s.hbmPoison.filter (· != a / 64)
      lostLines := s.lostLines.filter (·.1 != a / 64), history := s.history ++ oldBytes s (.hbm a) s.hbm n } := by
  obtain ⟨hp, hl, hh⟩ := h
  rw [storeOwn, invalidateHost_of_not_held hh, storeHome, if_neg (by simp [hp, lostAt_hbm_of_forall hl]), memMask_fullMask]

theorem storeOwn_of_not_whole {s : State} {a n : Nat} (hh : a / 64 ∉ s.hostHeld)
    (h : a / 64 ∈ s.hbmPoison ∨ ∃ x ∈ s.lostLines, x.1 = a / 64) (hn : n ≠ 64) (v : Nat) : storeOwn s a n v = s := by
  rw [storeOwn, invalidateHost_of_not_held hh, storeHome, if_pos]
  have hlost : a / 64 ∈ s.hbmPoison ∨ (lostAt s (.hbm a)).isSome = true := h.imp_right (by simp [lostAt])
  have hpart : wholeLine a n (fullMask n) = false := by rw [wholeLine, beq_false_of_ne hn, Bool.and_false, Bool.false_and]
  simpa [hpart] using hlost

theorem WholeLine.storeOwn {s : State} {a l : Nat} (h : WholeLine s (a / 64)) (hl : WholeLine s l) (n v : Nat) :
    WholeLine (storeOwn s a n v) l := by
  rw [storeOwn_of_whole h]
  obtain ⟨h1, h2, h3⟩ := hl
  exact ⟨fun hm => h1 (List.mem_of_mem_filter hm), fun x hx => h2 x (List.mem_of_mem_filter hx), h3⟩

/-- Stores of n bytes each, of places and their values, one after the other. -/
def storeEach (n : Nat) (s : State) (ws : List (Nat × Nat)) : State := ws.foldl (fun s w => storeOwn s w.1 n w.2) s

/-- What such stores do to a memory. -/
def writeEach (n : Nat) (m : Memory) (ws : List (Nat × Nat)) : Memory := ws.foldl (fun m w => memWrite m w.1 w.2 n) m

theorem withoutHbm_storeEach (n : Nat) (s : State) (ws : List (Nat × Nat)) : (storeEach n s ws).withoutHbm = s.withoutHbm :=
  withoutHbm_foldl (fun _ _ => withoutHbm_storeOwn ..) ws s

theorem hbm_storeEach {n : Nat} (ws : List (Nat × Nat)) : ∀ s, (∀ w ∈ ws, WholeLine s (w.1 / 64)) →
    (storeEach n s ws).hbm = writeEach n s.hbm ws := by
  induction ws with
  | nil => exact fun s _ => rfl
  | cons w ws ih =>
    intro s h
    have hw := h w List.mem_cons_self
    rw [storeEach, List.foldl_cons, ← storeEach, ih _ fun u hu => hw.storeOwn (h u (List.mem_cons_of_mem _ hu)) n w.2,
      writeEach, writeEach, List.foldl_cons, storeOwn_of_whole hw]

theorem memGet_writeEach_of_out {n x : Nat} (ws : List (Nat × Nat)) : ∀ m, Memory.wf m = true →
    (∀ w ∈ ws, x < w.1 ∨ w.1 + n ≤ x) → memGet (writeEach n m ws) x = memGet m x := by
  induction ws with
  | nil => exact fun m _ _ => rfl
  | cons w ws ih =>
    intro m h hx
    rw [writeEach, List.foldl_cons, ← writeEach, ih _ (memWrite_wf _ _ _ _ h) fun u hu => hx u (List.mem_cons_of_mem _ hu),
      memGet_memWrite_of_out _ _ _ _ _ h (hx w List.mem_cons_self)]

theorem memRead_congr {m m' : Memory} (n : Nat) : ∀ a, (∀ x, a ≤ x → x < a + n → memGet m x = memGet m' x) →
    memRead m a n = memRead m' a n := by
  induction n with
  | zero => exact fun a _ => rfl
  | succ n ih =>
    intro a h
    rw [memRead, memRead, h a le_rfl (by omega), ih (a + 1) fun x h1 h2 => h x (by omega) (by omega)]

theorem memRead_writeEach {n : Nat} (ws : List (Nat × Nat)) : ∀ m, Memory.wf m = true →
    ws.Pairwise (fun v w => v.1 + n ≤ w.1) → ∀ w ∈ ws, memRead (writeEach n m ws) w.1 n = w.2 % 256 ^ n := by
  induction ws with
  | nil => simp
  | cons u ws ih =>
    intro m h hp w hw
    obtain ⟨hu, hp⟩ := List.pairwise_cons.1 hp
    rw [writeEach, List.foldl_cons, ← writeEach]
    rcases List.mem_cons.1 hw with rfl | hw
    · rw [← memRead_memWrite_self n m w.1 w.2 h]
      refine memRead_congr _ _ fun x h1 h2 => memGet_writeEach_of_out ws _ (memWrite_wf _ _ _ _ h) fun v hv => ?_
      have := hu v hv
      omega
    · exact ih _ (memWrite_wf _ _ _ _ h) hp w hw

section
variable {s : State} {port est va : Nat} {need : Word}

/-- No TLB entry of the port serves the access (R113). -/
def TlbMisses (s : State) (port est va : Nat) (need : Word) : Prop :=
  (tlbOf s port).find? (fun t => t.estate == est && va / t.size == t.page && (!pteW need || pteDirty t.pte0)) = none

/-- The state in which a walk has read its entries (R114). -/
def walkedBy (s : State) (port : Nat) (lines : List Nat) : State := if 128 ≤ port then s else lines.foldl (addSharer port) s

/-- A walk changes only the sharers of the lines it reads. -/
theorem walkedBy_eq (s : State) (port : Nat) (lines : List Nat) : ∃ sharers, walkedBy s port lines = { s with sharers := sharers } := by
  rw [walkedBy]
  split
  · exact ⟨s.sharers, rfl⟩
  · induction lines generalizing s with
    | nil => exact ⟨s.sharers, rfl⟩
    | cons l ls ih => exact ih (addSharer port s l)

theorem walkedBy_hbm (s : State) (port : Nat) (lines : List Nat) : (walkedBy s port lines).hbm = s.hbm := by
  obtain ⟨sharers, h⟩ := walkedBy_eq s port lines
  rw [h]

theorem wholeLine_walkedBy {s : State} {l : Nat} (port : Nat) (lines : List Nat) (h : WholeLine s l) : WholeLine (walkedBy s port lines) l := by
  obtain ⟨sharers, hs⟩ := walkedBy_eq s port lines
  rw [hs]
  exact h

/-- A leaf as an access marks it (R112, R113). -/
def marked (p0 need : Word) : Word := p0 ||| 0x80 ||| (if pteW need then 0x100 else 0)

theorem xlate_of_missing (h : TlbMisses s port est va need) {level e : Nat} {file : Bool} {ls : List Nat}
    (hw : walk s est va = (.missing level e file, ls)) :
    xlate s port est va need = (.missing level e file, walkedBy s port ls) := by
  simp only [xlate, show List.find? _ _ = none from h, hw, walkedBy]

theorem xlate_of_refused (h : TlbMisses s port est va need) {level e : Nat} {p0 p1 : Word} {ls : List Nat}
    (hw : walk s est va = (.leaf level e p0 p1, ls)) (hn : p0 &&& need ≠ need) :
    xlate s port est va need = (.page p0 p1 (pageBytes (pteSize p0)), walkedBy s port ls) := by
  simp only [xlate, show List.find? _ _ = none from h, hw, walkedBy, if_pos hn]

theorem xlate_of_leaf (h : TlbMisses s port est va need) {level e : Nat} {p0 p1 : Word} {ls : List Nat}
    (hw : walk s est va = (.leaf level e p0 p1, ls)) (hn : p0 &&& need = need) :
    ∃ tlbs, xlate s port est va need = (.page (marked p0 need) p1 (pageBytes (pteSize p0)),
      { setLeaf (walkedBy s port ls) e (marked p0 need) with tlbs := tlbs }) := by
  by_cases hp : 128 ≤ port
  · exact ⟨(setLeaf s e (marked p0 need)).tlbs, by
      simp only [xlate, show List.find? _ _ = none from h, hw, walkedBy, marked, ne_eq, hn, not_true_eq_false, if_false, if_pos hp]⟩
  · simp only [xlate, show List.find? _ _ = none from h, hw, walkedBy, marked, ne_eq, hn, not_true_eq_false, if_false, if_neg hp]
    exact ⟨_, rfl⟩
end

/-- The places that a leaf's dword 0 stands at (R113). -/
def leafPlaces (e : Nat) (p0 : Word) : List Nat := if pteSize p0 = 1 then (List.range 16).map (e / 256 * 256 + 16 * ·) else [e]

theorem setLeaf_eq (s : State) (e : Nat) (p0 : Word) :
    setLeaf s e p0 = storeEach 8 s ((leafPlaces e p0).map (fun a => (a, p0.toNat))) := by
  rw [setLeaf, leafPlaces]
  split
  · rw [storeEach, List.foldl_map, List.foldl_map]
  · rfl

theorem withoutHbm_setLeaf (s : State) (e : Nat) (p : Word) : (setLeaf s e p).withoutHbm = s.withoutHbm := by
  rw [setLeaf_eq, withoutHbm_storeEach]

theorem leafPlaces_pairwise (e : Nat) (p0 : Word) : (leafPlaces e p0).Pairwise (fun a b => a + 8 ≤ b) := by
  rw [leafPlaces]
  split
  · rw [List.pairwise_map]
    exact List.pairwise_lt_range.imp (by omega)
  · exact List.pairwise_singleton ..

section
variable {s : State} {e : Nat} {p0 : Word} (hw : ∀ a ∈ leafPlaces e p0, WholeLine s (a / 64))
include hw

theorem hbm_setLeaf : (setLeaf s e p0).hbm = writeEach 8 s.hbm ((leafPlaces e p0).map (fun a => (a, p0.toNat))) := by
  rw [setLeaf_eq, hbm_storeEach _ _ (by simpa using hw)]

variable (hwf : Memory.wf s.hbm = true)
include hwf

theorem memRead_setLeaf {a : Nat} (ha : a ∈ leafPlaces e p0) : memRead (setLeaf s e p0).hbm a 8 = p0.toNat := by
  have hread := memRead_writeEach ((leafPlaces e p0).map (fun a => (a, p0.toNat))) _ hwf
    (List.pairwise_map.2 (leafPlaces_pairwise e p0)) (a, p0.toNat) (List.mem_map.2 ⟨a, ha, rfl⟩)
  rw [hbm_setLeaf hw, hread]
  exact Nat.mod_eq_of_lt p0.isLt

theorem memGet_setLeaf_of_out {x : Nat} (hx : ∀ a ∈ leafPlaces e p0, x < a ∨ a + 8 ≤ x) :
    memGet (setLeaf s e p0).hbm x = memGet s.hbm x := by
  rw [hbm_setLeaf hw, memGet_writeEach_of_out _ _ hwf (by simpa using hx)]
end

section
variable {s : State} {port est va : Nat} {need : Word}

theorem xlate_frame (h : TlbMisses s port est va need) : (xlate s port est va need).2.commons = s.commons ∧
    (xlate s port est va need).2.host = s.host ∧ (xlate s port est va need).2.cores = s.cores := by
  rcases hw : walk s est va with ⟨⟨level, e, p0, p1⟩ | ⟨level, e, file⟩, ls⟩
  · obtain ⟨sharers, hs⟩ := walkedBy_eq s port ls
    by_cases hn : p0 &&& need = need
    · obtain ⟨tlbs, hx⟩ := xlate_of_leaf h hw hn
      have hframe := withoutHbm_setLeaf (walkedBy s port ls) e (marked p0 need)
      rw [hx]
      refine ⟨(congrArg State.commons hframe).trans ?_, (congrArg State.host hframe).trans ?_, (congrArg State.cores hframe).trans ?_⟩
      all_goals rw [hs]; rfl
    · rw [xlate_of_refused h hw hn, hs]
      exact ⟨rfl, rfl, rfl⟩
  · obtain ⟨sharers, hs⟩ := walkedBy_eq s port ls
    rw [xlate_of_missing h hw, hs]
    exact ⟨rfl, rfl, rfl⟩

variable (h : TlbMisses s port est va need) {level e : Nat} {p0 p1 : Word} {ls : List Nat} (hw : walk s est va = (.leaf level e p0 p1, ls))
include h hw

theorem hbm_xlate_of_refused (hn : p0 &&& need ≠ need) : (xlate s port est va need).2.hbm = s.hbm := by
  rw [xlate_of_refused h hw hn, walkedBy_hbm]

variable (hn : p0 &&& need = need)
include hn

theorem hbm_xlate_of_leaf : (xlate s port est va need).2.hbm = (setLeaf (walkedBy s port ls) e (marked p0 need)).hbm := by
  obtain ⟨tlbs, hx⟩ := xlate_of_leaf h hw hn
  rw [hx]

theorem hbm_xlate_of_whole (hwf : Memory.wf s.hbm = true) (hwhole : ∀ a ∈ leafPlaces e (marked p0 need), WholeLine s (a / 64)) :
    (∀ a ∈ leafPlaces e (marked p0 need), memRead (xlate s port est va need).2.hbm a 8 = (marked p0 need).toNat) ∧
    ∀ x, (∀ a ∈ leafPlaces e (marked p0 need), x < a ∨ a + 8 ≤ x) → memGet (xlate s port est va need).2.hbm x = memGet s.hbm x := by
  have hwf' : Memory.wf (walkedBy s port ls).hbm = true := by rw [walkedBy_hbm, hwf]
  have hwhole' := fun a ha => wholeLine_walkedBy port ls (hwhole a ha)
  rw [hbm_xlate_of_leaf h hw hn]
  refine ⟨fun a ha => memRead_setLeaf hwhole' hwf' ha, fun x hx => ?_⟩
  rw [memGet_setLeaf_of_out hwhole' hwf' hx, walkedBy_hbm]

theorem hbm_xlate_of_not_whole (h1 : pteSize (marked p0 need) ≠ 1) (hh : e / 64 ∉ s.hostHeld)
    (hlost : e / 64 ∈ s.hbmPoison ∨ ∃ x ∈ s.lostLines, x.1 = e / 64) : (xlate s port est va need).2.hbm = s.hbm := by
  obtain ⟨sharers, hs⟩ := walkedBy_eq s port ls
  have hsame : storeOwn (walkedBy s port ls) e 8 (marked p0 need).toNat = walkedBy s port ls :=
    storeOwn_of_not_whole (by rw [hs]; exact hh) (by rw [hs]; exact hlost) (by decide) _
  rw [hbm_xlate_of_leaf h hw hn, setLeaf, if_neg h1]
  exact (congrArg State.hbm hsame).trans (walkedBy_hbm ..)
end

/-- Settles O33: the translation writes the marked leaf at its places, one place or sixteen, and each is a store into a line of HBM. -/
theorem translationMarksTheLeaf : Obligations.TranslationMarksTheLeaf := by
  unfold Obligations.TranslationMarksTheLeaf
  intro s port est va need hwf hmiss
  refine ⟨fun level e p0 p1 ls hw hn => ?leaf, fun level e p0 p1 ls hw hn => ?refused, fun level e file ls hw => ?missing, xlate_frame hmiss⟩
  case leaf =>
    intro p base whole
    have hp : p = marked p0 need := rfl
    clear_value p
    subst hp
    have hleaf := hbm_xlate_of_whole hmiss hw hn hwf
    refine ⟨?_, fun h1 hwhole => ?_, fun h1 hh hlost => hbm_xlate_of_not_whole hmiss hw hn h1 hh hlost, fun h1 hwhole => ?_⟩
    · obtain ⟨tlbs, hx⟩ := xlate_of_leaf hmiss hw hn
      rw [hx]
    · rw [show leafPlaces e _ = [e] from if_neg h1] at hleaf
      simp only [List.forall_mem_singleton] at hleaf
      exact hleaf hwhole
    · rw [show leafPlaces e _ = (List.range 16).map (base + 16 * ·) from if_pos h1] at hleaf
      simp only [List.forall_mem_map, List.mem_range] at hleaf
      exact hleaf hwhole
  case refused => exact ⟨by rw [xlate_of_refused hmiss hw hn], hbm_xlate_of_refused hmiss hw hn⟩
  case missing =>
    rw [xlate_of_missing hmiss hw, walkedBy_hbm]
    exact ⟨rfl, rfl⟩
end Sys2Proof.Machine
end

section
/-! SUPPORT. Page tables and their lines, MAPF, UNMAP, WAKE, segment registers and shootdowns (R110 to R117, R304, R320 to R322, R348, R364, R365, R374); O51. -/

namespace Sys2Proof.Machine

theorem hbm_wf_storeHome {s : State} (h : Memory.wf s.hbm = true) (p n v k : Nat) : Memory.wf (storeHome s (.hbm p) n v k).hbm = true := by
  rw [storeHome]
  split
  · exact h
  · exact memMask_wf _ _ _ _ _ h

theorem memGet_storeHome_of_out {s : State} (h : Memory.wf s.hbm = true) {p n x : Nat} (v k : Nat) (hx : x < p ∨ p + n ≤ x) :
    memGet (storeHome s (.hbm p) n v k).hbm x = memGet s.hbm x := by
  rw [storeHome]
  split
  · rfl
  · exact memGet_memMask_of_out _ _ _ _ _ _ h hx

theorem hbmPoison_storeHome {s : State} {l : Nat} (h : l ∉ s.hbmPoison) (p n v k : Nat) : l ∉ (storeHome s (.hbm p) n v k).hbmPoison := by
  rw [storeHome]
  split
  · exact h
  · exact fun hm => h (List.mem_of_mem_filter hm)

/-- A back-invalidate writes at most the bytes of its line (R245). -/
theorem invalidateHost_cases (s : State) (line : Nat) : ∃ s1, s1.hbm = s.hbm ∧ s1.hbmPoison = s.hbmPoison ∧
    (invalidateHost s line = s1 ∨ ∃ v, invalidateHost s line = storeHome s1 (.hbm (64 * line)) 64 v (fullMask 64)) := by
  rw [invalidateHost]
  split
  · exact ⟨s, rfl, rfl, .inl rfl⟩
  · refine ⟨{ (freeBytes s 64).2 with hostHeld := (freeBytes s 64).2.hostHeld.filter (· != line) }, rfl, rfl, ?_⟩
    dsimp only
    split
    · exact .inr ⟨_, rfl⟩
    · exact .inl rfl

theorem hbm_wf_invalidateHost {s : State} (h : Memory.wf s.hbm = true) (line : Nat) : Memory.wf (invalidateHost s line).hbm = true := by
  obtain ⟨s1, hm, -, he | ⟨v, he⟩⟩ := invalidateHost_cases s line
  · rw [he, hm, h]
  · rw [he]
    exact hbm_wf_storeHome (by rw [hm, h]) ..

theorem memGet_invalidateHost_of_out {s : State} (h : Memory.wf s.hbm = true) {line x : Nat} (hx : x / 64 ≠ line) :
    memGet (invalidateHost s line).hbm x = memGet s.hbm x := by
  obtain ⟨s1, hm, -, he | ⟨v, he⟩⟩ := invalidateHost_cases s line
  · rw [he, hm]
  · rw [he, memGet_storeHome_of_out (by rw [hm, h]) _ _ (by omega), hm]

theorem hbmPoison_invalidateHost {s : State} {l : Nat} (h : l ∉ s.hbmPoison) (line : Nat) : l ∉ (invalidateHost s line).hbmPoison := by
  obtain ⟨s1, -, hp, he | ⟨v, he⟩⟩ := invalidateHost_cases s line
  · rw [he, hp]
    exact h
  · rw [he]
    exact hbmPoison_storeHome (by rw [hp]; exact h) _ _ _ _

theorem memGet_memWrite_zero (n : Nat) : ∀ (m : Memory) (a x : Nat), Memory.wf m = true → a ≤ x → x < a + n →
    memGet (memWrite m a 0 n) x = 0 := by
  induction n with
  | zero => intros; omega
  | succ n ih =>
    intro m a x h h1 h2
    rw [memWrite]
    rcases Nat.eq_or_lt_of_le h1 with rfl | h1
    · rw [memGet_memWrite_of_out _ _ _ _ _ (memSet_wf _ _ _ h) (by omega), memGet_memSet_self _ _ _ h]
      rfl
    · exact ih _ _ _ (memSet_wf _ _ _ h) h1 (by omega)

theorem wholeLine_fullMask {a : Nat} (ha : a % 64 = 0) : wholeLine a 64 (fullMask 64) = true := by
  simp only [wholeLine, ha, fullMask, Nat.reduceMul, beq_self_eq_true, Bool.and_self]

/-- A store of a whole line clears its poison (R110). -/
theorem storeHome_of_line {s : State} {a k : Nat} (hk : wholeLine a 64 k = true) (v : Nat) :
    (storeHome s (.hbm a) 64 v k).hbm = memMask s.hbm a v k 64 ∧ a / 64 ∉ (storeHome s (.hbm a) 64 v k).hbmPoison := by
  rw [storeHome, if_neg (by simp [hk])]
  simp

/-- What zeroing the first n lines of a table leaves of them and of other memory. -/
structure ZeroedLines (s t : State) (pa n : Nat) : Prop where
  wf : Memory.wf t.hbm = true
  zero : ∀ x, pa ≤ x → x < pa + 64 * n → memGet t.hbm x = 0
  other : ∀ x, x < pa ∨ pa + 64 * n ≤ x → memGet t.hbm x = memGet s.hbm x
  clean : ∀ l, pa / 64 ≤ l → l < pa / 64 + n → l ∉ t.hbmPoison

theorem zeroedLines_foldl {s : State} {pa : Nat} (hal : pa % 64 = 0) (h : Memory.wf s.hbm = true) (n : Nat) :
    ZeroedLines s ((List.range n).foldl (fun s i => storeOwn s (pa + 64 * i) 64 0) s) pa n := by
  induction n with
  | zero => exact ⟨h, by intros; omega, fun _ _ => rfl, by intros; omega⟩
  | succ n ih =>
    rw [List.range_succ, List.foldl_append, List.foldl_cons, List.foldl_nil]
    obtain ⟨hwf, hzero, hother, hclean⟩ := ih
    generalize (List.range n).foldl (fun s i => storeOwn s (pa + 64 * i) 64 0) s = t at *
    have hwf' := hbm_wf_invalidateHost hwf ((pa + 64 * n) / 64)
    obtain ⟨hbm, hpoison⟩ := storeHome_of_line
      (s := invalidateHost t ((pa + 64 * n) / 64)) (wholeLine_fullMask (a := pa + 64 * n) (by omega)) 0
    rw [memMask_fullMask] at hbm
    have hout : ∀ x, x < pa + 64 * n ∨ pa + 64 * (n + 1) ≤ x → memGet (storeOwn t (pa + 64 * n) 64 0).hbm x = memGet t.hbm x := by
      intro x hx
      rw [storeOwn, hbm, memGet_memWrite_of_out _ _ _ _ _ hwf' (by omega), memGet_invalidateHost_of_out hwf (by omega)]
    refine ⟨by rw [storeOwn, hbm]; exact memWrite_wf _ _ _ _ hwf', fun x h1 h2 => ?_, fun x hx => ?_, fun l h1 h2 => ?_⟩
    · by_cases hx : x < pa + 64 * n
      · rw [hout x (.inl hx), hzero x h1 hx]
      · rw [storeOwn, hbm, memGet_memWrite_zero _ _ _ _ hwf' (by omega) (by omega)]
    · rw [hout x (by omega), hother x (by omega)]
    · by_cases hl : l < pa / 64 + n
      · exact hbmPoison_storeHome (hbmPoison_invalidateHost (hclean l h1 hl) _) _ _ _ _
      · rw [show l = (pa + 64 * n) / 64 by omega]
        exact hpoison

theorem zeroTable_zeroed {s : State} {pa : Nat} (hal : pa % 64 = 0) (h : Memory.wf s.hbm = true) :
    ZeroedLines s (zeroTable s pa) pa 128 := zeroedLines_foldl hal h 128

/-- The places and values of one entry, dword by dword (R112). -/
def ptePlaces (p0 p1 : Word) (e : Nat) : List (Nat × Nat) := [(e, p0.toNat), (e + 8, p1.toNat)]

theorem foldl_writePte (p0 p1 : Word) (es : List Nat) (s : State) :
    es.foldl (writePte p0 p1) s = storeEach 8 s (es.flatMap (ptePlaces p0 p1)) := by
  rw [storeEach, List.foldl_flatMap]
  rfl

section
variable {s : State} {p0 p1 : Word} {es : List Nat}
variable (hwhole : ∀ e ∈ es, e % 16 = 0 ∧ WholeLine s (e / 64))
include hwhole

theorem hbm_foldl_writePte : (es.foldl (writePte p0 p1) s).hbm = writeEach 8 s.hbm (es.flatMap (ptePlaces p0 p1)) := by
  rw [foldl_writePte, hbm_storeEach]
  simp only [List.mem_flatMap, ptePlaces, List.mem_cons, List.not_mem_nil, or_false]
  rintro w ⟨e, he, rfl | rfl⟩
  · exact (hwhole e he).2
  · have := (hwhole e he).1
    rw [show (e + 8) / 64 = e / 64 by omega]
    exact (hwhole e he).2

variable (hwf : Memory.wf s.hbm = true)
include hwf

theorem pteAt_foldl_writePte (hes : es.Pairwise (fun a b => a + 16 ≤ b)) {e : Nat} (he : e ∈ es) :
    pteAt (es.foldl (writePte p0 p1) s) e = (p0, p1) := by
  have hp : (es.flatMap (ptePlaces p0 p1)).Pairwise (fun v w => v.1 + 8 ≤ w.1) := by
    refine List.pairwise_flatMap.2 ⟨fun e _ => by simp [ptePlaces], hes.imp fun h => ?_⟩
    simp only [ptePlaces, List.mem_cons, List.not_mem_nil, or_false]
    rintro x (rfl | rfl) y (rfl | rfl) <;> dsimp only <;> omega
  have hread := memRead_writeEach _ _ hwf hp
  have h0 := hread (e, p0.toNat) (List.mem_flatMap.2 ⟨e, he, by simp [ptePlaces]⟩)
  have h1 := hread (e + 8, p1.toNat) (List.mem_flatMap.2 ⟨e, he, by simp [ptePlaces]⟩)
  rw [← hbm_foldl_writePte hwhole] at h0 h1
  rw [pteAt, h0, h1]
  exact Prod.ext (BitVec.eq_of_toNat_eq (by simp [p0.isLt])) (BitVec.eq_of_toNat_eq (by simp [p1.isLt]))

theorem memGet_foldl_writePte_of_out {x : Nat} (hx : ∀ e ∈ es, x < e ∨ e + 16 ≤ x) :
    memGet (es.foldl (writePte p0 p1) s).hbm x = memGet s.hbm x := by
  rw [hbm_foldl_writePte hwhole, memGet_writeEach_of_out _ _ hwf]
  simp only [List.mem_flatMap, ptePlaces, List.mem_cons, List.not_mem_nil, or_false]
  rintro w ⟨e, he, rfl | rfl⟩
  · have := hx e he
    omega
  · have := hx e he
    dsimp only
    omega
end

/-- The sixteen entries of the 64 KiB group of an entry (R111). -/
def pteGroup (x : Nat) : List Nat := (List.range 16).map (fun i => x / 256 * 256 + 16 * i)

theorem mem_pteGroup {x e : Nat} (h : e ∈ pteGroup x) : e % 16 = 0 ∧ x / 256 * 256 ≤ e ∧ e + 16 ≤ x / 256 * 256 + 256 := by
  obtain ⟨i, hi, rfl⟩ := List.mem_map.1 h
  have := List.mem_range.1 hi
  omega

theorem pteGroup_pairwise (x : Nat) : (pteGroup x).Pairwise (fun a b => a + 16 ≤ b) :=
  List.pairwise_map.2 (List.pairwise_lt_range.imp (by omega))

theorem entryGroup_of_group (x : Nat) {size : Nat} (h : size = 1) : entryGroup x size = pteGroup x := if_pos h

theorem entryGroup_of_alone (x : Nat) {size : Nat} (h : size ≠ 1) : entryGroup x size = [x] := if_neg h

theorem eq_of_ite_ne {α : Type} {c : Prop} [Decidable c] {x y z : α} (h : (if c then x else y) = z) (hx : x ≠ z) : y = z := by
  split at h
  · exact absurd h hx
  · exact h

/-- The plan of MAPF for a leaf is its entry, or the sixteen of its group (R321). -/
theorem leaf_of_mapPlan {s : State} {est : Nat} {va p0 p1 : Word} {es : List Nat} (h : mapPlan s est va p0 p1 = .leaf es) :
    ∃ x, es = entryGroup x (pteSize p0) := by
  rw [mapPlan] at h
  replace h := eq_of_ite_ne h nofun
  by_cases h3 : pteSize p0 = 3
  · rw [if_pos h3] at h
    replace h := eq_of_ite_ne h nofun
    split at h
    · exact nomatch h
    · exact nomatch eq_of_ite_ne (eq_of_ite_ne h nofun) nofun
  · rw [if_neg h3] at h
    split at h
    · exact nomatch eq_of_ite_ne h nofun
    · next x _ =>
      have hleaf := eq_of_ite_ne (eq_of_ite_ne (eq_of_ite_ne (eq_of_ite_ne (eq_of_ite_ne h nofun) nofun) nofun) nofun) nofun
      exact ⟨x.2.1, (MapPlan.leaf.inj hleaf).symm⟩

/-- No port has to be waited for (R114). -/
def Quiet (s : State) : Prop := s.cur.defer = false ∧ ∀ p, p < 128 → portBusy s p = false

theorem portBusy_of_withoutHbm {s t : State} (h : t.withoutHbm = s.withoutHbm) (p : Nat) : portBusy t p = portBusy s p := by
  have hbusy : ∀ u : State, portBusy u p = portBusy u.withoutHbm p := fun _ => rfl
  rw [hbusy t, hbusy s, h]

theorem Quiet.of_withoutHbm {s t : State} (hs : Quiet s) (h : t.withoutHbm = s.withoutHbm) : Quiet t := by
  exact ⟨(congrArg (fun u => u.cur.defer) h).trans hs.1, fun p hp => (portBusy_of_withoutHbm h p).trans (hs.2 p hp)⟩

theorem Quiet.setTables {s : State} (hs : Quiet s) (l : List Nat) : Quiet { s with tables := l } := hs

theorem withoutHbm_writePte (p0 p1 : Word) (s : State) (e : Nat) : (writePte p0 p1 s e).withoutHbm = s.withoutHbm :=
  (withoutHbm_storeOwn ..).trans (withoutHbm_storeOwn ..)

theorem withoutHbm_zeroTable (s : State) (pa : Nat) : (zeroTable s pa).withoutHbm = s.withoutHbm :=
  withoutHbm_foldl (fun _ _ => withoutHbm_storeOwn ..) _ _

theorem Quiet.writePtes {s : State} (hs : Quiet s) (p0 p1 : Word) (es : List Nat) : Quiet (es.foldl (writePte p0 p1) s) :=
  hs.of_withoutHbm (withoutHbm_foldl (fun _ _ => withoutHbm_writePte ..) _ _)

/-- Where no port has to be waited for, a change of a table ends in the step of its issue (R114). -/
theorem endShoot_of_quiet {s : State} (hs : Quiet s) (d : Reg) (status : Nat) (lines : List Nat) :
    Ends (endShoot d status lines) s () (endTable d status (shootNow s lines)) := by
  refine ends_get_bind (ends_ite_of_pos ?_ rfl)
  have hall : (lines.flatMap fun l => (sharingPorts s l).map (fun p => (l, p))).all (fun j => !portBusy s j.2) = true := by
    simp only [List.all_eq_true, List.mem_flatMap, List.mem_map]
    rintro j ⟨l, -, p, hp, rfl⟩
    rw [hs.2 p (List.mem_range.1 (List.mem_of_mem_filter hp))]
    rfl
  simp [hs.1, hall]

section
variable {s s1 : State} {d a : Reg}
variable (ht : Takes [a] (some d) s s1) (hf : mayBeFirm s1 (curSlot s1).task = true) (hb : (curSlot s1).stores = [])
include ht hf hb

section
variable {e : EReg}

theorem execMapf_of_status {n : Nat}
    (hp : mapPlan s1 (curEstate s1) (gval s1 a) (eval s1 e.toNat) (eval s1 (e.toNat + 1)) = .status n) :
    execMapf d a e s = .next (endTable d n s1) := by
  refine run_of_ends (ht.bind ((ends_firm_of_frontier hf).bind ((ends_emptyBuffer_of_nil hb).bind (ends_get_bind ?_))))
  dsimp only
  rw [hp]
  rfl

theorem execMapf_of_table {x pa : Nat} (hq : Quiet s1)
    (hp : mapPlan s1 (curEstate s1) (gval s1 a) (eval s1 e.toNat) (eval s1 (e.toNat + 1)) = .table x pa) :
    execMapf d a e s = .next (endTable d 0 (shootNow (writePte (eval s1 e.toNat) (eval s1 (e.toNat + 1))
      { zeroTable s1 pa with tables := pa :: (zeroTable s1 pa).tables.filter (· != pa) } x)
      (if pteValid (pteAt s1 x).1 then [x / 64] else []))) := by
  refine run_of_ends (ht.bind ((ends_firm_of_frontier hf).bind ((ends_emptyBuffer_of_nil hb).bind (ends_get_bind ?_))))
  dsimp only
  rw [hp]
  have hz := (hq.of_withoutHbm (withoutHbm_zeroTable s1 pa)).setTables (pa :: (zeroTable s1 pa).tables.filter (· != pa))
  exact ends_set_bind (endShoot_of_quiet (hz.of_withoutHbm (withoutHbm_writePte ..)) ..)

theorem execMapf_of_leaf {es : List Nat} (hq : Quiet s1)
    (hp : mapPlan s1 (curEstate s1) (gval s1 a) (eval s1 e.toNat) (eval s1 (e.toNat + 1)) = .leaf es) :
    execMapf d a e s = .next (endTable d 0 (shootNow (es.foldl (writePte (eval s1 e.toNat) (eval s1 (e.toNat + 1))) s1)
      ((es.filter (fun x => pteValid (pteAt s1 x).1)).map (· / 64)).eraseDups)) := by
  refine run_of_ends (ht.bind ((ends_firm_of_frontier hf).bind ((ends_emptyBuffer_of_nil hb).bind (ends_get_bind ?_))))
  dsimp only
  rw [hp]
  exact ends_set_bind (endShoot_of_quiet (hq.writePtes ..) ..)
end

theorem execUnmap_of_high (hv : bits (gval s1 a) 48 16 ≠ 0) : execUnmap d a s = .next (endTable d 4 s1) :=
  run_of_ends (ht.bind ((ends_firm_of_frontier hf).bind ((ends_emptyBuffer_of_nil hb).bind (ends_get_bind (ends_ite_of_pos hv rfl)))))

section
variable (hv : bits (gval s1 a) 48 16 = 0)
include hv

/-- The VALID entries on the walk path of a VA (R112, R364). -/
def validPath (s : State) (est va : Nat) : List (Nat × Nat × Word × Word) :=
  (pathOf s est va).filter (fun x => pteIsValid x.1 (x.2.2.1, x.2.2.2))

theorem execUnmap_of_no_path (hp : validPath s1 (curEstate s1) (gval s1 a).toNat = []) : execUnmap d a s = .next (endTable d 1 s1) := by
  refine run_of_ends (ht.bind ((ends_firm_of_frontier hf).bind ((ends_emptyBuffer_of_nil hb).bind (ends_get_bind
    (ends_ite_of_neg (not_not.2 hv) ?_)))))
  rw [validPath] at hp
  rw [hp]
  rfl

variable {level x : Nat} {q0 q1 : Word}
variable (hp : (validPath s1 (curEstate s1) (gval s1 a).toNat).getLast? = some (level, x, q0, q1))
include hp

theorem execUnmap_of_full_table (h3 : pteSize q0 = 3) (he : tableEmpty s1 (ptePa q0) (level + 1) = false) :
    execUnmap d a s = .next (endTable d 1 s1) := by
  refine run_of_ends (ht.bind ((ends_firm_of_frontier hf).bind ((ends_emptyBuffer_of_nil hb).bind (ends_get_bind
    (ends_ite_of_neg (not_not.2 hv) ?_)))))
  rw [validPath] at hp
  rw [hp]
  exact ends_ite_of_pos h3 (ends_ite_of_neg (by simp [he]) rfl)

theorem execUnmap_of_empty_table (hq : Quiet s1) (h3 : pteSize q0 = 3) (he : tableEmpty s1 (ptePa q0) (level + 1) = true) :
    execUnmap d a s = .next (endTable d 0 (shootNow
      { writePte 0 0 s1 x with tables := s1.tables.filter (· != ptePa q0) } [x / 64])) := by
  refine run_of_ends (ht.bind ((ends_firm_of_frontier hf).bind ((ends_emptyBuffer_of_nil hb).bind (ends_get_bind
    (ends_ite_of_neg (not_not.2 hv) ?_)))))
  rw [validPath] at hp
  rw [hp]
  have hw := (hq.of_withoutHbm (withoutHbm_writePte 0 0 s1 x)).setTables (s1.tables.filter (· != ptePa q0))
  exact ends_ite_of_pos h3 (ends_ite_of_pos he (ends_set_bind (endShoot_of_quiet hw ..)))

theorem execUnmap_of_leaf (hq : Quiet s1) (h3 : pteSize q0 ≠ 3) :
    execUnmap d a s = .next (endTable d 0 (shootNow ((entryGroup x (pteSize q0)).foldl (writePte 0 0) s1)
      ((entryGroup x (pteSize q0)).map (· / 64)).eraseDups)) := by
  refine run_of_ends (ht.bind ((ends_firm_of_frontier hf).bind ((ends_emptyBuffer_of_nil hb).bind (ends_get_bind
    (ends_ite_of_neg (not_not.2 hv) ?_)))))
  rw [validPath] at hp
  rw [hp]
  exact ends_ite_of_neg h3 (ends_set_bind (endShoot_of_quiet (hq.writePtes ..) ..))
end
end

section
variable {s : State} {est token : Nat}

theorem wakeToken_of_no_fault (h : ∀ f ∈ s.faults, ¬ (f.estate = est ∧ f.token = token)) (fail : Bool) : wakeToken fail s est token = s :=
  if_pos (by simpa using h)

theorem faults_wakeToken (f) (hf : f ∈ (wakeToken false s est token).faults) : ¬ (f.estate = est ∧ f.token = token) := by
  rw [wakeToken] at hf
  split at hf
  · next h =>
    rw [Bool.not_eq_true', List.any_eq_false] at h
    simpa using h f hf
  · have hkept := List.of_mem_filter hf
    rintro ⟨h1, h2⟩
    simp [h1, h2] at hkept

theorem wakeToken_of_fault (h : ∃ f ∈ s.faults, f.estate = est ∧ f.token = token)
    (ho : ∀ o ∈ s.ops, ¬ (o.2.estate = est ∧ o.2.token = some token)) :
    let m := markSaved true est token { s with faults := s.faults.filter (fun f => !(f.estate == est && f.token == token)) }
    wakeToken true s est token = (joined m est token).foldl (pageFails token) m := by
  intro m
  have hops : m.ops.filter (fun o => o.2.estate == est && o.2.token == some token && !m.halted.contains (clusterOf o.2.core)) = [] := by
    refine List.filter_eq_nil_iff.2 fun o hm => ?_
    have := ho o hm
    simp
    tauto
  have hany : (s.faults.any fun f => f.estate == est && f.token == token) = true := by simpa using h
  rw [wakeToken, hany]
  simp only [Bool.not_true, Bool.false_eq_true, if_false, if_true]
  rw [hops]
  rfl
end

/-- The state in which a port has acknowledged a shootdown (R114). -/
def shotDown (s : State) (j : Shootdown) (port : Nat) : State :=
  { invalidatePort j.line s port with shootdowns := s.shootdowns.filter (· != j) }

section
variable {s : State} {port : Nat} {j : Shootdown} (hj : s.shootdowns.find? (·.port == port) = some j) (hb : portBusy s port = false)
include hj hb

theorem execShootdownInvalidate_of_more (h : ∃ i ∈ (shotDown s j port).shootdowns, i.core = j.core ∧ i.slot = j.slot) :
    execShootdownInvalidate port s = .next (shotDown s j port) := by
  have hany : ((shotDown s j port).shootdowns.any fun k => k.core == j.core && k.slot == j.slot) = true := by simpa using h
  rw [execShootdownInvalidate, hj]
  exact (if_neg (by simp [hb])).trans (if_pos hany)

theorem execShootdownInvalidate_of_last {d : Reg} {status : Nat}
    (h : ∀ i ∈ (shotDown s j port).shootdowns, ¬ (i.core = j.core ∧ i.slot = j.slot))
    (hp : (slotOf (shotDown s j port) j.core j.slot).pend = .shoot d status) :
    execShootdownInvalidate port s =
      .next (resume j.core j.slot (replyCall d (BitVec.ofNat 64 status)) (shotDown s j port)) := by
  have hany : ¬ ((shotDown s j port).shootdowns.any fun k => k.core == j.core && k.slot == j.slot) = true := by simpa using h
  rw [execShootdownInvalidate, hj]
  refine (if_neg (by simp [hb])).trans ((if_neg hany).trans ?_)
  rw [shotDown] at hp ⊢
  rw [hp]
end

theorem lines_shotDown (s : State) (j : Shootdown) (port : Nat) : ∀ t ∈ tlbOf (shotDown s j port) port, j.line ∉ t.lines := by
  intro t ht
  have hkept : t ∈ (tlbOf s port).filter (fun t => !t.lines.contains j.line) := by
    rwa [tlbOf, shotDown, invalidatePort, mapFind_mapSet_self] at ht
  simpa using List.of_mem_filter hkept

/-- Settles O51: with no port to wait for, MAPF and UNMAP end in the step of their issue; tables are zeroed line by line and entries
written dword by dword; WAKE, SEGW, SEGR and a shootdown do what their definitions say case by case. -/
theorem pagingResults : Obligations.PagingResults := by
  unfold Obligations.PagingResults
  intro s s1 d a e k p0 p1 va ends group lines quiet
  refine ⟨fun ht hf hb => ?tables, fun pa hal hwf => ?zero, fun x q0 q1 hwf => ?group,
    fun ht => ⟨run_of_ends (ht.bind rfl), run_of_ends (ht.bind rfl)⟩, fun core token fail b hact => ?token,
    fun hok => ?segw, fun hbad => ?illegal, rfl, fun port j hj hbusy => ?shootdown⟩
  case tables =>
    refine ⟨fun n => execMapf_of_status ht hf hb, fun x pa hplan hq => execMapf_of_table ht hf hb hq hplan, fun es hplan => ?_,
      execUnmap_of_high ht hf hb, ?_⟩
    · obtain ⟨x, hx⟩ := leaf_of_mapPlan hplan
      exact ⟨fun h1 => ⟨x, hx.trans (entryGroup_of_group x h1)⟩, fun h1 => ⟨x, hx.trans (entryGroup_of_alone x h1)⟩,
        fun hq => execMapf_of_leaf ht hf hb hq hplan⟩
    · intro path hv
      refine ⟨execUnmap_of_no_path ht hf hb hv, fun level x q0 q1 hp hq => ⟨fun h02 => ?_, fun h1 => ?_,
        execUnmap_of_full_table ht hf hb hv hp, execUnmap_of_empty_table ht hf hb hv hp hq⟩⟩
      · have hleaf := execUnmap_of_leaf ht hf hb hv hp hq (by omega)
        rw [entryGroup_of_alone x (by omega)] at hleaf
        exact hleaf
      · have hleaf := execUnmap_of_leaf ht hf hb hv hp hq (by omega)
        rw [entryGroup_of_group x h1] at hleaf
        exact hleaf
  case zero =>
    obtain ⟨-, hzero, hother, hclean⟩ := zeroTable_zeroed hal hwf
    exact ⟨fun i hi => hzero _ (by omega) (by omega), hother, hclean⟩
  case group =>
    intro t hwhole
    have hgroup : ∀ y ∈ pteGroup x, y % 16 = 0 ∧ WholeLine s1 (y / 64) := fun y hy => ⟨(mem_pteGroup hy).1, hwhole y hy⟩
    refine ⟨fun y hy => pteAt_foldl_writePte hgroup hwf (pteGroup_pairwise x) hy, fun b hb => ?_⟩
    refine memGet_foldl_writePte_of_out hgroup hwf fun y hy => ?_
    have := mem_pteGroup hy
    omega
  case token =>
    intro est
    refine ⟨?_, fun h => wakeToken_of_no_fault h fail, faults_wakeToken, wakeToken_of_fault⟩
    rw [applyThread, hact]
  case segw => exact run_of_ends (ends_get_bind (ends_ite_of_neg (by simp [hok]) rfl))
  case illegal => exact run_of_traps (traps_get_bind (traps_ite_illegal (by simp [hbad])))
  case shootdown =>
    exact ⟨execShootdownInvalidate_of_more hj hbusy, fun d status => execShootdownInvalidate_of_last hj hbusy, lines_shotDown s j port⟩
end Sys2Proof.Machine
end

section
/-! SUPPORT. Garnet's service of system calls, call by call (R244, R248, R253, R254); O57. -/

namespace Sys2Proof.Machine

/-- The mapping that MAPFILE records (R254). -/
def mappedBy (est : Nat) (args : List Word) : Mapped :=
  ⟨est, argOf args 0, (argOf args 1).toNat, (argOf args 2).toNat, parcelIndex (argOf args 4).toNat, (argOf args 5).toNat, [],
    bits (argOf args 3) 0 2⟩

theorem not_bad_range {args : List Word} (hal : (argOf args 1).toNat % 2097152 = 0)
    (hle : (argOf args 1).toNat + (argOf args 2).toNat ≤ 2 ^ 48) : ¬ (decide ((argOf args 1).toNat % 2097152 ≠ 0) ||
    decide (2 ^ 48 < (argOf args 1).toNat + (argOf args 2).toNat)) = true := by
  simp only [Bool.or_eq_true, decide_eq_true_eq]
  omega

section
variable {s s1 : State} {core slot est token : Nat} {args : List Word}

section
variable (ht : takeCall s core slot 0x001 = some (est, token, args, s1))
include ht

theorem execMapfile_of_bad_pool (hp : poolOk s1 est (argOf args 4).toNat (argOf args 5).toNat = false) :
    execMapfile core slot s = .next (endCallWith s1 token 1) := by
  rw [execMapfile, ht]
  exact if_pos (by simp [hp])

variable (hp : poolOk s1 est (argOf args 4).toNat (argOf args 5).toNat = true)
include hp

theorem execMapfile_of_bad_range (hr : (argOf args 1).toNat % 2097152 ≠ 0 ∨ 2 ^ 48 < (argOf args 1).toNat + (argOf args 2).toNat) :
    execMapfile core slot s = .next (endCallWith { s1 with draws := s1.draws + 1 } token (Config.freeWord s1.draws)) := by
  rw [execMapfile, ht]
  exact (if_neg (by simp [hp])).trans (if_pos (by simpa using hr))

variable (hal : (argOf args 1).toNat % 2097152 = 0) (hle : (argOf args 1).toNat + (argOf args 2).toNat ≤ 2 ^ 48)
include hal hle

theorem execMapfile_of_busy (hq : quiet s1 est (argOf args 1).toNat (argOf args 2).toNat = false) :
    execMapfile core slot s = .next s := by
  rw [execMapfile, ht]
  exact (if_neg (by simp [hp])).trans ((if_neg (not_bad_range hal hle)).trans (if_pos (by simp [hq])))

theorem execMapfile_of_quiet (hq : quiet s1 est (argOf args 1).toNat (argOf args 2).toNat = true) {s2 : State}
    (hs2 : putLeaves s1 est (argOf args 1).toNat (argOf args 2).toNat (BitVec.ofNat 64 (fileFlags (bits (argOf args 3) 0 2))) = s2) :
    execMapfile core slot s = .next (endCallWith { s2 with mapped := s2.mapped ++ [mappedBy est args] } token 0) := by
  subst hs2
  rw [execMapfile, ht]
  exact (if_neg (by simp [hp])).trans ((if_neg (not_bad_range hal hle)).trans (if_neg (by simp [hq])))
end

section
variable (ht : takeCall s core slot 0x002 = some (est, token, args, s1))
include ht

theorem execSync_of_mapping {m : Mapped} (hm : mappingOf s1 est (argOf args 0).toNat = some m) (hq : quiet s1 est m.va m.len = true) :
    execSync core slot s = .next (endCallWith (syncMapping s1 m).2 token (BitVec.ofNat 64 (syncMapping s1 m).1)) := by
  simp only [execSync, ht, hm]
  exact if_neg (by simp [hq])

theorem execSync_of_none (hm : mappingOf s1 est (argOf args 0).toNat = none) :
    execSync core slot s = .next (endCallWith s1 token 0) := by
  simp only [execSync, ht, hm]
end

section
variable (ht : takeCall s core slot 0x003 = some (est, token, args, s1))
include ht

theorem execUnmapfile_of_mapping {m : Mapped} (hm : mappingOf s1 est (argOf args 0).toNat = some m)
    (hq : quiet s1 est m.va m.len = true) {s2 : State} (hs2 : putLeaves (syncMapping s1 m).2 est m.va m.len 0 = s2) :
    execUnmapfile core slot s = .next (endCallWith { s2 with mapped := s2.mapped.erase m } token 0) := by
  subst hs2
  simp only [execUnmapfile, ht, hm]
  exact if_neg (by simp [hq])

theorem execUnmapfile_of_none (hm : mappingOf s1 est (argOf args 0).toNat = none) :
    execUnmapfile core slot s = .next (endCallWith s1 token 0) := by
  simp only [execUnmapfile, ht, hm]
end

section
variable (ht : takeCall s core slot 0x020 = some (est, token, args, s1)) {rec : Nat} {s2 : State}
variable (hr : estateRead s1 est (argOf args 1).toNat 64 3 = (some rec, s2))
include ht hr

theorem execLaunchr_of_own (hpkg : bits (argOf args 0) 14 14 = s.pkgId.toNat)
    (hl : mayLaunch s2 (fabricName s2 est) ((argOf args 0).toNat % 64) = true) (reply : Reply) :
    execLaunchr core slot reply s = .next (endCallWith (placeRecord s2 ((argOf args 0).toNat % 64) rec).2 token
      (BitVec.ofNat 64 (placeRecord s2 ((argOf args 0).toNat % 64) rec).1)) := by
  simp only [execLaunchr, ht, hr]
  exact (if_pos hpkg).trans (if_neg (by simp [hl]))

theorem execLaunchr_of_refused (hpkg : bits (argOf args 0) 14 14 = s.pkgId.toNat)
    (hl : mayLaunch s2 (fabricName s2 est) ((argOf args 0).toNat % 64) = false) (reply : Reply) :
    execLaunchr core slot reply s =
      .next (endCall s2 token (.trap ⟨.gate, 0, fabricAux 1 false (bits (argOf args 0) 14 14), 0⟩)) := by
  simp only [execLaunchr, ht, hr]
  exact (if_pos hpkg).trans (if_pos (by simp [hl]))

theorem execLaunchr_of_other (hpkg : bits (argOf args 0) 14 14 ≠ s.pkgId.toNat) (hf : full1024 s2 (bits (argOf args 0) 14 14) = false)
    {n : Nat} (hn : (mapFind s2.seqs (bits (argOf args 0) 14 14)).getD 0 = n) :
    execLaunchr core slot .home s = .next (endCallWith { s2 with
      seqs := mapSet s2.seqs (bits (argOf args 0) 14 14) ((n + 1) % 2 ^ 32),
      outbox := (bits (argOf args 0) 14 14, .request n (fabricName s2 est) (.launch ((argOf args 0).toNat % 64) rec)) :: s2.outbox }
      token 0) := by
  subst hn
  simp only [execLaunchr, ht, hr]
  exact (if_neg hpkg).trans (if_neg (by simp [hf]))
end

theorem placeRecord_of_full {q rec : Nat} (h : 32 ≤ ((queueOf s q).tail + 65536 - (queueOf s q).head) % 65536) :
    placeRecord s q rec = (6, s) := if_pos h

theorem placeRecord_of_room {q rec : Nat} (h : ((queueOf s q).tail + 65536 - (queueOf s q).head) % 65536 < 32) :
    placeRecord s q rec = (0, setQueue s q { queueOf s q with
      bytes := memWrite (queueOf s q).bytes (64 * ((queueOf s q).tail % 32)) rec 64, tail := ((queueOf s q).tail + 1) % 65536 }) :=
  if_neg (Nat.not_le.2 h)

theorem execUnknownCall_of_unknown
    (hk : ∀ p ∈ s.parts, ∀ i ∈ p.2.service, ∀ e t n a, i = .call e t core slot n a → n ∉ [1, 2, 3, 0x20])
    (ht : takeCall s core slot 0 = some (est, token, args, s1)) :
    execUnknownCall core slot s = .next (endCallWith s1 token (BitVec.allOnes 64)) := by
  rw [execUnknownCall, if_neg, ht]
  simp only [List.any_eq_true, not_exists, not_and]
  intro p hp i hi hc
  cases i with
  | file => exact Bool.false_ne_true hc
  | call e t c k n a =>
    simp only [Bool.and_eq_true, beq_iff_eq, List.contains_iff_mem] at hc
    obtain ⟨⟨rfl, rfl⟩, hn⟩ := hc
    exact hk p hp _ hi e t n a rfl hn
end

end Sys2Proof.Machine
end

section
/-! SUPPORT. The result of a call and the thread that waits for it (R136, R253); O57. -/

namespace Sys2Proof.Machine

section
variable {α β : Type} {f : α → Option β} {b : β}

theorem findSome?_eq_some_of_forall {l : List α} (he : ∃ a ∈ l, f a ≠ none) (h : ∀ a ∈ l, ∀ b', f a = some b' → b' = b) :
    l.findSome? f = some b := by
  cases hl : l.findSome? f with
  | none =>
    obtain ⟨a, ha, hf⟩ := he
    exact absurd (List.findSome?_eq_none_iff.1 hl a ha) hf
  | some b' =>
    obtain ⟨a, ha, hf⟩ := List.exists_of_findSome?_eq_some hl
    rw [h a ha b' hf]
end

/-- A live thread that waits for the result of a call (R253). -/
def awaitsCall (token : Nat) (x : Slot) : Bool :=
  match x.pend with
  | .sysc _ t _ => x.live && t == token
  | _ => false

theorem awaitsCall_iff {token : Nat} {x : Slot} : awaitsCall token x = true ↔ x.live = true ∧ ∃ d r, x.pend = .sysc d token r := by
  rw [awaitsCall]
  split
  · next d t r hp => simp [hp]
  · next hp => exact ⟨nofun, fun ⟨_, d, r, h⟩ => absurd h (hp d token r)⟩

/-- The first thread that waits for the result of a call. -/
def callWaiter (s : State) (token : Nat) : Option (Nat × Nat × Slot) :=
  s.cores.findSome? (fun c => (c.2.slots.find? (fun k => awaitsCall token k.2)).map (fun k => (c.1, k.1, k.2)))

section
variable {s : State} {c k token : Nat} {d : Reg} {x : Slot} {r : Option CallEnd}

/-- A call's result lets its thread go on, where one thread alone waits for the token (R253). -/
theorem endCallWith_of_unique {C : Core} (hrun : clusterOf c ∉ s.halted) (hC : (c, C) ∈ s.cores) (hx : (k, x) ∈ C.slots)
    (hlive : x.live = true) (hpend : x.pend = .sysc d token r)
    (hu : ∀ p ∈ s.cores, ∀ y ∈ p.2.slots, ∀ d' r', y.2.live = true → y.2.pend = .sysc d' token r' → p.1 = c ∧ y.1 = k ∧ y.2 = x)
    (v : Word) : endCallWith s token v = resume c k (replyCall d v) s := by
  have hfind : callWaiter s token = some (c, k, x) := by
    refine findSome?_eq_some_of_forall ⟨_, hC, ?_⟩ fun p hp w hw => ?_
    · have hawaits : awaitsCall token x = true := awaitsCall_iff.2 ⟨hlive, d, r, hpend⟩
      simp only [ne_eq, Option.map_eq_none_iff, List.find?_eq_none, not_forall]
      exact ⟨(k, x), hx, not_not.2 hawaits⟩
    · obtain ⟨y, hy, rfl⟩ := Option.map_eq_some_iff.1 hw
      obtain ⟨hl, d', r', hp'⟩ := awaitsCall_iff.1 (List.find?_some (p := fun k : Nat × Slot => awaitsCall token k.2) hy)
      obtain ⟨h1, h2, h3⟩ := hu p hp y (List.mem_of_find?_eq_some hy) d' r' hl hp'
      rw [h1, h2, h3]
  rw [endCallWith, endCall]
  split
  · next w hw =>
    obtain rfl : w = (c, k, x) := Option.some.inj (hw.symm.trans hfind)
    dsimp only
    rw [if_neg (by simpa using hrun), hpend]
    rfl
  · next hw => exact nomatch hw.symm.trans hfind

theorem slotOf_resume_replyCall (hd : d ≠ 0) (hlow : d.toNat < 16) (hrun : clusterOf c ∉ s.halted) (v : Word) :
    let x := slotOf (resume c k (replyCall d v) s) c k
    x.g = (slotOf s c k).g.setIfInBounds d.toNat v ∧ x.wait = {} ∧ x.pend = .none := by
  intro x
  let s1 := closeCombining (threadId c k) { s with cur := issueOf s c k }
  have hend : resume c k (replyCall d v) s = endReply (deliverG d v s1) := resume_of_ends hrun rfl
  have hx : x = slotOf (endReply (deliverG d v s1)) c k := congrArg (slotOf · c k) hend
  have hdeliver := deliverG_of_low hd hlow v s1
  obtain ⟨hg, hwait, hpend⟩ := slotOf_endReply (deliverG d v s1)
  rw [hdeliver] at hg hwait hpend hx
  exact ⟨hx ▸ hg.trans (by rw [curSlot_setCurSlot]; rfl), hx ▸ hwait, hx ▸ hpend⟩
end

end Sys2Proof.Machine
end

section
/-! SUPPORT. Pages of mapped files, TDISP, and the host's accesses to device memory (R245, R254, R257); O57. -/

namespace Sys2Proof.Machine

/-! ### FILE_FAULT (R254) -/

/-- A page that a mapping may take lies in its pool, and no mapping has it (R254). -/
theorem nextPage_spec {s : State} {m : Mapped} {n : Nat} (h : nextPage s m = some n) :
    512 * m.pool ≤ n ∧ n < 512 * (m.pool + m.count) ∧ ∀ y ∈ s.mapped, n ∉ y.used := by
  have hfree := List.find?_some h
  obtain ⟨i, hi, rfl⟩ := List.mem_map.1 (List.mem_of_find?_eq_some h)
  have hlt := List.mem_range.1 hi
  refine ⟨by omega, by omega, fun y hy hu => ?_⟩
  simp only [Bool.not_eq_true', List.contains_eq_mem, decide_eq_false_iff_not, List.mem_flatMap, not_exists, not_and] at hfree
  exact hfree y hy hu

section
variable {s s1 : State} {est token : Nat} {page : List Byte} (ht : takeItem s est (.file est token) = some s1)
include ht

theorem execFileFault_of_no_fault (hf : s1.faults.find? (fun f => f.estate == est && f.token == token) = none) :
    execFileFault est token page s = .next s1 := by
  simp only [execFileFault, ht, hf]

variable {f : PageFault} (hf : s1.faults.find? (fun f => f.estate == est && f.token == token) = some f)
include hf

theorem execFileFault_of_no_mapping (hm : mappingOf s1 est f.va = none) :
    execFileFault est token page s = .next (wakeToken true s1 est token) := by
  simp only [execFileFault, ht, hf, hm]

variable {m : Mapped} (hm : mappingOf s1 est f.va = some m)
include hm

theorem execFileFault_of_no_page (hn : nextPage s1 m = none) : execFileFault est token page s = .next (wakeToken true s1 est token) := by
  simp only [execFileFault, ht, hf, hm, hn]

variable {n : Nat} (hn : nextPage s1 m = some n)
include hn

theorem execFileFault_of_no_room (hr : ¬ (f.level = 4 ∧ uses s1 est (parcelFrame (n / 512)) = true)) :
    execFileFault est token page s = .next (wakeToken true s1 est token) := by
  simp only [execFileFault, ht, hf, hm, hn]
  refine if_pos ?_
  simp only [Bool.or_eq_true, decide_eq_true_eq, Bool.not_eq_true']
  by_cases h4 : f.level = 4
  · exact .inr (Bool.eq_false_iff.2 fun hu => hr ⟨h4, hu⟩)
  · exact .inl h4

theorem execFileFault_of_room (h4 : f.level = 4) (hu : uses s1 est (parcelFrame (n / 512)) = true) {s2 : State}
    (hs2 : writePage est (4096 * n) page 64
      { s1 with mapped := s1.mapped.map (fun x => if x == m then { x with used := n :: x.used } else x) } = s2) :
    execFileFault est token page s = .next (wakeToken false
      (writePte (BitVec.ofNat 64 (4096 * n + fileFlags m.rights + 1)) 0 s2 f.entry) est token) := by
  subst hs2
  simp only [execFileFault, ht, hf, hm, hn]
  exact if_neg (by simp [h4, hu])
end

/-! ### Confidential I/O (R257) -/

section
variable {s : State} {fn : Nat}

/-- A function whose stream has failed a tag (R257). -/
def tagFailed (s : State) (fn : Nat) : State :=
  setPart s fn { partOf s fn with tdisp := { (partOf s fn).tdisp with
    state := .error, secure := false, tagFailures := (partOf s fn).tdisp.tagFailures + 1 } }

theorem execIdeTagFailure_of_run (h : (partOf s fn).tdisp.state = .run) :
    execIdeTagFailure fn s = .next (((tagFailed s fn).ops.filter (fun o =>
      (estateOf (tagFailed s fn) o.2.estate).part == fn && readsHost (tagFailed s fn) o.2)).foldl
        (fun s o => endOp s o.1 o.2 (some 0x0020)) (tagFailed s fn)) := if_neg (not_not.2 h)

theorem execTdispRequest_of_off (h : s.boot ≠ .running) (dest : Tdi) : execTdispRequest fn dest s = .next s := if_pos (by simp [h])

section
variable (h0 : fn ≠ 0) (h64 : fn < 64) (hb : s.boot = .running)
include h0 h64 hb

theorem tdisp_answers : ¬ (decide (fn = 0) || decide (64 ≤ fn) || decide (s.boot ≠ .running)) = true := by
  simp [h0, hb, h64]

theorem execTdispRequest_lock (h : (partOf s fn).tdisp.state = .configUnlocked) : execTdispRequest fn .configLocked s =
    .next (setPart s fn { partOf s fn with tdisp := { (partOf s fn).tdisp with state := .configLocked } }) := by
  refine (if_neg (tdisp_answers h0 h64 hb)).trans ?_
  rw [h]

theorem execTdispRequest_start (h : (partOf s fn).tdisp.state = .configLocked) : ∃ keys, execTdispRequest fn .run s =
    .next { setPart s fn { partOf s fn with tdisp := { (partOf s fn).tdisp with state := .run, secure := true, keys := keys } } with
      draws := s.draws + 1 } := by
  refine ⟨BitVec.ofNat 8 (Config.freeWord s.draws).toNat, (if_neg (tdisp_answers h0 h64 hb)).trans ?_⟩
  rw [h]
  rfl

theorem execTdispRequest_stop : execTdispRequest fn .configUnlocked s = .next (setPart s fn { partOf s fn with
    tdisp := { (partOf s fn).tdisp with state := .configUnlocked, secure := false, keys := 0 } }) := by
  refine (if_neg (tdisp_answers h0 h64 hb)).trans ?_
  cases (partOf s fn).tdisp.state <;> rfl
end
end

/-! ### Device memory (R136, R245) -/

section
variable {s : State} {fn hpa n : Nat}

theorem execHostMemAccess_of_no_decoder (h : hostPa s fn hpa = none) (w : Option Nat) : execHostMemAccess fn hpa n w s = .next s := by
  rw [execHostMemAccess, h]

section
variable {pa : Nat} (h : hostPa s fn hpa = some pa)
include h

theorem execHostMemAccess_of_refused {w : Option Nat} (hr : s.boot ≠ .running ∨ hostAdmitted s fn pa w.isSome = false) :
    execHostMemAccess fn hpa n w s = .next s := by
  rw [execHostMemAccess, h]
  refine if_pos ?_
  rcases hr with hr | hr <;> simp [hr]

variable (hb : s.boot = .running) (hline : pa % 64 + n ≤ 64)
include hb hline

theorem execHostMemAccess_read (ha : hostAdmitted s fn pa false = true) :
    execHostMemAccess fn hpa n none s = .next { s with hostHeld := pa / 64 :: s.hostHeld.filter (· != pa / 64) } := by
  rw [execHostMemAccess, h]
  exact if_neg (by simp [hb, ha, hline])

theorem execHostMemAccess_write (ha : hostAdmitted s fn pa true = true) (v : Nat) {s1 : State}
    (hs1 : storeHome s (.hbm pa) n v (fullMask n) = s1) :
    execHostMemAccess fn hpa n (some v) s = .next { s1 with hostHeld := s1.hostHeld.filter (· != pa / 64) } := by
  subst hs1
  rw [execHostMemAccess, h]
  exact if_neg (by simp [hb, ha, hline])
end

theorem execHostMemAccess_of_off (hb : s.boot ≠ .running) (w : Option Nat) : execHostMemAccess fn hpa n w s = .next s := by
  cases h : hostPa s fn hpa with
  | none => exact execHostMemAccess_of_no_decoder h w
  | some pa => exact execHostMemAccess_of_refused h (.inl hb)
end

theorem hbm_wf_of_memOk {s : State} (h : s.memOk = true) : Memory.wf s.hbm = true := by
  simp only [State.memOk, Bool.and_eq_true] at h
  obtain ⟨⟨⟨⟨⟨hhbm, -⟩, -⟩, -⟩, -⟩, -⟩ := h
  exact hhbm

theorem byteAt_storeHome_of_out {s : State} (h : Memory.wf s.hbm = true) {p n : Nat} (v k : Nat) {x : Home}
    (hx : ¬ x.within (.hbm p) n) : byteAt (storeHome s (.hbm p) n v k) x = byteAt s x := by
  have hframe : ∀ f : State → Byte, f (storeHome s (.hbm p) n v k).withoutHbm = f s.withoutHbm :=
    fun f => congrArg f (withoutHbm_storeHome s p n v k)
  cases x with
  | hbm a =>
    refine memGet_storeHome_of_out h v k ?_
    by_contra hin
    exact hx ⟨a - p, by omega, congrArg Home.hbm (by omega)⟩
  | scratch c o => exact hframe fun u => memGet (coreOf u c).scratch o
  | commons a => exact hframe fun u => memGet u.commons a
  | host a => exact hframe fun u => memGet u.host a
  | remote | coherent => rfl

end Sys2Proof.Machine
end

section
/-! SUPPORT. Host lines in the remote line cache, function-level reset and boot (R136, R258, R259, R262, R263); O57. -/

namespace Sys2Proof.Machine

/-! ### Host lines (R136, R259) -/

section
variable {s : State} {line : Nat}

theorem afterGo_of_granted {i : Instr} (h : awaitsGo s line = false) (f : State) : afterGo s line i f = .next f := by
  rw [afterGo, h]
  rfl

theorem afterGo_of_awaits {i : Instr} (h : awaitsGo s line = true) (f : State) :
    afterGo s line i f = .next { s with agenda := s.agenda ++ [⟨1, .event i⟩] } := by
  rw [afterGo, h]
  rfl

theorem find?_upsert {α : Type} {p : α → Bool} {x : α} (hx : p x = true) (l : List α) : (upsert p x l).find? p = some x := by
  rw [upsert]
  split
  · next h =>
    induction l with
    | nil => exact absurd h (by simp)
    | cons y l ih =>
      rw [List.map_cons]
      cases hy : p y with
      | true => simp [hx]
      | false =>
        rw [List.any_cons, hy, Bool.false_or] at h
        simpa [hy] using ih h
  · next h =>
    rw [List.find?_append, List.find?_eq_none.2 fun y hy hp => h (List.any_eq_true.2 ⟨y, hy, hp⟩)]
    simp [hx]

theorem rlcFind_rlcSet_self {r : RlcLine} (s : State) (hr : r.evicting = false) : rlcFind (rlcSet s r) r.pkg r.line = some r := by
  have hpred : (fun x : RlcLine => x.pkg == r.pkg && x.line == r.line && !x.evicting) =
      fun x => x.pkg == r.pkg && x.line == r.line && x.evicting == r.evicting := by
    funext x
    rw [hr, beq_false]
  rw [rlcFind, hpred]
  exact find?_upsert (by simp) _

theorem rlcFind_spec {pkg : Option Nat} {r : RlcLine} (h : rlcFind s pkg line = some r) :
    r.pkg = pkg ∧ r.line = line ∧ r.evicting = false := by
  have hr := List.find?_some h
  simpa [and_assoc] using hr

theorem rlcFind_rlcDrop_self (s : State) (pkg : Option Nat) (line : Nat) : rlcFind (rlcDrop s pkg line false) pkg line = none := by
  refine List.find?_eq_none.2 fun x hx hp => ?_
  have hkept := (List.mem_filter.1 hx).2
  rw [← beq_false] at hp
  simp only [hp] at hkept
  exact Bool.false_ne_true hkept

theorem host_rlcDrop (s : State) (pkg : Option Nat) (line : Nat) (b : Bool) : (rlcDrop s pkg line b).host = s.host := by
  rw [rlcDrop]
  dsimp only
  generalize s.rlc.filter _ = l
  induction l generalizing s with
  | nil => rfl
  | cons x l ih =>
    refine (ih (noteLine s x)).trans ?_
    rw [noteLine]
    split <;> rfl

/-- Host memory once a line in M has gone home (R259). -/
def homeOf (s : State) (r : RlcLine) (line : Nat) : Memory :=
  if r.state = .m then memWrite s.host (64 * line) r.data.toNat 64 else s.host

theorem snoopHost_of_none (h : rlcFind s none line = none) (inv : Bool) : snoopHost inv s line = s := by
  rw [snoopHost, h]

section
variable {r : RlcLine} (h : rlcFind s none line = some r)
include h

/-- A snoop sends a line in M home; then it is S, or with inv it is gone. -/
theorem snoopHost_of_line : ∃ s1, s1.host = homeOf s r line ∧ snoopHost true s line = rlcDrop s1 none line false ∧
    snoopHost false s line = if r.state = .i then s1 else rlcSet s1 { r with state := .s } := by
  refine ⟨if r.state = .m then { s with host := memWrite s.host (64 * line) r.data.toNat 64 } else s, ?_, ?_, ?_⟩
  · rw [homeOf, apply_ite State.host]
  · rw [snoopHost, h]
    rfl
  · rw [snoopHost, h]
    rfl

theorem host_snoopHost (inv : Bool) : (snoopHost inv s line).host = homeOf s r line := by
  obtain ⟨s1, hs1, htrue, hfalse⟩ := snoopHost_of_line h
  cases inv with
  | true => rw [htrue, host_rlcDrop, hs1]
  | false =>
    rw [hfalse]
    split <;> exact hs1

theorem state_snoopHost (hi : r.state ≠ .i) : (rlcFind (snoopHost false s line) none line).map (·.state) = some .s := by
  obtain ⟨s1, -, -, hfalse⟩ := snoopHost_of_line h
  obtain ⟨hpkg, hline, hev⟩ := rlcFind_spec h
  have hself := rlcFind_rlcSet_self (r := { r with state := .s }) s1 hev
  rw [hfalse, if_neg hi, ← hpkg, ← hline]
  exact congrArg (Option.map (·.state)) hself

theorem rlcFind_snoopHost : rlcFind (snoopHost true s line) none line = none := by
  obtain ⟨s1, -, htrue, -⟩ := snoopHost_of_line h
  rw [htrue, rlcFind_rlcDrop_self]
end

theorem rlcFind_grantLine (h : rlcFind s none line = none) (grant : Grant) :
    (rlcFind (grantLine s line grant none) none line).map (fun r => (r.state, r.data)) =
      some (if grant = .s then .s else .e, hostData s line) := by
  rw [grantLine, h]
  exact congrArg (Option.map fun r => (r.state, r.data)) (rlcFind_rlcSet_self
    (r := ⟨none, line, if grant = .s then .s else .e, hostData s line, false, false, 0, none, 0, false⟩) s rfl)

/-- The waiting accesses that a grant lets go on (R259). -/
def goneOn (s : State) (line : Nat) (g : Grant) (value : Option Packet) (ws : List (Nat × Nat)) : State :=
  ws.foldl (replyWaiter .home) (grantLine s line g value)

/-- A thread whose access waits needs its line for a store. -/
def waitsToStore (s : State) (w : Nat × Nat) : Bool := (slotOf s w.1 w.2).pend.writes

section
variable {ws : List (Nat × Nat)} (hws : hostWaiters s line = ws) (value : Option Packet)
include hws

theorem execGoResponse_of_nobody (hnone : ws = []) (grant : Grant) : execGoResponse line grant value s = .next s := by
  rw [execGoResponse, hws, hnone]
  rfl

theorem execGoResponse_of_loads (hw : ∀ w ∈ ws, waitsToStore s w = false) (hne : ws ≠ []) (grant : Grant) :
    execGoResponse line grant value s = .next (goneOn s line .s value ws) := by
  have hany : (ws.any fun w => (slotOf s w.1 w.2).pend.writes) = false := List.any_eq_false.2 fun w h => Bool.not_eq_true _ ▸ hw w h
  have hall : (ws.filter fun w => (Grant.s != .s) || !(slotOf s w.1 w.2).pend.writes) = ws :=
    List.filter_eq_self.2 fun w h => congrArg not (hw w h)
  subst hws
  simp only [execGoResponse, hany, Bool.false_eq_true, if_false]
  rw [hall]
  exact if_neg (by simpa using hne)

section
variable (hw : ∃ w ∈ ws, waitsToStore s w = true)
include hw

theorem execGoResponse_of_owner {grant : Grant} (hg : grant ≠ .s) :
    execGoResponse line grant value s = .next (goneOn s line grant value ws) := by
  obtain ⟨w, hmem, hwrites⟩ := hw
  have hany : (ws.any fun w => (slotOf s w.1 w.2).pend.writes) = true := List.any_eq_true.2 ⟨w, hmem, hwrites⟩
  have hall : (ws.filter fun w => (grant != .s) || !(slotOf s w.1 w.2).pend.writes) = ws :=
    List.filter_eq_self.2 fun w _ => by simp [hg]
  subst hws
  simp only [execGoResponse, hany, if_true]
  rw [hall]
  exact if_neg (by simpa using List.ne_nil_of_mem hmem)

theorem execGoResponse_of_shared :
    execGoResponse line .s value s = .next (if ws.filter (fun w => !waitsToStore s w) = [] then s
      else goneOn s line .s value (ws.filter (fun w => !waitsToStore s w))) := by
  obtain ⟨w, hmem, hwrites⟩ := hw
  have hany : (ws.any fun w => (slotOf s w.1 w.2).pend.writes) = true := List.any_eq_true.2 ⟨w, hmem, hwrites⟩
  have hloads : (ws.filter fun w => (Grant.s != .s) || !(slotOf s w.1 w.2).pend.writes) = ws.filter fun w => !waitsToStore s w := rfl
  subst hws
  simp only [execGoResponse, hany, if_true]
  rw [hloads, apply_ite Host.Outcome.next]
  simp only [List.isEmpty_iff]
  rfl
end
end
end


/-! ### Reset and boot (R258, R262, R263) -/

section
variable {s : State} {fn : Nat}

theorem execFunctionLevelReset_of_commit (h64 : fn < 64) (h : partCommits s fn = true) :
    execFunctionLevelReset fn s = .next { s with agenda := s.agenda ++ [⟨1, .event (.functionLevelReset fn)⟩] } :=
  if_pos (List.any_eq_true.2 ⟨fn, List.mem_range.2 h64, by simp [h]⟩)

theorem execFunctionLevelReset_of_function (h0 : 0 < fn) (h64 : fn < 64) (h : partCommits s fn = false) :
    execFunctionLevelReset fn s = .next (setPart (resetPartition s fn) fn { partOf (resetPartition s fn) fn with tdisp := {} }) := by
  have hnone : ¬ ((List.range 64).any fun p => (fn = 0 || p = fn) && partCommits s p) = true := by
    rw [List.any_eq_true]
    rintro ⟨p, -, hp⟩
    have hne : fn ≠ 0 := by omega
    simp only [hne, decide_false, Bool.false_or, Bool.and_eq_true, decide_eq_true_eq] at hp
    obtain ⟨rfl, hp⟩ := hp
    exact Bool.false_ne_true (h.symm.trans hp)
  exact (if_neg hnone).trans ((if_neg (by omega)).trans (if_pos h64))

theorem execFunctionLevelReset_of_package (h : (List.range 64).any (partCommits s) = false) :
    execFunctionLevelReset 0 s = .next (restartPrincipal ((List.range 64).foldl resetPartition s) abandonCommand) := by
  refine (if_neg ?_).trans (if_pos rfl)
  simpa using h
end

/-- Ports isolated one after another, on top of some map of ports. -/
theorem isolated_foldl_mapSet (p : Nat) (l : List Nat) : ∀ m : Map FabricPort,
    ((mapFind (l.foldl (fun m q => mapSet m q { isolated := true }) m) p).getD {}).isolated = true ↔
      p ∈ l ∨ ((mapFind m p).getD {}).isolated = true := by
  induction l with
  | nil => simp
  | cons q l ih =>
    intro m
    rw [List.foldl_cons, ih]
    by_cases hq : p = q
    · subst hq
      simp
    · rw [mapFind_mapSet_of_ne _ _ hq]
      simp [hq]

/-- After training the ports that have failed, and no others, are isolated (R232, R262). -/
theorem isolated_trainedPorts (failed : List Nat) {p : Nat} (hp : p < 8) :
    ((mapFind (trainedPorts failed) p).getD {}).isolated = true ↔ p ∈ failed := by
  rw [trainedPorts, isolated_foldl_mapSet]
  simp [mapFind, hp]

section
variable {s : State} {okA okB : Bool} {links : BootLinks}

/-- Whether a copy of the image passes the first step of a boot (R262). -/
def bootPasses (s : State) (okA okB : Bool) (copy : Bool) : Bool := imagePasses s copy (if copy then okB else okA)

/-- The copy that a boot tries: the current one, or the other where that does not pass (R262). -/
def bootCopy (s : State) (okA okB : Bool) : Bool := if bootPasses s okA okB s.current then s.current else !s.current

/-- What a boot ends in (R262 to R264). -/
def bootEnd (s : State) (okA okB : Bool) : BootState :=
  if s.cadastreFailed || !bootPasses s okA okB (bootCopy s okA okB) then .recovery
  else if s.lifeCycle = .decommissioned then .stopped else .running

/-- The package after a boot, but for its links. -/
def bootBase (s : State) (okA okB : Bool) : State :=
  { State.reset with
    host := s.host, lifeCycle := s.lifeCycle, images := s.images
    current := if bootPasses s okA okB (bootCopy s okA okB) then bootCopy s okA okB else s.current
    draws := s.draws, agenda := s.agenda, sparedRows := s.sparedRows, boot := bootEnd s okA okB }

theorem rebooted_of_running (h : bootEnd s okA okB = .running) : rebooted s okA okB links =
    { bootBase s okA okB with
      pkgId := links.pkgId, ports := trainedPorts links.failed
      reports := (trainedPorts links.failed).reverse.map (fun p => .isolation p.1) } := if_pos h

theorem rebooted_of_not_running (h : bootEnd s okA okB ≠ .running) : rebooted s okA okB links = bootBase s okA okB := if_neg h

/-- Only the links are the boot's own; the rest is as `bootBase` says. -/
theorem rebooted_eq : ∃ p ports reports, rebooted s okA okB links =
    { bootBase s okA okB with pkgId := p, ports := ports, reports := reports } := by
  by_cases h : bootEnd s okA okB = .running
  · exact ⟨_, _, _, rebooted_of_running h⟩
  · exact ⟨_, _, _, rebooted_of_not_running h⟩

theorem rebooted_boot : (rebooted s okA okB links).boot = bootEnd s okA okB := by
  obtain ⟨p, ports, reports, h⟩ := rebooted_eq (s := s) (okA := okA) (okB := okB) (links := links)
  rw [h]
  rfl

theorem rebooted_current : (rebooted s okA okB links).current =
    if bootPasses s okA okB (bootCopy s okA okB) then bootCopy s okA okB else s.current := by
  obtain ⟨p, ports, reports, h⟩ := rebooted_eq (s := s) (okA := okA) (okB := okB) (links := links)
  rw [h]
  rfl

theorem rebooted_links (h : (rebooted s okA okB links).boot = .running) : (rebooted s okA okB links).pkgId = links.pkgId ∧
    (rebooted s okA okB links).ports = trainedPorts links.failed := by
  rw [rebooted_boot] at h
  rw [rebooted_of_running h]
  exact ⟨rfl, rfl⟩

/-- A boot keeps the fuses, the image store and host memory, and everything else starts anew. -/
theorem rebooted_frame : (rebooted s okA okB links).host = s.host ∧ (rebooted s okA okB links).hbm = [] ∧
    (rebooted s okA okB links).commons = [] ∧ (rebooted s okA okB links).cores = [] ∧ (rebooted s okA okB links).cad = [] ∧
    (rebooted s okA okB links).estates = State.reset.estates ∧ (rebooted s okA okB links).cycle = 0 ∧
    (rebooted s okA okB links).lifeCycle = s.lifeCycle ∧ (rebooted s okA okB links).images = s.images := by
  obtain ⟨p, ports, reports, h⟩ := rebooted_eq (s := s) (okA := okA) (okB := okB) (links := links)
  rw [h]
  exact ⟨rfl, rfl, rfl, rfl, rfl, rfl, rfl, rfl, rfl⟩

theorem bootCopy_of_current (h : bootPasses s okA okB s.current = true) : bootCopy s okA okB = s.current := if_pos h

theorem bootCopy_of_other (h : bootPasses s okA okB s.current = false) : bootCopy s okA okB = !s.current := if_neg (by simp [h])

section
variable {copy : Bool} (hcopy : bootCopy s okA okB = copy)
include hcopy

/-- A boot whose copy passes runs on that copy, unless the Cadastre has failed or the package is decommissioned. -/
theorem rebooted_of_passes (hp : bootPasses s okA okB copy = true) (hc : s.cadastreFailed = false) (hl : s.lifeCycle ≠ .decommissioned) :
    (rebooted s okA okB links).boot = .running ∧ (rebooted s okA okB links).current = copy := by
  subst hcopy
  exact ⟨rebooted_boot.trans ((if_neg (by simp [hp, hc])).trans (if_neg hl)), rebooted_current.trans (if_pos hp)⟩

theorem rebooted_of_not_passes (hp : bootPasses s okA okB copy = false) :
    (rebooted s okA okB links).boot = .recovery ∧ (rebooted s okA okB links).current = s.current := by
  subst hcopy
  exact ⟨rebooted_boot.trans (if_pos (by simp [hp])), rebooted_current.trans (if_neg (by simp [hp]))⟩
end

theorem rebooted_of_failed (hc : s.cadastreFailed = true) : (rebooted s okA okB links).boot = .recovery :=
  rebooted_boot.trans (if_pos (by simp [hc]))
end

end Sys2Proof.Machine
end

section
/-! SUPPORT. Garnet's service and the host's events together; O57. -/

namespace Sys2Proof.Machine

/-- Settles O57: each event is its checks in order and then the change that its definition names; what a change leaves in memory, in the
remote line cache and in the package after a boot is in the lemmas above. -/
theorem hostEvents : Obligations.HostEvents := by
  unfold Obligations.HostEvents
  intro s core slot fn line
  refine ⟨fun est token args s1 ht => ?mapfile, fun est token args s1 ht => ⟨fun m => execSync_of_mapping ht, execSync_of_none ht⟩,
    fun est token args s1 ht => ⟨fun m hm hq => execUnmapfile_of_mapping ht hm hq rfl, execUnmapfile_of_none ht⟩,
    fun est token args s1 rec s2 reply ht hr => ?launchr, fun s q rec => ⟨placeRecord_of_full, placeRecord_of_room⟩,
    fun est token args s1 hk ht => execUnknownCall_of_unknown hk ht,
    fun s c k d token v C x r hrun hC hx hl hp hu => endCallWith_of_unique hrun hC hx hl hp hu v,
    fun c k d v hd hlow hrun => slotOf_resume_replyCall hd hlow hrun v, fun est token page s1 ht => ?file, fun nonce => rfl, ?tdisp,
    fun hpa n => ⟨execHostMemAccess_of_no_decoder, execHostMemAccess_of_off, fun pa hpa hline hb => ?device⟩, rfl, rfl, rfl,
    fun ha => ⟨afterGo_of_granted ha _, afterGo_of_granted ha _, fun v => afterGo_of_granted ha _⟩,
    fun ha => ⟨afterGo_of_awaits ha _, fun v => afterGo_of_awaits ha _⟩,
    fun r hr => ⟨host_snoopHost hr false, state_snoopHost hr, host_snoopHost hr true, rlcFind_snoopHost hr⟩,
    snoopHost_of_none, fun grant value => ?go, execFunctionLevelReset_of_function, fun _ => execFunctionLevelReset_of_commit,
    execFunctionLevelReset_of_package, fun okA okB links => ?boot, rfl⟩
  case mapfile =>
    exact ⟨execMapfile_of_bad_pool ht, execMapfile_of_bad_range ht, fun hp hal hle hq => execMapfile_of_quiet ht hp hal hle hq rfl,
      execMapfile_of_busy ht⟩
  case launchr =>
    exact ⟨fun hpkg hl => execLaunchr_of_own ht hr hpkg hl reply, fun hpkg hl => execLaunchr_of_refused ht hr hpkg hl reply,
      fun hpkg hf => execLaunchr_of_other ht hr hpkg hf rfl⟩
  case file =>
    refine ⟨fun f hf => ⟨execFileFault_of_no_mapping ht hf, fun m hm => execFileFault_of_no_page ht hf hm, fun m n hm hn => ?_⟩,
      execFileFault_of_no_fault ht⟩
    obtain ⟨hlow, hhigh, hfree⟩ := nextPage_spec hn
    exact ⟨hlow, hhigh, hfree, execFileFault_of_no_room ht hf hm hn, fun ⟨h4, hu⟩ => execFileFault_of_room ht hf hm hn h4 hu rfl⟩
  case tdisp =>
    exact ⟨execIdeTagFailure_of_run, fun h => if_pos h, execTdispRequest_of_off, fun h0 h64 hb =>
      ⟨execTdispRequest_lock h0 h64 hb, execTdispRequest_start h0 h64 hb, execTdispRequest_stop h0 h64 hb⟩⟩
  case device =>
    refine ⟨execHostMemAccess_read hpa hb hline, fun v ha => ⟨execHostMemAccess_write hpa hb hline ha v rfl, fun hok h hout => ?_⟩,
      fun ha => execHostMemAccess_of_refused hpa (.inr ha), fun ha v => execHostMemAccess_of_refused hpa (.inr ha)⟩
    exact byteAt_storeHome_of_out (hbm_wf_of_memOk hok) v (fullMask n) hout
  case go =>
    exact ⟨fun hnone => execGoResponse_of_nobody rfl value hnone grant, fun hne hw => execGoResponse_of_loads rfl value hw hne grant,
      fun hw => ⟨execGoResponse_of_owner rfl value hw, fun hg => hg ▸ execGoResponse_of_shared rfl value hw⟩,
      fun h => rlcFind_grantLine h grant⟩
  case boot =>
    intro t passes
    obtain ⟨hhost, hhbm, hcommons, hcores, hcad, hestates, hcycle, hlife, himages⟩ :=
      rebooted_frame (s := s) (okA := okA) (okB := okB) (links := links)
    refine ⟨rfl, fun hrun => ?_, hhost, hhbm, hcommons, hcores, hcad, hestates, hcycle, hlife, himages,
      fun hc hl => ⟨fun hp => ?_, fun hp hp' => ?_⟩, rebooted_of_failed, fun hA hB => ?_⟩
    · obtain ⟨hpkg, hports⟩ := rebooted_links hrun
      refine ⟨hpkg, fun p hp => ?_⟩
      rw [portOf, hports]
      exact isolated_trainedPorts links.failed hp
    · exact rebooted_of_passes (bootCopy_of_current hp) hp hc hl
    · exact rebooted_of_passes (bootCopy_of_other hp) hp' hc hl
    · have hnone : ∀ copy, bootPasses s okA okB copy = false := fun
        | false => hA
        | true => hB
      exact rebooted_of_not_passes rfl (hnone _)
end Sys2Proof.Machine
end

section
/-! SUPPORT. The store buffer: a store enters it, and an entry is performed at its home (R108, R121); O29. -/

namespace Sys2Proof.Machine

/-! ### A store at a plain place -/

theorem commons_wf_of_memOk {s : State} (h : s.memOk = true) : Memory.wf s.commons = true := by
  simp only [State.memOk, Bool.and_eq_true] at h
  obtain ⟨⟨⟨⟨⟨-, hcommons⟩, -⟩, -⟩, -⟩, -⟩ := h
  exact hcommons

theorem memRead_memMask_fullMask {m : Memory} (h : Memory.wf m = true) (a n v : Nat) :
    memRead (memMask m a v (fullMask n) n) a n = v % 2 ^ (8 * n) := by
  rw [memMask_fullMask, memRead_memWrite_self _ _ _ _ h, Nat.pow_mul]

/-- What a store of v at a piece leaves: its bytes, every other byte, and the cores. -/
structure Stored (s t : State) (p : Piece) (v : Nat) : Prop where
  value : bytesAt t p.home p.n = v % 2 ^ (8 * p.n)
  frame : ∀ h : Home, ¬ h.within p.home p.n → byteAt t h = byteAt s h
  cores : t.cores = s.cores

/-- Beyond the scratchpads a store at a plain place is made (R110, R120, R240). -/
theorem stored_storeHome_of_plain {s : State} {p : Piece} (hp : p.plain s) (hok : s.memOk = true)
    (hs : ∀ c o, p.home ≠ .scratch c o) (v : Nat) : Stored s (storeHome s p.home p.n v (fullMask p.n)) p v := by
  obtain ⟨home, n, plat⟩ := p
  obtain ⟨-, -, hhome⟩ := hp
  cases home with
  | scratch c o => exact absurd rfl (hs c o)
  | commons a =>
    have hpoison : a / 64 ∉ s.commonsPoison := hhome
    rw [storeHome, if_neg (by simp [hpoison])]
    refine ⟨memRead_memMask_fullMask (commons_wf_of_memOk hok) a n v, fun h hout => ?_, rfl⟩
    cases h with
    | commons x =>
      refine memGet_memMask_of_out _ _ _ _ _ _ (commons_wf_of_memOk hok) ?_
      by_contra hin
      exact hout ⟨x - a, by omega, congrArg Home.commons (by omega)⟩
    | scratch | hbm | host | remote | coherent => rfl
  | hbm q =>
    obtain ⟨hpoison, hlost⟩ := hhome
    have hmade : storeHome s (.hbm q) n v (fullMask n) = { s with
        hbm := memMask s.hbm q v (fullMask n) n, hbmPoison := s.hbmPoison.filter (· != q / 64)
        lostLines := s.lostLines.filter (·.1 != q / 64), history := s.history ++ oldBytes s (.hbm q) s.hbm n } := by
      rw [storeHome, if_neg (by simp [hpoison, lostAt_hbm_of_forall hlost])]
    refine ⟨?_, fun h hout => byteAt_storeHome_of_out (hbm_wf_of_memOk hok) v _ hout, by rw [hmade]⟩
    rw [hmade]
    exact memRead_memMask_fullMask (hbm_wf_of_memOk hok) q n v
  | host | remote | coherent => exact hhome.elim

/-- States with the same bytes have the same numbers in memory. -/
theorem bytesAt_congr {s t : State} (h : ∀ x, byteAt t x = byteAt s x) (y : Home) (n : Nat) : bytesAt t y n = bytesAt s y n := by
  cases y with
  | scratch c o => exact memRead_congr n o fun x _ _ => h (.scratch c x)
  | commons a => exact memRead_congr n a fun x _ _ => h (.commons x)
  | hbm a => exact memRead_congr n a fun x _ _ => h (.hbm x)
  | host a => exact memRead_congr n a fun x _ _ => h (.host x)
  | remote | coherent => rfl

/-- A later change that touches no byte leaves what was stored. -/
theorem Stored.of_bytes {s t u : State} {p : Piece} {v : Nat} (h : Stored s t p v) (hb : ∀ x, byteAt u x = byteAt t x) :
    bytesAt u p.home p.n = v % 2 ^ (8 * p.n) ∧ ∀ x : Home, ¬ x.within p.home p.n → byteAt u x = byteAt s x :=
  ⟨(bytesAt_congr hb ..).trans h.value, fun x hx => (hb x).trans (h.frame x hx)⟩

/-! ### An entry of the buffer at its home (R108, R121) -/

section
variable {s : State} {p : Piece}

/-- No store into a plain place is held back, or meets poison or a lost line. -/
theorem Piece.plain.away_eq (h : p.plain s) (data mask : Nat) : away s ⟨p, data, mask⟩ = false := by
  obtain ⟨-, hneeds, -⟩ := h
  simp only [away, hneeds, Bool.and_false]

theorem Piece.plain.meetsLoss_eq (h : p.plain s) (data mask : Nat) : meetsLoss s ⟨p, data, mask⟩ = none := by
  obtain ⟨-, -, hhome⟩ := h
  obtain ⟨home, n, plat⟩ := p
  cases home with
  | scratch | commons => simp [meetsLoss, lostAt]
  | hbm q =>
    obtain ⟨-, hlost⟩ := hhome
    simp [meetsLoss, lostAt_hbm_of_forall hlost]
  | host | remote | coherent => exact hhome.elim

theorem Piece.plain.meetsPoison_eq (h : p.plain s) (data mask : Nat) : meetsPoison s ⟨p, data, mask⟩ = false := by
  obtain ⟨-, -, hhome⟩ := h
  obtain ⟨home, n, plat⟩ := p
  cases home with
  | scratch | commons => simpa [meetsPoison] using fun _ _ => hhome
  | hbm q =>
    obtain ⟨hpoison, -⟩ := hhome
    simp [meetsPoison, hpoison]
  | host | remote | coherent => exact hhome.elim

variable {e : StoreEntry} {data mask : Nat}

/-- A store into a granule that its estate's tag still names (R108). -/
theorem meetsTag_of_tagged (hw : e.writes = [⟨p, data, mask⟩]) (h : ∀ a, p.home = .commons a → tagOf s (a / 64) = some e.estate) :
    meetsTag s e = false := by
  simp only [meetsTag, hw, List.any_cons, List.any_nil, Bool.or_false]
  split
  · next a ha => simp [h a ha]
  · rfl

theorem performEntry_of_plain (hp : p.plain s) (hk : e.kind = .plain) (hw : e.writes = [⟨p, data, mask⟩]) (htag : meetsTag s e = false)
    (core slot : Nat) : performEntry s core slot e =
      (.done, barLines (threadId core slot) [p.home.line] (storeHome s p.home p.n data mask)) := by
  have hwrite : performWrite s core e.estate e.task ⟨p, data, mask⟩ = (.done, storeHome s p.home p.n data mask) := by
    obtain ⟨hplat, -⟩ := hp
    rw [performWrite, hplat]
  simp [performEntry, htag, hk, hw, hp.meetsLoss_eq, hp.meetsPoison_eq, performWrites, hwrite]

/-- STORE_BUFFER_PERFORM of such an entry that may be performed: it leaves the buffer. -/
theorem execStoreBufferPerform_of_plain {core slot idx : Nat} (hp : p.plain s) (he : (slotOf s core slot).stores[idx]? = some e)
    (hmay : mayPerform ((slotOf s core slot).stores.take idx) e = true) (hrun : clusterOf core ∉ s.halted) (hk : e.kind = .plain)
    (hw : e.writes = [⟨p, data, mask⟩]) (htag : meetsTag s e = false)
    (hcores : (storeHome s p.home p.n data mask).cores = s.cores) : execStoreBufferPerform core slot idx s =
      .next (setSlot (barLines (threadId core slot) [p.home.line] (storeHome s p.home p.n data mask)) core slot { slotOf s core slot with
        stores := (slotOf s core slot).stores.take idx ++ (slotOf s core slot).stores.drop (idx + 1) }) := by
  have hgo : (!mayPerform ((slotOf s core slot).stores.take idx) e || e.writes.any (away s) ||
      s.halted.contains (clusterOf core)) = false := by simp [hmay, hw, hp.away_eq, hrun]
  have hslot : slotOf (barLines (threadId core slot) [p.home.line] (storeHome s p.home p.n data mask)) core slot = slotOf s core slot := by
    rw [slotOf, coreOf, barLines, hcores]
    rfl
  simp only [execStoreBufferPerform, he, hgo, Bool.false_eq_true, if_false, performEntry_of_plain hp hk hw htag, hslot]
end

/-! ### The entries of a store (R121, R135) -/

section
variable {core : Nat} {w v : Write} {ws part : List Write}

theorem mem_splitDies : part ∈ splitDies core ws ↔
    ∃ w ∈ ws, part = ws.filter (fun v => v.piece.die core == w.piece.die core) := by
  simp [splitDies, eq_comm]

theorem splitDies_of_one_die (h : ∀ v ∈ ws, v.piece.die core = w.piece.die core) : splitDies core (w :: ws) = [w :: ws] := by
  have hrest : (ws.map (fun v => v.piece.die core)).filter (fun d => !d == w.piece.die core) = [] := by simpa using h
  have hall : (w :: ws).filter (fun v => v.piece.die core == w.piece.die core) = w :: ws := by simpa using h
  rw [splitDies, List.map_cons, List.eraseDups_cons, hrest, List.eraseDups_nil, List.map_singleton, hall]

variable {x : Slot} {kind : StoreKind} {release : Bool} {addr : Nat} {stream : Option Nat} {ready : Bool}

/-- The writes of a part of a store are ordered on its entry's die. -/
theorem die_entryOfPart (hpart : part ∈ splitDies core ws) (hv : v ∈ part) :
    v ∈ ws ∧ v.piece.die core = (entryOfPart core x kind release addr stream ready part).die := by
  obtain ⟨w, -, rfl⟩ := mem_splitDies.1 hpart
  have hdie : ∀ u ∈ ws.filter (fun v => v.piece.die core == w.piece.die core), u.piece.die core = w.piece.die core := by simp
  obtain ⟨u, us, hus⟩ := List.exists_cons_of_ne_nil (List.ne_nil_of_mem hv)
  refine ⟨List.mem_of_mem_filter hv, (hdie v hv).trans ?_⟩
  rw [hus] at hdie ⊢
  exact (hdie u List.mem_cons_self).symm

/-- Every write of a store is in some part of it. -/
theorem exists_mem_splitDies (hv : v ∈ ws) : ∃ part ∈ splitDies core ws, v ∈ part :=
  ⟨_, mem_splitDies.2 ⟨v, hv, rfl⟩, by simp [hv]⟩
end

/-! ### A store enters the buffer (R121) -/

section
variable {s : State} {x : Access} {due : Nat} {kind : StoreKind} {w : Write} {ws : List Write} {release : Bool}
  {pend : List Write → Pending}

/-- The entries that a store of the issuing thread makes. -/
def storeEntries (s : State) (x : Access) (kind : StoreKind) (release : Bool) (ws : List Write) : List StoreEntry :=
  (splitDies s.cur.core ws).map (entryOfPart s.cur.core (curSlot s) kind release (segAddr x.seg x.off) x.stream true)

/-- The state once a store of the issuing thread has entered its buffer. -/
def storeEntered (s : State) (x : Access) (kind : StoreKind) (release : Bool) (ws : List Write) : State :=
  barLines (threadId s.cur.core s.cur.slot) (ws.map (·.piece.home.line)) (setCurSlot s { curSlot s with
    stores := (curSlot s).stores ++ storeEntries s x kind release ws, storeSeq := (curSlot s).storeSeq + 1 })

theorem storeBytes_run_of_near (hcls : w.piece.home.cls s.cur.core ≠ .core) (hnear : ∀ v ∈ w :: ws, v.piece.home.sys = false) :
    (storeBytes x due kind (w :: ws) release pend).run s =
      (enterStore x.slot kind (w :: ws) release (segAddr x.seg x.off) x.stream).run s := by
  have hfar : (w :: ws).filter (fun v => v.piece.home.sys) = [] := by simpa using hnear
  refine (run_get_bind _ s).trans ((run_ite_of_neg hcls).trans (run_ite_of_pos ?_))
  rw [hfar]
  rfl

section
variable (hslot : x.slot = s.cur.slot) (hcls : w.piece.home.cls s.cur.core ≠ .core) (hnear : ∀ v ∈ w :: ws, v.piece.home.sys = false)
include hslot hcls hnear

theorem ends_storeBytes_of_room (h : (curSlot s).buffered < 8) :
    Ends (storeBytes x due kind (w :: ws) release pend) s () (storeEntered s x kind release (w :: ws)) := by
  refine (storeBytes_run_of_near hcls hnear).trans ?_
  rw [hslot]
  exact (ends_awaitRoom_of_room h).bind rfl

theorem waits_storeBytes_of_full (h : 8 ≤ (curSlot s).buffered) :
    Waits (storeBytes x due kind (w :: ws) release pend) s { reason := .mem, peer := w.piece.home.die, key := 8 } .none s := by
  have hkey : bufferKey s s.cur.slot 8 = 8 := if_pos rfl
  refine (storeBytes_run_of_near hcls hnear).trans ?_
  rw [hslot]
  refine Waits.bind (waits_get_bind (waits_ite_of_pos h ?_)) _
  rw [hkey]
  rfl
end

theorem byteAt_storeEntered (h : Home) : byteAt (storeEntered s x kind release ws) h = byteAt s h :=
  (byteAt_withReads ..).trans (byteAt_setCurSlot ..)
end

/-- Settles O29: an entry performed is one store at a plain place, and a store enters as one entry for each die of its writes. -/
theorem bufferedStores : Obligations.BufferedStores := by
  unfold Obligations.BufferedStores
  refine ⟨fun s core slot idx e p data hok he hmay hrun hk hw hp hs htag => ?_,
    fun s x due kind w ws release pend hslot hcls hnear => ⟨fun hroom => ?_, waits_storeBytes_of_full hslot hcls hnear⟩⟩
  · have hstored := stored_storeHome_of_plain hp hok hs data
    obtain ⟨hvalue, hframe⟩ := hstored.of_bytes fun y => (byteAt_setSlot ..).trans (byteAt_withReads ..)
    exact ⟨_, execStoreBufferPerform_of_plain hp he hmay hrun hk hw (meetsTag_of_tagged hw htag) hstored.cores, hvalue, hframe,
      slotOf_setSlot_self ..⟩
  · refine ⟨_, storeEntries s x kind release (w :: ws), ends_storeBytes_of_room hslot hcls hnear hroom, rfl, fun e he => ?_, fun v hv => ?_,
      fun hone => ?_, byteAt_storeEntered⟩
    · obtain ⟨part, hpart, rfl⟩ := List.mem_map.1 he
      exact ⟨rfl, rfl, rfl, rfl, rfl, fun v hv => die_entryOfPart hpart hv⟩
    · obtain ⟨part, hpart, hmem⟩ := exists_mem_splitDies (core := s.cur.core) hv
      exact ⟨_, List.mem_map_of_mem hpart, hmem⟩
    · rw [storeEntries, splitDies_of_one_die hone]
      exact ⟨_, rfl, rfl, rfl, rfl⟩
end Sys2Proof.Machine
end

section
/-! SUPPORT. FENCE, kind by kind (R125, R302); O31. -/

namespace Sys2Proof.Machine

/-! ### Waiting for entries of the store buffer -/

section
variable {s : State} {slot : Nat} {f : StoreEntry → Bool}

theorem ends_awaitEntries_of_none (h : (slotOf s s.cur.core slot).stores.find? f = none) : Ends (awaitEntries slot f) s () s := by
  refine ends_get_bind ?_
  dsimp only
  rw [h]
  rfl

/-- The wait is for the oldest entry of those asked for. -/
theorem waits_awaitEntries_of_some {e : StoreEntry} (h : (slotOf s s.cur.core slot).stores.find? f = some e) :
    Waits (awaitEntries slot f) s (memWait e.die (bufferKey s slot (slotOf s s.cur.core slot).buffered)) .none s := by
  refine waits_get_bind ?_
  dsimp only
  rw [h]
  rfl
end

theorem scopeLe_iff {a b : Scope} : Scope.le a b = true ↔ Scope.rank a ≤ Scope.rank b := decide_eq_true_iff

/-! ### The three kinds -/

section
variable {s : State} {scope : Scope}

/-- The state once a FENCE of kind ACQ or FULL has left its acquire for the writeback point: only from PKG scope on does it close
combining (R122). -/
def fenceAcquires (scope : Scope) (s : State) : State := if 2 ≤ Scope.rank scope then addWb (ticksOf s s.cur.core + 7) .acquire s else s

theorem ends_fenceAcquires {kind : FenceKind} (hk : kind ≠ .rel) :
    Ends (if kind ≠ .rel && 2 ≤ Scope.rank scope then modify (fun s => addWb (wbPoint s 1) .acquire s) >>= fun _ => modify (endFall 1)
      else modify (endFall 1)) s () (endFall 1 (fenceAcquires scope s)) := by
  by_cases hs : 2 ≤ Scope.rank scope
  · rw [fenceAcquires, if_pos hs]
    exact ends_ite_of_pos (by simp [hk, hs]) (ends_modify_bind rfl)
  · rw [fenceAcquires, if_neg hs]
    exact ends_ite_of_neg (by simp [hs]) rfl

theorem execFence_acq : execFence .acq scope s = .next (endFall 1 (fenceAcquires scope s)) :=
  run_of_ends (ends_get_bind (ends_ite_of_neg nofun (ends_ite_of_neg nofun (ends_fenceAcquires nofun))))

theorem execFence_full_of_none (h : (curSlot s).stores.find? (fun e => Scope.le e.cls scope) = none) :
    execFence .full scope s = .next (endFall 1 (fenceAcquires scope s)) :=
  run_of_ends (ends_get_bind (ends_ite_of_pos rfl ((ends_awaitEntries_of_none h).bind (ends_ite_of_neg nofun (ends_fenceAcquires nofun)))))

theorem execFence_full_of_some {e : StoreEntry} (h : (curSlot s).stores.find? (fun e => Scope.le e.cls scope) = some e) :
    execFence .full scope s = .next (takeWait { reason := .mem, peer := e.die, key := (curSlot s).buffered } .none s) := by
  have hkey : bufferKey s s.cur.slot (curSlot s).buffered = (curSlot s).buffered := if_pos rfl
  refine run_of_waits (waits_get_bind (waits_ite_of_pos rfl (Waits.bind ?_ _)))
  have hw := waits_awaitEntries_of_some h
  rwa [← curSlot, hkey] at hw

/-- A buffered store once a FENCE.REL has marked those of its scope as barrier entries; next is the number of the first entry behind the
fence (R131 note 2). -/
def StoreEntry.markedBy (scope : Scope) (next : Nat) (e : StoreEntry) : StoreEntry :=
  if Scope.rank e.cls ≤ Scope.rank scope then { e with
    barrier := some (e.barrier.getD next)
    fence := if e.barrier.isSome = true ∧ Scope.rank scope ≤ Scope.rank e.fence then e.fence else scope } else e

theorem execFence_rel : execFence .rel scope s = .next (endFall 1 (setCurSlot s { curSlot s with
    stores := (curSlot s).stores.map (StoreEntry.markedBy scope (curSlot s).storeSeq) })) := by
  refine run_of_ends (ends_get_bind (ends_ite_of_neg nofun (ends_ite_of_pos rfl (ends_modify_bind (ends_ite_of_neg nofun ?_)))))
  simp only [ends_modify, Bool.and_eq_true, scopeLe_iff]
  rfl

theorem byteAt_fenceAcquires (h : Home) : byteAt (fenceAcquires scope s) h = byteAt s h := by
  rw [fenceAcquires]
  split
  · exact byteAt_addWb ..
  · rfl

theorem curSlot_addWb (s : State) (due : Nat) (a : WbAct) (r : Option Nat) : curSlot (addWb due a s r) = curSlot s := by
  have hcur : (addWb due a s r).cur = s.cur := rfl
  rw [curSlot, hcur, slotOf, coreOf_addWb]
  rfl

theorem cur_fenceAcquires : (fenceAcquires scope s).cur = s.cur := by
  rw [fenceAcquires]
  split <;> rfl

/-- The acquire is left with the core, whose slots stay as they were. -/
theorem curSlot_fenceAcquires : curSlot (fenceAcquires scope s) = curSlot s := by
  rw [fenceAcquires]
  split
  · exact curSlot_addWb ..
  · rfl
end

theorem cur_endFall (t : Nat) (s : State) : (endFall t s).cur = { s.cur with pops := [] } := commitPops_cur s

/-- An instruction that falls through keeps its thread's g registers, whatever it has popped. -/
theorem g_curSlot_endFall (t : Nat) (s : State) : (curSlot (endFall t s)).g = (curSlot s).g := by
  obtain ⟨streams, hslot⟩ := slotOf_commitPops s s.cur.slot
  have hcommit : curSlot (commitPops s) = { curSlot s with streams := streams } := by
    rw [curSlot, commitPops_cur]
    exact hslot
  rw [endFall, curSlot_setCurSlot, paced, Slot.fall_g, hcommit]

/-- Settles O31: each kind is one chain of actions, and only a full FENCE waits. -/
theorem fenceResult : Obligations.FenceResult := by
  unfold Obligations.FenceResult
  refine ⟨fun s c k due => rfl,
    fun s scope => ⟨execFence_acq, execFence_rel, fun hnone => ?_, fun e rest he => ?_, fun _ h => ⟨?_, ?_⟩⟩⟩
  · exact execFence_full_of_none (by simpa [scopeLe_iff] using hnone)
  · refine execFence_full_of_some ?_
    rw [← List.head?_filter]
    exact congrArg List.head? he
  · exact (byteAt_endFall ..).trans (byteAt_fenceAcquires h)
  · have hcur : (endFall 1 (fenceAcquires scope s)).cur = { s.cur with pops := [] } := by rw [cur_endFall, cur_fenceAcquires]
    have hg := g_curSlot_endFall 1 (fenceAcquires scope s)
    rwa [curSlot, hcur, curSlot_fenceAcquires] at hg
end Sys2Proof.Machine
end

section
/-! SUPPORT. SPAWN: its checks, its plats, its task (R140 to R143, R351); O46. -/

namespace Sys2Proof.Machine

theorem run_congr {m n : Exec Unit} {s t : State} (h : m.run s = n.run t) : run m s = run n t := by
  rw [run, run, runAt, runAt, h]

/-- The task that a SPAWN makes (R141); s is the state at its checks, s1 that once its list is loaded. -/
def spawnedTask (s s1 : State) (e : EReg) (plats : List Plat) : Task :=
  { taskOfKey (curSlot s).estate (estateOf s1 (curSlot s).estate).part (eval s e.toNat) (eval s (e.toNat + 1)) (eval s (e.toNat + 2))
      (eval s (e.toNat + 3)) plats with parent := (curSlot s).task }

/-- The root of the job that a spawned task belongs to: that of the task that spawns it. -/
def spawnedRoot (s : State) : Option Nat :=
  if (taskOf s (curSlot s).task).root = 0 then none else some (taskOf s (curSlot s).task).root

/-- SPAWN once its list is loaded. -/
def spawnListed (d : Reg) (e : EReg) (s : State) (list : Nat) : Exec Unit := do
  let plats ← match platsOf list (eval s (e.toNat + 5)).toNat 0 with
    | .ok ps => pure ps
    | .error i => spawnIllegal i
  let s1 ← get
  match (curSlot s).stores with
  | f :: _ => waitFor (memWait f.die 1)
  | [] => do
    let t := spawnedTask s s1 e plats
    if !placeRoom s1 (curSlot s).estate s1.cur.core t.place t.cluster t.width then set (writesG 1 d 0x8000000000000002 s1)
    else
      let r := createTask s1 s1.cur.core t (spawnedRoot s) (fun s t => pushDeque s t.core t)
      set (match r.1 with
        | some h => writesG 1 d (BitVec.ofNat 64 h) r.2
        | none => writesG 1 d 0x8000000000000001 r.2)

/-- What makes a SPAWN malformed but for its plats (R140, R351). -/
def badSpawn (s : State) (e : EReg) : Bool :=
  bits (eval s e.toNat) 0 1 = 1 || !keyOk (eval s (e.toNat + 3)) || 8 < (eval s (e.toNat + 5)).toNat ||
    bits (eval s (e.toNat + 3)) 0 40 < (taskOf s (curSlot s).task).ts

theorem execSpawn_eq (d : Reg) (e : EReg) : execSpawn d e = run (do
    useG [] (some d)
    let s ← get
    if isService s.cur.core s.cur.slot then spawnIllegal 0xF
    if badSpawn s e then spawnIllegal 0xF
    let list ← if eval s (e.toNat + 5) = 0 then pure 0 else
      loadOperand 0 ((eval s (e.toNat + 4)).toNat : Int) (16 * (eval s (e.toNat + 5)).toNat) 16
    spawnListed d e s list) := rfl

section
variable {s s0 s1 : State} {d : Reg} {e : EReg} {list : Nat} (ht : Takes [] (some d) s s0)
include ht

theorem execSpawn_of_bad (hbad : isService s0.cur.core s0.cur.slot = true ∨ badSpawn s0 e = true) :
    execSpawn d e s = .next (takeTrap ⟨.illegal, 0, 0xF, 0⟩ s0) := by
  rw [execSpawn_eq]
  refine run_of_traps (ht.bind_traps (traps_get_bind ?_))
  by_cases hserv : isService s0.cur.core s0.cur.slot = true
  · exact traps_ite_trapWith hserv
  · exact traps_ite_of_neg hserv (traps_ite_trapWith (hbad.resolve_left hserv))

/-- SPAWN with its checks passed and its list loaded is what follows. -/
theorem execSpawn_of_list (hserv : isService s0.cur.core s0.cur.slot = false) (hgood : badSpawn s0 e = false)
    (hnone : eval s0 (e.toNat + 5) = 0 → list = 0 ∧ s1 = s0)
    (hlist : eval s0 (e.toNat + 5) ≠ 0 →
      Ends (loadOperand 0 ((eval s0 (e.toNat + 4)).toNat : Int) (16 * (eval s0 (e.toNat + 5)).toNat) 16) s0 list s1) :
    execSpawn d e s = run (spawnListed d e s0 list) s1 := by
  rw [execSpawn_eq]
  refine run_congr ((ends_bind ht).trans ((run_get_bind _ _).trans ((run_ite_of_neg (by simp [hserv])).trans
    ((run_ite_of_neg (by simp [hgood])).trans ?_))))
  by_cases hc : eval s0 (e.toNat + 5) = 0
  · obtain ⟨rfl, rfl⟩ := hnone hc
    exact run_ite_of_pos hc
  · exact (run_ite_of_neg hc).trans (ends_bind (hlist hc))

end

section
variable {s s1 : State} {d : Reg} {e : EReg} {list : Nat}

theorem spawnListed_of_bad_plat {i : Nat} (hplats : platsOf list (eval s (e.toNat + 5)).toNat 0 = .error i) :
    run (spawnListed d e s list) s1 = .next (takeTrap ⟨.illegal, 0, BitVec.ofNat 64 i, 0⟩ s1) := by
  refine run_of_traps ?_
  rw [spawnListed, hplats]
  rfl

section
variable {plats : List Plat} (hplats : platsOf list (eval s (e.toNat + 5)).toNat 0 = .ok plats)
include hplats

theorem spawnListed_of_stores {f : StoreEntry} {rest : List StoreEntry} (hstores : (curSlot s).stores = f :: rest) :
    run (spawnListed d e s list) s1 = .next (takeWait { reason := .mem, peer := f.die, key := 1 } .none s1) := by
  refine run_of_waits ?_
  rw [spawnListed, hplats, hstores]
  rfl

variable (hstores : (curSlot s).stores = [])
include hstores

theorem spawnListed_of_no_room (hroom : placeRoom s1 (curSlot s).estate s1.cur.core (spawnedTask s s1 e plats).place
      (spawnedTask s s1 e plats).cluster (spawnedTask s s1 e plats).width = false) :
    run (spawnListed d e s list) s1 = .next (writesG 1 d 0x8000000000000002 s1) := by
  refine run_of_ends ?_
  rw [spawnListed, hplats, hstores]
  exact ends_get_bind (ends_ite_of_pos (by rw [hroom]; rfl) rfl)

/-- Where a cluster has room the task is made, or the spawn is FULL. -/
theorem spawnListed_of_room {r : Option Nat × State} (hroom : placeRoom s1 (curSlot s).estate s1.cur.core (spawnedTask s s1 e plats).place
      (spawnedTask s s1 e plats).cluster (spawnedTask s s1 e plats).width = true)
    (hcreate : createTask s1 s1.cur.core (spawnedTask s s1 e plats) (spawnedRoot s) (fun s t => pushDeque s t.core t) = r) :
    run (spawnListed d e s list) s1 = .next (match r.1 with
      | some h => writesG 1 d (BitVec.ofNat 64 h) r.2
      | none => writesG 1 d 0x8000000000000001 r.2) := by
  subst hcreate
  refine run_of_ends ?_
  rw [spawnListed, hplats, hstores]
  exact ends_get_bind (ends_ite_of_neg (by rw [hroom]; nofun) rfl)

end
end

theorem freshName_lt (used : List Nat) (fuel : Nat) : ∀ c, freshName used c fuel < 2 ^ 32 := by
  induction fuel with
  | zero => exact fun c => Nat.mod_lt _ (by decide)
  | succ fuel ih =>
    intro c
    rw [freshName]
    split
    · exact ih _
    · exact Nat.mod_lt _ (by decide)

theorem estate_of_freshHandle (s : State) (est : Nat) : (freshHandle s est).1 / 2 ^ 32 = est := by
  rw [freshHandle, Nat.mul_comm, Nat.mul_add_div (by decide), fresh, Nat.div_eq_of_lt (freshName_lt ..), Nat.add_zero]

/-- The handle of a new task carries its estate (R140). -/
theorem estate_of_createTask {s s' : State} {core h : Nat} {t : Task} {root : Option Nat} {push : State → Task → Bool × State}
    (hc : createTask s core t root push = (some h, s')) : h / 2 ^ 32 = t.estate := by
  rw [createTask] at hc
  split at hc
  · cases hc
  · dsimp only at hc
    split at hc
    · cases hc
      exact estate_of_freshHandle ..
    · cases hc

end Sys2Proof.Machine
end

section
/-! SUPPORT. The end of a thread, and YIELD (R50, R172, R200, R300, R358, R378); O46. -/

namespace Sys2Proof.Machine

/-! ### TDONE and EXIT -/

section
variable {s : State}

theorem run_threadDone_of_service (h : isService s.cur.core s.cur.slot = true) :
    run threadDone s = .next (takeTrap ⟨.illegal, 0, illegalAux s, 0⟩ s) :=
  run_of_traps (traps_get_bind (traps_ite_illegal h))

theorem run_threadDone_of_held (h : isService s.cur.core s.cur.slot = false) (hheld : endHeld s s.cur.core s.cur.slot = true) :
    run threadDone s = .next (takeWait { reason := .mem, peer := dieOf s.cur.core, key := 15 } .none s) :=
  run_of_waits (waits_get_bind (waits_ite_of_neg (by simp [h]) (waits_ite_of_pos hheld rfl)))

theorem run_threadDone_of_free (h : isService s.cur.core s.cur.slot = false) (hheld : endHeld s s.cur.core s.cur.slot = false) :
    run threadDone s = .next (endAt (.ends true) s) :=
  run_of_ends (ends_get_bind (ends_ite_of_neg (by simp [h]) (ends_ite_of_neg (by simp [hheld]) rfl)))

end

/-! ### Effects on threads at their writeback points (R33) -/

section
variable {u : State} {c : Nat} {b : Wb} (hwb : (coreOf u c).wb = [b]) (hthread : b.act.onThread = true)
include hwb hthread

theorem flushThreads_of_due (hdue : b.due < ticksOf u c) :
    flushThreads c u = applyThread c (setCore u c { coreOf u c with wb := [] }) b := by
  simp [flushThreads, hwb, hthread, hdue]

theorem flushThreads_of_not_due (hdue : ticksOf u c ≤ b.due) : flushThreads c u = setCore u c (coreOf u c) := by
  have hsame : ({ coreOf u c with wb := [b] } : Core) = coreOf u c := by rw [← hwb]
  simp [flushThreads, hwb, hthread, Nat.not_lt.2 hdue, hsame]

end

section
variable {u : State} {c q : Nat} {last : Bool}

theorem endSlot_of_keeper (h : isKeeper c q = true) : endSlot u c q last = startKeeper (clearSlot (orphanOps u c q) c q false) c :=
  if_pos h

theorem endSlot_of_courier (h : isCourier c q = true) : endSlot u c q last = endHandler u c .refused := by
  have hnot : isKeeper c q = false := by
    simp only [isKeeper, isCourier, Bool.and_eq_true, beq_iff_eq] at h ⊢
    simp [h.2]
  exact (if_neg (by simp [hnot])).trans (if_pos h)

theorem endSlot_of_work (h : isService c q = false) : endSlot u c q last =
    if (slotOf u c q).task = 0 then clearSlot (orphanOps u c q) c q false
    else endThread u c q (if last then .done else .exited) := by
  obtain ⟨hk, hc⟩ := Bool.or_eq_false_iff.1 h
  exact (if_neg (by simp [hk])).trans (if_neg (by simp [hc]))

end

/-! ### YIELD (R200, R378) -/

section
variable {s : State}

theorem run_yieldTurn_of_pass (h : (curSlot s).request = none ∨ isService s.cur.core s.cur.slot = true) :
    run yieldTurn s = .next (endFall 1 s) := by
  refine run_of_ends (ends_get_bind (ends_ite_of_pos ?_ rfl))
  rcases h with h | h <;> simp [h]

/-- The state once the thread that issues a YIELD waits SAVED. -/
def yieldSaved (s : State) : State := setCurSlot (endFall 1 s) { curSlot (endFall 1 s) with wait := { reason := .saved } }

theorem run_yieldTurn_of_request {r : Request} (h : (curSlot s).request = some r) (hserv : isService s.cur.core s.cur.slot = false) :
    run yieldTurn s = .next (yielded (yieldSaved s) (curSlot s).task) :=
  run_of_ends (ends_get_bind (ends_ite_of_neg (by simp [h, hserv]) rfl))

theorem cad_foldl_commitPop (core : Nat) (ps : List Popped) : ∀ s, (ps.foldl (commitPop core) s).cad = s.cad := by
  induction ps with
  | nil => exact fun s => rfl
  | cons p ps ih =>
    intro s
    refine (ih _).trans ?_
    rw [commitPop]
    split <;> rfl

theorem entryOf_yieldSaved (s : State) (p : Nat) : entryOf (yieldSaved s) p = entryOf s p := by
  have hcad : (yieldSaved s).cad = s.cad := cad_foldl_commitPop s.cur.core s.cur.pops s
  rw [entryOf, hcad, entryOf]

theorem foldl_of_fixed {α : Type} {f : State → α → State} {l : List α} (h : ∀ a ∈ l, f s a = s) : l.foldl f s = s := by
  induction l with
  | nil => rfl
  | cons a l ih =>
    rw [List.foldl_cons, h a List.mem_cons_self]
    exact ih fun b hb => h b (List.mem_cons_of_mem a hb)

theorem endNotice_of_no_notice {core : Nat} (hstate : (entryOf s (parcelCore core)).state ≠ .reclaiming)
    (hretiring : (entryOf s (parcelCore core)).retiring = false) : endNotice s core = s := if_neg (by simp [hstate, hretiring])

/-- Where no core of the crew is under notice and the crew does not rest, a YIELD changes nothing else. -/
theorem yielded_of_no_notice {h : Nat} (hrest : crewRests s h = false)
    (hcores : ∀ q ∈ crewSlots s h, (entryOf s (parcelCore q.1)).state ≠ .reclaiming ∧
      (entryOf s (parcelCore q.1)).retiring = false) :
    yielded s h = s := by
  have hnotices : (((crewSlots s h).map (·.1)).eraseDups).foldl endNotice s = s := by
    refine foldl_of_fixed fun c hc => ?_
    obtain ⟨q, hq, rfl⟩ := List.mem_map.1 (List.mem_eraseDups.1 hc)
    obtain ⟨hstate, hretiring⟩ := hcores q hq
    exact endNotice_of_no_notice hstate hretiring
  rw [yielded]
  split
  · rfl
  · next p ps hcrew =>
    rw [hcrew] at hnotices
    simp only [hnotices, hrest]
    rfl

end

end Sys2Proof.Machine
end

section
/-! SUPPORT. Barriers (R49, R282); O46. -/

namespace Sys2Proof.Machine

/-! ### The crew of a task, whatever waits for a writeback point -/

theorem mem_of_mapFind {m : Map β} {k : Nat} {x : β} (h : mapFind m k = some x) : (k, x) ∈ m := by
  induction m with
  | nil => cases h
  | cons p m ih =>
    rw [mapFind] at h
    split at h
    · next hk =>
      cases h
      rw [← hk]
      exact List.mem_cons_self
    · exact List.mem_cons_of_mem _ (ih h)

section
variable {α : Type} {x0 : β} {g : Nat × β → List α} {k : Nat} (hdef : g (k, x0) = [])
include hdef

theorem mem_flatMap_of_mapFind {m : Map β} {q : α} (hq : q ∈ g (k, (mapFind m k).getD x0)) : q ∈ m.flatMap g := by
  cases hm : mapFind m k with
  | none =>
    rw [hm, Option.getD_none, hdef] at hq
    cases hq
  | some x =>
    rw [hm] at hq
    exact List.mem_flatMap.2 ⟨_, mem_of_mapFind hm, hq⟩

/-- What the entries of a map hold together stays the same when an entry is set that holds what the map holds at its key. -/
theorem mem_flatMap_mapSet {b : β} (q : α) (m : Map β) (hb : g (k, b) = g (k, (mapFind m k).getD x0)) :
    q ∈ (mapSet m k b).flatMap g ↔ q ∈ m.flatMap g := by
  induction m with
  | nil =>
    change q ∈ g (k, b) ++ [] ↔ q ∈ []
    rw [hb, List.append_nil]
    exact iff_of_eq (congrArg (q ∈ ·) hdef)
  | cons p m ih =>
    obtain ⟨j, x⟩ := p
    rw [mapSet]
    split
    · rw [List.flatMap_cons, List.mem_append, hb]
      exact ⟨fun h => h.elim (mem_flatMap_of_mapFind hdef) id, .inr⟩
    · split
      · next hk =>
        subst hk
        rw [List.flatMap_cons, List.flatMap_cons, hb]
        simp [mapFind]
      · next hk =>
        rw [List.flatMap_cons, List.flatMap_cons, List.mem_append, List.mem_append]
        refine or_congr_right (ih ?_)
        rw [hb, mapFind, if_neg (Ne.symm hk)]

end

/-- A change of a core that keeps its slots keeps every crew. -/
theorem mem_crewSlots_setCore {s : State} {c : Nat} {x : Core} (hx : x.slots = (coreOf s c).slots) (h : Nat) (q : Nat × Nat × Slot) :
    q ∈ crewSlots (setCore s c x) h ↔ q ∈ crewSlots s h := by
  refine mem_flatMap_mapSet (x0 := {}) rfl q s.cores ?_
  dsimp only
  rw [hx]
  rfl

/-- The state once an arrival at barrier n is on its way to its writeback point. -/
def arrivalSent (s : State) (n : Nat) : State := addWb (wbPoint s 1) (.arrive n) s

theorem arriving_arrivalSent {s : State} {c k : Nat} (n : Nat) (h : ¬ (c = s.cur.core ∧ k = s.cur.slot)) :
    arriving (arrivalSent s n) c k n = arriving s c k n := by
  by_cases hc : c = s.cur.core
  · subst hc
    have hk : (s.cur.slot == k) = false := beq_eq_false_iff_ne.2 fun hk => h ⟨rfl, hk.symm⟩
    simp [arriving, arrivalSent, curCore, hk]
  · rw [arriving, arrivalSent, addWb, setCurCore, coreOf_setCore_of_ne _ _ hc, arriving]

/-- Whether the phase completes does not depend on the arrival that the issuing thread has just sent. -/
theorem lastToArrive_arrivalSent (s : State) (n : Nat) : lastToArrive (arrivalSent s n) n = lastToArrive s n := by
  have hslot : curSlot (arrivalSent s n) = curSlot s := curSlot_addWb ..
  rw [lastToArrive, lastToArrive, hslot]
  refine congrArg (!(taskOf s (curSlot s).task).crew.any (· == .saved) && ·) (Bool.eq_iff_iff.2 ?_)
  rw [List.all_eq_true, List.all_eq_true]
  refine forall_congr' fun q => imp_congr (mem_crewSlots_setCore (by rfl) _ q) ?_
  by_cases hown : q.1 = s.cur.core ∧ q.2.1 = s.cur.slot
  · have hcur : (arrivalSent s n).cur = s.cur := rfl
    simp [hcur, hown.1, hown.2]
  · rw [arriving_arrivalSent n hown]
    rfl

/-! ### The barrier instructions -/

section
variable {s : State} {n : Nat}

theorem traps_checkCrew (h : (curSlot s).task = 0) : Traps checkCrew s ⟨.illegal, 0, illegalAux s, 0⟩ s := by
  refine traps_get_bind ?_
  rw [if_pos h]
  exact traps_illegal s

theorem ends_checkCrew (h : (curSlot s).task ≠ 0) : Ends checkCrew s () s := ends_get_bind (ends_ite_of_neg h rfl)

theorem ends_arrive (hphase : inPhase s n = false) (hstores : ∀ e ∈ (curSlot s).stores, Scope.le e.cls .die = false) :
    Ends (arrive n) s () (arrivalSent s n) := by
  have hnone : (curSlot s).stores.filter (fun e => Scope.le e.cls .die) = [] := by simpa using hstores
  refine ends_get_bind (ends_ite_of_neg (by simp [hphase]) ?_)
  rw [hnone]
  rfl

end

section
variable {s : State} {n : BitVec 2}

/-- The wait for the phase of a barrier (R197). -/
def barrierWaits (n : BitVec 2) (s : State) : State := takeWait { reason := .barrier, peer := n.toNat } .none s

theorem execBar_of_no_crew (h : (curSlot s).task = 0) : execBar n s = .next (takeTrap ⟨.illegal, 0, illegalAux s, 0⟩ s) :=
  run_of_traps (traps_bind_iff.2 (.inl (traps_checkCrew h)))

theorem execBarArrive_of_no_crew (h : (curSlot s).task = 0) : execBarArrive n s = .next (takeTrap ⟨.illegal, 0, illegalAux s, 0⟩ s) :=
  run_of_traps (traps_bind_iff.2 (.inl (traps_checkCrew h)))

theorem execBarWait_of_no_crew (h : (curSlot s).task = 0) : execBarWait n s = .next (takeTrap ⟨.illegal, 0, illegalAux s, 0⟩ s) :=
  run_of_traps (traps_bind_iff.2 (.inl (traps_checkCrew h)))

variable (hcrew : (curSlot s).task ≠ 0)
include hcrew

theorem execBarWait_of_out (h : inPhase s n.toNat = false) : execBarWait n s = .next (endFall 1 s) :=
  run_of_ends ((ends_checkCrew hcrew).bind (ends_get_bind (ends_ite_of_neg (by simp [h]) rfl)))

theorem execBarWait_of_in (h : inPhase s n.toNat = true) : execBarWait n s = .next (barrierWaits n s) :=
  run_of_waits ((ends_checkCrew hcrew).bind_waits (waits_get_bind (waits_ite_of_pos h rfl)))

/-- A BAR that has made its arrival goes on once the phase is over (R282). -/
theorem execBar_of_half (hhalf : (curSlot s).barHalf = true) (h : inPhase s n.toNat = false) : execBar n s = .next (endFall 1 s) :=
  run_of_ends ((ends_checkCrew hcrew).bind (ends_get_bind (ends_ite_of_neg (by simp [hhalf]) (ends_ite_of_neg (by simp [h]) rfl))))

variable (hphase : inPhase s n.toNat = false) (hstores : ∀ e ∈ (curSlot s).stores, Scope.le e.cls .die = false)
include hphase hstores

theorem execBarArrive_of_out : execBarArrive n s = .next (endFall 1 (arrivalSent s n.toNat)) :=
  run_of_ends ((ends_checkCrew hcrew).bind ((ends_arrive hphase hstores).bind rfl))

theorem execBar_of_last (hhalf : (curSlot s).barHalf = false) (hlast : lastToArrive (arrivalSent s n.toNat) n.toNat = true) :
    execBar n s = .next (endFall 1 (arrivalSent s n.toNat)) := by
  rw [lastToArrive_arrivalSent] at hlast
  exact run_of_ends ((ends_checkCrew hcrew).bind (ends_get_bind (ends_ite_of_pos (by simp [hhalf])
    ((ends_arrive hphase hstores).bind (ends_ite_of_neg (by simp [hlast]) rfl)))))

theorem execBar_of_not_last (hhalf : (curSlot s).barHalf = false) (hlast : lastToArrive (arrivalSent s n.toNat) n.toNat = false) :
    execBar n s = .next (barrierWaits n (setCurSlot (arrivalSent s n.toNat)
      { curSlot (arrivalSent s n.toNat) with barHalf := true })) := by
  rw [lastToArrive_arrivalSent] at hlast
  exact run_of_waits ((ends_checkCrew hcrew).bind_waits (waits_get_bind (waits_ite_of_pos (by simp [hhalf])
    ((ends_arrive hphase hstores).bind_waits (waits_ite_of_pos (by simp [hlast]) rfl)))))

end

/-! ### The arrival (R49) -/

/-- With the last arrival of a crew that is not saved in part the phase completes. -/
theorem barriers_completePhase {s : State} {h n : Nat} (hn : n < 4) (hsaved : (taskOf s h).crew.all (· != .saved) = true)
    (hcrew : crewSlots s h ≠ [])
    (hall : ∀ q ∈ crewSlots s h, q.2.2.arrived[n]? = some (some ((taskOf s h).barriers[n]?.getD 0))) :
    (taskOf (completePhase s h n) h).barriers[n]? = some (((taskOf s h).barriers[n]?.getD 0 + 1) % 65536) := by
  have hnone : (taskOf s h).crew.any (· == .saved) = false := by
    rw [List.all_eq_true] at hsaved
    rw [List.any_eq_false]
    exact fun m hm => by simpa using hsaved m hm
  have harrived : (crewSlots s h).all (fun q => (q.2.2.arrived[n]?.getD none) == some ((taskOf s h).barriers[n]?.getD 0)) = true := by
    rw [List.all_eq_true]
    intro q hq
    rw [hall q hq]
    exact beq_self_eq_true _
  rw [completePhase]
  dsimp only
  rw [if_neg (by simp [hnone, hcrew, harrived]), taskOf_setTask_self]
  simp [hn]

theorem applyThread_arrive {b : Wb} {n : Nat} (h : b.act = .arrive n) (u : State) (core : Nat) :
    applyThread core u b = arrived u core b.slot n := by
  rw [applyThread, h]

theorem applyThread_ends {b : Wb} {last : Bool} (h : b.act = .ends last) (u : State) (core : Nat) :
    applyThread core u b = endSlot u core b.slot last := by
  rw [applyThread, h]

/-- Settles O46: each instruction is its checks one after the other, and the effect at a writeback point follows from its kind. -/
theorem taskInstructionResults : Obligations.TaskInstructionResults := by
  unfold Obligations.TaskInstructionResults
  refine ⟨?spawn, ?ends, ?bar⟩
  case spawn =>
    intro s s0 s1 d e list ht entry key count x bad
    have hbad : bad ↔ isService s0.cur.core s0.cur.slot = true ∨ badSpawn s0 e = true := by
      simp [bad, badSpawn, entry, key, count, x, or_assoc]
    have hzero : count = 0 ↔ eval s0 (e.toNat + 5) = 0 := by simp [count, BitVec.toNat_eq]
    refine ⟨fun h => execSpawn_of_bad ht (hbad.1 h), fun h hnone hlist => ?_⟩
    rw [hbad, not_or, Bool.not_eq_true, Bool.not_eq_true] at h
    obtain ⟨hserv, hgood⟩ := h
    have hrun : execSpawn d e s = run (spawnListed d e s0 list) s1 :=
      execSpawn_of_list ht hserv hgood (fun h => hnone (hzero.2 h)) fun h => hlist (mt hzero.1 h)
    refine ⟨fun i hi => hrun.trans (spawnListed_of_bad_plat hi), fun plats hplats => ?_⟩
    refine ⟨fun f rest hst => hrun.trans (spawnListed_of_stores hplats hst),
      fun hst hroom => hrun.trans (spawnListed_of_no_room hplats hst hroom), fun hst hroom => ?_⟩
    exact ⟨fun s2 hc => hrun.trans (spawnListed_of_room hplats hst hroom hc),
      fun h s2 hc => ⟨hrun.trans (spawnListed_of_room hplats hst hroom hc), estate_of_createTask hc⟩⟩
  case ends =>
    intro s c k x saved
    refine ⟨fun h => ⟨run_threadDone_of_service h, run_threadDone_of_service h⟩, run_threadDone_of_held,
      fun h hheld => ⟨run_threadDone_of_free h hheld, run_threadDone_of_free h hheld⟩, ⟨rfl, rfl⟩,
      fun u b hwb hthread => ⟨flushThreads_of_due hwb hthread, flushThreads_of_not_due hwb hthread⟩, fun u b last hact => ?act,
      fun h => ⟨run_yieldTurn_of_pass h, run_yieldTurn_of_pass h⟩, fun r hr hserv => ⟨run_yieldTurn_of_request hr hserv,
        run_yieldTurn_of_request hr hserv, fun hrest hcores => ?waits⟩⟩
    case act =>
      rw [applyThread_ends hact]
      exact ⟨endSlot_of_keeper, endSlot_of_courier, fun h h0 => (endSlot_of_work h).trans (if_pos h0),
        fun h h0 => (endSlot_of_work h).trans (if_neg h0)⟩
    case waits =>
      refine yielded_of_no_notice hrest fun q hq => ?_
      rw [show entryOf saved (parcelCore q.1) = entryOf s (parcelCore q.1) from entryOf_yieldSaved s _]
      exact hcores q hq
  case bar =>
    intro s n x sent waits
    refine ⟨fun h => ⟨execBar_of_no_crew h, execBarArrive_of_no_crew h, execBarWait_of_no_crew h⟩,
      fun h => ⟨execBarWait_of_out h, execBarWait_of_in h, fun hp hst => ⟨execBarArrive_of_out h hp hst, execBar_of_last h hp hst,
        execBar_of_not_last h hp hst⟩, execBar_of_half h⟩, fun u core b hact => ?_⟩
    rw [applyThread_arrive hact]
    exact ⟨rfl, fun hsaved hothers hall => barriers_completePhase n.isLt hsaved hothers hall⟩

end Sys2Proof.Machine
end

section
/-! SUPPORT. Tables of the state whose every entry is changed, and a core that takes a task out of the queues (R143, R144). -/

namespace Sys2Proof.Machine

theorem mapFind_map_snd (m : Map β) (f : β → β) (k : Nat) : mapFind (m.map (fun p => (p.1, f p.2))) k = (mapFind m k).map f := by
  induction m with
  | nil => rfl
  | cons p m ih =>
    simp only [List.map_cons, mapFind]
    split
    · rfl
    · exact ih

/-- A core once every core has been changed in one way, which leaves a core without state as it is. -/
theorem coreOf_map_cores (s : State) {f : Core → Core} (hf : f {} = {}) (c : Nat) :
    coreOf { s with cores := s.cores.map (fun p => (p.1, f p.2)) } c = f (coreOf s c) := by
  rw [coreOf, mapFind_map_snd, coreOf]
  cases mapFind s.cores c with
  | none => exact hf.symm
  | some x => rfl

theorem taskOf_setTask_of_ne (s : State) {h k : Nat} (x : Task) (hk : k ≠ h) : taskOf (setTask s h x) k = taskOf s k := by
  simp [taskOf, mapFind_mapSet_of_ne _ _ hk]

theorem coreOf_setTask (s : State) (h : Nat) (x : Task) (c : Nat) : coreOf (setTask s h x) c = coreOf s c := rfl

theorem taskOf_setCore (s : State) (c : Nat) (x : Core) (h : Nat) : taskOf (setCore s c x) h = taskOf s h := rfl

/-- Of a core, a task that leaves every queue leaves its deque and its shadow slots. -/
theorem coreOf_unqueue (s : State) (h c : Nat) : coreOf (unqueue s h) c = { coreOf s c with
    deque := (coreOf s c).deque.filter (· != h), shadow := (coreOf s c).shadow.filter (· != h) } :=
  coreOf_map_cores s (f := fun x => { x with deque := x.deque.filter (· != h), shadow := x.shadow.filter (· != h) }) rfl c

theorem byteAt_setTask (s : State) (h : Nat) (x : Task) (a : Home) : byteAt (setTask s h x) a = byteAt s a := by
  cases a <;> rfl

theorem byteAt_unqueue (s : State) (h : Nat) (a : Home) : byteAt (unqueue s h) a = byteAt s a := by
  cases a with
  | scratch c o => simp only [byteAt, coreOf_unqueue]
  | commons _ | hbm _ | host _ | remote _ _ | coherent _ _ => rfl

/-- A task in a shadow slot of a core that has taken it: a saved one stays saved (R144). -/
def workTaken (s : State) (core h : Nat) : State :=
  let s1 := setTask (unqueue s h) h { taskOf s h with phase := if (taskOf s h).phase = .saved then .saved else .shadow }
  setCore s1 core { coreOf s1 core with shadow := (coreOf s1 core).shadow ++ [h] }

theorem execTaskTake_of_findWork {s : State} {core h : Nat} (hcore : core < garnet) (hroom : (coreOf s core).shadow.length < 2)
    (hrun : clusterOf core ∉ s.halted) (hwork : findWork s core = some h) : execTaskTake core s = .next (workTaken s core h) := by
  rw [execTaskTake, if_neg (by simp [hcore, hroom, hrun]), hwork]
  rfl

theorem coreOf_workTaken (s : State) (core h : Nat) : coreOf (workTaken s core h) core = { coreOf s core with
    deque := (coreOf s core).deque.filter (· != h), shadow := (coreOf s core).shadow.filter (· != h) ++ [h] } := by
  rw [workTaken, coreOf_setCore_self, coreOf_setTask, coreOf_unqueue]

theorem byteAt_workTaken (s : State) (core h : Nat) (a : Home) : byteAt (workTaken s core h) a = byteAt s a := by
  rw [workTaken, byteAt_setCore, byteAt_setTask, byteAt_unqueue]
  rfl

end Sys2Proof.Machine
end

section
/-! SUPPORT. The start of a task on its slots (R52, R145). -/

namespace Sys2Proof.Machine

/-- One thread of a task that starts, on its slot: its start is an acquire (R134, R145). -/
def startThread (t : Task) (s : State) (p : (Nat × Nat) × Nat) : State :=
  closeCombining (threadId p.1.1 p.1.2) (setSlot s p.1.1 p.1.2 (entrySlot s t p.2 (slotOf s p.1.1 p.1.2) (ticksOf s p.1.1 + 1)))

theorem slotOf_startThread_self (t : Task) (s : State) (c k i : Nat) :
    slotOf (startThread t s ((c, k), i)) c k = entrySlot s t i (slotOf s c k) (ticksOf s c + 1) := slotOf_setSlot_self ..

theorem slotOf_startThread_of_ne (t : Task) (s : State) {p : (Nat × Nat) × Nat} {c k : Nat} (h : p.1 ≠ (c, k)) :
    slotOf (startThread t s p) c k = slotOf s c k := by
  change slotOf (setSlot s p.1.1 p.1.2 _) c k = _
  by_cases hc : c = p.1.1
  · subst hc
    exact slotOf_setSlot_of_ne _ _ fun hk => h (by rw [hk])
  · exact slotOf_setSlot_other_core _ _ _ _ hc

theorem slotOf_foldl_startThread_of_not_mem (t : Task) {c k : Nat} {l : List ((Nat × Nat) × Nat)} (h : (c, k) ∉ l.map (·.1)) :
    ∀ s, slotOf (l.foldl (startThread t) s) c k = slotOf s c k := by
  induction l with
  | nil => exact fun s => rfl
  | cons p l ih =>
    rw [List.map_cons, List.mem_cons, not_or] at h
    exact fun s => (ih h.2 _).trans (slotOf_startThread_of_ne t s (Ne.symm h.1))

/-- A thread of a task that starts stands in its slot as R52 gives it, whatever slots the threads after it take. -/
theorem slotOf_foldl_startThread (t : Task) {c k i : Nat} {l : List ((Nat × Nat) × Nat)} (hnd : (l.map (·.1)).Nodup)
    (h : ((c, k), i) ∈ l) : ∀ s, ∃ s' old ready, slotOf (l.foldl (startThread t) s) c k = entrySlot s' t i old ready := by
  induction l with
  | nil => cases h
  | cons p l ih =>
    intro s
    obtain ⟨hnot, hnd⟩ := List.nodup_cons.1 hnd
    rcases List.mem_cons.1 h with rfl | h
    · exact ⟨_, _, _, (slotOf_foldl_startThread_of_not_mem t hnot _).trans (slotOf_startThread_self ..)⟩
    · exact ih hnd h _

/-- The task once it runs on its slots. -/
def startedTask (s : State) (core h : Nat) (slots : List (Nat × Nat)) : Task :=
  { taskOf s h with phase := .running, ran := true, core := core, waiting := none, crew := slots.map (fun p => .running p.1 p.2) }

/-- A task starts its threads one after another, once its cores are refreshed and its lines prefetched (R145). -/
theorem startTask_eq (s : State) (core h : Nat) (slots : List (Nat × Nat)) :
    ∃ s1, startTask s core h slots = slots.zipIdx.foldl (startThread (startedTask s core h slots)) s1 := ⟨_, rfl⟩

theorem slotOf_startTask (s : State) {core h i c k : Nat} {slots : List (Nat × Nat)} (hi : slots[i]? = some (c, k)) (hnd : slots.Nodup) :
    ∃ s' old ready, slotOf (startTask s core h slots) c k = entrySlot s' (startedTask s core h slots) i old ready := by
  obtain ⟨s1, hstart⟩ := startTask_eq s core h slots
  rw [hstart]
  refine slotOf_foldl_startThread _ ?_ (List.mem_zipIdx_iff_getElem?.2 hi) s1
  rwa [List.zipIdx_map_fst]

/-- The registers of a thread at task entry that depend on its task (R52). -/
theorem entrySlot_g (s : State) (t : Task) (i : Nat) (old : Slot) (ready : Nat) :
    (entrySlot s t i old ready).g[1]? = some t.arg0 ∧ (entrySlot s t i old ready).g[2]? = some t.arg1 ∧
    (entrySlot s t i old ready).g[3]? = some (BitVec.ofNat 64 i) ∧
    (entrySlot s t i old ready).g[4]? = some (BitVec.ofNat 64 t.width) := by
  simp [entrySlot, handlerSlot]

section
variable {s : State} {core h : Nat} {slots : List (Nat × Nat)} (hslots : startSlots s core h = some slots)
include hslots

theorem execTaskStart_of_slots (hcore : shadowCore s h = some core) (hphase : (taskOf s h).phase = .shadow) :
    execTaskStart h s = .next (startTask s core h slots) := by
  simp only [execTaskStart, hcore, hslots]
  exact if_neg (by simp [hphase])

theorem execRestore_of_slots (hphase : (taskOf s h).phase = .saved) (hin : (coreOf s core).shadow.contains h = true) :
    execRestore core h s = .next (restoreTask s core h slots) := by
  simp only [execRestore, hslots]
  exact if_neg (by simpa [hphase] using hin)

end

end Sys2Proof.Machine
end

section
/-! SUPPORT. Admission, commit, the frontier, the forced save and the priority of the frontier (R147, R154 to R156, R158, R201); O47. -/

namespace Sys2Proof.Machine

/-- A task that takes its admission number, or enters its next stripe (R147). -/
def entersStripe (s : State) (h : Nat) : State :=
  let t := taskOf s h
  let p := partOf s t.part
  match t.admission with
  | none => setPart (setTask s h { t with admission := some p.admissions }) t.part { p with admissions := p.admissions + 1 }
  | some _ => setTask s h { t with stripes := t.stripes + 1 }

theorem execAdmission_of_shadow {s : State} {h : Nat} (hlive : (mapFind s.tasks h).isSome = true) (hphase : (taskOf s h).phase = .shadow)
    (hnot : isAdmitted (taskOf s h) = false) : execAdmission h s =
      .next (if isAdmitted (taskOf (entersStripe s h) h) then onAdmitted (entersStripe s h) h else entersStripe s h) :=
  if_neg (by simp [Option.isNone_eq_false_iff.2 hlive, hphase, hnot])

/-! ### Commit (R155, R156) -/

theorem execTaskCommit_of_mayCommit {s : State} {h : Nat} (hlive : (mapFind s.tasks h).isSome = true)
    (hmay : mayCommit s (taskOf s h) = true) : execTaskCommit h s = .next (commitTask s h) := if_pos (by simp [hlive, hmay])

/-- The commit of a task that has written no line and awaits no answer is complete: the task is no longer live. -/
theorem commitTask_of_no_lines {s : State} {h : Nat} (hlines : (writtenLines s (taskOf s h)).1 = [])
    (hsame : (writtenLines s (taskOf s h)).2 = s) (hnone : ∀ o ∈ s.outstanding, o.task ≠ h) :
    mapFind (commitTask s h).tasks h = none := by
  have hout : s.outstanding.any (·.task == h) = false := by simpa using hnone
  simp [commitTask, hlines, hsame, commitNeeds, hout]

/-! ### The frontier (R154, R158) -/

theorem execFrontierPass_of_min {s : State} {part m : Nat} (hmin : ((frontierTasks s part).map (·.ts)).min? = some m)
    (hcycle : s.cycle % 64 = 0) :
    execFrontierPass part s = .next (setPart s part { partOf s part with frontier := max (partOf s part).frontier m }) := by
  simp only [execFrontierPass, hmin]
  exact if_neg (by simp [hcycle])

/-- The minimum is no later than any task that holds the frontier back. -/
theorem le_ts_of_min {s : State} {part m : Nat} (hmin : ((frontierTasks s part).map (·.ts)).min? = some m) {t : Task}
    (ht : t ∈ liveTasks s) (hpart : t.part = part) (hholds : ¬ (t.phase = .aborting ∧ t.requeue = false)) : m ≤ t.ts := by
  have hmem : t ∈ frontierTasks s part := by
    rw [frontierTasks, List.mem_filter]
    exact ⟨ht, by simpa [hpart, imp_iff_not_or] using hholds⟩
  exact (List.min?_eq_some_iff.1 hmin).2 _ (List.mem_map_of_mem hmem)

theorem priorityDue_of_waited {s : State} {core h since : Nat} (hcore : shadowCore s h = some core)
    (hsince : (taskOf s h).waiting = some since)
    (hstart : (taskOf s h).phase = .saved ∨ ((taskOf s h).phase = .shadow ∧ mayStart s (taskOf s h) = true))
    (hhandle : (taskOf s h).handle = h) (hfrontier : atFrontier s h = true) (hslots : startSlots s core h = none)
    (hdue : since + 4096 ≤ s.cycle) : priorityDue s (taskOf s h) = true := by
  have hwaits : waitsForSlots s (taskOf s h) = true := by
    rcases hstart with hs | ⟨hs, hm⟩
    · simp [waitsForSlots, hhandle, hcore, hs]
    · simp [waitsForSlots, hhandle, hcore, hs, hm]
  simp [priorityDue, hhandle, hcore, hsince, hwaits, hfrontier, hslots, hdue]

/-- The tasks that the priority of a frontier task on a core may abort: those of its cluster that are not at the frontier (R158). -/
def priorityVictims (s : State) (core : Nat) : List Task :=
  (liveTasks s).filter (fun v => runsIn s (clusterOf core) v && !atFrontier s v.handle)

theorem execFrontierPriority_of_due {s : State} {core h : Nat} (hcore : shadowCore s h = some core)
    (hdue : priorityDue s (taskOf s h) = true) :
    execFrontierPriority h s =
      let s1 := setTask s h { taskOf s h with waiting := some s.cycle }
      .next (match (priorityVictims s core).foldl laterTask none with
        | some v => abortTasks s1 [v.handle]
        | none => s1) := by
  simp only [execFrontierPriority, hcore]
  rw [if_neg (by simp [hdue])]
  change (match (priorityVictims s core).foldl laterTask none with | some v => _ | none => _) = _
  cases (priorityVictims s core).foldl laterTask none <;> rfl

/-! ### The forced save (R201) -/

theorem execForcedSave_of_settled {s : State} {h : Nat} {p : Nat × Nat × Slot} {rest : List (Nat × Nat × Slot)}
    (hcrew : crewSlots s h = p :: rest)
    (hsettled : ∀ q ∈ crewSlots s h, coreLeaving s q.1 = false ∧ settled s q.1 q.2.1 = true ∧ clusterOf q.1 ∉ s.halted)
    (hcommit : (∃ q ∈ crewSlots s h, q.2.2.request.any (·.source == 2) = true) → ∀ q ∈ crewSlots s h, committing s q.1 = false)
    (hdue : ∃ q ∈ crewSlots s h, q.2.2.pastDeadline s.cycle = true) (hphase : (taskOf s h).phase = .running) :
    execForcedSave h s = .next (saveCrew s p.1 h false) := by
  have hleft : ∀ q ∈ crewSlots s h,
      ((crewSlots s h).any (fun p => p.2.2.request.any (·.source == 2)) && committing s q.1) = false := by
    intro q hq
    by_cases hreq : ∃ q ∈ crewSlots s h, q.2.2.request.any (·.source == 2) = true
    · rw [hcommit hreq q hq, Bool.and_false]
    · rw [Bool.and_eq_false_iff]
      exact .inl (by rwa [← Bool.not_eq_true, List.any_eq_true])
  have hall : (crewSlots s h).all (fun q => !coreLeaving s q.1 && !s.halted.contains (clusterOf q.1) &&
      !((crewSlots s h).any (fun p => p.2.2.request.any (·.source == 2)) && committing s q.1)) = true := by
    rw [List.all_eq_true]
    intro q hq
    obtain ⟨hstay, -, hrun⟩ := hsettled q hq
    rw [hleft q hq, hstay, List.contains_eq_mem, decide_eq_false hrun]
    rfl
  have hset : (crewSlots s h).all (fun q => settled s q.1 q.2.1) = true := by
    rw [List.all_eq_true]
    intro q hq
    obtain ⟨-, hset, -⟩ := hsettled q hq
    exact hset
  have hany : (crewSlots s h).any (fun q => q.2.2.pastDeadline s.cycle) = true := List.any_eq_true.2 hdue
  simp only [execForcedSave, hcrew] at hall hset hany ⊢
  exact if_pos (by rw [hall, hset, hany, hphase]; rfl)

end Sys2Proof.Machine

namespace Sys2Proof
open Machine

/-- Settles O47: each event of a task runs to its own end. -/
theorem taskEvents : Obligations.TaskEvents := by
  unfold Obligations.TaskEvents
  intro s core h
  refine ⟨?take, ?admission, ?start, ?commit, ?idle, ?frontier, ?save, ?priority⟩
  case take =>
    intro hcore hroom hrun hwork
    refine ⟨workTaken s core h, execTaskTake_of_findWork hcore hroom hrun hwork, ?_, ?_, taskOf_setTask_self .., fun k hk => ?_,
      byteAt_workTaken s core h⟩
    · rw [coreOf_workTaken]
    · rw [coreOf_workTaken]
    · exact taskOf_setTask_of_ne _ _ hk
  case admission =>
    intro hlive hphase hnot p s1
    have hs1 : s1 = entersStripe s h := by
      simp only [s1, entersStripe]
      cases (taskOf s h).admission <;> rfl
    rw [hs1]
    exact execAdmission_of_shadow hlive hphase hnot
  case start =>
    refine fun slots hcore hslots => ⟨fun hphase => ⟨execTaskStart_of_slots hslots hcore hphase, fun i c k hi hnd => ?_⟩,
      execRestore_of_slots hslots⟩
    obtain ⟨s', old, ready, hx⟩ := slotOf_startTask s (core := core) (h := h) hi hnd
    obtain ⟨h1, h2, h3, h4⟩ := entrySlot_g s' (startedTask s core h slots) i old ready
    dsimp only
    rw [hx]
    exact ⟨rfl, rfl, rfl, rfl, h1, h2, h3, h4, rfl, rfl, rfl, rfl, rfl, rfl⟩
  case commit => exact fun hlive hmay => ⟨execTaskCommit_of_mayCommit hlive hmay, commitTask_of_no_lines⟩
  case idle => exact fun part hcycle => if_pos hcycle
  case frontier => exact fun part m hmin hcycle => ⟨execFrontierPass_of_min hmin hcycle, fun t => le_ts_of_min hmin⟩
  case save => exact fun p rest hcrew hsettled hcommit hdue hphase => execForcedSave_of_settled hcrew hsettled hcommit hdue hphase
  case priority =>
    intro since hcore hsince hstart hhandle hfrontier hslots hdue
    exact execFrontierPriority_of_due hcore (priorityDue_of_waited hcore hsince hstart hhandle hfrontier hslots hdue)

end Sys2Proof
end

section
/-! SUPPORT. What Garnet's reads and writes of host memory leave alone, and the end of a command (R250, R259). -/

namespace Sys2Proof.Machine

/-! ### Host memory as Garnet reaches it (R259) -/

/-- The state but for host memory, the remote line cache, which holds lines of it, and the history of stores. -/
def State.withoutHost (s : State) : State := { s with host := [], rlc := [], history := [] }

theorem withoutHost_withHost (s : State) (m : Memory) : { s with host := m }.withoutHost = s.withoutHost := rfl

theorem withoutHost_foldl {α : Type} {f : State → α → State} (hf : ∀ s a, (f s a).withoutHost = s.withoutHost) (l : List α) :
    ∀ s, (l.foldl f s).withoutHost = s.withoutHost := by
  induction l with
  | nil => exact fun s => rfl
  | cons a l ih => exact fun s => (ih _).trans (hf s a)

theorem withoutHost_noteLine (s : State) (r : RlcLine) : (noteLine s r).withoutHost = s.withoutHost := by
  rw [noteLine]
  split <;> rfl

theorem withoutHost_rlcDrop (s : State) (pkg : Option Nat) (line : Nat) (evicting : Bool) :
    (rlcDrop s pkg line evicting).withoutHost = s.withoutHost :=
  withoutHost_foldl withoutHost_noteLine _ s

theorem withoutHost_snoopHost (inv : Bool) (s : State) (line : Nat) : (snoopHost inv s line).withoutHost = s.withoutHost := by
  rw [snoopHost]
  split
  · rfl
  · next r _ =>
    have home : (if r.state = .m then { s with host := memWrite s.host (64 * line) r.data.toNat 64 } else s).withoutHost =
        s.withoutHost := by
      split
      · exact withoutHost_withHost ..
      · rfl
    dsimp only
    split
    · exact (withoutHost_rlcDrop ..).trans home
    · split
      · exact home
      · exact home

theorem withoutHost_hostRead (s : State) (pa n : Nat) : (hostRead s pa n).2.withoutHost = s.withoutHost :=
  withoutHost_foldl (withoutHost_snoopHost false) _ s

theorem withoutHost_hostWrite (s : State) (pa n data : Nat) : (hostWrite s pa n data).withoutHost = s.withoutHost :=
  withoutHost_foldl (withoutHost_snoopHost true) _ s

/-! ### The end of a command (R248, R250) -/

@[simp] theorem queueOf_takeHead (s : State) (q : Nat) : queueOf (takeHead s q) q = { queueOf s q with
    head := if (queueOf s q).passed then (queueOf s q).head else ((queueOf s q).head + 1) % 65536, busy := none, passed := false,
    turn := true, crews := [], saved := 0 } :=
  queueOf_setQueue_self ..

theorem queues_notifyDone (s : State) (part : Nat) (d7 : Word) : (notifyDone s part d7).queues = s.queues := by
  rw [notifyDone]
  split <;> rfl

/-- The completion record is host memory's, and its notification its partition's: of the queue only what takeHead sets changes. -/
theorem queueOf_endCommand (s : State) (q rec status cad committed : Nat) :
    queueOf (endCommand s q rec status cad committed) q = queueOf (takeHead s q) q := by
  have hqueue : ∀ {t : State} (part : Nat), t.withoutHost = s.withoutHost →
      queueOf (notifyDone t part (recDw rec 7)) q = queueOf s q := by
    intro t part h
    have hqueues : t.withoutHost.queues = s.withoutHost.queues := by rw [h]
    change t.queues = s.queues at hqueues
    rw [queueOf, queues_notifyDone, hqueues, queueOf]
  rw [endCommand, queueOf_takeHead, queueOf_takeHead, hqueue]
  dsimp only
  split
  · rfl
  · exact (withoutHost_hostWrite ..).trans (withoutHost_hostWrite ..)

end Sys2Proof.Machine
end

section
/-! SUPPORT. The commands of the principal's queues, launch records and jobs, one by one (R146, R178, R195, R225, R235, R247 to R252, R258,
R262 to R268); O56. -/

namespace Sys2Proof.Machine

/-! ### The queue registers (R244, R247, R248) -/

theorem writeTail_of_room {s : State} {q value : Nat} (h : (value % 65536 + 65536 - (queueOf s q).head) % 65536 ≤ 32) :
    writeTail s q value = setQueue s q { queueOf s q with tail := value % 65536 } := if_neg (by omega)

/-- The records of an overrun are dropped, and counted (R248). -/
theorem writeTail_of_overrun {s : State} {q value : Nat} (h : 32 < (value % 65536 + 65536 - (queueOf s q).head) % 65536) :
    writeTail s q value = setQueue s q { queueOf s q with
      tail := value % 65536, head := value % 65536,
      dropped := min 65535 ((queueOf s q).dropped + (value % 65536 + 65536 - (queueOf s q).head) % 65536),
      passed := (queueOf s q).busy.isSome } := if_pos h

theorem execTailWrite_of_responds {s : State} {fn q : Nat} (h : responds s fn q = true) (value : Nat) :
    execTailWrite fn q value s = .next (writeTail s q value) := if_pos h

/-- A write to a queue block that responds: slots and TAIL take it, every other register is RO (R247). -/
theorem execRegisterWrite_of_responds {s : State} {fn q o : Nat} (h : responds s fn q = true) (ho : o < 4096) (h8 : o % 8 = 0) (v : Word) :
    execRegisterWrite fn (4096 * q + o) v s =
      if o < 0x800 then .next (setQueue s q { queueOf s q with bytes := memWrite (queueOf s q).bytes o v.toNat 8 })
      else if o = 0x800 then .next (writeTail s q v.toNat)
      else .next s := by
  have hq : q < 64 := by
    rw [responds, Bool.and_eq_true, decide_eq_true_eq] at h
    exact h.1
  have hdiv : (4096 * q + o) / 4096 = q := by omega
  have hmod : (4096 * q + o) % 4096 = o := by omega
  rw [execRegisterWrite, hdiv, hmod]
  exact (if_neg (by omega)).trans (if_neg (by simp [h, h8]))

/-! ### Launch records and jobs (R146, R250) -/

section
variable {s : State} {q rec est : Nat} (hrec : headRecord s q = some rec) (huser : queueUser s q = some est)
  (hcode : bits (recDw rec 0) 56 8 = 0) (hboot : s.boot = .running) (hturn : recordTurn s q = true)
include hrec huser hcode hboot hturn

theorem execLaunchRecord_of_error {st : Nat} {s1 : State} (hroot : rootOf s est rec = (.error st, s1)) :
    execLaunchRecord q s = .next (takeHead (endJob s1
      { estate := est, queue := q, record := (recDw rec 6).toNat, tag := recDw rec 7 } st) q) := by
  simp only [execLaunchRecord, hrec, huser]
  rw [if_neg (by simp [hcode, hboot, hturn])]
  simp only [hroot]

theorem execLaunchRecord_of_root {t : Task} {s1 s2 : State} {h : Nat} (hroot : rootOf s est rec = (.ok t, s1))
    (hcreate : createTask s1 garnet t none (fun s t => pushRing s garnet t) = (some h, s2)) :
    let j : Job := { estate := est, queue := q, record := (recDw rec 6).toNat, tag := recDw rec 7 }
    execLaunchRecord q s = .next (takeHead { s2 with jobs := mapSet s2.jobs h j } q) := by
  simp only [execLaunchRecord, hrec, huser]
  rw [if_neg (by simp [hcode, hboot, hturn])]
  simp only [hroot, hcreate]

end

theorem execJobComplete_of_done {s : State} {root : Nat} {j : Job} (hj : mapFind s.jobs root = some j)
    (hdone : ∀ t ∈ liveTasks s, t.root ≠ root) :
    execJobComplete root s = .next { endJob s j 0 with jobs := mapErase s.jobs root } := by
  simp only [execJobComplete, hj]
  exact if_neg (by simpa using hdone)

/-! ### Taking a command (R248, R251) -/

/-- The command of a code that record rec holds is taken from queue q of the principal: the package runs, and no item of a
service queue goes first. -/
structure TakesCommand (s : State) (q rec code : Nat) : Prop where
  head : headRecord s q = some rec
  code : bits (recDw rec 0) 56 8 = code
  user : queueUser s q = some 0
  boot : s.boot = .running
  turn : recordTurn s q = true

section
variable {s : State} {q rec : Nat}

/-- A command that is taken has its effect. -/
theorem command_of_takes {code : Nat} (h : TakesCommand s q rec code) (f : Nat → State → State) :
    command q code f s = .next (f rec s) := by
  simp [command, h.head, h.code, h.user, h.boot, h.turn]

theorem execUnknownCommand_of_takes {code : Nat} (h : TakesCommand s q rec code) (hcode : 0x0E ≤ code) :
    execUnknownCommand q s = .next (endCommand s q rec 5) := by
  simp [execUnknownCommand, h.head, h.code, h.user, h.boot, h.turn, hcode]

/-! ### Partitions (R178, R251, R258) -/

theorem mem_freeEstates_getD {n : Nat} (h : freeEstates s ≠ []) :
    (freeEstates s)[n % (freeEstates s).length]?.getD 0 ∈ freeEstates s := by
  have hlt : n % (freeEstates s).length < (freeEstates s).length := Nat.mod_lt _ (List.length_pos_of_ne_nil h)
  rw [List.getElem?_eq_getElem hlt]
  exact List.getElem_mem hlt

theorem execCreatePartition_of_takes {image : Nat × State} {ds : List Word} (h : TakesCommand s q rec 1) (h0 : opnd rec 1 ≠ 0)
    (h63 : opnd rec 1 ≤ 63) (himage : hostRead s (opnd rec 2) 256 = image) (hds : (cutBits 64 image.1 32).map (BitVec.ofNat 64) = ds)
    (hok : imageOk ds = true)
    (hpart : charterPart s 0 true (BitVec.ofNat 64 (0x40 + opnd rec 1)) (BitVec.ofNat 64 (parcelKey (opnd rec 1))) ≠ none)
    (hfree : freeEstates s ≠ []) : ∃ id ∈ freeEstates s,
      let s1 := openPart { image.2 with draws := s.draws + 1 } (opnd rec 1) id
      execCreatePartition q s = .next (endCommand (setEstate
        (setEntry s1 (parcelEstate id) { entryOf s1 (parcelEstate id) with inuse := true })
        id { part := opnd rec 1, guarantor := 0, dwords := ds }) q rec 0) := by
  subst himage hds
  refine ⟨_, mem_freeEstates_getD (n := (Config.freeWord s.draws).toNat) hfree, (command_of_takes h _).trans (congrArg _ ?_)⟩
  refine (if_neg (by simp [h0, h63])).trans (if_neg ?_)
  simp [hok, hpart, hfree]

/-- What RESET_PARTITION comes to once the reset has begun: its record waits for the estates that dissolve (R258). -/
def resetEnds (q rec : Nat) (t : State) : State :=
  if dissolving t then setQueue t q { queueOf t q with busy := some rec } else endCommand t q rec 0

section
variable (h : TakesCommand s q rec 2) (h0 : opnd rec 1 ≠ 0) (h63 : opnd rec 1 ≤ 63)
include h h0 h63

theorem execResetPartition_of_commits (hbusy : (queueOf s q).busy = none) (hc : partCommits s (opnd rec 1) = true) :
    execResetPartition q s = .next s := by
  refine (command_of_takes h _).trans (congrArg _ ((if_neg (by simp [h0, h63])).trans (if_pos ?_)))
  simp [hbusy, hc]

theorem execResetPartition_of_idle (hbusy : (queueOf s q).busy = none) (hc : partCommits s (opnd rec 1) = false) :
    execResetPartition q s = .next (resetEnds q rec (resetPartition s (opnd rec 1))) := by
  refine (command_of_takes h _).trans (congrArg _ ((if_neg (by simp [h0, h63])).trans ((if_neg (by simp [hc])).trans ?_)))
  simp only [hbusy]
  rfl

theorem execResetPartition_of_begun (hbusy : (queueOf s q).busy = some rec) : execResetPartition q s = .next (resetEnds q rec s) := by
  refine (command_of_takes h _).trans (congrArg _ ((if_neg (by simp [h0, h63])).trans ((if_neg (by simp [hbusy])).trans ?_)))
  simp only [hbusy]
  rfl

end

/-- GIVE_TO_PARTITION of one parcel that the principal may give (R251). -/
theorem execGiveToPartition_of_one (h : TakesCommand s q rec 3) (hp : goodParcel (opnd rec 1) = true) (hn : opnd rec 2 = 1)
    (hdest : opnd rec 3 < 16384) (hgive : principalGive s (opnd rec 1) (opnd rec 3) = some 1) :
    execGiveToPartition q s = .next (endCommand (setEntry s (opnd rec 1)
      { entryOf s (opnd rec 1) with state := .offeredGive, target := some (opnd rec 3), wipe := false, term := 0 }) q rec 0 1) := by
  have hroom : parcelIndex (opnd rec 1) + 1 ≤ kindCount (parcelKind (opnd rec 1)) := by simpa [goodParcel] using hp
  refine (command_of_takes h _).trans (congrArg _ ((if_neg (by simpa [hp, hn, hdest] using hroom)).trans ?_))
  simp only [hn, giveRun, hgive]

/-! ### Retirement and spares (R267, R268) -/

theorem execRetireCore_of_retired (h : TakesCommand s q rec 4) (hp : retirable (opnd rec 1) = true)
    (hr : (entryOf s (opnd rec 1)).state = .retired) : execRetireCore q s = .next (endCommand s q rec 0) :=
  (command_of_takes h _).trans (congrArg _ ((if_neg (by simp [hp])).trans (if_pos hr)))

theorem execRetireCore_of_use (h : TakesCommand s q rec 4) (hp : retirable (opnd rec 1) = true)
    (hr : (entryOf s (opnd rec 1)).state ≠ .retired) : execRetireCore q s = .next (setQueue (beginRetirement s (opnd rec 1)) q
      { queueOf (beginRetirement s (opnd rec 1)) q with busy := some rec }) :=
  (command_of_takes h _).trans (congrArg _ ((if_neg (by simp [hp])).trans (if_neg hr)))

theorem execSpareRow_of_spareLeft (h : TakesCommand s q rec 5) (hf : opnd rec 1 < 262144)
    (hs : spareLeft s (opnd rec 1) (opnd rec 2) = true) :
    execSpareRow q s = .next (endCommand { s with sparedRows := (opnd rec 1, opnd rec 2) :: s.sparedRows } q rec 0) :=
  (command_of_takes h _).trans (congrArg _ ((if_neg (by omega)).trans (if_neg (by simp [hs]))))

section
variable (h : TakesCommand s q rec 6)
include h

theorem execSpareLane_of_stack (hu : opnd rec 1 < 8) : execSpareLane q s = .next (endCommand s q rec 0) :=
  (command_of_takes h _).trans (congrArg _ (if_pos hu))

theorem execSpareLane_of_port (hlo : 0x10 ≤ opnd rec 1) (hhi : opnd rec 1 < 0x18) (hlane : opnd rec 2 < 18) :
    execSpareLane q s = .next (endCommand (swapLane s (opnd rec 1 - 0x10) (opnd rec 2)) q rec 0) :=
  (command_of_takes h _).trans (congrArg _ ((if_neg (by omega)).trans (if_pos (by simp [hlo, hhi, hlane]))))

theorem execSpareLane_of_other (h8 : 8 ≤ opnd rec 1) (hno : opnd rec 1 < 0x10 ∨ 0x18 ≤ opnd rec 1 ∨ 18 ≤ opnd rec 2) :
    execSpareLane q s = .next (endCommand s q rec 1) := by
  refine (command_of_takes h _).trans (congrArg _ ((if_neg (by omega)).trans (if_neg ?_)))
  simp only [Bool.and_eq_true, decide_eq_true_eq]
  omega

end

/-! ### Firmware, attestation and the life cycle (R262 to R265, R267) -/

section
variable (h : TakesCommand s q rec 7) {version : BitVec 32}
include h

theorem execUpdateFirmware_of_refused {valid : Bool} (hbad : valid = false ∨ opnd rec 2 = 0) :
    execUpdateFirmware q valid version s = .next (endCommand s q rec 1) := by
  refine (command_of_takes h _).trans (congrArg _ (if_pos ?_))
  rcases hbad with hbad | hbad <;> simp [hbad]

section
variable (h0 : opnd rec 2 ≠ 0) (hroom : opnd rec 1 + opnd rec 2 ≤ 2 ^ 48)
include h0 hroom

theorem execUpdateFirmware_of_old (hv : version < Config.fusedMinimum) :
    execUpdateFirmware q true version s = .next (endCommand s q rec 4) :=
  (command_of_takes h _).trans (congrArg _ ((if_neg (by simpa [h0] using hroom)).trans (if_pos hv)))

/-- The image goes to the copy that is not current, and that copy becomes current (R262). -/
def firmwareWritten (s : State) (rec : Nat) (version : BitVec 32) : State :=
  let read := hostRead s (opnd rec 1) (opnd rec 2)
  let image : Image := { version := version, size := opnd rec 2, data := read.1 }
  { read.2 with images := if s.current then (image, s.images.2) else (s.images.1, image), current := !s.current }

theorem execUpdateFirmware_of_new (hv : ¬ version < Config.fusedMinimum) : execUpdateFirmware q true version s =
    .next (endCommand (restartPrincipal (firmwareWritten s rec version) abandonCommand) q rec 0) :=
  (command_of_takes h _).trans (congrArg _ ((if_neg (by simpa [h0] using hroom)).trans (if_neg hv)))

end
end

theorem imageOf_firmwareWritten (s : State) (rec : Nat) (version : BitVec 32) :
    imageOf (firmwareWritten s rec version) (!s.current) =
      { version := version, size := opnd rec 2, data := (hostRead s (opnd rec 1) (opnd rec 2)).1 } ∧
    imageOf (firmwareWritten s rec version) s.current = imageOf s s.current := by
  cases hc : s.current <;> simp [imageOf, firmwareWritten, hc]

theorem execAttest_of_room (h : TakesCommand s q rec 8) (hroom : 8192 ≤ opnd rec 3) : execAttest q s =
    .next (endCommand (hostWrite (hostRead s (opnd rec 1) 32).2 (opnd rec 2) 8192
      (report (hostRead s (opnd rec 1) 32).2 (hostRead s (opnd rec 1) 32).1)) q rec 0) :=
  (command_of_takes h _).trans (congrArg _ (if_neg (by omega)))

section
variable (h : TakesCommand s q rec 9)
include h

theorem execLifecycle_of_no_step (hl : lifeStep s.lifeCycle (opnd rec 1) = none) : execLifecycle q s = .next (endCommand s q rec 1) := by
  refine (command_of_takes h _).trans (congrArg _ ?_)
  simp only [hl]

theorem execLifecycle_of_commits {l : LifeCycle} (hl : lifeStep s.lifeCycle (opnd rec 1) = some l)
    (hc : (List.range 64).any (partCommits s) = true) : execLifecycle q s = .next s := by
  refine (command_of_takes h _).trans (congrArg _ ?_)
  simp only [hl]
  exact if_pos hc

/-- Every partition is reset, and the package boots again with its new fuses; failed are the ports whose training fails (R264). -/
def lifeRebooted (s : State) (l : LifeCycle) (failed : List Nat) : State :=
  let s0 := (List.range 64).foldl resetPartition s
  rebooted { s0 with lifeCycle := l, draws := s0.draws + 1 } true true ⟨s.pkgId, failed⟩

theorem execLifecycle_of_step {l : LifeCycle} (hl : lifeStep s.lifeCycle (opnd rec 1) = some l)
    (hc : (List.range 64).any (partCommits s) = false) : ∃ failed, execLifecycle q s = .next (setQueue
      (endCommand (lifeRebooted s l failed) q rec 0) q (queueOf (lifeRebooted s l failed) q)) := by
  refine ⟨(List.range 8).filter ((Config.freeWord ((List.range 64).foldl resetPartition s).draws).getLsbD ·),
    (command_of_takes h _).trans (congrArg _ ?_)⟩
  simp only [hl]
  exact if_neg (by simp [hc])

end

theorem lifeCycle_lifeRebooted (s : State) (l : LifeCycle) (failed : List Nat) : (lifeRebooted s l failed).lifeCycle = l := by
  obtain ⟨-, -, -, -, -, -, -, hl, -⟩ := rebooted_frame (okA := true) (okB := true) (links := ⟨s.pkgId, failed⟩)
    (s := { (List.range 64).foldl resetPartition s with lifeCycle := l, draws := ((List.range 64).foldl resetPartition s).draws + 1 })
  exact hl

/-! ### Settings (R195, R225, R234, R235) -/

theorem execSetChain_of_takes (h : TakesCommand s q rec 0x0A) (hdie : opnd rec 1 ≤ 3) (h1 : 1 ≤ opnd rec 2) (h4 : opnd rec 2 ≤ 4) :
    execSetChain q s = .next (endCommand { s with chains := mapSet s.chains (opnd rec 1) (opnd rec 2) } q rec 0) := by
  refine (command_of_takes h _).trans (congrArg _ (if_neg ?_))
  simp only [Bool.or_eq_true, decide_eq_true_eq]
  omega

theorem execSetDomain_of_ok (h : TakesCommand s q rec 0x0B)
    (hok : domainOk (Config.domainTable (hostRead s (opnd rec 1) 1024).1) = true) : execSetDomain q s =
    .next (endCommand { (hostRead s (opnd rec 1) 1024).2 with
      domain := Config.domainTable (hostRead s (opnd rec 1) 1024).1, lostPackages := [], directory := [], shadows := [] } q rec 0) :=
  (command_of_takes h _).trans (congrArg _ (if_pos hok))

theorem execSetTimer_of_takes (h : TakesCommand s q rec 0x0C) (h5 : 5 ≤ opnd rec 1) (h200 : opnd rec 1 ≤ 200) :
    execSetTimer q s = .next (endCommand { s with timer := opnd rec 1, laneThreshold := opnd rec 2 } q rec 0) := by
  refine (command_of_takes h _).trans (congrArg _ (if_neg ?_))
  simp only [Bool.or_eq_true, decide_eq_true_eq]
  omega

/-! ### Pre-emption (R252) -/

section
variable (h : TakesCommand s q rec 0x0D) (hkind : parcelKind (opnd rec 1) = 1) (hgood : goodParcel (opnd rec 1) = true)
  (hn : opnd rec 2 = 1) (hnotice : opnd rec 3 = 0 ∨ 3600 ≤ opnd rec 3) (hmax : opnd rec 3 < 2 ^ 48) (hpart : opnd rec 4 ≤ 63)
include h hkind hgood hn hnotice hmax hpart

/-- PREEMPT of one core passes its checks. -/
theorem execPreempt_of_core : execPreempt q s = .next (if (queueOf s q).busy.isNone then
      let crews := preemptCrews s (opnd rec 4) (opnd rec 3) (parcelIndex (opnd rec 1))
      let s1 := crews.foldl (fun s c => requestCrew c.2 2 s c.1) s
      setQueue s1 q { queueOf s1 q with busy := some rec, crews := (crews.map (·.1)).eraseDups, saved := 0 }
    else if (queueOf s q).crews.any (fun h => (mapFind s.tasks h).isSome && (taskOf s h).phase == .running) then s
      else endCommand s q rec 0 0 (queueOf s q).saved) := by
  have hindex : parcelIndex (opnd rec 1) < 1024 := by simpa [goodParcel, hkind, kindCount] using hgood
  refine (command_of_takes h _).trans (congrArg _ ((if_neg ?_).trans ?_))
  · simp [hkind, hgood, hn]
    omega
  · simp [hn]

end
end

/-- Settles O56: each register write, each record and each command runs to its own end. -/
theorem commandEvents : Obligations.CommandEvents := by
  unfold Obligations.CommandEvents
  intro s q rec x e takes
  have taken : ∀ {code}, takes code → TakesCommand s q rec code :=
    fun ⟨head, code, user, boot, turn⟩ => ⟨head, code, user, boot, turn⟩
  refine ⟨?tail, ?register, ?launch, ?job, ?create, ?reset, ?give, ?retire, ?row, ?lane, ?firmware, ?attest, ?life, ?chain, ?domain,
    ?timer, ?preempt, ?unknown, ?ends⟩
  case tail =>
    exact fun fn value h => ⟨fun hn => (execTailWrite_of_responds h _).trans (congrArg _ (writeTail_of_room hn)),
      fun hn => (execTailWrite_of_responds h _).trans (congrArg _ (writeTail_of_overrun hn))⟩
  case register =>
    intro fn o v h ho h8
    have hwrite := execRegisterWrite_of_responds h ho h8 v
    exact ⟨fun hlt => hwrite.trans (if_pos hlt), fun heq => hwrite.trans ((if_neg (by omega)).trans (if_pos heq)),
      fun hgt => hwrite.trans ((if_neg (by omega)).trans (if_neg (by omega)))⟩
  case launch =>
    exact fun est hrec huser hcode hboot hturn => ⟨fun st s1 hroot => execLaunchRecord_of_error hrec huser hcode hboot hturn hroot,
      fun t s1 h s2 hroot hcreate => execLaunchRecord_of_root hrec huser hcode hboot hturn hroot hcreate⟩
  case job => exact fun root j hj hdone => execJobComplete_of_done hj hdone
  case create => exact fun h h0 h63 hok hpart hfree => execCreatePartition_of_takes (taken h) h0 h63 rfl rfl hok hpart hfree
  case reset =>
    exact fun h h0 h63 => ⟨execResetPartition_of_commits (taken h) h0 h63, execResetPartition_of_idle (taken h) h0 h63,
      execResetPartition_of_begun (taken h) h0 h63⟩
  case give => exact fun h hp hn hdest hgive => execGiveToPartition_of_one (taken h) hp hn hdest hgive
  case retire => exact fun h hp => ⟨execRetireCore_of_retired (taken h) hp, execRetireCore_of_use (taken h) hp⟩
  case row => exact fun h hf hs => execSpareRow_of_spareLeft (taken h) hf hs
  case lane =>
    exact fun h => ⟨execSpareLane_of_stack (taken h), execSpareLane_of_port (taken h), execSpareLane_of_other (taken h)⟩
  case firmware =>
    refine fun version h => ⟨execUpdateFirmware_of_refused (taken h) (.inl rfl),
      fun h0 => execUpdateFirmware_of_refused (taken h) (.inr h0), execUpdateFirmware_of_old (taken h),
      fun h0 hroom hv => ⟨firmwareWritten s rec version, execUpdateFirmware_of_new (taken h) h0 hroom hv, rfl, ?_⟩⟩
    obtain ⟨hnew, hold⟩ := imageOf_firmwareWritten s rec version
    rw [hnew]
    exact ⟨rfl, rfl, rfl, hold⟩
  case attest => exact fun h hroom => execAttest_of_room (taken h) hroom
  case life =>
    refine fun h => ⟨execLifecycle_of_no_step (taken h), fun l => execLifecycle_of_commits (taken h), fun l hl hc => ?_⟩
    obtain ⟨failed, hlife⟩ := execLifecycle_of_step (taken h) hl hc
    exact ⟨failed, hlife, lifeCycle_lifeRebooted s l failed⟩
  case chain => exact fun h => execSetChain_of_takes (taken h)
  case domain => exact fun h hok => execSetDomain_of_ok (taken h) hok
  case timer => exact fun h => execSetTimer_of_takes (taken h)
  case preempt =>
    intro h p hkind hgood hn hnotice hmax hpart
    have hrun := execPreempt_of_core (taken h) hkind hgood hn hnotice hmax hpart
    refine ⟨fun hbusy => hrun.trans (congrArg _ (if_pos (Option.isNone_iff_eq_none.2 hbusy))),
      fun hbusy hmet => ?_, fun hbusy hleft => ?_⟩
    all_goals refine hrun.trans (congrArg _ ((if_neg (by rw [show (queueOf s q).busy = some rec from hbusy]; nofun)).trans ?_))
    · exact if_neg (by simpa using hmet)
    · exact if_pos (by simpa using hleft)
  case unknown => exact fun code h hcode => execUnknownCommand_of_takes (taken h) hcode
  case ends =>
    intro st cad n
    rw [queueOf_endCommand, queueOf_takeHead]
    exact ⟨rfl, rfl⟩

end Sys2Proof.Machine
end

section
/-! SUPPORT. The checks on a seat, one after the other (R176, R207), and O40. -/

namespace Sys2Proof.Machine

section
variable {α β : Type} {s s' t : State} {i : TrapInfo}

theorem Traps.bind {m : Exec α} (h : Traps m s i s') (f : α → Exec β) : Traps (m >>= f) s i s' := traps_bind_iff.2 (.inl h)

theorem traps_set_bind {f : PUnit → Exec β} (h : Traps (f ⟨⟩) t i s') : Traps ((set t : Exec PUnit) >>= f) s i s' :=
  ((ends_set ..).2 rfl : Ends (set t : Exec PUnit) s ⟨⟩ t).bind_traps h

theorem waits_set_bind {f : PUnit → Exec β} {w : WaitState} {p : Pending} (h : Waits (f ⟨⟩) t w p s') :
    Waits ((set t : Exec PUnit) >>= f) s w p s' :=
  ((ends_set ..).2 rfl : Ends (set t : Exec PUnit) s ⟨⟩ t).bind_waits h
end

/-- The GENERATION of a seat that the issuing core holds, or reads now (R176). -/
def readGen (s : State) (n : Nat) : Nat := (mapFind (curCore s).gens n).getD (entryOf s (parcelSeat n)).gen.toNat

/-- The state in which the issuing core holds it. -/
def withGen (s : State) (n : Nat) : State := setCurCore s { curCore s with gens := mapSet (curCore s).gens n (readGen s n) }

/-- What the unit asks of a seat's message (R207). -/
def seatAdmits (s : State) (n : Nat) (unit : Bool) : Bool :=
  uses s (curEstate s) (parcelSeat n) && !seatBarred s n && readGen s n == (entryOf s (parcelSeat n)).gen.toNat &&
    !(seatOf s (n / 16) (n % 16)).suspended && (!unit || uses s (curEstate s) (parcelUnit (n / 16)))

theorem heldGen_withGen (s : State) (n : Nat) : heldGen (withGen s n) n = readGen s n := by
  simp [heldGen, withGen]

section
variable {s : State} {b : Word} {unit : Bool}

theorem checkSeat_traps_of_no_seat (h : 2048 ≤ b.toNat) :
    Traps (checkSeat b unit) s ⟨.capability, 0, BitVec.ofNat 64 (b.toNat % 2048), 0⟩ s :=
  traps_get_bind (traps_ite_trapWith h)

theorem checkSeat_waits (hn : b.toNat < 2048) (hd : s.cur.defer = true) (hg : mapFind (curCore s).gens b.toNat = none) :
    Waits (checkSeat b unit) s (memWait 4 0) .none (withGen s b.toNat) :=
  waits_get_bind (waits_ite_of_neg hn.not_ge (waits_set_bind (waits_ite_of_pos (by simp [hd, hg]) rfl)))

section
variable (hhere : s.cur.defer = false ∨ (mapFind (curCore s).gens b.toNat).isSome = true)
include hhere

theorem not_awaits_gen : ¬ (s.cur.defer && (mapFind (curCore s).gens b.toNat).isNone) = true := by
  rcases hhere with hhere | hhere
  · simp [hhere]
  · simp [Option.isSome_iff_ne_none.1 hhere]

variable (hn : b.toNat < 2048)
include hn

theorem checkSeat_ends (h : seatAdmits s b.toNat unit = true) : Ends (checkSeat b unit) s b.toNat (withGen s b.toNat) := by
  simp only [seatAdmits, Bool.and_eq_true, Bool.not_eq_true', beq_iff_eq, Bool.or_eq_true] at h
  obtain ⟨⟨⟨⟨huses, hbar⟩, hgen⟩, hsus⟩, hunit⟩ := h
  refine ends_get_bind (ends_ite_of_neg hn.not_ge (ends_set_bind (ends_ite_of_neg (not_awaits_gen hhere)
    (ends_ite_of_neg ?_ (ends_ite_of_neg ?_ rfl)))))
  · rw [readGen] at hgen
    simp [seatRefused, huses, hbar, hgen, hsus]
  · rcases hunit with hunit | hunit <;> simp [hunit]

theorem checkSeat_traps_of_refused (h : seatAdmits s b.toNat unit = false) :
    Traps (checkSeat b unit) s ⟨.capability, 0, BitVec.ofNat 64 (b.toNat % 2048), 0⟩ (withGen s b.toNat) := by
  refine traps_get_bind (traps_ite_of_neg hn.not_ge (traps_set_bind (traps_ite_of_neg (not_awaits_gen hhere) ?_)))
  by_cases hseat : (seatRefused s (curEstate s) b.toNat (readGen s b.toNat) ||
      (seatOf s (b.toNat / 16) (b.toNat % 16)).suspended) = true
  · exact traps_ite_trapWith hseat
  refine traps_ite_of_neg hseat (traps_ite_trapWith ?_)
  simp only [seatRefused, Bool.or_eq_true, Bool.not_eq_true', bne_iff_ne, not_or, Bool.not_eq_true, Bool.not_eq_false,
    ne_eq, not_not] at hseat
  obtain ⟨⟨⟨huses, hbar⟩, hgen⟩, hsus⟩ := hseat
  simpa [seatAdmits, huses, hbar, hgen, hsus] using h
end
end

/-- Settles O40: the checks are branches one after the other; what the core holds of the seat is written before all but the first. -/
theorem seatChecks : Obligations.SeatChecks := by
  unfold Obligations.SeatChecks
  intro s b unit n gen ok held here
  have hok : ok = (decide (n < 2048) && seatAdmits s n unit) := by simp only [ok, seatAdmits, readGen, gen, Bool.and_assoc]
  refine ⟨fun h hh => ?passes, fun h hh => ?traps, fun hn hd hg => checkSeat_waits hn hd hg⟩
  case passes =>
    rw [hok, Bool.and_eq_true, decide_eq_true_eq] at h
    obtain ⟨hn, hadmits⟩ := h
    refine ⟨checkSeat_ends hh hn hadmits, (heldGen_withGen s n).trans ?_⟩
    simp only [seatAdmits, Bool.and_eq_true, beq_iff_eq] at hadmits
    obtain ⟨⟨⟨-, hgen⟩, -⟩, -⟩ := hadmits
    exact hgen
  case traps =>
    by_cases hn : n < 2048
    · refine ⟨withGen s n, checkSeat_traps_of_refused hh hn (by simpa [hok, hn] using h), rfl,
        fun c hc => coreOf_setCore_of_ne s _ hc, ?_⟩
      rw [withGen, setCurCore, coreOf_setCore_self]
    · exact ⟨s, checkSeat_traps_of_no_seat (not_lt.1 hn), rfl, fun _ _ => rfl, rfl⟩

end Sys2Proof.Machine
end

section
/-! SUPPORT. What the Cadastre's instructions share: how they are sent, checked and answered (R166, R168, R169, R380). -/

namespace Sys2Proof.Machine

theorem CadReady.good {s : State} {p : Nat} (h : CadReady s p) : goodParcel p = true := by
  obtain ⟨-, -, -, hgood, -⟩ := h
  exact hgood

theorem CadReady.now {s : State} {p : Nat} (h : CadReady s p) : s.cur.defer = false := by
  obtain ⟨-, -, -, -, hdefer⟩ := h
  exact hdefer

theorem ends_cadGood {p : Nat} (h : goodParcel p = true) (s : State) : Ends (cadGood p) s () s := ends_ite_of_pos h rfl

theorem ends_cadRetired {s : State} {p : Nat} (h : (entryOf s p).state ≠ .retired) : Ends (cadRetired p) s () s :=
  ends_get_bind (ends_ite_of_neg h rfl)

theorem ends_cadSend {s : State} {p : Nat} (h : CadReady s p) : Ends (cadSend p) s () s := by
  obtain ⟨hfirm, hstores, hleaving, -, -⟩ := h
  exact (ends_firm_of_frontier hfirm).bind ((ends_emptyBuffer_of_nil hstores).bind (ends_get_bind
    (ends_ite_of_neg (by simp [hleaving]) rfl)))

/-- The status write, in the step of issue (R168, R169). -/
theorem ends_cadFinish {s : State} (h : s.cur.defer = false) (d : Reg) (p status : Nat) : Ends (cadFinish d p status) s () (cadDone d status s) :=
  ends_get_bind (ends_ite_of_neg (by simp [h]) rfl)

/-- An entry written, and the status. -/
theorem ends_setEntry_cadFinish {s : State} (h : s.cur.defer = false) (d : Reg) (p p' status : Nat) (x : Entry) :
    Ends ((set (setEntry s p x) : Exec PUnit) >>= fun _ => cadFinish d p' status) s () (cadDone d status (setEntry s p x)) :=
  ends_set_bind (ends_cadFinish (s := setEntry s p x) h d p' status)

/-- The wait for a parcel's transfer (R170). -/
theorem waits_cadAwait (d : Reg) (p : Nat) (wait : Bool) (s : State) :
    Waits (cadAwait d p wait) s { reason := .reclaim, sent := true, peer := p } (.cad d p none 0 [] wait) s := rfl

/-- A change of the Cadastre, and the wait for the transfer that it begins. -/
theorem run_set_cadAwait (d : Reg) (p : Nat) (wait : Bool) (s t : State) :
    run ((set t : Exec PUnit) >>= fun _ => cadAwait d p wait) s = .next (cadWaits d p wait t) :=
  run_of_waits (waits_set_bind (waits_cadAwait d p wait t))

section
variable {s s1 : State} {d a : Reg} (ht : Takes [a] (some d) s s1) (hc : CadReady s1 (gval s1 a).toNat)
include ht hc

theorem ends_cadParcel : Ends (cadParcel d a) s (gval s1 a).toNat s1 :=
  ht.bind (ends_get_bind ((ends_cadSend hc).bind ((ends_cadGood hc.good s1).bind rfl)))

/-- An instruction that names one parcel, once it is sent. -/
theorem run_cadParcel (f : Nat → Exec Unit) : run (cadParcel d a >>= f) s = run (f (gval s1 a).toNat) s1 :=
  run_congr (ends_bind (ends_cadParcel ht hc))

/-- The same of one that a RETIRED parcel refuses. -/
theorem run_cadEntry (hr : (entryOf s1 (gval s1 a).toNat).state ≠ .retired) (f : Nat → State → Exec Unit) :
    run (cadParcel d a >>= fun p => cadRetired p >>= fun _ => (get : Exec State) >>= f p) s = run (f (gval s1 a).toNat s1) s1 :=
  (run_cadParcel ht hc _).trans (run_congr (ends_bind (ends_cadRetired hr)))
end

end Sys2Proof.Machine
end

section
/-! SUPPORT. Offers (R170, R271, R296, R303, R316, R375, R380), and O48. -/

namespace Sys2Proof.Machine

/-! ### GIVE and LEND -/

/-- The issuing estate may offer parcel p to estate q, but for the parcel's state (R170, R304, R380). -/
structure MayOffer (s : State) (p q : Nat) : Prop where
  range : q < 16384
  other : q ≠ curEstate s
  holder : (entryOf s p).holder = curEstate s
  target : estateExists s q = true
  part : (estateOf s q).part = (estateOf s (curEstate s)).part ∨ (estateOf s (curEstate s)).principal = true
  free : unofferable s p = false
  unused : ¬ (parcelKind p = 0 ∧ (entryOf s p).inuse = true)
  live : (entryOf s p).state ≠ .retired
  home : lent (entryOf s p) = false

/-- The term of a loan, where there is one, is legal, and the parcel is of a kind that is lent (R316). -/
def TermOk (loan : Option Word) (p : Nat) : Prop :=
  ∀ t, loan = some t → 3600 ≤ t.toNat ∧ t.toNat < 2 ^ 48 ∧ parcelKind p ≠ 0 ∧ parcelKind p ≠ 8

theorem termOk_none (p : Nat) : TermOk none p := nofun

/-- An entry on offer (R170). -/
def offeredTo (x : Entry) (q : Nat) (loan : Option Word) (wipe : Bool) : Entry :=
  { x with state := if loan.isSome then .offeredLoan else .offeredGive, target := some q, wipe := wipe, term := (loan.getD 0).toNat }

section
variable {s s1 : State} {d a b : Reg} {loan : Option Word} (wipe : Bool)
variable (ht : Takes [a, b] (some d) s s1) (hc : CadReady s1 (gval s1 a).toNat) (hm : MayOffer s1 (gval s1 a).toNat (gval s1 b).toNat)
variable (hl : TermOk loan (gval s1 a).toNat)
include ht hc hm hl

/-- An offer that passes every check but that of the parcel's state. -/
theorem ends_offer {t : State} (h : Ends (if (entryOf s1 (gval s1 a).toNat).state ≠ .held then cadFinish d (gval s1 a).toNat 6 else do
      set (setEntry s1 (gval s1 a).toNat (offeredTo (entryOf s1 (gval s1 a).toNat) (gval s1 b).toNat loan wipe))
      cadFinish d (gval s1 a).toNat 1) s1 () t) :
    Ends (offer d a b loan wipe) s () t := by
  have hrange := hm.range
  refine ht.bind (ends_get_bind ((ends_cadSend hc).bind (ends_get_bind ((ends_cadGood hc.good s1).bind (ends_ite_of_neg ?term
    (ends_ite_of_neg ?kind (ends_ite_of_neg hm.other ((ends_cadRetired hm.live).bind (ends_ite_of_neg ?unused
    (ends_ite_of_neg ?held (ends_ite_of_neg ?status h)))))))))))
  case term =>
    cases loan with
    | none => simp [hrange]
    | some t =>
      obtain ⟨hmin, hmax, -⟩ := hl t rfl
      simpa [hrange, hmin] using hmax
  case kind =>
    cases loan with
    | none => simp
    | some t =>
      obtain ⟨-, -, h0, h8⟩ := hl t rfl
      simp [h0, h8]
  case unused => simpa using hm.unused
  case held => simp [hm.holder, hm.home]
  case status =>
    rcases hm.part with hpart | hpart <;> simp [hm.target, hm.free, hpart]

theorem ends_offer_of_held (hheld : (entryOf s1 (gval s1 a).toNat).state = .held) : Ends (offer d a b loan wipe) s ()
    (cadDone d 1 (setEntry s1 (gval s1 a).toNat (offeredTo (entryOf s1 (gval s1 a).toNat) (gval s1 b).toNat loan wipe))) :=
  ends_offer wipe ht hc hm hl (ends_ite_of_neg (not_not.2 hheld) (ends_setEntry_cadFinish hc.now ..))

theorem ends_offer_of_not_held (hheld : (entryOf s1 (gval s1 a).toNat).state ≠ .held) :
    Ends (offer d a b loan wipe) s () (cadDone d 6 s1) :=
  ends_offer wipe ht hc hm hl (ends_ite_of_pos hheld (ends_cadFinish hc.now ..))

end

/-! ### ACCEPT, DECLINE and WITHDRAW -/

section
variable {s s1 : State} {d a : Reg} (ht : Takes [a] (some d) s s1) (hc : CadReady s1 (gval s1 a).toNat)
variable (hr : (entryOf s1 (gval s1 a).toNat).state ≠ .retired)
include ht hc hr

theorem execDecline_of_target (ho : offered (entryOf s1 (gval s1 a).toNat) = true)
    (hme : (entryOf s1 (gval s1 a).toNat).target = some (curEstate s1)) : execDecline d a s =
      .next (cadDone d 0 (setEntry s1 (gval s1 a).toNat (unoffered (entryOf s1 (gval s1 a).toNat) 2))) :=
  (run_cadEntry ht hc hr _).trans (run_of_ends (ends_ite_of_pos (by simp [ho, hme]) (ends_setEntry_cadFinish hc.now ..)))

section
variable (hnot : offered (entryOf s1 (gval s1 a).toNat) = false ∨ (entryOf s1 (gval s1 a).toNat).target ≠ some (curEstate s1))
include hnot

theorem execDecline_of_no_offer : execDecline d a s = .next (cadDone d 5 s1) := by
  refine (run_cadEntry ht hc hr _).trans (run_of_ends (ends_ite_of_neg ?_ (ends_cadFinish hc.now ..)))
  rcases hnot with hnot | hnot <;> simp [hnot]

theorem execAccept_of_no_offer : execAccept d a s = .next (cadDone d 5 s1) := by
  refine (run_cadEntry ht hc hr _).trans (run_of_ends (ends_ite_of_pos ?_ (ends_cadFinish hc.now ..)))
  rcases hnot with hnot | hnot <;> simp [hnot]
end

section
variable (hme : (entryOf s1 (gval s1 a).toNat).target = some (curEstate s1)) (hf : unofferable s1 (gval s1 a).toNat = false)
include hme hf

theorem execAccept_of_loan (hx : (entryOf s1 (gval s1 a).toNat).state = .offeredLoan) :
    let p := (gval s1 a).toNat
    let x := entryOf s1 p
    execAccept d a s = .next (cadWaits d p false (beginLeave (setEntry s1 p { x with
      state := .scrubbing, outcome := 1, deadline := s1.cycle + x.term, leaving := some x.holder, after := .loan }) p x.holder)) :=
  (run_cadEntry ht hc hr _).trans ((run_congr ((run_ite_of_neg (by simp [offered, hx, hme])).trans ((run_ite_of_neg (by simp [hf])).trans
    (run_ite_of_pos hx)))).trans (run_set_cadAwait ..))

variable (hx : (entryOf s1 (gval s1 a).toNat).state = .offeredGive)
include hx

theorem execAccept_of_wipe (hw : (entryOf s1 (gval s1 a).toNat).wipe = true) :
    let p := (gval s1 a).toNat
    let x := entryOf s1 p
    execAccept d a s = .next (cadWaits d p false (beginLeave (setEntry s1 p { x with
      state := .scrubbing, outcome := 1, holder := curEstate s1, leaving := some x.holder, after := .hold }) p x.holder)) :=
  (run_cadEntry ht hc hr _).trans ((run_congr ((run_ite_of_neg (by simp [offered, hx, hme])).trans ((run_ite_of_neg (by simp [hf])).trans
    ((run_ite_of_neg (by simp [hx])).trans (run_ite_of_pos hw))))).trans (run_set_cadAwait ..))

/-- The transfer of a gift begins (R173). -/
def giftBegun (s : State) (p : Nat) : State :=
  beginLeave (setEntry s p { entryOf s p with leaving := some (entryOf s p).holder }) p (entryOf s p).holder

/-- The leaver's work is saved and moved, as far as it can be; the instruction goes on. -/
def giftLeft (s : State) (p : Nat) : State := { leaveWork (giftBegun s p) p with cur := (giftBegun s p).cur }

variable (hw : (entryOf s1 (gval s1 a).toNat).wipe = false)
include hw

/-- ACCEPT of a gift without .wipe, once its transfer has begun. -/
theorem execAccept_of_gift : let p := (gval s1 a).toNat
    execAccept d a s = run (do
      if !leaveReady (giftBegun s1 p) p (entryOf s1 p).holder then cadAwait d p false
      set (giftLeft s1 p)
      let s2 ← get
      if workLeft s2 p then cadAwait d p false
      set { endTransfer s2 p with cur := (giftBegun s1 p).cur }
      cadFinish d p 0) (giftBegun s1 (gval s1 a).toNat) :=
  (run_cadEntry ht hc hr _).trans ((run_congr ((run_ite_of_neg (by simp [offered, hx, hme])).trans ((run_ite_of_neg (by simp [hf])).trans
    ((run_ite_of_neg (by simp [hx])).trans (run_ite_of_neg (by simp [hw])))))).trans (run_congr rfl))

theorem execAccept_of_gift_leaving (hl : leaveReady (giftBegun s1 (gval s1 a).toNat) (gval s1 a).toNat
      (entryOf s1 (gval s1 a).toNat).holder = false) :
    execAccept d a s = .next (cadWaits d (gval s1 a).toNat false (giftBegun s1 (gval s1 a).toNat)) :=
  (execAccept_of_gift ht hc hr hme hf hx hw).trans (run_of_waits (waits_ite_of_pos (by simp [hl]) ((waits_cadAwait ..).bind _)))

variable (hl : leaveReady (giftBegun s1 (gval s1 a).toNat) (gval s1 a).toNat (entryOf s1 (gval s1 a).toNat).holder = true)
include hl

theorem execAccept_of_gift_work (hleft : workLeft (giftLeft s1 (gval s1 a).toNat) (gval s1 a).toNat = true) :
    execAccept d a s = .next (cadWaits d (gval s1 a).toNat false (giftLeft s1 (gval s1 a).toNat)) :=
  (execAccept_of_gift ht hc hr hme hf hx hw).trans (run_of_waits (waits_ite_of_neg (by simp [hl]) (waits_set_bind (waits_get_bind
    (waits_ite_of_pos hleft ((waits_cadAwait ..).bind _))))))

theorem execAccept_of_gift_free (hleft : workLeft (giftLeft s1 (gval s1 a).toNat) (gval s1 a).toNat = false)
    (hd : (giftBegun s1 (gval s1 a).toNat).cur.defer = false) : execAccept d a s = .next (cadDone d 0
      { endTransfer (giftLeft s1 (gval s1 a).toNat) (gval s1 a).toNat with cur := (giftBegun s1 (gval s1 a).toNat).cur }) :=
  (execAccept_of_gift ht hc hr hme hf hx hw).trans (run_of_ends (ends_ite_of_neg (by simp [hl]) (ends_set_bind (ends_get_bind
    (ends_ite_of_neg (by simp [hleft]) (ends_set_bind (ends_cadFinish (s := { endTransfer (giftLeft s1 (gval s1 a).toNat) (gval s1 a).toNat with cur := _ }) hd ..)))))))

end

theorem execWithdraw_of_other (hh : (entryOf s1 (gval s1 a).toNat).holder ≠ curEstate s1) : execWithdraw d a s = .next (cadDone d 5 s1) :=
  (run_cadEntry ht hc hr _).trans (run_of_ends (ends_ite_of_pos hh (ends_cadFinish hc.now ..)))

section
variable (hh : (entryOf s1 (gval s1 a).toNat).holder = curEstate s1)
include hh

theorem execWithdraw_of_offer (ho : offered (entryOf s1 (gval s1 a).toNat) = true) : execWithdraw d a s =
    .next (cadDone d 0 (setEntry s1 (gval s1 a).toNat (unoffered (entryOf s1 (gval s1 a).toNat) 3))) :=
  (run_cadEntry ht hc hr _).trans (run_of_ends (ends_ite_of_neg (not_not.2 hh) (ends_ite_of_pos ho (ends_setEntry_cadFinish hc.now ..))))

theorem execWithdraw_of_declined (hx : (entryOf s1 (gval s1 a).toNat).state = .held)
    (h2 : (entryOf s1 (gval s1 a).toNat).outcome = 2) : execWithdraw d a s =
    .next (cadDone d 4 (setEntry s1 (gval s1 a).toNat { entryOf s1 (gval s1 a).toNat with outcome := 0 })) :=
  (run_cadEntry ht hc hr _).trans (run_of_ends (ends_ite_of_neg (not_not.2 hh) (ends_ite_of_neg (by simp [offered, hx])
    (ends_ite_of_pos (by simp [hx, h2]) (ends_setEntry_cadFinish hc.now ..)))))
end
end

/-- Settles O48: an offer passes its checks in order and writes its entry; the answers to one read the entry and write it. -/
theorem offerResults : Obligations.OfferResults := by
  unfold Obligations.OfferResults
  intro s s1 d a b e p q me x
  refine ⟨fun ht hc hq hne hh hex hpart hf hun hr hlent => ?offers, fun ht hc hr => ⟨fun ho hme => ?answers, fun hnot => ?none,
    fun hh ho => execWithdraw_of_offer ht hc hr hh ho, fun hh hx h2 => execWithdraw_of_declined ht hc hr hh hx h2,
    fun hh => execWithdraw_of_other ht hc hr hh⟩⟩
  case offers =>
    have hm : MayOffer s1 p q := ⟨hq, hne, hh, hex, hpart, hf, hun, hr, hlent⟩
    refine ⟨fun hx => ⟨?give, ?wipe, fun h0 h8 hmin hmax => ?lend⟩, fun hx => ⟨?giveBusy, ?wipeBusy⟩⟩
    case give => exact run_of_ends (ends_offer_of_held false ht hc hm (termOk_none p) hx)
    case wipe => exact run_of_ends (ends_offer_of_held true ht hc hm (termOk_none p) hx)
    case lend =>
      refine run_of_ends (ends_get_bind (ends_offer_of_held false ht hc hm ?_ hx))
      rintro t ⟨⟩
      exact ⟨hmin, hmax, h0, h8⟩
    case giveBusy => exact run_of_ends (ends_offer_of_not_held false ht hc hm (termOk_none p) hx)
    case wipeBusy => exact run_of_ends (ends_offer_of_not_held true ht hc hm (termOk_none p) hx)
  case answers =>
    exact ⟨execDecline_of_target ht hc hr ho hme, fun hf => ⟨fun hx hw => ⟨fun hl hleft hd => execAccept_of_gift_free ht hc hr hme hf hx hw hl hleft hd,
      fun hl => execAccept_of_gift_leaving ht hc hr hme hf hx hw hl, fun hl hleft => execAccept_of_gift_work ht hc hr hme hf hx hw hl hleft⟩,
      fun hx hw => execAccept_of_wipe ht hc hr hme hf hx hw, fun hx => execAccept_of_loan ht hc hr hme hf hx⟩⟩
  case none => exact ⟨execAccept_of_no_offer ht hc hr hnot, execDecline_of_no_offer ht hc hr hnot⟩

end Sys2Proof.Machine
end

section
/-! SUPPORT. The hardware's own accesses to an estate's pages leave the instruction being issued alone (R113, R196, R199, R245). -/

namespace Sys2Proof.Machine

/-- What no step of a fold changes, the fold does not change. -/
theorem foldl_keeps {α β γ : Type} {g : β → γ} {f : β → α → β} (h : ∀ b a, g (f b a) = g b) (l : List α) :
    ∀ b, g (l.foldl f b) = g b := by
  induction l with
  | nil => exact fun b => rfl
  | cons a l ih => exact fun b => (ih _).trans (h b a)

/-! ### Translations, loads and stores -/

@[simp] theorem setLeaf_cur (s : State) (e : Nat) (p : Word) : (setLeaf s e p).cur = s.cur := by
  simpa only [State.withoutHbm] using congrArg State.cur (withoutHbm_setLeaf s e p)

@[simp] theorem invalidateHost_cur (s : State) (line : Nat) : (invalidateHost s line).cur = s.cur := by
  simpa only [State.withoutHbm] using congrArg State.cur (withoutHbm_invalidateHost s line)

@[simp] theorem walkedBy_cur (s : State) (port : Nat) (lines : List Nat) : (walkedBy s port lines).cur = s.cur := by
  obtain ⟨sharers, h⟩ := walkedBy_eq s port lines
  rw [h]

@[simp] theorem xlate_cur (s : State) (port est va : Nat) (need : Word) : (xlate s port est va need).2.cur = s.cur := by
  by_cases hmiss : TlbMisses s port est va need
  · rcases hw : walk s est va with ⟨⟨level, e, p0, p1⟩ | ⟨level, e, file⟩, ls⟩
    · by_cases hn : p0 &&& need = need
      · obtain ⟨tlbs, hx⟩ := xlate_of_leaf hmiss hw hn
        simp [hx]
      · simp [xlate_of_refused hmiss hw hn]
    · simp [xlate_of_missing hmiss hw]
  · obtain ⟨t, ht⟩ := Option.ne_none_iff_exists'.1 hmiss
    simp only [xlate, ht]

@[simp] theorem grantHost_cur (s : State) (line : Nat) (store : Bool) : (grantHost s line store).cur = s.cur := by
  unfold grantHost
  split
  · split
    · rfl
    · split <;> rfl
  · rfl

@[simp] theorem hwPlace_cur (s : State) (core est va : Nat) (r w : Bool) : (hwPlace s core est va r w).2.cur = s.cur := by
  have hx := xlate_cur s (clusterOf core) est va (needs r w false)
  unfold hwPlace
  split
  next heq =>
    rw [heq] at hx
    dsimp only
    split
    · dsimp only
      split
      · exact (grantHost_cur ..).trans hx
      · exact hx
    · exact hx
  next heq =>
    rw [heq] at hx
    exact hx

@[simp] theorem takeLine_cur (s : State) (g line : Nat) (store : Bool) : (takeLine s g line store).cur = s.cur := by
  simp only [takeLine, rlcSet]
  split <;> rfl

@[simp] theorem storeHome_cur (s : State) (h : Home) (n data mask : Nat) : (storeHome s h n data mask).cur = s.cur := by
  unfold storeHome
  split
  case h_1 => dsimp only; split <;> rfl
  case h_2 | h_3 => split <;> rfl
  case h_4 | h_5 =>
    split
    · split <;> rfl
    · rfl
  case h_6 =>
    split
    · rfl
    · split <;> rfl

@[simp] theorem hwLoad_cur (s : State) (est : Nat) (h : Home) (n : Nat) : (hwLoad s est h n).2.cur = s.cur := by
  unfold hwLoad
  split
  · split
    · exact takeLine_cur ..
    · rfl
    · rfl
  · rfl

@[simp] theorem hwStore_cur (s : State) (est : Nat) (h : Home) (n data : Nat) : (hwStore s est h n data).2.cur = s.cur := by
  unfold hwStore
  split
  · split
    · simp
    · split
      · simp
      · rfl
    · simp
  · simp

@[simp] theorem hwRead_cur (s : State) (core est va n : Nat) (w : Bool) (fuel : Nat) : (hwRead s core est va n w fuel).2.cur = s.cur := by
  induction fuel generalizing s va n with
  | zero => rfl
  | succ fuel ih =>
    unfold hwRead
    split
    · rfl
    dsimp only
    have hp := hwPlace_cur s core est va true w
    split
    next h s1 hplace =>
      rw [hplace] at hp
      have hl := hwLoad_cur s1 est h (lineSpan va n)
      split
      next v s2 hload =>
        rw [hload] at hl
        have hr := ih s2 (va + lineSpan va n) (n - lineSpan va n)
        split
        all_goals
          next heq =>
            rw [heq] at hr
            exact hr.trans (hl.trans hp)
      next hload =>
        rw [hload] at hl
        exact hl.trans hp
    next hplace =>
      rw [hplace] at hp
      exact hp

@[simp] theorem hwWrite_cur (s : State) (core est va n data : Nat) (r : Bool) (fuel : Nat) :
    (hwWrite s core est va n data r fuel).2.cur = s.cur := by
  induction fuel generalizing s va n data with
  | zero => rfl
  | succ fuel ih =>
    unfold hwWrite
    split
    · rfl
    dsimp only
    have hp := hwPlace_cur s core est va r true
    split
    next h s1 hplace =>
      rw [hplace] at hp
      have hs := hwStore_cur s1 est h (lineSpan va n) data
      split
      next s2 hstore =>
        rw [hstore] at hs
        exact (ih ..).trans (hs.trans hp)
      next hstore =>
        rw [hstore] at hs
        exact hs.trans hp
    next hplace =>
      rw [hplace] at hp
      exact hp

/-! ### Records and requests -/

@[simp] theorem postUint_cur (s : State) (est thread : Nat) (v : Word) : (postUint s est thread v).cur = s.cur := by
  simp only [postUint]
  split <;> rfl

@[simp] theorem sinkRecord_cur (s : State) (core est : Nat) (r : TrapRec) : (sinkRecord s core est r).cur = s.cur := by
  unfold sinkRecord sinkTry
  dsimp only
  split
  · rfl
  have hr := hwRead_cur s core est ((estateOf s est).sinkBase + 64 * ((estateOf s est).sinkNext % ((estateOf s est).sinkSize / 64))) 8 true 1
  split
  next d0 s1 hread =>
    rw [hread] at hr
    split
    · exact hr
    have hw := hwWrite_cur s1 core est ((estateOf s est).sinkBase + 64 * ((estateOf s est).sinkNext % ((estateOf s est).sinkSize / 64))) 64
      (dwordsNat { r with lost := (estateOf s est).sinkLost }.dwords) true 1
    split
    next s2 hwrite =>
      rw [hwrite] at hw
      dsimp only
      split
      · exact (postUint_cur ..).trans (hw.trans hr)
      · exact hw.trans hr
    next hwrite =>
      rw [hwrite] at hw
      exact hw.trans hr
  next hread =>
    rw [hread] at hr
    exact hr

@[simp] theorem requestCrew_cur (deadline source : Nat) (s : State) (h : Nat) : (requestCrew deadline source s h).cur = s.cur := by
  refine foldl_keeps (g := State.cur) ?_ _ s
  exact fun _ _ => rfl

@[simp] theorem requestCore_cur (deadline source : Nat) (s : State) (core : Nat) : (requestCore deadline source s core).cur = s.cur :=
  foldl_keeps (g := State.cur) (requestCrew_cur deadline source) _ s

/-- A notice changes nothing of the instruction that starts it (R172). -/
@[simp] theorem startNotice_cur (s : State) (core p : Nat) (x : Entry) (source : Nat) : (startNotice s core p x source).cur = s.cur := by
  unfold startNotice
  dsimp only
  split
  · exact requestCore_cur ..
  · exact sinkRecord_cur ..

end Sys2Proof.Machine
end

section
/-! SUPPORT. The end of a loan: RETURN, RECLAIM, the notice, the scrub and the end of a transfer (R109, R172, R173, R175, R342, R344), and
O49. -/

namespace Sys2Proof.Machine

/-! ### The threads that wait for a transfer get their status, and nothing else changes -/

/-- The state but for what the end of a thread's wait can change: slots and queues, saved threads, and what was outstanding. -/
def State.withoutThreads (s : State) : State := { s with cores := [], tasks := [], reads := [], outstanding := [], cur := {} }

theorem withoutThreads_setCore (s : State) (c : Nat) (x : Core) : (setCore s c x).withoutThreads = s.withoutThreads := rfl

theorem withoutThreads_closeCombining (thread : Nat) (s : State) : (closeCombining thread s).withoutThreads = s.withoutThreads := rfl

theorem withoutThreads_putERun (vs : List Word) : ∀ (i : Nat) (s : State), (putERun i vs s).withoutThreads = s.withoutThreads := by
  induction vs with
  | nil => exact fun i s => rfl
  | cons v vs ih => exact fun i s => ih (i + 1) (putE i v s)

theorem withoutThreads_deliverG (d : Reg) (v : Word) (s : State) : (deliverG d v s).withoutThreads = s.withoutThreads := by
  simp only [deliverG]
  split
  · rfl
  split
  · rfl
  split <;> rfl

theorem withoutThreads_endReply (s : State) : (endReply s).withoutThreads = s.withoutThreads := rfl

/-- The state in which a Cadastre instruction has its reply (R168, R169). -/
def cadReplied (d : Reg) (status first : Nat) (out : List Word) (s : State) : State :=
  let s1 := endReply (deliverG d (BitVec.ofNat 64 status) (putERun first out s))
  closeCombining (threadId s.cur.core s.cur.slot) (setCurCore s1 { curCore s1 with gens := [] })

theorem ends_replyCad (d : Reg) (status first : Nat) (out : List Word) (s : State) :
    Ends (replyCad d status first out) s () (cadReplied d status first out s) := rfl

theorem withoutThreads_cadReplied (d : Reg) (status first : Nat) (out : List Word) (s : State) :
    (cadReplied d status first out s).withoutThreads = s.withoutThreads := by
  simp only [cadReplied, setCurCore, withoutThreads_closeCombining, withoutThreads_setCore, withoutThreads_endReply,
    withoutThreads_deliverG, withoutThreads_putERun]

theorem withoutThreads_resume_replyCad (core k : Nat) (d : Reg) (status first : Nat) (out : List Word) (s : State) :
    (resume core k (replyCad d status first out) s).withoutThreads = s.withoutThreads := by
  by_cases hrun : clusterOf core ∈ s.halted
  · rw [resume, if_pos (by simpa using hrun)]
  · rw [resume_of_ends hrun (ends_replyCad ..), withoutThreads_cadReplied]
    rfl

theorem withoutThreads_notifyCad (s : State) (p : Nat) : (notifyCad s p).withoutThreads = s.withoutThreads := by
  refine foldl_keeps (g := State.withoutThreads) (fun t w => ?_) (cadWaiters s p) s
  split
  · rfl
  split
  · exact withoutThreads_resume_replyCad ..
  · rfl

theorem withoutThreads_notifyEscheat (s : State) : (notifyEscheat s).withoutThreads = s.withoutThreads := by
  unfold notifyEscheat
  split
  · rfl
  · exact foldl_keeps (g := State.withoutThreads) withoutThreads_notifyCad _ s

theorem endHalt_eq (p : Nat) (s : State) : ∃ halted, endHalt p s = { s with halted := halted } := by
  unfold endHalt
  extract_lets c gone
  split
  · exact ⟨_, rfl⟩
  · exact ⟨s.halted, rfl⟩

/-- What follows a transfer, the threads that wait for it and the halt that it may end, leaves the Cadastre and HBM alone. -/
theorem transferNotified_frame (s : State) (p q : Nat) :
    (endHalt p (notifyEscheat (notifyCad s q))).cad = s.cad ∧ (endHalt p (notifyEscheat (notifyCad s q))).hbm = s.hbm := by
  have hframe : (notifyEscheat (notifyCad s q)).withoutThreads = s.withoutThreads :=
    (withoutThreads_notifyEscheat _).trans (withoutThreads_notifyCad s q)
  have hcad := congrArg State.cad hframe
  have hhbm := congrArg State.hbm hframe
  obtain ⟨halted, hend⟩ := endHalt_eq p (notifyEscheat (notifyCad s q))
  rw [hend]
  exact ⟨hcad, hhbm⟩

/-! ### What a scrub clears (R175) -/

theorem memGet_zeroFill (m : Memory) (a n x : Nat) : memGet (zeroFill m a n) x = if a ≤ x ∧ x < a + n then 0 else memGet m x := by
  induction m with
  | nil => simp [zeroFill, memGet]
  | cons c m ih =>
    obtain ⟨j, b⟩ := c
    rw [zeroFill] at ih ⊢
    by_cases hj : a ≤ j ∧ j < a + n
    · rw [List.filter_cons_of_neg (by simp [hj]), ih, memGet]
      split
      · rfl
      · rw [if_neg (by rintro rfl; contradiction)]
    · rw [List.filter_cons_of_pos (by simp only [Bool.not_eq_true', Bool.and_eq_false_iff, decide_eq_false_iff_not]; omega), memGet, memGet, ih]
      split
      · subst_vars
        rw [if_neg hj]
      · rfl

section
variable {s : State} {p : Nat} (hx : (entryOf s p).state = .scrubbing) (hl : (entryOf s p).leaving = none)
include hx hl

theorem endTransfer_of_scrub :
    endTransfer s p = endHalt p (notifyEscheat (notifyCad (setEntry (scrub s p) p (enteredAs (entryOf s p))) p)) := by
  have hleave : finishLeave s p = s := by simp only [finishLeave, hl]
  simp only [endTransfer, hleave, hx, if_true]

theorem entryOf_endTransfer_of_scrub : entryOf (endTransfer s p) p = enteredAs (entryOf s p) := by
  obtain ⟨hcad, -⟩ := transferNotified_frame (setEntry (scrub s p) p (enteredAs (entryOf s p))) p p
  rw [endTransfer_of_scrub hx hl, entryOf, hcad, setEntry, mapFind_mapSet_self, Option.getD_some]

theorem byteAt_endTransfer_of_frame (hk : parcelKind p = 4) (q : Nat) :
    byteAt (endTransfer s p) (.hbm q) = if q / 2097152 = parcelIndex p then 0 else byteAt s (.hbm q) := by
  obtain ⟨-, hhbm⟩ := transferNotified_frame (setEntry (scrub s p) p (enteredAs (entryOf s p))) p p
  have hscrub : (scrub s p).hbm = zeroFill s.hbm (2097152 * parcelIndex p) 2097152 := by simp only [scrub, hk]
  have hin : (2097152 * parcelIndex p ≤ q ∧ q < 2097152 * parcelIndex p + 2097152) ↔ q / 2097152 = parcelIndex p := by omega
  rw [byteAt, endTransfer_of_scrub hx hl, hhbm, setEntry, hscrub, memGet_zeroFill]
  simp only [hin, byteAt]

end

theorem enteredAs_gen (x : Entry) : (enteredAs x).gen = x.gen + 1 := by
  unfold enteredAs
  split <;> rfl

theorem enteredAs_outcome (x : Entry) : (enteredAs x).outcome = x.outcome := by
  unfold enteredAs
  split <;> rfl

/-! ### SCRUB_COMPLETE and NOTICE_EXPIRY -/

section
variable {s : State} {p : Nat}

theorem execNoticeExpiry_of_due (h : (entryOf s p).state = .reclaiming ∨ ((entryOf s p).retiring = true ∧ (entryOf s p).state ≠ .scrubbing))
    (hd : (entryOf s p).deadline ≤ s.cycle) : execNoticeExpiry p s = .next (beginReversion s p) :=
  if_pos (by simpa [hd] using h)

theorem execScrubComplete_of_scrub (hx : (entryOf s p).state = .scrubbing) (hl : (entryOf s p).leaving = none) :
    execScrubComplete p s = .next (if scrubReady s p then endTransfer s p else s) := by
  simp only [execScrubComplete, hl, hx]
  split <;> simp_all

section
variable {l : Nat} (hl : (entryOf s p).leaving = some l)
include hl

theorem execScrubComplete_of_busy (hr : leaveReady s p l = false) : execScrubComplete p s = .next s := by
  simp [execScrubComplete, hl, hr]

/-- A thread that returns its own core has its status before it is saved (R344). -/
def statusGiven (s : State) (p : Nat) : State := if parcelKind p = 1 then returnStatus (parcelIndex p) s else s

variable (hr : leaveReady s p l = true)
include hr

theorem execScrubComplete_of_status_busy (hr0 : leaveReady (statusGiven s p) p l = false) :
    execScrubComplete p s = .next (statusGiven s p) := by
  rw [statusGiven] at hr0
  simp [execScrubComplete, hl, hr, hr0, statusGiven]

variable (hr0 : leaveReady (statusGiven s p) p l = true)
include hr0

theorem execScrubComplete_of_work_left (hw : workLeft (leaveWork (statusGiven s p) p) p = true) :
    execScrubComplete p s = .next (leaveWork (statusGiven s p) p) := by
  rw [statusGiven] at hr0 hw
  simp [execScrubComplete, hl, hr, hr0, hw, statusGiven]

theorem execScrubComplete_of_no_work (hw : workLeft (leaveWork (statusGiven s p) p) p = false) :
    execScrubComplete p s = .next (if (entryOf s p).state = .scrubbing then endLeave (leaveWork (statusGiven s p) p) p
      else endTransfer (leaveWork (statusGiven s p) p) p) := by
  rw [statusGiven] at hr0 hw
  simp [execScrubComplete, hl, hr, hr0, hw, statusGiven]

end
end

/-! ### RETURN and RECLAIM -/

/-- What RECLAIM and reclaim.wait of the holder come to, by the parcel's state (R342). -/
def reclaimAnswer (wait : Bool) (d : Reg) (p : Nat) (s : State) : Exec Unit :=
  match (entryOf s p).state with
  | .held => cadFinish d p 0
  | .offeredGive | .offeredLoan => cadFinish d p 6
  | .onLoan =>
    if s.cycle < (entryOf s p).deadline then cadFinish d p 2
    else do
      set (startNotice s s.cur.core p (entryOf s p) 1)
      if wait then cadAwait d p true else cadFinish d p 3
  | .reclaiming => if wait then cadAwait d p true else cadFinish d p 3
  | .scrubbing => if wait then cadAwait d p true else cadFinish d p 6
  | .retired => cadFinish d p 2

section
variable {wait : Bool} {d : Reg} {p : Nat} {s : State}

theorem reclaimAnswer_held (h : (entryOf s p).state = .held) : reclaimAnswer wait d p s = cadFinish d p 0 := by
  simp only [reclaimAnswer, h]

theorem reclaimAnswer_offered (h : offered (entryOf s p) = true) : reclaimAnswer wait d p s = cadFinish d p 6 := by
  rcases (by simpa [offered] using h : (entryOf s p).state = .offeredGive ∨ (entryOf s p).state = .offeredLoan) with h | h
  · simp only [reclaimAnswer, h]
  · simp only [reclaimAnswer, h]

theorem reclaimAnswer_reclaiming (h : (entryOf s p).state = .reclaiming) :
    reclaimAnswer wait d p s = if wait then cadAwait d p true else cadFinish d p 3 := by
  simp only [reclaimAnswer, h]

theorem reclaimAnswer_scrubbing (h : (entryOf s p).state = .scrubbing) :
    reclaimAnswer wait d p s = if wait then cadAwait d p true else cadFinish d p 6 := by
  simp only [reclaimAnswer, h]

theorem reclaimAnswer_early (h : (entryOf s p).state = .onLoan) (hlt : s.cycle < (entryOf s p).deadline) :
    reclaimAnswer wait d p s = cadFinish d p 2 := by
  simp only [reclaimAnswer, h, if_pos hlt]

theorem reclaimAnswer_due (h : (entryOf s p).state = .onLoan) (hdue : (entryOf s p).deadline ≤ s.cycle) :
    reclaimAnswer wait d p s = (do
      set (startNotice s s.cur.core p (entryOf s p) 1)
      if wait then cadAwait d p true else cadFinish d p 3) := by
  simp only [reclaimAnswer, h, if_neg hdue.not_gt]
end

section
variable {s s1 : State} {d a : Reg} (ht : Takes [a] (some d) s s1) (hc : CadReady s1 (gval s1 a).toNat)
variable (hr : (entryOf s1 (gval s1 a).toNat).state ≠ .retired)
include ht hc hr

theorem execCadReturn_of_occupant (hlent : lent (entryOf s1 (gval s1 a).toNat) = true)
    (ho : (entryOf s1 (gval s1 a).toNat).occupant = some (curEstate s1)) :
    execCadReturn d a s = .next (cadWaits d (gval s1 a).toNat false (beginReversion s1 (gval s1 a).toNat)) :=
  (run_cadEntry ht hc hr _).trans ((run_congr (run_ite_of_pos (by simp [hlent, ho]))).trans (run_set_cadAwait ..))

theorem execCadReturn_of_other (h : lent (entryOf s1 (gval s1 a).toNat) = false ∨
    (entryOf s1 (gval s1 a).toNat).occupant ≠ some (curEstate s1)) : execCadReturn d a s = .next (cadDone d 2 s1) := by
  refine (run_cadEntry ht hc hr _).trans (run_of_ends (ends_ite_of_neg ?_ (ends_cadFinish hc.now ..)))
  rcases h with h | h <;> simp [h]

theorem run_reclaim_of_other (wait : Bool) (hh : (entryOf s1 (gval s1 a).toNat).holder ≠ curEstate s1) :
    run (reclaim wait d a) s = .next (takeTrap ⟨.notHeld, 0, parcelAux (gval s1 a).toNat 6, 0⟩ s1) :=
  (run_cadEntry ht hc hr _).trans (run_of_traps (traps_ite_trapWith hh))

section
variable (hh : (entryOf s1 (gval s1 a).toNat).holder = curEstate s1)
include hh

theorem run_reclaim (wait : Bool) : run (reclaim wait d a) s = run (reclaimAnswer wait d (gval s1 a).toNat s1) s1 :=
  (run_cadEntry ht hc hr _).trans (run_congr ((run_ite_of_neg (not_not.2 hh)).trans rfl))

/-- A status that is the same with and without .wait. -/
theorem run_reclaim_of_status {wait : Bool} {status : Nat}
    (h : reclaimAnswer wait d (gval s1 a).toNat s1 = cadFinish d (gval s1 a).toNat status) :
    run (reclaim wait d a) s = .next (cadDone d status s1) := by
  rw [run_reclaim ht hc hr hh, h]
  exact run_of_ends (ends_cadFinish hc.now ..)

theorem run_reclaimWait_of_await (h : reclaimAnswer true d (gval s1 a).toNat s1 = cadAwait d (gval s1 a).toNat true) :
    run (reclaim true d a) s = .next (cadWaits d (gval s1 a).toNat true s1) := by
  rw [run_reclaim ht hc hr hh, h]
  exact run_of_waits (waits_cadAwait ..)

section
variable (hx : (entryOf s1 (gval s1 a).toNat).state = .onLoan) (hdue : (entryOf s1 (gval s1 a).toNat).deadline ≤ s1.cycle)
include hx hdue

theorem execReclaim_of_due : execReclaim d a s =
    .next (cadDone d 3 (startNotice s1 s1.cur.core (gval s1 a).toNat (entryOf s1 (gval s1 a).toNat) 1)) := by
  have hnow : (startNotice s1 s1.cur.core (gval s1 a).toNat (entryOf s1 (gval s1 a).toNat) 1).cur.defer = false := by
    rw [startNotice_cur, hc.now]
  rw [execReclaim, run_reclaim ht hc hr hh, reclaimAnswer_due hx hdue]
  exact run_of_ends (ends_set_bind (ends_cadFinish hnow ..))

theorem execReclaimWait_of_due : execReclaimWait d a s =
    .next (cadWaits d (gval s1 a).toNat true (startNotice s1 s1.cur.core (gval s1 a).toNat (entryOf s1 (gval s1 a).toNat) 1)) := by
  rw [execReclaimWait, run_reclaim ht hc hr hh, reclaimAnswer_due hx hdue]
  exact run_set_cadAwait ..

end
end
end

/-- Settles O49: RETURN and RECLAIM by the parcel's state; the end of a transfer writes its entry after the scrub, and no thread that it
wakes changes the Cadastre or HBM. -/
theorem loanResults : Obligations.LoanResults := by
  unfold Obligations.LoanResults
  refine ⟨fun s s1 d a ht => ?instructions, fun s p => ?events⟩
  case instructions =>
    intro p me x hc hr
    refine ⟨execCadReturn_of_occupant ht hc hr, execCadReturn_of_other ht hc hr, fun hh => ?_, run_reclaim_of_other ht hc hr false⟩
    have status := fun {wait n} => run_reclaim_of_status ht hc hr hh (wait := wait) (status := n)
    have await := run_reclaimWait_of_await ht hc hr hh
    refine ⟨fun hx => ?held, fun hx hlt => ?early, fun hx hdue => ⟨execReclaim_of_due ht hc hr hh hx hdue,
      execReclaimWait_of_due ht hc hr hh hx hdue⟩, fun hx => ?scrubbing, fun hx => ?reclaiming, fun ho => ?offered⟩
    case held => exact ⟨status (reclaimAnswer_held hx), status (reclaimAnswer_held hx)⟩
    case early => exact ⟨status (reclaimAnswer_early hx hlt), status (reclaimAnswer_early hx hlt)⟩
    case scrubbing => exact ⟨status (reclaimAnswer_scrubbing hx), await (reclaimAnswer_scrubbing hx)⟩
    case reclaiming => exact ⟨status (reclaimAnswer_reclaiming hx), await (reclaimAnswer_reclaiming hx)⟩
    case offered => exact ⟨status (reclaimAnswer_offered ho), status (reclaimAnswer_offered ho)⟩
  case events =>
    intro x
    refine ⟨execNoticeExpiry_of_due, fun l hl => execScrubComplete_of_busy hl, fun l hl hready => ?leaving,
      fun hx hl hready => ?waits, fun hx hl hready => ?scrubbed⟩
    case leaving =>
      refine ⟨execScrubComplete_of_status_busy hl hready, execScrubComplete_of_work_left hl hready, fun hready0 hw => ⟨fun hx => ?_, fun hx => ?_⟩⟩
      all_goals refine (execScrubComplete_of_no_work hl hready hready0 hw).trans (congrArg _ ?_)
      · exact if_pos hx
      · exact if_neg (by rw [show (entryOf s p).state = _ from hx]; nofun)
    case waits => exact (execScrubComplete_of_scrub hx hl).trans (congrArg _ (if_neg (by simp [hready])))
    case scrubbed =>
      exact ⟨(execScrubComplete_of_scrub hx hl).trans (congrArg _ (if_pos hready)), entryOf_endTransfer_of_scrub hx hl,
        enteredAs_gen x, enteredAs_outcome x, byteAt_endTransfer_of_frame hx hl⟩

end Sys2Proof.Machine
end

section
/-! SUPPORT. Charters, musters, escheat, surveys and easements (R177 to R182, R281, R286, R298, R299, R331, R356), and O50. -/

namespace Sys2Proof.Machine

/-! ### A status with dwords -/

theorem putERun_eq (vs : List Word) : ∀ (i : Nat) (s : State), ∃ cores, putERun i vs s = { s with cores := cores } := by
  induction vs with
  | nil => exact fun i s => ⟨s.cores, rfl⟩
  | cons v vs ih =>
    intro i s
    obtain ⟨cores, h⟩ := ih (i + 1) (putE i v s)
    exact ⟨cores, h⟩

/-- The status write of an instruction that answers dwords too (R168, R177). -/
theorem ends_cadFinish_dwords {s : State} (h : s.cur.defer = false) (d : Reg) (p status first : Nat) (out : List Word) :
    Ends (cadFinish d p status first out) s () (cadDone d status (putERun first out s)) := by
  refine ends_get_bind (ends_ite_of_neg (by simp [h]) ((ends_modify ..).2 ?_))
  obtain ⟨cores, hrun⟩ := putERun_eq out first s
  rw [hrun]
  rfl

/-! ### CHARTER (R178, R179, R286) -/

/-- The record that an image makes (R179). -/
def recordOf (image : Nat) : List Word := (cutBits 64 image 32).map (BitVec.ofNat 64)

/-- The image and the operands of a CHARTER that makes no partition are good (R179, R286). -/
structure GoodCharter (s : State) (e : EReg) (image : Nat) : Prop where
  image : imageOk (recordOf image) = true
  zero : eval s (e.toNat + 3) = 0
  selector : eval s (e.toNat + 1) = 0
  key : eval s (e.toNat + 2) = 0

/-- What such a CHARTER does once its operands are read. -/
def charterAnswer (d : Reg) (p : Nat) (ds : List Word) (s : State) : Exec Unit :=
  let x := entryOf s p
  if x.inuse then do
    if parcelIndex p ≠ curEstate s && x.holder ≠ curEstate s then notHeld p
    if s.cur.defer then cadFinish d p 0 16 ds
    set (putImage s (parcelIndex p) ds)
    cadFinish d p 0
  else do
    if x.state ≠ .held || x.holder ≠ curEstate s then notHeld p
    set (setEstate (setEntry s p { x with inuse := true }) (parcelIndex p)
      { part := (estateOf s (curEstate s)).part, guarantor := curEstate s, dwords := ds })
    cadFinish d p 0

theorem charterPart_of_none (s : State) (me : Nat) (fresh : Bool) : charterPart s me fresh 0 0 = some none := by
  simp [charterPart]

section
variable {s s1 s2 : State} {d a : Reg} {e : EReg} {image : Nat}
variable (ht : Takes [a] (some d) s s1) (hc : CadReady s1 (gval s1 a).toNat) (hk : parcelKind (gval s1 a).toNat = 0)
variable (hi : Ends (loadOperand 0 (eval s1 e.toNat).toNat 256 8) s1 image s2) (hg : GoodCharter s2 e image)
variable (hr : (entryOf s2 (gval s1 a).toNat).state ≠ .retired)
include ht hc hk hi hg hr

theorem run_charter : execCharter d a e s = run (charterAnswer d (gval s1 a).toNat (recordOf image) s2) s2 := by
  have hpart : charterPart s2 (curEstate s2) (!(entryOf s2 (gval s1 a).toNat).inuse) (eval s2 (e.toNat + 1)) (eval s2 (e.toNat + 2)) =
      some none := by rw [hg.selector, hg.key, charterPart_of_none]
  have himage : imageOk ((cutBits 64 image 32).map (BitVec.ofNat 64)) = true := hg.image
  refine (run_cadParcel ht hc _).trans (run_congr ((run_ite_of_neg (not_not.2 hk)).trans ((run_get_bind ..).trans ((ends_bind hi).trans
    ((run_get_bind ..).trans ((run_ite_of_neg ?_).trans ((ends_bind (ends_cadRetired hr)).trans ?_)))))))
  · simp [himage, hg.zero, hpart]
  · dsimp only
    rw [hpart]
    rfl

variable (hd : s2.cur.defer = false)
include hd

theorem execCharter_of_use {y : Estate} (hx : (entryOf s2 (gval s1 a).toNat).inuse = true)
    (hown : parcelIndex (gval s1 a).toNat = curEstate s2 ∨ (entryOf s2 (gval s1 a).toNat).holder = curEstate s2)
    (hy : mapFind s2.estates (parcelIndex (gval s1 a).toNat) = some y) : execCharter d a e s =
      .next (cadDone d 0 (setEstate s2 (parcelIndex (gval s1 a).toNat) { y with dwords := recordOf image })) := by
  rw [run_charter ht hc hk hi hg hr]
  refine run_of_ends (ends_ite_of_pos hx (ends_ite_of_neg ?_ (ends_ite_of_neg (by simp [hd]) ?_)))
  · rcases hown with hown | hown <;> simp [hown]
  · simp only [putImage, hy]
    exact ends_set_bind (ends_cadFinish (s := setEstate s2 _ _) hd ..)

theorem execCharter_of_held (hx : (entryOf s2 (gval s1 a).toNat).inuse = false) (hheld : (entryOf s2 (gval s1 a).toNat).state = .held)
    (hh : (entryOf s2 (gval s1 a).toNat).holder = curEstate s2) : execCharter d a e s = .next (cadDone d 0 (setEstate
      (setEntry s2 (gval s1 a).toNat { entryOf s2 (gval s1 a).toNat with inuse := true }) (parcelIndex (gval s1 a).toNat)
      { part := (estateOf s2 (curEstate s2)).part, guarantor := curEstate s2, dwords := recordOf image })) := by
  rw [run_charter ht hc hk hi hg hr]
  exact run_of_ends (ends_ite_of_neg (by simp [hx]) (ends_ite_of_neg (by simp [hheld, hh])
    (ends_set_bind (ends_cadFinish (s := setEstate (setEntry s2 _ _) _ _) hd ..))))
end

/-! ### MUSTER, ESCHEAT and SURVEY -/

/-- The muster that starts, and its record (R180, R331). -/
def mustered (s : State) (id period : Nat) : State :=
  sinkRecord (setEstate s id { estateOf s id with muster := 1, musterDeadline := s.cycle + period }) s.cur.core id
    { kind := 4, addr := BitVec.ofNat 64 (s.cycle + period), aux := BitVec.ofNat 64 (curEstate s) }

/-- The estates that an ESCHEAT dissolves (R181). -/
def escheated (s : State) (id : Nat) : List Nat := subtree s [id] s.estates.length

/-- What ESCHEAT by the guarantor of an estate comes to (R181, R299). -/
def escheatAnswer (d : Reg) (p : Nat) (s : State) : Exec Unit :=
  let x := estateOf s (parcelIndex p)
  if x.muster ≠ 1 || s.cycle < x.musterDeadline then cadFinish d p 2
  else do
    if estatesCommit s (escheated s (parcelIndex p)) then waitFor (memWait 4 0)
    set (dissolve s (escheated s (parcelIndex p)) (curEstate s))
    if dissolving (dissolve s (escheated s (parcelIndex p)) (curEstate s)) then cadAwait d p false else cadFinish d p 0

section
variable {s s1 : State} {d a : Reg} {e : EReg} (ht : Takes [a] (some d) s s1) (hc : CadReady s1 (gval s1 a).toNat)
include ht hc

theorem execSurvey_of_ready : execSurvey d a e s = .next (cadDone d 0 (putERun e.toNat
    ((if (estateOf s1 (curEstate s1)).principal || entryPart s1 (entryOf s1 (gval s1 a).toNat) = (estateOf s1 (curEstate s1)).part then
      entryDwords s1 (entryOf s1 (gval s1 a).toNat)
    else [entryPart s1 (entryOf s1 (gval s1 a).toNat) % 64 * 2 ^ 42, 0, 0, 0]).map (BitVec.ofNat 64)) s1)) :=
  (run_cadParcel ht hc _).trans (run_of_ends (ends_get_bind (ends_cadFinish_dwords hc.now ..)))

variable (hk : parcelKind (gval s1 a).toNat = 0) (hid : parcelIndex (gval s1 a).toNat ≠ curEstate s1)
variable (hr : (entryOf s1 (gval s1 a).toNat).state ≠ .retired) (hg : guarantees s1 (curEstate s1) (gval s1 a).toNat = true)
include hk hid hr hg

section
variable (hmin : 3600 ≤ (eval s1 e.toNat).toNat) (hmax : (eval s1 e.toNat).toNat < 2 ^ 48)
include hmin hmax

/-- A muster that passes its checks (R331). -/
theorem execMuster_of_ends {t : State} (h : Ends (if (estateOf s1 (parcelIndex (gval s1 a).toNat)).muster = 1 then
      cadFinish d (gval s1 a).toNat 6 else do
      set (mustered s1 (parcelIndex (gval s1 a).toNat) (eval s1 e.toNat).toNat)
      cadFinish d (gval s1 a).toNat 0) s1 () t) : execMuster d a e s = .next t :=
  (run_cadParcel ht hc _).trans (run_of_ends (ends_get_bind (ends_ite_of_neg (by simp; omega) (ends_ite_of_neg (not_not.2 hk)
    (ends_ite_of_neg hid ((ends_cadRetired hr).bind (ends_ite_of_neg (by simp [hg]) h)))))))

theorem execMuster_of_pending (hm : (estateOf s1 (parcelIndex (gval s1 a).toNat)).muster = 1) :
    execMuster d a e s = .next (cadDone d 6 s1) :=
  execMuster_of_ends ht hc hk hid hr hg hmin hmax (ends_ite_of_pos hm (ends_cadFinish hc.now ..))

theorem execMuster_of_none (hm : (estateOf s1 (parcelIndex (gval s1 a).toNat)).muster ≠ 1) :
    execMuster d a e s = .next (cadDone d 0 (mustered s1 (parcelIndex (gval s1 a).toNat) (eval s1 e.toNat).toNat)) := by
  have hnow : (mustered s1 (parcelIndex (gval s1 a).toNat) (eval s1 e.toNat).toNat).cur.defer = false := by
    rw [mustered, sinkRecord_cur]
    exact hc.now
  exact execMuster_of_ends ht hc hk hid hr hg hmin hmax (ends_ite_of_neg hm (ends_set_bind (ends_cadFinish hnow ..)))
end

theorem run_escheat : execEscheat d a s = run (escheatAnswer d (gval s1 a).toNat s1) s1 :=
  (run_cadParcel ht hc _).trans (run_congr ((run_get_bind ..).trans ((run_ite_of_neg (not_not.2 hk)).trans ((run_ite_of_neg hid).trans
    ((ends_bind (ends_cadRetired hr)).trans (run_ite_of_neg (by simp [hg])))))))

theorem execEscheat_of_early (h : (estateOf s1 (parcelIndex (gval s1 a).toNat)).muster ≠ 1 ∨
    s1.cycle < (estateOf s1 (parcelIndex (gval s1 a).toNat)).musterDeadline) : execEscheat d a s = .next (cadDone d 2 s1) := by
  rw [run_escheat ht hc hk hid hr hg]
  exact run_of_ends (ends_ite_of_pos (by simpa using h) (ends_cadFinish hc.now ..))

section
variable (hm : (estateOf s1 (parcelIndex (gval s1 a).toNat)).muster = 1)
variable (hdue : (estateOf s1 (parcelIndex (gval s1 a).toNat)).musterDeadline ≤ s1.cycle)
include hm hdue

theorem execEscheat_of_commit (h : estatesCommit s1 (escheated s1 (parcelIndex (gval s1 a).toNat)) = true) :
    execEscheat d a s = .next (takeWait (memWait 4 0) .none s1) := by
  rw [run_escheat ht hc hk hid hr hg]
  exact run_of_waits (waits_ite_of_neg (by simp [hm, hdue]) (waits_ite_of_pos h rfl))

theorem execEscheat_of_idle (h : estatesCommit s1 (escheated s1 (parcelIndex (gval s1 a).toNat)) = false) :
    let s2 := dissolve s1 (escheated s1 (parcelIndex (gval s1 a).toNat)) (curEstate s1)
    execEscheat d a s = .next (if dissolving s2 then cadWaits d (gval s1 a).toNat false s2 else cadDone d 0 s2) := by
  intro s2
  have hnow : s2.cur.defer = false := hc.now
  rw [run_escheat ht hc hk hid hr hg]
  by_cases hleft : dissolving s2 = true
  · rw [if_pos hleft]
    exact run_of_waits (waits_ite_of_neg (by simp [hm, hdue]) (waits_ite_of_neg (by simp [h]) (waits_set_bind
      (waits_ite_of_pos hleft (waits_cadAwait ..)))))
  · rw [if_neg hleft]
    exact run_of_ends (ends_ite_of_neg (by simp [hm, hdue]) (ends_ite_of_neg (by simp [h]) (ends_set_bind
      (ends_ite_of_neg hleft (ends_cadFinish hnow ..)))))
end
end

/-! ### ANSWER (R281) -/

section
variable {s s1 : State} {d : Reg} (ht : Takes [] (some d) s s1) (hf : mayBeFirm s1 (curSlot s1).task = true)
variable (hst : (curSlot s1).stores = []) (hd : s1.cur.defer = false)
include ht hf hst hd

theorem execAnswer_of_muster (hm : (estateOf s1 (curEstate s1)).muster = 1) : execAnswer d s =
    .next (cadDone d 0 (setEstate s1 (curEstate s1) { estateOf s1 (curEstate s1) with muster := 2 })) :=
  run_of_ends (ht.bind ((ends_firm_of_frontier hf).bind ((ends_emptyBuffer_of_nil hst).bind (ends_get_bind
    (ends_ite_of_pos hm (ends_set_bind (ends_cadFinish (s := setEstate s1 _ _) hd ..)))))))

theorem execAnswer_of_none (hm : (estateOf s1 (curEstate s1)).muster ≠ 1) : execAnswer d s = .next (cadDone d 5 s1) :=
  run_of_ends (ht.bind ((ends_firm_of_frontier hf).bind ((ends_emptyBuffer_of_nil hst).bind (ends_get_bind
    (ends_ite_of_neg hm (ends_cadFinish hd ..))))))
end

/-! ### EASE (R182, R298) -/

/-- The operands of an EASE are legal, and its caller may ease every parcel of the range (R182, R298). -/
structure MayEase (s : State) (p grantee count rights : Nat) : Prop where
  live : (entryOf s p).state ≠ .retired
  name : grantee < 2 ^ 28
  nonempty : 0 < count
  few : count ≤ 4096
  legal : rights < 32
  kind : easeRights (parcelKind p) ≠ 0
  suits : rights &&& easeRights (parcelKind p) = rights
  shape : parcelKind p = 4 ∨ count = 1
  fits : parcelIndex p + count ≤ kindCount (parcelKind p)
  mine : ∀ i, i < count → easable s (curEstate s) (p + i) = true

/-- The easement of a grantor that an EASE names (R298). -/
def sameEase (grantor grantee p count : Nat) (g : Easement) : Bool :=
  g.grantor == grantor && g.grantee == grantee && g.parcel == p && g.count == count

theorem sameEase_iff {grantor grantee p count : Nat} {g : Easement} : sameEase grantor grantee p count g = true ↔
    g.grantor = grantor ∧ g.grantee = grantee ∧ g.parcel = p ∧ g.count = count := by
  simp [sameEase, and_assoc]

/-- What EASE comes to once its checks have passed. -/
def easeAnswer (d : Reg) (p grantee count rights : Nat) (revoke : Bool) (s : State) : Exec Unit :=
  if revoke then
    match s.easements.find? (sameEase (curEstate s) grantee p count) with
    | some g => do
      set { s with easements := s.easements.erase g }
      if easedOut { s with easements := s.easements.erase g } then
        waitFor { memWait 4 0 with sent := true } (.cad d p (some 0) 0 [] true)
      cadFinish d p 0
    | none => cadFinish d p 5
  else if 4096 ≤ s.easements.length then cadFinish d p 6
  else do
    set { s with easements := s.easements ++ [(⟨curEstate s, grantee, p, count, rights⟩ : Easement)] }
    cadFinish d p 0

section
variable {s s1 : State} {d a b : Reg} {e : EReg}
variable (ht : Takes [a, b] (some d) s s1) (hc : CadReady s1 (gval s1 a).toNat)
variable (hm : MayEase s1 (gval s1 a).toNat (gval s1 b).toNat (eval s1 e.toNat).toNat (bits (eval s1 (e.toNat + 1)) 0 63))
include ht hc hm

theorem run_ease (hrev : bits (eval s1 (e.toNat + 1)) 63 1 = 1 ∨ bits (eval s1 (e.toNat + 1)) 0 63 ≠ 0) :
    execEase d a b e s = run (easeAnswer d (gval s1 a).toNat (gval s1 b).toNat (eval s1 e.toNat).toNat
      (bits (eval s1 (e.toNat + 1)) 0 63) (bits (eval s1 (e.toNat + 1)) 63 1 == 1) s1) s1 := by
  obtain ⟨hlive, hgrantee, hsome, hfew, hrights, hkind, hsuits, hrun, hrange, heasable⟩ := hm
  refine run_congr ((ends_bind ht).trans ((run_get_bind ..).trans ((ends_bind (ends_cadSend hc)).trans
    ((ends_bind (ends_cadGood hc.good s1)).trans ((run_get_bind ..).trans ((run_ite_of_neg ?operands).trans
    ((run_ite_of_neg hkind).trans ((run_ite_of_neg ?range).trans ((ends_bind (ends_cadRetired hlive)).trans
    ((run_ite_of_neg ?easable).trans ?_))))))))))
  case operands =>
    simp only [Bool.or_eq_true, decide_eq_true_eq, Bool.and_eq_true, beq_iff_eq, Bool.not_eq_true', beq_eq_false_iff_ne, ne_eq]
    omega
  case range =>
    simp only [Bool.or_eq_true, decide_eq_true_eq, Bool.and_eq_true, ne_eq]
    omega
  case easable => simpa using heasable
  rfl

section
variable (hgrant : bits (eval s1 (e.toNat + 1)) 63 1 = 0) (hsome : bits (eval s1 (e.toNat + 1)) 0 63 ≠ 0)
include hgrant hsome

theorem execEase_of_room (hroom : s1.easements.length < 4096) : execEase d a b e s = .next (cadDone d 0 { s1 with
    easements := s1.easements ++ [⟨curEstate s1, (gval s1 b).toNat, (gval s1 a).toNat, (eval s1 e.toNat).toNat,
      bits (eval s1 (e.toNat + 1)) 0 63⟩] }) := by
  rw [run_ease ht hc hm (.inr hsome)]
  exact run_of_ends (ends_ite_of_neg (by simp [hgrant]) (ends_ite_of_neg hroom.not_ge
    (ends_set_bind (ends_cadFinish (s := { s1 with easements := s1.easements ++ _ }) hc.now ..))))

theorem execEase_of_full (hfull : 4096 ≤ s1.easements.length) : execEase d a b e s = .next (cadDone d 6 s1) := by
  rw [run_ease ht hc hm (.inr hsome)]
  exact run_of_ends (ends_ite_of_neg (by simp [hgrant]) (ends_ite_of_pos hfull (ends_cadFinish hc.now ..)))
end

section
variable (hrevoke : bits (eval s1 (e.toNat + 1)) 63 1 = 1)
include hrevoke

theorem execEase_of_no_grant
    (h : ∀ g ∈ s1.easements, ¬ sameEase (curEstate s1) (gval s1 b).toNat (gval s1 a).toNat (eval s1 e.toNat).toNat g = true) :
    execEase d a b e s = .next (cadDone d 5 s1) := by
  rw [run_ease ht hc hm (.inl hrevoke)]
  refine run_of_ends (ends_ite_of_pos (by simp [hrevoke]) ?_)
  rw [List.find?_eq_none.2 h]
  exact ends_cadFinish hc.now ..

section
variable {g : Easement}
variable (hfind : s1.easements.find? (sameEase (curEstate s1) (gval s1 b).toNat (gval s1 a).toNat (eval s1 e.toNat).toNat) = some g)
include hfind

theorem execEase_of_revoked (h : easedOut { s1 with easements := s1.easements.erase g } = false) :
    execEase d a b e s = .next (cadDone d 0 { s1 with easements := s1.easements.erase g }) := by
  rw [run_ease ht hc hm (.inl hrevoke)]
  refine run_of_ends (ends_ite_of_pos (by simp [hrevoke]) ?_)
  rw [hfind]
  exact ends_set_bind (ends_ite_of_neg (by simp [h]) (ends_cadFinish (s := { s1 with easements := s1.easements.erase g }) hc.now ..))

theorem execEase_of_admitted (h : easedOut { s1 with easements := s1.easements.erase g } = true) :
    execEase d a b e s = .next (takeWait { reason := .mem, sent := true, peer := 4, key := 0 }
      (.cad d (gval s1 a).toNat (some 0) 0 [] true) { s1 with easements := s1.easements.erase g }) := by
  rw [run_ease ht hc hm (.inl hrevoke)]
  refine run_of_waits (waits_ite_of_pos (by simp [hrevoke]) ?_)
  rw [hfind]
  exact waits_set_bind (waits_ite_of_pos h rfl)
end
end
end

/-- Settles O50: each instruction makes its checks in order, and then does what its answer says, case by case. -/
theorem authorityResults : Obligations.AuthorityResults := by
  unfold Obligations.AuthorityResults
  intro s s1 d a b e p me x id
  refine ⟨fun ht hc => ⟨?charter, fun hk hid hr hg => ⟨fun hmin hmax => ?muster, fun hm hdue => ?escheat,
    execEscheat_of_early ht hc hk hid hr hg⟩, execSurvey_of_ready ht hc⟩, fun ht hf hst hd => ?answer, fun ht hc hr => ?ease⟩
  case charter =>
    intro image s2 hk hi hd hme hx ds hok h3 hr
    rw [← hx] at hr
    refine ⟨fun hin hown h1 h2 y hy => ?_, fun hin hheld hh h1 h2 => ?_⟩
    · exact execCharter_of_use ht hc hk hi ⟨hok, h3, h1, h2⟩ hr hd (by rw [hx, hin]) (by rw [hx, hme]; exact hown) hy
    · have h := execCharter_of_held ht hc hk hi ⟨hok, h3, h1, h2⟩ hr hd (by rw [hx, hin]) (by rw [hx, hheld]) (by rw [hx, hme, hh])
      rwa [hx, hme] at h
  case muster =>
    exact ⟨execMuster_of_pending ht hc hk hid hr hg hmin hmax, execMuster_of_none ht hc hk hid hr hg hmin hmax⟩
  case escheat =>
    exact ⟨execEscheat_of_commit ht hc hk hid hr hg hm hdue, execEscheat_of_idle ht hc hk hid hr hg hm hdue⟩
  case answer => exact ⟨execAnswer_of_muster ht hf hst hd, execAnswer_of_none ht hf hst hd⟩
  case ease =>
    intro grantee count w rights hgrantee hsome hfew hrights hkind hsuits hrun hrange heasable
    have hm : MayEase s1 p grantee count rights :=
      ⟨hr, hgrantee, hsome, hfew, hrights, hkind, hsuits, hrun, hrange, heasable⟩
    refine ⟨execEase_of_room ht hc hm, execEase_of_full ht hc hm, fun hrevoke hnone => ?_, fun g hrevoke hmem h1 h2 h3 h4 => ?_⟩
    · exact execEase_of_no_grant ht hc hm hrevoke fun g hg hsame => hnone g hg (sameEase_iff.1 hsame)
    · obtain ⟨g', hfind⟩ := Option.isSome_iff_exists.1 (List.find?_isSome.2 ⟨g, hmem, sameEase_iff.2 ⟨h1, h2, h3, h4⟩⟩)
      obtain ⟨h1', h2', h3', h4'⟩ := sameEase_iff.1 (List.find?_some hfind)
      exact ⟨g', List.mem_of_find?_eq_some hfind, h1', h2', h3', h4', execEase_of_revoked ht hc hm hrevoke hfind,
        execEase_of_admitted ht hc hm hrevoke hfind⟩

end Sys2Proof.Machine
end

section
/-! SUPPORT. Active messages: AMSG and its answers, a message at its core, AMRET and the courier (R229 to R231, R278, R279), and O54. -/

namespace Sys2Proof.Machine

/-! ### AMSG and AMSG.r (R229, R279) -/

/-- The checks that a message passes before it is numbered (R229). -/
structure LegalAmsg (s : State) (name sel : Word) : Prop where
  upper : bits name 28 36 = 0
  middle : bits name 10 4 = 0
  rest : bits sel 11 53 = 0
  few : bits sel 8 3 ≤ 4
  frontier : mayBeFirm s (curSlot s).task = true

/-- The number that the next message to a package gets (R225). -/
def nextSeq (s : State) (pkg : Nat) : Nat := (mapFind s.seqs pkg).getD 0

/-- The state in which that number is taken. -/
def numbered (s : State) (pkg : Nat) : State := { s with seqs := mapSet s.seqs pkg ((nextSeq s pkg + 1) % 2 ^ 32) }

/-- The record that the issuing thread's message leaves at its core (R229, R230). -/
def messageOf (s : State) (name sel : Word) (e : EReg) (reply : Bool) : RingRec :=
  ⟨0, 0, bits sel 0 8, eRun s e (bits sel 8 3), curEstate s, s.pkgId.toNat, threadId s.cur.core s.cur.slot, nextSeq s (bits name 14 14), reply⟩

/-- How a sender waits for the answer to its message. -/
def amsgWait (name : Word) : WaitState := { reason := .amsg, sent := true, peer := name.toNat }

/-- What AMSG does with the answer of a core of its own package. -/
def endAmsg (d : Reg) (reply : Bool) (w : WaitState) (pend : Pending) (pkg : Nat) : Answer → Exec Unit
  | .accepted => if reply then waitFor w pend else modify (writesG 1 d 0)
  | .busy => modify (writesG 1 d 6)
  | .refused => modify (writesG 1 d 2)
  | _ => trapWith .gate 0 (fabricAux 5 false pkg)

/-- The message at a core of its own package, and what its answer does. -/
def deliverHere (d : Reg) (reply : Bool) (w : WaitState) (pend : Pending) (pkg core : Nat) (r : RingRec) (t : State) : Exec Unit := do
  set (deliverMessage t core r).2
  endAmsg d reply w pend pkg (deliverMessage t core r).1

theorem deliverHere_run {t u : State} {core : Nat} {r : RingRec} {answer : Answer} (h : deliverMessage t core r = (answer, u))
    {d : Reg} {reply : Bool} {w : WaitState} {pend : Pending} {pkg : Nat} (s : State) :
    (deliverHere d reply w pend pkg core r t).run s = (endAmsg d reply w pend pkg answer).run u := by
  rw [deliverHere, h]
  rfl

section
variable {s s1 : State} {d a b : Reg} {e : EReg} {reply : Bool}
variable (ht : Takes [a, b] (some d) s s1) (hl : LegalAmsg s1 (gval s1 a) (gval s1 b))
include ht hl

section
variable (hpkg : bits (gval s1 a) 14 14 = s1.pkgId.toNat) (hnow : s1.cur.defer = false) (hst : (curSlot s1).stores = [])
variable (hrun : clusterOf (bits (gval s1 a) 0 10) ∉ s1.halted)
include hpkg hnow hst hrun

theorem run_amsg_local {answer : Answer} {u : State} (h : deliverMessage (numbered s1 (bits (gval s1 a) 14 14)) (bits (gval s1 a) 0 10)
      (messageOf s1 (gval s1 a) (gval s1 b) e reply) = (answer, u)) :
    run (amsg reply d a b e) s = run (endAmsg d reply (amsgWait (gval s1 a))
      (.amsg d e.toNat reply (nextSeq s1 (bits (gval s1 a) 14 14))) (bits (gval s1 a) 14 14) answer) u := by
  obtain ⟨hupper, hmiddle, hrest, hfew, hfrontier⟩ := hl
  refine run_congr ((ends_bind ht).trans ((run_get_bind ..).trans ((run_ite_of_neg ?legal).trans
    ((ends_bind (ends_firm_of_frontier hfrontier)).trans ((run_ite_of_neg ?room).trans ((run_ite_of_neg ?order).trans
    ((run_modify_bind ..).trans ((run_ite_of_pos ?here).trans ((run_get_bind ..).trans ?_)))))))))
  case legal => simp [hupper, hmiddle, hrest, hfew.not_gt]
  case room => simp [hpkg]
  case order => simp [hpkg]
  case here => simp [hpkg, hnow, unreleased, hst, hrun]
  exact deliverHere_run h _

theorem execAmsg_of_deliver {answer : Answer} {status : Word} {u : State}
    (h : deliverMessage (numbered s1 (bits (gval s1 a) 14 14)) (bits (gval s1 a) 0 10)
      (messageOf s1 (gval s1 a) (gval s1 b) e reply) = (answer, u))
    (hend : endAmsg d reply (amsgWait (gval s1 a)) (.amsg d e.toNat reply (nextSeq s1 (bits (gval s1 a) 14 14)))
      (bits (gval s1 a) 14 14) answer = modify (writesG 1 d status)) :
    run (amsg reply d a b e) s = .next (writesG 1 d status u) := by
  rw [run_amsg_local ht hl hpkg hnow hst hrun h, hend]
  rfl

theorem execAmsgR_of_accepted {u : State} (h : deliverMessage (numbered s1 (bits (gval s1 a) 14 14)) (bits (gval s1 a) 0 10)
      (messageOf s1 (gval s1 a) (gval s1 b) e true) = (.accepted, u)) :
    execAmsgR d a b e s = .next (takeWait (amsgWait (gval s1 a)) (.amsg d e.toNat true (nextSeq s1 (bits (gval s1 a) 14 14))) u) :=
  run_amsg_local ht hl hpkg hnow hst hrun h
end

/-- The state in which a message to another package has been sent and its answer is outstanding (R225, R229). -/
def sentAway (s : State) (name sel : Word) (e : EReg) (reply : Bool) : State :=
  let pkg := bits name 14 14
  let seq := nextSeq s pkg
  let thread := threadId s.cur.core s.cur.slot
  { numbered s pkg with
    outbox := (pkg, .amsg seq (fabricName s (curEstate s)) (bits name 0 10) thread (bits sel 0 8) (eRun s e (bits sel 8 3)) reply) :: s.outbox
    outstanding := s.outstanding ++ [({ dst := pkg, seq := seq, thread := thread } : Outstanding)] }

theorem execAmsg_of_other_package (hpkg : bits (gval s1 a) 14 14 ≠ s1.pkgId.toNat) (hroom : full1024 s1 (bits (gval s1 a) 14 14) = false)
    (hst : (curSlot s1).stores = []) : run (amsg reply d a b e) s = .next (takeWait (amsgWait (gval s1 a))
      (.amsg d e.toNat reply (nextSeq s1 (bits (gval s1 a) 14 14))) (sentAway s1 (gval s1 a) (gval s1 b) e reply)) := by
  obtain ⟨hupper, hmiddle, hrest, hfew, hfrontier⟩ := hl
  have hnone : (slotOf s1 s1.cur.core s1.cur.slot).stores.find? (fun _ => true) = none := by
    rw [show (slotOf s1 s1.cur.core s1.cur.slot).stores = [] from hst, List.find?_nil]
  refine run_of_waits ?_
  refine ((ends_bind ht).trans ((run_get_bind ..).trans ((run_ite_of_neg ?legal).trans
    ((ends_bind (ends_firm_of_frontier hfrontier)).trans ((run_ite_of_neg ?room).trans ((run_ite_of_pos ?other).trans
    ((ends_bind (ends_awaitEntries_of_none hnone)).trans ((run_modify_bind ..).trans
    ((run_ite_of_neg ?away).trans ((run_modify_bind ..).trans ?_))))))))))
  case legal => simp [hupper, hmiddle, hrest, hfew.not_gt]
  case room => simp [hroom]
  case other => simpa using hpkg
  case away => simp [hpkg]
  simp only [if_neg hpkg]
  rfl
end

/-! ### A message at its core (R229, R230) -/

theorem pkgId_storeHome_scratch (s : State) (core o n data mask : Nat) :
    (storeHome s (.scratch core o) n data mask).pkgId = s.pkgId := by
  rw [storeHome]
  split <;> rfl

theorem ring_storeHome_scratch (s : State) (core o n data mask : Nat) :
    (coreOf (storeHome s (.scratch core o) n data mask) core).ring = (coreOf s core).ring := by
  rw [storeHome]
  split
  · rfl
  · rw [coreOf_setCore_self]

theorem coreOf_storeHome_scratch_of_ne (s : State) {c core : Nat} (hc : c ≠ core) (o n data mask : Nat) :
    coreOf (storeHome s (.scratch core o) n data mask) c = coreOf s c := by
  rw [storeHome]
  split
  · rfl
  · exact coreOf_setCore_of_ne _ _ hc

theorem writeRecord_keeps (core : Nat) : ∀ (n : Nat) (off data : Nat) (s : State),
    (writeRecord core off data n s).pkgId = s.pkgId ∧ (coreOf (writeRecord core off data n s) core).ring = (coreOf s core).ring ∧
      ∀ c, c ≠ core → coreOf (writeRecord core off data n s) c = coreOf s c := by
  intro n
  induction n with
  | zero => exact fun _ _ _ => ⟨rfl, rfl, fun _ _ => rfl⟩
  | succ n ih =>
    intro off data s
    obtain ⟨hpkg, hring, hother⟩ := ih (off + 16) (data / 2 ^ 128)
      (storeHome s (.scratch core (if 0x40000 ≤ off then off - 0x4000 else off)) 16 (data % 2 ^ 128) (fullMask 16))
    exact ⟨hpkg.trans (pkgId_storeHome_scratch ..), hring.trans (ring_storeHome_scratch ..), fun c hc => (hother c hc).trans (coreOf_storeHome_scratch_of_ne s hc ..)⟩

/-- The record that a message leaves in the ring of its core, at the tail. -/
def placedRecord (c : Core) (r : RingRec) : RingRec := { r with off := c.ringTail, bytes := recordBytes r.args.length }

/-- The state in which a core's ring holds the message. -/
def recorded (s : State) (core : Nat) (r : RingRec) : State :=
  let c := coreOf s core
  let r' := placedRecord c r
  let t := writeRecord core c.ringTail (dwordsNat (r'.header :: r'.sender :: r'.args.map (·.toNat))) (r'.bytes / 16) s
  let tail := c.ringTail + r'.bytes
  setCore t core { coreOf t core with
    ring := (coreOf t core).ring ++ [r'], ringTail := if 0x40000 ≤ tail then tail - 0x4000 else tail }

theorem ring_recorded (s : State) (core : Nat) (r : RingRec) :
    (coreOf (recorded s core r) core).ring = (coreOf s core).ring ++ [placedRecord (coreOf s core) r] := by
  simp only [recorded, coreOf_setCore_self, (writeRecord_keeps ..).2.1]

theorem coreOf_recorded_of_ne (s : State) {c core : Nat} (hc : c ≠ core) (r : RingRec) : coreOf (recorded s core r) c = coreOf s c :=
  (coreOf_setCore_of_ne _ _ hc).trans ((writeRecord_keeps ..).2.2 c hc)

/-- The occupant of a HELD core takes what its own estate sends (R229), as far as its ring has room (R230). -/
theorem deliverMessage_of_occupant {s : State} {core : Nat} {r : RingRec} (hheld : (entryOf s (parcelCore core)).state = .held)
    (hocc : coreEstate s core = some r.estate) (hpkg : r.pkg = s.pkgId.toNat) : deliverMessage s core r =
      if ringFree (coreOf s core) < recordBytes r.args.length then (.busy, s) else (.accepted, recorded s core r) := by
  have hvoid : messageVoided s core r.pkg r.estate = false := by simp [messageVoided, hpkg]
  have hallow : messageAllowed s core r.pkg r.estate = true := by simp [messageAllowed, hocc, hpkg]
  simp only [deliverMessage, hvoid, hheld, hallow, Bool.not_true, Bool.false_eq_true, if_false]
  rfl

/-- A message leaves its core's package number as it is. -/
theorem pkgId_deliverMessage (s : State) (core : Nat) (r : RingRec) : (deliverMessage s core r).2.pkgId = s.pkgId := by
  rw [deliverMessage]
  split
  · rfl
  split
  · rfl
  · rfl
  split
  · rfl
  dsimp only
  split
  · rfl
  · exact (writeRecord_keeps ..).1

/-! ### AMRET (R278) -/

section
variable {s s1 : State} {a : Reg} (ht : Takes [a] none s s1)
include ht

theorem execAmret_of_no_handler (h : isCourier s1.cur.core s1.cur.slot = false ∨ (curSlot s1).handling = none) :
    execAmret a s = .next (illegalTrapped s1) := by
  refine run_of_traps (ht.bind_traps (traps_get_bind (traps_ite_illegal ?_)))
  rcases h with h | h <;> simp [h]

theorem execAmret_of_handler {r : RingRec} (hc : isCourier s1.cur.core s1.cur.slot = true) (hr : (curSlot s1).handling = some r)
    (hst : (curSlot s1).stores = []) : execAmret a s = .next (endAt (.amret (gval s1 a)) s1) := by
  refine run_of_ends (ht.bind (ends_get_bind (ends_ite_of_neg (by simp [hc, hr]) ?_)))
  simp only [hst]
  rfl
end

theorem applyThread_amret {b : Wb} {v : Word} (h : b.act = .amret v) (u : State) (core : Nat) :
    applyThread core u b = endHandler u core (.replied v) := by
  rw [applyThread, h]

/-! ### AMSG_ARRIVE (R225, R229, R230) -/

theorem arrival_legal {s : State} {core thread : Nat} {args : List Word} (hcore : core < 1024) (hargs : args.length ≤ 4)
    (hthread : thread < 16384) (hrun : clusterOf core ∉ s.halted) :
    ¬ (1024 ≤ core || 4 < args.length || 16384 ≤ thread || s.halted.contains (clusterOf core)) = true := by
  simp [hcore.not_ge, hargs.not_gt, hthread.not_ge, hrun]

section
variable {s : State} {core pkg estate thread seq handler : Nat} {args : List Word} {reply : Bool}
variable (hcore : core < 1024) (hargs : args.length ≤ 4) (hthread : thread < 16384) (hpkg : pkg ≠ s.pkgId.toNat)
variable (hrun : clusterOf core ∉ s.halted)
include hcore hargs hthread hpkg hrun

theorem execAmsgArrive_of_answered {m : FabricMsg} (h : storedAnswer s pkg seq = some m) :
    execAmsgArrive core pkg estate thread seq handler args reply s = .next { s with outbox := (pkg, m) :: s.outbox } := by
  simp only [execAmsgArrive, if_neg (arrival_legal hcore hargs hthread hrun), if_neg hpkg, h]

theorem execAmsgArrive_of_behind (h : storedAnswer s pkg seq = none) (hb : behindWindow s pkg seq = true) :
    execAmsgArrive core pkg estate thread seq handler args reply s = .next s := by
  simp only [execAmsgArrive, if_neg (arrival_legal hcore hargs hthread hrun), if_neg hpkg, h, hb, if_true]

theorem execAmsgArrive_of_new (h : storedAnswer s pkg seq = none) (hb : behindWindow s pkg seq = false) :
    let out := deliverMessage s core ⟨0, 0, handler, args, estate, pkg, thread, seq, reply⟩
    execAmsgArrive core pkg estate thread seq handler args reply s = .next { keepReply out.2 pkg seq (.answer thread out.1) with
      outbox := (pkg, .answer thread out.1) :: out.2.outbox } := by
  intro out
  have hown : pkg ≠ (keepReply out.2 pkg seq (.answer thread out.1)).pkgId.toNat := by
    rwa [keepReply, pkgId_deliverMessage]
  simp only [execAmsgArrive, if_neg (arrival_legal hcore hargs hthread hrun), if_neg hpkg, h, hb, Bool.false_eq_true, if_false]
  exact congrArg _ (if_neg hown)
end

/-! ### COURIER_START (R231) -/

/-- The slot in which the courier starts the handler of a record, at an entry of the estate's table (R231). -/
def courierSlot (s s1 : State) (core est v : Nat) (r : RingRec) : Slot :=
  let h := handlerSlot s1 est (v % 2 ^ 48) (ticksOf s1 core)
  let arg (i : Nat) : Word := r.args[i]?.getD 0
  { h with
    g := ((((((h.g.set 1 (arg 0)).set 2 (arg 1)).set 3 (arg 2)).set 4 (arg 3)).set 5 (BitVec.ofNat 64 r.sender)).set 6
      (BitVec.ofNat 64 r.header)).set 7 (BitVec.ofNat 64 r.off)
    handling := some r, posted := (slotOf s core 14).posted, storeSeq := (slotOf s core 14).storeSeq }

section
variable {s s1 : State} {core est v : Nat} {r : RingRec}

theorem execCourierStart_of_entry {rest : List RingRec} (hest : coreEstate s core = some est) (hring : (coreOf s core).ring = r :: rest)
    (hcore : core < garnet) (hlive : (slotOf s core 14).live = false) (hst : (slotOf s core 14).stores = [])
    (hstr : (slotOf s core 14).streams = []) (hrun : clusterOf core ∉ s.halted)
    (hread : hwRead s core est ((estateOf s est).courierTable + 8 * r.handler) 8 false 2 = (some v, s1)) (hentry : v % 2 ^ 48 ≠ 0) :
    execCourierStart core s = .next (setSlot (closeCombining (threadId core 14) s1) core 14 (courierSlot s s1 core est v r)) := by
  have hguard : ¬ (garnet ≤ core || (slotOf s core 14).live || !(slotOf s core 14).stores.isEmpty ||
      !(slotOf s core 14).streams.isEmpty || s.halted.contains (clusterOf core)) = true := by
    simp [hcore.not_ge, hlive, hst, hstr, hrun]
  simp only [execCourierStart, hest, hring, if_neg hguard, hread, if_neg hentry]
  rfl

theorem courierSlot_args (i : Nat) (hi : i < 4) : (courierSlot s s1 core est v r).g[i + 1]? = some (r.args[i]?.getD 0) := by
  match i, hi with
  | 0, _ | 1, _ | 2, _ | 3, _ => rfl
end

/-! ### AMSG_ANSWER (R229) -/

theorem execAmsgAnswer_of_waiting {s : State} {core slot e seq : Nat} {d : Reg} {reply : Bool} (answer : Answer) (hcore : core ≤ 1024)
    (hrun : clusterOf core ∉ s.halted) (hlive : (slotOf s core slot).live = true) (hwait : (slotOf s core slot).wait.reason = .amsg)
    (hpkg : (slotOf s core slot).wait.peer / 16384 ≠ s.pkgId.toNat) (hpend : (slotOf s core slot).pend = .amsg d e reply seq) :
    execAmsgAnswer core slot answer s = .next (answerAmsg { s with
      outstanding := s.outstanding.filter (fun o => !(o.dst == (slotOf s core slot).wait.peer / 16384 && o.seq == seq)) } core slot answer) := by
  have hguard : ((slotOf s core slot).live && (slotOf s core slot).wait.reason == .amsg &&
      (slotOf s core slot).wait.peer / 16384 != s.pkgId.toNat) = true := by
    simp [hlive, hwait, hpkg]
  simp only [execAmsgAnswer, if_neg hcore.not_gt, List.contains_iff_mem, if_neg hrun, hpend, hguard, if_true]

section
variable {s : State} {core slot e seq : Nat} {d : Reg} {reply : Bool}
variable (hpend : (slotOf s core slot).pend = .amsg d e reply seq)
include hpend

theorem answerAmsg_accepted (hreply : reply = false) : answerAmsg s core slot .accepted = resume core slot (replyG d 0) s := by
  simp only [answerAmsg, hpend, hreply, Bool.false_eq_true, if_false]

theorem answerAmsg_busy : answerAmsg s core slot .busy = resume core slot (replyG d 6) s := by
  simp only [answerAmsg, hpend]

theorem answerAmsg_refused : answerAmsg s core slot .refused = resume core slot (replyG d 2) s := by
  simp only [answerAmsg, hpend]

theorem answerAmsg_replied (hreply : reply = true) (v : Word) : answerAmsg s core slot (.replied v) = resume core slot (do
    modify (fun s => putE e v (closeCombining (threadId core slot) s))
    replyG d 0) s := by
  simp only [answerAmsg, hpend, hreply, if_true]
end

/-- Settles O54: each instruction and event is followed through its checks; a core's answer is that of `deliverMessage`. -/
theorem messageResults : Obligations.MessageResults := by
  unfold Obligations.MessageResults
  refine ⟨?amsg, ?deliver, ?amret, ?arrive, ?courier, ?answer⟩
  case amsg =>
    intro s s1 d a b e ht name sel argc pkg core seq rec0 t h1 h2 h3 h4 hf
    have hl : LegalAmsg s1 name sel := ⟨h1, h2, h3, h4, hf⟩
    refine ⟨fun hp hd hst hr => ⟨fun u h => ?_, fun u h => ?_, fun u h => ?_, fun u h => ?_, fun u h => ?_⟩, fun hp hroom hst => ?_⟩
    · exact execAmsg_of_deliver ht hl hp hd hst hr h rfl
    · exact execAmsg_of_deliver ht hl hp hd hst hr h rfl
    · exact execAmsg_of_deliver ht hl hp hd hst hr h rfl
    · exact execAmsg_of_deliver ht hl hp hd hst hr h rfl
    · exact execAmsgR_of_accepted ht hl hp hd hst hr h
    · exact ⟨sentAway s1 name sel e false, execAmsg_of_other_package ht hl hp hroom hst, rfl, rfl, rfl⟩
  case deliver =>
    intro s core r occ hheld hocc hpkg hest
    rw [← hest] at hocc
    rw [deliverMessage_of_occupant hheld hocc hpkg]
    exact ⟨fun h => if_pos h, fun h => ⟨recorded s core r, if_neg h.not_gt, ring_recorded s core r,
      fun c hc => coreOf_recorded_of_ne s hc r⟩⟩
  case amret =>
    intro s s1 a r ht
    exact ⟨execAmret_of_no_handler ht, fun hc hr hst => ⟨execAmret_of_handler ht hc hr hst, fun u core b v h => applyThread_amret h u core⟩⟩
  case arrive =>
    intro s core pkg estate thread seq handler args reply hcore hargs hthread hpkg hrun out
    exact ⟨execAmsgArrive_of_new hcore hargs hthread hpkg hrun, execAmsgArrive_of_behind hcore hargs hthread hpkg hrun,
      fun m => execAmsgArrive_of_answered hcore hargs hthread hpkg hrun⟩
  case courier =>
    intro s s1 core est v r rest hest hring hcore hlive hst hstr hrun hread hentry
    refine ⟨_, execCourierStart_of_entry hest hring hcore hlive hst hstr hrun hread hentry, ?_⟩
    simp only [slotOf_setSlot_self, coreOf_setSlot_self]
    exact ⟨rfl, rfl, rfl, rfl, courierSlot_args, rfl, rfl, rfl, rfl⟩
  case answer =>
    intro s core slot e seq d answer reply x s1 hcore hrun hlive hwait hpkg hpend
    refine ⟨execAmsgAnswer_of_waiting answer hcore hrun hlive hwait hpkg hpend, fun hr ha => ?_, fun ha => ?_, fun ha => ?_, fun v hr ha => ?_⟩
      <;> rw [ha]
    · exact answerAmsg_accepted (s := s1) hpend hr
    · exact answerAmsg_busy (s := s1) hpend
    · exact answerAmsg_refused (s := s1) hpend
    · exact answerAmsg_replied (s := s1) hpend hr v

end Sys2Proof.Machine
end

section
/-! SUPPORT. The keeper that starts on the head of its queue, and the keeper that traps itself (R191, R193); O9. -/

namespace Sys2Proof.Machine

/-! ### The state in which the keeper starts (R191) -/

/-- The slot in which the keeper of a core starts on a record of slot sl (R191). -/
def keeperSlot (s : State) (c sl : Nat) (r : TrapRec) : Slot :=
  let est := keeperEstate s c r
  let h := handlerSlot s est (estateOf s est).keeperEntry (ticksOf s c)
  let d (i : Nat) : Word := BitVec.ofNat 64 (r.dwords[i]?.getD 0)
  { h with
    g := (h.g.set 1 (BitVec.ofNat 64 sl)).set 2 (BitVec.ofNat 64 r.code)
    e := (((((((h.e.set 8 (d 0)).set 9 (d 1)).set 10 (d 2)).set 11 (d 3)).set 12 (d 4)).set 13 (d 5)).set 14 (d 6)).set 15 (d 7)
    posted := (slotOf s c 15).posted, stores := (slotOf s c 15).stores, storeSeq := (slotOf s c 15).storeSeq }

/-- The keeper starts where a record waits, its slot is empty and Jasper does not hold it back. -/
theorem startKeeper_of_record {s : State} {c sl : Nat} {r : TrapRec} {rest : List (Nat × TrapRec)}
    (hqueue : (coreOf s c).keeperQueue = (sl, r) :: rest) (hlive : (slotOf s c 15).live = false) (hstreams : (slotOf s c 15).streams = [])
    (hheld : (coreOf s c).keeperHeld = false) : startKeeper s c = setSlot s c 15 (keeperSlot s c sl r) := by
  have hstarts : ¬ ((slotOf s c 15).live || (coreOf s c).keeperHeld || !(slotOf s c 15).streams.isEmpty) = true := by
    simp [hlive, hheld, hstreams]
  simp only [startKeeper, hqueue, if_neg hstarts]
  rfl

section
variable {s : State} {c sl : Nat} {r : TrapRec}

theorem keeperSlot_g_rest {n : Nat} (h3 : 3 ≤ n) (h16 : n < 16) : (keeperSlot s c sl r).g[n]? = some 0 := by
  have h1 : 1 ≠ n := by omega
  have h2 : 2 ≠ n := by omega
  simp [keeperSlot, handlerSlot, h1, h2, h16]

theorem keeperSlot_sg_rest {n : Nat} (h0 : 0 < n) (h7 : n < 7) : (keeperSlot s c sl r).sg[n]? = some {} := by
  have hfirst : 0 ≠ n := h0.ne
  have hlast : 7 ≠ n := h7.ne'
  have h8 : n < 8 := by omega
  simp [keeperSlot, handlerSlot, hfirst, hlast, h8]

theorem keeperSlot_e_record : ∀ n < 8, (keeperSlot s c sl r).e[8 + n]? = (r.dwords[n]?).map (BitVec.ofNat 64)
  | 0, _ | 1, _ | 2, _ | 3, _ | 4, _ | 5, _ | 6, _ | 7, _ => rfl

theorem keeperSlot_e_low : ∀ n < 8, (keeperSlot s c sl r).e[n]? = some 0
  | 0, _ | 1, _ | 2, _ | 3, _ | 4, _ | 5, _ | 6, _ | 7, _ => rfl

end

/-! ### The keeper's own trap (R193) -/

/-- The record of a keeper's own trap, as it goes to Jasper (R193). -/
def keeperFaultRecord (s : State) (c : Nat) (t : TrapInfo) (long : Bool) : TrapRec :=
  { trapRecord s c 15 t long with code := TrapCode.keeperFault.toNat, aux := BitVec.ofNat 64 t.code.toNat }

/-- A keeper that waits for nothing traps: its slot empties, and the core holds the escalation for Jasper. -/
theorem parkSlot_of_idle_keeper {s : State} {c : Nat} (t : TrapInfo) (long : Bool) (hc : c < garnet) (hpend : (slotOf s c 15).pend = .none)
    (hheld : (slotOf s c 15).held = []) :
    ∃ s', OnlySlots c (· = 15) s s' ∧ slotOf s' c 15 = (slotOf s c 15).emptied ∧
      parkSlot s c 15 t long = setCore s' c { coreOf s' c with
        keeperHeld := true, toJasper := (coreOf s' c).toJasper ++ [(15, keeperFaultRecord s c t long)] } := by
  obtain ⟨hreturned, hslot⟩ := returnHeld_of_idle hpend hheld
  have hkeeper : isKeeper c 15 = true := by simp [isKeeper, hc]
  have hemptied : (slotOf (returnHeld s c 15) c 15).emptied = (slotOf s c 15).emptied := by rw [hslot]; rfl
  refine ⟨setSlot (returnHeld s c 15) c 15 (slotOf s c 15).emptied, hreturned.trans (.setSlot ..), slotOf_setSlot_self .., ?_⟩
  simp only [parkSlot, if_pos hkeeper, hemptied]
  rfl

/-- Settles O9: the trap empties the keeper's slot and escalates, and the start writes the keeper's slot alone. -/
theorem keeperStarts : Obligations.KeeperStarts := by
  unfold Obligations.KeeperStarts
  constructor
  case left =>
    intro s c due t long hc hpend hheld u
    obtain ⟨s', hidle, hempty, hpark⟩ := parkSlot_of_idle_keeper t long hc hpend hheld
    have hcore : coreOf u c = { coreOf s' c with
        keeperHeld := true, toJasper := (coreOf s c).toJasper ++ [(15, keeperFaultRecord s c t long)] } := by
      have hmail : (coreOf s' c).toJasper = (coreOf s c).toJasper := by rw [hidle.core]
      rw [show u = _ from hpark, coreOf_setCore_self, hmail]
    rw [slotOf, hcore]
    exact ⟨keeperFaultRecord s c t long, rfl, rfl, rfl, rfl, congrArg Slot.live hempty, rfl, hidle.keeperQueue_eq⟩
  case right =>
    intro s c sl r rest hqueue hlive hstreams hheld
    rw [startKeeper_of_record hqueue hlive hstreams hheld, slotOf_setSlot_self]
    exact ⟨rfl, rfl, rfl, rfl, rfl, fun _ => keeperSlot_g_rest, keeperSlot_e_record, keeperSlot_e_low, rfl, rfl, rfl, rfl,
      fun _ => keeperSlot_sg_rest, rfl, rfl, rfl, rfl, rfl, rfl, rfl, rfl, rfl⟩

end Sys2Proof.Machine
end

section
/-! SUPPORT. The counts and the fields of a word, in the terms of the reference, and O14. -/

namespace Sys2Proof.Machine

/-! ### Counts (R287, R295, R338) -/

/-- The zeros above the highest one bit of a word other than 0 (R287). -/
def clzOf (x : Word) : Nat := if x = 0 then 64 else 63 - x.toNat.log2

theorem leadingZeros_eq (x : Word) : leadingZeros x = BitVec.ofNat 64 (clzOf x) := by
  rw [leadingZeros, clzOf]
  split <;> rfl

theorem toNat_ne_zero_of_ne {x : Word} (h : x ≠ 0) : x.toNat ≠ 0 := fun h0 => h (BitVec.eq_of_toNat_eq h0)

/-- The highest one bit stands below the zeros that CLZ counts. -/
theorem clzOf_spec {x : Word} (h : x ≠ 0) :
    clzOf x < 64 ∧ x.getLsbD (63 - clzOf x) = true ∧ ∀ i, 63 - clzOf x < i → x.getLsbD i = false := by
  have h0 := toNat_ne_zero_of_ne h
  have hlog : x.toNat.log2 < 64 := (Nat.log2_lt h0).2 x.isLt
  have hpos : 63 - clzOf x = x.toNat.log2 := by rw [clzOf, if_neg h]; omega
  refine ⟨by rw [clzOf, if_neg h]; omega, ?_, fun i hi => ?_⟩
  · rw [hpos, BitVec.getLsbD, Nat.testBit_log2 h0]
  · rw [hpos] at hi
    exact Nat.testBit_lt_two_pow ((Nat.log2_lt h0).1 hi)

/-- The lowest one bit stands above the zeros that CTZ counts, where the number has a one bit among its low n. -/
theorem trailingZeros_spec (n x : Nat) (h : x % 2 ^ n ≠ 0) :
    x.testBit (trailingZeros x n) = true ∧ ∀ i, i < trailingZeros x n → x.testBit i = false := by
  induction n generalizing x with
  | zero => simp [Nat.mod_one] at h
  | succ n ih =>
    rw [trailingZeros]
    split
    · next hodd => simp [hodd]
    · next heven =>
      have hhalf : x / 2 % 2 ^ n ≠ 0 := by rw [Nat.pow_succ', Nat.mod_mul] at h; omega
      obtain ⟨hbit, hzeros⟩ := ih (x / 2) hhalf
      refine ⟨by rw [Nat.add_comm, Nat.testBit_succ]; exact hbit, fun i hi => ?_⟩
      cases i with
      | zero => simpa using heven
      | succ i => rw [Nat.testBit_succ]; exact hzeros i (by omega)

theorem trailingZeros_zero (n : Nat) : trailingZeros 0 n = n := by
  induction n with
  | zero => rfl
  | succ n ih => simp [trailingZeros, ih, Nat.add_comm]

/-- POPC counts the one bits. -/
theorem onesCount_eq (n x : Nat) : onesCount x n = ((List.range n).filter (x.testBit ·)).length := by
  induction n generalizing x with
  | zero => rfl
  | succ n ih =>
    rw [onesCount, ih, List.range_succ_eq_map, List.filter_cons, List.filter_map, apply_ite List.length, List.length_cons,
      List.length_map]
    have hrest : ((fun i => x.testBit i) ∘ Nat.succ) = fun i => (x / 2).testBit i := funext fun i => Nat.testBit_succ x i
    rw [hrest]
    rcases Nat.mod_two_eq_zero_or_one x with h | h <;> simp [h, Nat.add_comm]

/-! ### Fields (R283, R284) -/

theorem toNat_extractLsb'_eq_bits (b : Word) (lo n : Nat) : (b.extractLsb' lo n).toNat = bits b lo n := BitVec.extractLsb'_toNat ..

/-- n one bits. -/
theorem getLsbD_ones {n i : Nat} (hi : i < 64) : (BitVec.ofNat 64 (2 ^ n - 1)).getLsbD i = decide (i < n) := by
  rw [BitVec.getLsbD_ofNat, Nat.testBit_two_pow_sub_one, decide_eq_true hi, Bool.true_and]

theorem getLsbD_extractField (a b : Word) {i : Nat} (hi : i < 64) :
    (extractField a b).getLsbD i = (decide (i < fieldWidth b) && a.getLsbD (bits b 0 6 + i)) := by
  rw [extractField, BitVec.getLsbD_and, BitVec.getLsbD_ushiftRight, getLsbD_ones hi, Bool.and_comm]

theorem getLsbD_insertField (d a b : Word) {i : Nat} (hi : i < 64) :
    (insertField d a b).getLsbD i =
      if bits b 0 6 ≤ i ∧ i < bits b 0 6 + fieldWidth b then a.getLsbD (i - bits b 0 6) else d.getLsbD i := by
  simp only [insertField, BitVec.getLsbD_or, BitVec.getLsbD_and, BitVec.getLsbD_not, BitVec.getLsbD_shiftLeft, hi, decide_true,
    Bool.true_and]
  rw [getLsbD_ones (by omega)]
  by_cases hlow : bits b 0 6 ≤ i
  · by_cases hhigh : i < bits b 0 6 + fieldWidth b
    · simp [hlow, hhigh, show ¬ i < bits b 0 6 by omega, show i - bits b 0 6 < fieldWidth b by omega]
    · simp [hlow, hhigh, show ¬ i < bits b 0 6 by omega, show ¬ i - bits b 0 6 < fieldWidth b by omega]
  · simp [hlow, show i < bits b 0 6 by omega]

/-! ### Words with a b field that their row does not have (R4, R60, R79) -/

/-- A word whose fields choose an instruction that encodes to another word is none. -/
theorem decodeTableWord_of_pickLong {w : Nat} {i : Instr} (hodd : w % 2 = 1) (hlt : w < 4294967296) (hpick : pickLong w = some i)
    (hne : encodeNat i ≠ w) : decodeTableWord 32 w = none := by
  have hdec : decodeLong w = .error .brokenFieldRule := by
    rw [decodeLong, if_pos (majorListed_of_pickLong hpick), hpick]
    simp [checked, hne]
  have hword : decode (leBytes 4 w) = .error .brokenFieldRule := by
    have hbytes := decode_leBytes_four [] hodd hlt
    rwa [List.append_nil, hdec] at hbytes
  rw [decodeTableWord, Nat.mod_eq_of_lt (b := 2 ^ 32) hlt, hword]

/-- A row of major 01 without a b field has no word with one. -/
theorem decodeTableWord_of_b {i : Instr} {d a : Reg} {fn : Nat} {bf : BitVec 5} (hfn : fn < 64)
    (henc : encodeNat i = wRR 0x01 d.toNat a.toNat 0 fn 0) (hpick : ∀ b, pickAlu fn d a b 0 = some i) (hbf : bf ≠ 0) :
    decodeTableWord 32 (encodeNat i + bf.toNat * 2 ^ 17) = none := by
  have hb : bf.toNat ≠ 0 := fun h => hbf (BitVec.eq_of_toNat_eq h)
  have hw : encodeNat i + bf.toNat * 2 ^ 17 = wRR 0x01 d.toNat a.toNat bf.toNat fn 0 := by rw [henc, wRR, wRR]; omega
  rw [hw]
  refine decodeTableWord_of_pickLong (i := i) (wRR_odd ..) ?_ ?_ (by omega)
  · simp [wRR_lt, hfn, toNat_lt_of_pow_le]
  · simpa [pickLong_alu, hfn, toNat_lt_of_pow_le] using hpick bf

/-- Settles O14: each row is the shared scalar shape, and its function counts or moves bits as the reference says. -/
theorem bitResults : Obligations.BitResults := by
  unfold Obligations.BitResults
  intro s s' d a b
  simp only [toNat_extractLsb'_eq_bits]
  refine ⟨fun ht => ?counts, fun ht => ?bfx, fun ht => ?bfi, fun i bf hi hbf => ⟨?word, run_of_traps (traps_illegal s)⟩⟩
  case counts =>
    refine ⟨clzOf (gval s' a), trailingZeros (gval s' a).toNat 64, onesCount (gval s' a).toNat 64,
      exec_writesG_of_alu rfl ht (leadingZeros_eq _), exec_writesG_of_alu rfl ht rfl, exec_writesG_of_alu rfl ht rfl,
      fun h0 => ?_, fun h0 => ?_, onesCount_eq ..⟩
    · rw [h0]
      exact ⟨rfl, trailingZeros_zero 64⟩
    · obtain ⟨hlt, hone, habove⟩ := clzOf_spec h0
      have hmod : (gval s' a).toNat % 2 ^ 64 ≠ 0 := by
        rw [Nat.mod_eq_of_lt (gval s' a).isLt]
        exact toNat_ne_zero_of_ne h0
      obtain ⟨hlow, hbelow⟩ := trailingZeros_spec 64 _ hmod
      exact ⟨hlt, hone, habove, hlow, hbelow⟩
  case bfx => exact ⟨_, exec_writesG_of_alu rfl ht rfl, fun i hi => getLsbD_extractField _ _ hi⟩
  case bfi => exact ⟨_, exec_writesG_of_alu rfl ht rfl, fun i hi => getLsbD_insertField _ _ _ hi⟩
  case word =>
    rcases hi with rfl | rfl | rfl
    · exact decodeTableWord_of_b (fn := 0x13) (by decide) rfl (fun _ => rfl) hbf
    · exact decodeTableWord_of_b (fn := 0x14) (by decide) rfl (fun _ => rfl) hbf
    · exact decodeTableWord_of_b (fn := 0x15) (by decide) rfl (fun _ => rfl) hbf

end Sys2Proof.Machine
end

section
/-! SUPPORT. Jumps, LEXIT, and the frame of the control instructions (R285, R305, R306, R317); O19, O22 and O23. -/

namespace Sys2Proof.Machine

/-! ### Jumps (R305, R306) -/

theorem link_eq (s : State) : link s = curPc s + (if s.cur.long then 4 else 2) := by
  rw [link, curLen]
  split <;> rfl

theorem toNat_mod_two_eq_toNat_getLsbD (x : Word) : x.toNat % 2 = (x.getLsbD 0).toNat := by
  rw [BitVec.getLsbD, Nat.testBit_zero]
  rcases Nat.mod_two_eq_zero_or_one x.toNat with h | h <;> simp [h]

theorem jumpReg_of_even {d a : Reg} {s s' : State} (ht : Takes [a] (some d) s s') (heven : (gval s' a).getLsbD 0 = false) :
    run (jumpReg d a) s =
      .next (endGoto 1 (gval s' a) (putG (wbPoint s' 1) d (curPc s' + (if s'.cur.long then 4 else 2)) s')) := by
  refine run_of_ends ?_
  rw [jumpReg, ends_bind ht, run_get_bind]
  refine (run_ite_of_neg ?_).trans ?_
  · rw [toNat_mod_two_eq_toNat_getLsbD, heven]
    decide
  · rw [← link_eq]
    rfl

theorem jumpReg_of_odd {d a : Reg} {s s' : State} (ht : Takes [a] (some d) s s') (hodd : (gval s' a).getLsbD 0 = true) :
    run (jumpReg d a) s = .next (takeTrap ⟨.misalign, 0, 2, 0⟩ s') := by
  refine run_of_traps ?_
  rw [jumpReg, ends_bind ht, run_get_bind]
  refine (run_ite_of_pos ?_).trans rfl
  rw [toNat_mod_two_eq_toNat_getLsbD, hodd]
  rfl

/-- Settles O19: JAL is its operand and its end, and the jumps to a register share `jumpReg`. -/
theorem jumpResults : Obligations.JumpResults := by
  unfold Obligations.JumpResults
  intro s s' d a off
  refine ⟨fun ht => ?jal, fun ht heven => ⟨jumpReg_of_even ht heven, jumpReg_of_even ht heven⟩,
    fun ht heven => jumpReg_of_even ht heven, fun ht hodd => ⟨jumpReg_of_odd ht hodd, jumpReg_of_odd ht hodd⟩,
    fun ht hodd => jumpReg_of_odd ht hodd⟩
  case jal =>
    refine run_of_ends ?_
    rw [ends_bind ht, ← link_eq, ← target_toInt]
    rfl

/-! ### LEXIT (R317) -/

theorem loopExit_of_nil {s : State} (h : (curSlot s).loops = []) : run loopExit s = .next (takeTrap ⟨.loop, 0, 0, 0⟩ s) := by
  refine run_of_traps ?_
  rw [loopExit, run_get_bind]
  simp only [h, List.reverse_nil]
  rfl

/-- The slot of a thread that has left its innermost loop. -/
def exitedSlot (s : State) (l : LoopState) (outer : List LoopState) : Slot :=
  let r := countLoops l.last (l.last + (if l.long then 4 else 2)) (curSlot s).lc outer.reverse
  paced s 1 { curSlot s with pc := r.1, loops := r.2.1.reverse, lc := r.2.2 }

theorem loopExit_of_append {s : State} {l : LoopState} {outer : List LoopState} (hpops : s.cur.pops = [])
    (h : (curSlot s).loops = outer ++ [l]) : run loopExit s = .next (setCurSlot s (exitedSlot s l outer)) := by
  refine run_of_ends ?_
  rw [loopExit, run_get_bind]
  simp only [h, List.reverse_append, List.reverse_singleton, List.singleton_append, commitPops_of_nil hpops]
  rfl

/-- Where no enclosing loop shares `last`, none counts (R46). -/
theorem countLoops_of_no_last {last seq : Word} {lc : Vector Word 3} {loops : List LoopState} (h : ∀ l ∈ loops, l.last ≠ last) :
    countLoops last seq lc loops = (seq, loops, lc) := by
  cases loops with
  | nil => rfl
  | cons l outer => rw [countLoops, if_neg (h l List.mem_cons_self)]

/-- Settles O22: LEXIT writes the issuing slot alone, with what `countLoops` makes of the enclosing loops. -/
theorem loopExitResult : Obligations.LoopExitResult := by
  unfold Obligations.LoopExitResult
  refine ⟨fun s h => ⟨loopExit_of_nil h, loopExit_of_nil h⟩, fun s l outer hpops h => ?_⟩
  obtain ⟨honly, -, -, -⟩ := issueFrame_setCurSlot s (exitedSlot s l outer)
  refine ⟨_, loopExit_of_append hpops h, loopExit_of_append hpops h, ?_⟩
  rw [slotOf_setCurSlot]
  refine ⟨rfl, rfl, rfl, rfl, honly, fun h => byteAt_setCurSlot .., fun hne => ?_⟩
  have hcount := countLoops_of_no_last (last := l.last) (seq := l.last + (if l.long then 4 else 2)) (lc := (curSlot s).lc)
    (loops := outer.reverse) fun m hm => hne m (List.mem_reverse.1 hm)
  simp only [exitedSlot, hcount, List.reverse_reverse]
  exact ⟨rfl, rfl, rfl⟩

/-! ### The frame of the control instructions (R285, R305, R306, R334) -/

@[simp] theorem byteAt_endGoto (s : State) (t : Nat) (pc : Word) (h : Home) : byteAt (endGoto t pc s) h = byteAt s h :=
  (byteAt_setCurSlot ..).trans (byteAt_commitPops ..)

/-- The slot of an instruction that has ended and goes to a target. -/
theorem endGoto_frame {s : State} (t : Nat) (pc : Word) (h : ∀ p ∈ s.cur.pops, p.next = 0) :
    IssueFrame s (endGoto t pc s) ∧
      slotOf (endGoto t pc s) s.cur.core s.cur.slot = paced (commitPops s) t ((curSlot s).goto pc) := by
  obtain ⟨hf, hs⟩ := queueFrame_commitPops h
  have hcur : curSlot (commitPops s) = curSlot s := by rw [curSlot, hf.core_eq, hf.slot_eq, hs, curSlot]
  refine ⟨hf.trans (issueFrame_setCurSlot ..), ?_⟩
  rw [endGoto, hcur, setCurSlot, hf.core_eq, hf.slot_eq, slotOf_setSlot_self]

/-- Where only the issuing slot has changed, and it as by a jump with its link, the change is that of OnlyG. -/
theorem onlyG_of_goto {s t u : State} {d : Reg} {v pc : Word} {k : Nat} (h : IssueFrame s t)
    (hx : slotOf t s.cur.core s.cur.slot = paced u k ((slotPutG d v (curSlot s)).goto pc)) : OnlyG d s t := by
  obtain ⟨hissuer, hslots, -, -⟩ := h
  refine ⟨hissuer, hslots, fun r hr => ?_, fun y hy => ?_, ?_⟩
  · rw [hx]
    exact slotPutG_g_of_ne v _ hr
  · rw [hx]
    exact mem_slotPutG_poison v _ hy
  · rw [hx, slotPutG]
    split <;> rfl

/-- A jump with its link, from its issue on. -/
theorem jump_frame {s s' : State} {srcs : List Reg} {d : Reg} (v pc : Word) (h0 : s.cur.pops = []) (ht : Takes srcs (some d) s s') :
    OnlyG d s (endGoto 1 pc (putG (wbPoint s' 1) d v s')) := by
  have hp := ht.popsQueues
  obtain ⟨hc, hk⟩ := hp.issuer_eq
  obtain ⟨hf, hs⟩ := putG_frame s' (wbPoint s' 1) d v
  obtain ⟨hf', hx⟩ := endGoto_frame (s := putG (wbPoint s' 1) d v s') 1 pc (by simpa using hp.next_eq_zero h0)
  rw [curSlot, putG_cur, hs, hp.curSlot_eq, hc, hk] at hx
  exact onlyG_of_goto ((hf.trans hf').of_pops hp) hx

/-- An instruction without a result that goes to a target, from its issue on. -/
theorem goto_frame {s s' : State} {srcs : List Reg} (pc : Word) (h0 : s.cur.pops = []) (ht : Takes srcs none s s') :
    OnlyG 0 s (endGoto 1 pc s') := by
  have hp := ht.popsQueues
  obtain ⟨hc, hk⟩ := hp.issuer_eq
  obtain ⟨hf, hx⟩ := endGoto_frame 1 pc (hp.next_eq_zero h0)
  rw [hc, hk, hp.curSlot_eq, ← slotPutG_zero 0 (curSlot s)] at hx
  exact onlyG_of_goto (hf.of_pops hp) hx

/-- An instruction without a result that falls through, from its issue on. -/
theorem fall_frame {s s' : State} {srcs : List Reg} (h0 : s.cur.pops = []) (ht : Takes srcs none s s') :
    OnlyG 0 s (endFall 1 s') := by
  have hp := ht.popsQueues
  obtain ⟨hc, hk⟩ := hp.issuer_eq
  obtain ⟨hf, hx⟩ := endFall_frame 1 (hp.next_eq_zero h0)
  rw [hc, hk, hp.curSlot_eq, ← slotPutG_zero 0 (curSlot s)] at hx
  exact onlyG_of_issueFrame (hf.of_pops hp) hx

/-- Settles O23: a control instruction writes the issuing slot, and its link as a scalar result. -/
theorem controlFrame : Obligations.ControlFrame := by
  unfold Obligations.ControlFrame
  intro s s' srcs d v pc h0
  refine ⟨fun ht => ⟨jump_frame v pc h0 ht, fun h => ?link⟩, fun ht => ⟨goto_frame pc h0 ht, fall_frame h0 ht, fun h => ?goto, fun h => ?fall⟩⟩
  case link => rw [byteAt_endGoto, byteAt_putG, ht.popsQueues.byteAt_eq]
  case goto => rw [byteAt_endGoto, ht.popsQueues.byteAt_eq]
  case fall => rw [byteAt_endFall, ht.popsQueues.byteAt_eq]

end Sys2Proof.Machine
end

section
/-! SUPPORT. The canonical form of every memory of a state, part by part, and the writes of those parts; O60. -/

namespace Sys2Proof.Machine

/-! ### The form of a state (O60) -/

/-- Every bank of a unit is in its canonical form. -/
def BanksCanonical (banks : Map Bank) : Prop := ∀ b ∈ banks, Memory.wf b.2.bytes = true

/-- Every memory among the parts of a state that hold one is in its canonical form. -/
def MemsCanonical (hbm commons host : Memory) (cores : Map Core) (queues : Map LaunchQueue) (units : Map BerylUnit) : Prop :=
  Memory.wf hbm = true ∧ Memory.wf commons = true ∧ Memory.wf host = true ∧ (∀ c ∈ cores, Memory.wf c.2.scratch = true) ∧
    (∀ q ∈ queues, Memory.wf q.2.bytes = true) ∧ ∀ u ∈ units, BanksCanonical u.2.banks

/-- State.memOk as a proposition about six fields. -/
def State.Canonical (s : State) : Prop := MemsCanonical s.hbm s.commons s.host s.cores s.queues s.units

/-- What other fields hold is of no account. -/
theorem canonical_iff (s : State) : s.Canonical ↔ MemsCanonical s.hbm s.commons s.host s.cores s.queues s.units := Iff.rfl

theorem memOk_iff_canonical (s : State) : s.memOk = true ↔ s.Canonical := by
  simp [State.memOk, State.Canonical, MemsCanonical, BanksCanonical, and_assoc]

theorem reset_canonical : State.reset.Canonical := (memOk_iff_canonical _).1 (by decide)

/-! ### Entries of a sparse map -/

theorem mem_mapSet {β : Type} {m : Map β} {k : Nat} {b : β} {p : Nat × β} (h : p ∈ mapSet m k b) : p ∈ m ∨ p = (k, b) := by
  fun_induction mapSet m k b with
  | case1 => simp_all
  | case2 => simp only [List.mem_cons] at h ⊢; tauto
  | case3 => simp only [List.mem_cons] at h ⊢; tauto
  | case4 j x r h1 h2 ih =>
    simp only [List.mem_cons] at h ⊢
    rcases h with h | h
    · exact .inl (.inl h)
    · exact (ih h).imp_left .inr

/-- What holds of every entry holds of every entry after a new one for which it holds. -/
theorem forall_mem_mapSet {β : Type} {m : Map β} {k : Nat} {b : β} {P : β → Prop} (h : ∀ p ∈ m, P p.2) (hb : P b) :
    ∀ p ∈ mapSet m k b, P p.2 := fun p hp => (mem_mapSet hp).elim (h p) fun he => he ▸ hb

/-- What holds of every entry and of the default holds of what a key reads. -/
theorem mapFind_getD {β : Type} {m : Map β} {k : Nat} {b : β} {P : β → Prop} (h : ∀ p ∈ m, P p.2) (hb : P b) :
    P ((mapFind m k).getD b) := by
  rcases hk : mapFind m k with _ | x
  · exact hb
  · exact h _ (mem_of_mapFind hk)

/-! ### What is canonical in a canonical state -/

section
variable {s : State}

theorem wf_hbm (hs : s.Canonical) : Memory.wf s.hbm = true := hs.1
theorem wf_commons (hs : s.Canonical) : Memory.wf s.commons = true := hs.2.1
theorem wf_host (hs : s.Canonical) : Memory.wf s.host = true := hs.2.2.1

theorem wf_scratch_coreOf (hs : s.Canonical) (c : Nat) : Memory.wf (coreOf s c).scratch = true :=
  mapFind_getD (P := fun x : Core => Memory.wf x.scratch = true) hs.2.2.2.1 rfl

theorem wf_scratch_curCore (hs : s.Canonical) : Memory.wf (curCore s).scratch = true := wf_scratch_coreOf hs _

theorem wf_bytes_queueOf (hs : s.Canonical) (q : Nat) : Memory.wf (queueOf s q).bytes = true :=
  mapFind_getD (P := fun x : LaunchQueue => Memory.wf x.bytes = true) hs.2.2.2.2.1 rfl

theorem wf_banks_unitOf (hs : s.Canonical) (u : Nat) : BanksCanonical (unitOf s u).banks :=
  mapFind_getD (P := fun x : BerylUnit => BanksCanonical x.banks) hs.2.2.2.2.2 (by simp [BanksCanonical])

/-! ### Writes of one part -/

theorem setCore_canonical {c : Nat} {x : Core} (hs : s.Canonical) (hx : Memory.wf x.scratch = true) : (setCore s c x).Canonical := by
  obtain ⟨hhbm, hcommons, hhost, hcores, hrest⟩ := hs
  exact ⟨hhbm, hcommons, hhost, forall_mem_mapSet (P := fun x : Core => Memory.wf x.scratch = true) hcores hx, hrest⟩

theorem setCurCore_canonical {x : Core} (hs : s.Canonical) (hx : Memory.wf x.scratch = true) : (setCurCore s x).Canonical :=
  setCore_canonical hs hx

theorem mapQueue_scratch (c : Core) (wide : Bool) (r : Nat) (f : Queue → Queue) : (mapQueue c wide r f).scratch = c.scratch := rfl

theorem setUnit_canonical {u : Nat} {x : BerylUnit} (hs : s.Canonical) (hx : BanksCanonical x.banks) :
    (setUnit s u x).Canonical := by
  obtain ⟨hhbm, hcommons, hhost, hcores, hqueues, hunits⟩ := hs
  exact ⟨hhbm, hcommons, hhost, hcores, hqueues, forall_mem_mapSet (P := fun x : BerylUnit => BanksCanonical x.banks) hunits hx⟩

theorem setQueue_canonical {q : Nat} {x : LaunchQueue} (hs : s.Canonical) (hx : Memory.wf x.bytes = true) :
    (setQueue s q x).Canonical := by
  obtain ⟨hhbm, hcommons, hhost, hcores, hqueues, hunits⟩ := hs
  exact ⟨hhbm, hcommons, hhost, hcores, forall_mem_mapSet (P := fun x : LaunchQueue => Memory.wf x.bytes = true) hqueues hx, hunits⟩

/-- Another canonical memory in the place of HBM. -/
theorem MemsCanonical.withHbm {m m' n o : Memory} {cs : Map Core} {qs : Map LaunchQueue} {us : Map BerylUnit}
    (h : MemsCanonical m n o cs qs us) (hm : Memory.wf m' = true) : MemsCanonical m' n o cs qs us := ⟨hm, h.2⟩

/-- Another canonical memory in the place of the commons. -/
theorem MemsCanonical.withCommons {m n n' o : Memory} {cs : Map Core} {qs : Map LaunchQueue} {us : Map BerylUnit}
    (h : MemsCanonical m n o cs qs us) (hn : Memory.wf n' = true) : MemsCanonical m n' o cs qs us := by
  obtain ⟨hhbm, -, hrest⟩ := h
  exact ⟨hhbm, hn, hrest⟩

/-- Another canonical memory in the place of host memory. -/
theorem MemsCanonical.withHost {m n o o' : Memory} {cs : Map Core} {qs : Map LaunchQueue} {us : Map BerylUnit}
    (h : MemsCanonical m n o cs qs us) (ho : Memory.wf o' = true) : MemsCanonical m n o' cs qs us := by
  obtain ⟨hhbm, hcommons, -, hrest⟩ := h
  exact ⟨hhbm, hcommons, ho, hrest⟩

/-- Every core is changed, none in its scratchpad. -/
theorem mapCores_canonical {f : Nat × Core → Nat × Core} (hs : s.Canonical) (hf : ∀ c, (f c).2.scratch = c.2.scratch) :
    MemsCanonical s.hbm s.commons s.host (s.cores.map f) s.queues s.units := by
  obtain ⟨hhbm, hcommons, hhost, hcores, hrest⟩ := hs
  exact ⟨hhbm, hcommons, hhost, List.forall_mem_map.2 fun c hc => (hf c).symm ▸ hcores c hc, hrest⟩

/-- Every unit is changed, none in its banks. -/
theorem mapUnits_canonical {f : Nat × BerylUnit → Nat × BerylUnit} (hs : s.Canonical) (hf : ∀ u, (f u).2.banks = u.2.banks) :
    MemsCanonical s.hbm s.commons s.host s.cores s.queues (s.units.map f) := by
  obtain ⟨hhbm, hcommons, hhost, hcores, hqueues, hunits⟩ := hs
  exact ⟨hhbm, hcommons, hhost, hcores, hqueues, List.forall_mem_map.2 fun u hu => (hf u).symm ▸ hunits u hu⟩

/-- Every launch queue is changed, none in its bytes. -/
theorem mapQueues_canonical {f : Nat × LaunchQueue → Nat × LaunchQueue} (hs : s.Canonical) (hf : ∀ q, (f q).2.bytes = q.2.bytes) :
    MemsCanonical s.hbm s.commons s.host s.cores (s.queues.map f) s.units := by
  obtain ⟨hhbm, hcommons, hhost, hcores, hqueues, hunits⟩ := hs
  exact ⟨hhbm, hcommons, hhost, hcores, List.forall_mem_map.2 fun q hq => (hf q).symm ▸ hqueues q hq, hunits⟩

/-- A fold of steps that keep the form keeps it. -/
theorem foldl_canonical {α : Type} {f : State → α → State} {l : List α} (hs : s.Canonical)
    (hf : ∀ (t : State) (a : α), t.Canonical → (f t a).Canonical) : (l.foldl f s).Canonical := by
  induction l generalizing s with
  | nil => exact hs
  | cons a l ih => exact ih (hf s a hs)

end

/-! ### Computations, and answers (O5, O60) -/

/-- A computation leaves a state with P where it begins in one, whether it ends, traps or waits. -/
def Preserves {α : Type} (P : State → Prop) (m : Exec α) : Prop := ∀ s : State, P s → P (m.run s).2

section
variable {α β : Type} {P : State → Prop}

theorem preserves_pure (a : α) : Preserves P (pure a) := fun _ hs => hs

theorem preserves_trapWith (c : TrapCode) (addr aux : Word) (sg : Nat) : Preserves P (trapWith c addr aux sg : Exec α) := fun _ hs => hs

theorem preserves_waitFor (w : WaitState) (p : Pending) : Preserves P (waitFor w p : Exec α) := fun _ hs => hs

theorem preserves_bind {m : Exec α} {f : α → Exec β} (hm : Preserves P m) (hf : ∀ a, Preserves P (f a)) : Preserves P (m >>= f) := by
  intro s hs
  have h := hm s hs
  rw [run_bind]
  split
  next a t heq =>
    rw [heq] at h
    exact hf a t h
  next e t heq =>
    rw [heq] at h
    exact h

/-- What follows a read of the state may rest on P. -/
theorem preserves_get_bind {f : State → Exec β} (hf : ∀ s : State, P s → Preserves P (f s)) : Preserves P (get >>= f) := by
  intro s hs
  rw [run_get_bind]
  exact hf s hs s hs

/-- A check in front of what follows: a computation that runs only where the check fails. -/
theorem preserves_guard {c : Prop} [Decidable c] {m : Exec PUnit} {f : PUnit → Exec β} (hm : Preserves P m)
    (hf : ∀ u, Preserves P (f u)) : Preserves P (if c then m >>= f else f ⟨⟩) := by
  split
  · exact preserves_bind hm hf
  · exact hf ⟨⟩

theorem preserves_modify {f : State → State} (hf : ∀ s : State, P s → P (f s)) : Preserves P (modify f : Exec PUnit) :=
  fun s hs => hf s hs

theorem preserves_set {s : State} (hs : P s) : Preserves P (set s : Exec PUnit) := fun _ _ => hs

/-- A computation with a handler runs the handler where it does not end. -/
theorem run_tryCatch (m : Exec α) (f : Halt → Exec α) (s : State) :
    (tryCatch m f).run s = match m.run s with
      | (.ok a, t) => (.ok a, t)
      | (.error e, t) => (f e).run t := by
  simp only [tryCatch, tryCatchThe, MonadExceptOf.tryCatch, ExceptT.tryCatch, ExceptT.run, ExceptT.mk]
  change (StateT.bind m _) s = _
  simp only [StateT.bind]
  rcases m s with ⟨_ | _, t⟩ <;> rfl

theorem preserves_tryCatch {m : Exec α} {f : Halt → Exec α} (hm : Preserves P m) (hf : ∀ e, Preserves P (f e)) :
    Preserves P (tryCatch m f) := by
  intro s hs
  have h := hm s hs
  rw [run_tryCatch]
  split
  next a t heq => rwa [heq] at h
  next e t heq =>
    rw [heq] at h
    exact hf e t h

end

/-- A computation keeps the form. -/
def Keeps {α : Type} (m : Exec α) : Prop := Preserves State.Canonical m

section
variable {α β : Type}

theorem keeps_pure (a : α) : Keeps (pure a) := preserves_pure a

theorem keeps_trapWith (c : TrapCode) (addr aux : Word) (sg : Nat) : Keeps (trapWith c addr aux sg : Exec α) :=
  preserves_trapWith c addr aux sg

theorem keeps_waitFor (w : WaitState) (p : Pending) : Keeps (waitFor w p : Exec α) := preserves_waitFor w p

theorem keeps_bind {m : Exec α} {f : α → Exec β} (hm : Keeps m) (hf : ∀ a, Keeps (f a)) : Keeps (m >>= f) := preserves_bind hm hf

theorem keeps_get_bind {f : State → Exec β} (hf : ∀ s : State, s.Canonical → Keeps (f s)) : Keeps (get >>= f) := preserves_get_bind hf

theorem keeps_guard {c : Prop} [Decidable c] {m : Exec PUnit} {f : PUnit → Exec β} (hm : Keeps m) (hf : ∀ u, Keeps (f u)) :
    Keeps (if c then m >>= f else f ⟨⟩) := preserves_guard hm hf

/-- Nothing follows a trap. -/
theorem keeps_trapWith_bind (c : TrapCode) (addr aux : Word) (sg : Nat) (f : α → Exec β) :
    Keeps ((trapWith c addr aux sg : Exec α) >>= f) := fun _ hs => hs

/-- Nothing follows a wait. -/
theorem keeps_waitFor_bind (w : WaitState) (p : Pending) (f : α → Exec β) : Keeps ((waitFor w p : Exec α) >>= f) := fun _ hs => hs

theorem keeps_modify {f : State → State} (hf : ∀ s : State, s.Canonical → (f s).Canonical) : Keeps (modify f : Exec PUnit) :=
  preserves_modify hf

theorem keeps_set {s : State} (hs : s.Canonical) : Keeps (set s : Exec PUnit) := preserves_set hs

theorem keeps_tryCatch {m : Exec α} {f : Halt → Exec α} (hm : Keeps m) (hf : ∀ e, Keeps (f e)) : Keeps (tryCatch m f) :=
  preserves_tryCatch hm hf

theorem keeps_throw (e : Halt) : Keeps (throw e : Exec α) := fun _ hs => hs

end

/-- An instruction or an event answers a next state, and keeps the form from s. -/
def Answers (s : State) (o : Host.Outcome State Fault Refusal) : Prop := ∃ t, o = .next t ∧ (s.Canonical → t.Canonical)

theorem answers_next {s t : State} (h : s.Canonical → t.Canonical) : Answers s (.next t) := ⟨t, rfl, h⟩

end Sys2Proof.Machine
end

section
/-! SUPPORT. Every function of the state, of the operands and of the places keeps the form of the memories; O60. -/

namespace Sys2Proof.Machine

/-! ### The functions of Machine/Ops -/

theorem setSlot_canonical {s : State} {c k : Nat} {x : Slot} (hs : s.Canonical) : (setSlot s c k x).Canonical :=
  setCore_canonical hs (wf_scratch_coreOf hs _)

theorem setCurSlot_canonical {s : State} {x : Slot} (hs : s.Canonical) : (setCurSlot s x).Canonical := setSlot_canonical hs

theorem setEstate_canonical {s : State} {e : Nat} {x : Estate} (hs : s.Canonical) : (setEstate s e x).Canonical := hs

theorem setPart_canonical {s : State} {p : Nat} {x : Part} (hs : s.Canonical) : (setPart s p x).Canonical := hs

theorem setTask_canonical {s : State} {h : Nat} {x : Task} (hs : s.Canonical) : (setTask s h x).Canonical := hs

theorem setTile_canonical {s : State} {c t : Nat} {x : Tile} (hs : s.Canonical) : (setTile s c t x).Canonical :=
  setCore_canonical hs (wf_scratch_coreOf hs _)

theorem setEntry_canonical {s : State} {p : Nat} {x : Entry} (hs : s.Canonical) : (setEntry s p x).Canonical := hs

theorem commitPop_canonical {core : Nat} {s : State} {p : Popped} (hs : s.Canonical) : (commitPop core s p).Canonical := by
  unfold commitPop
  grind only [mapQueue_scratch, wf_scratch_coreOf, setCore_canonical, setSlot_canonical]

theorem returnPop_canonical {core : Nat} {s : State} {p : Popped} (hs : s.Canonical) : (returnPop core s p).Canonical := by
  unfold returnPop
  grind only [mapQueue_scratch, wf_scratch_coreOf, setCore_canonical, setSlot_canonical]

theorem commitPops_canonical {s : State} (hs : s.Canonical) : (commitPops s).Canonical :=
  foldl_canonical hs fun _ _ ht => commitPop_canonical ht

theorem reserveEntry_scratch {c : Core} {wide : Bool} {r : Nat} : (reserveEntry c wide r).scratch = c.scratch := rfl

theorem dropReserved_canonical {s : State} {c k : Nat} {wide : Bool} {r t : Nat} (hs : s.Canonical) :
    (dropReserved s c k wide r t).Canonical := by
  unfold dropReserved
  grind only [mapQueue_scratch, wf_scratch_coreOf, setCore_canonical, setSlot_canonical]

theorem putImage_canonical {s : State} {id : Nat} {image : List Word} (hs : s.Canonical) : (putImage s id image).Canonical := by
  unfold putImage
  grind only [setEstate_canonical]

theorem landImage_canonical {p : Pending} {s : State} (hs : s.Canonical) : (landImage p s).Canonical := by
  unfold landImage
  grind only [putImage_canonical]

theorem returnHeld_canonical {s0 : State} {c k : Nat} (hs : s0.Canonical) : (returnHeld s0 c k).Canonical := by
  unfold returnHeld
  grind only [returnPop_canonical, canonical_iff, foldl_canonical, wf_scratch_coreOf, setTile_canonical, landImage_canonical,
    setSlot_canonical, dropReserved_canonical]

theorem reissue_canonical {core k : Nat} {s : State} (hs : s.Canonical) : (reissue core k s).Canonical :=
  setSlot_canonical (returnHeld_canonical hs)

theorem startKeeper_canonical {s : State} {c : Nat} (hs : s.Canonical) : (startKeeper s c).Canonical := by
  unfold startKeeper
  grind only [wf_scratch_coreOf, setSlot_canonical]

theorem withoutKeeper_canonical {s : State} {c : Nat} (hs : s.Canonical) : (withoutKeeper s c).Canonical := setSlot_canonical hs

theorem queueRecord_canonical {s : State} {c k : Nat} {r : TrapRec} (hs : s.Canonical) : (queueRecord s c k r).Canonical := by
  unfold queueRecord
  grind only [withoutKeeper_canonical, wf_scratch_coreOf, setCore_canonical, startKeeper_canonical]

theorem parkSlot_canonical {s : State} {c k : Nat} {t : TrapInfo} {long : Bool} (hs : s.Canonical) : (parkSlot s c k t long).Canonical := by
  unfold parkSlot
  grind only [queueRecord_canonical, returnHeld_canonical, wf_scratch_coreOf, setCore_canonical, setSlot_canonical]

theorem parkCrew_canonical {s : State} {h : Nat} {t : TrapInfo} {but : optParam (List (Nat × Nat)) []} (hs : s.Canonical) :
    (parkCrew s h t but).Canonical := by
  unfold parkCrew
  grind only [foldl_canonical, parkSlot_canonical]

theorem trapNow_canonical {t : TrapInfo} {s : State} (hs : s.Canonical) : (trapNow t s).Canonical := parkSlot_canonical hs

theorem takeTrapAt_canonical {n : Nat} {t : TrapInfo} {s : State} (hs : s.Canonical) : (takeTrapAt n t s).Canonical := by
  unfold takeTrapAt
  grind only [canonical_iff, setCurCore_canonical, wf_scratch_curCore, setCurSlot_canonical]

theorem takeWait_canonical {w : WaitState} {p : Pending} {s : State} (hs : s.Canonical) : (takeWait w p s).Canonical := by
  unfold takeWait
  grind only [canonical_iff, commitPops_canonical, wf_scratch_coreOf, setCurSlot_canonical, setCore_canonical, reserveEntry_scratch]

theorem illegal_keeps {α : Type} : Keeps (illegal : Exec α) := by
  unfold illegal
  grind only [keeps_get_bind, keeps_trapWith, keeps_trapWith_bind, keeps_bind]

theorem fresh_canonical {s : State} {used : List Nat} (hs : s.Canonical) : (fresh s used).2.Canonical := hs

/-! ### The functions of Machine/Operands -/

theorem addPop_canonical {p : Popped} {s : State} (hs : s.Canonical) : (addPop p s).Canonical := hs

theorem popQueue_keeps {wide : Bool} {r : Reg} : Keeps (popQueue wide r) := by
  unfold popQueue
  grind only [keeps_pure, keeps_modify, keeps_get_bind, wf_scratch_curCore, addPop_canonical, keeps_bind, keeps_waitFor, keeps_waitFor_bind]

theorem readable_keeps {wide : Bool} {r : Reg} : Keeps (readable wide r) := by
  unfold readable
  grind only [keeps_pure, keeps_get_bind, keeps_trapWith, keeps_trapWith_bind, keeps_bind]

theorem popQueues_keeps {wide : Bool} {rs : List Reg} : Keeps (popQueues wide rs) := by
  induction rs with
  | nil => exact keeps_pure _
  | cons r rs ih =>
    unfold popQueues
    grind only [popQueue_keeps, readable_keeps, keeps_pure, keeps_bind]

theorem reserveQueue_keeps {wide : Bool} {r : Reg} : Keeps (reserveQueue wide r) := by
  unfold reserveQueue
  grind only [keeps_pure, keeps_get_bind, wf_scratch_curCore, keeps_bind, keeps_waitFor, keeps_waitFor_bind]

theorem useG_keeps {srcs : List Reg} {dst : Option Reg} : Keeps (useG srcs dst) := by
  unfold useG
  grind only [keeps_pure, reserveQueue_keeps, keeps_bind, popQueues_keeps]

theorem addWb_canonical {due : Nat} {a : WbAct} {s : State} {stream : optParam (Option Nat) none} (hs : s.Canonical) :
    (addWb due a s stream).Canonical :=
  setCurCore_canonical hs (wf_scratch_curCore hs)

theorem pushQueue_canonical {due : Nat} {wide : Bool} {r : Nat} {q : Queue} {v : Nat} {s : State} (hs : s.Canonical) :
    (pushQueue due wide r q v s).Canonical := by
  unfold pushQueue
  grind only [setCurCore_canonical, wf_scratch_curCore, addWb_canonical]

theorem putG_canonical {due : Nat} {d : Reg} {v : Word} {s : State} (hs : s.Canonical) : (putG due d v s).Canonical := by
  unfold putG
  grind only [wf_scratch_curCore, setCurSlot_canonical, pushQueue_canonical, addWb_canonical]

theorem putE_canonical {i : Nat} {v : Word} {s : State} (hs : s.Canonical) : (putE i v s).Canonical := setCurSlot_canonical hs

theorem putERun_canonical {i : Nat} {vs : List Word} {s : State} (hs : s.Canonical) : (putERun i vs s).Canonical := by
  fun_induction putERun <;> grind only [putE_canonical]

theorem endFall_canonical {t : Nat} {s : State} (hs : s.Canonical) : (endFall t s).Canonical :=
  setCurSlot_canonical (commitPops_canonical hs)

theorem endGoto_canonical {t : Nat} {target : Word} {s : State} (hs : s.Canonical) : (endGoto t target s).Canonical :=
  setCurSlot_canonical (commitPops_canonical hs)

/-! ### The functions of Machine/Flags -/

theorem checkArith_keeps {laneFlags : List Nat} : Keeps (checkArith laneFlags) := by
  unfold checkArith
  grind only [keeps_pure, keeps_get_bind, foldl_canonical, keeps_trapWith, keeps_trapWith_bind, keeps_bind]

/-! ### The functions of Machine/Plats -/

theorem firm_keeps  : Keeps (firm) := by
  unfold firm
  grind only [keeps_pure, keeps_get_bind, keeps_bind, keeps_waitFor, keeps_waitFor_bind]

/-! ### The functions of Machine/Places -/

theorem rlcSet_canonical {s : State} {r : RlcLine} (hs : s.Canonical) : (rlcSet s r).Canonical := hs

theorem noteLine_canonical {s : State} {r : RlcLine} (hs : s.Canonical) : (noteLine s r).Canonical := by
  unfold noteLine
  grind only [canonical_iff]

theorem rlcDrop_canonical {s : State} {pkg : Option Nat} {line : Nat} {evicting : Bool} (hs : s.Canonical) :
    (rlcDrop s pkg line evicting).Canonical :=
  foldl_canonical hs fun _ _ ht => noteLine_canonical ht

theorem setHost_canonical {s : State} {pa n data : Nat} (hs : s.Canonical) : (setHost s pa n data).Canonical :=
  hs.withHost (memWrite_wf _ _ _ _ (wf_host hs))

theorem grantHost_canonical {s : State} {line : Nat} {store : Bool} (hs : s.Canonical) : (grantHost s line store).Canonical := by
  unfold grantHost
  grind only [rlcSet_canonical]

theorem storeHome_canonical {s : State} {h : Home} {n data mask : Nat} (hs : s.Canonical) :
    (storeHome s h n data mask).Canonical := by
  unfold storeHome
  cases h with
  | scratch c o =>
    dsimp only
    split
    · exact hs
    · exact setCore_canonical hs (memMask_wf _ _ _ _ _ (wf_scratch_coreOf hs c))
  | commons a =>
    dsimp only
    split
    · exact hs
    · exact hs.withCommons (memMask_wf _ _ _ _ _ (wf_commons hs))
  | hbm p =>
    dsimp only
    split
    · exact hs
    · exact hs.withHbm (memMask_wf _ _ _ _ _ (wf_hbm hs))
  | remote g p =>
    dsimp only
    split
    · exact hs
    · split
      · exact hs
      · exact hs.withHbm (memMask_wf _ _ _ _ _ (wf_hbm hs))
  | host p | coherent g p => grind only [rlcSet_canonical, canonical_iff]

theorem poisonHbm_canonical {s : State} {pa : Nat} (hs : s.Canonical) : (poisonHbm s pa).Canonical := hs

end Sys2Proof.Machine
end

section
/-! SUPPORT. Translation, checks and accesses keep the form of the memories; O60. -/

namespace Sys2Proof.Machine

/-! ### The functions of Machine/Translate -/

theorem addSharer_canonical {port : Nat} {s : State} {line : Nat} (hs : s.Canonical) : (addSharer port s line).Canonical := hs

theorem freeBytes_canonical {s : State} {n : Nat} (hs : s.Canonical) : (freeBytes s n).2.Canonical := hs

theorem invalidateHost_canonical {s : State} {line : Nat} (hs : s.Canonical) : (invalidateHost s line).Canonical := by
  unfold invalidateHost
  grind only [canonical_iff, freeBytes_canonical, storeHome_canonical]

theorem storeOwn_canonical {s : State} {pa n data : Nat} (hs : s.Canonical) : (storeOwn s pa n data).Canonical :=
  storeHome_canonical (invalidateHost_canonical hs)

theorem setLeaf_canonical {s : State} {entry : Nat} {p0 : Word} (hs : s.Canonical) : (setLeaf s entry p0).Canonical := by
  unfold setLeaf
  grind only [foldl_canonical, storeOwn_canonical]

theorem xlate_canonical {s : State} {port est va : Nat} {need : Word} (hs : s.Canonical) : (xlate s port est va need).2.Canonical := by
  unfold xlate
  grind only [canonical_iff, foldl_canonical, addSharer_canonical, setLeaf_canonical]

theorem sendNumbered_canonical {o : Outstanding} {msg : Nat → FabricMsg} {s : State} (hs : s.Canonical) :
    (sendNumbered o msg s).Canonical :=
  hs

theorem sendRequest_canonical {g est : Nat} {o : Outstanding} {op : RemoteOp} {s : State} (hs : s.Canonical) :
    (sendRequest g est o op s).Canonical :=
  hs

theorem takeLine_canonical {s : State} {g line : Nat} {store : Bool} (hs : s.Canonical) : (takeLine s g line store).Canonical := by
  unfold takeLine
  grind only [rlcSet_canonical, canonical_iff, freeBytes_canonical]

theorem exchange_canonical {g est : Nat} {op : RemoteOp} {s : State} (hs : s.Canonical) : (exchange g est op s).Canonical := hs

theorem hwLoad_canonical {s : State} {est : Nat} {h : Home} {n : Nat} (hs : s.Canonical) : (hwLoad s est h n).2.Canonical := by
  unfold hwLoad
  grind only [freeBytes_canonical, exchange_canonical, takeLine_canonical]

theorem hwStore_canonical {s : State} {est : Nat} {h : Home} {n data : Nat} (hs : s.Canonical) : (hwStore s est h n data).2.Canonical := by
  unfold hwStore
  grind only [freeBytes_canonical, invalidateHost_canonical, storeHome_canonical, exchange_canonical, takeLine_canonical]

theorem hwPlace_canonical {s : State} {core est va : Nat} {r w : Bool} (hs : s.Canonical) : (hwPlace s core est va r w).2.Canonical := by
  unfold hwPlace
  grind only [xlate_canonical, grantHost_canonical]

theorem hwRead_canonical {s : State} {core est va n : Nat} {w : Bool} {fuel : Nat} (hs : s.Canonical) :
    (hwRead s core est va n w fuel).2.Canonical := by
  fun_induction hwRead <;> grind only [hwPlace_canonical, hwLoad_canonical]

theorem hwUsable_canonical {s : State} {core est va n fuel : Nat} (hs : s.Canonical) :
    (hwUsable s core est va n fuel).2.Canonical := by
  fun_induction hwUsable <;> grind only [hwPlace_canonical]

theorem hwWrite_canonical {s : State} {core est va n data : Nat} {r : Bool} {fuel : Nat} (hs : s.Canonical) :
    (hwWrite s core est va n data r fuel).2.Canonical := by
  fun_induction hwWrite <;> grind only [hwPlace_canonical, hwStore_canonical]

theorem postUint_canonical {s : State} {est thread : Nat} {v : Word} (hs : s.Canonical) : (postUint s est thread v).Canonical := by
  unfold postUint
  grind only [setSlot_canonical]

theorem sinkDrop_canonical {s : State} {est : Nat} (hs : s.Canonical) : (sinkDrop s est).Canonical := hs

theorem sinkTry_canonical {s : State} {core est : Nat} {r : TrapRec} (hs : s.Canonical) : (sinkTry s core est r).2.Canonical := by
  unfold sinkTry
  grind only [canonical_iff, sinkDrop_canonical, setEstate_canonical, postUint_canonical, hwWrite_canonical, hwRead_canonical]

theorem sinkRecord_canonical {s : State} {core est : Nat} {r : TrapRec} (hs : s.Canonical) : (sinkRecord s core est r).Canonical :=
  sinkTry_canonical hs

theorem pagerTry_canonical {s : State} {core : Nat} {f : PageFault} (hs : s.Canonical) : (pagerTry s core f).2.Canonical := by
  unfold pagerTry
  grind only [hwPlace_canonical, setEstate_canonical, hwStore_canonical, hwLoad_canonical]

theorem addService_canonical {s : State} {p : Nat} {i : ServiceItem} (hs : s.Canonical) : (addService s p i).Canonical := hs

theorem takeFault_canonical {s : State} {core est thread va level entry : Nat} {file : Bool} {kind : Nat} (hs : s.Canonical) :
    (takeFault s core est thread va level entry file kind).2.Canonical := by
  unfold takeFault
  grind only [fresh_canonical, canonical_iff, sinkRecord_canonical, pagerTry_canonical, addService_canonical]

theorem pageFault_keeps {α : Type} {est va level entry : Nat} {file : Bool} {kind sg : Nat} :
    Keeps (pageFault est va level entry file kind sg : Exec α) := by
  unfold pageFault
  grind only [takeFault_canonical, keeps_modify, canonical_iff, keeps_get_bind, keeps_trapWith, keeps_trapWith_bind, keeps_bind,
    keeps_waitFor, keeps_waitFor_bind, keeps_set]

/-! ### The functions of Machine/Access -/

theorem checkSegment_keeps {x : Access} : Keeps (checkSegment x) := by
  unfold checkSegment
  grind only [keeps_pure, keeps_get_bind, keeps_trapWith, keeps_trapWith_bind, keeps_bind]

theorem translateRuns_keeps {x : Access} {rs : List (Nat × Nat)} : Keeps (translateRuns x rs) := by
  induction rs with
  | nil => exact keeps_pure _
  | cons r rs ih =>
    unfold translateRuns
    grind only [keeps_pure, keeps_bind, keeps_get_bind, keeps_set, xlate_canonical, pageFault_keeps, keeps_trapWith_bind]

theorem checkPlats_keeps {x : Access} {ps : List Piece} : Keeps (checkPlats x ps) := by
  unfold checkPlats
  grind only [keeps_pure, keeps_get_bind, keeps_trapWith, keeps_trapWith_bind, keeps_bind]

theorem checkTags_keeps {x : Access} {rs : List (Nat × Nat)} : Keeps (checkTags x rs) := by
  induction rs with
  | nil => exact keeps_pure _
  | cons r rs ih =>
    unfold checkTags
    grind only [keeps_get_bind, keeps_trapWith]

theorem checkReach_keeps {x : Access} {ps : List Piece} : Keeps (checkReach x ps) := by
  induction ps with
  | nil => exact keeps_pure _
  | cons p ps ih =>
    unfold checkReach
    refine keeps_get_bind fun s _ => ?_
    grind only [keeps_pure, keeps_bind, keeps_trapWith, keeps_trapWith_bind]

theorem checkAccess_keeps {x : Access} : Keeps (checkAccess x) := by
  unfold checkAccess
  refine keeps_bind checkSegment_keeps fun _ => ?_
  extract_lets checks
  have hchecks : ∀ ps, Keeps (checks ps) := fun ps => by
    refine keeps_bind checkPlats_keeps fun _ => ?_
    grind only [checkTags_keeps, checkReach_keeps, keeps_bind, keeps_get_bind, keeps_modify, keeps_pure, keeps_waitFor_bind, canonical_iff]
  split
  · exact keeps_bind translateRuns_keeps hchecks
  · exact keeps_bind (keeps_pure _) hchecks
  · exact keeps_bind (keeps_pure _) hchecks

theorem l1Set_canonical {s : State} {core : Nat} {x : L1Line} (hs : s.Canonical) : (l1Set s core x).Canonical :=
  setCore_canonical hs (wf_scratch_coreOf hs _)

theorem areaRecord_canonical {s : State} {core est va : Nat} {handle : optParam Nat 0} (hs : s.Canonical) :
    (areaRecord s core est va handle).Canonical :=
  sinkRecord_canonical hs

theorem spillRead_canonical {s : State} {core est slot : Nat} (hs : s.Canonical) : (spillRead s core est slot).2.Canonical := by
  unfold spillRead
  grind only [hwRead_canonical]

theorem overlaySources_canonical {core est h : Nat} {xs : List Source} {acc : Packet × BitVec 64} {s : State} (hs : s.Canonical) :
    (overlaySources core est h xs acc s).2.Canonical := by
  fun_induction overlaySources <;> grind only [spillRead_canonical, areaRecord_canonical]

theorem taskBytes_canonical {s : State} {core : Nat} {t : Task} {va : Nat} (hs : s.Canonical) : (taskBytes s core t va).2.Canonical :=
  overlaySources_canonical hs

theorem overlayForwards_canonical {core va : Nat} {ts : List Task} {acc : Packet × List (Nat × BitVec 64)} {s : State}
    (hs : s.Canonical) : (overlayForwards core va ts acc s).2.Canonical := by
  fun_induction overlayForwards <;> grind only [taskBytes_canonical]

theorem prepare_canonical {s : State} {h : Home} {store : Bool} (hs : s.Canonical) : (prepare s h store).Canonical := by
  unfold prepare
  grind only [grantHost_canonical]

theorem holdLine_canonical {s : State} {core : Nat} {l : L1Line} {old : Bool} (hs : s.Canonical) : (holdLine s core l old).Canonical := by
  unfold holdLine
  grind only [wf_scratch_coreOf, setCore_canonical, l1Set_canonical]

theorem fillPlat_canonical {s : State} {core est task line d : Nat} (hs : s.Canonical) : (fillPlat s core est task line d).2.Canonical := by
  unfold fillPlat
  grind only [holdLine_canonical, overlaySources_canonical, setTask_canonical, overlayForwards_canonical]

theorem loadPlat_canonical {s : State} {core est task va : Nat} {home : Home} {n : Nat} (hs : s.Canonical) :
    (loadPlat s core est task va home n).2.Canonical := by
  unfold loadPlat
  grind only [fillPlat_canonical, prepare_canonical]

theorem servePiece_canonical {s : State} {x : Access} {p : Piece} (hs : s.Canonical) : (servePiece s x p).2.Canonical := by
  unfold servePiece
  grind only [loadPlat_canonical, prepare_canonical]

theorem barLines_canonical {thread : Nat} {lines : List Home} {s : State} (hs : s.Canonical) : (barLines thread lines s).Canonical := hs

theorem closeCombining_canonical {thread : Nat} {s : State} (hs : s.Canonical) : (closeCombining thread s).Canonical := hs

theorem awaitRoom_keeps {slot die : Nat} : Keeps (awaitRoom slot die) := by
  unfold awaitRoom
  grind only [keeps_pure, keeps_get_bind, keeps_bind, keeps_waitFor, keeps_waitFor_bind]

theorem enterStore_keeps {slot : Nat} {kind : StoreKind} {ws : List Write} {release : Bool} {addr : Nat} {stream : optParam (Option Nat)
    none} {ready : optParam Bool true} :
    Keeps (enterStore slot kind ws release addr stream ready) := by
  unfold enterStore
  grind only [keeps_pure, barLines_canonical, awaitRoom_keeps, keeps_modify, keeps_bind, setSlot_canonical]

theorem awaitEntries_keeps {slot : Nat} {p : StoreEntry → Bool} : Keeps (awaitEntries slot p) := by
  unfold awaitEntries
  grind only [keeps_pure, keeps_get_bind, keeps_bind, keeps_waitFor, keeps_waitFor_bind]

theorem servedTrap_keeps {x : Access} {va : Word} {a : Served} : Keeps (servedTrap x va a) := by
  unfold servedTrap
  grind only [keeps_pure, keeps_trapWith, keeps_trapWith_bind]

theorem requestLine_canonical {thread : Nat} {s : State} {h : Home} {store : Bool} (hs : s.Canonical) :
    (requestLine thread s h store).Canonical := by
  unfold requestLine
  grind only [rlcSet_canonical, canonical_iff]

theorem askLine_keeps {thread : Nat} {h : Home} {store : Bool} : Keeps (askLine thread h store) := by
  unfold askLine
  grind only [keeps_modify, keeps_get_bind, requestLine_canonical, keeps_bind, keeps_waitFor, keeps_waitFor_bind]

theorem sendRemote_keeps {g est thread : Nat} {op : RemoteOp} {packet : optParam (Option Nat) none} :
    Keeps (sendRemote g est thread op packet) := by
  unfold sendRemote
  grind only [keeps_pure, keeps_get_bind, keeps_bind, keeps_waitFor, keeps_waitFor_bind, keeps_set, sendRequest_canonical]

theorem awaitLimit_keeps {tasks : List Home} : Keeps (awaitLimit tasks) := by
  unfold awaitLimit
  grind only [keeps_pure, keeps_get_bind, keeps_bind, keeps_waitFor, keeps_waitFor_bind]

theorem askPieces_keeps {est thread : Nat} {packet : Option Nat} {ps : List Piece} : Keeps (askPieces est thread packet ps) := by
  induction ps with
  | nil => exact keeps_pure _
  | cons p ps ih =>
    unfold askPieces
    grind only [sendRemote_keeps, askLine_keeps, keeps_bind]

theorem requestPieces_keeps {x : Access} {ps : List Piece} : Keeps (requestPieces x ps) := by
  unfold requestPieces
  grind only [keeps_get_bind, awaitLimit_keeps, keeps_bind, askPieces_keeps]

theorem servePieces_keeps {x : Access} {ps : List Piece} : Keeps (servePieces x ps) := by
  induction ps with
  | nil => exact keeps_pure _
  | cons p ps ih =>
    unfold servePieces
    refine keeps_get_bind fun s hs => keeps_bind (keeps_set (servePiece_canonical hs)) fun _ => keeps_bind servedTrap_keeps fun _ => ?_
    grind only [keeps_pure, keeps_bind]

theorem loadBytes_keeps {x : Access} {ps : List Piece} {pend : Pending} : Keeps (loadBytes x ps pend) := by
  have hrest (v : Option Nat) : Keeps (match v with
      | some v => do
        modify (barLines (threadId x.core x.slot) (ps.map (·.home.line)))
        pure v
      | none => waitFor (loadWait (ps.head?.getD ⟨.host 0, 0, none⟩)) pend : Exec Nat) := by
    grind only [barLines_canonical, keeps_modify, keeps_bind, keeps_pure, keeps_waitFor]
  unfold loadBytes
  refine keeps_get_bind fun s _ => ?_
  split
  · grind only [barLines_canonical, keeps_modify, keeps_bind, keeps_pure]
  · exact keeps_waitFor _ _
  · dsimp only
    split
    · refine keeps_bind requestPieces_keeps fun _ => ?_
      split
      · exact keeps_waitFor_bind _ _ _
      · exact keeps_bind servePieces_keeps hrest
    · exact keeps_bind servePieces_keeps hrest

end Sys2Proof.Machine
end

section
/-! SUPPORT. Stores and streams keep the form of the memories; O60. -/

namespace Sys2Proof.Machine

/-! ### The functions of Machine/Store -/

theorem spillOut_canonical {s : State} {core : Nat} {l : L1Line} (hs : s.Canonical) : (spillOut s core l).2.Canonical := by
  unfold spillOut
  grind only [wf_scratch_coreOf, setEstate_canonical, setTask_canonical, setCore_canonical, hwWrite_canonical]

theorem makeRoom_canonical {s : State} {core : Nat} (hs : s.Canonical) : (makeRoom s core).2.Canonical := by
  unfold makeRoom
  grind only [spillOut_canonical, wf_scratch_coreOf, setCore_canonical]

theorem writePlat_canonical {s : State} {core est task va n data mask : Nat} (hs : s.Canonical) :
    (writePlat s core est task va n data mask).2.Canonical := by
  unfold writePlat
  grind only [makeRoom_canonical, l1Set_canonical]

theorem performWrite_canonical {s : State} {core est task : Nat} {w : Write} (hs : s.Canonical) :
    (performWrite s core est task w).2.Canonical := by
  unfold performWrite
  grind only [writePlat_canonical, storeHome_canonical]

theorem performWrites_canonical {s : State} {core est task : Nat} {ws : List Write} (hs : s.Canonical) :
    (performWrites s core est task ws).2.Canonical := by
  fun_induction performWrites <;> grind only [performWrite_canonical]

theorem performAmov_canonical {s : State} {op : AmovOp} {ty : LaneTy} {w : Write} (hs : s.Canonical) :
    (performAmov s op ty w).Canonical := by
  unfold performAmov
  grind only [storeHome_canonical]

theorem poisonRecord_canonical {s : State} {core est thread addr h : Nat} (hs : s.Canonical) :
    (poisonRecord s core est thread addr h).Canonical :=
  sinkRecord_canonical hs

theorem lostRecord_canonical {s : State} {core est thread addr h pkg : Nat} (hs : s.Canonical) :
    (lostRecord s core est thread addr h pkg).Canonical :=
  sinkRecord_canonical hs

theorem foreignRecord_canonical {s : State} {core est thread addr h : Nat} (hs : s.Canonical) :
    (foreignRecord s core est thread addr h).Canonical :=
  sinkRecord_canonical hs

theorem performEntry_canonical {s : State} {core slot : Nat} {e : StoreEntry} (hs : s.Canonical) :
    (performEntry s core slot e).2.Canonical := by
  unfold performEntry
  grind only [lostRecord_canonical, barLines_canonical, poisonRecord_canonical, performAmov_canonical, performWrites_canonical,
    foreignRecord_canonical]

theorem scratchWrites_canonical {due : Nat} {stream : Option Nat} {ws : List Write} {s : State} (hs : s.Canonical) :
    (scratchWrites due stream ws s).Canonical := by
  fun_induction scratchWrites <;> grind only [addWb_canonical]

theorem askStores_keeps {est thread : Nat} {ws : List Write} : Keeps (askStores est thread ws) := by
  induction ws with
  | nil => exact keeps_pure _
  | cons w ws ih =>
    unfold askStores
    grind only [sendRemote_keeps, askLine_keeps, keeps_bind]

theorem requestStores_keeps {est thread : Nat} {ws : List Write} : Keeps (requestStores est thread ws) := by
  unfold requestStores
  grind only [keeps_get_bind, askStores_keeps, awaitLimit_keeps, keeps_bind]

theorem prepareWrites_canonical {s : State} {ws : List Write} (hs : s.Canonical) : (prepareWrites s ws).Canonical := by
  unfold prepareWrites
  grind only [foldl_canonical, prepare_canonical]

theorem placed_keeps {x : Access} {r : Performed} : Keeps (placed x r) := by
  unfold placed
  grind only [keeps_pure, keeps_modify, canonical_iff, areaRecord_canonical, keeps_trapWith, keeps_trapWith_bind, parkCrew_canonical,
    keeps_bind]

theorem storeSys_keeps {x : Access} {ws : List Write} : Keeps (storeSys x ws) := by
  unfold storeSys
  grind only [barLines_canonical, prepareWrites_canonical, keeps_modify, keeps_get_bind, keeps_trapWith, keeps_trapWith_bind,
    performWrites_canonical, placed_keeps, keeps_bind, keeps_set]

theorem storeBytes_keeps {x : Access} {due : Nat} {kind : StoreKind} {ws : List Write} {release : Bool} {pend : List Write → Pending} :
    Keeps (storeBytes x due kind ws release pend) := by
  unfold storeBytes
  grind only [keeps_pure, requestStores_keeps, awaitRoom_keeps, keeps_modify, keeps_get_bind, enterStore_keeps, storeSys_keeps,
    scratchWrites_canonical, keeps_bind, keeps_waitFor, keeps_waitFor_bind, awaitEntries_keeps]

theorem amoPerform_canonical {op : AmoOp} {h : Home} {b expected : Word} {s : State} (hs : s.Canonical) :
    (amoPerform op h b expected s).2.Canonical := by
  unfold amoPerform
  grind only [storeHome_canonical, prepare_canonical]

/-! ### The functions of Machine/Streams -/

theorem streamWait_keeps {α : Type} {reg : Nat} {m : Exec α} (hm : Keeps m) : Keeps (streamWait reg m) := by
  refine keeps_tryCatch hm fun e => ?_
  split <;> exact keeps_throw _

theorem fetchPacket_keeps {core k : Nat} {t : Stream} {i : Nat} : Keeps (fetchPacket core k t i) := by
  unfold fetchPacket
  grind only [keeps_pure, keeps_get_bind, streamWait_keeps, loadBytes_keeps, keeps_bind, keeps_waitFor, keeps_waitFor_bind,
    checkAccess_keeps]

theorem streamTrap_keeps {α : Type} {r : Reg} : Keeps (streamTrap r : Exec α) := by
  unfold streamTrap
  grind only [keeps_trapWith, keeps_trapWith_bind]

theorem popStream_keeps {r : Reg} {k : Nat} {t : Stream} : Keeps (popStream r k t) := by
  unfold popStream
  grind only [keeps_pure, keeps_modify, keeps_get_bind, streamTrap_keeps, addPop_canonical, keeps_bind, fetchPacket_keeps]

theorem openV_keeps {r : Reg} : Keeps (openV r) := by
  unfold openV
  grind only [popQueue_keeps, readable_keeps, keeps_get_bind, popStream_keeps, keeps_bind]

theorem openVs_keeps {rs : List Reg} : Keeps (openVs rs) := by
  induction rs with
  | nil => exact keeps_pure _
  | cons r rs ih => exact keeps_bind openV_keeps fun _ => ih

theorem reserveV_keeps {d : Reg} : Keeps (reserveV d) := by
  unfold reserveV
  grind only [keeps_pure, reserveQueue_keeps, keeps_get_bind, streamTrap_keeps, keeps_bind, keeps_waitFor, keeps_waitFor_bind]

theorem putV_canonical {due : Nat} {d : Reg} {x : Packet} {s : State} (hs : s.Canonical) : (putV due d x s).Canonical := by
  unfold putV
  grind only [wf_scratch_curCore, setCurSlot_canonical, pushQueue_canonical, addWb_canonical]

theorem raiseCur_canonical {flags : List Nat} {s : State} (hs : s.Canonical) : (raiseCur flags s).Canonical := setCurSlot_canonical hs

theorem openPush_keeps {d : Reg} : Keeps (openPush d) := by
  unfold openPush
  grind only [keeps_pure, keeps_get_bind, keeps_bind, checkAccess_keeps]

theorem Push_perform_keeps {p : Push} {due : Nat} {x : Packet} {flags : Nat} : Keeps (Push.perform p due x flags) := by
  unfold Push.perform
  grind only [keeps_modify, keeps_get_bind, addPop_canonical, keeps_bind, storeBytes_keeps]

theorem endV_keeps {t : Nat} {d : Reg} {x : Packet} {flags : List Nat} {fed : Nat} : Keeps (endV t d x flags fed) := by
  unfold endV
  refine keeps_get_bind fun s _ => ?_
  split
  · grind only [checkArith_keeps, keeps_bind, keeps_modify, endFall_canonical, putV_canonical, raiseCur_canonical]
  · refine keeps_bind openPush_keeps fun p => ?_
    grind only [keeps_pure, keeps_bind, keeps_get_bind, checkArith_keeps, Push_perform_keeps, keeps_modify, endFall_canonical,
      raiseCur_canonical]

theorem notGarnet_keeps  : Keeps (notGarnet) := by
  unfold notGarnet
  grind only [keeps_pure, illegal_keeps, keeps_get_bind, keeps_bind]

end Sys2Proof.Machine
end

section
/-! SUPPORT. Bindings, fetch, loads and replies keep the form of the memories; O60. -/

namespace Sys2Proof.Machine

/-! ### The functions of Machine/Bind -/

theorem fillEntry_scratch {c : Core} {wide : Bool} {reg ticket value : Nat} : (fillEntry c wide reg ticket value).scratch = c.scratch := rfl

theorem dropQueues_scratch {c : Core} {p : Queue → Bool} : (dropQueues c p).scratch = c.scratch := rfl

theorem dropPackets_canonical {core k : Nat} {p : Nat → Bool} {s : State} (hs : s.Canonical) : (dropPackets core k p s).Canonical := hs

theorem leaveStreams_canonical {core : Nat} {p : Nat → Bool} {s : State} (hs : s.Canonical) : (leaveStreams core p s).Canonical := by
  unfold leaveStreams
  grind only [reissue_canonical, foldl_canonical, wf_scratch_coreOf]

theorem applyWb_canonical {core : Nat} {s : State} {b : Wb} (hs : s.Canonical) : (applyWb core s b).Canonical := by
  unfold applyWb
  grind only [dropPackets_canonical, dropQueues_scratch, wf_scratch_coreOf, storeHome_canonical, parkSlot_canonical, setCore_canonical,
    leaveStreams_canonical, setTile_canonical, fillEntry_scratch, closeCombining_canonical, setSlot_canonical]

theorem applyWbs_canonical {core : Nat} {p : Wb → Bool} {s : State} (hs : s.Canonical) : (applyWbs core p s).Canonical := by
  unfold applyWbs
  grind only [applyWb_canonical, foldl_canonical, wf_scratch_coreOf, setCore_canonical]

theorem flushWb_canonical {core : Nat} {s : State} (hs : s.Canonical) : (flushWb core s).Canonical := applyWbs_canonical hs

theorem flushScratch_canonical {core : Nat} {s : State} (hs : s.Canonical) : (flushScratch core s).Canonical := applyWbs_canonical hs

theorem releaseBindings_canonical {core slot : Nat} {abort : Bool} {s : State} (hs : s.Canonical) :
    (releaseBindings core slot abort s).Canonical := by
  unfold releaseBindings
  grind only [dropPackets_canonical, dropQueues_scratch, wf_scratch_coreOf, setCore_canonical, leaveStreams_canonical, setSlot_canonical]

theorem keepPushed_canonical {s0 : State} {core k : Nat} {x : Slot} {s : State} (_hs0 : s0.Canonical) (hs : s.Canonical) :
    (keepPushed s0 core k x s).Canonical := by
  unfold keepPushed
  grind only [setSlot_canonical]

/-! ### The functions of Machine/Fetch -/

theorem fetchRuns_keeps {x : Access} {rs : List (Nat × Nat)} : Keeps (fetchRuns x rs) := by
  induction rs with
  | nil => exact keeps_pure _
  | cons r rs ih =>
    unfold fetchRuns
    grind only [keeps_pure, keeps_bind, keeps_get_bind, keeps_set, xlate_canonical, pageFault_keeps, keeps_trapWith_bind]

theorem keepCode_canonical {core : Nat} {h : Home} {v : Nat} {s : State} {n : Nat} (hs : s.Canonical) :
    (keepCode core h v s n).Canonical := by
  fun_induction keepCode <;> grind only [setCore_canonical, wf_scratch_coreOf]

theorem bringCode_keeps {x : Access} {off : Nat} {p : Piece} : Keeps (bringCode x off p) := by
  unfold bringCode
  grind only [keeps_pure, keeps_get_bind, wf_scratch_curCore, keepCode_canonical, awaitLimit_keeps, keeps_bind, keeps_waitFor,
    keeps_waitFor_bind, askLine_keeps, keeps_set, prepare_canonical, sendRemote_keeps]

theorem fetchPieces_keeps {x : Access} {off : Nat} {ps : List Piece} : Keeps (fetchPieces x off ps) := by
  induction ps generalizing off with
  | nil => exact keeps_pure _
  | cons p ps ih =>
    unfold fetchPieces
    extract_lets bring goes
    have hrest : ∀ v, Keeps (do let rest ← fetchPieces x (off + p.n) ps; pure (v + rest <<< (8 * p.n))) := fun v =>
      keeps_bind ih fun _ => keeps_pure _
    have hbring : ∀ v, Keeps (bring v) := fun v => by
      dsimp only [bring]
      split
      · exact keeps_bind (keeps_modify fun _ ht => keepCode_canonical ht) fun _ => hrest v
      · exact hrest v
    have hgoes : ∀ u, Keeps (goes u) := fun _ => by
      refine keeps_get_bind fun s _ => ?_
      split
      · exact keeps_bind (keeps_pure _) hbring
      · exact keeps_bind servedTrap_keeps fun _ => keeps_waitFor_bind _ _ _
    split
    · exact keeps_bind bringCode_keeps fun _ => hgoes ()
    · exact hgoes ()

theorem fetchHalf_keeps {off : Word} : Keeps (fetchHalf off) := by
  unfold fetchHalf
  grind only [keeps_pure, keeps_modify, canonical_iff, checkTags_keeps, keeps_get_bind, checkReach_keeps, keeps_trapWith,
    keeps_trapWith_bind, fetchRuns_keeps, fetchPieces_keeps, keeps_bind, keeps_waitFor, keeps_waitFor_bind]

theorem setWord_canonical {w : Nat} {long : Bool} {s : State} (hs : s.Canonical) : (setWord w long s).Canonical := hs

theorem fetchInstr_keeps  : Keeps (fetchInstr) := by
  unfold fetchInstr
  grind only [keeps_pure, keeps_modify, fetchHalf_keeps, keeps_get_bind, setWord_canonical, keeps_bind]

/-! ### The functions of Machine/Memory -/

theorem loadScalar_keeps {acquire : Bool} {d : Reg} {sg : SReg} {a : Reg} {fmt : Fmt} {disp : BitVec 8} :
    Keeps (loadScalar acquire d sg a fmt disp) := by
  unfold loadScalar
  grind only [keeps_modify, keeps_get_bind, putG_canonical, useG_keeps, endFall_canonical, loadBytes_keeps, keeps_bind,
    closeCombining_canonical, checkAccess_keeps]

theorem Push_reserve_keeps {p : Push} : Keeps (Push.reserve p) := by
  unfold Push.reserve
  grind only [keeps_modify, keeps_get_bind, enterStore_keeps, addPop_canonical, keeps_bind]

theorem loadPushed_keeps {p : Option Push} {m : Exec Nat} (hm : Keeps m) : Keeps (loadPushed p m) := by
  refine keeps_tryCatch hm fun e => ?_
  split
  · exact keeps_bind Push_reserve_keeps fun _ => keeps_throw _
  · exact keeps_throw _

theorem execLdx_each_keeps {x : Access} {ps : List Piece} : Keeps (execLdx.each x ps) := by
  induction ps with
  | nil => exact keeps_pure _
  | cons p ps ih =>
    unfold execLdx.each
    grind only [keeps_pure, keeps_bind, loadBytes_keeps]

theorem execLdx_loadDwords_keeps {e : EReg} {x : Access} {ps : List Piece} {n : Nat} : Keeps (execLdx.loadDwords e x ps n) := by
  unfold execLdx.loadDwords
  refine keeps_get_bind fun s _ => ?_
  grind only [keeps_bind, keeps_pure, loadBytes_keeps, execLdx_each_keeps]

theorem storeScalar_keeps {release : Bool} {d : Reg} {sg : SReg} {a : Reg} {fmt : Fmt} {disp : BitVec 8} :
    Keeps (storeScalar release d sg a fmt disp) := by
  unfold storeScalar
  grind only [keeps_modify, keeps_get_bind, useG_keeps, endFall_canonical, keeps_bind, storeBytes_keeps, checkAccess_keeps]

theorem execAmo_amoSend_keeps {core slot : Nat} {p : Piece} {op : AmoOp} {vb vd : Word} :
    Keeps (execAmo.amoSend core slot p op vb vd) := by
  unfold execAmo.amoSend
  refine keeps_get_bind fun s _ => ?_
  grind only [sendRemote_keeps, askLine_keeps, keeps_pure]

theorem pinLine_canonical {s : State} {est line : Nat} (hs : s.Canonical) : (pinLine s est line).2.Canonical := by
  unfold pinLine
  grind only [setEstate_canonical]

/-! ### The functions of Machine/Reply -/

theorem resume_canonical {core k : Nat} {m : Exec Unit} {s : State} (hs : s.Canonical) (hm : Keeps m) :
    (resume core k m s).Canonical := by
  have hrun := hm { s with cur := issueOf s core k } hs
  unfold resume
  split
  · exact hs
  · split
    next s' heq => rwa [heq] at hrun
    next t s' heq =>
      rw [heq] at hrun
      exact trapNow_canonical hrun
    next w p s' heq =>
      rw [heq] at hrun
      exact setCurSlot_canonical hrun

theorem endReply_canonical {s : State} (hs : s.Canonical) : (endReply s).Canonical := setCurSlot_canonical hs

theorem deliverG_canonical {d : Reg} {v : Word} {s : State} (hs : s.Canonical) : (deliverG d v s).Canonical := by
  unfold deliverG
  grind only [setCurSlot_canonical, addWb_canonical]

theorem replyG_keeps {d : Reg} {v : Word} : Keeps (replyG d v) := by
  unfold replyG
  grind only [deliverG_canonical, keeps_modify, endReply_canonical]

theorem replyCall_keeps {d : Reg} {v : Word} : Keeps (replyCall d v) := by
  unfold replyCall
  grind only [keeps_modify, replyG_keeps, keeps_bind, closeCombining_canonical]

theorem replyCallEnd_keeps {d : Reg} {a : CallEnd} : Keeps (replyCallEnd d a) := by
  unfold replyCallEnd
  grind only [keeps_throw, replyCall_keeps]

theorem replyCad_keeps {d : Reg} {status first : Nat} {out : List Word} : Keeps (replyCad d status first out) := by
  unfold replyCad
  grind only [deliverG_canonical, keeps_modify, setCurCore_canonical, putERun_canonical, wf_scratch_curCore, endReply_canonical,
    closeCombining_canonical]

theorem fillStore_canonical {s : State} {core binder ticket : Nat} {ws : List Write} {done : Bool} (hs : s.Canonical) :
    (fillStore s core binder ticket ws done).Canonical :=
  setSlot_canonical hs

theorem readyStore_canonical {s : State} {core binder ticket : Nat} (hs : s.Canonical) : (readyStore s core binder ticket).Canonical :=
  setSlot_canonical hs

theorem landPush_keeps {p : Push} {ticket due : Nat} {x : Packet} : Keeps (landPush p ticket due x) := by
  unfold landPush
  refine keeps_get_bind fun s _ => ?_
  extract_lets c b gone ws far out stored
  have hstored : ∀ u, Keeps (stored u) := fun _ => keeps_bind storeSys_keeps fun _ => keeps_modify fun _ ht => readyStore_canonical ht
  clear_value stored out far
  split
  · exact keeps_modify fun _ ht => scratchWrites_canonical ht
  · refine keeps_bind (keeps_modify fun _ ht => fillStore_canonical ht) fun _ => ?_
    split
    · exact keeps_pure _
    · refine keeps_bind (keeps_modify fun _ ht => ht) fun _ => keeps_bind requestStores_keeps fun _ => keeps_get_bind fun s _ => ?_
      split
      · exact keeps_waitFor_bind _ _ _
      · exact hstored ()

theorem deliverV_keeps {d : Reg} {x : Packet} {push : List Piece} : Keeps (deliverV d x push) := by
  unfold deliverV
  grind only [keeps_modify, landPush_keeps, keeps_get_bind, setCurSlot_canonical, addWb_canonical, endReply_canonical, keeps_bind]

theorem deliver_keeps {v : Nat} {a : Dest} : Keeps (deliver v a) := by
  unfold deliver
  grind only [keeps_modify, replyG_keeps, deliverV_keeps, keeps_get_bind, putERun_canonical, endReply_canonical, keeps_bind]

theorem replyPieces_keeps {x : Access} {ps : List Piece} {bits : Nat} : Keeps (replyPieces x ps bits) := by
  induction ps generalizing bits with
  | nil => exact keeps_pure _
  | cons p ps ih =>
    unfold replyPieces
    refine keeps_get_bind fun s hs => ?_
    split
    · split
      · refine keeps_bind (keeps_set (fillPlat_canonical hs)) fun _ => ?_
        grind only [keeps_bind, servedTrap_keeps, keeps_pure, keeps_trapWith]
      · exact keeps_bind ih fun _ => keeps_pure _
    · split
      · exact keeps_bind (keeps_pure _) fun _ => keeps_bind ih fun _ => keeps_pure _
      · refine keeps_bind (keeps_set (servePiece_canonical hs)) fun _ => keeps_bind servedTrap_keeps fun _ => ?_
        grind only [keeps_bind, keeps_pure]

/-- One line after another is bound, until one cannot be read. -/
theorem bindReads_fold_canonical {s t : State} {f : Option State → Home × Served → Option State} {rs : List (Home × Served)}
    (hf : ∀ (u : State) (r : Home × Served) (v : State), u.Canonical → f (some u) r = some v → v.Canonical) (hnone : ∀ r, f none r = none)
    (hs : s.Canonical) (ht : rs.foldl f (some s) = some t) : t.Canonical := by
  induction rs generalizing s with
  | nil => cases ht; exact hs
  | cons r rs ih =>
    rw [List.foldl_cons] at ht
    rcases hr : f (some s) r with _ | v
    · rw [hr, List.foldl_fixed' hnone] at ht
      cases ht
    · rw [hr] at ht
      exact ih (hf s r v hs hr) ht

theorem bindReads_canonical {s : State} {core k : Nat} {ps : List Piece} (hs : s.Canonical) {t : State}
    (ht : bindReads s core k ps = some t) : t.Canonical := by
  unfold bindReads at ht
  extract_lets lines rs at ht
  split at ht
  · cases ht
  · refine bindReads_fold_canonical (fun u r v hu hv => ?_) (fun r => rfl) hs ht
    split at hv
    next u' _ heq _ =>
      cases heq
      cases hv
      exact hu
    next => cases hv

theorem combineRead_canonical {s : State} {core k c' k' : Nat} {acquire : Bool} {ps : List Piece} (hs : s.Canonical) {t : State}
    (ht : combineRead s core k c' k' acquire ps = some t) : t.Canonical := by
  unfold combineRead at ht
  grind only [canonical_iff]

theorem replyTrap_keeps {x : Access} {va : Word} {sent : Bool} {a : Reply} : Keeps (replyTrap x va sent a) := by
  unfold replyTrap
  grind only [keeps_pure, keeps_trapWith, keeps_trapWith_bind]

theorem loadReply_keeps {core k : Nat} {acquire : Bool} {ps : List Piece} {bits : Nat} {f : Nat → Exec Unit} (hf : ∀ a, Keeps (f a)) :
    Keeps (loadReply core k acquire ps bits f) := by
  unfold loadReply
  grind only [barLines_canonical, keeps_modify, keeps_get_bind, replyPieces_keeps, keeps_bind, closeCombining_canonical]

theorem storeReply_keeps {core k : Nat} {ws : List Write} {flags : Nat} : Keeps (storeReply core k ws flags) := by
  unfold storeReply
  grind only [keeps_modify, keeps_get_bind, storeSys_keeps, readyStore_canonical, raiseCur_canonical, endReply_canonical, keeps_bind]

theorem bindPacket_keeps {core k reg elem : Nat} {ps : List Piece} {bits : Nat} : Keeps (bindPacket core k reg elem ps bits) := by
  unfold bindPacket
  grind only [reissue_canonical, keeps_modify, dropPackets_canonical, keeps_get_bind, replyPieces_keeps, keeps_bind, setSlot_canonical]

theorem bindOperand_keeps {core k : Nat} {ps : List Piece} {bits : Nat} : Keeps (bindOperand core k ps bits) := by
  unfold bindOperand
  grind only [reissue_canonical, keeps_modify, keeps_get_bind, replyPieces_keeps, keeps_bind, setSlot_canonical]

theorem bindCode_canonical {core k off line : Nat} {s : State} (hs : s.Canonical) : (bindCode core k off line s).Canonical :=
  setSlot_canonical (reissue_canonical hs)

theorem bindCached_canonical {core k off : Nat} {p : Piece} {s : State} (hs : s.Canonical) : (bindCached core k off p s).Canonical := by
  unfold bindCached
  grind only [reissue_canonical, bindCode_canonical, prepare_canonical]

theorem replyTo_keeps {s : State} {core k : Nat} {r : Reply} (hs : s.Canonical) {m : Exec Unit} (hm : replyTo s core k r = some m) :
    Keeps m := by
  unfold replyTo at hm
  extract_lets x a failed far at hm
  generalize x.pend = pend at hm
  clear_value failed far
  cases pend with
  | load acquire ps dest =>
    cases r with
    | bind =>
      obtain ⟨t, ht, rfl⟩ := Option.map_eq_some_iff.1 hm
      exact keeps_set (bindReads_canonical hs ht : t.Canonical)
    | combine c' k' =>
      obtain ⟨t, ht, rfl⟩ := Option.map_eq_some_iff.1 hm
      exact keeps_set (combineRead_canonical hs ht : t.Canonical)
    | _ => grind only [loadReply_keeps, deliver_keeps, replyTrap_keeps]
  | packet reg ps elem => cases r <;> grind only [bindPacket_keeps, replyTrap_keeps]
  | operand ps => cases r <;> grind only [bindOperand_keeps, replyTrap_keeps]
  | fetch off p => cases r <;> grind only [bindCached_canonical, bindCode_canonical, keeps_modify, replyTrap_keeps]
  | store ws => cases r <;> grind only [storeReply_keeps, replyTrap_keeps]
  | push ws flags => cases r <;> grind only [storeReply_keeps, replyTrap_keeps]
  | amo op p b e d acquire =>
    have hclose : Keeps (if acquire then modify (closeCombining (threadId core k)) else pure () : Exec Unit) := by
      split
      · exact keeps_modify fun _ ht => closeCombining_canonical ht
      · exact keeps_pure _
    cases r with
    | home =>
      obtain ⟨-, hm⟩ := Option.ite_none_left_eq_some.1 hm
      cases hm
      refine keeps_get_bind fun s hs => keeps_bind servedTrap_keeps fun _ => ?_
      split
      · refine keeps_bind (keeps_set (amoPerform_canonical hs)) fun _ => keeps_bind (keeps_modify fun _ ht => barLines_canonical ht)
          fun _ => ?_
        exact keeps_bind hclose fun _ => replyG_keeps
      · exact keeps_pure _
    | data v =>
      obtain ⟨-, hm⟩ := Option.ite_none_right_eq_some.1 hm
      cases hm
      exact keeps_bind hclose fun _ => replyG_keeps
    | _ => grind only [replyTrap_keeps]
  | pin d line =>
    cases r with
    | home =>
      cases hm
      exact keeps_get_bind fun s hs => keeps_bind (keeps_set (pinLine_canonical hs)) fun _ => replyG_keeps
    | _ => cases hm
  | cad d a st first out wait =>
    rcases st with _ | st
    · cases hm
    cases r <;> grind only [keeps_modify, keeps_bind, landImage_canonical, replyCad_keeps]
  | _ => cases hm

theorem failedLate_canonical {s : State} {o : Outstanding} {r : Reply} (hs : s.Canonical) : (failedLate s o r).Canonical := by
  unfold failedLate
  grind only [canonical_iff, sinkRecord_canonical, setTask_canonical]

theorem replyWaiter_canonical {r : Reply} {s : State} {w : Nat × Nat} (hs : s.Canonical) : (replyWaiter r s w).Canonical := by
  unfold replyWaiter
  grind only [replyTo_keeps, resume_canonical]

theorem failLine_canonical {s : State} {home line : Nat} {r : Reply} (hs : s.Canonical) : (failLine s home line r).Canonical := by
  unfold failLine
  grind only [rlcDrop_canonical, rlcSet_canonical, failedLate_canonical, canonical_iff, replyWaiter_canonical, foldl_canonical]

theorem lateReply_canonical {s : State} {dst seq : Nat} {r : Reply} (hs : s.Canonical) : (lateReply s dst seq r).Canonical := by
  unfold lateReply
  grind only [failedLate_canonical, canonical_iff]

end Sys2Proof.Machine
end

section
/-! SUPPORT. Tasks and messages keep the form of the memories; O60. -/

namespace Sys2Proof.Machine

/-! ### The functions of Machine/Tasks -/

theorem pushRing_canonical {s : State} {core : Nat} {t : Task} (hs : s.Canonical) : (pushRing s core t).2.Canonical := by
  unfold pushRing
  grind only [areaRecord_canonical, setEstate_canonical, setTask_canonical, hwWrite_canonical]

theorem returnRing_canonical {s : State} {core : Nat} {t : Task} (hs : s.Canonical) : (returnRing s core t).Canonical := by
  unfold returnRing
  grind only [setEstate_canonical, pushRing_canonical]

theorem spillDeque_canonical {s : State} {core : Nat} (hs : s.Canonical) : (spillDeque s core).2.Canonical := by
  unfold spillDeque
  grind only [wf_scratch_coreOf, setCore_canonical, pushRing_canonical]

theorem pushDeque_canonical {s : State} {core : Nat} {t : Task} (hs : s.Canonical) : (pushDeque s core t).2.Canonical := by
  unfold pushDeque
  grind only [spillDeque_canonical, wf_scratch_coreOf, storeHome_canonical, setTask_canonical, setCore_canonical, pushRing_canonical]

theorem unqueue_canonical {s : State} {h : Nat} (hs : s.Canonical) : (unqueue s h).Canonical := mapCores_canonical hs fun _ => rfl

theorem completePhase_canonical {s : State} {h n : Nat} (hs : s.Canonical) : (completePhase s h n).Canonical := by
  unfold completePhase
  grind only [setTask_canonical]

theorem completePhases_canonical {s : State} {h : Nat} (hs : s.Canonical) : (completePhases s h).Canonical :=
  foldl_canonical hs fun _ _ ht => completePhase_canonical ht

theorem dropRecords_scratch {c : Core} {k : Nat} : (dropRecords c k).scratch = c.scratch := rfl

theorem clearSlot_canonical {s : State} {core k : Nat} {plats : Bool} {abort : optParam Bool false} (hs : s.Canonical) :
    (clearSlot s core k plats abort).Canonical := by
  unfold clearSlot
  grind only [keepPushed_canonical, returnHeld_canonical, dropRecords_scratch, canonical_iff, wf_scratch_coreOf, releaseBindings_canonical,
    setCore_canonical, setSlot_canonical]

theorem orphanOps_canonical {s : State} {core k : Nat} (hs : s.Canonical) : (orphanOps s core k).Canonical := hs

theorem freeSpill_canonical {s : State} {t : Task} {record : Bool} (hs : s.Canonical) : (freeSpill s t record).Canonical := hs

theorem countJob_canonical {s : State} {t : Task} {committed : Bool} (hs : s.Canonical) : (countJob s t committed).Canonical := by
  unfold countJob
  grind only [canonical_iff]

theorem dropLines_canonical {s : State} {h : Nat} (hs : s.Canonical) : (dropLines s h).Canonical := mapCores_canonical hs fun _ => rfl

theorem finishAbort_canonical {s : State} {h : Nat} (hs : s.Canonical) : (finishAbort s h).Canonical := by
  unfold finishAbort
  grind only [freeSpill_canonical, canonical_iff, returnRing_canonical, countJob_canonical, dropLines_canonical, setTask_canonical,
    pushDeque_canonical]

theorem clearRecord_canonical {core est : Nat} {s : State} {k : Nat} (hs : s.Canonical) : (clearRecord core est s k).Canonical := by
  unfold clearRecord
  grind only [hwWrite_canonical, hwRead_canonical]

theorem discardRecords_canonical {s : State} {h : Nat} (hs : s.Canonical) : (discardRecords s h).Canonical := by
  unfold discardRecords
  dsimp only
  split
  · exact hs
  · exact mapUnits_canonical (foldl_canonical hs fun _ _ ht => clearRecord_canonical ht) fun _ => rfl

theorem dropServed_canonical {s : State} {h : Nat} (hs : s.Canonical) : (dropServed s h).Canonical := mapQueues_canonical hs fun _ => rfl

theorem stopTask_canonical {requeue : Bool} {s : State} {h : Nat} (hs : s.Canonical) : (stopTask requeue s h).Canonical := by
  unfold stopTask
  grind only [clearSlot_canonical, unqueue_canonical, orphanOps_canonical, foldl_canonical, setTask_canonical, finishAbort_canonical,
    dropServed_canonical, landImage_canonical, discardRecords_canonical]

theorem abortTasks_canonical {s : State} {tasks : List Nat} (hs : s.Canonical) : (abortTasks s tasks).Canonical :=
  foldl_canonical hs fun _ _ ht => stopTask_canonical ht

theorem abandonTask_canonical {s : State} {h : Nat} (hs : s.Canonical) : (abandonTask s h).Canonical :=
  foldl_canonical hs fun _ _ ht => stopTask_canonical ht

theorem abortFirm_canonical {s : State} {h : Nat} (hs : s.Canonical) : (abortFirm s h).Canonical := abortTasks_canonical hs

theorem finishTask_canonical {s : State} {h : Nat} (hs : s.Canonical) : (finishTask s h).Canonical := by
  unfold finishTask
  grind only [abandonTask_canonical, setTask_canonical]

theorem endThread_canonical {s : State} {core k : Nat} {how : Member} (hs : s.Canonical) : (endThread s core k how).Canonical := by
  unfold endThread
  grind only [clearSlot_canonical, orphanOps_canonical, finishTask_canonical, setTask_canonical, completePhases_canonical]

theorem onAdmitted_canonical {s : State} {h : Nat} (hs : s.Canonical) : (onAdmitted s h).Canonical := by
  unfold onAdmitted
  grind only [abortTasks_canonical]

theorem refreshCore_canonical {t : Task} {s : State} {core : Nat} (hs : s.Canonical) : (refreshCore t s core).Canonical :=
  setCore_canonical hs (wf_scratch_coreOf hs _)

theorem prefetch_canonical {core : Nat} {t : Task} {s : State} {va : Nat} (hs : s.Canonical) : (prefetch core t s va).Canonical := by
  unfold prefetch
  grind only [loadPlat_canonical, xlate_canonical, wf_scratch_coreOf]

theorem startTask_canonical {s : State} {core h : Nat} {slots : List (Nat × Nat)} (hs : s.Canonical)
    : (startTask s core h slots).Canonical := by
  unfold startTask
  extract_lets t cores s1 t1 s2 s3
  have hs1 : s1.Canonical := foldl_canonical hs fun _ _ ht => refreshCore_canonical ht
  have hs2 : s2.Canonical := setTask_canonical (mapCores_canonical hs1 fun _ => rfl)
  have hs3 : s3.Canonical := foldl_canonical hs2 fun _ _ ht => prefetch_canonical ht
  exact foldl_canonical hs3 fun _ _ ht => closeCombining_canonical (setSlot_canonical ht)

theorem commitLine_canonical {core est h : Nat} {s : State} {l : Nat × Packet × BitVec 64} (hs : s.Canonical) :
    (commitLine core est h s l).Canonical := by
  unfold commitLine
  grind only [lostRecord_canonical, poisonRecord_canonical, areaRecord_canonical, xlate_canonical, storeHome_canonical, prepare_canonical]

theorem commitSpoilt_canonical {core est h : Nat} {s : State} {l : Nat × Packet × BitVec 64} (hs : s.Canonical) :
    (commitSpoilt core est h s l).Canonical := by
  unfold commitSpoilt
  grind only [poisonRecord_canonical, xlate_canonical, poisonHbm_canonical]

theorem commitSend_canonical {h : Nat} {s : State} {l : Nat × Packet × BitVec 64} (hs : s.Canonical) : (commitSend h s l).Canonical := by
  unfold commitSend
  grind only [xlate_canonical, setTask_canonical, sendRequest_canonical]

/-- A fold that carries a list beside a state keeps the form where every step does. -/
theorem foldl_snd_canonical {α β : Type} {f : β × State → α → β × State} {l : List α} {b : β} {s : State} (hs : s.Canonical)
    (hf : ∀ (p : β × State) (a : α), p.2.Canonical → (f p a).2.Canonical) : (l.foldl f (b, s)).2.Canonical := by
  induction l generalizing b s with
  | nil => exact hs
  | cons a l ih => exact ih (hf (b, s) a hs)

theorem writtenLines_canonical {s : State} {t : Task} (hs : s.Canonical) : (writtenLines s t).2.Canonical := by
  refine foldl_snd_canonical hs fun p va hp => ?_
  grind only [taskBytes_canonical]

theorem commitAsk_canonical {h : Nat} {s : State} {n : Nat × Home} (hs : s.Canonical) : (commitAsk h s n).Canonical :=
  requestLine_canonical hs

theorem commitInvalidate_scratch {t : Task} {c : Core} : (commitInvalidate t c).scratch = c.scratch := rfl

theorem commitTask_canonical {s : State} {h : Nat} (hs : s.Canonical) : (commitTask s h).Canonical := by
  unfold commitTask
  extract_lets t w lines needs far s0 near s1 s2 s3
  have hw : w.2.Canonical := writtenLines_canonical hs
  split
  · exact foldl_canonical hw fun _ _ ht => commitAsk_canonical ht
  · have hs0 : s0.Canonical := foldl_canonical hw fun _ _ ht => commitSend_canonical ht
    split
    · exact hs0
    · have hnear : near.Canonical := foldl_canonical hs0 fun _ _ ht => commitLine_canonical ht
      have hs1 : s1.Canonical := foldl_canonical hnear fun _ _ ht => commitSpoilt_canonical ht
      have hs2 : s2.Canonical := mapCores_canonical hs1 fun p => by
        dsimp only
        split
        · exact commitInvalidate_scratch
        · rfl
      have hs3 : s3.Canonical := countJob_canonical (freeSpill_canonical (dropLines_canonical hs2))
      exact hs3

/-! ### The functions of Machine/Messages -/

theorem answerAmsg_canonical {s : State} {core k : Nat} {a : Answer} (hs : s.Canonical) : (answerAmsg s core k a).Canonical := by
  unfold answerAmsg
  grind only [keeps_modify, replyG_keeps, putE_canonical, keeps_trapWith, keeps_trapWith_bind, keeps_bind, resume_canonical,
    closeCombining_canonical]

theorem sendAnswer_canonical {s : State} {pkg thread seq : Nat} {a : Answer} (hs : s.Canonical) :
    (sendAnswer s pkg thread seq a).Canonical := by
  unfold sendAnswer
  grind only [canonical_iff, answerAmsg_canonical]

theorem writeRecord_canonical {core off data a : Nat} {s : State} (hs : s.Canonical) : (writeRecord core off data a s).Canonical := by
  fun_induction writeRecord <;> grind only [storeHome_canonical]

theorem deliverMessage_canonical {s : State} {core : Nat} {r : RingRec} (hs : s.Canonical) : (deliverMessage s core r).2.Canonical := by
  unfold deliverMessage
  grind only [wf_scratch_coreOf, setCore_canonical, writeRecord_canonical]

theorem amsg_keeps {reply : Bool} {d a b : Reg} {e : EReg} : Keeps (amsg reply d a b e) := by
  unfold amsg
  refine keeps_bind useG_keeps fun _ => keeps_get_bind fun s _ => ?_
  extract_lets name sel argc pkg core seq thread r w pend finish sent room goes
  have hfinish : ∀ (v : Nat) (t : State), t.Canonical → (finish v t).Canonical := fun v t ht => endFall_canonical (putG_canonical ht)
  clear_value finish
  have hsent : ∀ u, Keeps (sent u) := fun _ => by
    dsimp only [sent]
    refine keeps_bind (keeps_modify fun _ ht => ht) fun _ => ?_
    split
    · refine keeps_get_bind fun t ht => keeps_bind (keeps_set (deliverMessage_canonical ht)) fun _ => ?_
      grind only [keeps_waitFor, keeps_modify, keeps_trapWith]
    · exact keeps_bind (keeps_modify fun _ ht => ht) fun _ => keeps_waitFor _ _
  have hroom : ∀ u, Keeps (room u) := fun _ => by
    dsimp only [room]
    split
    · exact keeps_bind awaitEntries_keeps fun _ => hsent ()
    · exact hsent ()
  have hgoes : ∀ u, Keeps (goes u) := fun _ => by
    refine keeps_bind firm_keeps fun _ => ?_
    split
    · exact keeps_waitFor_bind _ _ _
    · exact hroom ()
  split
  · exact keeps_bind illegal_keeps fun _ => hgoes ()
  · exact hgoes ()

theorem keepReply_canonical {s : State} {src seq : Nat} {m : FabricMsg} (hs : s.Canonical) : (keepReply s src seq m).Canonical := hs

theorem lateAnswer_canonical {s : State} {mine : Outstanding → Bool} (hs : s.Canonical) : (lateAnswer s mine).Canonical := by
  unfold lateAnswer
  grind only [canonical_iff]

theorem freeRecord_canonical {s : State} {core : Nat} {r : RingRec} {a : Answer} (hs : s.Canonical) :
    (freeRecord s core r a).Canonical := by
  unfold freeRecord
  grind only [sendAnswer_canonical, wf_scratch_coreOf, setCore_canonical]

theorem endHandler_canonical {s : State} {core : Nat} {a : Answer} (hs : s.Canonical) : (endHandler s core a).Canonical := by
  unfold endHandler
  grind only [clearSlot_canonical, orphanOps_canonical, freeRecord_canonical]

theorem endAt_canonical {how : WbAct} {s : State} (hs : s.Canonical) : (endAt how s).Canonical := by
  unfold endAt
  grind only [commitPops_canonical, setCurSlot_canonical, addWb_canonical]

end Sys2Proof.Machine
end

section
/-! SUPPORT. Tiles, units, engine operations and saves keep the form of the memories; O60. -/

namespace Sys2Proof.Machine

/-! ### The functions of Machine/Tiles -/

theorem tileWait_keeps {α : Type} {n need : Nat} : Keeps (tileWait n need : Exec α) := by
  unfold tileWait
  grind only [keeps_waitFor, keeps_waitFor_bind]

theorem observe_canonical {t : Tile} {s : State} (hs : s.Canonical) : (observe t s).Canonical := by
  unfold observe
  grind only [closeCombining_canonical]

theorem tileTrap_keeps {α : Type} {n : Nat} {t : Tile} : Keeps (tileTrap n t : Exec α) := by
  unfold tileTrap
  grind only [observe_canonical, keeps_modify, keeps_trapWith, keeps_trapWith_bind, keeps_bind]

theorem namedTile_keeps {a : Word} {n : Nat} : Keeps (namedTile a n) := by
  unfold namedTile
  grind only [keeps_pure, keeps_get_bind, wf_scratch_curCore, keeps_trapWith, keeps_trapWith_bind, tileTrap_keeps, keeps_bind]

theorem awaitTile_keeps {n need : Nat} : Keeps (awaitTile n need) := by
  unfold awaitTile
  grind only [observe_canonical, keeps_modify, keeps_get_bind, wf_scratch_curCore, tileWait_keeps, keeps_bind]

/-! ### The functions of Machine/Units -/

theorem setSeat_canonical {s : State} {u i : Nat} {x : Seat} (hs : s.Canonical) : (setSeat s u i x).Canonical :=
  setUnit_canonical hs (wf_banks_unitOf hs _)

theorem jasperMessage_canonical {s : State} {cluster source : Nat} {r : TrapRec} (hs : s.Canonical) :
    (jasperMessage s cluster source r).Canonical :=
  setCore_canonical hs (wf_scratch_coreOf hs _)

theorem mapSavedOf_canonical {s : State} {h index : Nat} {f : Slot → Slot} (hs : s.Canonical) : (mapSavedOf s h index f).Canonical := hs

theorem ringTrap_canonical {u left : Nat} {r : SpillRow} {s : State} (hs : s.Canonical) : (ringTrap u left r s).2.Canonical := by
  unfold ringTrap
  grind only [jasperMessage_canonical, keeps_trapWith, keeps_trapWith_bind, resume_canonical, mapSavedOf_canonical, setSlot_canonical]

theorem computeRows_canonical {u i : Nat} {a a1 : List SpillRow} {s : State} (hs : s.Canonical) : (computeRows u i a a1 s).Canonical := by
  fun_induction computeRows <;> grind only [setSeat_canonical, ringTrap_canonical, wf_banks_unitOf]

theorem computeRing_canonical {u i : Nat} {s : State} (hs : s.Canonical) : (computeRing u i s).Canonical := by
  unfold computeRing
  grind only [canonical_iff, computeRows_canonical, setUnit_canonical, wf_banks_unitOf]

/-! ### The functions of Machine/Engine -/

theorem copyRanges_keeps {r : List Word} {t : Tile} {n sg : Nat} {seg : Seg} {out : Bool} : Keeps (copyRanges r t n sg seg out) := by
  unfold copyRanges
  grind only [keeps_pure, keeps_get_bind, wf_scratch_curCore, keeps_trapWith, keeps_trapWith_bind, tileTrap_keeps, keeps_bind]

theorem reportOrphan_canonical {s : State} {o : EngineOp} {status : Nat} (hs : s.Canonical) : (reportOrphan s o status).Canonical := by
  unfold reportOrphan
  grind only [jasperMessage_canonical, sinkRecord_canonical]

theorem endOp_canonical {s : State} {op : Nat} {o : EngineOp} {status : Option Nat} (hs : s.Canonical) :
    (endOp s op o status).Canonical := by
  unfold endOp
  grind only [canonical_iff, reportOrphan_canonical, wf_scratch_coreOf, finishAbort_canonical, setTile_canonical]

theorem attempt_canonical {s : State} {o : EngineOp} {x : Access} (hs : s.Canonical) : (attempt s o x).2.Canonical := by
  have hrun := checkAccess_keeps (x := x) { s with cur := { core := o.core, slot := o.slot } } hs
  unfold attempt
  split <;> rename_i heq <;> rwa [heq] at hrun

theorem engineLine_canonical {op elem : Nat} {o : EngineOp} {s : State} {h : Home} {store : Bool} (hs : s.Canonical) :
    (engineLine op elem o s h store).Canonical :=
  requestLine_canonical hs

theorem engineLoad_canonical {op elem : Nat} {o : EngineOp} {x : Access} {a : List Piece} {a1 : Option Nat} {s : State} (hs : s.Canonical) :
    (engineLoad op elem o x a a1 s).2.Canonical := by
  fun_induction engineLoad <;> grind only [fillPlat_canonical, engineLine_canonical, servePiece_canonical]

theorem elementDone_canonical {s : State} {op : Nat} {o : EngineOp} {elem : Nat} (hs : s.Canonical) :
    (elementDone s op o elem).Canonical := by
  unfold elementDone
  grind only [canonical_iff, endOp_canonical]

theorem engineStore_canonical {s : State} {op : Nat} {o : EngineOp} {elem : Nat} {ps : List Piece} {v : Nat} (hs : s.Canonical) :
    (engineStore s op o elem ps v).Canonical := by
  unfold engineStore
  grind only [prepareWrites_canonical, endOp_canonical, areaRecord_canonical, foldl_canonical, performWrites_canonical, parkSlot_canonical,
    abortFirm_canonical, elementDone_canonical, engineLine_canonical]

theorem askRemote_canonical {s : State} {op : Nat} {o : EngineOp} {elem : Nat} {ps : List Piece} {store : Option Nat} (hs : s.Canonical) :
    (askRemote s op o elem ps store).Canonical := by
  unfold askRemote
  grind only [canonical_iff, foldl_canonical, sendRequest_canonical]

theorem moveElement_canonical {s : State} {op : Nat} {o : EngineOp} {elem : Nat} {memOff tileOff : Int} {reply : Reply} {bits : Option Nat}
    (hs : s.Canonical) :
    (moveElement s op o elem memOff tileOff reply bits).Canonical := by
  unfold moveElement
  grind only [attempt_canonical, canonical_iff, endOp_canonical, engineLoad_canonical, wf_scratch_coreOf, storeHome_canonical,
    engineStore_canonical, elementDone_canonical, askRemote_canonical]

theorem copyElement_canonical {s : State} {op : Nat} {o : EngineOp} {elem : Nat} {reply : Reply} (hs : s.Canonical) :
    (copyElement s op o elem reply).Canonical := by
  unfold copyElement
  extract_lets r e out memReg tileOff plain last x
  split
  · have hattempt : (attempt s o x).2.Canonical := attempt_canonical hs
    split <;> rename_i heq <;> rw [heq] at hattempt
    · exact endOp_canonical hattempt
    · grind only [endOp_canonical]
    · exact hattempt
    · split
      · grind only [endOp_canonical, moveElement_canonical]
      · grind only [endOp_canonical, moveElement_canonical, engineLoad_canonical, askRemote_canonical]
  · exact moveElement_canonical hs

/-! ### The functions of Machine/Save -/

theorem requestCrew_canonical {deadline source : Nat} {s : State} {h : Nat} (hs : s.Canonical) :
    (requestCrew deadline source s h).Canonical :=
  foldl_canonical hs fun _ _ ht => setSlot_canonical ht

theorem requestCore_canonical {deadline source : Nat} {s : State} {core : Nat} (hs : s.Canonical) :
    (requestCore deadline source s core).Canonical :=
  foldl_canonical hs fun _ _ ht => requestCrew_canonical ht

theorem drainStores_canonical {core k a : Nat} {s : State} (hs : s.Canonical) : (drainStores core k a s).2.Canonical := by
  fun_induction drainStores <;> grind only [performEntry_canonical, setSlot_canonical]

theorem settleSlot_canonical {core k : Nat} {s0 : State} (hs : s0.Canonical) : (settleSlot core k s0).Canonical := by
  unfold settleSlot
  grind only [returnHeld_canonical, flushWb_canonical, setSlot_canonical, dropReserved_canonical]

theorem spillTask_canonical {s : State} {h : Nat} (hs : s.Canonical) : (spillTask s h).2.Canonical := by
  unfold spillTask
  extract_lets lines
  generalize hr : lines.foldl _ _ = r
  have hfold : r.2.Canonical := hr ▸ foldl_snd_canonical hs fun p l hp => by grind only [spillOut_canonical]
  split
  · exact setTask_canonical hfold
  · exact hfold

theorem exitCrew_canonical {s : State} {h : Nat} (hs : s.Canonical) : (exitCrew s h).Canonical :=
  foldl_canonical hs fun _ _ ht => endThread_canonical ht

theorem saveFull_canonical {s : State} {core h aux : Nat} (hs : s.Canonical) : (saveFull s core h aux).Canonical :=
  sinkRecord_canonical (exitCrew_canonical hs)

theorem takeMail_canonical {core k : Nat} {s : State} (hs : s.Canonical) : (takeMail core k s).Canonical := hs

theorem writeRun_canonical {core est va : Nat} {a : List Nat} {s : State} (hs : s.Canonical) : (writeRun core est va a s).Canonical := by
  fun_induction writeRun <;> grind only [hwWrite_canonical]

theorem countSaved_canonical {s : State} {h : Nat} (hs : s.Canonical) : (countSaved s h).Canonical :=
  mapQueues_canonical hs fun q => by
    dsimp only
    split <;> rfl

theorem ringUsable_canonical {s : State} {core est : Nat} (hs : s.Canonical) : (ringUsable s core est).2.Canonical := by
  unfold ringUsable
  grind only [hwUsable_canonical]

theorem writeCrew_canonical {s : State} {core h : Nat} (hs : s.Canonical) : (writeCrew s core h).Canonical := by
  unfold writeCrew
  grind only [writeRun_canonical, clearSlot_canonical, returnRing_canonical, hwUsable_canonical, saveFull_canonical, foldl_canonical,
    wf_scratch_coreOf, takeMail_canonical, setEstate_canonical, setTask_canonical, setCore_canonical, setSeat_canonical,
    countSaved_canonical]

theorem spillFinished_canonical {core : Nat} {s : State} {h : Nat} (hs : s.Canonical) : (spillFinished core s h).Canonical := by
  unfold spillFinished
  grind only [areaRecord_canonical, spillTask_canonical, abortFirm_canonical]

theorem moveQueued_canonical {core : Nat} {s : State} (hs : s.Canonical) : (moveQueued core s).Canonical := by
  unfold moveQueued
  grind only [returnRing_canonical, foldl_canonical, wf_scratch_coreOf, setTask_canonical, setCore_canonical]

theorem emptyCore_canonical {s : State} {core : Nat} (hs : s.Canonical) : (emptyCore s core).Canonical := by
  unfold emptyCore
  grind only [moveQueued_canonical, spillFinished_canonical, foldl_canonical, wf_scratch_coreOf]

theorem saveFails_canonical {s : State} {h : Nat} {leaving : Bool} {record : State → State} {t : TrapInfo} (hs : s.Canonical)
    (hrecord : ∀ s : State, s.Canonical → (record s).Canonical) :
    (saveFails s h leaving record t).Canonical := by
  unfold saveFails
  grind only [parkCrew_canonical, exitCrew_canonical]

theorem saveCrew_canonical {s : State} {core h : Nat} {leaving : Bool} (hs : s.Canonical) : (saveCrew s core h leaving).Canonical := by
  unfold saveCrew
  extract_lets crew est cores drained spilled s2 area
  have hdrained : drained.2.Canonical := foldl_snd_canonical (foldl_canonical hs fun _ _ ht => settleSlot_canonical ht) fun p _ hp => by
    grind only [drainStores_canonical]
  have hs2 : s2.Canonical := by grind only [spillTask_canonical]
  have harea : ∀ t : State, t.Canonical → (area t).Canonical := fun t ht => areaRecord_canonical ht
  have hwrite : ∀ t : State, t.Canonical → (cores.foldl emptyCore (writeCrew t core h)).Canonical := fun t ht =>
    foldl_canonical (writeCrew_canonical ht) fun _ _ hu => emptyCore_canonical hu
  clear_value s2 area
  split
  · split
    · exact abortFirm_canonical hs2
    · split
      · exact saveFull_canonical hs2
      · exact saveFails_canonical hs2 fun _ ht => ht
  · exact saveFails_canonical hs2 harea
  · have hring : (ringUsable s2 core est).2.Canonical := ringUsable_canonical hs2
    split <;> rename_i heq <;> rw [heq] at hring
    · exact hwrite _ hring
    · exact saveFails_canonical hring harea

theorem readRun_canonical {core est va a : Nat} {s : State} (hs : s.Canonical) : (readRun core est va a s).2.Canonical := by
  fun_induction readRun <;> grind only [hwRead_canonical]

theorem restoreThread_canonical {h : Nat} {s : State} {core k : Nat} {saved : Nat × Slot × List Queue} {recs : List Nat} (hs : s.Canonical)
    :
    (restoreThread h s core k saved recs).Canonical := by
  unfold restoreThread
  grind only [queueRecord_canonical, wf_scratch_coreOf, parkSlot_canonical, setCore_canonical, closeCombining_canonical, setSlot_canonical]

theorem restoreThreads_canonical {h : Nat} {a : List (Nat × Slot × List Queue)} {a1 : List (Nat × Nat)} {a2 : List Nat} {s : State} (hs :
    s.Canonical) :
    (restoreThreads h a a1 a2 s).Canonical := by
  fun_induction restoreThreads <;> grind only [restoreThread_canonical]

theorem endRestored_canonical {s : State} {p : Nat × Nat} (hs : s.Canonical) : (endRestored s p).Canonical := by
  unfold endRestored
  grind only [replyTo_keeps, wf_scratch_coreOf, parkSlot_canonical, setCore_canonical, replyCallEnd_keeps, reserveEntry_scratch,
    resume_canonical, setSlot_canonical]

theorem loseSeats_canonical {s : State} {h seat : Nat} (hs : s.Canonical) : (loseSeats s h seat).Canonical :=
  foldl_canonical hs fun _ _ ht => mapSavedOf_canonical ht

theorem restoreSeats_canonical {h fuel : Nat} {slots : List Nat} {s : State} (hs : s.Canonical) :
    (restoreSeats h fuel slots s).Canonical := by
  fun_induction restoreSeats <;> grind only [foldl_canonical, loseSeats_canonical, setSeat_canonical, computeRing_canonical]

theorem clearValid_canonical {core est base : Nat} {a : List (Nat × Slot × List Queue)} {a1 : List Nat} {a2 : Nat} {s : State} (hs :
    s.Canonical) :
    (clearValid core est base a a1 a2 s).Canonical := by
  fun_induction clearValid <;> grind only [hwWrite_canonical]

theorem restoreTask_canonical {s : State} {core h : Nat} {slots : List (Nat × Nat)} (hs : s.Canonical) :
    (restoreTask s core h slots).Canonical := by
  unfold restoreTask
  extract_lets t run base cores place
  have hread : (readRun core t.estate base run.2 s).2.Canonical := readRun_canonical hs
  split <;> rename_i heq <;> rw [heq] at hread
  · exact abandonTask_canonical (sinkRecord_canonical hread)
  · extract_lets nThreads s2 seats s3 s4 b t0 t1 s5 s6
    have hs3 : s3.Canonical := restoreSeats_canonical (clearValid_canonical hread)
    have hs4 : s4.Canonical := foldl_canonical hs3 fun _ _ ht => refreshCore_canonical ht
    have hs6 : s6.Canonical := mapCores_canonical (setEstate_canonical hs4) fun _ => rfl
    exact foldl_canonical (restoreThreads_canonical (setTask_canonical hs6)) fun _ _ ht => endRestored_canonical ht

theorem raiseSaved_canonical {s : State} {core h index flags : Nat} (hs : s.Canonical) : (raiseSaved s core h index flags).Canonical := by
  unfold raiseSaved
  grind only [hwWrite_canonical, hwRead_canonical]

theorem mapSaved_canonical {s : State} {f : Slot → Slot} (hs : s.Canonical) : (mapSaved s f).Canonical := hs

/-! ### The functions of Machine/Matrix -/

theorem capabilityTrap_keeps {α : Type} {seat : Nat} : Keeps (capabilityTrap seat : Exec α) := by
  unfold capabilityTrap
  grind only [keeps_trapWith, keeps_trapWith_bind]

theorem checkSeat_keeps {b : Word} {unit : Bool} : Keeps (checkSeat b unit) := by
  unfold checkSeat
  grind only [keeps_pure, setCurCore_canonical, keeps_get_bind, wf_scratch_curCore, keeps_bind, keeps_waitFor, keeps_waitFor_bind,
    keeps_set, capabilityTrap_keeps]

theorem behindDrains_keeps {seat : Nat} : Keeps (behindDrains seat) := by
  unfold behindDrains
  grind only [keeps_pure, keeps_get_bind, keeps_bind, keeps_waitFor, keeps_waitFor_bind]

theorem applySeat_canonical {seat : Nat} {ctx : Option (Word × Word)} {s0 : State} (hs : s0.Canonical) :
    (applySeat seat ctx s0).Canonical := by
  unfold applySeat
  grind only [setSeat_canonical, computeRing_canonical]

theorem sendSeat_keeps {seat : Nat} {ctx : Option (Word × Word)} : Keeps (sendSeat seat ctx) := by
  unfold sendSeat
  grind only [behindDrains_keeps, keeps_modify, keeps_get_bind, endFall_canonical, applySeat_canonical, keeps_bind, keeps_waitFor,
    keeps_waitFor_bind]

theorem startOp_canonical {kind : OpKind} {tile seat : Nat} {regs : List Word} {state : TileState} {s : State} (hs : s.Canonical) :
    (startOp kind tile seat regs state s).Canonical :=
  endFall_canonical (setTile_canonical hs)

theorem mmaTile_canonical {s : State} {core tile : Nat} {status : Option Nat} (hs : s.Canonical) :
    (mmaTile s core tile status).Canonical := by
  unfold mmaTile
  grind only [wf_scratch_coreOf, setTile_canonical]

theorem mmaNext_canonical {core k tile seat : Nat} {rows layout : Word} {done gen : Nat} {s : State} (hs : s.Canonical) :
    (mmaNext core k tile seat rows layout done gen s).Canonical := by
  unfold mmaNext
  grind only [mmaTile_canonical, keeps_modify, endReply_canonical, resume_canonical, setSlot_canonical]

theorem mmaTrap_canonical {core k tile : Nat} {status : Option Nat} {t : TrapInfo} {s : State} (hs : s.Canonical) :
    (mmaTrap core k tile status t s).Canonical := by
  unfold mmaTrap
  grind only [mmaTile_canonical, keeps_modify, keeps_throw, keeps_bind, resume_canonical]

theorem mmaStep_canonical {core k : Nat} {s0 : State} (hs : s0.Canonical) : (mmaStep core k s0).Canonical := by
  unfold mmaStep
  grind only [mmaTrap_canonical, setUnit_canonical, setSeat_canonical, computeRing_canonical, mmaNext_canonical, wf_banks_unitOf]

theorem seatStep_canonical {core k : Nat} {s : State} (hs : s.Canonical) : (seatStep core k s).Canonical := by
  unfold seatStep
  grind only [keeps_modify, keeps_throw, applySeat_canonical, endReply_canonical, resume_canonical]

theorem drain_keeps {clear : Bool} {a b : Reg} {e : EReg} : Keeps (drain clear a b e) := by
  unfold drain
  refine keeps_bind notGarnet_keeps fun _ => keeps_bind useG_keeps fun _ => keeps_get_bind fun s _ => ?_
  extract_lets r goes
  have hgoes : ∀ u, Keeps (goes u) := fun _ => keeps_bind checkSeat_keeps fun _ => keeps_bind namedTile_keeps fun _ =>
    keeps_bind awaitTile_keeps fun _ => keeps_modify fun _ ht => startOp_canonical ht
  split
  · exact keeps_bind illegal_keeps hgoes
  · exact hgoes ()

theorem drainRows_canonical {x : Seat} {r : Word} {place : Home} {a : List Nat} {a1 : Nat} {s : State} (hs : s.Canonical) :
    (drainRows x r place a a1 s).2.Canonical := by
  fun_induction drainRows <;> grind only [foldl_canonical, storeHome_canonical]

theorem raiseIssuer_canonical {o : EngineOp} {flags : Nat} {s : State} (hs : s.Canonical) : (raiseIssuer o flags s).Canonical := by
  unfold raiseIssuer
  grind only [raiseSaved_canonical, setSlot_canonical]

end Sys2Proof.Machine
end

section
/-! SUPPORT. Paging, crews, the cadastre and the system keep the form of the memories; O60. -/

namespace Sys2Proof.Machine

/-! ### The functions of Machine/Paging -/

theorem writePte_canonical {p0 p1 : Word} {s : State} {e : Nat} (hs : s.Canonical) : (writePte p0 p1 s e).Canonical := by
  unfold writePte
  grind only [storeOwn_canonical]

theorem zeroTable_canonical {s : State} {pa : Nat} (hs : s.Canonical) : (zeroTable s pa).Canonical :=
  foldl_canonical hs fun _ _ ht => storeOwn_canonical ht

theorem invalidatePort_canonical {line : Nat} {s : State} {port : Nat} (hs : s.Canonical) : (invalidatePort line s port).Canonical := hs

theorem shootNow_canonical {s : State} {lines : List Nat} (hs : s.Canonical) : (shootNow s lines).Canonical := by
  unfold shootNow
  grind only [invalidatePort_canonical, foldl_canonical]

theorem endTable_canonical {d : Reg} {status : Nat} {s : State} (hs : s.Canonical) : (endTable d status s).Canonical := by
  unfold endTable
  grind only [putG_canonical, endFall_canonical, addWb_canonical]

theorem endShoot_keeps {d : Reg} {status : Nat} {lines : List Nat} : Keeps (endShoot d status lines) := by
  unfold endShoot
  grind only [shootNow_canonical, keeps_modify, canonical_iff, keeps_get_bind, keeps_bind, endTable_canonical, keeps_waitFor,
    keeps_waitFor_bind]

theorem emptyBuffer_keeps  : Keeps (emptyBuffer) := by
  unfold emptyBuffer
  grind only [keeps_pure, keeps_get_bind, keeps_bind, keeps_waitFor, keeps_waitFor_bind]

theorem removeMappings_canonical {s : State} {est f : Nat} (hs : s.Canonical) : (removeMappings s est f).Canonical := by
  unfold removeMappings
  grind only [writePte_canonical, shootNow_canonical, canonical_iff, foldl_canonical]

theorem pageFails_canonical {token : Nat} {s : State} {p : Nat × Nat × Slot} (hs : s.Canonical) : (pageFails token s p).Canonical :=
  parkSlot_canonical hs

theorem markSaved_canonical {fail : Bool} {est token : Nat} {s : State} (hs : s.Canonical) : (markSaved fail est token s).Canonical :=
  mapCores_canonical hs fun c => by
    dsimp only
    split <;> rfl

theorem wakeToken_canonical {fail : Bool} {s : State} {est token : Nat} (hs : s.Canonical) : (wakeToken fail s est token).Canonical := by
  unfold wakeToken
  grind only [pageFails_canonical, markSaved_canonical, canonical_iff, endOp_canonical, foldl_canonical]

theorem wakeWith_keeps {fail : Bool} {a : Reg} : Keeps (wakeWith fail a) := by
  unfold wakeWith
  grind only [keeps_modify, useG_keeps, endFall_canonical, addWb_canonical, keeps_bind]

/-! ### The functions of Machine/Crew -/

theorem loadOperand_keeps {sg : Nat} {off : Int} {n align : Nat} : Keeps (loadOperand sg off n align) := by
  unfold loadOperand
  grind only [keeps_pure, keeps_modify, canonical_iff, keeps_get_bind, loadBytes_keeps, keeps_bind, checkAccess_keeps]

theorem spawnIllegal_keeps {α : Type} {aux : Nat} : Keeps (spawnIllegal aux : Exec α) := by
  unfold spawnIllegal
  grind only [keeps_trapWith, keeps_trapWith_bind]

theorem findRecord_canonical {s : State} {core est : Nat} (hs : s.Canonical) : (findRecord s core est).2.Canonical := by
  unfold findRecord
  grind only [areaRecord_canonical, hwUsable_canonical]

theorem freshHandle_canonical {s : State} {est : Nat} (hs : s.Canonical) : (freshHandle s est).2.Canonical := hs

theorem createTask_canonical {s : State} {core : Nat} {t : Task} {root : Option Nat} {push : State → Task → Bool × State} (hs :
    s.Canonical) (hpush : ∀ (s : State) (t : Task), s.Canonical → (push s t).2.Canonical) :
    (createTask s core t root push).2.Canonical := by
  unfold createTask
  grind only [canonical_iff, findRecord_canonical, freshHandle_canonical, setEstate_canonical, setTask_canonical, hwWrite_canonical]

theorem threadDone_keeps  : Keeps (threadDone) := by
  unfold threadDone
  grind only [illegal_keeps, keeps_get_bind, keeps_bind, keeps_waitFor, keeps_waitFor_bind, keeps_set, endAt_canonical]

theorem threadExit_keeps  : Keeps (threadExit) := by
  unfold threadExit
  grind only [keeps_modify, endAt_canonical]

theorem endSlot_canonical {s : State} {core k : Nat} {tdone : Bool} (hs : s.Canonical) : (endSlot s core k tdone).Canonical := by
  unfold endSlot
  grind only [clearSlot_canonical, orphanOps_canonical, endThread_canonical, startKeeper_canonical, endHandler_canonical]

theorem barWaitFor_keeps {α : Type} {n : Nat} : Keeps (barWaitFor n : Exec α) := by
  unfold barWaitFor
  grind only [keeps_waitFor, keeps_waitFor_bind]

theorem checkCrew_keeps  : Keeps (checkCrew) := by
  unfold checkCrew
  grind only [keeps_pure, illegal_keeps, keeps_get_bind, keeps_bind]

theorem arrived_canonical {s : State} {core k n : Nat} (hs : s.Canonical) : (arrived s core k n).Canonical :=
  completePhase_canonical (setSlot_canonical hs)

theorem arrive_keeps {n : Nat} : Keeps (arrive n) := by
  unfold arrive
  grind only [barWaitFor_keeps, keeps_modify, keeps_get_bind, addWb_canonical, keeps_bind, keeps_waitFor, keeps_waitFor_bind]

theorem applyThread_canonical {core : Nat} {s : State} {b : Wb} (hs : s.Canonical) : (applyThread core s b).Canonical := by
  unfold applyThread
  grind only [wakeToken_canonical, endSlot_canonical, arrived_canonical, postUint_canonical, endHandler_canonical]

theorem flushThreads_canonical {core : Nat} {s : State} (hs : s.Canonical) : (flushThreads core s).Canonical := by
  unfold flushThreads
  grind only [foldl_canonical, wf_scratch_coreOf, setCore_canonical, applyThread_canonical]

theorem clearPushed_canonical {core : Nat} {s : State} (hs : s.Canonical) : (clearPushed core s).Canonical := by
  unfold clearPushed
  grind only [foldl_canonical, wf_scratch_coreOf, startKeeper_canonical, setSlot_canonical]

/-! ### The functions of Machine/Cadastre -/

theorem cadTrap_keeps {α : Type} {parcel cause : Nat} : Keeps (cadTrap parcel cause : Exec α) := by
  unfold cadTrap
  grind only [keeps_trapWith, keeps_trapWith_bind]

theorem notHeld_keeps {α : Type} {parcel : Nat} : Keeps (notHeld parcel : Exec α) := by
  unfold notHeld
  grind only [keeps_trapWith, keeps_trapWith_bind]

theorem cadSend_keeps {p : Nat} : Keeps (cadSend p) := by
  unfold cadSend
  grind only [keeps_pure, keeps_get_bind, emptyBuffer_keeps, firm_keeps, keeps_bind, keeps_waitFor, keeps_waitFor_bind]

theorem cadGood_keeps {p : Nat} : Keeps (cadGood p) := by
  unfold cadGood
  grind only [keeps_pure, cadTrap_keeps]

theorem cadRetired_keeps {p : Nat} : Keeps (cadRetired p) := by
  unfold cadRetired
  grind only [keeps_pure, keeps_get_bind, cadTrap_keeps, keeps_bind]

theorem cadFinish_keeps {d : Reg} {parcel status : Nat} {first : optParam Nat 0} {out : optParam (List Word) []} :
    Keeps (cadFinish d parcel status first out) := by
  unfold cadFinish
  grind only [keeps_modify, setCurCore_canonical, keeps_get_bind, putG_canonical, putERun_canonical, endFall_canonical, wf_scratch_curCore,
    keeps_bind, keeps_waitFor, keeps_waitFor_bind, closeCombining_canonical]

theorem cadAwait_keeps {d : Reg} {parcel : Nat} {wait : Bool} : Keeps (cadAwait d parcel wait) := by
  unfold cadAwait
  grind only [keeps_waitFor, keeps_waitFor_bind]

theorem notifyCad_canonical {s : State} {p : Nat} (hs : s.Canonical) : (notifyCad s p).Canonical := by
  unfold notifyCad
  grind only [replyCad_keeps, foldl_canonical, mapSaved_canonical, resume_canonical, setSlot_canonical]

theorem notifyEscheat_canonical {s : State} (hs : s.Canonical) : (notifyEscheat s).Canonical := by
  unfold notifyEscheat
  grind only [notifyCad_canonical, foldl_canonical]

theorem dropEasements_canonical {s : State} {p leaver : Nat} (hs : s.Canonical) : (dropEasements s p leaver).Canonical := hs

theorem leaveFrame_canonical {s : State} {f leaver : Nat} (hs : s.Canonical) : (leaveFrame s f leaver).Canonical := by
  unfold leaveFrame
  grind only [setEstate_canonical, removeMappings_canonical]

theorem beginLeave_canonical {s : State} {p leaver : Nat} (hs : s.Canonical) : (beginLeave s p leaver).Canonical := by
  unfold beginLeave
  grind only [abortTasks_canonical, requestCore_canonical, dropEasements_canonical, leaveFrame_canonical]

theorem returnStatus_canonical {core : Nat} {s : State} (hs : s.Canonical) : (returnStatus core s).Canonical := by
  unfold returnStatus
  grind only [replyCad_keeps, foldl_canonical, resume_canonical]

theorem endUnreadable_canonical {core h : Nat} {s : State} (hs : s.Canonical) : (endUnreadable core h s).Canonical := by
  unfold endUnreadable
  grind only [endThread_canonical, sinkRecord_canonical, foldl_canonical]

theorem vacateWork_canonical {core : Nat} {s : State} (hs : s.Canonical) : (vacateWork core s).Canonical := by
  unfold vacateWork
  grind only [saveCrew_canonical, spillFinished_canonical, foldl_canonical, wf_scratch_coreOf, endUnreadable_canonical]

theorem leaveWork_canonical {s : State} {p : Nat} (hs : s.Canonical) : (leaveWork s p).Canonical := by
  unfold leaveWork
  grind only [vacateWork_canonical]

theorem vacateCore_canonical {core : Nat} {s3 : State} (hs : s3.Canonical) : (vacateCore core s3).Canonical := by
  unfold vacateCore
  grind only [moveQueued_canonical, clearSlot_canonical, orphanOps_canonical, foldl_canonical, wf_scratch_coreOf, freeRecord_canonical,
    drainStores_canonical]

theorem finishLeave_canonical {s : State} {p : Nat} (hs : s.Canonical) : (finishLeave s p).Canonical := by
  unfold finishLeave
  grind only [vacateCore_canonical, dropEasements_canonical, leaveFrame_canonical]

theorem failOps_canonical {which : EngineOp → Bool} {s : State} (hs : s.Canonical) : (failOps which s).Canonical :=
  foldl_canonical hs fun _ _ ht => endOp_canonical ht

theorem discardOps_canonical {core : Nat} {s : State} (hs : s.Canonical) : (discardOps core s).Canonical := by
  unfold discardOps
  grind only [canonical_iff, foldl_canonical, finishAbort_canonical]

theorem beginScrub_canonical {s : State} {p : Nat} (hs : s.Canonical) : (beginScrub s p).Canonical := by
  unfold beginScrub
  grind only [canonical_iff, noteLine_canonical, foldl_canonical, sendNumbered_canonical]

theorem scrub_canonical {s : State} {p : Nat} (hs : s.Canonical) : (scrub s p).Canonical := by
  unfold scrub
  extract_lets i s1
  split
  · exact setCore_canonical (discardOps_canonical hs) rfl
  · exact setUnit_canonical hs fun _ hb => nomatch hb
  · exact setUnit_canonical hs (wf_banks_unitOf hs _)
  · exact hs.withHbm (zeroFill_wf _ _ _ (wf_hbm hs))
  · exact hs.withCommons (zeroFill_wf _ _ _ (wf_commons hs))
  · exact setQueue_canonical hs rfl
  · exact failOps_canonical hs
  · exact hs

theorem carry_canonical {s : State} {p : Nat} (hs : s.Canonical) : (carry s p).Canonical := by
  unfold carry
  grind only [wf_scratch_coreOf, setCore_canonical]

theorem endHalt_canonical {p : Nat} {s : State} (hs : s.Canonical) : (endHalt p s).Canonical := by
  unfold endHalt
  grind only [canonical_iff]

theorem endTransfer_canonical {s : State} {p : Nat} (hs : s.Canonical) : (endTransfer s p).Canonical := by
  unfold endTransfer
  grind only [notifyCad_canonical, carry_canonical, scrub_canonical, finishLeave_canonical, notifyEscheat_canonical, setEntry_canonical,
    endHalt_canonical]

theorem endLeave_canonical {s : State} {p : Nat} (hs : s.Canonical) : (endLeave s p).Canonical := by
  unfold endLeave
  grind only [finishLeave_canonical, beginScrub_canonical, notifyEscheat_canonical, setEntry_canonical]

theorem beginReversion_canonical {s : State} {p : Nat} (hs : s.Canonical) : (beginReversion s p).Canonical := beginLeave_canonical hs

theorem offer_keeps {d a b : Reg} {loan : Option Word} {wipe : Bool} : Keeps (offer d a b loan wipe) := by
  unfold offer
  refine keeps_bind useG_keeps fun _ => keeps_get_bind fun _ _ => keeps_bind cadSend_keeps fun _ => keeps_get_bind fun s hs =>
    keeps_bind cadGood_keeps fun _ => keeps_guard cadTrap_keeps fun _ => keeps_guard cadTrap_keeps fun _ => keeps_guard cadTrap_keeps fun _
        =>
    keeps_bind cadRetired_keeps fun _ => keeps_guard cadTrap_keeps fun _ => keeps_guard notHeld_keeps fun _ => ?_
  split
  · exact cadFinish_keeps
  · split
    · exact cadFinish_keeps
    · exact keeps_bind (keeps_set (setEntry_canonical hs)) fun _ => cadFinish_keeps

theorem cadParcel_keeps {d a : Reg} : Keeps (cadParcel d a) := by
  unfold cadParcel
  grind only [keeps_pure, keeps_get_bind, useG_keeps, cadGood_keeps, cadSend_keeps, keeps_bind]

theorem startNotice_canonical {s : State} {core p : Nat} {x : Entry} {source : Nat} (hs : s.Canonical) :
    (startNotice s core p x source).Canonical := by
  unfold startNotice
  grind only [requestCore_canonical, sinkRecord_canonical, setEntry_canonical]

theorem reclaim_keeps {wait : Bool} {d a : Reg} : Keeps (reclaim wait d a) := by
  unfold reclaim
  grind only [cadParcel_keeps, keeps_get_bind, notHeld_keeps, startNotice_canonical, cadAwait_keeps, cadRetired_keeps, keeps_bind,
    cadFinish_keeps, keeps_set]

theorem endNotice_canonical {s : State} {core : Nat} (hs : s.Canonical) : (endNotice s core).Canonical := by
  unfold endNotice
  grind only [beginReversion_canonical]

theorem yielded_canonical {s : State} {h : Nat} (hs : s.Canonical) : (yielded s h).Canonical := by
  unfold yielded
  grind only [saveCrew_canonical, foldl_canonical, endNotice_canonical]

theorem yieldTurn_keeps  : Keeps (yieldTurn) := by
  unfold yieldTurn
  grind only [yielded_canonical, keeps_get_bind, endFall_canonical, setCurSlot_canonical, keeps_bind, keeps_set]

theorem openPart_canonical {s : State} {q id : Nat} (hs : s.Canonical) : (openPart s q id).Canonical := hs

theorem dropEstates_canonical {s : State} {set : List Nat} (hs : s.Canonical) : (dropEstates s set).Canonical :=
  mapCores_canonical hs fun _ => rfl

theorem dissolve_canonical {s : State} {set : List Nat} {receiver : Nat} (hs : s.Canonical) : (dissolve s set receiver).Canonical :=
  dropEstates_canonical hs

/-! ### The functions of Machine/System -/

theorem emptyDeque_canonical {core a : Nat} {s : State} (hs : s.Canonical) : (emptyDeque core a s).2.Canonical := by
  fun_induction emptyDeque <;> grind only [spillDeque_canonical, wf_scratch_coreOf]

theorem writeDeque_keeps {v base lim : Word} {act : Word → WbAct} : Keeps (writeDeque v base lim act) := by
  unfold writeDeque
  grind only [illegal_keeps, keeps_modify, keeps_get_bind, endFall_canonical, wf_scratch_coreOf, emptyDeque_canonical, keeps_trapWith,
    keeps_trapWith_bind, setCore_canonical, addWb_canonical, keeps_bind, keeps_waitFor, keeps_waitFor_bind, keeps_set]

theorem putState_keeps {f : Slot → Slot} : Keeps (putState f) := by
  unfold putState
  grind only [keeps_modify, endFall_canonical, setCurSlot_canonical]

theorem keeperOnly_keeps  : Keeps (keeperOnly) := by
  unfold keeperOnly
  grind only [keeps_pure, illegal_keeps, keeps_get_bind, keeps_bind]

theorem servedSlot_keeps {a : Word} : Keeps (servedSlot a) := by
  unfold servedSlot
  grind only [keeps_pure, illegal_keeps]

theorem exitSlot_canonical {s : State} {core k : Nat} (hs : s.Canonical) : (exitSlot s core k).Canonical := by
  unfold exitSlot
  grind only [dropRecords_scratch, clearSlot_canonical, orphanOps_canonical, endThread_canonical, wf_scratch_coreOf, setCore_canonical,
    endHandler_canonical]

theorem kretSaved_canonical {s : State} {core : Nat} {r : Resumption} {h index : Nat} (hs : s.Canonical) :
    (kretSaved s core r h index).Canonical := by
  unfold kretSaved
  grind only [hwWrite_canonical, hwRead_canonical]

theorem kretSlot_canonical {s : State} {core k : Nat} {r : Resumption} (hs : s.Canonical) : (kretSlot s core k r).Canonical := by
  unfold kretSlot
  grind only [dropRecords_scratch, kretSaved_canonical, foldl_canonical, wf_scratch_coreOf, setCore_canonical, setSlot_canonical]

theorem kret_keeps {a : Reg} {srcs : List Reg} {how : State → Resumption} : Keeps (kret a srcs how) := by
  unfold kret
  grind only [keeps_get_bind, useG_keeps, endFall_canonical, keeperOnly_keeps, servedSlot_keeps, kretSlot_canonical, keeps_bind, keeps_set]

theorem syscArg_keeps {desc : Word} {i : Nat} : Keeps (syscArg desc i) := by
  unfold syscArg
  refine keeps_get_bind fun s hs => keeps_bind readable_keeps fun _ => ?_
  dsimp only
  split
  · exact keeps_pure _
  · refine keeps_guard (keeps_trapWith _ _ _ _) fun _ => keeps_guard (keeps_trapWith _ _ _ _) fun _ => keeps_guard (keeps_trapWith _ _ _ _)
      fun _ =>
      keeps_bind (keeps_set (xlate_canonical hs)) fun _ => ?_
    split
    · exact pageFault_keeps
    · exact keeps_guard (keeps_trapWith _ _ _ _) fun _ => keeps_pure _

theorem syscArgs_keeps {desc : Word} {is : List Nat} : Keeps (syscArgs desc is) := by
  induction is with
  | nil => exact keeps_pure _
  | cons i is ih => exact keeps_bind syscArg_keeps fun _ => keeps_bind ih fun _ => keeps_pure _

theorem sendMsi_canonical {s : State} {part vector : Nat} {v : Word} (hs : s.Canonical) : (sendMsi s part vector v).Canonical := hs

theorem setJasper_canonical {s : State} {j : Nat} {x : Jasper} (hs : s.Canonical) : (setJasper s j x).Canonical := hs

theorem jasperSink_canonical {s : State} {core : Nat} {r : TrapRec} (hs : s.Canonical) : (jasperSink s core r).2.Canonical := by
  unfold jasperSink
  grind only [hwPlace_canonical, sinkRecord_canonical, sinkDrop_canonical]

theorem jasperEnds_canonical {s : State} {core slot : Nat} {r : TrapRec} (hs : s.Canonical) : (jasperEnds s core slot r).Canonical := by
  unfold jasperEnds
  grind only [foldl_canonical, wf_scratch_coreOf, setCore_canonical, exitSlot_canonical, jasperSink_canonical]

theorem haltCluster_canonical {s : State} {cluster : Nat} {r : TrapRec} (hs : s.Canonical) : (haltCluster s cluster r).Canonical := hs

theorem jasperHandles_canonical {s : State} {core slot : Nat} {r : TrapRec} (hs : s.Canonical) :
    (jasperHandles s core slot r).2.Canonical := by
  unfold jasperHandles
  grind only [haltCluster_canonical, jasperEnds_canonical, jasperSink_canonical]

theorem jasperTakes_canonical {s : State} {j : Nat} {m : Mail} (hs : s.Canonical) : (jasperTakes s j m).Canonical := by
  unfold jasperTakes
  grind only [jasperHandles_canonical, setJasper_canonical]

theorem passMail_canonical {n : Nat} {s : State} {m : Nat × Mail} (hs : s.Canonical) : (passMail n s m).Canonical := by
  unfold passMail
  grind only [wf_scratch_coreOf, setCore_canonical, setJasper_canonical]

end Sys2Proof.Machine
end

section
/-! SUPPORT. Boot, Garnet and the host keep the form of the memories; O60. -/

namespace Sys2Proof.Machine

/-! ### The functions of Machine/Boot -/

/-- Another canonical memory for the host's. -/
theorem withHost_canonical {s : State} {o : Memory} (hs : s.Canonical) (ho : Memory.wf o = true) : { s with host := o }.Canonical :=
  hs.withHost ho

theorem snoopHost_canonical {inv : Bool} {s : State} {line : Nat} (hs : s.Canonical) : (snoopHost inv s line).Canonical := by
  unfold snoopHost
  split
  · exact hs
  next r _ =>
    have hwritten : Memory.wf (memWrite s.host (64 * line) r.data.toNat 64) = true := memWrite_wf _ _ _ _ (wf_host hs)
    extract_lets s1
    have hs1 : s1.Canonical := by
      dsimp only [s1]
      split
      · exact withHost_canonical hs hwritten
      · exact hs
    clear_value s1
    grind only [rlcDrop_canonical, rlcSet_canonical]

theorem hostRead_canonical {s : State} {pa n : Nat} (hs : s.Canonical) : (hostRead s pa n).2.Canonical :=
  foldl_canonical hs fun _ _ ht => snoopHost_canonical ht

theorem hostWrite_canonical {s : State} {pa n data : Nat} (hs : s.Canonical) : (hostWrite s pa n data).Canonical := by
  unfold hostWrite
  grind only [snoopHost_canonical, foldl_canonical, setHost_canonical]

theorem writeBackHost_canonical {s : State} (hs : s.Canonical) : (writeBackHost s).Canonical :=
  foldl_canonical hs fun _ _ ht => snoopHost_canonical ht

theorem rebooted_canonical {s : State} {okA okB : Bool} {links : BootLinks} (hs : s.Canonical) : (rebooted s okA okB links).Canonical := by
  unfold rebooted
  extract_lets passes copy ends r s1 ports
  have hreset := reset_canonical.withHost (wf_host hs)
  have hs1 : s1.Canonical := hreset
  split
  · exact hs1
  · exact hs1

theorem beginRetirement_canonical {s : State} {p : Nat} (hs : s.Canonical) : (beginRetirement s p).Canonical := by
  unfold beginRetirement
  grind only [startNotice_canonical, setEntry_canonical, beginReversion_canonical]

theorem restartPrincipal_canonical {s : State} {abandon : State → Nat → State} (hs : s.Canonical)
    (habandon : ∀ (s : State) (n : Nat), s.Canonical → (abandon s n).Canonical) : (restartPrincipal s abandon).Canonical := by
  unfold restartPrincipal
  have hqueues := foldl_canonical hs (l := s.queues.filter (fun q => q.2.busy.isSome)) fun t q ht => habandon t q.1 ht
  exact foldl_canonical (setCore_canonical (x := {}) hqueues rfl) fun _ _ ht => requestCrew_canonical ht

/-! ### The functions of Machine/Control -/

theorem branch_keeps {cc : Cond} {a b : Reg} {off : Int} : Keeps (branch cc a b off) := by
  unfold branch
  grind only [keeps_modify, endGoto_canonical, useG_keeps, endFall_canonical, keeps_bind]

theorem jumpReg_keeps {d a : Reg} : Keeps (jumpReg d a) := by
  unfold jumpReg
  grind only [endGoto_canonical, keeps_get_bind, putG_canonical, useG_keeps, keeps_trapWith, keeps_trapWith_bind, keeps_bind, keeps_set]

theorem loopTrap_keeps {α : Type} : Keeps (loopTrap : Exec α) := by
  unfold loopTrap
  grind only [keeps_trapWith, keeps_trapWith_bind]

theorem readBody_keeps {start : Word} {n a a1 a2 : Nat} : Keeps (readBody start n a a1 a2) := by
  induction a generalizing a1 a2 with
  | zero => exact keeps_pure _
  | succ fuel ih =>
    unfold readBody
    grind only [keeps_pure, keeps_bind, fetchHalf_keeps]

theorem loopExit_keeps  : Keeps (loopExit) := by
  unfold loopExit
  grind only [keeps_get_bind, commitPops_canonical, setCurSlot_canonical, keeps_bind, keeps_set, loopTrap_keeps]

/-! ### The functions of Machine/Garnet -/

theorem writeTail_canonical {s : State} {q value : Nat} (hs : s.Canonical) : (writeTail s q value).Canonical := by
  unfold writeTail
  grind only [setQueue_canonical, wf_bytes_queueOf]

theorem takeHead_canonical {s : State} {q : Nat} (hs : s.Canonical) : (takeHead s q).Canonical :=
  setQueue_canonical hs (wf_bytes_queueOf hs _)

theorem takeItem_canonical {s : State} {est : Nat} {i : ServiceItem} (hs : s.Canonical) {t : State} (ht : takeItem s est i = some t) :
    t.Canonical := by
  unfold takeItem at ht
  grind only [setQueue_canonical, wf_bytes_queueOf, setPart_canonical]

theorem takeCall_canonical {s t : State} {core slot n est token : Nat} {args : List Word} (hs : s.Canonical)
    (ht : takeCall s core slot n = some (est, token, args, t)) : t.Canonical := by
  obtain ⟨l₁, p, l₂, -, hp, -⟩ := List.findSome?_eq_some_iff.1 ht
  obtain ⟨l₃, i, l₄, -, hi, -⟩ := List.findSome?_eq_some_iff.1 hp
  split at hi
  · obtain ⟨-, hi⟩ := Option.ite_none_right_eq_some.1 hi
    obtain ⟨s1, hs1, heq⟩ := Option.map_eq_some_iff.1 hi
    cases heq
    exact takeItem_canonical hs hs1
  · cases hi

theorem notifyDone_canonical {s : State} {part : Nat} {d7 : Word} (hs : s.Canonical) : (notifyDone s part d7).Canonical := by
  unfold notifyDone
  grind only [sendMsi_canonical]

theorem endCommand_canonical {s : State} {q rec status : Nat} {cad committed : optParam Nat 0} (hs : s.Canonical) :
    (endCommand s q rec status cad committed).Canonical := by
  unfold endCommand
  grind only [notifyDone_canonical, takeHead_canonical, hostWrite_canonical]

theorem writeJob_canonical {s : State} {j : Job} {status : Nat} (hs : s.Canonical) : (writeJob s j status).2.Canonical := by
  unfold writeJob
  grind only [hwWrite_canonical]

theorem endJob_canonical {s : State} {j : Job} {status : Nat} (hs : s.Canonical) : (endJob s j status).Canonical := by
  unfold endJob
  grind only [areaRecord_canonical, writeJob_canonical, notifyDone_canonical]

theorem resetPartition_canonical {s : State} {p : Nat} (hs : s.Canonical) : (resetPartition s p).Canonical := by
  unfold resetPartition
  grind only [writeJob_canonical, foldl_canonical, notifyDone_canonical, setPart_canonical, dissolve_canonical, writeBackHost_canonical]

theorem estateRead_canonical {s : State} {est va n a : Nat} (hs : s.Canonical) : (estateRead s est va n a).2.Canonical := by
  fun_induction estateRead <;> grind only [xlate_canonical, hwLoad_canonical, prepare_canonical]

theorem rootOf_canonical {s : State} {est rec : Nat} (hs : s.Canonical) : (rootOf s est rec).2.Canonical := by
  unfold rootOf
  grind only [estateRead_canonical]

theorem giveRun_canonical {dest a a1 : Nat} {s : State} (hs : s.Canonical) : (giveRun dest a a1 s).2.Canonical := by
  fun_induction giveRun <;> grind only [setEntry_canonical]

theorem spareRow_canonical {s : State} {frame row : Nat} (hs : s.Canonical) : (spareRow s frame row).Canonical := hs

theorem setPort_canonical {s : State} {p : Nat} {x : FabricPort} (hs : s.Canonical) : (setPort s p x).Canonical := hs

theorem abandonCommand_canonical {s : State} {q : Nat} (hs : s.Canonical) : (abandonCommand s q).Canonical := by
  unfold abandonCommand
  grind only [endCommand_canonical]

theorem endCall_canonical {s : State} {token : Nat} {r : CallEnd} (hs : s.Canonical) : (endCall s token r).Canonical := by
  unfold endCall
  grind only [mapSaved_canonical, replyCallEnd_keeps, resume_canonical, setSlot_canonical]

theorem endCallWith_canonical {s : State} {token : Nat} {v : Word} (hs : s.Canonical) : (endCallWith s token v).Canonical :=
  endCall_canonical hs

theorem changePte_canonical {s : State} {e : Nat} {p0 p1 : Word} (hs : s.Canonical) : (changePte s e p0 p1).Canonical :=
  shootNow_canonical (writePte_canonical hs)

theorem putLeaves_canonical {s : State} {est va len : Nat} {p0 : Word} (hs : s.Canonical) : (putLeaves s est va len p0).Canonical := by
  unfold putLeaves
  grind only [foldl_canonical, changePte_canonical]

theorem syncMapping_canonical {s : State} {m : Mapped} (hs : s.Canonical) : (syncMapping s m).2.Canonical := by
  refine foldl_snd_canonical hs fun p v hp => ?_
  grind only [changePte_canonical]

theorem placeRecord_canonical {s : State} {q rec : Nat} (hs : s.Canonical) : (placeRecord s q rec).2.Canonical := by
  have hbytes := memWrite_wf 64 (queueOf s q).bytes (64 * ((queueOf s q).tail % 32)) rec (wf_bytes_queueOf hs q)
  unfold placeRecord
  dsimp only
  split
  · exact hs
  · generalize memWrite (queueOf s q).bytes _ rec 64 = bytes at hbytes ⊢
    exact setQueue_canonical hs hbytes

theorem writePage_canonical {est pa : Nat} {a : List Byte} {a1 : Nat} {s : State} (hs : s.Canonical) :
    (writePage est pa a a1 s).Canonical := by
  fun_induction writePage <;> grind only [hwStore_canonical]

/-! ### The functions of Machine/Link -/

theorem grantLine_canonical {s : State} {line : Nat} {grant : Grant} {value : Option Packet} (hs : s.Canonical) :
    (grantLine s line grant value).Canonical := by
  unfold grantLine
  grind only [rlcSet_canonical, setHost_canonical]

theorem setFreq_canonical {s : State} {island freq : Nat} (hs : s.Canonical) : (setFreq s island freq).Canonical := hs

theorem sliceSwap_canonical {commons : Bool} {die logical : Nat} {s : State} (hs : s.Canonical) :
    (sliceSwap commons die logical s).Canonical := by
  unfold sliceSwap
  grind only [canonical_iff, foldl_canonical]

theorem countUnit_canonical {commons : Bool} {die logical : Nat} {s : State} (hs : s.Canonical) :
    (countUnit commons die logical s).Canonical := by
  unfold countUnit
  grind only [canonical_iff, sliceSwap_canonical]

end Sys2Proof.Machine
end

section
/-! SUPPORT. The directory, the fabric and the scheduler keep the form of the memories; O60. -/

namespace Sys2Proof.Machine

/-! ### The functions of Machine/Directory -/

theorem unsend_canonical {s : State} {m : FabricMsg} {src : Nat} (hs : s.Canonical) : (unsend s m src).Canonical := by
  unfold unsend
  grind only [canonical_iff]

theorem received_canonical {s : State} {m : FabricMsg} (hs : s.Canonical) : (received s m).Canonical := unsend_canonical hs

theorem post_canonical {dst : Nat} {m : FabricMsg} {s : State} (hs : s.Canonical) : (post dst m s).Canonical := hs

theorem stewardRequest_canonical {dst : Nat} {op : RemoteOp} {line : Option (Nat × Nat)} {s : State} (hs : s.Canonical) :
    (stewardRequest dst op line s).Canonical :=
  hs

theorem dirPut_canonical {s : State} {d : DirEntry} (hs : s.Canonical) : (dirPut s d).Canonical := hs

theorem dirSet_canonical {s : State} {d : DirEntry} (hs : s.Canonical) : (dirSet s d).Canonical := by
  unfold dirSet
  grind only [dirPut_canonical, stewardRequest_canonical]

theorem sendInvs_canonical {q : Nat} {d : DirEntry} {dest : List Nat} {s : State} (hs : s.Canonical) : (sendInvs q d dest s).Canonical :=
  foldl_canonical hs fun _ _ ht => post_canonical ht

theorem wakeLine_canonical {s : State} {home line : Nat} (hs : s.Canonical) : (wakeLine s home line).Canonical := by
  unfold wakeLine
  grind only [replyTo_keeps, requestLine_canonical, foldl_canonical, resume_canonical]

theorem completeLine_canonical {s : State} {r : RlcLine} {g : Grant} (hs : s.Canonical) : (completeLine s r g).Canonical :=
  wakeLine_canonical hs

theorem giveUp_canonical {s : State} {r : RlcLine} (hs : s.Canonical) : (giveUp s r).Canonical := by
  unfold giveUp
  grind only [rlcDrop_canonical, rlcSet_canonical, noteLine_canonical]

theorem repeatData_canonical {s : State} {q home line : Nat} (hs : s.Canonical) : (repeatData s q home line).Canonical := by
  unfold repeatData
  grind only [post_canonical]

theorem giveUpRest_canonical {s : State} {home line : Nat} (hs : s.Canonical) : (giveUpRest s home line).Canonical := by
  unfold giveUpRest
  grind only [giveUp_canonical]

theorem sendPut_canonical {w home line : Nat} {msg : Nat → FabricMsg} {s : State} (hs : s.Canonical) :
    (sendPut w home line msg s).Canonical :=
  hs

theorem evictLine_canonical {home line : Nat} {s : State} (hs : s.Canonical) : (evictLine home line s).Canonical := by
  unfold evictLine
  grind only [rlcDrop_canonical, rlcSet_canonical, sendPut_canonical]

theorem endTransaction_canonical {s : State} {d : DirEntry} {dirty : Bool} (hs : s.Canonical) : (endTransaction s d dirty).Canonical := by
  unfold endTransaction
  grind only [dirSet_canonical]

theorem failTo_canonical {s : State} {q home line : Nat} {r : Reply} (hs : s.Canonical) : (failTo s q home line r).Canonical := by
  unfold failTo
  grind only [post_canonical, failLine_canonical]

theorem readHome_canonical {s : State} {d : DirEntry} {q : Nat} (hs : s.Canonical) : (readHome s d q).Canonical := by
  unfold readHome
  grind only [stewardRequest_canonical, failTo_canonical, dirSet_canonical]

theorem begin_exclusive_canonical {s : State} {d : DirEntry} {q : Nat} {owned : Bool} (hs : s.Canonical) :
    (begin.exclusive s d q owned).Canonical := by
  unfold begin.exclusive
  grind only [dirSet_canonical, post_canonical, failTo_canonical, sendInvs_canonical, readHome_canonical]

theorem begin_canonical {s : State} {d : DirEntry} {r : DirReq} (hs : s.Canonical) : (begin s d r).Canonical := by
  unfold begin
  cases r with
  | getS q => grind only [dirSet_canonical, readHome_canonical, post_canonical]
  | getM q => exact begin_exclusive_canonical hs
  | upgrade q => exact begin_exclusive_canonical hs
  | put p data x => grind only [dirSet_canonical, dirPut_canonical, post_canonical, endTransaction_canonical, stewardRequest_canonical]
  | recallLine => grind only [dirSet_canonical, sendInvs_canonical, post_canonical, endTransaction_canonical]
  | lose p => exact stewardRequest_canonical (dirSet_canonical hs)

theorem advance_canonical {s : State} {home line : Nat} (hs : s.Canonical) : (advance s home line).Canonical := by
  unfold advance
  grind only [begin_canonical]

theorem pump_canonical {a : Nat} {s : State} (hs : s.Canonical) : (pump a s).Canonical := by
  fun_induction pump <;> grind only [advance_canonical, foldl_canonical]

theorem pumpAll_canonical {s : State} (hs : s.Canonical) : (pumpAll s).Canonical := pump_canonical hs

theorem serve_canonical {s : State} {home line : Nat} {r : DirReq} (hs : s.Canonical) : (serve s home line r).Canonical :=
  pumpAll_canonical hs

theorem repeatReply_canonical {s : State} {q home line : Nat} (hs : s.Canonical) : (repeatReply s q home line).Canonical := by
  unfold repeatReply
  grind only [post_canonical]

theorem takeRequest_canonical {s : State} {q : Sender} {home line : Nat} {m : FabricMsg} {r : DirReq} {f : State → State} (hs :
    s.Canonical) (hf : ∀ s : State, s.Canonical → (f s).Canonical) :
    (takeRequest s q home line m r f).Canonical := by
  unfold takeRequest
  grind only [repeatReply_canonical, keepReply_canonical, unsend_canonical]

theorem recallStep_canonical {s : State} {d : DirEntry} (hs : s.Canonical) : (recallStep s d).Canonical := by
  unfold recallStep
  grind only [dirPut_canonical, pumpAll_canonical, endTransaction_canonical]

theorem servePut_canonical {s : State} {p home line : Nat} {data : Option LineData} {owned : Bool} (hs : s.Canonical) :
    (servePut s p home line data owned).Canonical := by
  unfold servePut
  grind only [stewardRequest_canonical, dirSet_canonical, recallStep_canonical, post_canonical, serve_canonical]

theorem takePut_canonical {s : State} {p : Sender} {home line : Nat} {m : FabricMsg} {data : Option LineData} {owned : Bool} (hs :
    s.Canonical) :
    (takePut s p home line m data owned).Canonical := by
  unfold takePut
  grind only [servePut_canonical, post_canonical, takeRequest_canonical, unsend_canonical]

theorem homeAnswered_canonical {s : State} {home line : Nat} {a : HomeAnswer} (hs : s.Canonical) :
    (homeAnswered s home line a).Canonical := by
  unfold homeAnswered
  grind only [failTo_canonical, dirSet_canonical, recallStep_canonical, post_canonical, pumpAll_canonical, endTransaction_canonical]

theorem execInvAck_requester_canonical {home line : Nat} {s : State} (hs : s.Canonical) : (execInvAck.requester home line s).Canonical := by
  unfold execInvAck.requester
  grind only [rlcSet_canonical, completeLine_canonical]

theorem loseEntry_canonical {p : Nat} {s : State} {d0 : DirEntry} (hs : s.Canonical) : (loseEntry p s d0).Canonical := by
  unfold loseEntry
  grind only [failTo_canonical, begin_canonical, dirSet_canonical]

theorem promote_canonical {s : State} {p : Nat} (hs : s.Canonical) : (promote s p).Canonical :=
  foldl_canonical hs fun _ _ ht => dirPut_canonical ht

/-! ### The functions of Machine/Fabric -/

theorem failThread_canonical {cause : Nat} {s : State} {w : Nat × Nat} (hs : s.Canonical) : (failThread cause s w).Canonical := by
  unfold failThread
  grind only [replyWaiter_canonical, answerAmsg_canonical]

theorem failRequest_canonical {cause : Nat} {s : State} {o : Outstanding} (hs : s.Canonical) : (failRequest cause s o).Canonical := by
  unfold failRequest
  grind only [failedLate_canonical, canonical_iff, replyWaiter_canonical, foldl_canonical, failLine_canonical, failThread_canonical,
    homeAnswered_canonical]

theorem refuseRequest_canonical {cause : Nat} {packet : Transit} {s : State} (hs : s.Canonical) :
    (refuseRequest cause packet s).Canonical := by
  unfold refuseRequest
  grind only [canonical_iff, failRequest_canonical]

theorem isolate_canonical {s : State} {port : Nat} (hs : s.Canonical) : (isolate s port).Canonical :=
  foldl_canonical hs fun _ _ ht => refuseRequest_canonical ht

theorem swapLane_canonical {s : State} {port lane : Nat} (hs : s.Canonical) : (swapLane s port lane).Canonical := by
  unfold swapLane
  grind only [isolate_canonical, setPort_canonical]

theorem countErrors_canonical {port : Nat} {s : State} {lane : Nat} (hs : s.Canonical) : (countErrors port s lane).Canonical := by
  unfold countErrors
  grind only [swapLane_canonical, setPort_canonical]

theorem performRequest_canonical {s : State} {grantee seq : Nat} {a : RemoteOp} (hs : s.Canonical) :
    (performRequest s grantee seq a).2.Canonical := by
  unfold performRequest
  grind only [canonical_iff, placeRecord_canonical, storeHome_canonical, poisonHbm_canonical, amoPerform_canonical]

theorem sendReply_canonical {s : State} {src seq : Nat} {m : FabricMsg} (hs : s.Canonical) : (sendReply s src seq m).Canonical := by
  unfold sendReply
  grind only [canonical_iff]

/-! ### The functions of Machine/Vector -/

theorem unboundDest_keeps {d : Reg} : Keeps (unboundDest d) := by
  unfold unboundDest
  grind only [keeps_pure, keeps_get_bind, wf_scratch_curCore, streamTrap_keeps, keeps_bind]

/-! ### The functions of Machine/Sched -/

theorem tickIsland_canonical {dt : Nat} {s : State} {i : Nat} (hs : s.Canonical) : (tickIsland dt s i).Canonical := hs

theorem countSlots_scratch {s : State} {dt core : Nat} {c : Core} : (countSlots s dt core c).scratch = c.scratch := by
  unfold countSlots
  split <;> rfl

theorem advance0_canonical {dt : Nat} {s : State} (hs : s.Canonical) : (advance0 dt s).Canonical := by
  unfold advance0
  split
  · exact hs
  · have hislands : ((List.range 17).foldl (tickIsland dt) { s with cycle := s.cycle + dt }).Canonical :=
      foldl_canonical (s := { s with cycle := s.cycle + dt }) hs fun _ _ ht => tickIsland_canonical ht
    dsimp only
    generalize (List.range 17).foldl (tickIsland dt) { s with cycle := s.cycle + dt } = t at hislands ⊢
    exact mapCores_canonical hislands fun _ => countSlots_scratch

theorem endWaits_canonical {core : Nat} {s : State} (hs : s.Canonical) : (endWaits core s).Canonical := by
  unfold endWaits
  grind only [foldl_canonical, wf_scratch_coreOf, setSlot_canonical]

theorem recordFaults_canonical {s : State} (hs : s.Canonical) : (recordFaults s).Canonical := by
  unfold recordFaults
  grind only [wakeToken_canonical, canonical_iff, sinkRecord_canonical, foldl_canonical, pagerTry_canonical]

theorem restCrews_canonical {s : State} (hs : s.Canonical) : (restCrews s).Canonical := by
  unfold restCrews
  grind only [yielded_canonical, foldl_canonical]

theorem noteWaiting_canonical {s : State} (hs : s.Canonical) : (noteWaiting s).Canonical := hs

theorem settle_canonical {s : State} (hs : s.Canonical) : (settle s).Canonical := by
  unfold settle
  grind only [noteWaiting_canonical, flushThreads_canonical, foldl_canonical, recordFaults_canonical, restCrews_canonical,
    clearPushed_canonical, endWaits_canonical, pumpAll_canonical, flushWb_canonical]

theorem issueFrom_canonical {s : State} {core k : Nat} {defer : Bool} (hs : s.Canonical) : (issueFrom s core k defer).Canonical := by
  unfold issueFrom
  grind only [canonical_iff, wf_scratch_coreOf, setCore_canonical, setSlot_canonical]

theorem issue_canonical {s : State} {core : Nat} {defer : Bool} (hs : s.Canonical) : (issue s core defer).2.Canonical := by
  unfold issue
  split
  · exact hs
  · split
    · exact hs
    next k _ =>
      split
      · exact hs
      · have hs1 : (issueFrom s core k defer).Canonical := issueFrom_canonical hs
        have hrun := fetchInstr_keeps _ hs1
        dsimp only
        split <;> rename_i heq
        · rwa [heq] at hrun
        · rwa [heq] at hrun
        · exact hs1

theorem autonomous_canonical {s0 : State} (hs : s0.Canonical) : (autonomous s0).2.Canonical := by
  unfold autonomous
  grind only [canonical_iff, settle_canonical, issue_canonical, advance0_canonical]

theorem agendaMove_canonical {s : State} {m : Move} {rest : List Move} (hs : s.Canonical) : (agendaMove s m rest).2.Canonical := by
  unfold agendaMove
  grind only [canonical_iff, settle_canonical, issue_canonical, advance0_canonical]

theorem next_canonical {s : State} (hs : s.Canonical) : (next s).2.Canonical := by
  unfold next
  grind only [autonomous_canonical, agendaMove_canonical]

end Sys2Proof.Machine
end

section
/-! SUPPORT. Each row of the table answers a next state, and keeps the form of the memories; here the shapes of an answer (alu, vec,
run, a command) and the rows that take more than one lemma; O5, O60. -/

namespace Sys2Proof.Machine

/-! ### The functions of Machine/Ops -/

theorem runAt_answers {n : Nat} {m : Exec Unit} {s : State} (hm : Keeps m) : Answers s (runAt n m s) := by
  have hrun := hm s
  unfold runAt
  split <;> rename_i heq <;> rw [heq] at hrun
  · exact answers_next hrun
  · exact answers_next fun hs => takeTrapAt_canonical (hrun hs)
  · exact answers_next fun hs => takeWait_canonical (hrun hs)

theorem run_answers {m : Exec Unit} {s : State} (hm : Keeps m) : Answers s (run m s) := runAt_answers hm

/-! ### The functions of Machine/Operands -/

theorem alu_answers {t : Nat} {srcs : List Reg} {d : Reg} {f : State → Word} {s : State} : Answers s (alu t srcs d f s) :=
  run_answers (keeps_bind useG_keeps fun _ => keeps_modify fun _ ht => endFall_canonical (putG_canonical ht))

/-! ### The functions of Machine/Alu -/

theorem execMvx_answers {e : EReg} {a : Reg} {s : State} : Answers s (execMvx e a s) := by
  unfold execMvx
  grind only [keeps_modify, putE_canonical, useG_keeps, endFall_canonical, keeps_bind, run_answers]

/-! ### The functions of Machine/Streams -/

theorem vecFed_answers {t : Nat} {vs gs : List Reg} {d : Reg} {fed : State → Nat} {f : State → Packet × List Nat} {s : State} :
    Answers s (vecFed t vs gs d fed f s) :=
  runAt_answers (keeps_bind notGarnet_keeps fun _ => keeps_bind openVs_keeps fun _ => keeps_bind useG_keeps fun _ =>
    keeps_bind reserveV_keeps fun _ => keeps_get_bind fun _ _ => endV_keeps)

theorem vec_answers {t : Nat} {vs gs : List Reg} {d : Reg} {f : State → Packet × List Nat} {s : State} :
    Answers s (vec t vs gs d f s) := vecFed_answers

/-! ### The functions of Machine/Bind -/

theorem execSbind_answers {d : Reg} {e : EReg} {s : State} : Answers s (execSbind d e s) := by
  unfold execSbind
  grind only [keeps_get_bind, endFall_canonical, notGarnet_keeps, streamTrap_keeps, addWb_canonical, keeps_bind, run_answers, keeps_set]

theorem execQbind_answers {w : Bool} {d : Reg} {s : State} : Answers s (execQbind w d s) := by
  unfold execQbind
  grind only [keeps_get_bind, endFall_canonical, wf_scratch_curCore, notGarnet_keeps, streamTrap_keeps, addWb_canonical, keeps_bind,
    run_answers, keeps_set]

theorem execUnbind_answers {v : Bool} {d : Reg} {s : State} : Answers s (execUnbind v d s) := by
  unfold execUnbind
  grind only [dropPackets_canonical, keeps_get_bind, endFall_canonical, wf_scratch_curCore, notGarnet_keeps, setCurSlot_canonical,
    streamTrap_keeps, addWb_canonical, keeps_bind, keeps_waitFor, keeps_waitFor_bind, run_answers, keeps_set]

/-! ### The functions of Machine/Memory -/

theorem execLea_answers {d : Reg} {sg : SReg} {a : Reg} {fmt : Fmt} {disp : BitVec 8} {s : State} :
    Answers s (execLea d sg a fmt disp s) := by
  unfold execLea
  grind only [keeps_get_bind, putG_canonical, useG_keeps, endFall_canonical, keeps_trapWith, keeps_trapWith_bind, keeps_bind, run_answers,
    keeps_set]

theorem execLdv_answers {d : Reg} {sg : SReg} {a : Reg} {fmt : Fmt} {disp : BitVec 8} {s : State} :
    Answers s (execLdv d sg a fmt disp s) := by
  refine run_answers (keeps_bind useG_keeps fun _ => keeps_bind reserveV_keeps fun _ => keeps_get_bind fun s _ =>
    keeps_bind checkAccess_keeps fun _ => keeps_bind openPush_keeps fun p => keeps_bind (keeps_modify fun _ ht => ht) fun _ => ?_)
  have hrest (ps : List Piece) (pend : Pending) (f : Nat → Packet) :
      Keeps (do
        let v ← loadPushed p (loadBytes (packetAccess s sg a fmt disp (niFetched fmt (curSlot s).frm) false) ps pend)
        match p with
        | some p => do
          p.perform (wbPoint s 1) (f v) 0
          modify (endFall 1)
        | none => modify (fun s => endFall 1 (putV (wbPoint s 1) d (f v) s))) := by
    refine keeps_bind (loadPushed_keeps loadBytes_keeps) fun v => ?_
    grind only [keeps_bind, Push_perform_keeps, keeps_modify, endFall_canonical, putV_canonical]
  cases p with
  | some p => exact keeps_bind awaitRoom_keeps fun _ => hrest _ _ _
  | none => exact hrest _ _ _

theorem execLdx_answers {e : EReg} {cnt : BitVec 4} {sg : SReg} {a : Reg} {disp : BitVec 8} {s : State} :
    Answers s (execLdx e cnt sg a disp s) := by
  unfold execLdx
  grind only [keeps_modify, keeps_get_bind, useG_keeps, execLdx_loadDwords_keeps, putERun_canonical, endFall_canonical, keeps_bind,
    run_answers, checkAccess_keeps]

theorem execStv_answers {d : Reg} {sg : SReg} {a : Reg} {fmt : Fmt} {disp : BitVec 8} {s : State} :
    Answers s (execStv d sg a fmt disp s) := by
  unfold execStv
  grind only [keeps_modify, keeps_get_bind, useG_keeps, checkArith_keeps, endFall_canonical, foldl_canonical, openV_keeps,
    raiseCur_canonical, keeps_bind, storeBytes_keeps, run_answers, checkAccess_keeps]

theorem execAmo_answers {op : AmoOp} {ar : Bool} {scope : Scope} {d : Reg} {sg : SReg} {a b : Reg} {s : State} :
    Answers s (execAmo op ar scope d sg a b s) := by
  refine run_answers (keeps_bind useG_keeps fun _ => keeps_get_bind fun s _ => keeps_bind checkAccess_keeps fun ps => ?_)
  split
  · exact keeps_pure _
  · refine keeps_bind awaitEntries_keeps fun _ => keeps_bind execAmo_amoSend_keeps fun _ => keeps_get_bind fun s1 hs1 =>
      keeps_guard (keeps_waitFor _ _) fun _ => keeps_bind servedTrap_keeps fun _ => ?_
    split
    · exact keeps_bind (keeps_set (amoPerform_canonical hs1)) fun _ => keeps_bind (keeps_modify fun _ ht => barLines_canonical ht) fun _ =>
        keeps_guard (keeps_modify fun _ ht => closeCombining_canonical ht) fun _ =>
        keeps_modify fun _ ht => endFall_canonical (putG_canonical ht)
    · exact keeps_waitFor _ _

theorem execAmov_answers {op : AmovOp} {ty : LaneTy} {v : Reg} {sg : SReg} {a : Reg} {s : State} :
    Answers s (execAmov op ty v sg a s) :=
  run_answers (keeps_bind useG_keeps fun _ => keeps_get_bind fun _ _ => keeps_guard (keeps_trapWith _ _ _ _) fun _ =>
    keeps_guard (keeps_trapWith _ _ _ _) fun _ => keeps_bind checkAccess_keeps fun _ => keeps_bind openV_keeps fun _ =>
    keeps_get_bind fun _ _ => keeps_bind enterStore_keeps fun _ => keeps_modify fun _ ht => endFall_canonical ht)

theorem execFence_answers {kind : FenceKind} {scope : Scope} {s : State} : Answers s (execFence kind scope s) := by
  unfold execFence
  grind only [keeps_modify, keeps_get_bind, endFall_canonical, setCurSlot_canonical, addWb_canonical, keeps_bind, run_answers,
    awaitEntries_keeps]

theorem execPref_answers {_sg : SReg} {a : Reg} {s : State} : Answers s (execPref _sg a s) := by
  unfold execPref
  grind only [keeps_modify, useG_keeps, endFall_canonical, keeps_bind, run_answers]

theorem execPin_answers {d : Reg} {sg : SReg} {a : Reg} {s : State} : Answers s (execPin d sg a s) := by
  refine run_answers (keeps_bind useG_keeps fun _ => keeps_get_bind fun s hs => keeps_guard (keeps_trapWith _ _ _ _) fun _ =>
    keeps_guard (keeps_trapWith _ _ _ _) fun _ => keeps_guard (keeps_trapWith _ _ _ _) fun _ => ?_)
  extract_lets pins r
  have hr : r.2.Canonical := xlate_canonical hs
  have hpins : ∀ h, Keeps (pins h) := fun h => by
    dsimp only [pins]
    split
    · exact keeps_get_bind fun s1 hs1 => keeps_guard (keeps_trapWith _ _ _ _) fun _ => keeps_guard (keeps_waitFor _ _) fun _ =>
        keeps_set (endFall_canonical (putG_canonical (pinLine_canonical hs1)))
    · exact keeps_modify fun _ ht => endFall_canonical (putG_canonical ht)
  clear_value pins r
  dsimp only
  split
  · exact keeps_bind (keeps_pure _) hpins
  · refine keeps_bind (keeps_set hr) fun _ => ?_
    split
    · exact keeps_bind pageFault_keeps hpins
    · exact keeps_bind (keeps_pure _) hpins

theorem execUnpin_answers {sg : SReg} {a : Reg} {s : State} : Answers s (execUnpin sg a s) := by
  refine run_answers (keeps_bind useG_keeps fun _ => keeps_get_bind fun s hs => keeps_guard (keeps_trapWith _ _ _ _) fun _ =>
    keeps_guard (keeps_trapWith _ _ _ _) fun _ => ?_)
  extract_lets va falls
  have hfalls : ∀ u, Keeps (falls u) := fun _ => keeps_modify fun _ ht => endFall_canonical ht
  clear_value falls
  dsimp only
  split
  · split
    · split
      · exact keeps_bind (keeps_modify fun _ ht => setEstate_canonical ht) hfalls
      · exact hfalls ()
    · exact hfalls ()
  · exact hfalls ()

/-! ### The functions of Machine/Reply -/

theorem execAccessReply_answers {core slot : Nat} {reply : Reply} {s : State} : Answers s (execAccessReply core slot reply s) := by
  unfold execAccessReply
  split
  · exact answers_next fun hs => lateReply_canonical hs
  · split
    · exact answers_next id
    · split
      · split
        · exact answers_next fun hs => failLine_canonical hs
        · split
          next m hm => exact answers_next fun hs => resume_canonical hs (replyTo_keeps hs hm)
          · exact answers_next id
      · exact answers_next id

/-! ### The functions of Machine/Messages -/

theorem execAmsgArrive_answers {core pkg estate thread seq handler : Nat} {args : List Word} {reply : Bool} {s : State} :
    Answers s (execAmsgArrive core pkg estate thread seq handler args reply s) := by
  unfold execAmsgArrive
  grind only [answers_next, sendAnswer_canonical, canonical_iff, keepReply_canonical, deliverMessage_canonical]

theorem execAmsgAnswer_answers {core slot : Nat} {answer : Answer} {s : State} : Answers s (execAmsgAnswer core slot answer s) := by
  unfold execAmsgAnswer
  grind only [answers_next, canonical_iff, lateAnswer_canonical, answerAmsg_canonical]

theorem execAmret_answers {a : Reg} {s : State} : Answers s (execAmret a s) := by
  unfold execAmret
  grind only [illegal_keeps, keeps_modify, keeps_get_bind, useG_keeps, keeps_bind, keeps_waitFor, keeps_waitFor_bind, run_answers,
    endAt_canonical]

theorem execCourierStart_answers {core : Nat} {s : State} : Answers s (execCourierStart core s) := by
  unfold execCourierStart
  grind only [answers_next, areaRecord_canonical, wf_scratch_coreOf, freeRecord_canonical, closeCombining_canonical, setSlot_canonical,
    hwRead_canonical]

/-! ### The functions of Machine/Tiles -/

theorem execTset_answers {d a b : Reg} {e : EReg} {s : State} : Answers s (execTset d a b e s) := by
  unfold execTset
  grind only [illegal_keeps, keeps_modify, keeps_get_bind, putG_canonical, awaitTile_keeps, useG_keeps, endFall_canonical,
    wf_scratch_curCore, addWb_canonical, keeps_bind, run_answers]

theorem execTstat_answers {d a : Reg} {s : State} : Answers s (execTstat d a s) := by
  unfold execTstat
  grind only [observe_canonical, keeps_modify, putG_canonical, useG_keeps, endFall_canonical, wf_scratch_curCore, keeps_bind, run_answers]

/-! ### The functions of Machine/Engine -/

theorem execCopy_answers {e : EReg} {s : State} : Answers s (execCopy e s) := by
  unfold execCopy
  grind only [illegal_keeps, keeps_modify, canonical_iff, keeps_get_bind, awaitTile_keeps, endFall_canonical, wf_scratch_curCore,
    keeps_trapWith, keeps_trapWith_bind, copyRanges_keeps, tileTrap_keeps, keeps_bind, setTile_canonical, keeps_waitFor,
    keeps_waitFor_bind, run_answers]

theorem execCopyAccess_answers {op elem : Nat} {reply : Reply} {s : State} : Answers s (execCopyAccess op elem reply s) := by
  unfold execCopyAccess
  grind only [answers_next, endOp_canonical, copyElement_canonical, flushScratch_canonical]

/-! ### The functions of Machine/Save -/

theorem execForcedSave_answers {handle : Nat} {s : State} : Answers s (execForcedSave handle s) := by
  unfold execForcedSave
  grind only [answers_next, saveCrew_canonical]

/-! ### The functions of Machine/Matrix -/

theorem execMfmt_answers {a : Reg} {e : EReg} {s : State} : Answers s (execMfmt a e s) := by
  unfold execMfmt
  grind only [illegal_keeps, checkSeat_keeps, keeps_get_bind, useG_keeps, sendSeat_keeps, notGarnet_keeps, keeps_bind, run_answers]

theorem execMzero_answers {b : Reg} {s : State} : Answers s (execMzero b s) := by
  unfold execMzero
  grind only [checkSeat_keeps, keeps_get_bind, useG_keeps, sendSeat_keeps, notGarnet_keeps, keeps_bind, run_answers]

theorem execMloadb_answers {a b : Reg} {e : EReg} {s : State} : Answers s (execMloadb a b e s) :=
  run_answers (keeps_bind notGarnet_keeps fun _ => keeps_bind useG_keeps fun _ => keeps_get_bind fun _ _ => keeps_guard illegal_keeps fun _
      =>
    keeps_bind checkSeat_keeps fun _ => keeps_bind namedTile_keeps fun _ => keeps_bind awaitTile_keeps fun _ =>
    keeps_modify fun _ ht => startOp_canonical ht)

theorem execMloadbApply_answers {op : Nat} {s : State} : Answers s (execMloadbApply op s) := by
  unfold execMloadbApply
  split
  next o _ =>
    dsimp only
    split
    · exact answers_next id
    · split
      · exact answers_next fun hs => endOp_canonical hs
      · refine answers_next fun hs => endOp_canonical ?_
        split
        · refine setUnit_canonical hs (forall_mem_mapSet (P := fun b : Bank => Memory.wf b.bytes = true) (wf_banks_unitOf hs _) ?_)
          exact cutMemory_wf _ _ _ (wf_scratch_coreOf hs o.core)
        · exact hs
  · exact answers_next id

theorem execMma_answers {a b : Reg} {e : EReg} {s : State} : Answers s (execMma a b e s) := by
  unfold execMma
  extract_lets m
  have hm : Keeps m := by
    refine keeps_bind notGarnet_keeps fun _ => keeps_bind useG_keeps fun _ => keeps_get_bind fun s _ => keeps_guard illegal_keeps fun _ =>
      keeps_bind checkSeat_keeps fun seat => ?_
    extract_lets before x done w waits goes
    have hgoes : ∀ u, Keeps (goes u) := fun _ => keeps_guard illegal_keeps fun _ => keeps_bind namedTile_keeps fun _ =>
      keeps_bind awaitTile_keeps fun _ => keeps_bind behindDrains_keeps fun _ => keeps_bind (keeps_modify fun _ ht => setTile_canonical ht)
          fun _ =>
      keeps_get_bind fun _ _ => keeps_waitFor _ _
    clear_value goes
    split
    · exact keeps_bind (keeps_modify fun _ ht => setCurSlot_canonical ht) fun _ => keeps_bind capabilityTrap_keeps hgoes
    · exact hgoes ()
  obtain ⟨t, ht, hkeeps⟩ := run_answers (s := s) hm
  rw [ht]
  refine answers_next fun hs => ?_
  split
  · exact hkeeps hs
  · exact foldl_canonical (hkeeps hs) fun _ _ hu => mmaStep_canonical hu

theorem execMmaRow_answers {core slot : Nat} {s : State} : Answers s (execMmaRow core slot s) := by
  unfold execMmaRow
  grind only [answers_next, mmaStep_canonical, seatStep_canonical]

theorem execSuspendedRow_answers {core slot : Nat} {s : State} : Answers s (execSuspendedRow core slot s) := by
  unfold execSuspendedRow
  grind only [answers_next, mmaTrap_canonical, setUnit_canonical, wf_banks_unitOf, setSlot_canonical]

theorem execMdrainPerform_answers {op : Nat} {s : State} : Answers s (execMdrainPerform op s) := by
  unfold execMdrainPerform
  grind only [answers_next, endOp_canonical, raiseIssuer_canonical, wf_scratch_coreOf, setSeat_canonical, computeRing_canonical,
    drainRows_canonical, flushScratch_canonical]

/-! ### The functions of Machine/Paging -/

theorem execShootdownInvalidate_answers {port : Nat} {s : State} : Answers s (execShootdownInvalidate port s) := by
  unfold execShootdownInvalidate
  grind only [answers_next, invalidatePort_canonical, canonical_iff, replyCall_keeps, resume_canonical]

theorem execMapf_answers {d a : Reg} {e : EReg} {s : State} : Answers s (execMapf d a e s) := by
  unfold execMapf
  grind only [endShoot_keeps, writePte_canonical, keeps_modify, canonical_iff, zeroTable_canonical, keeps_get_bind, useG_keeps,
    foldl_canonical, emptyBuffer_keeps, firm_keeps, keeps_bind, endTable_canonical, run_answers, keeps_set]

theorem execUnmap_answers {d a : Reg} {s : State} : Answers s (execUnmap d a s) := by
  unfold execUnmap
  grind only [endShoot_keeps, writePte_canonical, keeps_modify, canonical_iff, keeps_get_bind, useG_keeps, foldl_canonical,
    emptyBuffer_keeps, firm_keeps, keeps_bind, endTable_canonical, run_answers, keeps_set]

theorem execSegw_answers {k : SReg} {e : EReg} {s : State} : Answers s (execSegw k e s) := by
  unfold execSegw
  grind only [illegal_keeps, keeps_get_bind, endFall_canonical, setCurSlot_canonical, keeps_bind, run_answers, keeps_set]

theorem execSegr_answers {e : EReg} {k : SReg} {s : State} : Answers s (execSegr e k s) := by
  unfold execSegr
  grind only [keeps_get_bind, putERun_canonical, endFall_canonical, keeps_bind, run_answers, keeps_set]

/-! ### The functions of Machine/Crew -/

theorem execSpawn_answers {d : Reg} {e : EReg} {s : State} : Answers s (execSpawn d e s) := by
  refine run_answers (keeps_bind useG_keeps fun _ => keeps_get_bind fun s hs => keeps_guard spawnIllegal_keeps fun _ =>
    keeps_guard spawnIllegal_keeps fun _ => ?_)
  extract_lets done creates reads
  have hdone (v : Nat) (t : State) (ht : t.Canonical) : (done v t).Canonical := endFall_canonical (putG_canonical ht)
  have hcreates : ∀ plats, Keeps (creates plats) := fun plats => by
    refine keeps_get_bind fun s1 hs1 => ?_
    have hcreated (t : Task) (root : Option Nat) : (createTask s1 s1.cur.core t root fun s t => pushDeque s t.core t).2.Canonical :=
      createTask_canonical hs1 fun _ _ hu => pushDeque_canonical hu
    clear_value done
    grind only [keeps_waitFor, keeps_set]
  have hreads : ∀ list, Keeps (reads list) := fun list => by
    dsimp only [reads]
    split
    · exact keeps_bind (keeps_pure _) hcreates
    · exact keeps_bind spawnIllegal_keeps hcreates
  clear_value reads
  dsimp only
  split
  · exact keeps_bind (keeps_pure _) hreads
  · exact keeps_bind loadOperand_keeps hreads

theorem execBar_answers {n : BitVec 2} {s : State} : Answers s (execBar n s) := by
  unfold execBar
  grind only [barWaitFor_keeps, checkCrew_keeps, keeps_modify, keeps_get_bind, arrive_keeps, endFall_canonical, setCurSlot_canonical,
    keeps_bind, run_answers]

theorem execBarArrive_answers {n : BitVec 2} {s : State} : Answers s (execBarArrive n s) := by
  unfold execBarArrive
  grind only [checkCrew_keeps, keeps_modify, arrive_keeps, endFall_canonical, keeps_bind, run_answers]

theorem execBarWait_answers {n : BitVec 2} {s : State} : Answers s (execBarWait n s) := by
  unfold execBarWait
  grind only [barWaitFor_keeps, checkCrew_keeps, keeps_modify, keeps_get_bind, endFall_canonical, keeps_bind, run_answers]

theorem execStoreBufferPerform_answers {core slot idx : Nat} {s : State} : Answers s (execStoreBufferPerform core slot idx s) := by
  unfold execStoreBufferPerform
  grind only [answers_next, areaRecord_canonical, parkCrew_canonical, parkSlot_canonical, abortFirm_canonical, performEntry_canonical,
    setSlot_canonical]

theorem execStreamPacketArrival_answers {core : Nat} {reg : Reg} {slot : Nat} {s : State} :
    Answers s (execStreamPacketArrival core reg slot s) := by
  unfold execStreamPacketArrival
  split
  · exact answers_next id
  next t _ =>
    have hrun (hs : s.Canonical) := fetchPacket_keeps (core := core) (k := slot) (t := t) (i := nextFetch t)
        { s with cur := { core := core, slot := slot } } hs
    split
    · exact answers_next id
    · split <;> rename_i heq <;> rw [heq] at hrun
      · exact answers_next fun hs => setSlot_canonical (hrun hs)
      · split
        · exact answers_next fun hs => foldl_canonical (hrun hs) fun _ _ ht => resume_canonical ht (keeps_throw _)
        · exact answers_next hrun

theorem execTaskTake_answers {core : Nat} {s : State} : Answers s (execTaskTake core s) := by
  unfold execTaskTake
  grind only [answers_next, unqueue_canonical, wf_scratch_coreOf, setTask_canonical, setCore_canonical]

theorem execAdmission_answers {handle : Nat} {s : State} : Answers s (execAdmission handle s) := by
  unfold execAdmission
  grind only [answers_next, setPart_canonical, setTask_canonical, onAdmitted_canonical]

theorem execTaskStart_answers {handle : Nat} {s : State} : Answers s (execTaskStart handle s) := by
  unfold execTaskStart
  grind only [answers_next, startTask_canonical]

theorem execRestore_answers {core handle : Nat} {s : State} : Answers s (execRestore core handle s) := by
  unfold execRestore
  grind only [answers_next, wf_scratch_coreOf, restoreTask_canonical]

theorem execTaskCommit_answers {handle : Nat} {s : State} : Answers s (execTaskCommit handle s) := by
  unfold execTaskCommit
  grind only [answers_next, commitTask_canonical]

theorem execFrontierPass_answers {part : Nat} {s : State} : Answers s (execFrontierPass part s) := by
  unfold execFrontierPass
  grind only [answers_next, setPart_canonical]

theorem execFrontierPriority_answers {handle : Nat} {s : State} : Answers s (execFrontierPriority handle s) := by
  unfold execFrontierPriority
  grind only [answers_next, abortTasks_canonical, foldl_canonical, setTask_canonical]

/-! ### The functions of Machine/Cadastre -/

theorem execScrubComplete_answers {parcel : Nat} {s : State} : Answers s (execScrubComplete parcel s) := by
  unfold execScrubComplete
  grind only [answers_next, leaveWork_canonical, returnStatus_canonical, endLeave_canonical, endTransfer_canonical]

theorem execNoticeExpiry_answers {parcel : Nat} {s : State} : Answers s (execNoticeExpiry parcel s) := by
  unfold execNoticeExpiry
  grind only [answers_next, beginReversion_canonical]

theorem execLend_answers {d a b : Reg} {e : EReg} {s : State} : Answers s (execLend d a b e s) := by
  unfold execLend
  grind only [keeps_get_bind, offer_keeps, keeps_bind, run_answers]

theorem execAccept_answers {d a : Reg} {s : State} : Answers s (execAccept d a s) := by
  refine run_answers (keeps_bind cadParcel_keeps fun p => keeps_bind cadRetired_keeps fun _ => keeps_get_bind fun s hs => ?_)
  have hleave (x : Entry) (e : Nat) : (beginLeave (setEntry s p x) p e).Canonical := beginLeave_canonical (setEntry_canonical hs)
  dsimp only
  split
  · exact cadFinish_keeps
  · split
    · exact keeps_bind (keeps_set (setEntry_canonical hs)) fun _ => cadFinish_keeps
    · split
      · exact keeps_bind (keeps_set (hleave _ _)) fun _ => cadAwait_keeps
      · split
        · exact keeps_bind (keeps_set (hleave _ _)) fun _ => cadAwait_keeps
        · refine keeps_bind (keeps_set (hleave _ _)) fun _ => keeps_get_bind fun s1 hs1 => keeps_guard cadAwait_keeps fun _ => ?_
          refine keeps_bind (keeps_set (leaveWork_canonical hs1 : (leaveWork s1 p).Canonical)) fun _ =>
            keeps_get_bind fun s2 hs2 => keeps_guard cadAwait_keeps fun _ => ?_
          exact keeps_bind (keeps_set (endTransfer_canonical hs2 : (endTransfer s2 p).Canonical)) fun _ => cadFinish_keeps

theorem execDecline_answers {d a : Reg} {s : State} : Answers s (execDecline d a s) := by
  unfold execDecline
  grind only [cadParcel_keeps, keeps_get_bind, setEntry_canonical, cadRetired_keeps, keeps_bind, cadFinish_keeps, run_answers, keeps_set]

theorem execWithdraw_answers {d a : Reg} {s : State} : Answers s (execWithdraw d a s) := by
  unfold execWithdraw
  grind only [cadParcel_keeps, keeps_get_bind, setEntry_canonical, cadRetired_keeps, keeps_bind, cadFinish_keeps, run_answers, keeps_set]

theorem execCadReturn_answers {d a : Reg} {s : State} : Answers s (execCadReturn d a s) := by
  unfold execCadReturn
  grind only [cadParcel_keeps, keeps_get_bind, cadAwait_keeps, cadRetired_keeps, keeps_bind, cadFinish_keeps, run_answers,
    beginReversion_canonical, keeps_set]

theorem execCharter_answers {d a : Reg} {e : EReg} {s : State} : Answers s (execCharter d a e s) := by
  refine run_answers (keeps_bind cadParcel_keeps fun p => keeps_guard cadTrap_keeps fun _ => keeps_get_bind fun _ _ =>
    keeps_bind loadOperand_keeps fun _ => keeps_get_bind fun s hs => keeps_guard cadTrap_keeps fun _ => keeps_bind cadRetired_keeps fun _
        => ?_)
  dsimp only
  split
  · exact keeps_guard notHeld_keeps fun _ => keeps_guard cadFinish_keeps fun _ => keeps_bind (keeps_set (putImage_canonical hs)) fun _ =>
      cadFinish_keeps
  · refine keeps_guard notHeld_keeps fun _ => keeps_bind (keeps_set (setEstate_canonical (setEntry_canonical ?_))) fun _ => cadFinish_keeps
    grind only [openPart_canonical]

theorem execMuster_answers {d a : Reg} {e : EReg} {s : State} : Answers s (execMuster d a e s) := by
  refine run_answers (keeps_bind cadParcel_keeps fun _ => keeps_get_bind fun s hs => keeps_guard cadTrap_keeps fun _ =>
    keeps_guard cadTrap_keeps fun _ => keeps_guard cadTrap_keeps fun _ => keeps_bind cadRetired_keeps fun _ => keeps_guard notHeld_keeps
        fun _ => ?_)
  dsimp only
  split
  · exact cadFinish_keeps
  · exact keeps_bind (keeps_set (sinkRecord_canonical (setEstate_canonical hs))) fun _ => cadFinish_keeps

theorem execAnswer_answers {d : Reg} {s : State} : Answers s (execAnswer d s) := by
  unfold execAnswer
  grind only [keeps_get_bind, useG_keeps, setEstate_canonical, emptyBuffer_keeps, firm_keeps, keeps_bind, cadFinish_keeps, run_answers,
    keeps_set]

theorem execEscheat_answers {d a : Reg} {s : State} : Answers s (execEscheat d a s) := by
  unfold execEscheat
  grind only [cadParcel_keeps, keeps_get_bind, notHeld_keeps, cadTrap_keeps, dissolve_canonical, cadAwait_keeps, cadRetired_keeps,
    keeps_bind, keeps_waitFor, keeps_waitFor_bind, cadFinish_keeps, run_answers, keeps_set]

theorem execSurvey_answers {d a : Reg} {e : EReg} {s : State} : Answers s (execSurvey d a e s) := by
  unfold execSurvey
  grind only [cadParcel_keeps, keeps_get_bind, keeps_bind, cadFinish_keeps, run_answers]

theorem execEase_answers {d a b : Reg} {e : EReg} {s : State} : Answers s (execEase d a b e s) := by
  refine run_answers (keeps_bind useG_keeps fun _ => keeps_get_bind fun _ _ => keeps_bind cadSend_keeps fun _ => keeps_bind cadGood_keeps
      fun _ =>
    keeps_get_bind fun s hs => keeps_guard cadTrap_keeps fun _ => keeps_guard cadTrap_keeps fun _ => keeps_guard cadTrap_keeps fun _ =>
    keeps_bind cadRetired_keeps fun _ => keeps_guard notHeld_keeps fun _ => ?_)
  dsimp only
  split
  · split
    next g _ =>
      have hgone : { s with easements := s.easements.erase g }.Canonical := hs
      exact keeps_bind (keeps_set hgone) fun _ => keeps_guard (keeps_waitFor _ _) fun _ => cadFinish_keeps
    · exact cadFinish_keeps
  · split
    · exact cadFinish_keeps
    · refine keeps_bind (keeps_set ?_) fun _ => cadFinish_keeps
      exact hs

/-! ### The functions of Machine/System -/

theorem execRds_answers {d : Reg} {idx : BitVec 8} {s : State} : Answers s (execRds d idx s) := by
  unfold execRds
  grind only [illegal_keeps, keeps_modify, keeps_get_bind, putG_canonical, useG_keeps, endFall_canonical, keeps_bind, run_answers]

theorem execWrs_answers {idx : BitVec 8} {a : Reg} {s : State} : Answers s (execWrs idx a s) := by
  unfold execWrs
  grind only [illegal_keeps, keeps_modify, keeps_get_bind, putState_keeps, useG_keeps, endFall_canonical, wf_scratch_curCore,
    writeDeque_keeps, addWb_canonical, keeps_bind, run_answers]

theorem execTrap_answers {code : BitVec 8} {s : State} : Answers s (execTrap code s) := by
  unfold execTrap
  grind only [keeps_trapWith, keeps_trapWith_bind, run_answers]

theorem execKread_answers {d a b : Reg} {s : State} : Answers s (execKread d a b s) := by
  unfold execKread
  grind only [illegal_keeps, keeps_get_bind, putG_canonical, useG_keeps, endFall_canonical, wf_scratch_curCore, keeperOnly_keeps,
    servedSlot_keeps, keeps_bind, run_answers, keeps_set]

theorem execKwrite_answers {d a b : Reg} {s : State} : Answers s (execKwrite d a b s) := by
  unfold execKwrite
  grind only [illegal_keeps, canonical_iff, keeps_get_bind, useG_keeps, endFall_canonical, keeperOnly_keeps, servedSlot_keeps,
    exitSlot_canonical, keeps_bind, run_answers, keeps_set, setSlot_canonical]

theorem execSysc_answers {d : Reg} {e : EReg} {s : State} : Answers s (execSysc d e s) :=
  run_answers (keeps_bind useG_keeps fun _ => keeps_get_bind fun _ _ => keeps_guard illegal_keeps fun _ => keeps_bind syscArgs_keeps fun _
      =>
    keeps_bind firm_keeps fun _ => keeps_bind emptyBuffer_keeps fun _ => keeps_get_bind fun _ hs =>
    keeps_bind (keeps_set (addService_canonical (fresh_canonical hs))) fun _ => keeps_waitFor _ _)

theorem execUint_answers {a b : Reg} {s : State} : Answers s (execUint a b s) := by
  unfold execUint
  grind only [illegal_keeps, keeps_get_bind, useG_keeps, endFall_canonical, addWb_canonical, firm_keeps, keeps_bind, run_answers, keeps_set]

theorem execUintDeliver_answers {core slot : Nat} {s : State} : Answers s (execUintDeliver core slot s) := by
  unfold execUintDeliver
  grind only [answers_next, setSlot_canonical]

theorem execNotify_answers {a b : Reg} {s : State} : Answers s (execNotify a b s) := by
  unfold execNotify
  grind only [illegal_keeps, sendMsi_canonical, keeps_get_bind, useG_keeps, endFall_canonical, emptyBuffer_keeps, firm_keeps, keeps_bind,
    run_answers, keeps_set]

theorem execWatchdog_answers {core slot : Nat} {s : State} : Answers s (execWatchdog core slot s) := by
  unfold execWatchdog
  grind only [answers_next, canonical_iff, parkSlot_canonical]

theorem execFetchFault_answers {s : State} : Answers s (execFetchFault s) := by
  unfold execFetchFault
  grind only [keeps_pure, illegal_keeps, keeps_bind, run_answers, fetchInstr_keeps]

theorem execJasperTrapMessage_answers {core slot : Nat} {s : State} : Answers s (execJasperTrapMessage core slot s) := by
  unfold execJasperTrapMessage
  grind only [answers_next, jasperTakes_canonical, wf_scratch_coreOf, setCore_canonical]

theorem execJasperForward_answers {core slot : Nat} {s : State} : Answers s (execJasperForward core slot s) := by
  unfold execJasperForward
  grind only [answers_next, jasperTakes_canonical, setJasper_canonical]

theorem execJasperFailover_answers {cluster : Nat} {s : State} : Answers s (execJasperFailover cluster s) := by
  unfold execJasperFailover
  grind only [answers_next, passMail_canonical, foldl_canonical, setJasper_canonical]

/-! ### The functions of Machine/Boot -/

theorem execSpdmMeasurement_answers {nonce : BitVec 256} {s : State} : Answers s (execSpdmMeasurement nonce s) := by
  unfold execSpdmMeasurement
  grind only [answers_next, canonical_iff]

/-! ### The functions of Machine/Control -/

theorem execJal_answers {d : Reg} {off : BitVec 20} {s : State} : Answers s (execJal d off s) := by
  unfold execJal
  grind only [keeps_modify, endGoto_canonical, putG_canonical, useG_keeps, keeps_bind, run_answers]

theorem execLoop_answers {a : Reg} {level : BitVec 2} {ci : Bool} {endoff : BitVec 9} {cnt : BitVec 8} {s : State} :
    Answers s (execLoop a level ci endoff cnt s) := by
  refine run_answers (keeps_get_bind fun s0 _ => keeps_guard loopTrap_keeps fun _ => keeps_bind readBody_keeps fun r => ?_)
  extract_lets starts
  have hstarts : ∀ long, Keeps (starts long) := fun long => by
    dsimp -zeta only [starts]
    extract_lets l past enters
    have henters : ∀ u, Keeps (enters u) := fun _ => keeps_bind useG_keeps fun _ => keeps_modify fun t ht => by
      grind only [setCurSlot_canonical, commitPops_canonical, endFall_canonical]
    clear_value enters
    split
    · exact keeps_guard loopTrap_keeps henters
    · exact henters ()
  clear_value starts
  split
  · exact keeps_guard loopTrap_keeps fun _ => keeps_bind (keeps_pure _) hstarts
  · exact keeps_bind loopTrap_keeps hstarts

theorem execNop_answers {s : State} : Answers s (execNop s) := by
  unfold execNop
  grind only [keeps_modify, endFall_canonical, run_answers]

theorem execNopShort_answers {s : State} : Answers s (execNopShort s) := by
  unfold execNopShort
  grind only [keeps_modify, endFall_canonical, run_answers]

/-! ### The functions of Machine/Garnet -/

theorem execTailWrite_answers {fn q value : Nat} {s : State} : Answers s (execTailWrite fn q value s) := by
  unfold execTailWrite
  grind only [answers_next, writeTail_canonical]

theorem execRegisterWrite_answers {fn off : Nat} {value : Word} {s : State} : Answers s (execRegisterWrite fn off value s) := by
  unfold execRegisterWrite
  extract_lets q o
  have hbytes (hs : s.Canonical) := memWrite_wf 8 (queueOf s q).bytes o value.toNat (wf_bytes_queueOf hs q)
  generalize memWrite (queueOf s q).bytes o value.toNat 8 = bytes at hbytes ⊢
  split
  · exact answers_next fun hs => by grind only [setPart_canonical]
  · split
    · exact answers_next id
    · split
      · exact answers_next fun hs => setQueue_canonical hs (hbytes hs)
      · split
        · exact answers_next fun hs => writeTail_canonical hs
        · exact answers_next id

theorem execJobComplete_answers {root : Nat} {s : State} : Answers s (execJobComplete root s) := by
  unfold execJobComplete
  grind only [answers_next, canonical_iff, endJob_canonical]

theorem execLaunchRecord_answers {q : Nat} {s : State} : Answers s (execLaunchRecord q s) := by
  unfold execLaunchRecord
  grind only [answers_next, canonical_iff, endJob_canonical, takeHead_canonical, rootOf_canonical, createTask_canonical, pushRing_canonical]

theorem command_answers {q code : Nat} {f : Nat → State → State} {s : State}
    (hf : ∀ (n : Nat) (s : State), s.Canonical → (f n s).Canonical) : Answers s (command q code f s) := by
  unfold command
  grind only [answers_next, endCommand_canonical]

theorem execCreatePartition_answers {q : Nat} {s : State} : Answers s (execCreatePartition q s) := by
  unfold execCreatePartition
  grind only [hostRead_canonical, canonical_iff, command_answers, openPart_canonical, setEstate_canonical, setEntry_canonical,
    endCommand_canonical]

theorem execResetPartition_answers {q : Nat} {s : State} : Answers s (execResetPartition q s) := by
  unfold execResetPartition
  grind only [setQueue_canonical, command_answers, resetPartition_canonical, endCommand_canonical, wf_bytes_queueOf]

theorem execGiveToPartition_answers {q : Nat} {s : State} : Answers s (execGiveToPartition q s) := by
  unfold execGiveToPartition
  grind only [command_answers, giveRun_canonical, endCommand_canonical]

theorem execRetireCore_answers {q : Nat} {s : State} : Answers s (execRetireCore q s) := by
  unfold execRetireCore
  grind only [setQueue_canonical, beginRetirement_canonical, command_answers, endCommand_canonical, wf_bytes_queueOf]

theorem execSpareRow_answers {q : Nat} {s : State} : Answers s (execSpareRow q s) := by
  unfold execSpareRow
  grind only [spareRow_canonical, command_answers, endCommand_canonical]

theorem execHbmRowSpare_answers {frame row : Nat} {s : State} : Answers s (execHbmRowSpare frame row s) := by
  unfold execHbmRowSpare
  grind only [answers_next, spareRow_canonical]

theorem execUpdateFirmware_answers {q : Nat} {valid : Bool} {version : BitVec 32} {s : State} :
    Answers s (execUpdateFirmware q valid version s) := by
  unfold execUpdateFirmware
  grind only [hostRead_canonical, canonical_iff, command_answers, abandonCommand_canonical, restartPrincipal_canonical,
    endCommand_canonical]

theorem execAttest_answers {q : Nat} {s : State} : Answers s (execAttest q s) := by
  unfold execAttest
  grind only [hostRead_canonical, command_answers, endCommand_canonical, hostWrite_canonical]

theorem execLifecycle_answers {q : Nat} {s : State} : Answers s (execLifecycle q s) := by
  unfold execLifecycle
  grind only [setQueue_canonical, canonical_iff, command_answers, rebooted_canonical, foldl_canonical, resetPartition_canonical,
    endCommand_canonical, wf_bytes_queueOf]

theorem execSetChain_answers {q : Nat} {s : State} : Answers s (execSetChain q s) := by
  unfold execSetChain
  grind only [canonical_iff, command_answers, endCommand_canonical]

theorem execSetDomain_answers {q : Nat} {s : State} : Answers s (execSetDomain q s) := by
  unfold execSetDomain
  grind only [hostRead_canonical, canonical_iff, command_answers, endCommand_canonical]

theorem execSetTimer_answers {q : Nat} {s : State} : Answers s (execSetTimer q s) := by
  unfold execSetTimer
  grind only [canonical_iff, command_answers, endCommand_canonical]

theorem execPreempt_answers {q : Nat} {s : State} : Answers s (execPreempt q s) := by
  unfold execPreempt
  grind only [setQueue_canonical, command_answers, foldl_canonical, requestCrew_canonical, endCommand_canonical, wf_bytes_queueOf]

theorem execUnknownCommand_answers {q : Nat} {s : State} : Answers s (execUnknownCommand q s) := by
  unfold execUnknownCommand
  grind only [answers_next, endCommand_canonical]

theorem execFunctionLevelReset_answers {fn : Nat} {s : State} : Answers s (execFunctionLevelReset fn s) := by
  unfold execFunctionLevelReset
  grind only [answers_next, canonical_iff, abandonCommand_canonical, foldl_canonical, setPart_canonical, resetPartition_canonical,
    restartPrincipal_canonical]

theorem execMapfile_answers {core slot : Nat} {s : State} : Answers s (execMapfile core slot s) := by
  unfold execMapfile
  split
  · exact answers_next id
  next est token args s1 heq =>
    have hs1 (hs : s.Canonical) : s1.Canonical := takeCall_canonical hs heq
    have hdrawn (hs : s.Canonical) : { s1 with draws := s1.draws + 1 }.Canonical := hs1 hs
    dsimp only
    split
    · exact answers_next fun hs => endCallWith_canonical (hs1 hs)
    · split
      · exact answers_next fun hs => endCallWith_canonical (hdrawn hs)
      · split
        · exact answers_next id
        · have hput (hs : s.Canonical) : (putLeaves s1 est (argOf args 1).toNat (argOf args 2).toNat _).Canonical :=
            putLeaves_canonical (p0 := BitVec.ofNat 64 (fileFlags (bits (argOf args 3) 0 2))) (hs1 hs)
          generalize putLeaves s1 est _ _ _ = t at hput ⊢
          exact answers_next fun hs => endCallWith_canonical (hput hs)

theorem execSync_answers {core slot : Nat} {s : State} : Answers s (execSync core slot s) := by
  unfold execSync
  grind only [answers_next, takeCall_canonical, syncMapping_canonical, endCallWith_canonical]

theorem execUnmapfile_answers {core slot : Nat} {s : State} : Answers s (execUnmapfile core slot s) := by
  unfold execUnmapfile
  grind only [answers_next, putLeaves_canonical, canonical_iff, takeCall_canonical, syncMapping_canonical, endCallWith_canonical]

theorem execLaunchr_answers {core slot : Nat} {reply : Reply} {s : State} : Answers s (execLaunchr core slot reply s) := by
  unfold execLaunchr
  grind only [answers_next, endCall_canonical, estateRead_canonical, canonical_iff, placeRecord_canonical, takeCall_canonical,
    endCallWith_canonical]

theorem execUnknownCall_answers {core slot : Nat} {s : State} : Answers s (execUnknownCall core slot s) := by
  unfold execUnknownCall
  grind only [answers_next, takeCall_canonical, endCallWith_canonical]

theorem execFileFault_answers {estate token : Nat} {page : List Byte} {s : State} : Answers s (execFileFault estate token page s) := by
  unfold execFileFault
  split
  · exact answers_next id
  next s1 heq =>
    have hs1 (hs : s.Canonical) : s1.Canonical := takeItem_canonical hs heq
    have hwake (b : Bool) : Answers s (.next (wakeToken b s1 estate token)) := answers_next fun hs => wakeToken_canonical (hs1 hs)
    split
    · exact answers_next hs1
    · split
      · exact hwake true
      · split
        · exact hwake true
        · split
          · exact hwake true
          · exact answers_next fun hs => wakeToken_canonical (writePte_canonical (writePage_canonical (hs1 hs)))

/-! ### The functions of Machine/Link -/

theorem execHostMemAccess_answers {fn hpa n : Nat} {write : Option Nat} {s : State} : Answers s (execHostMemAccess fn hpa n write s) := by
  unfold execHostMemAccess
  grind only [answers_next, canonical_iff, storeHome_canonical]

theorem afterGo_answers {s t : State} {line : Nat} {i : Instr} (ht : s.Canonical → t.Canonical) : Answers s (afterGo s line i t) := by
  unfold afterGo
  split
  · exact answers_next id
  · exact answers_next ht

theorem execSnpinv_answers {line : Nat} {value : Option Packet} {s : State} : Answers s (execSnpinv line value s) := by
  unfold execSnpinv
  grind only [snoopHost_canonical, afterGo_answers, setHost_canonical]

theorem execGoResponse_answers {line : Nat} {grant : Grant} {value : Option Packet} {s : State} :
    Answers s (execGoResponse line grant value s) := by
  unfold execGoResponse
  grind only [answers_next, grantLine_canonical, replyWaiter_canonical, foldl_canonical]

theorem execIdeTagFailure_answers {fn : Nat} {s : State} : Answers s (execIdeTagFailure fn s) := by
  unfold execIdeTagFailure
  grind only [answers_next, endOp_canonical, foldl_canonical, setPart_canonical]

theorem execTdispRequest_answers {fn : Nat} {dest : Tdi} {s : State} : Answers s (execTdispRequest fn dest s) := by
  unfold execTdispRequest
  grind only [answers_next, canonical_iff, setPart_canonical]

theorem execGovernorThrottle_answers {island freq : Nat} {s : State} : Answers s (execGovernorThrottle island freq s) := by
  unfold execGovernorThrottle
  grind only [answers_next, setFreq_canonical]

theorem execGovernorRaise_answers {island freq : Nat} {s : State} : Answers s (execGovernorRaise island freq s) := by
  unfold execGovernorRaise
  grind only [answers_next, setFreq_canonical]

theorem execUncorrectableError_answers {pa : Nat} {s : State} : Answers s (execUncorrectableError pa s) := by
  unfold execUncorrectableError
  grind only [answers_next, poisonHbm_canonical]

/-! ### The functions of Machine/Directory -/

theorem execData_answers {home line : Nat} {grant : Grant} {value : Option LineData} {acks : Nat} {s : State} :
    Answers s (execData home line grant value acks s) := by
  unfold execData
  grind only [answers_next, rlcSet_canonical, completeLine_canonical, post_canonical, received_canonical]

theorem execFwds_answers {q home line : Nat} {s : State} : Answers s (execFwds q home line s) := by
  unfold execFwds
  grind only [answers_next, rlcSet_canonical, post_canonical, repeatData_canonical, received_canonical]

theorem execFwdm_answers {q home line acks : Nat} {s : State} : Answers s (execFwdm q home line acks s) := by
  unfold execFwdm
  grind only [answers_next, giveUpRest_canonical, post_canonical, giveUp_canonical, repeatData_canonical, received_canonical]

theorem execInv_answers {q home line : Nat} {s : State} : Answers s (execInv q home line s) := by
  unfold execInv
  grind only [answers_next, post_canonical, giveUp_canonical, received_canonical]

theorem execRecallLine_answers {home line : Nat} {s : State} : Answers s (execRecallLine home line s) := by
  unfold execRecallLine
  grind only [answers_next, sendPut_canonical, giveUpRest_canonical, giveUp_canonical, received_canonical]

theorem execPutAck_answers {home line : Nat} {s : State} : Answers s (execPutAck home line s) := by
  unfold execPutAck
  grind only [answers_next, rlcDrop_canonical, canonical_iff, received_canonical]

theorem execGets_answers {q : Sender} {home line : Nat} {s : State} : Answers s (execGets q home line s) := by
  unfold execGets
  grind only [answers_next, serve_canonical, takeRequest_canonical]

theorem execGetm_answers {q : Sender} {home line : Nat} {s : State} : Answers s (execGetm q home line s) := by
  unfold execGetm
  grind only [answers_next, serve_canonical, takeRequest_canonical]

theorem execUpgrade_answers {q : Sender} {home line : Nat} {s : State} : Answers s (execUpgrade q home line s) := by
  unfold execUpgrade
  grind only [answers_next, serve_canonical, takeRequest_canonical]

theorem execHomeReply_answers {home line : Nat} {answer : HomeAnswer} {s : State} : Answers s (execHomeReply home line answer s) := by
  unfold execHomeReply
  grind only [answers_next, canonical_iff, received_canonical, homeAnswered_canonical]

theorem execInvAck_answers {home line : Nat} {s : State} : Answers s (execInvAck home line s) := by
  unfold execInvAck
  grind only [answers_next, recallStep_canonical, execInvAck_requester_canonical, received_canonical]

theorem execCompletionAck_answers {q home line : Nat} {dirty : Bool} {s : State} : Answers s (execCompletionAck q home line dirty s) := by
  unfold execCompletionAck
  grind only [answers_next, pumpAll_canonical, received_canonical, endTransaction_canonical, unsend_canonical]

theorem execPackageLost_answers {pkg : Nat} {s : State} : Answers s (execPackageLost pkg s) := by
  unfold execPackageLost
  grind only [answers_next, canonical_iff, promote_canonical, foldl_canonical, loseEntry_canonical, pumpAll_canonical,
    homeAnswered_canonical]

theorem execSramError_answers {target : SramTarget} {s : State} : Answers s (execSramError target s) := by
  unfold execSramError
  grind only [answers_next, snoopHost_canonical, rlcSet_canonical, countUnit_canonical, canonical_iff, wf_scratch_coreOf,
    evictLine_canonical, setCore_canonical, poisonHbm_canonical, l1Set_canonical, setSlot_canonical]

/-! ### The functions of Machine/Fabric -/

theorem execRoutePacket_answers {packet : Transit} {detours : Nat} {s : State} : Answers s (execRoutePacket packet detours s) := by
  unfold execRoutePacket
  grind only [answers_next, refuseRequest_canonical, setPort_canonical]

theorem execPortIsolation_answers {port : Nat} {s : State} : Answers s (execPortIsolation port s) := by
  unfold execPortIsolation
  grind only [answers_next, isolate_canonical]

theorem execFlitReceive_answers {port : Nat} {flit : Flit} {s : State} : Answers s (execFlitReceive port flit s) := by
  unfold execFlitReceive
  grind only [answers_next, countErrors_canonical, foldl_canonical, isolate_canonical, setPort_canonical]

theorem execLaneSwap_answers {port lane : Nat} {s : State} : Answers s (execLaneSwap port lane s) := by
  unfold execLaneSwap
  grind only [answers_next, swapLane_canonical]

theorem execSpareLane_answers {q : Nat} {s : State} : Answers s (execSpareLane q s) := by
  unfold execSpareLane
  grind only [command_answers, swapLane_canonical, endCommand_canonical]

theorem execE2eTimeout_answers {dst seq : Nat} {s : State} : Answers s (execE2eTimeout dst seq s) := by
  unfold execE2eTimeout
  grind only [answers_next, canonical_iff, failRequest_canonical]

theorem execRemoteRequest_answers {src seq estate : Nat} {op : RemoteOp} {s : State} :
    Answers s (execRemoteRequest src seq estate op s) := by
  unfold execRemoteRequest
  grind only [answers_next, keepReply_canonical, sendReply_canonical, performRequest_canonical, unsend_canonical]

/-! ### The functions of Machine/Vector -/

theorem vec1_answers {t : Nat} {ty : LaneTy} {d a : Reg} {f : State → Nat → Nat × Nat} {s : State} :
    Answers s (vec1 t ty d a f s) := vec_answers

theorem vec2_answers {ty : LaneTy} {d a b : Reg} {f : State → Nat → Nat → Nat × Nat} {s : State} :
    Answers s (vec2 ty d a b f s) := vec_answers

theorem vecRed_answers {ty : LaneTy} {d a : Reg} {f : State → Nat → Nat → Nat × Nat} {s : State} :
    Answers s (vecRed ty d a f s) := vecFed_answers

theorem execVext_answers {d a b : Reg} {s : State} : Answers s (execVext d a b s) := by
  unfold execVext
  grind only [keeps_modify, putG_canonical, useG_keeps, endFall_canonical, openV_keeps, notGarnet_keeps, keeps_bind, run_answers]

theorem execVins_answers {d a b : Reg} {s : State} : Answers s (execVins d a b s) := by
  unfold execVins
  grind only [readable_keeps, keeps_get_bind, useG_keeps, notGarnet_keeps, endV_keeps, unboundDest_keeps, keeps_bind, run_answers]

theorem execVcvt_answers {rm : BitVec 2} {zero scaled : Bool} {target source : LaneTy} {d a b : Reg} {s : State} :
    Answers s (execVcvt rm zero scaled target source d a b s) := by
  unfold execVcvt
  grind only [readable_keeps, keeps_get_bind, useG_keeps, openV_keeps, notGarnet_keeps, endV_keeps, unboundDest_keeps, reserveV_keeps,
    keeps_bind, run_answers]

end Sys2Proof.Machine
end

section
/-! SUPPORT. Every row of the table, and every step; O5 and O60. -/

namespace Sys2Proof.Machine

/-- Every row of the table answers a next state, and keeps the form. -/
theorem exec_answers (i : Instr) (s : State) : Answers s (exec i s) := by
  cases i with
  | add => exact alu_answers
  | addi => exact alu_answers
  | addShort => exact alu_answers
  | addiShort => exact alu_answers
  | sub => exact alu_answers
  | subShort => exact alu_answers
  | and => exact alu_answers
  | andi => exact alu_answers
  | andShort => exact alu_answers
  | or => exact alu_answers
  | ori => exact alu_answers
  | orShort => exact alu_answers
  | xor => exact alu_answers
  | xori => exact alu_answers
  | xorShort => exact alu_answers
  | movShort => exact alu_answers
  | moviShort => exact alu_answers
  | bfi => exact alu_answers
  | bfx => exact alu_answers
  | clz => exact alu_answers
  | ctz => exact alu_answers
  | popc => exact alu_answers
  | cmp => exact alu_answers
  | sel => exact alu_answers
  | div => exact alu_answers
  | divu => exact alu_answers
  | rem => exact alu_answers
  | remu => exact alu_answers
  | mul => exact alu_answers
  | mulh => exact alu_answers
  | mulhu => exact alu_answers
  | max => exact alu_answers
  | maxu => exact alu_answers
  | min => exact alu_answers
  | minu => exact alu_answers
  | shl => exact alu_answers
  | shr => exact alu_answers
  | sra => exact alu_answers
  | shli => exact alu_answers
  | shri => exact alu_answers
  | srai => exact alu_answers
  | shliShort => exact alu_answers
  | shriShort => exact alu_answers
  | lih => exact alu_answers
  | mvx => exact execMvx_answers
  | mxv => exact alu_answers
  | br => exact run_answers branch_keeps
  | beqzShort => exact run_answers branch_keeps
  | bnezShort => exact run_answers branch_keeps
  | jal => exact execJal_answers
  | jr => exact run_answers jumpReg_keeps
  | jrShort => exact run_answers jumpReg_keeps
  | jalShort => exact run_answers jumpReg_keeps
  | loop => exact execLoop_answers
  | lea => exact execLea_answers
  | ld => exact run_answers loadScalar_keeps
  | ldAcq => exact run_answers loadScalar_keeps
  | ldShort => exact run_answers loadScalar_keeps
  | ldv => exact execLdv_answers
  | ldx => exact execLdx_answers
  | st => exact run_answers storeScalar_keeps
  | stRel => exact run_answers storeScalar_keeps
  | stShort => exact run_answers storeScalar_keeps
  | stv => exact execStv_answers
  | amo => exact execAmo_answers
  | amov => exact execAmov_answers
  | fence => exact execFence_answers
  | pref sg a => exact execPref_answers (_sg := sg)
  | pin => exact execPin_answers
  | unpin => exact execUnpin_answers
  | vadd => exact vec2_answers
  | vsub => exact vec2_answers
  | vmul => exact vec2_answers
  | vmin => exact vec2_answers
  | vmax => exact vec2_answers
  | vabs => exact vec1_answers
  | vneg => exact vec1_answers
  | vrcp => exact vec1_answers
  | vrsq => exact vec1_answers
  | vexp2 => exact vec1_answers
  | vlog2 => exact vec1_answers
  | vsin => exact vec1_answers
  | vcos => exact vec1_answers
  | vand => exact vec_answers
  | vor => exact vec_answers
  | vxor => exact vec_answers
  | vshl => exact vec2_answers
  | vshr => exact vec2_answers
  | vsra => exact vec2_answers
  | vbcast => exact vecFed_answers
  | vperm => exact vecFed_answers
  | vredSum => exact vecRed_answers
  | vredMax => exact vecRed_answers
  | vredMin => exact vecRed_answers
  | vfma => exact vec_answers
  | vsel => exact vec_answers
  | vcmp => exact vec2_answers
  | vext => exact execVext_answers
  | vins => exact execVins_answers
  | vcvt => exact execVcvt_answers
  | sbind => exact execSbind_answers
  | qbind => exact execQbind_answers
  | unbind => exact execUnbind_answers
  | mfmt => exact execMfmt_answers
  | mloadb => exact execMloadb_answers
  | mma => exact execMma_answers
  | mdrain => exact run_answers drain_keeps
  | mdrainClr => exact run_answers drain_keeps
  | mzero => exact execMzero_answers
  | copy => exact execCopy_answers
  | tstat => exact execTstat_answers
  | tset => exact execTset_answers
  | spawn => exact execSpawn_answers
  | bar => exact execBar_answers
  | barArrive => exact execBarArrive_answers
  | barWait => exact execBarWait_answers
  | give => exact run_answers offer_keeps
  | giveWipe => exact run_answers offer_keeps
  | accept => exact execAccept_answers
  | decline => exact execDecline_answers
  | withdraw => exact execWithdraw_answers
  | lend => exact execLend_answers
  | cadReturn => exact execCadReturn_answers
  | reclaim => exact run_answers reclaim_keeps
  | reclaimWait => exact run_answers reclaim_keeps
  | charter => exact execCharter_answers
  | muster => exact execMuster_answers
  | answer => exact execAnswer_answers
  | escheat => exact execEscheat_answers
  | survey => exact execSurvey_answers
  | ease => exact execEase_answers
  | mapf => exact execMapf_answers
  | unmap => exact execUnmap_answers
  | wake => exact run_answers wakeWith_keeps
  | wakeFail => exact run_answers wakeWith_keeps
  | segw => exact execSegw_answers
  | segr => exact execSegr_answers
  | rds => exact execRds_answers
  | wrs => exact execWrs_answers
  | trap => exact execTrap_answers
  | kret => exact run_answers kret_keeps
  | kretSkip => exact run_answers kret_keeps
  | kretPc => exact run_answers kret_keeps
  | kread => exact execKread_answers
  | kwrite => exact execKwrite_answers
  | sysc => exact execSysc_answers
  | uint => exact execUint_answers
  | notify => exact execNotify_answers
  | amsg => exact run_answers amsg_keeps
  | amsgR => exact run_answers amsg_keeps
  | amret => exact execAmret_answers
  | accessReply => exact execAccessReply_answers
  | storeBufferPerform => exact execStoreBufferPerform_answers
  | shootdownInvalidate => exact execShootdownInvalidate_answers
  | watchdog => exact execWatchdog_answers
  | forcedSave => exact execForcedSave_answers
  | restore => exact execRestore_answers
  | uintDeliver => exact execUintDeliver_answers
  | streamPacketArrival => exact execStreamPacketArrival_answers
  | taskTake => exact execTaskTake_answers
  | admission => exact execAdmission_answers
  | taskStart => exact execTaskStart_answers
  | taskCommit => exact execTaskCommit_answers
  | frontierPass => exact execFrontierPass_answers
  | frontierPriority => exact execFrontierPriority_answers
  | launchRecord => exact execLaunchRecord_answers
  | jobComplete => exact execJobComplete_answers
  | copyAccess => exact execCopyAccess_answers
  | mloadbApply => exact execMloadbApply_answers
  | mmaRow => exact execMmaRow_answers
  | mdrainPerform => exact execMdrainPerform_answers
  | suspendedRow => exact execSuspendedRow_answers
  | macroRecalibration => exact answers_next id
  | jasperTrapMessage => exact execJasperTrapMessage_answers
  | jasperForward => exact execJasperForward_answers
  | jasperFailover => exact execJasperFailover_answers
  | amsgArrive => exact execAmsgArrive_answers
  | courierStart => exact execCourierStart_answers
  | amsgAnswer => exact execAmsgAnswer_answers
  | noticeExpiry => exact execNoticeExpiry_answers
  | scrubComplete => exact execScrubComplete_answers
  | tailWrite => exact execTailWrite_answers
  | registerWrite => exact execRegisterWrite_answers
  | createPartition => exact execCreatePartition_answers
  | resetPartition => exact execResetPartition_answers
  | giveToPartition => exact execGiveToPartition_answers
  | retireCore => exact execRetireCore_answers
  | spareRow => exact execSpareRow_answers
  | spareLane => exact execSpareLane_answers
  | updateFirmware => exact execUpdateFirmware_answers
  | attest => exact execAttest_answers
  | lifecycle => exact execLifecycle_answers
  | setChain => exact execSetChain_answers
  | setDomain => exact execSetDomain_answers
  | setTimer => exact execSetTimer_answers
  | preempt => exact execPreempt_answers
  | unknownCommand => exact execUnknownCommand_answers
  | mapfile => exact execMapfile_answers
  | sync => exact execSync_answers
  | unmapfile => exact execUnmapfile_answers
  | launchr => exact execLaunchr_answers
  | unknownCall => exact execUnknownCall_answers
  | fileFault => exact execFileFault_answers
  | spdmMeasurement => exact execSpdmMeasurement_answers
  | ideTagFailure => exact execIdeTagFailure_answers
  | tdispRequest => exact execTdispRequest_answers
  | hostMemAccess => exact execHostMemAccess_answers
  | snpdata => exact afterGo_answers fun hs => snoopHost_canonical hs
  | snpinv => exact execSnpinv_answers
  | snpcur => exact answers_next id
  | goResponse => exact execGoResponse_answers
  | hostLineEviction => exact answers_next fun hs => snoopHost_canonical hs
  | backInvalidateResponse => exact answers_next id
  | functionLevelReset => exact execFunctionLevelReset_answers
  | boot => exact answers_next fun hs => rebooted_canonical hs
  | routePacket => exact execRoutePacket_answers
  | flitReceive => exact execFlitReceive_answers
  | e2eTimeout => exact execE2eTimeout_answers
  | remoteRequest => exact execRemoteRequest_answers
  | portIsolation => exact execPortIsolation_answers
  | laneSwap => exact execLaneSwap_answers
  | packageLost => exact execPackageLost_answers
  | gets => exact execGets_answers
  | getm => exact execGetm_answers
  | upgrade => exact execUpgrade_answers
  | putm => exact answers_next fun hs => takePut_canonical hs
  | puto => exact answers_next fun hs => takePut_canonical hs
  | fwds => exact execFwds_answers
  | fwdm => exact execFwdm_answers
  | inv => exact execInv_answers
  | recallLine => exact execRecallLine_answers
  | data => exact execData_answers
  | invAck => exact execInvAck_answers
  | completionAck => exact execCompletionAck_answers
  | putAck => exact execPutAck_answers
  | homeReply => exact execHomeReply_answers
  | coherentEviction => exact answers_next fun hs => evictLine_canonical hs
  | governorThrottle => exact execGovernorThrottle_answers
  | governorRaise => exact execGovernorRaise_answers
  | uncorrectableError => exact execUncorrectableError_answers
  | sramError => exact execSramError_answers
  | hbmRowSpare => exact execHbmRowSpare_answers
  | sliceSwap => exact answers_next fun hs => sliceSwap_canonical hs
  | lexit => exact run_answers loopExit_keeps
  | lexitShort => exact run_answers loopExit_keeps
  | nop => exact execNop_answers
  | nopShort => exact execNopShort_answers
  | tdone => exact run_answers threadDone_keeps
  | tdoneShort => exact run_answers threadDone_keeps
  | exit => exact run_answers threadExit_keeps
  | exitShort => exact run_answers threadExit_keeps
  | yield => exact run_answers yieldTurn_keeps
  | yieldShort => exact run_answers yieldTurn_keeps
  | undecodableWord => exact run_answers illegal_keeps
  | fetchFault => exact execFetchFault_answers
  | powerLoss => exact answers_next id

theorem step_of_powered {s : State} (h : powerless s = false) : Answers s (step s) := by
  have hnext (hs : s.Canonical) : (next s).2.Canonical := next_canonical hs
  rw [step, if_neg (by simp [h])]
  split <;> rename_i heq <;> rw [heq] at hnext
  · obtain ⟨t, ht, hkeeps⟩ := exec_answers _ _
    exact ⟨t, ht, fun hs => hkeeps (hnext hs)⟩
  · exact answers_next hnext

theorem step_of_powerless {s : State} (h : powerless s = true) : step s = .fault .powerOff := if_pos h

/-- Settles O60: every part of the model that makes a state of another keeps the form of its memories. -/
theorem memoriesStayCanonical : Obligations.MemoriesStayCanonical := by
  intro s t hs hstep
  rw [memOk_iff_canonical] at hs ⊢
  rcases h : powerless s with _ | _
  · obtain ⟨u, hu, hkeeps⟩ := step_of_powered h
    cases hu.symm.trans hstep
    exact hkeeps hs
  · exact nomatch (step_of_powerless h).symm.trans hstep

/-- Settles O5: every row answers, and a step faults where the package is powerless alone. -/
theorem onlyPowerLossStops : Obligations.OnlyPowerLossStops := by
  refine ⟨fun i s => ?_, fun s => ?_⟩
  · obtain ⟨t, ht, -⟩ := exec_answers i s
    exact ⟨t, ht⟩
  · rcases h : powerless s with _ | _
    · obtain ⟨t, ht, -⟩ := step_of_powered h
      simp [ht]
    · simp [step_of_powerless h]

end Sys2Proof.Machine
end

section
/-! SUPPORT. The stores, STV and AMOV (R276, R352 to R354); O27. -/

namespace Sys2Proof.Machine

/-- A computation of one turn that ends is an instruction that completes. -/
theorem run_of_end {m : Exec Unit} {s t : State} (h : Ends m s () t) : run m s = .next t := run_of_ends h

/-- An access that passes its checks lies within its segment. -/
theorem inSegment_of_checkAccess {x : Access} {s s' : State} {ps : List Piece} (h : Ends (checkAccess x) s ps s') :
    x.spans.all (inSegment x.seg) = true := by
  by_contra hout
  have htraps : Traps (checkSegment x) s ⟨.segment, x.addr, BitVec.ofNat 64 x.sg, x.sg⟩ s :=
    traps_get_bind (traps_ite_trapWith (by simpa using hout))
  have htraps' := checkAccess_traps_of_checkSegment htraps
  exact nomatch congrArg Prod.fst (h.run_eq.symm.trans htraps')

/-- A scalar store whose operands and place come at once and whose checks pass ends. -/
theorem ends_storeScalar {s s1 s2 s3 : State} {release : Bool} {d a : Reg} {sg : SReg} {fmt : Fmt} {disp : BitVec 8} {ps : List Piece}
    (ht : Takes [a, d] none s s1)
    (hc : Ends (checkAccess (ownAccess s1 sg.toNat (effective s1 a disp (Fmt.bytes fmt)) (Fmt.bytes fmt) (Fmt.bytes fmt) false true)) s1 ps s2)
    (hs : Ends (storeBytes (ownAccess s1 sg.toNat (effective s1 a disp (Fmt.bytes fmt)) (Fmt.bytes fmt) (Fmt.bytes fmt) false true)
      (wbPoint s1 1) .plain (writesOf ps (gval s1 d).toNat) release .store) s2 () s3) :
    Ends (storeScalar release d sg a fmt disp) s () (endFall 1 s3) :=
  Ends.bind ht (ends_get_bind (Ends.bind hc (Ends.bind hs ((ends_modify ..).2 rfl))))

/-- Settles O27: the operands, the checks and the store itself end one after the other, and the instruction falls through. -/
theorem storeResults : Obligations.StoreResults := by
  refine fun s s1 s2 s3 d a sg fmt disp ps => ⟨fun ht hc => ⟨fun hs => ?_, fun hs => ?_⟩, fun ht hc hs => ?_, fun s0 ht ho hc hf hs => ?_,
    fun s0 op ty ht hspace hc ho hs => ?_⟩
  · exact run_of_end (ends_storeScalar ht hc hs)
  · exact run_of_end (ends_storeScalar ht hc hs)
  · have heff : effective s1 a 0 (Fmt.bytes .s64) = ((gval s1 a).toNat : Int) := by simp [effective]
    exact run_of_end (ends_storeScalar (sg := 0) (fmt := .s64) (disp := 0) ht (heff ▸ hc) (heff ▸ hs))
  · exact run_of_end (Ends.bind ht (Ends.bind ho (ends_get_bind (Ends.bind hc (Ends.bind hf (Ends.bind hs ((ends_modify ..).2 rfl)))))))
  · refine run_of_end (Ends.bind ht (ends_get_bind (ends_ite_of_neg ?inside (ends_ite_of_neg ?commons (Ends.bind hc (Ends.bind ho (ends_get_bind
      (Ends.bind hs ((ends_modify ..).2 rfl)))))))))
    case inside => simp [inSegment_of_checkAccess hc]
    case commons => simp [hspace]

end Sys2Proof.Machine
end

section
/-! SUPPORT. The checks of an access, a store at a plain place, and AMO (R98, R273 to R275); O30. -/

namespace Sys2Proof.Machine

/-! ### The checks leave their thread the issuing one -/

@[simp] theorem pagerTry_cur (s : State) (core : Nat) (f : PageFault) : (pagerTry s core f).2.cur = s.cur := by
  have hplace := hwPlace_cur s core f.estate ((estateOf s f.estate).pagerBase + 32 * ((estateOf s f.estate).pagerNext %
    ((estateOf s f.estate).pagerSize / 32))) false true
  unfold pagerTry
  dsimp only
  split
  · rfl
  · split <;> rename_i heq <;> rw [heq] at hplace
    · exact hplace
    next h s1 =>
      have hload := hwLoad_cur s1 f.estate h 4
      split <;> rename_i heq2 <;> rw [heq2] at hload
      · rw [setEstate_cur, hwStore_cur, hload, hplace]
      · rw [hload, hplace]

@[simp] theorem takeFault_cur (s : State) (core est thread va level entry : Nat) (file : Bool) (kind : Nat) :
    (takeFault s core est thread va level entry file kind).2.cur = s.cur := by
  unfold takeFault
  dsimp only
  split
  · rfl
  · split
    · rfl
    · split
      · rfl
      · split <;> rename_i heq <;> have hp := congrArg (fun r => r.2.cur) heq <;> rw [pagerTry_cur] at hp
        · exact hp.symm
        · rw [sinkRecord_cur]
          exact hp.symm

/-- The issuing slot is k. -/
def IssuesIn (k : Nat) (s : State) : Prop := s.cur.slot = k

section
variable {x : Access} {k : Nat}

theorem preserves_checkSegment {P : State → Prop} : Preserves P (checkSegment x) :=
  preserves_get_bind fun _ _ => preserves_guard (preserves_trapWith _ _ _ _) fun _ => preserves_guard (preserves_trapWith _ _ _ _) fun _ =>
    preserves_guard (preserves_trapWith _ _ _ _) fun _ => preserves_guard (preserves_trapWith _ _ _ _) fun _ => by
      split
      · exact preserves_trapWith _ _ _ _
      · exact preserves_pure _

theorem preserves_checkPlats {P : State → Prop} {ps : List Piece} : Preserves P (checkPlats x ps) := by
  refine preserves_get_bind fun s _ => ?_
  split
  · exact preserves_pure _
  · refine preserves_guard (preserves_trapWith _ _ _ _) fun _ => preserves_guard (preserves_trapWith _ _ _ _) fun _ => ?_
    split
    · exact preserves_trapWith _ _ _ _
    · exact preserves_pure _

theorem preserves_checkTags {P : State → Prop} : ∀ rs : List (Nat × Nat), Preserves P (checkTags x rs)
  | [] => preserves_pure _
  | r :: rs => preserves_get_bind fun s _ => by
    split
    · exact preserves_checkTags rs
    · exact preserves_trapWith _ _ _ _

theorem preserves_checkReach {P : State → Prop} : ∀ ps : List Piece, Preserves P (checkReach x ps)
  | [] => preserves_pure _
  | p :: ps => preserves_get_bind fun s _ => by
    have hrest : ∀ u : PUnit, Preserves P (checkReach x ps) := fun _ => preserves_checkReach ps
    dsimp only
    split
    · exact preserves_guard (preserves_trapWith _ _ _ _) hrest
    · exact preserves_guard (preserves_trapWith _ _ _ _) fun _ => preserves_guard (preserves_trapWith _ _ _ _) hrest
    · split
      · split
        · exact preserves_bind (preserves_trapWith _ _ _ _) hrest
        · exact hrest ⟨⟩
      · exact hrest ⟨⟩
    · exact hrest ⟨⟩

theorem preserves_pageFault {α : Type} {est va level entry kind sg : Nat} {file : Bool} :
    Preserves (IssuesIn k) (pageFault est va level entry file kind sg : Exec α) := by
  refine preserves_get_bind fun s hs => preserves_bind (preserves_set ?_) fun _ => ?_
  · rwa [IssuesIn, takeFault_cur]
  · split
    · exact preserves_bind (preserves_modify fun _ ht => ht) fun _ => preserves_waitFor _ _
    · exact preserves_trapWith _ _ _ _

theorem preserves_translateRuns (rs : List (Nat × Nat)) : Preserves (IssuesIn k) (translateRuns x rs) := by
  induction rs with
  | nil => exact preserves_pure _
  | cons r rs ih =>
    refine preserves_get_bind fun s hs => preserves_bind (preserves_set ?_) fun _ => ?_
    · rwa [IssuesIn, xlate_cur]
    · dsimp only
      split
      · exact preserves_pageFault
      · exact preserves_guard (preserves_trapWith _ _ _ _) fun _ => preserves_guard (preserves_trapWith _ _ _ _) fun _ =>
          preserves_bind ih fun _ => preserves_pure _

theorem preserves_checkAccess : Preserves (IssuesIn k) (checkAccess x) := by
  refine preserves_bind preserves_checkSegment fun _ => ?_
  extract_lets late
  have hlate : ∀ ps, Preserves (IssuesIn k) (late ps) := fun ps => preserves_bind preserves_checkPlats fun _ =>
    preserves_guard (preserves_checkTags _) fun _ => preserves_get_bind fun _ _ => preserves_guard (preserves_waitFor _ _) fun _ =>
    preserves_bind (preserves_checkReach _) fun _ => preserves_bind (preserves_modify fun _ ht => ht) fun _ => preserves_pure _
  clear_value late
  split
  · exact preserves_bind (preserves_translateRuns _) hlate
  · exact preserves_bind (preserves_pure _) hlate
  · exact preserves_bind (preserves_pure _) hlate

/-- The checks of an access leave its thread the issuing one. -/
theorem slot_of_ends_checkAccess {s t : State} {ps : List Piece} (h : Ends (checkAccess x) s ps t) : t.cur.slot = s.cur.slot := by
  have hkept := preserves_checkAccess (x := x) (k := s.cur.slot) s rfl
  rwa [h.run_eq] at hkept

end

/-! ### A store at any plain place -/

section
variable {s : State} {p : Piece}

theorem Piece.plain.loadHome_eq (h : p.plain s) : loadHome s p.home p.n = .value (bytesAt s p.home p.n) := by
  obtain ⟨-, -, hhome⟩ := h
  obtain ⟨home, n, plat⟩ := p
  cases home with
  | scratch c o => simp_all [loadHome, bytesAt]
  | commons a => simp_all [loadHome, bytesAt]
  | hbm q => simp_all [loadHome, lostAt_hbm_of_forall hhome.2, bytesAt]
  | host | remote | coherent => exact hhome.elim

theorem Piece.plain.prepare_eq (h : p.plain s) (store : Bool) : prepare s p.home store = s := by
  obtain ⟨-, -, hhome⟩ := h
  obtain ⟨home, n, plat⟩ := p
  cases home with
  | scratch | commons | hbm | remote | coherent => rfl
  | host => exact hhome.elim

theorem storeHome_scratch_of_sound {c o : Nat} (h : o / 64 ∉ (coreOf s c).scratchPoison) (n v mask : Nat) :
    storeHome s (.scratch c o) n v mask = setCore { s with history := s.history ++ oldBytes s (.scratch c o) (coreOf s c).scratch n } c
      { coreOf s c with
        scratch := memMask (coreOf s c).scratch o v mask n
        scratchPoison := (coreOf s c).scratchPoison.filter (· != o / 64) } := by
  rw [storeHome, if_neg (by simp [h])]

/-- A store at a plain place leaves its bytes there, and every other byte as it was (R110, R120, R240). -/
theorem bytes_storeHome_of_plain (hp : p.plain s) (hok : s.memOk = true) (v : Nat) :
    bytesAt (storeHome s p.home p.n v (fullMask p.n)) p.home p.n = v % 2 ^ (8 * p.n) ∧
      ∀ h : Home, ¬ h.within p.home p.n → byteAt (storeHome s p.home p.n v (fullMask p.n)) h = byteAt s h := by
  by_cases hs : ∃ c o, p.home = .scratch c o
  · obtain ⟨home, n, plat⟩ := p
    obtain ⟨c, o, rfl⟩ := hs
    obtain ⟨-, -, hpoison⟩ := hp
    have hwf := wf_scratch_coreOf ((memOk_iff_canonical s).1 hok) c
    dsimp only
    rw [storeHome_scratch_of_sound hpoison]
    refine ⟨?_, fun h hout => ?_⟩
    · simp only [bytesAt, coreOf_setCore_self]
      exact memRead_memMask_fullMask hwf o n v
    · cases h with
      | scratch c' x =>
        by_cases hc : c' = c
        · subst hc
          simp only [byteAt, coreOf_setCore_self]
          refine memGet_memMask_of_out _ _ _ _ _ _ hwf ?_
          by_contra hin
          exact hout ⟨x - o, by omega, congrArg (Home.scratch c') (by omega)⟩
        · simp only [byteAt, coreOf_setCore_of_ne _ _ hc]
          rfl
      | commons | hbm | host | remote | coherent => rfl
  · have hstored := stored_storeHome_of_plain hp hok (fun c o he => hs ⟨c, o, he⟩) v
    exact ⟨hstored.value, hstored.frame⟩

end

/-! ### What AMO writes (R273 to R275) -/

theorem memRead_lt (m : Memory) (n : Nat) : ∀ a, memRead m a n < 2 ^ (8 * n) := by
  induction n with
  | zero => simp [memRead]
  | succ n ih =>
    intro a
    have hbyte : (memGet m a).toNat < 256 := (memGet m a).isLt
    have hrest := ih (a + 1)
    rw [memRead, Nat.mul_succ, Nat.pow_add]
    omega

theorem bytesAt_lt (s : State) (h : Home) (n : Nat) : bytesAt s h n < 2 ^ (8 * n) := by
  cases h with
  | remote | coherent => exact Nat.two_pow_pos _
  | scratch | commons | hbm | host => exact memRead_lt ..

/-- The word that an AMO leaves in its operand (R274): old is the operand, y the value of its instruction, e the code that CAS expects. -/
def amoWord (op : AmoOp) (old : Nat) (y e : Word) : Word :=
  let x : Word := BitVec.ofNat 64 old
  match op with
  | .add => x + y | .and => x &&& y | .or => x ||| y | .xor => x ^^^ y
  | .min => if y.toInt < x.toInt then y else x | .max => if x.toInt < y.toInt then y else x
  | .minu => if y.toNat < x.toNat then y else x | .maxu => if x.toNat < y.toNat then y else x
  | .swap => y | .cas => if x = e then y else x
  | .fadd => BitVec.ofNat 64 (addF fmtF32 .rne false old (y.toNat % 2 ^ 32)).1
  | .fmin => BitVec.ofNat 64 (minMaxF fmtF32 false false old (y.toNat % 2 ^ 32)).1
  | .fmax => BitVec.ofNat 64 (minMaxF fmtF32 false true old (y.toNat % 2 ^ 32)).1

/-- An F32 code keeps its four bytes as a word. -/
theorem mod_f32_word (v : Nat) : v % 2 ^ (8 * 4) = (BitVec.ofNat 64 v).toNat % 2 ^ (8 * 4) := by
  rw [BitVec.toNat_ofNat]
  omega

/-- An AMO writes that word, or where CAS writes nothing the operand is that word. -/
theorem amoNew_eq (op : AmoOp) (old : Nat) (y e : Word) :
    (∃ v, amoNew op old y e = some v ∧ v % 2 ^ (8 * amoSize op) = (amoWord op old y e).toNat % 2 ^ (8 * amoSize op)) ∨
      op = .cas ∧ amoNew op old y e = none ∧ amoWord op old y e = BitVec.ofNat 64 old := by
  cases op with
  | add | and | or | xor | swap => exact .inl ⟨_, rfl, rfl⟩
  | min | max => exact .inl ⟨_, rfl, by simp only [amoWord, BitVec.slt, decide_eq_true_eq]⟩
  | minu | maxu => exact .inl ⟨_, rfl, by simp only [amoWord, BitVec.ult, decide_eq_true_eq]⟩
  | fadd | fmin | fmax => exact .inl ⟨_, rfl, mod_f32_word _⟩
  | cas =>
    by_cases h : BitVec.ofNat 64 old = e
    · exact .inl ⟨y.toNat, by simp [amoNew, h], by simp [amoWord, h]⟩
    · exact .inr ⟨rfl, by simp [amoNew, h], by simp [amoWord, h]⟩

/-- An AMO at a plain home answers the old value and leaves its word there. -/
theorem amoPerform_of_plain {s : State} {p : Piece} {op : AmoOp} (hp : p.plain s) (hok : s.memOk = true) (hn : p.n = amoSize op) (y e : Word) :
    ∃ t, amoPerform op p.home y e s = (.value (bytesAt s p.home p.n), t) ∧
      bytesAt t p.home p.n = (amoWord op (bytesAt s p.home p.n) y e).toNat % 2 ^ (8 * p.n) ∧
      ∀ h : Home, ¬ h.within p.home p.n → byteAt t h = byteAt s h := by
  have hload := hp.loadHome_eq
  simp only [amoPerform, hp.prepare_eq, ← hn, hload]
  rcases amoNew_eq op (bytesAt s p.home p.n) y e with ⟨v, hv, hword⟩ | ⟨rfl, hnone, hword⟩
  · obtain ⟨hvalue, hframe⟩ := bytes_storeHome_of_plain hp hok v
    rw [← hn] at hword
    exact ⟨storeHome s p.home p.n v (fullMask p.n), by rw [hv], hvalue.trans hword, hframe⟩
  · refine ⟨s, by rw [hnone], ?_, fun _ _ => rfl⟩
    have hlt := bytesAt_lt s p.home p.n
    have h8 : p.n = 8 := hn
    rw [hword, BitVec.toNat_ofNat]
    rw [h8] at hlt ⊢
    omega

/-- What an AMO that acquires leaves for later loads (R122, R125). -/
def amoBarred (acquire : Bool) (thread : Nat) (line : Home) (s : State) : State :=
  if acquire then closeCombining thread (barLines thread [line] s) else barLines thread [line] s

theorem byteAt_amoBarred (acquire : Bool) (thread : Nat) (line : Home) (s : State) (h : Home) :
    byteAt (amoBarred acquire thread line s) h = byteAt s h := by
  unfold amoBarred
  split
  · exact (byteAt_withReads ..).trans (byteAt_withReads ..)
  · exact byteAt_withReads ..

/-- The end of an AMO whose home answers. -/
theorem ends_amoFinish {s t : State} {acquire : Bool} {thread : Nat} {line : Home} {d : Reg} {v : Word} :
    Ends (do
      set t
      modify (barLines thread [line])
      if acquire then modify (closeCombining thread)
      modify (fun s => endFall 1 (putG (wbPoint s 1) d v s))) s () (writesG 1 d v (amoBarred acquire thread line t)) := by
  refine ends_set_bind (ends_modify_bind ?_)
  cases acquire with
  | true => exact ends_ite_of_pos rfl (ends_modify_bind ((ends_modify ..).2 rfl))
  | false => exact ends_ite_of_neg (by simp) ((ends_modify ..).2 rfl)

theorem ends_amoSend_of_here {s : State} {p : Piece} (h : needsLine s p.home true = false) (core slot : Nat) (op : AmoOp) (vb vd : Word) :
    Ends (execAmo.amoSend core slot p op vb vd) s () s :=
  ends_get_bind (ends_ite_of_neg (by simp [h]) ((ends_pure ..).2 ⟨rfl, rfl⟩))

/-- Settles O30: nothing comes before the AMO, its home answers at once, and one store at a plain place is all that it writes. -/
theorem amoResult : Obligations.AmoResult := by
  intro s s1 s2 op ar scope d a b sg p ht hc hp hok hn hstores hreads hdefer
  extract_lets old x y new
  obtain ⟨t, hperform, hvalue, hframe⟩ := amoPerform_of_plain hp hok hn y (gval s2 d)
  have hslot : s2.cur.slot = s1.cur.slot := slot_of_ends_checkAccess hc
  have hline : needsLine s2 p.home true = false := by
    obtain ⟨-, hline, -⟩ := hp
    exact hline
  have hawait : Ends (awaitEntries s1.cur.slot (amoBehind ar scope s1.cur.core p)) s2 () s2 := by
    refine ends_awaitEntries_of_none ?_
    rw [← hslot, ← curSlot, hstores]
    rfl
  refine ⟨amoBarred (ar && decide (2 ≤ Scope.rank scope)) (threadId s1.cur.core s1.cur.slot) p.home.line t, run_of_end ?_, ?_,
    fun h hout => ?_⟩
  · refine Ends.bind ht (ends_get_bind (Ends.bind hc (Ends.bind hawait (Ends.bind (ends_amoSend_of_here hline ..) (ends_get_bind
      (ends_ite_of_neg ?now ?_))))))
    case now =>
      change ¬ (s2.cur.defer || needsLine s2 p.home true || readsAhead s2 s1.cur.core p) = true
      simp [hdefer, hline, hreads]
    dsimp only
    rw [hperform]
    exact Ends.bind ((ends_pure ..).2 ⟨rfl, rfl⟩) ends_amoFinish
  · rw [bytesAt_congr (byteAt_amoBarred _ _ _ _)]
    exact hvalue
  · rw [byteAt_amoBarred]
    exact hframe h hout

end Sys2Proof.Machine
end

section
/-! SUPPORT. The instructions of the copy engine and of the matrix units (R208, R210, R213, R214, R289, R291); O41. -/

namespace Sys2Proof.Machine

section
variable {s s1 s2 : State} {a b : Reg} {e : EReg} {seat : Nat}

/-- The checks of a seat leave the issue in progress as it is. -/
theorem cur_of_ends_checkSeat {w : Word} {unit : Bool} (h : Ends (checkSeat w unit) s1 seat s2) : s2.cur = s1.cur := by
  have hkept : Preserves (fun t => t.cur = s1.cur) (checkSeat w unit) :=
    preserves_get_bind fun t ht => preserves_guard (preserves_trapWith _ _ _ _) fun _ => preserves_bind (preserves_set ht) fun _ =>
      preserves_guard (preserves_waitFor _ _) fun _ => preserves_guard (preserves_trapWith _ _ _ _) fun _ =>
      preserves_guard (preserves_trapWith _ _ _ _) fun _ => preserves_pure _
  have hcur := hkept s1 rfl
  rwa [h.run_eq] at hcur

/-- An instruction that has taken its operands and passed the seat checks answers at once where its move said so. -/
theorem defer_of_checkSeat {srcs : List Reg} {w : Word} {unit : Bool} (ht : Takes srcs none s s1) (h : Ends (checkSeat w unit) s1 seat s2) :
    s2.cur.defer = s.cur.defer := by
  rw [cur_of_ends_checkSeat h, ht.popsQueues.eq_of_cur]
  obtain ⟨ps, rfl, -⟩ := ht.popsQueues
  rfl

/-! ### MFMT and MZERO (R208, R214) -/

theorem ends_behindDrains (h : drainAhead s s.cur.core s.cur.slot seat = false) : Ends (behindDrains seat) s () s :=
  ends_get_bind (ends_ite_of_neg (by simp [h]) ((ends_pure ..).2 ⟨rfl, rfl⟩))

theorem ends_sendSeat (h : drainAhead s s.cur.core s.cur.slot seat = false) (hd : s.cur.defer = false) (hrun : seat / 16 ∉ s.halted)
    (ctx : Option (Word × Word)) : Ends (sendSeat seat ctx) s () (endFall 1 (applySeat seat ctx s)) :=
  (ends_behindDrains h).bind (ends_get_bind (ends_ite_of_neg (by simp [hd, hrun]) ((ends_modify ..).2 rfl)))

theorem waits_sendSeat (h : drainAhead s s.cur.core s.cur.slot seat = false) (hl : ¬ (s.cur.defer = false ∧ seat / 16 ∉ s.halted))
    (ctx : Option (Word × Word)) : Waits (sendSeat seat ctx) s (seatWait seat 0) (.seat seat (heldGen s seat) ctx) s := by
  refine (ends_behindDrains h).bind_waits (waits_get_bind (waits_ite_of_pos ?_ rfl))
  simpa [imp_iff_or_not, or_comm] using hl

theorem applySeat_mfmt (c0 c1 : Word) (s : State) : ∃ acc, applySeat seat (some (c0, c1)) s =
      setSeat (computeRing (seat / 16) (seat % 16) s) (seat / 16) (seat % 16) { seatOf (computeRing (seat / 16) (seat % 16) s) (seat / 16) (seat % 16) with
        ctx0 := c0, ctx1 := c1
        binder := some ((computeRing (seat / 16) (seat % 16) s).cur.core, (curSlot (computeRing (seat / 16) (seat % 16) s)).task)
        acc := acc } ∧
    acc = if (seatOf (computeRing (seat / 16) (seat % 16) s) (seat / 16) (seat % 16)).exact = Seat.exact { ctx0 := c0, ctx1 := c1 }
      then (seatOf (computeRing (seat / 16) (seat % 16) s) (seat / 16) (seat % 16)).acc else [] := by
  refine ⟨_, rfl, ?_⟩
  simp only [beq_iff_eq]
  rfl

section
variable (hcore : s.cur.core < garnet)
include hcore

section
variable (ht : Takes [a] none s s1) (hc : Ends (checkSeat (gval s1 a) false) s1 seat s2)
  (hok : ctxOk (eval s1 e.toNat) (eval s1 (e.toNat + 1)) = true)
include ht hc hok

theorem execMfmt_of_ends {t : State} (h : Ends (sendSeat seat (some (eval s1 e.toNat, eval s1 (e.toNat + 1)))) s2 () t) :
    execMfmt a e s = .next t :=
  run_of_end ((notGarnet_of_lt hcore).bind (Ends.bind ht (ends_get_bind (hc.bind (ends_ite_of_neg (by simp [hok]) h)))))

theorem execMfmt_of_waits {w : WaitState} {p : Pending} {t : State}
    (h : Waits (sendSeat seat (some (eval s1 e.toNat, eval s1 (e.toNat + 1)))) s2 w p t) : execMfmt a e s = .next (takeWait w p t) :=
  run_of_waits ((notGarnet_of_lt hcore).bind_waits (Ends.bind_waits ht (waits_get_bind (hc.bind_waits (waits_ite_of_neg (by simp [hok]) h)))))

end

section
variable (ht : Takes [b] none s s1) (hc : Ends (checkSeat (gval s1 b) false) s1 seat s2)
include ht hc

theorem execMzero_of_ends {t : State} (h : Ends (sendSeat seat none) s2 () t) : execMzero b s = .next t :=
  run_of_end ((notGarnet_of_lt hcore).bind (Ends.bind ht (ends_get_bind (hc.bind h))))

theorem execMzero_of_waits {w : WaitState} {p : Pending} {t : State} (h : Waits (sendSeat seat none) s2 w p t) :
    execMzero b s = .next (takeWait w p t) :=
  run_of_waits ((notGarnet_of_lt hcore).bind_waits (Ends.bind_waits ht (waits_get_bind (hc.bind_waits h))))

end
end

/-! ### The tile that an instruction names (R101 to R103) -/

theorem ends_namedTile {w : Word} {n : Nat} (hw : w.toNat < 64) (hsize : (tileOf (curCore s) w.toNat).size ≠ 0)
    (hstate : (tileOf (curCore s) w.toNat).state ≠ .failed) (hn : n ≤ (tileOf (curCore s) w.toNat).size) :
    Ends (namedTile w n) s w.toNat s :=
  ends_ite_of_neg (by omega) (ends_get_bind (ends_ite_of_neg (by simp [hsize, hstate, hn]) ((ends_pure ..).2 ⟨rfl, rfl⟩)))

theorem tileWaitOver_needReady {c : Core} {n : Nat} (hp : tilePending c n = false) (h : (tileOf c n).state = .ready) :
    tileWaitOver c n needReady = true := by simp [tileWaitOver, needReady, needIdle, hp, h]

theorem tileWaitOver_needEmpty {c : Core} {n : Nat} (hp : tilePending c n = false) (h : (tileOf c n).state = .empty) :
    tileWaitOver c n needEmpty = true := by simp [tileWaitOver, needReady, needEmpty, needIdle, hp, h]

/-- Nothing acquires at an EMPTY tile. -/
theorem observe_of_empty {t : Tile} (h : t.state = .empty) (s : State) : observe t s = s := by simp [observe, h]

/-- The tile is there, large enough, and no TSET on it is on its way. -/
structure TileFits (s : State) (n size : Nat) : Prop where
  number : n < 64
  installed : (tileOf (curCore s) n).size ≠ 0
  room : size ≤ (tileOf (curCore s) n).size
  settled : tilePending (curCore s) n = false

section
variable {w : Word} {size : Nat} (hf : TileFits s w.toNat size)
include hf

theorem ends_namedTile_awaitReady {β : Type} {f : Nat → Exec β} {c : β} {t : State} (hr : (tileOf (curCore s) w.toNat).state = .ready)
    (h : Ends (f w.toNat) (observe (tileOf (curCore s) w.toNat) s) c t) :
    Ends (namedTile w size >>= fun n => awaitTile n needReady >>= fun _ => f n) s c t :=
  (ends_namedTile hf.number hf.installed (by simp [hr]) hf.room).bind ((awaitTile_ends (tileWaitOver_needReady hf.settled hr)).bind h)

theorem ends_namedTile_awaitEmpty {β : Type} {f : Nat → Exec β} {c : β} {t : State} (he : (tileOf (curCore s) w.toNat).state = .empty)
    (h : Ends (f w.toNat) s c t) : Ends (namedTile w size >>= fun n => awaitTile n needEmpty >>= fun _ => f n) s c t := by
  refine (ends_namedTile hf.number hf.installed (by simp [he]) hf.room).bind ((awaitTile_ends (tileWaitOver_needEmpty hf.settled he)).bind ?_)
  rwa [observe_of_empty he]

end

/-! ### MLOADB and MDRAIN (R210, R213) -/

section
variable (hcore : s.cur.core < garnet) (ht : Takes [a, b] none s s1)
include hcore ht

theorem execMloadb_of_ready (hr : (eval s1 e.toNat).toNat < 8) (hc : Ends (checkSeat (gval s1 b) true) s1 seat s2)
    (hf : TileFits s2 (gval s1 a).toNat 66048) (hready : (tileOf (curCore s2) (gval s1 a).toNat).state = .ready) :
    execMloadb a b e s = .next (startOp .mloadb (gval s1 a).toNat seat [eval s1 e.toNat] .draining
      (observe (tileOf (curCore s2) (gval s1 a).toNat) s2)) :=
  run_of_end ((notGarnet_of_lt hcore).bind (Ends.bind ht (ends_get_bind (ends_ite_of_neg (by omega) (hc.bind
    (ends_namedTile_awaitReady hf hready ((ends_modify ..).2 rfl)))))))

theorem ends_drain (hr : drainIllegal (eval s1 e.toNat) = false) (hc : Ends (checkSeat (gval s1 b) false) s1 seat s2)
    (hf : TileFits s2 (gval s1 a).toNat (drainCount (eval s1 e.toNat) * drainRow (drainFmt (eval s1 e.toNat))))
    (hempty : (tileOf (curCore s2) (gval s1 a).toNat).state = .empty) (clear : Bool) :
    Ends (drain clear a b e) s () (startOp (.mdrain clear) (gval s1 a).toNat seat [eval s1 e.toNat] .filling s2) :=
  (notGarnet_of_lt hcore).bind (Ends.bind ht (ends_get_bind (ends_ite_of_neg (by simp [hr]) (hc.bind
    (ends_namedTile_awaitEmpty hf hempty ((ends_modify ..).2 rfl))))))

end

/-! ### COPY (R289, R291) -/

/-- A COPY at its issue as an engine operation. -/
def copyOp (s : State) (e : EReg) : EngineOp :=
  { kind := .copy, core := s.cur.core, slot := s.cur.slot, estate := (curSlot s).estate, task := (curSlot s).task,
    tile := copyTile (eRun s e 14), regs := eRun s e 14,
    sseg := (curSlot s).sg[if copyOut (eRun s e 14) then copyDseg (eRun s e 14) else copySseg (eRun s e 14)]?.getD {},
    dseg := (curSlot s).sg[if copyOut (eRun s e 14) then copyDseg (eRun s e 14) else copySseg (eRun s e 14)]?.getD {},
    after := (curSlot s).storeSeq,
    scope := sideScope s.cur.core ((curSlot s).sg[if copyOut (eRun s e 14) then copyDseg (eRun s e 14) else copySseg (eRun s e 14)]?.getD {}),
    index := (curSlot s).index }

theorem ops_observe (t : Tile) (s : State) : (observe t s).ops = s.ops := by
  unfold observe
  split <;> rfl

theorem cur_observe (t : Tile) (s : State) : (observe t s).cur = s.cur := by
  unfold observe
  split <;> rfl

/-- A COPY whose operands, tile and ranges pass is in flight. -/
theorem execCopy_of_legal (hl : copyIllegal (eRun s e 14) = false) (hu : uses s (curSlot s).estate (parcelEngine (clusterOf s.cur.core)) = true)
    (hsize : (tileOf (curCore s) (copyTile (eRun s e 14))).size ≠ 0) (hstate : (tileOf (curCore s) (copyTile (eRun s e 14))).state ≠ .failed)
    (hranges : Ends (copyRanges (eRun s e 14) (tileOf (curCore s) (copyTile (eRun s e 14))) (copyTile (eRun s e 14))
      (if copyOut (eRun s e 14) then copyDseg (eRun s e 14) else copySseg (eRun s e 14)) (copyOp s e).sseg (copyOut (eRun s e 14))) s () s)
    (hp : tilePending (curCore s) (copyTile (eRun s e 14)) = false) (hroom : copiesOf s s.cur.core < 512)
    (hready : (tileOf (curCore s) (copyTile (eRun s e 14))).state = if copyOut (eRun s e 14) then .ready else .empty) :
    execCopy e s = .next (endFall 1 { setTile (observe (tileOf (curCore s) (copyTile (eRun s e 14))) s) s.cur.core (copyTile (eRun s e 14))
        { tileOf (curCore s) (copyTile (eRun s e 14)) with state := if copyOut (eRun s e 14) then .draining else .filling } with
      ops := mapSet s.ops (nextOp s) (copyOp s e) }) := by
  have hwait : tileWaitOver (curCore s) (copyTile (eRun s e 14)) (if copyOut (eRun s e 14) then needReady else needEmpty) = true := by
    cases hout : copyOut (eRun s e 14) with
    | true => exact tileWaitOver_needReady hp (by simpa [hout] using hready)
    | false => exact tileWaitOver_needEmpty hp (by simpa [hout] using hready)
  refine run_of_end (ends_get_bind (ends_ite_of_neg (by simp [hl]) (ends_ite_of_neg (by simp [hu]) (ends_ite_of_neg (by simp [hsize, hstate])
    (hranges.bind ((awaitTile_ends hwait).bind (ends_ite_of_neg (by omega) ((ends_modify ..).2 ?_))))))))
  simp only [nextOp, ops_observe, cur_observe]
  rfl

end

/-- Settles O41: each of these instructions makes its checks in order and then changes the seat, or starts its operation. -/
theorem engineInstructionResults : Obligations.EngineInstructionResults := by
  refine ⟨?copy, fun s s1 s2 a b e seat hcore => ?units⟩
  case copy =>
    intro s e hcore r n t x sg seg o hl hu hsize hstate hranges hp hroom hready
    exact execCopy_of_legal hl hu hsize hstate hranges hp hroom hready
  case units =>
    intro u i tile fits now s3
    refine ⟨fun ht hc hok hd => ⟨fun ⟨hnow, hrun⟩ => ?_, fun hlater => ?_⟩, fun ht hc hd => ⟨fun ⟨hnow, hrun⟩ => ?_, fun hlater => ?_⟩,
      fun ht hr hc ⟨hn, hsize, hroom, hp⟩ hready => execMloadb_of_ready hcore ht hr hc ⟨hn, hsize, hroom, hp⟩ hready,
      fun ht hr hc ⟨hn, hsize, hroom, hp⟩ hempty => ⟨run_of_end (ends_drain hcore ht hr hc ⟨hn, hsize, hroom, hp⟩ hempty false),
        run_of_end (ends_drain hcore ht hr hc ⟨hn, hsize, hroom, hp⟩ hempty true)⟩⟩
    · obtain ⟨acc, happly, hacc⟩ := applySeat_mfmt (seat := seat) (eval s1 e.toNat) (eval s1 (e.toNat + 1)) s2
      have hsend := ends_sendSeat hd ((defer_of_checkSeat ht hc).trans hnow) hrun (some (eval s1 e.toNat, eval s1 (e.toNat + 1)))
      rw [happly] at hsend
      exact ⟨acc, execMfmt_of_ends hcore ht hc hok hsend, hacc⟩
    · simp only [now, ← defer_of_checkSeat ht hc] at hlater
      exact execMfmt_of_waits hcore ht hc hok (waits_sendSeat hd hlater _)
    · exact execMzero_of_ends hcore ht hc (ends_sendSeat hd ((defer_of_checkSeat ht hc).trans hnow) hrun none)
    · simp only [now, ← defer_of_checkSeat ht hc] at hlater
      exact execMzero_of_waits hcore ht hc (waits_sendSeat hd hlater none)

end Sys2Proof.Machine
end

section
/-! SUPPORT. The messages of the coherence directory one by one: the steward's queue and its transactions, the holder's answers, the
requester's Data and Acks, and the loss of a package; O59. -/

namespace Sys2Proof.Machine

/-! ### Arrival -/

/-- The state without a message of this package to itself. -/
def State.withoutOwn (s : State) (m : FabricMsg) : State := { s with outbox := s.outbox.erase (s.pkgId.toNat, m) }

theorem received_eq (s : State) (m : FabricMsg) : received s m = s.withoutOwn m := if_pos rfl

theorem unsend_of_ne {s : State} {src : Nat} (m : FabricMsg) (h : src ≠ s.pkgId.toNat) : unsend s m src = s := if_neg h

theorem received_of_notMem {s : State} {m : FabricMsg} (h : (s.pkgId.toNat, m) ∉ s.outbox) : received s m = s := by
  rw [received_eq, State.withoutOwn, List.erase_of_not_mem h]

theorem takeRequest_of_new {s : State} {q : Sender} {home line : Nat} {m : FabricMsg} {r : DirReq} {f : State → State}
    (hsteward : isSteward s home line = true) (hne : q.pkg ≠ s.pkgId.toNat) (hfull : stewardFull s home = false)
    (hwindow : behindWindow s q.pkg q.seq = false) (hnew : takenBefore s q.pkg q.seq m = false) :
    takeRequest s q home line m r f = f (keepReply s q.pkg q.seq m) := by
  simp [takeRequest, hsteward, hnew, hwindow, hfull, unsend_of_ne m hne]

theorem takeRequest_of_ended {s : State} {q : Sender} {home line : Nat} {m : FabricMsg} {r : DirReq} {f : State → State}
    (hsteward : isSteward s home line = true) (hne : q.pkg ≠ s.pkgId.toNat) (htaken : takenBefore s q.pkg q.seq m = true)
    (hnone : dirFind s home line = none) : takeRequest s q home line m r f = s := by
  simp [takeRequest, hsteward, htaken, hnone, unsend_of_ne m hne]

theorem takePut_of_new {s : State} {q : Sender} {home line : Nat} {m : FabricMsg} {data : Option LineData} {owned : Bool}
    (hsteward : isSteward s home line = true) (hne : q.pkg ≠ s.pkgId.toNat) (hfull : stewardFull s home = false)
    (hwindow : behindWindow s q.pkg q.seq = false) (hnew : takenBefore s q.pkg q.seq m = false) :
    takePut s q home line m data owned = servePut (keepReply s q.pkg q.seq m) q.pkg home line data owned := by
  simp only [takePut, hnew, Bool.and_false, Bool.false_and, Bool.false_eq_true, ↓reduceIte]
  exact takeRequest_of_new hsteward hne hfull hwindow hnew

/-! ### The queues of a directory -/

theorem dirFind_eq_none_iff {s : State} {home line : Nat} :
    dirFind s home line = none ↔ ∀ d ∈ s.directory, (d.home == home && d.line == line) = false := by
  simp [dirFind]

theorem mem_of_dirFind {s : State} {home line : Nat} {d : DirEntry} (h : dirFind s home line = some d) : d ∈ s.directory :=
  List.mem_of_find?_eq_some h

/-- A line whose entry has an empty queue, or that has no entry, does not go on. -/
theorem advance_of_quiet {s : State} {home line : Nat} (h : ∀ d, dirFind s home line = some d → d.queue = []) :
    advance s home line = s := by
  unfold advance
  cases hd : dirFind s home line with
  | none => rfl
  | some d => simp [h d hd]

/-- No line of the list goes on. -/
theorem foldl_advance_of_quiet {s : State} {l : List DirEntry}
    (h : ∀ x ∈ l, ∀ d, dirFind s x.home x.line = some d → d.queue = []) : l.foldl (fun s d => advance s d.home d.line) s = s := by
  induction l with
  | nil => rfl
  | cons x l ih =>
    rw [List.foldl_cons, advance_of_quiet (h x List.mem_cons_self)]
    exact ih fun y hy => h y (List.mem_cons_of_mem x hy)

theorem pump_of_quiet {s : State} (h : ∀ d ∈ s.directory, d.queue = []) : ∀ n, pump n s = s
  | 0 => rfl
  | n + 1 => by
    rw [pump, foldl_advance_of_quiet fun _ _ d hd => h d (mem_of_dirFind hd), pump_of_quiet h n]

theorem pumpAll_of_quiet {s : State} (h : ∀ d ∈ s.directory, d.queue = []) : pumpAll s = s := pump_of_quiet h _

/-- A line's entry is written behind those of a directory that has none for it. -/
theorem directory_dirPut_of_none {s : State} {d : DirEntry} (h : dirFind s d.home d.line = none) (hfree : d.free = false) :
    (dirPut s d).directory = s.directory ++ [{ d with used := s.cycle }] := by
  have hothers : s.directory.filter (fun x => !(x.home == d.home && x.line == d.line)) = s.directory :=
    List.filter_eq_self.mpr fun x hx => by rw [dirFind_eq_none_iff.mp h x hx]; rfl
  simp only [dirPut, hothers, hfree, Bool.false_eq_true, ↓reduceIte]

theorem quiet_dirPut {s : State} {d : DirEntry} (h : ∀ x ∈ s.directory, (x.home == d.home && x.line == d.line) = true ∨ x.queue = [])
    (hd : d.queue = []) : ∀ x ∈ (dirPut s d).directory, x.queue = [] := by
  intro x hx
  have hmem : (x ∈ s.directory ∧ (x.home == d.home && x.line == d.line) = false) ∨ x = { d with used := s.cycle } := by
    simp only [dirPut] at hx
    split at hx
    · exact .inl (by simpa only [List.mem_filter, Bool.not_eq_true'] using hx)
    · simpa only [List.mem_append, List.mem_filter, Bool.not_eq_true', List.mem_singleton] using hx
  rcases hmem with ⟨hx, hne⟩ | rfl
  · exact (h x hx).resolve_left (by simp [hne])
  · exact hd

/-- An entry that clears its queue leaves a quiet directory, where the others' queues are empty. -/
theorem quiet_first {s : State} {home line : Nat} {r : DirReq} (hnone : dirFind s home line = none)
    (hquiet : ∀ d ∈ s.directory, d.queue = []) :
    ∀ x ∈ (dirPut s { home := home, line := line, queue := [r] }).directory, (x.home == home && x.line == line) = true ∨ x.queue = [] := by
  intro x hx
  rw [directory_dirPut_of_none hnone rfl] at hx
  rcases List.mem_append.mp hx with h | h
  · exact .inr (hquiet x h)
  · left
    simp [List.mem_singleton.mp h]

theorem directory_stewardRequest (dst : Nat) (op : RemoteOp) (l : Option (Nat × Nat)) (s : State) :
    (stewardRequest dst op l s).directory = s.directory := rfl

theorem quiet_dirSet {s : State} {d : DirEntry} (h : ∀ x ∈ s.directory, (x.home == d.home && x.line == d.line) = true ∨ x.queue = [])
    (hd : d.queue = []) : ∀ x ∈ (dirSet s d).directory, x.queue = [] := by
  unfold dirSet
  refine quiet_dirPut ?_ hd
  split <;> exact h

/-- What is written does not depend on when the entry was last used. -/
theorem dirSet_used (s : State) (d : DirEntry) (n : Nat) : dirSet s { d with used := n } = dirSet s d := rfl

@[simp] theorem lostPackages_dirPut (s : State) (d : DirEntry) : (dirPut s d).lostPackages = s.lostPackages := rfl

@[simp] theorem lostPackages_dirSet (s : State) (d : DirEntry) : (dirSet s d).lostPackages = s.lostPackages := by
  unfold dirSet
  dsimp only
  split <;> rfl

/-- The first request of a line begins at once, where the directory is quiet otherwise: for a Put, or for a request that finds a way. -/
theorem pumpAll_first {s : State} {home line : Nat} {r : DirReq} (hnone : dirFind s home line = none)
    (hquiet : ∀ d ∈ s.directory, d.queue = []) (hfull : stewardFull s home = false)
    (hway : (∃ p v o, r = .put p v o) ∨ (setWays s home line).length < 16) :
    let s1 := dirPut s { home := home, line := line, queue := [r] }
    let t := begin s1 { home := home, line := line, used := s.cycle } r
    (∀ d ∈ t.directory, d.queue = []) → pumpAll s1 = t := by
  intro s1 t ht
  have hdir : s1.directory = s.directory ++ [{ home := home, line := line, queue := [r], used := s.cycle }] :=
    directory_dirPut_of_none hnone rfl
  have hfind : dirFind s1 home line = some { home := home, line := line, queue := [r], used := s.cycle } := by
    unfold dirFind at hnone ⊢
    rw [hdir, List.find?_append, hnone]
    simp
  have hold : ∀ x ∈ s.directory, ∀ d, dirFind s1 x.home x.line = some d → d.queue = [] := by
    intro x hx d hd
    have hkey := dirFind_eq_none_iff.mp hnone x hx
    unfold dirFind at hd
    rw [hdir] at hd
    rcases List.mem_append.mp (List.mem_of_find?_eq_some hd) with h | h
    · exact hquiet d h
    · obtain rfl := List.mem_singleton.mp h
      have := List.find?_some hd
      simp only [Bool.and_eq_true, beq_iff_eq] at this
      simp [this.1, this.2] at hkey
  have hways : setWays s1 home line = setWays s home line := by
    simp [setWays, hdir]
  have hadvance : advance s1 home line = t := by
    have hfull' : stewardFull s1 home = false := hfull
    unfold advance
    rw [hfind]
    simp only [hfull', Bool.false_eq_true, ↓reduceIte, hways]
    rcases hway with ⟨p, v, o, rfl⟩ | hway
    · simp [t]
    · simp [t, Nat.not_le.mpr hway]
  have hround : s1.directory.foldl (fun s d => advance s d.home d.line) s1 = t := by
    rw [hdir, List.foldl_append, foldl_advance_of_quiet hold, List.foldl_cons, List.foldl_nil, hadvance]
  have hcount : ∃ n, waitingRequests s1 = n + 1 := by
    refine ⟨(s1.directory.map (fun d => d.queue.length)).foldl (· + ·) 0, ?_⟩
    exact (List.foldl_assoc (op := fun m n : Nat => m + n) (a₁ := 1) (a₂ := 0)).trans (Nat.add_comm ..)
  obtain ⟨n, hn⟩ := hcount
  rw [pumpAll, hn, pump, hround, pump_of_quiet ht]

/-! ### The steward -/

/-- A GetS of a line that nobody holds reads home (R238). -/
theorem serve_getS_first {s : State} {q home line : Nat} (hnone : dirFind s home line = none) (hquiet : ∀ d ∈ s.directory, d.queue = [])
    (hfull : stewardFull s home = false) (hway : (setWays s home line).length < 16) (hhome : homeLost s home = false) :
    serve s home line (.getS q) = stewardRequest home (.readHome line) (some (home, line))
      (dirSet (dirPut s { home := home, line := line, queue := [.getS q] }) { home := home, line := line, busy := some (.getS q) }) := by
  let s1 := dirPut s { home := home, line := line, queue := [.getS q] }
  have hbegin : begin s1 { home := home, line := line, used := s.cycle } (.getS q) =
      stewardRequest home (.readHome line) (some (home, line)) (dirSet s1 { home := home, line := line, busy := some (.getS q) }) := by
    have hlost : homeLost (dirSet s1 { home := home, line := line, busy := some (.getS q), used := s.cycle }) home = false := by
      rw [dirSet_used s1 { home := home, line := line, busy := some (.getS q) }]
      simpa only [homeLost, lostPackages_dirSet, s1, lostPackages_dirPut] using hhome
    simp only [begin, readHome, hlost, Bool.false_eq_true, ↓reduceIte]
    rfl
  rw [serve, dirGet, hnone]
  refine (pumpAll_first hnone hquiet hfull (.inr hway) ?_).trans hbegin
  rw [hbegin, directory_stewardRequest]
  exact quiet_dirSet (quiet_first hnone hquiet) rfl

/-- A Put of a line that nobody holds is acknowledged, and its entry goes (R237). -/
theorem servePut_first {s : State} {q home line : Nat} {v : Option LineData} {owned : Bool} (hnone : dirFind s home line = none)
    (hquiet : ∀ d ∈ s.directory, d.queue = []) (hfull : stewardFull s home = false) :
    servePut s q home line v owned = post q (.putAck home line)
      (dirPut (dirPut s { home := home, line := line, queue := [.put q v owned] }) { home := home, line := line }) := by
  let s1 := dirPut s { home := home, line := line, queue := [.put q v owned] }
  have hbegin : begin s1 { home := home, line := line, used := s.cycle } (.put q v owned) =
      post q (.putAck home line) (dirPut s1 { home := home, line := line }) := rfl
  have hserve : servePut s q home line v owned = pumpAll s1 := by
    simp only [servePut, dirGet, hnone, Option.getD_none, reduceCtorEq, decide_false, Bool.false_and, Bool.false_eq_true, ↓reduceIte]
    rw [serve, dirGet, hnone]
    rfl
  refine hserve.trans ((pumpAll_first hnone hquiet hfull (.inl ⟨q, v, owned, rfl⟩) ?_).trans hbegin)
  rw [hbegin]
  exact quiet_dirPut (d := { home := home, line := line }) (quiet_first hnone hquiet) rfl

/-- Home's bytes go on to the requester that the entry waits for. -/
theorem homeAnswered_line {s : State} {d : DirEntry} {q home line : Nat} {g : Grant} {v : LineData} (hd : dirFind s home line = some d)
    (hbusy : (d.busy = some (.getS q) ∧ g = if d.state = .i then .e else .s) ∨
      ((d.busy = some (.getM q) ∨ d.busy = some (.upgrade q)) ∧ g = .m)) :
    homeAnswered s home line (.line v) = post q (.data home line g (some v) d.acks) s := by
  rw [homeAnswered, hd]
  rcases hbusy with ⟨hb, rfl⟩ | ⟨hb | hb, rfl⟩ <;> simp only [hb]

theorem execHomeReply_eq {s : State} (home line : Nat) (a : HomeAnswer) (h : mirrorFull s = false) :
    execHomeReply home line a s = .next (homeAnswered { s.withoutOwn (.homeData home line a) with
      outstanding := s.outstanding.filter (fun o => !(o.thread == stewardThread && o.line == some (home, line))) } home line a) := by
  simp only [execHomeReply, h, Bool.false_eq_true, ↓reduceIte, received_eq]
  rfl

/-- The requester's Ack ends its transaction (R238). -/
theorem execCompletionAck_eq {s : State} {q home line : Nat} {dirty : Bool} {d : DirEntry} {r : DirReq}
    (hd : dirFind s home line = some d) (hfull : mirrorFull s = false) (hbusy : d.busy = some r) (hr : requestOf q r = true)
    (hq : q ≠ s.pkgId.toNat) (hown : ownDirty s home line = none) (hacks : ∀ b, (s.pkgId.toNat, FabricMsg.ownerAck home line b) ∉ s.outbox) :
    execCompletionAck q home line dirty s = .next (pumpAll (dirSet s { d.after dirty r with busy := none, acks := 0 })) := by
  simp only [execCompletionAck, hfull, Bool.false_eq_true, ↓reduceIte, unsend_of_ne _ hq, received_of_notMem (hacks _), hd, hown, hbusy,
    Option.map_some, Option.getD_some, Option.getD_none, hr, endTransaction]

/-! ### The holder -/

theorem execFwds_of_holder {s : State} {q home line : Nat} {r : RlcLine} (h : holderLine s home line owns = some r) :
    execFwds q home line s = .next (post ((stewardOf s home line).getD home) (.ownerAck home line (r.state != .e))
      (post q (.data home line .s (some r.value) 0)
        (rlcSet (s.withoutOwn (.fwdS q home line)) { r with state := if r.state = .e then .s else .o }))) := by
  have h' : holderLine (s.withoutOwn (.fwdS q home line)) home line owns = some r := h
  have hstate : (if (r.state != LineState.e) = true then LineState.o else .s) = if r.state = .e then .s else .o := by
    by_cases he : r.state = .e <;> simp [he]
  simp only [execFwds, received_eq, h', hstate]

theorem execFwdm_of_holder {s : State} {q home line acks : Nat} {r : RlcLine} (h : holderLine s home line owns = some r) :
    execFwdm q home line acks s = .next (post q (.data home line .m (some r.value) acks)
      (giveUpRest (giveUp (s.withoutOwn (.fwdM q home line acks)) r) home line)) := by
  have h' : holderLine (s.withoutOwn (.fwdM q home line acks)) home line owns = some r := h
  simp only [execFwdm, received_eq, h']

theorem execInv_of_line {s : State} {q home line : Nat} {r : RlcLine} (h : rlcFind s (some home) line = some r) (hr : r.state ≠ .i) :
    execInv q home line s = .next (post q (.ack home line) (giveUp (s.withoutOwn (.inv q home line)) r)) := by
  have h' : rlcFind (s.withoutOwn (.inv q home line)) (some home) line = some r := h
  simp only [execInv, received_eq, h', hr, ↓reduceIte]

theorem execInv_of_none {s : State} {q home line : Nat} (h : rlcFind s (some home) line = none) :
    execInv q home line s = .next (post q (.ack home line) (s.withoutOwn (.inv q home line))) := by
  have h' : rlcFind (s.withoutOwn (.inv q home line)) (some home) line = none := h
  simp only [execInv, received_eq, h']

theorem giveUpRest_of_none {s : State} {home line : Nat} (h : rlcFind s (some home) line = none) : giveUpRest s home line = s := by
  simp only [giveUpRest, h]

theorem giveUpRest_of_line {s : State} {home line : Nat} {r : RlcLine} (h : rlcFind s (some home) line = some r) (hr : r.state ≠ .i) :
    giveUpRest s home line = giveUp s r := by
  simp only [giveUpRest, h, hr, ↓reduceIte]

/-- A holder returns its data to a recall, as the Put of its eviction where that is outstanding (R239, R240). -/
theorem execRecallLine_of_holder {s : State} {home line : Nat} {r : RlcLine} (h : recalledLine s home line = some r) :
    let sent := r.evicting = true ∧ ∃ o ∈ s.outstanding, o.thread = putThread ∧ o.line = some (home, line)
    (sent → execRecallLine home line s = .next (giveUpRest (s.withoutOwn (.recallLine home line)) home line)) ∧
    (¬ sent → execRecallLine home line s = .next (sendPut ((stewardOf s home line).getD home) home line (putOf home line r)
      (giveUpRest (giveUp (s.withoutOwn (.recallLine home line)) r) home line))) := by
  intro sent
  have h' : recalledLine (s.withoutOwn (.recallLine home line)) home line = some r := h
  have hsent : (r.evicting && (s.withoutOwn (.recallLine home line)).outstanding.any
      (fun o => o.thread == putThread && o.line == some (home, line))) = true ↔ sent := by
    simp [sent, State.withoutOwn]
  constructor <;> intro hs
  · simp only [execRecallLine, received_eq, h', hsent.mpr hs, ↓reduceIte]
  · simp only [execRecallLine, received_eq, h', mt hsent.mp hs, Bool.false_eq_true, ↓reduceIte]

theorem putOf_eq (home line : Nat) (r : RlcLine) (n : Nat) : putOf home line r n =
    if r.state = .m then .putM n home line (some r.value) else if r.state = .e then .putM n home line none
    else .putO n home line r.value := by
  cases h : r.state <;> simp [putOf, h]

/-- An S line goes silently (R237). -/
theorem evictLine_of_shared {s : State} {home line : Nat} {r : RlcLine} (hr : rlcFind s (some home) line = some r)
    (hbusy : r.busy = false) (hstate : r.state = .s ∨ r.state = .i) : evictLine home line s = rlcDrop s (some home) line false := by
  rcases hstate with h | h <;> simp only [evictLine, hr, hbusy, h, Bool.false_eq_true, ↓reduceIte]

/-- An owner's line waits in the eviction buffer while its Put is on the way (R237). -/
theorem evictLine_of_owner {s : State} {home line k : Nat} {r : RlcLine} (hr : rlcFind s (some home) line = some r)
    (hbusy : r.busy = false) (howns : owns r.state = true) (hsteward : stewardOf s home line = some k) (hfull : full1024 s k = false)
    (hbuffer : ∀ x ∈ s.rlc, ¬ (x.pkg = some home ∧ x.line = line ∧ x.evicting = true)) :
    evictLine home line s = sendPut k home line (putOf home line r) (rlcSet (rlcDrop s (some home) line false) { r with evicting := true }) := by
  have hany : s.rlc.any (fun x => x.pkg == some home && x.line == line && x.evicting) = false := by
    rw [List.any_eq_false]
    intro x hx hkey
    simp only [Bool.and_eq_true, beq_iff_eq, and_assoc] at hkey
    exact hbuffer x hx hkey
  cases hstate : r.state <;>
    simp [evictLine, hr, hbusy, hstate, hsteward, hany, hfull, owns] at howns ⊢

/-- The steward's Ack frees the eviction buffer (R237). -/
theorem execPutAck_eq (s : State) (home line : Nat) : execPutAck home line s =
    .next (rlcDrop { s.withoutOwn (.putAck home line) with
      outstanding := s.outstanding.filter (fun o => !(o.thread == putThread && o.line == some (home, line))) } (some home) line true) := by
  rw [execPutAck, received_eq]
  rfl

/-! ### The requester -/

theorem eq_of_rlcFind {s : State} {pkg : Option Nat} {line : Nat} {r : RlcLine} (h : rlcFind s pkg line = some r) :
    r.pkg = pkg ∧ r.line = line := by
  have := List.find?_some h
  simp only [Bool.and_eq_true, beq_iff_eq] at this
  exact this.1

theorem wakeLine_of_unwaited {s : State} {home line : Nat} (h : lineWaiters s home line = []) : wakeLine s home line = s := by
  rw [wakeLine, h, List.foldl_nil]

/-- A line that no thread waits for is granted, and the steward hears of it (R238). -/
theorem completeLine_of_unwaited {s : State} {r : RlcLine} {g : Grant} {home line : Nat} (hpkg : r.pkg = some home) (hline : r.line = line)
    (hwait : lineWaiters s home line = []) : completeLine s r g = post ((stewardOf s home line).getD home) (.completion home line)
      { rlcSet s { r with state := stateOfGrant g, busy := false, acks := 0, early := 0, grant := none } with
        outstanding := s.outstanding.filter (fun o => !asksLine home line o) } := by
  subst hline
  simp only [completeLine, hpkg, Option.getD_some]
  exact wakeLine_of_unwaited hwait

/-- Data with all of its Acks completes a request; else it waits for the rest (R238). -/
theorem execData_of_busy {s : State} {home line : Nat} {r : RlcLine} (grant : Grant) (v : LineData) (acks : Nat)
    (hr : rlcFind s (some home) line = some r) (hbusy : r.busy = true) :
    let s0 := s.withoutOwn (.data home line grant (some v) acks)
    let r1 : RlcLine := { r with data := v.data, poison := v.poison }
    execData home line grant (some v) acks s = if acks ≤ r.early then .next (completeLine s0 r1 grant)
      else .next (rlcSet s0 { r1 with grant := some grant, acks := acks - r.early, early := 0 }) := by
  have hr' : rlcFind (s.withoutOwn (.data home line grant (some v) acks)) (some home) line = some r := hr
  simp only [execData, received_eq, hr', hbusy, Bool.not_true, Bool.false_eq_true, ↓reduceIte]

/-- An Ack of a line that this package is no steward of is for the requester (R238). -/
theorem execInvAck_of_requester {s : State} {home line : Nat} (hd : dirFind s home line = none) (hfull : mirrorFull s = false) :
    execInvAck home line s = .next (execInvAck.requester home line (s.withoutOwn (.ack home line))) := by
  have hd' : dirFind (s.withoutOwn (.ack home line)) home line = none := hd
  simp only [execInvAck, hfull, Bool.false_eq_true, ↓reduceIte, received_eq, hd']

section
variable {s : State} {home line : Nat} {r : RlcLine} (hr : rlcFind s (some home) line = some r) (hbusy : r.busy = true)
include hr hbusy

/-- An Ack that comes before the Data is counted. -/
theorem requester_of_early (hg : r.grant = none) : execInvAck.requester home line s = rlcSet s { r with early := r.early + 1 } := by
  simp only [execInvAck.requester, hr, hbusy, hg, Bool.not_true, Bool.false_eq_true, ↓reduceIte]

/-- The last Ack after the Data completes the request. -/
theorem requester_of_granted {g : Grant} (hg : r.grant = some g) : execInvAck.requester home line s =
    if r.acks ≤ 1 then completeLine s r g else rlcSet s { r with acks := r.acks - 1 } := by
  simp only [execInvAck.requester, hr, hbusy, hg, Bool.not_true, Bool.false_eq_true, ↓reduceIte]

end

/-! ### The loss of a package (R240) -/

/-- A package that this one neither asks nor serves is lost without more. -/
theorem execPackageLost_of_idle {s : State} {pkg : Nat} (hme : pkg ≠ s.pkgId.toNat) (hlost : pkg ∉ s.lostPackages)
    (hdomain : 1 < s.domain.length) (hin : pkg ∈ s.domain) (hdir : s.directory = []) (hshadows : s.shadows = [])
    (hasked : ∀ o ∈ s.outstanding, ¬ (o.thread = stewardThread ∧ o.dst = pkg)) :
    execPackageLost pkg s = .next { s with lostPackages := pkg :: s.lostPackages } := by
  let s1 : State := { s with lostPackages := pkg :: s.lostPackages }
  have hpromote : (if shadowPartner pkg = s.pkgId.toNat then promote s1 pkg else s1) = s1 := by
    split
    · have hnil : s1.shadows = [] := hshadows
      simp only [promote, hnil, List.filter_nil, List.foldl_nil]
      rw [← hnil]
    · rfl
  have hnil : s1.directory = [] := hdir
  have hasks : ∀ o ∈ s1.outstanding, (o.thread == stewardThread && o.dst == pkg) = false := fun o ho => by
    simpa using hasked o ho
  have hnone : s1.outstanding.filter (fun o => o.thread == stewardThread && o.dst == pkg) = [] :=
    List.filter_eq_nil_iff.mpr fun o ho => by simp [hasks o ho]
  have hall : s1.outstanding.filter (fun o => !(o.thread == stewardThread && o.dst == pkg)) = s1.outstanding :=
    List.filter_eq_self.mpr fun o ho => by simp only [hasks o ho, Bool.not_false]
  have hguard : (decide (pkg = s.pkgId.toNat) || s.lostPackages.contains pkg || decide (s.domain.length ≤ 1) ||
      !s.domain.contains pkg) = false := by
    simp [hme, hlost, hin, Nat.not_le.mpr hdomain]
  change _ = Host.Outcome.next s1
  simp only [execPackageLost, hguard, Bool.false_eq_true, ↓reduceIte]
  rw [hpromote, hnil, List.foldl_nil, hnone, List.foldl_nil, hall]
  exact congrArg _ (pumpAll_of_quiet (s := s1) (by simp [hnil]))

/-- Home is told of an owned line's loss before anything else. -/
theorem loseEntry_of_owner {s : State} {pkg : Nat} {d : DirEntry} (hbusy : d.busy = none) (hstate : d.state = .em) (howner : d.owner = pkg)
    (hhome : homeLost s d.home = false) :
    loseEntry pkg s d = stewardRequest d.home (.markLost d.line pkg) (some (d.home, d.line)) (dirSet s { d with
      state := .i, owner := 0, busy := some (.lose pkg), acks := 0, sharers := d.sharers.filter (· != pkg),
      queue := d.queue.filter (fun r => !fromPackage pkg r) }) := by
  simp only [loseEntry, hbusy, hstate, howner, ne_eq, not_true_eq_false, ↓reduceIte, hhome, Bool.false_eq_true, begin]

/-- Settles O59: clause by clause from what each message does at the steward, the holder and the requester. -/
theorem directoryEvents : Obligations.DirectoryEvents := by
  intro s q home line me w got quiet entry
  refine ⟨?_, ?_, ?_, ?_, ?_, ?_, ?_, ?_, ?_, ?_, ?_, ?_, ?_, ?_, ?_, ?_, ?_, ?_, ?_, ?_, ?_, ?_⟩
  · intro seq hsteward hq hfull hwindow kept
    exact ⟨fun h => congrArg _ (takeRequest_of_new (q := ⟨q, seq⟩) hsteward hq hfull hwindow h),
      fun h => congrArg _ (takeRequest_of_new (q := ⟨q, seq⟩) hsteward hq hfull hwindow h),
      fun h => congrArg _ (takeRequest_of_new (q := ⟨q, seq⟩) hsteward hq hfull hwindow h),
      fun _ h => congrArg _ (takePut_of_new (q := ⟨q, seq⟩) hsteward hq hfull hwindow h),
      fun _ h => congrArg _ (takePut_of_new (q := ⟨q, seq⟩) hsteward hq hfull hwindow h),
      fun h hnone => congrArg _ (takeRequest_of_ended (q := ⟨q, seq⟩) hsteward hq h hnone)⟩
  · intro hnone hquiet hfull
    exact ⟨fun hway hhome => serve_getS_first hnone hquiet hfull hway hhome, fun _ _ => servePut_first hnone hquiet hfull⟩
  · intro d v hd hfull s1
    have hd' : dirFind s1 home line = some d := hd
    exact ⟨fun hb => (execHomeReply_eq home line _ hfull).trans (congrArg _ (homeAnswered_line hd' (.inl ⟨hb, rfl⟩))),
      fun hb => (execHomeReply_eq home line _ hfull).trans (congrArg _ (homeAnswered_line hd' (.inr ⟨hb, rfl⟩)))⟩
  · intro d hd
    simp only [DirEntry.after, hd]
  · exact fun _ _ => ⟨rfl, rfl⟩
  · intro d hd hq
    simp [DirEntry.after, hd, hq]
  · exact fun d r dirty hd hfull hbusy hr hq hown hacks => execCompletionAck_eq hd hfull hbusy hr hq hown hacks
  · exact fun r hr => ⟨execFwds_of_holder hr, fun _ => execFwdm_of_holder hr⟩
  · exact fun r hr hstate => execInv_of_line hr hstate
  · exact fun h => execInv_of_none h
  · exact fun r hr => execRecallLine_of_holder hr
  · intro r hr
    simp only [recalledLine, hr, Option.some_or]
  · intro h
    simp only [recalledLine, h, Option.none_or]
  · exact fun h => giveUpRest_of_none h
  · exact fun r h hr => giveUpRest_of_line h hr
  · exact putOf_eq home line
  · intro r grant v acks hr hbusy s0 r1
    obtain ⟨hpkg, hline⟩ := eq_of_rlcFind hr
    have hdata := execData_of_busy grant v acks hr hbusy
    refine ⟨fun hacks hwait => ?_, fun hacks => hdata.trans (if_neg (Nat.not_le.mpr hacks))⟩
    exact (hdata.trans (if_pos hacks)).trans (congrArg _ (completeLine_of_unwaited (s := s0) (r := r1) hpkg hline hwait))
  · intro r hr hbusy hd hfull
    have hack := execInvAck_of_requester hd hfull
    have hr' : rlcFind (s.withoutOwn (.ack home line)) (some home) line = some r := hr
    exact ⟨fun hg => hack.trans (congrArg _ (requester_of_early hr' hbusy hg)),
      fun g hg hacks => hack.trans (congrArg _ ((requester_of_granted hr' hbusy hg).trans (if_neg (Nat.not_le.mpr hacks)))),
      fun g hg hacks => hack.trans (congrArg _ ((requester_of_granted hr' hbusy hg).trans (if_pos hacks)))⟩
  · intro r hr hbusy
    exact ⟨fun h => congrArg _ (evictLine_of_shared hr hbusy h),
      fun k howns hk hfull hbuffer => congrArg _ (evictLine_of_owner hr hbusy howns hk hfull hbuffer)⟩
  · exact execPutAck_eq s home line
  · exact fun pkg hme hlost hdomain hin hdir hshadows hasked => execPackageLost_of_idle hme hlost hdomain hin hdir hshadows hasked
  · exact fun pkg d hbusy hstate howner hhome => loseEntry_of_owner hbusy hstate howner hhome

end Sys2Proof.Machine
end

section
/-! SUPPORT. The rows of an MMA at the unit, one after another until the thread goes on (R209, R211, R212); for O42 and O45. -/

namespace Sys2Proof.Machine

/-! ### Writing the same place twice -/

theorem mapSet_mapSet {β : Type} (m : Map β) (k : Nat) (a b : β) : mapSet (mapSet m k a) k b = mapSet m k b := by
  induction m with
  | nil => simp [mapSet]
  | cons p r ih =>
    obtain ⟨j, x⟩ := p
    simp only [mapSet]
    split
    · simp [mapSet]
    · split
      · simp [mapSet]
      · next hlt hne => simp [mapSet, hlt, hne, ih]

theorem setCore_setCore (s : State) (c : Nat) (x y : Core) : setCore (setCore s c x) c y = setCore s c y := by
  simp only [setCore, mapSet_mapSet]

theorem setUnit_setUnit (s : State) (u : Nat) (x y : BerylUnit) : setUnit (setUnit s u x) u y = setUnit s u y := by
  simp only [setUnit, mapSet_mapSet]

theorem unitOf_setUnit_of_ne (s : State) {u v : Nat} (x : BerylUnit) (h : v ≠ u) : unitOf (setUnit s u x) v = unitOf s v := by
  simp [unitOf, mapFind_mapSet_of_ne _ _ h]

theorem byteAt_setUnit (s : State) (u : Nat) (x : BerylUnit) (h : Home) : byteAt (setUnit s u x) h = byteAt s h := by
  cases h <;> rfl

theorem tileOf_setTile_self (s : State) (c n : Nat) (x : Tile) : tileOf (coreOf (setTile s c n x) c) n = x := by
  simp [tileOf, setTile]

theorem tileOf_setTile_of_ne (s : State) {c n m : Nat} (x : Tile) (h : m ≠ n) :
    tileOf (coreOf (setTile s c n x) c) m = tileOf (coreOf s c) m := by
  simp [tileOf, setTile, mapFind_mapSet_of_ne _ _ h]

theorem slotOf_setTile (s : State) (c n : Nat) (x : Tile) (k : Nat) : slotOf (setTile s c n x) c k = slotOf s c k := by
  simp [slotOf, setTile]

theorem byteAt_setTile (s : State) (c n : Nat) (x : Tile) (h : Home) : byteAt (setTile s c n x) h = byteAt s h :=
  byteAt_setCore (by rfl) h

/-! ### A ring that holds no row of the seat (R218) -/

theorem computeRing_of_none {s : State} {u i : Nat} (h : ∀ q ∈ (unitOf s u).ring, q.seat ≠ i) :
    computeRing u i s = setUnit s u (unitOf s u) := by
  have hnone : (unitOf s u).ring.filter (·.seat == i) = [] := List.filter_eq_nil_iff.mpr fun q hq => by simp [h q hq]
  have hall : (unitOf s u).ring.filter (·.seat != i) = (unitOf s u).ring := List.filter_eq_self.mpr fun q hq => by simp [h q hq]
  simp only [computeRing, hnone, hall, computeRows]
  rfl

/-! ### One row -/

/-- The unit has served a row of a seat, whose rows are now those of y. -/
def rowServed (s : State) (seat : Nat) (y : Seat) : State :=
  setUnit s (seat / 16) { unitOf s (seat / 16) with
    seats := mapSet (unitOf s (seat / 16)).seats (seat % 16) y, lastSeat := seat % 16 }

/-- The thread waits for the rows of its MMA after those done. -/
def rowAwaited (core k tile seat : Nat) (rows layout : Word) (done gen : Nat) (s : State) : State :=
  setSlot s core k { slotOf s core k with
    pend := .mma tile seat rows layout done gen, wait := { seatWait seat done with sent := true } }

/-- The thread goes on after its MMA, whose tile is READY again. -/
def mmaEnded (core k tile : Nat) (s : State) : State := endReply (mmaTile { s with cur := issueOf s core k } core tile none)

theorem unitOf_rowServed_self (s : State) (seat : Nat) (y : Seat) : unitOf (rowServed s seat y) (seat / 16) =
    { unitOf s (seat / 16) with seats := mapSet (unitOf s (seat / 16)).seats (seat % 16) y, lastSeat := seat % 16 } :=
  unitOf_setUnit_self ..

theorem seatOf_rowServed_self (s : State) (seat : Nat) (y : Seat) : seatOf (rowServed s seat y) (seat / 16) (seat % 16) = y := by
  rw [seatOf, unitOf_rowServed_self]
  simp

theorem seatOf_rowServed_of_ne (s : State) {seat u i : Nat} (y : Seat) (h : (u, i) ≠ (seat / 16, seat % 16)) :
    seatOf (rowServed s seat y) u i = seatOf s u i := by
  by_cases hu : u = seat / 16
  · subst hu
    have hi : i ≠ seat % 16 := fun hi => h (by rw [hi])
    rw [seatOf, unitOf_rowServed_self]
    simp [seatOf, mapFind_mapSet_of_ne _ _ hi]
  · rw [seatOf, rowServed, unitOf_setUnit_of_ne _ _ hu]
    rfl

theorem rowServed_rowServed (s : State) (seat : Nat) (y z : Seat) : rowServed (rowServed s seat y) seat z = rowServed s seat z := by
  rw [rowServed, unitOf_rowServed_self, rowServed, setUnit_setUnit, rowServed]
  simp only [mapSet_mapSet]

theorem rowServed_rowAwaited (core k tile seat : Nat) (rows layout : Word) (done gen : Nat) (s : State) (y : Seat) :
    rowServed (rowAwaited core k tile seat rows layout done gen s) seat y =
      rowAwaited core k tile seat rows layout done gen (rowServed s seat y) := rfl

/-- The slot of a thread whose MMA has ended. -/
def mmaEndedSlot (s : State) (core k : Nat) : Slot :=
  let x := slotOf s core k
  let y := if x.past then x else x.fall (if x.long then 4 else 2)
  { y with
    readyAt := max y.readyAt (ticksOf s core + 1), pend := .none, wait := {}, held := [], ticket := none, fetched := [], past := false,
    rows := none }

theorem mmaEnded_eq (core k tile : Nat) (s : State) : mmaEnded core k tile s =
    dropReads core k (setSlot (setTile { s with cur := issueOf s core k } core tile { tileOf (coreOf s core) tile with state := .ready }) core k
      (mmaEndedSlot s core k)) := by
  have hslot : curSlot (dropReads core k (mmaTile { s with cur := issueOf s core k } core tile none)) = slotOf s core k :=
    slotOf_setTile ..
  change setCurSlot (dropReads core k (mmaTile { s with cur := issueOf s core k } core tile none)) _ = _
  simp only [issueOf, mmaTile, setTile_cur] at hslot ⊢
  simp only [hslot]
  rfl

theorem setSlot_setTile_setSlot (s : State) (c k n : Nat) (x y : Slot) (t : Tile) :
    setSlot (setTile (setSlot s c k x) c n t) c k y = setSlot (setTile s c n t) c k y := by
  simp only [setSlot, setTile, coreOf_setCore_self, setCore_setCore, mapSet_mapSet]

/-- That the thread waited leaves no trace when it goes on. -/
theorem mmaEnded_rowAwaited (core k tile seat : Nat) (rows layout : Word) (done gen : Nat) (s : State) :
    mmaEnded core k tile (rowAwaited core k tile seat rows layout done gen s) = mmaEnded core k tile s := by
  have hslot : mmaEndedSlot (rowAwaited core k tile seat rows layout done gen s) core k = mmaEndedSlot s core k := by
    simp only [mmaEndedSlot, rowAwaited, slotOf_setSlot_self]
    cases (slotOf s core k).past <;> rfl
  have hissue : issueOf (rowAwaited core k tile seat rows layout done gen s) core k = issueOf s core k := by
    simp only [issueOf, rowAwaited, slotOf_setSlot_self]
  have htile : tileOf (coreOf (rowAwaited core k tile seat rows layout done gen s) core) tile = tileOf (coreOf s core) tile := by
    simp only [rowAwaited, coreOf_setSlot_self]
    rfl
  rw [mmaEnded_eq, mmaEnded_eq, hslot, hissue, htile]
  exact congrArg (dropReads core k) (setSlot_setTile_setSlot { s with cur := issueOf s core k } ..)

theorem mmaNext_of_more {core k tile seat : Nat} {rows layout : Word} {done gen : Nat} (s : State) (h : done < mmaCount rows) :
    mmaNext core k tile seat rows layout done gen s = rowAwaited core k tile seat rows layout done gen s := if_neg (by omega)

theorem mmaNext_of_last {core k tile seat : Nat} {rows layout : Word} {done gen : Nat} {s : State} (h : mmaCount rows ≤ done)
    (hrun : clusterOf core ∉ s.halted) : mmaNext core k tile seat rows layout done gen s = mmaEnded core k tile s :=
  (if_pos h).trans (resume_of_ends hrun ((ends_modify ..).2 rfl))

/-- The MMA of a thread whose next row the unit can serve: nothing of the thread or of the ring comes before it, and its seat is there. -/
structure AtUnit (s : State) (core k tile seat : Nat) (rows layout : Word) (done gen : Nat) : Prop where
  pending : (slotOf s core k).pend = .mma tile seat rows layout done gen
  stored : (slotOf s core k).stores = []
  admitted : seatRefused s (slotOf s core k).estate seat gen = false
  unitRuns : s.halted.contains (seat / 16) = false
  present : (seatOf s (seat / 16) (seat % 16)).suspended = false
  alone : ∀ q ∈ (unitOf s (seat / 16)).ring, q.seat ≠ seat % 16
  own : foreignBank (unitOf s (seat / 16)) (seatOf s (seat / 16) (seat % 16)) (slotOf s core k).estate = false

/-- The row that the unit serves is added to the seat's rows. -/
theorem mmaStep_of_atUnit {s : State} {core k tile seat : Nat} {rows layout : Word} {done gen : Nat} {v : Nat × Nat}
    (h : AtUnit s core k tile seat rows layout done gen) (hmore : done < mmaCount rows)
    (hv : mmaOperand s core (seatOf s (seat / 16) (seat % 16)) tile done layout = some v) :
    mmaStep core k s = mmaNext core k tile seat rows layout (done + 1) gen (rowServed s seat
      (addRow (unitOf s (seat / 16)) (seatOf s (seat / 16) (seat % 16)) (mmaRow0 rows + done) v.1 v.2)) := by
  obtain ⟨hpend, hstores, hseat, hunit, hpresent, hring, hown⟩ := h
  obtain ⟨s0, hs0⟩ : ∃ s0, s0 = setUnit s (seat / 16) (unitOf s (seat / 16)) := ⟨_, rfl⟩
  have hring0 : computeRing (seat / 16) (seat % 16) s = s0 := (computeRing_of_none hring).trans hs0.symm
  have hunitOf : unitOf s0 (seat / 16) = unitOf s (seat / 16) := by rw [hs0, unitOf_setUnit_self]
  have hseatOf : seatOf s0 (seat / 16) (seat % 16) = seatOf s (seat / 16) (seat % 16) := by rw [seatOf, hunitOf, seatOf]
  have hslot : slotOf s0 core k = slotOf s core k := by rw [hs0]; rfl
  have hv0 : mmaOperand s0 core (seatOf s (seat / 16) (seat % 16)) tile done layout = some v := by rw [hs0]; exact hv
  have hseat0 : seatRefused s0 (slotOf s core k).estate seat gen = false := by rw [hs0]; exact hseat
  have hhalted : s0.halted.contains (seat / 16) = false := by rw [hs0]; exact hunit
  have hserved (y : Seat) : setUnit (setSeat s0 (seat / 16) (seat % 16) y) (seat / 16)
      { unitOf (setSeat s0 (seat / 16) (seat % 16) y) (seat / 16) with lastSeat := seat % 16 } = rowServed s seat y := by
    simp only [setSeat, unitOf_setUnit_self, setUnit_setUnit, hs0, rowServed]
  simp only [mmaStep, hpend, hpresent, Bool.false_eq_true, ↓reduceIte, hring0, hseatOf, hhalted, hslot, hstores, hunitOf, hseat0, hown, hv0,
    hserved, Nat.not_le.mpr hmore, bne_self_eq_false, List.isEmpty_nil, Bool.not_true, Bool.or_self]

theorem mmaStep_of_idle {s : State} {core k : Nat} (h : (slotOf s core k).pend = .none) : mmaStep core k s = s := by
  simp only [mmaStep, h]

/-! ### The rows one after another -/

section
variable {s : State} {core k tile seat : Nat} {rows layout : Word} {done gen : Nat} {y : Seat}

theorem slotOf_rowAwaited : slotOf (rowAwaited core k tile seat rows layout done gen s) core k = { slotOf s core k with
    pend := .mma tile seat rows layout done gen, wait := { seatWait seat done with sent := true } } := slotOf_setSlot_self ..

theorem seatOf_rowAwaited (u i : Nat) : seatOf (rowAwaited core k tile seat rows layout done gen s) u i = seatOf s u i := rfl

theorem unitOf_rowAwaited (u : Nat) : unitOf (rowAwaited core k tile seat rows layout done gen s) u = unitOf s u := rfl

theorem tileOf_rowAwaited (n : Nat) :
    tileOf (coreOf (rowAwaited core k tile seat rows layout done gen s) core) n = tileOf (coreOf s core) n := by
  rw [rowAwaited, coreOf_setSlot_self]
  rfl

theorem byteAt_rowAwaited (h : Home) : byteAt (rowAwaited core k tile seat rows layout done gen s) h = byteAt s h := byteAt_setSlot ..

theorem byteAt_rowServed (h : Home) : byteAt (rowServed s seat y) h = byteAt s h := byteAt_setUnit ..

/-- What the unit reads of a row of the tile does not depend on the rows of the seat, nor on what the thread waits for. -/
theorem mmaOperand_next (hy : y = { seatOf s (seat / 16) (seat % 16) with acc := y.acc }) (n : Nat) :
    mmaOperand (rowAwaited core k tile seat rows layout done gen (rowServed s seat y)) core y tile n layout =
      mmaOperand s core (seatOf s (seat / 16) (seat % 16)) tile n layout := by
  rw [mmaOperand, rowAwaited, coreOf_setSlot_self, hy]
  rfl

/-- A row that is served leaves the next one to the unit. -/
theorem AtUnit.next (h : AtUnit s core k tile seat rows layout done gen) (hy : y = { seatOf s (seat / 16) (seat % 16) with acc := y.acc })
    (n : Nat) : AtUnit (rowAwaited core k tile seat rows layout n gen (rowServed s seat y)) core k tile seat rows layout n gen := by
  obtain ⟨hpend, hstores, hseat, hunit, hpresent, hring, hown⟩ := h
  refine ⟨by rw [slotOf_rowAwaited], by rw [slotOf_rowAwaited]; exact hstores, by rw [slotOf_rowAwaited]; exact hseat, hunit, ?_, ?_, ?_⟩
  · rw [seatOf_rowAwaited, seatOf_rowServed_self, hy]
    exact hpresent
  · rw [unitOf_rowAwaited, unitOf_rowServed_self]
    exact hring
  · rw [slotOf_rowAwaited, seatOf_rowAwaited, seatOf_rowServed_self, unitOf_rowAwaited, unitOf_rowServed_self, hy]
    exact hown

end

/-- n rows of a seat, from row number first on, with the operands o. -/
def rowsAdded (un : BerylUnit) (row0 : Nat) (o : Nat → Nat × Nat) (first n : Nat) (x : Seat) : Seat :=
  (List.range' first n).foldl (fun y j => addRow un y (row0 + j) (o j).1 (o j).2) x

theorem rowsAdded_succ (un : BerylUnit) (row0 : Nat) (o : Nat → Nat × Nat) (first n : Nat) (x : Seat) : rowsAdded un row0 o first (n + 1) x =
    rowsAdded un row0 o (first + 1) n (addRow un x (row0 + first) (o first).1 (o first).2) := by
  rw [rowsAdded, List.range'_succ, List.foldl_cons, rowsAdded]

/-- Of a unit a row takes no more than the banks. -/
theorem addRow_of_banks {un un' : BerylUnit} (h : un'.banks = un.banks) (x : Seat) (row bytes sA : Nat) :
    addRow un' x row bytes sA = addRow un x row bytes sA := by
  simp only [addRow, bankOf, h]

theorem rowsAdded_of_banks {un un' : BerylUnit} (h : un'.banks = un.banks) (row0 : Nat) (o : Nat → Nat × Nat) (first n : Nat) (x : Seat) :
    rowsAdded un' row0 o first n x = rowsAdded un row0 o first n x := by
  simp only [rowsAdded, addRow_of_banks h]

/-- All rows of an MMA that nothing holds back, and then its thread goes on. -/
theorem iterate_mmaStep_of_atUnit {core k tile seat : Nat} {rows layout : Word} {gen : Nat} {o : Nat → Nat × Nat} (n : Nat) :
    ∀ {s : State} {done : Nat}, AtUnit s core k tile seat rows layout done gen → done + (n + 1) = mmaCount rows →
    clusterOf core ∉ s.halted →
    (∀ j, done ≤ j → j < mmaCount rows → mmaOperand s core (seatOf s (seat / 16) (seat % 16)) tile j layout = some (o j)) →
    (mmaStep core k)^[n + 1] s = mmaEnded core k tile (rowServed s seat
      (rowsAdded (unitOf s (seat / 16)) (mmaRow0 rows) o done (n + 1) (seatOf s (seat / 16) (seat % 16)))) := by
  induction n with
  | zero =>
    intro s done h hcount hrun ho
    rw [Function.iterate_one, mmaStep_of_atUnit h (by omega) (ho done le_rfl (by omega)), rowsAdded_succ]
    exact mmaNext_of_last (by omega) hrun
  | succ n ih =>
    intro s done h hcount hrun ho
    obtain ⟨y, hy⟩ : ∃ y, y = addRow (unitOf s (seat / 16)) (seatOf s (seat / 16) (seat % 16)) (mmaRow0 rows + done) (o done).1 (o done).2 :=
      ⟨_, rfl⟩
    have hframe : y = { seatOf s (seat / 16) (seat % 16) with acc := y.acc } := hy ▸ addRow_frame ..
    rw [Function.iterate_succ_apply, mmaStep_of_atUnit h (by omega) (ho done le_rfl (by omega)), mmaNext_of_more _ (by omega), ← hy,
      ih (h.next hframe (done + 1)) (by omega) hrun fun j hj hlt => by
        rw [seatOf_rowAwaited, seatOf_rowServed_self, mmaOperand_next hframe]
        exact ho j (by omega) hlt,
      rowServed_rowAwaited, rowServed_rowServed, mmaEnded_rowAwaited, seatOf_rowAwaited, seatOf_rowServed_self, unitOf_rowAwaited,
      rowsAdded_of_banks (un := unitOf s (seat / 16)) (by rw [unitOf_rowServed_self]), rowsAdded_succ _ _ _ done, hy]

/-! ### The end of an MMA -/

section
variable {s : State} {core k tile : Nat}

theorem unitOf_mmaEnded (u : Nat) : unitOf (mmaEnded core k tile s) u = unitOf s u := by
  rw [mmaEnded_eq]
  rfl

theorem seatOf_mmaEnded (u i : Nat) : seatOf (mmaEnded core k tile s) u i = seatOf s u i := by
  rw [seatOf, unitOf_mmaEnded, seatOf]

theorem slotOf_mmaEnded : slotOf (mmaEnded core k tile s) core k = mmaEndedSlot s core k := by
  rw [mmaEnded_eq]
  exact slotOf_setSlot_self ..

theorem tileOf_mmaEnded_self : tileOf (coreOf (mmaEnded core k tile s) core) tile = { tileOf (coreOf s core) tile with state := .ready } := by
  rw [mmaEnded_eq]
  change tileOf (coreOf (setSlot _ core k _) core) tile = _
  rw [coreOf_setSlot_self]
  exact tileOf_setTile_self ..

theorem tileOf_mmaEnded_of_ne {n : Nat} (h : n ≠ tile) : tileOf (coreOf (mmaEnded core k tile s) core) n = tileOf (coreOf s core) n := by
  rw [mmaEnded_eq]
  change tileOf (coreOf (setSlot _ core k _) core) n = _
  rw [coreOf_setSlot_self]
  exact tileOf_setTile_of_ne _ _ h

theorem byteAt_mmaEnded (h : Home) : byteAt (mmaEnded core k tile s) h = byteAt s h := by
  have hcur : byteAt { s with cur := issueOf s core k } h = byteAt s h := byteAt_withCur ..
  have hreads (t : State) : byteAt (dropReads core k t) h = byteAt t h := by cases h <;> rfl
  rw [mmaEnded_eq, hreads, byteAt_setSlot, byteAt_setTile, hcur]

/-- The thread falls through, where it had not gone on before. -/
theorem mmaEndedSlot_of_not_past (h : (slotOf s core k).past = false) :
    (mmaEndedSlot s core k).pc = ((slotOf s core k).fall (if (slotOf s core k).long then 4 else 2)).pc ∧
      (mmaEndedSlot s core k).g = (slotOf s core k).g := by
  simp [mmaEndedSlot, h]

end

end Sys2Proof.Machine
end

section
/-! SUPPORT. MMA from its issue to its last row (R209, R211, R212, R328); O42. -/

namespace Sys2Proof.Machine

/-! ### What committing the pops of an instruction leaves of the package -/

theorem commitPop_onlyCores (core : Nat) (s : State) (p : Popped) : commitPop core s p = { s with cores := (commitPop core s p).cores } := by
  rw [commitPop]
  split <;> rfl

theorem foldl_commitPop_onlyCores (core : Nat) (ps : List Popped) (s : State) :
    ps.foldl (commitPop core) s = { s with cores := (ps.foldl (commitPop core) s).cores } := by
  induction ps generalizing s with
  | nil => rfl
  | cons p ps ih =>
    rw [List.foldl_cons, ih, commitPop_onlyCores]

/-- A pop changes of its core queues and streams. -/
theorem coreOf_commitPop (core : Nat) (s : State) (p : Popped) :
    ∃ queues slots, coreOf (commitPop core s p) core = { coreOf s core with queues := queues, slots := slots } := by
  rw [commitPop]
  split
  · exact ⟨_, _, by rw [coreOf_setCore_self]; rfl⟩
  · exact ⟨_, _, coreOf_setSlot_self ..⟩

theorem coreOf_foldl_commitPop (core : Nat) (ps : List Popped) (s : State) :
    ∃ queues slots, coreOf (ps.foldl (commitPop core) s) core = { coreOf s core with queues := queues, slots := slots } := by
  induction ps generalizing s with
  | nil => exact ⟨_, _, rfl⟩
  | cons p ps ih =>
    obtain ⟨queues, slots, h⟩ := ih (commitPop core s p)
    obtain ⟨_, _, hp⟩ := coreOf_commitPop core s p
    exact ⟨queues, slots, by rw [List.foldl_cons, h, hp]⟩

/-! ### Waiting for the rows of an MMA -/

section
variable {s : State} {w : WaitState} {tile seat : Nat} {rows layout : Word} {done gen : Nat}

/-- The thread waits, its pops made, and the rest of its slot is as it was. -/
theorem takeWait_mma : ∃ (streams : List Stream) (ready : Nat) (held : List Popped) (ticket : Option Nat),
    takeWait w (.mma tile seat rows layout done gen) s = setCurSlot (commitPops s) { curSlot s with
      streams := streams, wait := w, pend := .mma tile seat rows layout done gen, readyAt := ready, held := held, ticket := ticket,
      word := s.cur.word, long := s.cur.long, accSg := s.cur.sg, accAddr := s.cur.addr } := by
  obtain ⟨streams, h⟩ := slotOf_commitPops s s.cur.slot
  have hslot : curSlot (commitPops s) = { curSlot s with streams := streams } := by
    simp only [curSlot, commitPops_cur, h]
  refine ⟨streams, ticksOf s s.cur.core + 8, s.cur.pops,
    reservedPush (commitPops s) s.cur.core s.cur.pops (.mma tile seat rows layout done gen), ?_⟩
  rw [takeWait, if_neg (by simp [Pending.reissues])]
  simp only [Pending.reg, hslot]

end

theorem observe_onlyReads (t : Tile) (s : State) : observe t s = { s with reads := (observe t s).reads } := by
  rw [observe]
  split <;> rfl

/-- The state in which the tile of an MMA is DRAINING and its thread does not wait yet. -/
def mmaDraining (s : State) (n : Nat) : State :=
  setTile (observe (tileOf (curCore s) n) s) s.cur.core n { tileOf (curCore s) n with state := .draining }

/-- The state in which a thread has issued an MMA whose rows are still to be served (R211). -/
def mmaIssued (s : State) (n seat : Nat) (rows layout : Word) (done : Nat) : State :=
  takeWait { seatWait seat done with sent := true } (.mma n seat rows layout done (heldGen s seat)) (mmaDraining s n)

section
variable (s : State) (n seat : Nat) (rows layout : Word) (done : Nat)

theorem mmaDraining_eq : mmaDraining s n = { s with
    reads := (observe (tileOf (curCore s) n) s).reads
    cores := mapSet s.cores s.cur.core { curCore s with tiles := mapSet (curCore s).tiles n { tileOf (curCore s) n with state := .draining } } } := by
  rw [mmaDraining, observe_onlyReads]
  rfl

theorem cur_mmaDraining : (mmaDraining s n).cur = s.cur := by rw [mmaDraining_eq]

theorem coreOf_mmaDraining : coreOf (mmaDraining s n) s.cur.core =
    { curCore s with tiles := mapSet (curCore s).tiles n { tileOf (curCore s) n with state := .draining } } := by
  rw [mmaDraining_eq, coreOf]
  simp

theorem curSlot_mmaDraining : curSlot (mmaDraining s n) = curSlot s := by
  rw [curSlot, cur_mmaDraining, slotOf, coreOf_mmaDraining]
  rfl

theorem cur_commitPops_mmaDraining : (commitPops (mmaDraining s n)).cur = { s.cur with pops := [] } := by
  rw [commitPops_cur, cur_mmaDraining]

/-- An MMA that is issued makes its pops, and its thread waits. -/
theorem mmaIssued_eq : ∃ (streams : List Stream) (ready : Nat) (held : List Popped) (ticket : Option Nat),
    mmaIssued s n seat rows layout done = setSlot (commitPops (mmaDraining s n)) s.cur.core s.cur.slot { curSlot s with
      streams := streams, wait := { seatWait seat done with sent := true }, pend := .mma n seat rows layout done (heldGen s seat),
      readyAt := ready, held := held, ticket := ticket,
      word := s.cur.word, long := s.cur.long, accSg := s.cur.sg, accAddr := s.cur.addr } := by
  obtain ⟨streams, ready, held, ticket, h⟩ := takeWait_mma (s := mmaDraining s n) (w := { seatWait seat done with sent := true }) (tile := n)
    (seat := seat) (rows := rows) (layout := layout) (done := done) (gen := heldGen s seat)
  refine ⟨streams, ready, held, ticket, Eq.trans h ?_⟩
  rw [setCurSlot, cur_commitPops_mmaDraining, curSlot_mmaDraining, cur_mmaDraining]

/-- Of the package an MMA that is issued changes its core and the barriers of bound reads. -/
theorem mmaIssued_onlyCores : mmaIssued s n seat rows layout done = { s with
    cores := (mmaIssued s n seat rows layout done).cores, reads := (mmaIssued s n seat rows layout done).reads,
    cur := (mmaIssued s n seat rows layout done).cur } := by
  obtain ⟨_, _, _, _, h⟩ := mmaIssued_eq s n seat rows layout done
  rw [h, commitPops, foldl_commitPop_onlyCores, mmaDraining_eq]
  rfl

/-- Its slot waits for the rows, and is otherwise as it was. -/
theorem slotOf_mmaIssued : ∃ (streams : List Stream) (ready : Nat) (held : List Popped) (ticket : Option Nat),
    slotOf (mmaIssued s n seat rows layout done) s.cur.core s.cur.slot = { curSlot s with
      streams := streams, wait := { seatWait seat done with sent := true }, pend := .mma n seat rows layout done (heldGen s seat),
      readyAt := ready, held := held, ticket := ticket,
      word := s.cur.word, long := s.cur.long, accSg := s.cur.sg, accAddr := s.cur.addr } := by
  obtain ⟨streams, ready, held, ticket, h⟩ := mmaIssued_eq s n seat rows layout done
  exact ⟨streams, ready, held, ticket, by rw [h, slotOf_setSlot_self]⟩

/-- Its core has the tile DRAINING, and keeps its scratchpad. -/
theorem coreOf_mmaIssued : ∃ queues slots, coreOf (mmaIssued s n seat rows layout done) s.cur.core = { curCore s with
    tiles := mapSet (curCore s).tiles n { tileOf (curCore s) n with state := .draining }, queues := queues, slots := slots } := by
  obtain ⟨_, _, _, _, h⟩ := mmaIssued_eq s n seat rows layout done
  obtain ⟨queues, _, hpop⟩ := coreOf_foldl_commitPop s.cur.core s.cur.pops (mmaDraining s n)
  have hcommit : coreOf (commitPops (mmaDraining s n)) s.cur.core =
      coreOf (s.cur.pops.foldl (commitPop s.cur.core) (mmaDraining s n)) s.cur.core := by
    rw [commitPops, cur_mmaDraining]
    rfl
  rw [h, coreOf_setSlot_self, hcommit, hpop, coreOf_mmaDraining]
  exact ⟨queues, _, rfl⟩

theorem byteAt_mmaIssued (h : Home) : byteAt (mmaIssued s n seat rows layout done) h = byteAt s h := by
  obtain ⟨_, _, _, _, hw⟩ := mmaIssued_eq s n seat rows layout done
  rw [hw, byteAt_setSlot, byteAt_commitPops, mmaDraining, byteAt_setTile, observe_onlyReads, byteAt_withReads]

/-- What the unit reads of a row of the tile once the tile is DRAINING. -/
theorem mmaOperand_mmaIssued (x : Seat) (j : Nat) : mmaOperand (mmaIssued s n seat rows layout done) s.cur.core x n j layout =
    mmaOperand s s.cur.core x n j layout := by
  obtain ⟨_, _, h⟩ := coreOf_mmaIssued s n seat rows layout done
  have hbase : (tileOf (coreOf (mmaIssued s n seat rows layout done) s.cur.core) n).base = (tileOf (coreOf s s.cur.core) n).base := by
    rw [h, tileOf]
    simp [curCore]
  rw [mmaOperand, mmaOperand, hbase, h]
  rfl

end

/-! ### The checks of an MMA (R207, R328) -/

section
variable {α : Type} {m : Exec α} {s s' t : State} {a b : α}

theorem Ends.not_traps {i : TrapInfo} (h : Ends m s a s') (h' : Traps m s i t) : False :=
  nomatch (Prod.mk.inj (h.symm.trans h')).1

theorem Ends.not_waits {w : WaitState} {p : Pending} (h : Ends m s a s') (h' : Waits m s w p t) : False :=
  nomatch (Prod.mk.inj (h.symm.trans h')).1

theorem Ends.unique (h : Ends m s a s') (h' : Ends m s b t) : a = b ∧ s' = t :=
  (Prod.mk.inj (h.symm.trans h')).imp_left Except.ok.inj

end

/-- A seat that passes its checks is there, is the estate's, and is held at its GENERATION. -/
theorem seat_of_ends_checkSeat {s s' : State} {w : Word} {seat : Nat} {unit : Bool} (h : Ends (checkSeat w unit) s seat s') :
    (seat = w.toNat ∧ s' = withGen s w.toNat) ∧ seatAdmits s w.toNat unit = true := by
  by_cases hn : 2048 ≤ w.toNat
  · exact (h.not_traps (checkSeat_traps_of_no_seat hn)).elim
  rw [Nat.not_le] at hn
  by_cases hhere : s.cur.defer = false ∨ (mapFind (curCore s).gens w.toNat).isSome = true
  · cases hadmits : seatAdmits s w.toNat unit with
    | false => exact (h.not_traps (checkSeat_traps_of_refused hhere hn hadmits)).elim
    | true => exact ⟨h.unique (checkSeat_ends hhere hn hadmits), rfl⟩
  · simp only [not_or, Bool.not_eq_false, Bool.not_eq_true, Option.isSome_eq_false_iff, Option.isNone_iff_eq_none] at hhere
    exact (h.not_waits (checkSeat_waits hn hhere.1 hhere.2)).elim

/-- The checks of a seat change of the package its core alone, and of that what it holds of the seats. -/
theorem ends_checkSeat_kept {s s' : State} {w : Word} {seat : Nat} {unit : Bool} (h : Ends (checkSeat w unit) s seat s') :
    curSlot s' = curSlot s ∧ (∀ x, byteAt s' x = byteAt s x) ∧ s'.units = s.units ∧
      seatRefused s' (curEstate s') seat (heldGen s' seat) = false ∧ (seatOf s' (seat / 16) (seat % 16)).suspended = false := by
  obtain ⟨⟨rfl, rfl⟩, hadmits⟩ := seat_of_ends_checkSeat h
  simp only [seatAdmits, Bool.and_eq_true, Bool.not_eq_true', beq_iff_eq] at hadmits
  obtain ⟨⟨⟨⟨huses, hbar⟩, hgen⟩, hsus⟩, -⟩ := hadmits
  have hcore : coreOf (withGen s w.toNat) s.cur.core = { curCore s with gens := mapSet (curCore s).gens w.toNat (readGen s w.toNat) } :=
    coreOf_setCore_self ..
  have hslot : curSlot (withGen s w.toNat) = curSlot s := by
    change (mapFind (coreOf (withGen s w.toNat) s.cur.core).slots s.cur.slot).getD {} = _
    rw [hcore]
    rfl
  refine ⟨hslot, fun x => byteAt_setCore (by rfl) x, rfl, ?_, hsus⟩
  rw [curEstate, hslot, heldGen_withGen, hgen]
  simp only [seatRefused, Bool.or_eq_false_iff, Bool.not_eq_false', bne_eq_false_iff_eq]
  exact ⟨⟨huses, hbar⟩, rfl⟩

/-! ### The issue of an MMA -/

theorem heldGen_mmaDraining (s : State) (n seat : Nat) : heldGen (mmaDraining s n) seat = heldGen s seat := by
  rw [heldGen, curCore, cur_mmaDraining, coreOf_mmaDraining, heldGen]

section
variable {s s1 s2 : State} {a b : Reg} {e : EReg} {seat : Nat} (hcore : s.cur.core < garnet) (ht : Takes [a, b] none s s1)
  (hok : mmaIllegal (eval s1 e.toNat) (eval s1 (e.toNat + 1)) = false) (hc : Ends (checkSeat (gval s1 b) false) s1 seat s2)
  (hka : (seatOf s2 (seat / 16) (seat % 16)).ka ≠ 0)
  (hstride : bits (eval s1 (e.toNat + 1)) 0 18 = 0 ∨ (seatOf s2 (seat / 16) (seat % 16)).rowBytes ≤ bits (eval s1 (e.toNat + 1)) 0 18)
  (hf : TileFits s2 (gval s1 a).toNat (mmaBytes (seatOf s2 (seat / 16) (seat % 16)) (eval s1 e.toNat) (eval s1 (e.toNat + 1))))
  (hready : (tileOf (curCore s2) (gval s1 a).toNat).state = .ready)
  (hdrain : drainAhead s2 s2.cur.core s2.cur.slot seat = false)
  (hlost : ∀ q, (curSlot s1).rows.filter (·.seat == seat) = some q → q.lost = false)
include hcore ht hok hc hka hstride hf hready hdrain hlost

/-- An MMA whose checks pass has its tile DRAINING and waits for its rows, unless they are served at once. -/
theorem execMma_of_checked :
    let done := (((curSlot s1).rows.filter (·.seat == seat)).map (·.done)).getD 0
    let t := mmaIssued s2 (gval s1 a).toNat seat (eval s1 e.toNat) (eval s1 (e.toNat + 1)) done
    execMma a b e s = .next (if s.cur.defer then t else (mmaStep s.cur.core s.cur.slot)^[9] t) := by
  intro done t
  obtain ⟨-, -, hunits, -⟩ := ends_checkSeat_kept hc
  have hseat : seatOf s1 (seat / 16) (seat % 16) = seatOf s2 (seat / 16) (seat % 16) := by rw [seatOf, unitOf, ← hunits]; rfl
  obtain ⟨s3, hs3⟩ : ∃ s3, s3 = observe (tileOf (curCore s2) (gval s1 a).toNat) s2 := ⟨_, rfl⟩
  have hcur : s3.cur = s2.cur := hs3 ▸ cur_observe ..
  have hdrain' : drainAhead s3 s3.cur.core s3.cur.slot seat = false := by
    rw [hcur, hs3, observe_onlyReads]
    exact hdrain
  have hlost' : ¬ (((curSlot s1).rows.filter (·.seat == seat)).any (·.lost)) = true := by
    cases hq : (curSlot s1).rows.filter (·.seat == seat) with
    | none => simp
    | some q => simp [hlost q hq]
  have hdraining : mmaDraining s2 (gval s1 a).toNat =
      setTile s3 s3.cur.core (gval s1 a).toNat { tileOf (curCore s3) (gval s1 a).toNat with state := .draining } := by
    rw [hcur, hs3, mmaDraining, observe_onlyReads]
    rfl
  unfold execMma
  dsimp only
  rw [run_of_waits (w := { seatWait seat done with sent := true }) (s' := mmaDraining s2 (gval s1 a).toNat)
    (p := .mma (gval s1 a).toNat seat (eval s1 e.toNat) (eval s1 (e.toNat + 1)) done (heldGen s2 seat))]
  · change Host.Outcome.next (if s.cur.defer then t else (List.range 9).foldl (fun u _ => mmaStep s.cur.core s.cur.slot u) t) = _
    rw [List.foldl_const, List.length_range]
  refine (notGarnet_of_lt hcore).bind_waits (Ends.bind_waits ht (waits_get_bind (waits_ite_of_neg (by simp [hok]) (hc.bind_waits
    (waits_ite_of_neg hlost' (waits_ite_of_neg ?_ ?_))))))
  · rw [hseat]
    simpa [hka, or_iff_not_imp_left] using hstride
  rw [hseat]
  subst hs3
  refine (ends_namedTile hf.number hf.installed (by simp [hready]) hf.room).bind_waits
    ((awaitTile_ends (tileWaitOver_needReady hf.settled hready)).bind_waits ((ends_behindDrains hdrain').bind_waits
      (Ends.bind_waits (a := ⟨⟩) ((ends_modify ..).2 hdraining.symm) (waits_get_bind ?_))))
  rw [heldGen_mmaDraining]
  exact (waits_waitFor ..).2 ⟨⟨rfl, rfl⟩, rfl⟩

end

/-- The rows of an MMA that nothing comes before can be served at once (R212). -/
theorem atUnit_mmaIssued {s1 s2 : State} {w : Word} {seat : Nat} {unit : Bool} (hc : Ends (checkSeat w unit) s1 seat s2)
    (n : Nat) (rows layout : Word)
    (hstores : (curSlot s2).stores = []) (hunit : s2.halted.contains (seat / 16) = false)
    (hring : ∀ q ∈ (unitOf s2 (seat / 16)).ring, q.seat ≠ seat % 16)
    (hown : foreignBank (unitOf s2 (seat / 16)) (seatOf s2 (seat / 16) (seat % 16)) (curEstate s2) = false) :
    AtUnit (mmaIssued s2 n seat rows layout 0) s2.cur.core s2.cur.slot n seat rows layout 0 (heldGen s2 seat) := by
  obtain ⟨-, -, -, hadmits, hpresent⟩ := ends_checkSeat_kept hc
  obtain ⟨_, _, _, _, hslot⟩ := slotOf_mmaIssued s2 n seat rows layout 0
  have hcores := mmaIssued_onlyCores s2 n seat rows layout 0
  refine ⟨by rw [hslot], by rw [hslot]; exact hstores, ?_, by rw [hcores]; exact hunit, by rw [hcores]; exact hpresent,
    by rw [hcores]; exact hring, ?_⟩
  · rw [hslot, hcores]
    exact hadmits
  · rw [hslot, hcores]
    exact hown

/-- An MMA whose rows are served at once: its steps end with the last row, and those behind it find no row. -/
theorem iterate_mmaStep_mmaIssued {s : State} {n seat : Nat} {rows layout : Word} (hcount : mmaCount rows ≤ 8)
    (h : AtUnit (mmaIssued s n seat rows layout 0) s.cur.core s.cur.slot n seat rows layout 0 (heldGen s seat))
    (hrun : clusterOf s.cur.core ∉ s.halted)
    (hv : ∀ j, j < mmaCount rows → mmaOperand s s.cur.core (seatOf s (seat / 16) (seat % 16)) n j layout ≠ none) :
    (mmaStep s.cur.core s.cur.slot)^[9] (mmaIssued s n seat rows layout 0) =
      mmaEnded s.cur.core s.cur.slot n (rowServed (mmaIssued s n seat rows layout 0) seat (rowsAdded (unitOf s (seat / 16)) (mmaRow0 rows)
        (fun j => (mmaOperand s s.cur.core (seatOf s (seat / 16) (seat % 16)) n j layout).getD (0, 0)) 0 (mmaCount rows)
        (seatOf s (seat / 16) (seat % 16)))) := by
  have hcores := mmaIssued_onlyCores s n seat rows layout 0
  have hunit : unitOf (mmaIssued s n seat rows layout 0) (seat / 16) = unitOf s (seat / 16) := by rw [hcores]; rfl
  have hseat : seatOf (mmaIssued s n seat rows layout 0) (seat / 16) (seat % 16) = seatOf s (seat / 16) (seat % 16) := by
    rw [seatOf, hunit, seatOf]
  have hpos : mmaCount rows = bits rows 3 3 + 1 := rfl
  have hrows := iterate_mmaStep_of_atUnit (o := fun j => (mmaOperand s s.cur.core (seatOf s (seat / 16) (seat % 16)) n j layout).getD (0, 0))
    (bits rows 3 3) h ((Nat.zero_add _).trans hpos.symm) (by rw [hcores]; exact hrun) fun j _ hj => by
      obtain ⟨v, hv⟩ := Option.ne_none_iff_exists'.mp (hv j hj)
      rw [hseat, mmaOperand_mmaIssued, hv, Option.getD_some]
  rw [← hpos, hunit, hseat] at hrows
  rw [show 9 = (9 - mmaCount rows) + mmaCount rows by omega, Function.iterate_add_apply, hrows]
  exact Function.iterate_fixed (mmaStep_of_idle (by rw [slotOf_mmaEnded]; rfl)) _

section
variable (s : State) (n seat : Nat) (rows layout : Word) (y : Seat)

/-- Every tile is as before such an MMA. -/
theorem tileOf_mmaEnded_mmaIssued (hready : (tileOf (curCore s) n).state = .ready) (m : Nat) :
    tileOf (coreOf (mmaEnded s.cur.core s.cur.slot n (rowServed (mmaIssued s n seat rows layout 0) seat y)) s.cur.core) m =
      tileOf (curCore s) m := by
  obtain ⟨_, _, hcore⟩ := coreOf_mmaIssued s n seat rows layout 0
  have hserved : coreOf (rowServed (mmaIssued s n seat rows layout 0) seat y) s.cur.core = coreOf (mmaIssued s n seat rows layout 0) s.cur.core :=
    rfl
  by_cases hm : m = n
  · subst hm
    rw [tileOf_mmaEnded_self, hserved, hcore, ← hready]
    simp [tileOf]
  · rw [tileOf_mmaEnded_of_ne hm, hserved, hcore]
    simp [tileOf, mapFind_mapSet_of_ne _ _ hm]

/-- Its thread has fallen through and waits for nothing. -/
theorem slotOf_mmaEnded_mmaIssued (hpast : (curSlot s).past = false) :
    let x := slotOf (mmaEnded s.cur.core s.cur.slot n (rowServed (mmaIssued s n seat rows layout 0) seat y)) s.cur.core s.cur.slot
    x.pc = ((curSlot s).fall (if s.cur.long then 4 else 2)).pc ∧ x.wait = {} ∧ x.pend = .none ∧ x.g = (curSlot s).g := by
  obtain ⟨_, _, _, _, hslot⟩ := slotOf_mmaIssued s n seat rows layout 0
  have hserved : slotOf (rowServed (mmaIssued s n seat rows layout 0) seat y) s.cur.core s.cur.slot =
      slotOf (mmaIssued s n seat rows layout 0) s.cur.core s.cur.slot := rfl
  obtain ⟨hpc, hg⟩ := mmaEndedSlot_of_not_past (s := rowServed (mmaIssued s n seat rows layout 0) seat y) (core := s.cur.core) (k := s.cur.slot)
    (by rw [hserved, hslot]; exact hpast)
  rw [hserved, hslot] at hpc hg
  rw [slotOf_mmaEnded]
  exact ⟨hpc, rfl, rfl, hg⟩

end

/-- Settles O42: the MMA waits with its tile DRAINING; served at once, the unit's steps add its rows and end it. -/
theorem matrixRowsAccumulate : Obligations.MatrixRowsAccumulate := by
  intro s s1 s2 a b e seat hcore u i r l n x t ht hok hc hka hstride hn hsize hroom hready hpending hdrain before done
  have hrun := fun hlost => execMma_of_checked hcore ht hok hc hka hstride ⟨hn, hsize, hroom, hpending⟩ hready hdrain hlost
  refine ⟨fun hdefer hlost => (hrun hlost).trans (congrArg _ (if_pos hdefer)), ?_⟩
  intro hdefer hnone hpast hstores hunit hcluster hring hown hv
  obtain ⟨hslot, hbytes, -⟩ := ends_checkSeat_kept hc
  have hpops := ht.popsQueues
  have hcur : s2.cur.core = s.cur.core ∧ s2.cur.slot = s.cur.slot ∧ s2.cur.long = s.cur.long := by
    rw [cur_of_ends_checkSeat hc]
    obtain ⟨_, rfl, -⟩ := hpops
    exact ⟨rfl, rfl, rfl⟩
  obtain ⟨hc2, hk2, hlong⟩ := hcur
  have hcount : mmaCount r ≤ 8 := by
    simp only [mmaIllegal, Bool.or_eq_false_iff, decide_eq_false_iff_not] at hok
    obtain ⟨⟨⟨-, hrows⟩, -⟩, -⟩ := hok
    omega
  have hdone : done = 0 := by simp only [done, hnone, Option.map_none, Option.getD_none]
  have hsteps := iterate_mmaStep_mmaIssued hcount (atUnit_mmaIssued hc n r l hstores hunit hring hown) (by rw [hc2]; simpa using hcluster) hv
  have hend := (hrun fun q hq => absurd (hnone.symm.trans hq) (by simp)).trans (congrArg _ (if_neg (by simp [hdefer])))
  change exec (.mma a b e) s = .next ((mmaStep s.cur.core s.cur.slot)^[9] (mmaIssued s2 n seat r l done)) at hend
  rw [hdone, ← hc2, ← hk2, hsteps] at hend
  obtain ⟨hpc, hwait, hpend, hg⟩ := slotOf_mmaEnded_mmaIssued s2 n seat r l (rowsAdded (unitOf s2 u) (mmaRow0 r)
    (fun j => (mmaOperand s2 s2.cur.core x n j l).getD (0, 0)) 0 (mmaCount r) x) hpast
  refine ⟨_, hend, ?_, fun u' i' hne => ?_, fun k => ?_, ?_, ?_, ?_, ?_, fun h => ?_⟩
  · rw [seatOf_mmaEnded, seatOf_rowServed_self, rowsAdded, List.range_eq_range']
  · rw [seatOf_mmaEnded, seatOf_rowServed_of_ne _ _ hne, mmaIssued_onlyCores]
    rfl
  · rw [← hc2]
    exact tileOf_mmaEnded_mmaIssued s2 n seat r l _ hready k
  · rw [← hc2, ← hk2, ← hlong, hpc, hslot, hpops.curSlot_eq]
  · rw [← hc2, ← hk2]
    exact hwait
  · rw [← hc2, ← hk2]
    exact hpend
  · rw [← hc2, ← hk2]
    exact hg.trans (by rw [hslot, hpops.curSlot_eq])
  · rw [byteAt_mmaEnded, byteAt_rowServed, byteAt_mmaIssued, hbytes, hpops.byteAt_eq]

end Sys2Proof.Machine
end

section
/-! SUPPORT. The events of the copy engine and of the matrix units (R210, R212, R213, R218, R267, R290, R292, R293); O45. -/

namespace Sys2Proof.Machine

/-! ### The end of an engine operation -/

section
variable {s : State} {op : Nat} {o : EngineOp}

/-- What a task that is not aborting leaves to its end. -/
theorem finishAbort_of_not_aborting {h : Nat} (hphase : (taskOf s h).phase ≠ .aborting) : finishAbort s h = s :=
  if_pos (by simp [hphase])

/-- The tile of an operation that ends is READY (R293). -/
theorem tileOf_endOp (hphase : (taskOf s o.task).phase ≠ .aborting) :
    tileOf (coreOf (endOp s op o none) o.core) o.tile = { tileOf (coreOf s o.core) o.tile with state := .ready } := by
  let s1 : State := { setTile s o.core o.tile { tileOf (coreOf s o.core) o.tile with state := .ready } with
    ops := mapErase s.ops op, outstanding := s.outstanding.filter (fun x => !x.copy.any (·.1 == op)) }
  have hend : endOp s op o none = s1 := by
    change (if o.task = 0 then s1 else finishAbort s1 o.task) = s1
    split
    · rfl
    · exact finishAbort_of_not_aborting hphase
  rw [hend]
  exact tileOf_setTile_self ..

/-- What waits for one element of an operation waits for the operation. -/
theorem filter_copy_filter (elem : Nat) (l : List Outstanding) :
    (l.filter (fun x => !x.copy.any (fun c => c.1 == op && c.2 % 2 ^ 24 == elem))).filter (fun x => !x.copy.any (·.1 == op)) =
      l.filter (fun x => !x.copy.any (·.1 == op)) := by
  rw [List.filter_filter]
  refine List.filter_congr fun x _ => ?_
  cases x.copy with
  | none => rfl
  | some c =>
    simp only [Option.any_some]
    cases (c.1 == op) <;> rfl

/-- The last element of a copy ends it. -/
theorem elementDone_of_last {elem : Nat} (hlast : o.done.length + 1 = copyCount o.regs) :
    elementDone s op o elem = endOp s op { o with done := elem :: o.done, token := none } none := by
  rw [elementDone]
  refine (if_pos hlast).trans ?_
  simp only [endOp, filter_copy_filter]
  rfl

end

/-! ### A copy's element access (R290, R292) -/

section
variable {s : State} {op elem : Nat} {o : EngineOp}

/-- The offset of an element on the memory side. -/
def elementMem (o : EngineOp) (elem : Nat) : Int :=
  ((o.reg (if copyOut o.regs then 1 else 0)).toNat : Int) +
    (copySize o.regs : Int) * copyOffset o.regs (if copyOut o.regs then 9 else 5) elem

/-- An element access that nothing holds back moves its element. -/
theorem execCopyAccess_of_released (hop : opOf s op = some o) (hkind : o.kind = .copy) (helem : elem < copyCount o.regs) (hnew : elem ∉ o.done)
    (hrel : released s o = true) (hrun : s.halted.contains (clusterOf o.core) = false) (htoken : o.token = none) (hfailed : o.failed = none)
    (huses : uses s o.estate (parcelEngine (clusterOf o.core)) = true) (hforeign : foreignPlain s o = false) (reply : Reply) :
    execCopyAccess op elem reply s = .next (copyElement (flushScratch o.core s) op o elem reply) := by
  simp [execCopyAccess, hop, hkind, Nat.not_le.mpr helem, hnew, hrel, by simpa using hrun, htoken, hfailed, huses, hforeign]

/-- A copy that does not gather reads no table. -/
theorem copyElement_of_plain (hgather : copyGather o.regs = false) : copyElement s op o elem .home = moveElement s op o elem (elementMem o elem)
    (((o.reg (if copyOut o.regs then 0 else 1)).toNat : Int) + (copySize o.regs : Int) * copyOffset o.regs (if copyOut o.regs then 5 else 9) elem)
    .home none := by
  rw [copyElement, if_neg (by simp [hgather])]
  rfl

/-- From memory into the tile. -/
theorem moveElement_into {ps : List Piece} {s1 s2 : State} {v : Nat} {off tileOff : Int} (hgather : copyGather o.regs = false)
    (hout : copyOut o.regs = false)
    (hattempt : attempt s o (copyAccess o off (copySize o.regs) true) = (.ok ps, s1))
    (hload : engineLoad op elem o (copyAccess o off (copySize o.regs) true) ps none s1 = (.value v, s2)) :
    moveElement s op o elem off tileOff .home none =
      elementDone (storeHome s2 (.scratch o.core ((tileOf (coreOf s o.core) o.tile).base + tileOff.toNat)) (copySize o.regs) v
        (fullMask (copySize o.regs))) op o elem := by
  simp only [moveElement, hgather, Bool.false_and, Bool.false_eq_true, ↓reduceIte, hout, Bool.not_false, hattempt, replyStatus, ite_self, hload]

theorem piece_of_mem_writesOf {w : Write} : ∀ {ps : List Piece} {v : Nat}, w ∈ writesOf ps v → w.piece ∈ ps
  | [], _, h => by simp [writesOf] at h
  | p :: ps, v, h => by
    rcases List.mem_cons.mp h with rfl | h
    · exact List.mem_cons_self
    · exact List.mem_cons_of_mem _ (piece_of_mem_writesOf h)

/-- From the tile into memory, where no line of the pieces is elsewhere. -/
theorem moveElement_out {ps : List Piece} {s1 s2 : State} {v : Nat} {off tileOff : Int} (hgather : copyGather o.regs = false)
    (hout : copyOut o.regs = true)
    (hattempt : attempt s o (copyAccess o off (copySize o.regs) false) = (.ok ps, s1)) (hhere : ∀ p ∈ ps, needsLine s1 p.home true = false)
    (hload : loadHome s1 (.scratch o.core ((tileOf (coreOf s o.core) o.tile).base + tileOff.toNat)) (copySize o.regs) = .value v)
    (hwrite : performWrites (prepareWrites s1 (writesOf ps v)) o.core o.estate o.task (writesOf ps v) = (.done, s2)) :
    moveElement s op o elem off tileOff .home none = elementDone s2 op o elem := by
  simp only [moveElement, hgather, Bool.false_and, Bool.false_eq_true, ↓reduceIte, hout, Bool.not_true, hattempt, replyStatus, hload]
  rw [if_neg ?sent, engineStore, if_neg ?away, hwrite]
  case sent =>
    intro h
    obtain ⟨p, hp, hsent⟩ := List.any_eq_true.mp (Bool.and_eq_true_iff.mp h).1
    have hline := hhere p hp
    cases hhome : p.home with
    | remote g a =>
      rw [hhome, needsLine, Bool.or_eq_false_iff] at hline
      simp [hhome, hline.1] at hsent
    | _ => simp [hhome] at hsent
  case away =>
    intro h
    obtain ⟨w, hw, haway⟩ := List.any_eq_true.mp h
    simp [away, hhere _ (piece_of_mem_writesOf hw)] at haway

end

/-! ### MLOADB and MDRAIN at the unit (R210, R213) -/

section
variable {s : State} {op : Nat} {o : EngineOp} (hop : opOf s op = some o) (hrel : released s o = true)
  (hrun : s.halted.contains (clusterOf o.core) = false) (hunit : s.halted.contains (o.seat / 16) = false)
  (hseat : seatRefused s o.estate o.seat o.gen = false)
include hop hrel hrun hunit hseat

theorem execMloadbApply_of_admitted (hkind : o.kind = .mloadb)
    (hclean : scratchPoisoned (coreOf s o.core) (tileOf (coreOf s o.core) o.tile).base 66048 = false)
    (huses : uses s o.estate (parcelUnit (o.seat / 16)) = true) :
    execMloadbApply op s = .next (endOp (setUnit s (o.seat / 16) { unitOf s (o.seat / 16) with
      banks := mapSet (unitOf s (o.seat / 16)).banks (2 * bits (o.reg 0) 0 2 + bits (o.reg 0) 2 1)
        { loader := some o.estate, bytes := cutMemory (coreOf s o.core).scratch (tileOf (coreOf s o.core) o.tile).base 66048 } }) op o none) := by
  have hguard : (decide (o.kind ≠ .mloadb) || s.halted.contains (clusterOf o.core) ||
      s.halted.contains (o.seat / 16) || !released s o) = false := by
    simp only [hkind, hrun, hunit, hrel, ne_eq, not_true_eq_false, decide_false, Bool.not_true, Bool.or_self]
  simp only [execMloadbApply, hop, hguard, hclean, huses, hseat, Bool.false_eq_true, ↓reduceIte, Bool.not_false, Bool.and_self]

/-- What a drain leaves in memory and in the seat, its flags raised at the issuer. -/
def drained (s : State) (o : EngineOp) (clear : Bool) : State :=
  let s0 := flushScratch o.core (computeRing (o.seat / 16) (o.seat % 16) s)
  let w := drainRows (seatOf s0 (o.seat / 16) (o.seat % 16)) (o.reg 0) (.scratch o.core (tileOf (coreOf s o.core) o.tile).base)
    (List.range (drainCount (o.reg 0))) 0 s0
  raiseIssuer o w.1 (if clear then
    setSeat w.2 (o.seat / 16) (o.seat % 16) { seatOf s0 (o.seat / 16) (o.seat % 16) with
      acc := (seatOf s0 (o.seat / 16) (o.seat % 16)).acc.filter (fun p =>
        !((List.range (drainCount (o.reg 0))).map (· + drainRow0 (o.reg 0))).contains (p.1 / 1024)) } else w.2)

theorem execMdrainPerform_of_admitted {clear : Bool} (hkind : o.kind = .mdrain clear) (hfirst : drainBefore s op o = false)
    (hpresent : (seatOf s (o.seat / 16) (o.seat % 16)).suspended = false) :
    execMdrainPerform op s = .next (endOp (drained s o clear) op o none) := by
  simp only [execMdrainPerform, hop, hkind, hrun, hunit, hfirst, hpresent, hrel, hseat, Bool.not_true, Bool.or_self, Bool.false_eq_true,
    ↓reduceIte]
  rfl

end

/-! ### A row of an MMA, or a seat's instruction, that waits (R208, R212, R214, R218) -/

section
variable {s : State} {core k : Nat}

theorem execMmaRow_of_live (hlive : (slotOf s core k).live = true) (hrun : s.halted.contains (clusterOf core) = false) :
    execMmaRow core k s = .next (seatStep core k (mmaStep core k s)) := by
  rw [execMmaRow, if_pos (by rw [hlive, hrun]; rfl)]

theorem seatStep_of_mma {tile seat : Nat} {rows layout : Word} {done gen : Nat} (h : (slotOf s core k).pend = .mma tile seat rows layout done gen) :
    seatStep core k s = s := by
  simp only [seatStep, h]

theorem seatStep_of_idle (h : (slotOf s core k).pend = .none) : seatStep core k s = s := by
  simp only [seatStep, h]

theorem mmaStep_of_seat {seat gen : Nat} {ctx : Option (Word × Word)} (h : (slotOf s core k).pend = .seat seat gen ctx) :
    mmaStep core k s = s := by
  simp only [mmaStep, h]

/-- MFMT or MZERO is applied to a seat that is there. -/
theorem seatStep_of_admitted {seat gen : Nat} {ctx : Option (Word × Word)} (h : (slotOf s core k).pend = .seat seat gen ctx)
    (hunit : s.halted.contains (seat / 16) = false) (hseat : seatRefused s (slotOf s core k).estate seat gen = false)
    (hpresent : (seatOf s (seat / 16) (seat % 16)).suspended = false) :
    seatStep core k s = resume core k (modify (fun s => endReply (applySeat seat ctx s))) s := by
  simp only [seatStep, h, hunit, hseat, hpresent, Bool.or_self, Bool.false_eq_true, ↓reduceIte]

section
variable {tile seat : Nat} {rows layout : Word} {done gen : Nat} {v : Nat × Nat}

/-- A row that is not the last leaves its thread waiting for the next. -/
theorem execMmaRow_of_more (hlive : (slotOf s core k).live = true) (hrun : s.halted.contains (clusterOf core) = false)
    (h : AtUnit s core k tile seat rows layout done gen) (hmore : done + 1 < mmaCount rows)
    (hv : mmaOperand s core (seatOf s (seat / 16) (seat % 16)) tile done layout = some v) :
    execMmaRow core k s = .next (rowAwaited core k tile seat rows layout (done + 1) gen (rowServed s seat
      (addRow (unitOf s (seat / 16)) (seatOf s (seat / 16) (seat % 16)) (mmaRow0 rows + done) v.1 v.2))) := by
  rw [execMmaRow_of_live hlive hrun, mmaStep_of_atUnit h (by omega) hv, mmaNext_of_more _ hmore, seatStep_of_mma (by rw [slotOf_rowAwaited])]

/-- The last row ends the MMA. -/
theorem execMmaRow_of_last (hlive : (slotOf s core k).live = true) (hrun : s.halted.contains (clusterOf core) = false)
    (h : AtUnit s core k tile seat rows layout done gen) (hlast : done + 1 = mmaCount rows)
    (hv : mmaOperand s core (seatOf s (seat / 16) (seat % 16)) tile done layout = some v) :
    execMmaRow core k s = .next (mmaEnded core k tile (rowServed s seat
      (addRow (unitOf s (seat / 16)) (seatOf s (seat / 16) (seat % 16)) (mmaRow0 rows + done) v.1 v.2))) := by
  have hruns : clusterOf core ∉ s.halted := by simpa using hrun
  rw [execMmaRow_of_live hlive hrun, mmaStep_of_atUnit h (by omega) hv]
  generalize addRow _ _ _ _ _ = y
  rw [mmaNext_of_last (s := rowServed s seat y) hlast.ge hruns, seatStep_of_idle (by rw [slotOf_mmaEnded]; rfl)]

/-- A row of a suspended seat enters the spill ring. -/
theorem execSuspendedRow_of_room (hlive : (slotOf s core k).live = true) (hrun : s.halted.contains (clusterOf core) = false)
    (hpend : (slotOf s core k).pend = .mma tile seat rows layout done gen)
    (hseat : seatRefused s (slotOf s core k).estate seat gen = false) (hmore : done < mmaCount rows)
    (hv : mmaOperand s core (seatOf s (seat / 16) (seat % 16)) tile done layout = some v) (hunit : s.halted.contains (seat / 16) = false)
    (hstores : (slotOf s core k).stores = []) (hsuspended : (seatOf s (seat / 16) (seat % 16)).suspended = true)
    (hroom : (unitOf s (seat / 16)).ring.length < 128) :
    execSuspendedRow core k s = .next (rowAwaited core k tile seat rows layout (done + 1) gen (setUnit s (seat / 16) { unitOf s (seat / 16) with
      ring := (unitOf s (seat / 16)).ring ++ [⟨seat % 16, mmaRow0 rows + done, (slotOf s core k).estate, core, k, (slotOf s core k).task,
        (slotOf s core k).index, v.1, v.2⟩] })) := by
  simp only [execSuspendedRow, hpend, hlive, hsuspended, hstores, Nat.not_le.mpr hmore, Nat.not_le.mpr hroom, hrun, hunit, hseat, hv,
    Bool.not_true, List.isEmpty_nil, decide_false, Bool.or_self, Bool.false_eq_true, ↓reduceIte]
  rfl

end
end

/-- Settles O45: each event's guards pass, and then it does what its own rule says. -/
theorem engineEvents : Obligations.EngineEvents := by
  intro s op o
  refine ⟨?copy, fun elem hlast => elementDone_of_last hlast, tileOf_endOp, ?load, ?drain, ?row, ?seat, fun _ => rfl⟩
  case copy =>
    intro elem hop hkind helem hnew hrel hrun htoken hfailed huses hforeign hgather z s' t memReg tileReg x place ps s1 s2 v hattempt
    have hexec := execCopyAccess_of_released hop hkind helem hnew hrel hrun htoken hfailed huses hforeign .home
    rw [copyElement_of_plain hgather] at hexec
    refine ⟨fun hout hload => ?_, fun hout hhere hload hwrite => ?_⟩
    · have hx : copyAccess o (elementMem o elem) (copySize o.regs) true = x := by
        change _ = copyAccess o (elementMem o elem) (copySize o.regs) (!copyOut o.regs)
        rw [hout]
        rfl
      exact hexec.trans (congrArg _ (moveElement_into hgather hout (by rw [hx]; exact hattempt) (by rw [hx]; exact hload)))
    · have hx : copyAccess o (elementMem o elem) (copySize o.regs) false = x := by
        change _ = copyAccess o (elementMem o elem) (copySize o.regs) (!copyOut o.regs)
        rw [hout]
        rfl
      exact hexec.trans (congrArg _ (moveElement_out hgather hout (by rw [hx]; exact hattempt) hhere hload hwrite))
  case load =>
    intro hop hkind hrel hrun hunit t hclean huses hseat
    exact execMloadbApply_of_admitted hop hrel hrun hunit hseat hkind hclean huses
  case drain =>
    intro clear hop hkind hrel hrun u i hunit hfirst hpresent hseat s0 w
    exact execMdrainPerform_of_admitted hop hrel hrun hunit hseat hkind hfirst hpresent
  case row =>
    intro core k tile seat rows layout done gen v hlive hpend hseat u i x y hmore hv hunit hrun hstores
    refine ⟨fun hpresent hring hown => ?_, fun hsuspended hroom => ?_⟩
    · have h : AtUnit s core k tile seat rows layout done gen := ⟨hpend, hstores, hseat, hunit, hpresent, hring, hown⟩
      rcases (show done + 1 < mmaCount rows ∨ done + 1 = mmaCount rows by omega) with hlt | hlast
      · refine ⟨_, execMmaRow_of_more hlive hrun h hlt hv, ?_, ?_, fun a => ?_, fun _ => ⟨?_, fun m => ?_⟩, fun hlast => absurd hlast hlt.ne⟩
        · rw [seatOf_rowAwaited, seatOf_rowServed_self]
        · rw [unitOf_rowAwaited, unitOf_rowServed_self]
        · rw [byteAt_rowAwaited, byteAt_rowServed]
        · rw [slotOf_rowAwaited]
        · rw [tileOf_rowAwaited]
          rfl
      · refine ⟨_, execMmaRow_of_last hlive hrun h hlast hv, ?_, ?_, fun a => ?_, fun hlt => absurd hlast hlt.ne, fun _ hpast => ?_⟩
        · rw [seatOf_mmaEnded, seatOf_rowServed_self]
        · rw [unitOf_mmaEnded, unitOf_rowServed_self]
        · rw [byteAt_mmaEnded, byteAt_rowServed]
        · rw [slotOf_mmaEnded]
          exact ⟨rfl, rfl, (mmaEndedSlot_of_not_past hpast).1, tileOf_mmaEnded_self, fun m hm => tileOf_mmaEnded_of_ne hm⟩
    · refine ⟨_, execSuspendedRow_of_room hlive hrun hpend hseat hmore hv hunit hstores hsuspended hroom, ?_, ?_, ?_, fun a => ?_⟩
      · rw [unitOf_rowAwaited, unitOf_setUnit_self]
      · rw [seatOf_rowAwaited, seatOf, unitOf_setUnit_self]
        rfl
      · rw [slotOf_rowAwaited]
      · rw [byteAt_rowAwaited, byteAt_setUnit]
  case seat =>
    intro core k seat gen ctx hlive hpend hunit hrun hseat hpresent
    exact (execMmaRow_of_live hlive hrun).trans (congrArg _ (by
      rw [mmaStep_of_seat hpend, seatStep_of_admitted hpend hunit hseat hpresent]))

end Sys2Proof.Machine
end
